-- ==== Sys2Proof/Word.lean ====
section
/-! DEFINITION. The words of the machine (00_scope R7: bits numbered from 0, values little-endian). -/

namespace Sys2Proof

/-- A byte of memory. -/
abbrev Byte := BitVec 8
/-- A 32-bit general register's value. -/
abbrev Word := BitVec 32
/-- A 64-bit value: an instruction word, a literal, an address or a register pair. -/
abbrev DWord := BitVec 64
/-- The 128 bytes of one cache line, byte `i` in bits `8i + 7 .. 8i` (R23, R100). -/
abbrev Line := BitVec 1024

end Sys2Proof
end

