-- ==== Sys2Proof/Syntax.lean ====
section
/-! DEFINITION. The instruction set of Ryelo 3.0 and the events of the device: one constructor of `Instr` per row of
spec/opcode_table.json. Instruction words carry their operand fields already pulled out of the word; events carry
what the agent that performs them names. -/

namespace Sys2Proof

/-- A general register number g0 to g255 (R137). -/
abbrev Reg := BitVec 8
/-- A predicate number p0 to p7 (R137). -/
abbrev PredNo := BitVec 3
/-- An accumulator tile name a0 to a63 (R137). -/
abbrev TileNo := BitVec 6

/-- A guard: a predicate and its negate bit (R135). -/
structure Guard where
  p : PredNo
  n : Bool
  deriving DecidableEq, Repr

/-- The fields common to every full word: the switch marker S and the two guards (R133, R134). -/
structure Pfx where
  sw : Bool
  ga : Guard
  gb : Guard
  deriving DecidableEq, Repr

/-- The FB operand: a register field, or the literal word at PC + 8 (R139). -/
inductive SrcB
  | reg (r : Reg)
  | lit (w : DWord)
  deriving DecidableEq, Repr

/-- A displacement: 8 signed bits in FB, or the low 32 bits of the literal, signed (R199). -/
inductive Disp
  | short (d : BitVec 8)
  | lit (w : DWord)
  deriving DecidableEq, Repr

/-- The value of `movi`: 8 signed bits of FX, or the literal (R174). -/
inductive MoviImm
  | short (v : BitVec 8)
  | lit (w : DWord)
  deriving DecidableEq, Repr

/-- Type codes of Table 5.5 (R141). -/
inductive Ty
  | s32 | n32 | s16 | n16 | f32 | f16 | e16 | f8a | f8b | f4 | s8 | n8 | s4 | n4 | b32 | b64
  deriving DecidableEq, Repr

/-- Rounding modes (R68; codes of Table 5.6). -/
inductive RM | rn | rz | rd | ru
  deriving DecidableEq, Repr

/-- Scopes (Table 4.5; codes of Table 5.6). -/
inductive Scope | thr | core | pair | die | dev | sys
  deriving DecidableEq, Repr

/-- Ordering qualifiers (Table 5.6). -/
inductive Ord4 | none | acq | rel | ar
  deriving DecidableEq, Repr

/-- Condition codes (Table 6.1). -/
inductive CC | eq | ne | lt | le | gt | ge | num | nan
  deriving DecidableEq, Repr

/-- `pset` operations (R175). -/
inductive LOp | and | or | xor
  deriving DecidableEq, Repr

/-- `shfl` modes (R193). -/
inductive ShflMode | idx | up | down | xor
  deriving DecidableEq, Repr

/-- `vote` modes (R194). -/
inductive VoteMode | all | any | uni | ballot
  deriving DecidableEq, Repr

/-- Fold operations of `redu` and `scan` (Table 6.12). -/
inductive FoldOp | add | min | max | and | or | xor
  deriving DecidableEq, Repr

/-- Operations of `atom` (Table 7.3). -/
inductive AOp | add | min | max | and | or | xor | exch | cas
  deriving DecidableEq, Repr

/-- Classes of outstanding operations (Table 4.6). -/
inductive Cls | copy | gath | arr | march | xch
  deriving DecidableEq, Repr

/-- Element count of a memory access (R202): one, `.x2`, `.x4`. -/
inductive Vec | x1 | x2 | x4
  deriving DecidableEq, Repr

/-- Kinds of verdict (Table 3.9). -/
inductive VKind | sign | thresh | topk
  deriving DecidableEq, Repr

/-- Special registers (Table 14.2). -/
inductive SReg
  | lane | tid | team | wg | wgsize | node | tier | core | pair | ctx | args | recAddr
  | flags | prb | cnt | time | tcause | tpc | tsrc | tword | taddr | tmask | tstat
  | ts0 | ts1 | ts2 | ts3
  deriving DecidableEq, Repr

/-- The half operations of Table 5.8 (R146), named by their full form. -/
inductive HalfOp
  | nop
  | iadd | isub | imul | iminS | iminN | imaxS | imaxN | and | or | xor | shl | shr | sar | rotl
  | iaddI | isubI | shlI | shrI | sarI | rotlI | andI | orI | xorI
  | mov | not | ineg | iabs | popc | clz | brev
  | movi
  | fadd | fsub | fmul | fmin | fmax | fscl
  | hadd2F | hmul2F | hadd2E | hmul2E
  deriving DecidableEq, Repr

/-- One half of a dual word (Table 5.7). -/
structure Half where
  op : HalfOp
  g  : Guard
  hd : Reg
  ha : Reg
  hx : BitVec 4
  deriving DecidableEq, Repr

/-- A thread: its workgroup's identity in the device and its index in it (R26). -/
structure TRef where
  wg  : Nat
  tid : Nat
  deriving DecidableEq, Repr

/-- Which of a core's two sequencers (R263). -/
inductive SeqKind | array | copy
  deriving DecidableEq, Repr

/-- What a placement places (R381): a root-grid workgroup by index, or the oldest waiting batch of a node. -/
inductive PlaceSrc
  | root (wg : Nat)
  | batch (node : Nat)
  | saved
  deriving DecidableEq, Repr

/-- Where an uncorrectable error struck (Table 14.9). TLBs are numbered: a core's by its core, 192 and 193 the dies' last-level TLBs, 194
the hub's. -/
inductive ErrSite
  | mem (line : Nat)
  | comp (part ridx line : Nat)
  | l1 (core line : Nat)
  | coreStorage (core unit : Nat)
  | coreDroppable (core : Nat)
  | tlb (tlb entry : Nat)
  | l2tags (part : Nat)
  | hub
  deriving DecidableEq, Repr

/-- A unit whose corrected errors are counted (R364): its number in UNIT (Table 18.8) and, where units of its kind belong to a core, the
core. -/
structure ErrUnit where
  kind : Nat
  core : Nat
  deriving DecidableEq, Repr

/-- What a fabric packet carries (R419, R421): a remote write of 4-byte words, a read request and its answer, a
barrier delivery, an acknowledgement, or a report that an operation will not be performed. -/
inductive PktBody
  | write (va : Nat) (bytes : List Byte)
  | read (va size : Nat) (tag : Nat)
  | answer (tag : Nat) (bytes : List Byte)
  | deliver (wg off sectors : Nat)
  | ack (upto : BitVec 24)
  | failed (tag : Nat)
  deriving DecidableEq, Repr

/-- A received packet: the sending device and endpoint, and its 24-bit sequence number (R419). -/
structure Pkt where
  peer  : Nat
  part  : Nat
  asid  : Nat
  rasid : Nat
  rpart : Nat
  seq   : BitVec 24
  body  : PktBody
  deriving DecidableEq, Repr

/-- The rows of spec/opcode_table.json: instruction words first, then the device's events. -/
inductive Instr
  -- integer and predicate (Table 6.2)
  | iadd (p : Pfx) (ty : Ty) (sat : Bool) (d a : Reg) (b : SrcB)
  | isub (p : Pfx) (ty : Ty) (sat : Bool) (d a : Reg) (b : SrcB)
  | imul (p : Pfx) (ty : Ty) (sat : Bool) (d a : Reg) (b : SrcB)
  | imulh (p : Pfx) (ty : Ty) (d a : Reg) (b : SrcB)
  | imad (p : Pfx) (ty : Ty) (sat : Bool) (d a : Reg) (b : SrcB) (c : Reg)
  | iaddc (p : Pfx) (d a : Reg) (b : SrcB) (pc : PredNo)
  | isubb (p : Pfx) (d a : Reg) (b : SrcB) (pc : PredNo)
  | imin (p : Pfx) (ty : Ty) (d a : Reg) (b : SrcB)
  | imax (p : Pfx) (ty : Ty) (d a : Reg) (b : SrcB)
  | iabs (p : Pfx) (ty : Ty) (sat : Bool) (d a : Reg)
  | ineg (p : Pfx) (ty : Ty) (sat : Bool) (d a : Reg)
  | sel (p : Pfx) (wide : Bool) (d a : Reg) (b : SrcB) (pc : PredNo)
  | icmp (p : Pfx) (cc : CC) (ty : Ty) (pd : PredNo) (a : Reg) (b : SrcB)
  | mov (p : Pfx) (wide : Bool) (d a : Reg)
  | movi (p : Pfx) (wide : Bool) (d : Reg) (v : MoviImm)
  | pset (p : Pfx) (op : LOp) (na nb : Bool) (pd pa pb : PredNo)
  | pmov (p : Pfx) (d : Reg)
  | pmovSet (p : Pfx) (a : Reg) (mask : BitVec 7)
  -- address (Table 6.3)
  | lea (p : Pfx) (ty : Ty) (d a : Reg) (b : SrcB) (sh : BitVec 3)
  | ladd (p : Pfx) (d a : Reg) (b : SrcB)
  | lsub (p : Pfx) (d a : Reg) (b : SrcB)
  | lcmp (p : Pfx) (cc : CC) (sgn : Bool) (pd : PredNo) (a : Reg) (b : SrcB)
  -- bit (Table 6.4)
  | bAnd (p : Pfx) (wide : Bool) (d a : Reg) (b : SrcB)
  | bOr (p : Pfx) (wide : Bool) (d a : Reg) (b : SrcB)
  | bXor (p : Pfx) (wide : Bool) (d a : Reg) (b : SrcB)
  | bNot (p : Pfx) (wide : Bool) (d a : Reg)
  | shl (p : Pfx) (d a : Reg) (b : SrcB)
  | shr (p : Pfx) (d a : Reg) (b : SrcB)
  | sar (p : Pfx) (d a : Reg) (b : SrcB)
  | rotl (p : Pfx) (d a : Reg) (b : SrcB)
  | bfx (p : Pfx) (ty : Ty) (d a : Reg) (b : SrcB)
  | bfi (p : Pfx) (d a : Reg) (b : SrcB) (c : Reg)
  | popc (p : Pfx) (d a : Reg)
  | clz (p : Pfx) (d a : Reg)
  | brev (p : Pfx) (d a : Reg)
  -- floating point (Table 6.5)
  | fadd (p : Pfx) (rm : RM) (d a : Reg) (b : SrcB)
  | fsub (p : Pfx) (rm : RM) (d a : Reg) (b : SrcB)
  | fmul (p : Pfx) (rm : RM) (d a : Reg) (b : SrcB)
  | ffma (p : Pfx) (rm : RM) (d a : Reg) (b : SrcB) (c : Reg)
  | fmin (p : Pfx) (d a : Reg) (b : SrcB)
  | fmax (p : Pfx) (d a : Reg) (b : SrcB)
  | fcmp (p : Pfx) (cc : CC) (pd : PredNo) (a : Reg) (b : SrcB)
  | fsel (p : Pfx) (cc : CC) (d a : Reg) (b : SrcB) (c : Reg)
  | fclass (p : Pfx) (d a : Reg)
  | frnd (p : Pfx) (rm : RM) (d a : Reg)
  | ffrac (p : Pfx) (d a : Reg)
  | fscl (p : Pfx) (d a : Reg) (b : SrcB)
  -- special functions (Table 6.7)
  | frcp (p : Pfx) (rm : RM) (d a : Reg)
  | frsq (p : Pfx) (d a : Reg)
  | fsqrt (p : Pfx) (rm : RM) (d a : Reg)
  | fexp2 (p : Pfx) (d a : Reg)
  | flog2 (p : Pfx) (d a : Reg)
  | fsin (p : Pfx) (d a : Reg)
  | fcos (p : Pfx) (d a : Reg)
  -- packed 16-bit (Table 6.8)
  | hadd2 (p : Pfx) (ty : Ty) (rm : RM) (d a : Reg) (b : SrcB)
  | hmul2 (p : Pfx) (ty : Ty) (rm : RM) (d a : Reg) (b : SrcB)
  | hfma2 (p : Pfx) (rm : RM) (d a : Reg) (b : SrcB) (c : Reg)
  | efma2 (p : Pfx) (rm : RM) (d a : Reg) (b : SrcB) (c : Reg)
  -- intervals (Table 6.9)
  | ivadd (p : Pfx) (d a : Reg) (b : SrcB)
  | ivsub (p : Pfx) (d a : Reg) (b : SrcB)
  | ivmul (p : Pfx) (d a : Reg) (b : SrcB)
  | ivsqr (p : Pfx) (d a : Reg)
  | ivsqrt (p : Pfx) (d a : Reg)
  | ivmin (p : Pfx) (d a : Reg) (b : SrcB)
  | ivmax (p : Pfx) (d a : Reg) (b : SrcB)
  | ivabs (p : Pfx) (d a : Reg)
  | ivhull (p : Pfx) (d a : Reg) (b : SrcB)
  | ivsplit (p : Pfx) (d c a : Reg)
  -- conversion and packed (R187 to R190)
  | cvt (p : Pfx) (dt st : Ty) (rm : RM) (sat : Bool) (d a : Reg)
  | cvef (p : Pfx) (dt : Ty) (d a c : Reg)
  | pack (p : Pfx) (ty : Ty) (idx : BitVec 3) (d a : Reg)
  | unpack (p : Pfx) (ty : Ty) (idx : BitVec 3) (d a : Reg)
  | prm (p : Pfx) (d a : Reg) (b : SrcB) (c : Reg)
  | dot2 (p : Pfx) (ty : Ty) (d a : Reg) (b : SrcB) (c : Reg)
  | dot4 (p : Pfx) (ty : Ty) (d a : Reg) (b : SrcB) (c : Reg)
  | dot8 (p : Pfx) (ty : Ty) (d a : Reg) (b : SrcB) (c : Reg)
  -- lane and team (Table 6.11)
  | rdfl (p : Pfx) (wide : Bool) (d a : Reg)
  | bcast (p : Pfx) (wide : Bool) (d a : Reg) (lane : BitVec 5)
  | shfl (p : Pfx) (mode : ShflMode) (wide : Bool) (d a : Reg) (b : SrcB)
  | vote (p : Pfx) (mode : VoteMode) (d a : Reg)
  | redu (p : Pfx) (op : FoldOp) (ty : Ty) (d a : Reg)
  | scan (p : Pfx) (op : FoldOp) (excl : Bool) (ty : Ty) (d a : Reg)
  | matchL (p : Pfx) (wide : Bool) (d a : Reg)
  | hist (p : Pfx) (d a : Reg) (sh : BitVec 5)
  | hmerge (p : Pfx) (ty : Ty) (runlog : BitVec 3) (desc : Bool) (d a c : Reg)
  -- memory (R199 to R214)
  | ld (p : Pfx) (ch : BitVec 2) (ty : Ty) (vec : Vec) (ord : Ord4) (sc : Scope) (d a : Reg) (disp : Disp)
  | st (p : Pfx) (ch : BitVec 2) (ty : Ty) (vec : Vec) (ord : Ord4) (sc : Scope) (d a : Reg) (disp : Disp)
  | ldu (p : Pfx) (ch : BitVec 2) (ty : Ty) (vec : Vec) (d a : Reg) (disp : Disp)
  | atom (p : Pfx) (ch : BitVec 2) (op : AOp) (ty : Ty) (nr sgn : Bool) (ord : Ord4) (sc : Scope) (d a : Reg) (b : SrcB)
  | lr (p : Pfx) (ch : BitVec 2) (wide acq : Bool) (sc : Scope) (d a : Reg)
  | sc (p : Pfx) (ch : BitVec 2) (wide rel : Bool) (scp : Scope) (d a : Reg) (b : SrcB)
  | fence (p : Pfx) (ch : BitVec 2) (ord : Ord4) (sc : Scope)
  | gth (p : Pfx) (ch : BitVec 2) (wide : Bool) (vec : Vec) (sx rel : Bool) (sc : Scope) (sh : BitVec 3) (d a b : Reg)
  | sct (p : Pfx) (ch : BitVec 2) (wide : Bool) (vec : Vec) (sx rel : Bool) (sc : Scope) (sh : BitVec 3) (d a b : Reg)
  | pfch (p : Pfx) (ch : BitVec 2) (l2 : Bool) (a : Reg) (disp : Disp)
  | icinv (p : Pfx) (ch : BitVec 2) (sc : Scope)
  -- asynchronous copies (R215 to R221)
  | acp (p : Pfx) (ch : BitVec 2) (tb rwg rel : Bool) (sc : Scope) (d a : Reg) (b : SrcB) (c : Reg)
  | acps (p : Pfx) (ch : BitVec 2) (tb rwg rel : Bool) (sc : Scope) (d a b c : Reg)
  | acpw (p : Pfx) (ch : BitVec 2) (tb rwg rel : Bool) (sc : Scope) (d a : Reg) (b : SrcB) (c : Reg)
  | acpx (p : Pfx) (ch : BitVec 2) (tb rel : Bool) (d a : Reg) (b : SrcB) (c : Reg)
  | wcnt (p : Pfx) (cls : Cls) (n : BitVec 6)
  -- transaction barriers (Table 7.6)
  | tbinit (p : Pfx) (a : Reg) (b : SrcB)
  | tbarv (p : Pfx) (d a : Reg)
  | tbexp (p : Pfx) (a : Reg) (b : SrcB)
  | tbwt (p : Pfx) (a : Reg) (b : SrcB)
  -- barriers (Table 7.8)
  | barinit (p : Pfx) (bar : BitVec 4) (b : SrcB)
  | bar (p : Pfx) (bar : BitVec 4)
  | bararv (p : Pfx) (bar : BitVec 4)
  | barwt (p : Pfx) (bar : BitVec 4)
  | gbar (p : Pfx) (b : SrcB)
  -- control (Table 7.9)
  | bra (p : Pfx) (off : BitVec 24)
  | brx (p : Pfx) (a : Reg)
  | call (p : Pfx) (d : Reg) (off : BitVec 24)
  | callx (p : Pfx) (d a : Reg)
  | ret (p : Pfx) (a : Reg)
  | exit (p : Pfx)
  | yield (p : Pfx)
  | nop (p : Pfx)
  | rjset (p : Pfx) (k : BitVec 3) (b : SrcB)
  | rjoin (p : Pfx) (k : BitVec 3)
  | spawn (p : Pfx) (b : SrcB) (a : Reg) (len : BitVec 7)
  | prbOn (p : Pfx)
  | prbOff (p : Pfx)
  | trap (p : Pfx) (code : BitVec 9)
  | brk (p : Pfx) (code : BitVec 9)
  -- array (R238 to R250)
  | aalloc (p : Pfx) (d : Reg) (b : SrcB)
  | agrow (p : Pfx) (d : Reg) (b : SrcB)
  | afree (p : Pfx) (d : Reg) (b : SrcB)
  | azero (p : Pfx) (t : TileNo)
  | ald (p : Pfx) (ty : Ty) (sc : Scope) (t : TileNo) (a : Reg)
  | ast (p : Pfx) (ty : Ty) (rm : RM) (sat : Bool) (sc : Scope) (t : TileNo) (a : Reg)
  | amma (p : Pfx) (pair tall reuse clr : Bool) (t : TileNo) (a : Reg) (b : SrcB) (f : Reg)
  | amms (p : Pfx) (pair tall reuse clr : Bool) (t : TileNo) (a : Reg) (b : SrcB) (f : Reg)
  | adrain (p : Pfx) (max hi w : Bool) (ncol : BitVec 5) (d : Reg) (t : TileNo)
  | atopk (p : Pfx) (max hi w : Bool) (ncol : BitVec 5) (kk : BitVec 3) (d : Reg) (t : TileNo)
  | cupd (p : Pfx) (t : TileNo) (a b f : Reg)
  | cfin (p : Pfx) (ty : Ty) (ncent : BitVec 5) (t : TileNo) (a : Reg)
  -- verdict (R251 to R258)
  | vacc (p : Pfx) (kind : VKind) (t : TileNo) (a f : Reg) (col : BitVec 4)
  | vtop (p : Pfx) (t : TileNo) (a f : Reg) (col : BitVec 4)
  | vset (p : Pfx) (max : Bool) (kk : BitVec 3) (a : Reg)
  | vsetRd (p : Pfx) (d : Reg)
  | vchk (p : Pfx) (kind : VKind) (pd : PredNo) (a : Reg) (pc : PredNo)
  -- engines and leave (R259 to R266)
  | fork (p : Pfx) (na : BitVec 8) (nc : BitVec 6) (a b c : Reg)
  | rdv (p : Pfx)
  | leave (p : Pfx) (d : Reg) (cls : BitVec 3) (b : SrcB)
  | lvfree (p : Pfx)
  -- surfaces (R285 to R305)
  | march (p : Pfx) (aff : Bool) (d a : Reg) (b : SrcB)
  | mres (p : Pfx) (d a : Reg) (b : SrcB)
  | mresAbort (p : Pfx) (d a : Reg)
  | mqry (p : Pfx) (ray : Bool) (d a : Reg)
  | prep (p : Pfx) (d a b : Reg)
  | veval (p : Pfx) (iv : Bool) (d a b : Reg)
  | bfetch (p : Pfx) (d a b : Reg)
  | zts (p : Pfx) (le : Bool) (d a : Reg) (b : SrcB)
  | rsub (p : Pfx) (d a : Reg)
  | cmeta (p : Pfx) (d a : Reg)
  -- system (Table 14.5)
  | rdsr (p : Pfx) (d : Reg) (sr : SReg)
  | wrsr (p : Pfx) (sr : SReg) (b : SrcB)
  | sysc (p : Pfx) (code : BitVec 9)
  | tret (p : Pfx)
  | tlbinv (p : Pfx) (sc : Scope) (a : Reg)
  | tlbinvAll (p : Pfx) (sc : Scope)
  | ctxsv (p : Pfx) (a : Reg)
  | ctxld (p : Pfx) (a : Reg)
  | hltWg (p : Pfx)
  | hltCtx (p : Pfx)
  | dualWord (sw : Bool) (h1 h2 : Half)
  -- events of the cores
  | bundleFormation (core : Nat)
  | activeSetFill (core : Nat)
  | fairnessRotation (core slot : Nat)
  | resultReturn (t : TRef) (id : Nat)
  | tokenWrite (op : Nat)
  | asyncRetire (t : TRef) (cls : Cls)
  | copyRetire (op : Nat)
  | arrayOpRetire (core : Nat)
  | engineStateStep (core : Nat) (seq : SeqKind)
  | marchComplete (op : Nat)
  | rasterFragment (op : Nat)
  | leaveGrant (req : Nat)
  | grantExpiry (wg team : Nat)
  | reservationTimeout (t : TRef)
  | l1LineExpiry (core line : Nat)
  | l1Writeback (core line : Nat)
  | exitCount (t : TRef)
  | batchTimeout (launch node : Nat)
  | gangReportWrite (launch : Nat)
  | budgetOverrun (wg : Nat)
  -- events of the dispatch complex
  | workgroupPlace (launch : Nat) (src : PlaceSrc) (core : Nat)
  | reservationStart (launch : Nat)
  | migration (wg core : Nat)
  | preemption (launch wg : Nat)
  | lineWritebackCompressed (part ridx line : Nat)
  | pinWriteback (part : Nat)
  -- host ports
  | submissionEntry (part : Nat)
  | launch (part hseq : Nat)
  | ctxCreate (part hseq : Nat)
  | ctxFence (part hseq : Nat)
  | ctxRearm (part hseq : Nat)
  | ctxSave (part hseq : Nat)
  | ctxRestore (part hseq : Nat)
  | ctxLift (part hseq : Nat)
  | ctxDestroy (part hseq : Nat)
  | faultAns (part hseq : Nat)
  | pageRel (part hseq : Nat)
  | compInst (part hseq : Nat)
  | partReset (part hseq : Nat)
  | release (part hseq : Nat)
  | frameSend (rel : Nat)
  | completionWrite (part : Nat)
  | faultRecordWrite (part : Nat)
  | resync (part : Nat) (expect : Word)
  | bar0RegisterWrite (part off : Nat) (val : Word)
  -- fabric and time
  | fabricPacketReceive (k : Pkt)
  | fabricResend (conn : Nat)
  | fabricPortDown (port : Nat)
  | fabricPortUp (port : Nat)
  | ptpMessage (offset : Int)
  | ptpHoldover
  -- mailbox, resets, sensors, errors
  | ident (part : Nat)
  | attest (part : Nat) (nonce : List Byte)
  | status (part : Nat)
  | log (part : Nat) (index : Word)
  | fwStage (part slot : Nat) (off : Nat) (bytes : List Byte)
  | fwCommit (part slot : Nat)
  | cfgStage (part : Nat) (table sig : List Byte)
  | powerOn
  | deviceReset
  | portReset (port : Nat)
  | functionLevelReset (part : Nat)
  | thermalHot (die temp : Nat)
  | thermalTrip (die temp : Nat)
  | uncorrectableError (site : ErrSite)
  | correctableError (part : Nat) (unit : ErrUnit)
  | storeFifoDrain (t : TRef)
  | invalidationComplete (t : TRef)
  | thermalHotClear
  | liftTimeout (ctx : Nat)
  | releaseCutoff (rel : Nat)
  deriving DecidableEq, Repr

end Sys2Proof
end

