-- ==== Sys2Proof/WellFormed.lean ====
section
/-! DEFINITION. Which instructions are legal encodings: the operand kinds of Table 5.3, the types, conditions and
modes each entry accepts (R137, R141, R151), and the pairing rules of dual words (R144, R145). -/

namespace Sys2Proof

/-- An even register number: a pair (R137). -/
def Reg.even (r : Reg) : Bool := r.toNat % 2 == 0
/-- A register number that is a multiple of 4 (R202, R285). -/
def Reg.quad (r : Reg) : Bool := r.toNat % 4 == 0
/-- A register number that is a multiple of 8 (R242, R263, R285). -/
def Reg.oct (r : Reg) : Bool := r.toNat % 8 == 0

/-- The FB operand as a pair: a literal always is one (R139). -/
def SrcB.even : SrcB → Bool
  | .reg r => r.even
  | .lit _ => true

/-- An accumulator tile of even name (R242, R249). -/
def TileNo.even (t : TileNo) : Bool := t.toNat % 2 == 0

/-- The packed integer types of `iadd` (Table 6.2). -/
def Ty.isPackInt : Ty → Bool
  | .s32 | .n32 | .s16 | .n16 | .s8 | .n8 => true
  | _ => false

/-- The two 32-bit integer types. -/
def Ty.isInt32 : Ty → Bool
  | .s32 | .n32 => true
  | _ => false

/-- The signed packed types of `iabs` and `ineg` (Table 6.2). -/
def Ty.isSigned : Ty → Bool
  | .s32 | .s16 | .s8 => true
  | _ => false

/-- Floating-point formats (Table 3.1). -/
def Ty.isFloat : Ty → Bool
  | .f32 | .f16 | .e16 | .f8a | .f8b | .f4 => true
  | _ => false

/-- The types `cvt` takes: codes 0x0 to 0xD (R187). -/
def Ty.isValue : Ty → Bool
  | .b32 | .b64 => false
  | _ => true

/-- The packed 16-bit floating types (Table 6.8). -/
def Ty.isHalf : Ty → Bool
  | .f16 | .e16 => true
  | _ => false

/-- The narrowing targets of `cvef` (R72, R188). -/
def Ty.isNarrow : Ty → Bool
  | .f16 | .e16 | .f8a | .f8b | .f4 => true
  | _ => false

/-- The types of `ld` and `st` (Table 7.2). -/
def Ty.isMem : Ty → Bool
  | .s8 | .n8 | .s16 | .n16 | .b32 | .b64 => true
  | _ => false

/-- The integer condition codes (Table 6.1). -/
def CC.isInt : CC → Bool
  | .num | .nan => false
  | _ => true

/-- Element count as a number (R202). -/
def Vec.count : Vec → Nat
  | .x1 => 1
  | .x2 => 2
  | .x4 => 4

/-- Bytes of one element of a memory type (R202). -/
def Ty.bytes : Ty → Nat
  | .s8 | .n8 | .f8a | .f8b => 1
  | .s16 | .n16 | .f16 | .e16 => 2
  | .b64 => 8
  | .s4 | .n4 | .f4 => 1
  | _ => 4

/-- VEC other than one element needs b32, or b64 as `.x2` (R202). -/
def vecOk (ty : Ty) (v : Vec) : Bool :=
  match v, ty with
  | .x1, _ => true
  | .x2, .b32 | .x2, .b64 | .x4, .b32 => true
  | _, _ => false

/-- FD's alignment by access size: a pair for 8 bytes, a multiple of 4 for 16 (R202). -/
def fdOk (ty : Ty) (v : Vec) (d : Reg) : Bool :=
  match ty.bytes * v.count with
  | 8 => d.even
  | 16 => d.quad
  | _ => true

/-- b64 or b32 as the width flag of the register-pair forms. -/
def wideOk (wide : Bool) (r : Reg) : Bool := !wide || r.even

/-- The legal type and element index of `pack` and `unpack` (R189). -/
def packOk (ty : Ty) (idx : BitVec 3) : Bool :=
  match ty with
  | .s16 | .n16 | .f16 | .e16 => idx.toNat < 2
  | .s8 | .n8 | .f8a | .f8b => idx.toNat < 4
  | .s4 | .n4 | .f4 => true
  | _ => false

/-- The legal fold and type of `redu` and `scan` (Table 6.12). -/
def foldOk (op : FoldOp) (ty : Ty) : Bool :=
  match op, ty with
  | .add, .s32 | .add, .n32 | .add, .f32 => true
  | .min, .s32 | .min, .n32 | .min, .f32 => true
  | .max, .s32 | .max, .n32 | .max, .f32 => true
  | .and, .b32 | .or, .b32 | .xor, .b32 => true
  | _, _ => false

/-- The legal combinations of `atom` (Table 7.3, R205). -/
def atomOk (op : AOp) (ty : Ty) (sgn : Bool) : Bool :=
  match op, ty with
  | .add, .s32 | .add, .n32 | .add, .f32 => !sgn
  | .min, .s32 | .min, .n32 | .min, .f32 => !sgn
  | .max, .s32 | .max, .n32 | .max, .f32 => !sgn
  | .and, .b32 | .or, .b32 | .xor, .b32 | .exch, .b32 | .cas, .b32 => !sgn
  | .min, .b64 | .max, .b64 => true
  | .add, .b64 | .and, .b64 | .or, .b64 | .xor, .b64 | .exch, .b64 | .cas, .b64 => !sgn
  | _, _ => false

/-- Whether SAT is legal in `cvt`, and whether RM is (R187). -/
def cvtOk (dt st : Ty) (rm : RM) (sat : Bool) : Bool :=
  dt.isValue && st.isValue
    && (!sat || (st.isFloat && dt == .f8b) || (!st.isFloat && !dt.isFloat))
    && (dt.isFloat || st.isFloat || rm == .rn)

/-- Width class of a special register: true for the 64-bit ones (Table 14.2). -/
def SReg.wide : SReg → Bool
  | .args | .recAddr | .time | .tpc | .tsrc | .tword | .taddr | .ts0 | .ts1 | .ts2 | .ts3 => true
  | _ => false

/-- Classes of half operations (R144). -/
inductive HalfClass | z | rr | ri | u | k
  deriving DecidableEq, Repr

/-- The class of a half operation (Table 5.8). -/
def HalfOp.cls : HalfOp → HalfClass
  | .nop => .z
  | .iaddI | .isubI | .shlI | .shrI | .sarI | .rotlI | .andI | .orI | .xorI => .ri
  | .mov | .not | .ineg | .iabs | .popc | .clz | .brev => .u
  | .movi => .k
  | _ => .rr

/-- Whether HX holds a rounding mode (Table 5.8). -/
def HalfOp.rounds : HalfOp → Bool
  | .fadd | .fsub | .fmul | .hadd2F | .hmul2F | .hadd2E | .hmul2E => true
  | _ => false

/-- The fields a half's class requires to be zero, and the rounding codes HX may hold (R144). -/
def Half.fieldsOk (h : Half) : Bool :=
  match h.op.cls with
  | .z => h.g == ⟨0, false⟩ && h.hd == 0 && h.ha == 0 && h.hx == 0
  | .rr => if h.op.rounds then h.hx.toNat < 4 else h.hx == 0
  | .ri => h.ha == 0
  | .u => h.hx == 0
  | .k => h.ha == 0

/-- The register fields a half reads (R144). -/
def Half.reads (h : Half) : List Reg :=
  match h.op.cls with
  | .rr => [h.hd, h.ha]
  | .ri => [h.hd]
  | .u => [h.ha]
  | .z | .k => []

/-- Whether a half writes its HD (R144). -/
def Half.writes (h : Half) : Bool := h.op.cls != .z

/-- The bank of a register (R145). -/
def Reg.bank (r : Reg) : Nat := r.toNat % 4

/-- The pairing rules of R145. -/
def dualOk (h1 h2 : Half) : Bool :=
  let rs := (h1.reads ++ h2.reads).map Reg.bank
  (List.range 4).all (fun b => rs.count b ≤ 2)
    && (!(h1.writes && h2.writes) || h1.hd.bank != h2.hd.bank)
    && (!h1.writes || (!(h2.reads.contains h1.hd) && !(h2.writes && h2.hd == h1.hd)))

/-- An instruction word: everything but the events. -/
def Instr.isWord : Instr → Bool
  | .bundleFormation .. | .activeSetFill .. | .fairnessRotation .. | .resultReturn .. | .tokenWrite ..
  | .asyncRetire .. | .copyRetire .. | .arrayOpRetire .. | .engineStateStep .. | .marchComplete ..
  | .rasterFragment .. | .leaveGrant .. | .grantExpiry .. | .reservationTimeout .. | .l1LineExpiry ..
  | .l1Writeback .. | .exitCount .. | .batchTimeout .. | .gangReportWrite .. | .budgetOverrun ..
  | .workgroupPlace .. | .reservationStart .. | .migration .. | .preemption .. | .lineWritebackCompressed ..
  | .pinWriteback .. | .submissionEntry .. | .launch .. | .ctxCreate .. | .ctxFence .. | .ctxRearm ..
  | .ctxSave .. | .ctxRestore .. | .ctxLift .. | .ctxDestroy .. | .faultAns .. | .pageRel .. | .compInst ..
  | .partReset .. | .release .. | .frameSend .. | .completionWrite .. | .faultRecordWrite .. | .resync ..
  | .bar0RegisterWrite .. | .fabricPacketReceive .. | .fabricResend .. | .fabricPortDown .. | .fabricPortUp ..
  | .ptpMessage .. | .ptpHoldover | .ident .. | .attest .. | .status .. | .log .. | .fwStage .. | .fwCommit ..
  | .cfgStage .. | .powerOn | .deviceReset | .portReset .. | .functionLevelReset .. | .thermalHot ..
  | .thermalTrip .. | .uncorrectableError .. | .correctableError .. | .storeFifoDrain ..
  | .invalidationComplete .. | .thermalHotClear | .liftTimeout .. | .releaseCutoff .. => false
  | _ => true

/-- A legal instruction (R151). Events are inputs and internal steps of the device; every one is legal. -/
def Instr.wf : Instr → Bool
  | .iadd _ ty _ _ _ _ | .isub _ ty _ _ _ _ => ty.isPackInt
  | .imul _ ty _ _ _ _ => ty.isInt32
  | .imulh _ ty _ _ _ => ty.isInt32
  | .imad _ ty _ _ _ _ _ => ty.isInt32
  | .imin _ ty _ _ _ | .imax _ ty _ _ _ => ty.isPackInt
  | .iabs _ ty _ _ _ | .ineg _ ty _ _ _ => ty.isSigned
  | .sel _ w d a b _ => !w || (d.even && a.even && b.even)
  | .icmp _ cc ty _ _ _ => cc.isInt && ty.isInt32
  | .mov _ w d a => !w || (d.even && a.even)
  | .movi _ w d _ => wideOk w d
  | .lea _ ty d a _ _ => ty.isInt32 && d.even && a.even
  | .ladd _ d a b | .lsub _ d a b => d.even && a.even && b.even
  | .lcmp _ cc _ _ a b => cc.isInt && a.even && b.even
  | .bAnd _ w d a b | .bOr _ w d a b | .bXor _ w d a b => !w || (d.even && a.even && b.even)
  | .bNot _ w d a => !w || (d.even && a.even)
  | .bfx _ ty _ _ _ => ty.isInt32
  | .fsel _ cc _ _ _ _ => cc.isInt
  | .hadd2 _ ty _ _ _ _ | .hmul2 _ ty _ _ _ _ => ty.isHalf
  | .ivadd _ d a b | .ivsub _ d a b | .ivmul _ d a b | .ivmin _ d a b | .ivmax _ d a b | .ivhull _ d a b =>
      d.even && a.even && b.even
  | .ivsqr _ d a | .ivsqrt _ d a | .ivabs _ d a => d.even && a.even
  | .ivsplit _ d c a => d.even && c.even && a.even && d != c
  | .cvt _ dt src rm sat _ _ => cvtOk dt src rm sat
  | .cvef _ dt d _ c => dt.isNarrow && d != c
  | .pack _ ty idx _ _ | .unpack _ ty idx _ _ => packOk ty idx
  | .dot2 _ ty _ _ _ _ => ty.isHalf
  | .dot4 _ ty _ _ _ _ => ty == .f8a || ty == .f8b || ty == .s8 || ty == .n8
  | .dot8 _ ty _ _ _ _ => ty == .f4 || ty == .s4 || ty == .n4
  | .rdfl _ w d a | .bcast _ w d a _ => !w || (d.even && a.even)
  | .shfl _ _ w d a _ => !w || (d.even && a.even)
  | .vote _ m d a =>
      match m with
      | .all | .any => d.toNat < 8 && a.toNat < 8
      | .uni => d.toNat < 8
      | .ballot => a.toNat < 8
  | .redu _ op ty _ _ | .scan _ op _ ty _ _ => foldOk op ty
  | .matchL _ w _ a => wideOk w a
  | .hmerge _ ty rl _ d _ c => (ty == .f32 || ty.isInt32) && rl.toNat < 5 && d != c
  | .ld _ _ ty v ord _ d a _ => ty.isMem && vecOk ty v && fdOk ty v d && a.even && ord != .rel
  | .st _ _ ty v ord _ d a _ => ty.isMem && vecOk ty v && fdOk ty v d && a.even && ord != .acq
  | .ldu _ _ ty v d a _ => ty.isMem && vecOk ty v && fdOk ty v d && a.even
  | .atom _ _ op ty nr sgn _ _ d a b =>
      atomOk op ty sgn && a.even && (ty != .b64 || (d.even && b.even))
        && (!nr || (d == 0 && op != .cas))
  | .lr _ _ w _ _ d a => wideOk w d && a.even
  | .sc _ _ w _ _ _ a b => (!w || b.even) && a.even
  | .fence _ _ ord _ => ord != .none
  | .gth _ _ w v _ _ _ _ d a b | .sct _ _ w v _ _ _ _ d a b =>
      let ty := if w then Ty.b64 else Ty.b32
      vecOk ty v && fdOk ty v d && a.even && b.toNat % v.count == 0
  | .pfch _ _ _ a _ => a.even
  | .icinv _ _ scp => scp != .thr
  | .acp _ _ tb _ _ _ d a _ c => d.even && a.even && (tb || c == 0)
  | .acps _ _ tb _ _ _ d a b c => d.even && a.even && b.quad && (tb || c == 0)
  | .acpw _ _ tb _ _ _ d a _ c => d.even && a.even && (tb || c == 0)
  | .acpx _ _ _ _ d a _ _ => d.even && a.even
  | .tbinit _ a _ | .tbexp _ a _ | .tbwt _ a _ => a.even
  | .tbarv _ _ a => a.even
  | .brx _ a | .ret _ a => a.even
  | .call _ d _ => d.even
  | .callx _ d a => d.even && a.even
  | .ald _ ty _ _ a => (ty == .f32 || (ty.isNarrow && ty != .f4)) && a.even
  | .ast _ ty _ sat _ _ a => (ty == .f32 || (ty.isNarrow && ty != .f4)) && a.even && (!sat || ty == .f8b)
  | .amma _ pair tall _ _ t a _ _ | .amms _ pair tall _ _ t a _ _ =>
      (!pair || t.even) && (!tall || pair) && (if tall then a.toNat % 16 == 0 else a.oct)
  | .adrain _ _ _ w n d t => (w || n.toNat < 16) && (!w || t.even) && d.even
  | .atopk _ _ _ w n _ d t => (w || n.toNat < 16) && (!w || t.even) && d.oct
  | .cupd _ t _ _ _ => t.even
  | .cfin _ ty n t _ => (ty == .f32 || ty.isNarrow) && n.toNat < 16 && t.even
  | .vacc _ k _ _ _ _ => k != .topk
  | .vsetRd _ d => d.even
  | .fork _ na nc a b c => na.toNat ≤ 32 && nc.toNat ≤ 32 && a.even && b.even && c.oct
  | .march _ _ d a b => d.quad && a.oct && b.even
  | .mres _ d _ b => d.quad && b.even
  | .mresAbort _ d _ => d.quad
  | .mqry _ _ d _ => d.oct
  | .prep _ _ a b => a.even && b.oct
  | .veval _ iv d a b => d.quad && a.even && (if iv then b.oct else b.quad)
  | .bfetch _ d a b => d.quad && a.even && b.quad
  | .zts _ _ d a _ => d.even && a.even
  | .rsub _ _ a | .cmeta _ _ a => a.even
  | .rdsr _ d sr => !sr.wide || d.even
  | .wrsr _ sr b => !sr.wide || b.even
  | .tlbinv _ scp a => scp != .thr && a.even
  | .tlbinvAll _ scp => scp != .thr
  | .ctxsv _ a | .ctxld _ a => a.even
  | .dualWord _ h1 h2 => h1.fieldsOk && h2.fieldsOk && dualOk h1 h2
  | _ => true

end Sys2Proof
end

