-- ==== Sys2Proof/Machine/Num.lean ====
section
/-! DEFINITION. Number formats, rounding and exact arithmetic (03_numbers R64 to R74, R78, R79, R86), and the values of
the special functions (06 R183). Values are exact rationals; an irrational value stands as a rational that every
rounding of the manual takes to the same result (log 20). -/

namespace Sys2Proof.Machine

open Sys2Proof

/-! ### Formats (Table 3.1) -/

/-- A floating-point format: mantissa and exponent widths, bias, the code of the largest finite value, whether it holds
infinities, and its canonical NaN (none in F4). -/
structure Fmt where
  m    : Nat
  e    : Nat
  bias : Nat
  max  : Nat
  inf  : Bool
  nan  : Option Nat
  deriving DecidableEq, Repr

/-- The format of a type (Table 3.1); integer types have none and answer F32. -/
def fmtOf : Ty → Fmt
  | .f16 => ⟨10, 5, 15, 0x7BFF, true, some 0x7E00⟩
  | .e16 => ⟨7, 8, 127, 0x7F7F, true, some 0x7FC0⟩
  | .f8a => ⟨3, 4, 7, 0x7E, false, some 0x7F⟩
  | .f8b => ⟨2, 5, 15, 0x7B, true, some 0x7E⟩
  | .f4 => ⟨1, 2, 1, 0x7, false, none⟩
  | _ => ⟨23, 8, 127, 0x7F7FFFFF, true, some 0x7FC00000⟩

/-- The width of an element in bits (R65, R66). -/
def widthOf : Ty → Nat
  | .s32 | .n32 | .f32 | .b32 => 32
  | .s16 | .n16 | .f16 | .e16 => 16
  | .f8a | .f8b | .s8 | .n8 => 8
  | .f4 | .s4 | .n4 => 4
  | .b64 => 64

/-- The value of a floating-point code (R64): a NaN with its signalling bit, an infinity, or a finite value with its
sign. -/
inductive FV
  | nan (sig : Bool)
  | inf (neg : Bool)
  | fin (neg : Bool) (mag : Rat)
  deriving DecidableEq, Repr

/-- 2^e. -/
def pow2 : Int → Rat
  | .ofNat n => ((2 ^ n : Nat) : Rat)
  | .negSucc n => mkRat 1 (2 ^ (n + 1))

/-- The magnitude of a finite code without its sign (R64). -/
def Fmt.mag (f : Fmt) (c : Nat) : Rat :=
  let e := c / 2 ^ f.m
  let k := c % 2 ^ f.m
  if e = 0 then (k : Rat) * pow2 (1 - (f.bias : Int) - f.m)
  else ((2 ^ f.m + k : Nat) : Rat) * pow2 ((e : Int) - f.bias - f.m)

/-- The value of a code (R64, R67). -/
def valueOf (ty : Ty) (code : Nat) : FV :=
  let f := fmtOf ty
  let s := 2 ^ (f.m + f.e)
  let neg := code / s % 2 == 1
  let c := code % s
  let top := 2 ^ f.e - 1
  match ty with
  | .f4 => .fin neg (f.mag c)
  | .f8a => if c = 0x7F then .nan false else .fin neg (f.mag c)
  | _ =>
    if c / 2 ^ f.m = top then
      if c % 2 ^ f.m = 0 then .inf neg
      else .nan (ty != .f8b && c % 2 ^ f.m / 2 ^ (f.m - 1) == 0)
    else .fin neg (f.mag c)

/-- The value of an F32 word. -/
def fv (w : Word) : FV := valueOf .f32 w.toNat

/-- The exact value with its sign; a NaN or an infinity has none and answers 0. -/
def FV.rat : FV → Rat
  | .fin n q => if n then -q else q
  | _ => 0

/-- Whether it is a NaN. -/
def FV.isNan : FV → Bool
  | .nan _ => true
  | _ => false

/-- Whether it is a signalling NaN. -/
def FV.isSig : FV → Bool
  | .nan s => s
  | _ => false

/-- Whether it is finite. -/
def FV.isFin : FV → Bool
  | .fin _ _ => true
  | _ => false

/-- Whether it is ±0. -/
def FV.isZero : FV → Bool
  | .fin _ q => q == 0
  | _ => false

/-- Its sign. -/
def FV.neg : FV → Bool
  | .fin n _ => n
  | .inf n => n
  | .nan _ => false

/-- The negation. -/
def FV.negate : FV → FV
  | .fin n q => .fin (!n) q
  | .inf n => .inf (!n)
  | .nan s => .nan s

/-! ### Flags (Table 3.6) -/

/-- NV, invalid. -/
def flNV : BitVec 5 := 1
/-- DZ, divide-by-zero. -/
def flDZ : BitVec 5 := 2
/-- OF, overflow. -/
def flOF : BitVec 5 := 4
/-- UF, underflow. -/
def flUF : BitVec 5 := 8
/-- NX, inexact. -/
def flNX : BitVec 5 := 16

/-- NV for a signalling NaN among operands (R67). -/
def sigFlag (vs : List FV) : BitVec 5 := if vs.any FV.isSig then flNV else 0

/-! ### Rounding (R68 to R70) -/

/-- The integer that num ÷ den rounds to under a mode, for a magnitude of the given sign. -/
def roundNat (rm : RM) (neg : Bool) (num den : Nat) : Nat :=
  let q := num / den
  let r := num % den
  let up := match rm with
    | .rn => decide (den < 2 * r) || (decide (2 * r = den) && q % 2 == 1)
    | .rz => false
    | .rd => neg && r != 0
    | .ru => !neg && r != 0
  if up then q + 1 else q

/-- The e with 2^e ≤ x < 2^(e+1), for x > 0. -/
def ilog2 (x : Rat) : Int :=
  let k : Int := (Nat.log2 x.num.natAbs : Int) - Nat.log2 x.den
  if pow2 k ≤ x then k else k - 1

/-- x ÷ 2^u rounded to an integer, for x > 0. -/
def roundAt (rm : RM) (neg : Bool) (x : Rat) (u : Int) : Nat :=
  let y := x * pow2 (-u)
  roundNat rm neg y.num.natAbs y.den

/-- The result of an overflow (R69), without its sign. -/
def overflowCode (ty : Ty) (rm : RM) (sat neg : Bool) : Nat :=
  let f := fmtOf ty
  let infc := (2 ^ f.e - 1) * 2 ^ f.m
  if !f.inf || sat then f.max
  else match rm with
    | .rn => infc
    | .rz => f.max
    | .rd => if neg then infc else f.max
    | .ru => if neg then f.max else infc

/-- The sign bit's place in a code. -/
def signed (ty : Ty) (neg : Bool) (c : Nat) : Nat :=
  let f := fmtOf ty
  if neg then 2 ^ (f.m + f.e) + c else c

/-- `Round(fmt, mode, x)` of a non-zero magnitude (R68): the code and the flags. -/
def roundMag (ty : Ty) (rm : RM) (sat neg : Bool) (x : Rat) : Nat × BitVec 5 :=
  let f := fmtOf ty
  let e := ilog2 x
  let y := ((roundAt rm neg x (e - f.m) : Nat) : Rat) * pow2 (e - f.m)
  if f.mag f.max < y then (signed ty neg (overflowCode ty rm sat neg), flOF ||| flNX)
  else
    let emin : Int := 1 - f.bias
    let u : Int := max (e - f.m) (emin - f.m)
    let k := roundAt rm neg x u
    let r := (k : Rat) * pow2 u
    let nx := if r = x then 0 else flNX
    let uf := if y < pow2 emin ∧ r ≠ x then flUF else 0
    let c := if k < 2 ^ f.m then k
             else if k = 2 ^ (f.m + 1) then (u + 1 + f.m + f.bias).toNat * 2 ^ f.m
             else (u + f.m + f.bias).toNat * 2 ^ f.m + (k - 2 ^ f.m)
    (signed ty neg c, nx ||| uf)

/-- What an operation gives before rounding: a NaN, an infinity, or an exact real with the sign that a zero takes. -/
inductive XV
  | nan
  | inf (neg : Bool)
  | val (x : Rat) (zneg : Bool)
  deriving DecidableEq, Repr

/-- The canonical NaN of a format (R67); +0 in F4 (R69). -/
def nanCode (ty : Ty) : Nat := (fmtOf ty).nan.getD 0

/-- An infinity narrowed into a format (R69), with its flags. -/
def infInto (ty : Ty) (sat neg : Bool) : Nat × BitVec 5 :=
  let f := fmtOf ty
  if !f.inf then (signed ty neg f.max, flNV)
  else if sat then (signed ty neg f.max, flOF ||| flNX)
  else (signed ty neg ((2 ^ f.e - 1) * 2 ^ f.m), 0)

/-- The rounding of an operation's exact result into a format: code and flags (R67 to R69). -/
def roundX (ty : Ty) (rm : RM) (sat : Bool) : XV → Nat × BitVec 5
  | .nan => (nanCode ty, if (fmtOf ty).nan.isNone then flNV else 0)
  | .inf n => infInto ty sat n
  | .val x zneg =>
    if x = 0 then (signed ty zneg 0, 0)
    else roundMag ty rm sat (decide (x < 0)) |x|

/-- Flush to zero (R74): a non-zero subnormal F32, F16 or E16 result becomes a zero of its sign. -/
def flush (ty : Ty) (ftz : Bool) (r : Nat × BitVec 5) : Nat × BitVec 5 :=
  let f := fmtOf ty
  let s := 2 ^ (f.m + f.e)
  let c := r.1 % s
  if ftz && (ty == .f32 || ty == .f16 || ty == .e16) && c != 0 && decide (c < 2 ^ f.m) then
    (r.1 - c, r.2 ||| flUF ||| flNX)
  else r

/-- `Round(F32, mode, x)` as a word, for an exact real; a zero is +0. -/
def roundW (rm : RM) (x : Rat) : Word := BitVec.ofNat 32 (roundX .f32 rm false (.val x false)).1

/-- The exact value of a finite F32 word. -/
def ratW (w : Word) : Rat := (fv w).rat

/-! ### Exact operations on values, with the flags of R76 -/

/-- The sign an exact zero sum takes: −0 under RD, else +0 (R68). -/
def zeroSum (rm : RM) : Bool := rm == .rd

/-- a + b (R76). DESIGN CHOICE (log 106): two zeros of one sign keep it under every rounding mode, in packed adds too, where R68 could be
read to give +0, or −0 under RD. -/
def addX (rm : RM) (a b : FV) : XV × BitVec 5 :=
  match a, b with
  | .nan _, _ => (.nan, sigFlag [a, b])
  | _, .nan _ => (.nan, sigFlag [a, b])
  | .inf s, .inf t => if s = t then (.inf s, 0) else (.nan, flNV)
  | .inf s, .fin _ _ => (.inf s, 0)
  | .fin _ _, .inf t => (.inf t, 0)
  | .fin s p, .fin t q =>
    if p = 0 ∧ q = 0 ∧ s = t then (.val 0 s, 0) else (.val (a.rat + b.rat) (zeroSum rm), 0)

/-- a·b (R76). -/
def mulX (a b : FV) : XV × BitVec 5 :=
  match a, b with
  | .nan _, _ => (.nan, sigFlag [a, b])
  | _, .nan _ => (.nan, sigFlag [a, b])
  | .inf s, .inf t => (.inf (s != t), 0)
  | .inf s, .fin t q => if q = 0 then (.nan, flNV) else (.inf (s != t), 0)
  | .fin s p, .inf t => if p = 0 then (.nan, flNV) else (.inf (s != t), 0)
  | .fin s _, .fin t _ => (.val (a.rat * b.rat) (s != t), 0)

/-- a·b + c with no rounding of the product (R179): 0 × ∞ is invalid even when c is a quiet NaN. -/
def fmaX (rm : RM) (a b c : FV) : XV × BitVec 5 :=
  match mulX a b with
  | (.nan, f) => (.nan, f ||| sigFlag [c])
  | (.inf s, f) =>
    match c with
    | .nan _ => (.nan, f ||| sigFlag [c])
    | .inf t => if s = t then (.inf s, f) else (.nan, flNV)
    | .fin _ _ => (.inf s, f)
  | (.val p s, f) =>
    match c with
    | .nan _ => (.nan, f ||| sigFlag [c])
    | .inf t => (.inf t, f)
    | .fin t q =>
      if p = 0 ∧ q = 0 ∧ s = t then (.val 0 s, f) else (.val (p + c.rat) (zeroSum rm), f)

/-- a ÷ b by IEEE 754, without the divide-by-zero flag (R250, R277). -/
def divX (a b : FV) : XV × BitVec 5 :=
  match a, b with
  | .nan _, _ => (.nan, sigFlag [a, b])
  | _, .nan _ => (.nan, sigFlag [a, b])
  | .inf _, .inf _ => (.nan, flNV)
  | .inf s, .fin t _ => (.inf (s != t), 0)
  | .fin s _, .inf t => (.val 0 (s != t), 0)
  | .fin s p, .fin t q =>
    if q = 0 then (if p = 0 then (.nan, flNV) else (.inf (s != t), 0))
    else (.val (a.rat / b.rat) (s != t), 0)

/-- An operation's result rounded into F32, F16 or E16 with FTZ applied: code and all flags. -/
def arith (ty : Ty) (rm : RM) (ftz : Bool) (r : XV × BitVec 5) : Nat × BitVec 5 :=
  let c := flush ty ftz (roundX ty rm false r.1)
  (c.1, c.2 ||| r.2)

/-- As `arith` in F32, the code as a word. -/
def arith32 (rm : RM) (ftz : Bool) (r : XV × BitVec 5) : Word × BitVec 5 :=
  let c := arith .f32 rm ftz r
  (BitVec.ofNat 32 c.1, c.2)

/-- An abandoned-result encoding (R86). -/
def isAbandoned (w : Word) : Bool := w >>> 8 == (0x7FA000 : Word)

/-! ### Comparisons -/

/-- Order of two values that are not NaN; −0 equals +0. -/
def FV.lt (a b : FV) : Bool :=
  match a, b with
  | .fin _ _, .fin _ _ => decide (a.rat < b.rat)
  | .inf s, .inf t => s && !t
  | .inf s, .fin _ _ => s
  | .fin _ _, .inf t => !t
  | _, _ => false

/-- Equality of two values that are not NaN. -/
def FV.eqv (a b : FV) : Bool := !a.isNan && !b.isNan && !a.lt b && !b.lt a

/-- A floating-point test of Table 6.1. -/
def ccF (cc : CC) (a b : FV) : Bool :=
  let un := a.isNan || b.isNan
  match cc with
  | .eq => !un && a.eqv b
  | .ne => un || !a.eqv b
  | .lt => !un && a.lt b
  | .le => !un && (a.lt b || a.eqv b)
  | .gt => !un && b.lt a
  | .ge => !un && (b.lt a || a.eqv b)
  | .num => !un
  | .nan => un

/-- −0 below +0 in addition to the order of values (R180). -/
def ltSigned (a b : FV) : Bool := a.lt b || (a.eqv b && a.neg && !b.neg)

/-- `fmin` and `fmax` of two words (R180): the operand's own bits, or the canonical NaN; and NV for a signalling NaN. -/
def minmaxW (mx : Bool) (a b : Word) : Word × BitVec 5 :=
  let x := fv a
  let y := fv b
  let r := match x.isNan, y.isNan with
    | true, true => 0x7FC00000
    | true, false => b
    | false, true => a
    | false, false => if mx then (if ltSigned x y then b else a) else (if ltSigned y x then b else a)
  (r, sigFlag [x, y])

/-! ### Conversions (R71, R187) -/

/-- The signed integer types (Table 3.1). -/
def signedInt : Ty → Bool
  | .s32 | .s16 | .s8 | .s4 => true
  | _ => false

/-- Bounds of an integer type. -/
def intMin (ty : Ty) : Int := if signedInt ty then -(2 ^ (widthOf ty - 1) : Int) else 0
/-- The largest value of an integer type. -/
def intMax (ty : Ty) : Int := if signedInt ty then 2 ^ (widthOf ty - 1) - 1 else 2 ^ widthOf ty - 1

/-- The value of an integer element (R66). -/
def intOf (ty : Ty) (code : Nat) : Int :=
  let w := widthOf ty
  let c := code % 2 ^ w
  if signedInt ty && decide (2 ^ (w - 1) ≤ c) then (c : Int) - 2 ^ w else c

/-- An integer taken modulo 2^w. -/
def wrapInt (w : Nat) (x : Int) : Nat := (x % (2 ^ w : Int)).toNat

/-- A rational rounded to an integer. -/
def roundInt (rm : RM) (x : Rat) : Int :=
  let n := x < 0
  let k := roundNat rm (decide n) x.num.natAbs x.den
  if n then -(k : Int) else k

/-- A floating-point value converted to an integer type (R71): the code and the flags. -/
def toInt (ty : Ty) (rm : RM) (v : FV) : Nat × BitVec 5 :=
  let w := widthOf ty
  match v with
  | .nan _ => (0, flNV)
  | .inf n => (wrapInt w (if n then intMin ty else intMax ty), flNV)
  | .fin _ _ =>
    let k := roundInt rm v.rat
    if k < intMin ty then (wrapInt w (intMin ty), flNV)
    else if intMax ty < k then (wrapInt w (intMax ty), flNV)
    else (wrapInt w k, if (k : Rat) = v.rat then 0 else flNX)

/-- A value narrowed or widened into a floating-point format (R69, R187). -/
def toFloat (ty : Ty) (rm : RM) (sat : Bool) (v : FV) : Nat × BitVec 5 :=
  match v with
  | .nan s => (nanCode ty, if s || (fmtOf ty).nan.isNone then flNV else 0)
  | .inf n => infInto ty sat n
  | .fin n _ => roundX ty rm sat (.val v.rat n)

/-- A value widened exactly into F32 (R217, R241): a NaN becomes the canonical NaN. -/
def widenW (ty : Ty) (code : Nat) : Word := BitVec.ofNat 32 (toFloat .f32 .rn false (valueOf ty code)).1

/-! ### Steps (R78, R79) -/

/-- An element of a dot step or of the array: a floating-point value or an exact integer. -/
def elemOf (ty : Ty) (code : Nat) : FV :=
  if ty.isFloat then valueOf ty code
  else let x := intOf ty code; .fin (decide (x < 0)) |(x : Rat)|

/-- The metric of a step: 0 PROD, 1 ABSD, 2 SQD (Table 8.1). -/
abbrev Metric := Nat

/-- Running sums of a step (R79). -/
structure StepAcc where
  sum  : Rat
  pinf : Bool
  ninf : Bool
  bad  : Bool
  nv   : Bool
  deriving DecidableEq, Repr

/-- One term of a step (R79). -/
def stepTerm (mt : Metric) (s : StepAcc) (a b : FV) : StepAcc :=
  if mt = 0 && (a.isZero || b.isZero) then s
  else if a.isNan || b.isNan then { s with bad := true, nv := s.nv || a.isSig || b.isSig }
  else
    let d := (addX .rn a b.negate).1
    let r := match mt with
      | 0 => (mulX a b).1
      | 1 => match d with
        | .val x _ => .val |x| false
        | .inf _ => .inf false
        | .nan => .nan
      | _ => match d with
        | .val x _ => .val (x * x) false
        | .inf _ => .inf false
        | .nan => .nan
    match r with
    | .nan => { s with bad := true, nv := true }
    | .inf n => if n then { s with ninf := true } else { s with pinf := true }
    | .val x _ => { s with sum := s.sum + x }

/-- The terms of a step. -/
def stepTerms (mt : Metric) : StepAcc → List (FV × FV) → StepAcc
  | s, [] => s
  | s, (a, b) :: ts => stepTerms mt (stepTerm mt s a b) ts

/-- `Step(acc, a, b, metric, s)` (R79), then R74: the new accumulator and the flags. -/
def step79 (mt : Metric) (scale : Int) (ftz : Bool) (acc : Word) (ts : List (FV × FV)) : Word × BitVec 5 :=
  let s := stepTerms mt ⟨0, false, false, false, false⟩ ts
  let v := fv acc
  let f0 : BitVec 5 := (if s.nv then flNV else 0) ||| sigFlag [v]
  if v.isNan || s.bad then (0x7FC00000, f0)
  else if s.pinf && s.ninf then (0x7FC00000, f0 ||| flNV)
  else if s.pinf || s.ninf then
    match v with
    | .inf n => if n = s.ninf then (if s.ninf then 0xFF800000 else 0x7F800000, f0) else (0x7FC00000, f0 ||| flNV)
    | _ => (if s.ninf then 0xFF800000 else 0x7F800000, f0)
  else
    match v with
    | .fin _ _ =>
      let x := v.rat + pow2 scale * s.sum
      let r := flush .f32 ftz (roundX .f32 .rn false (.val x false))
      (BitVec.ofNat 32 r.1, r.2 ||| f0)
    | _ => (acc, f0)

/-- Packed elements of a word, lowest first (R65). -/
def elems (ty : Ty) (w : Nat) (n : Nat) : List Nat :=
  (List.range n).map fun i => w / 2 ^ (i * widthOf ty) % 2 ^ widthOf ty

/-- The word that packed elements make (R65). -/
def packElems (ty : Ty) : List Nat → Nat
  | [] => 0
  | c :: cs => c % 2 ^ widthOf ty + 2 ^ widthOf ty * packElems ty cs

/-! ### Irrational values: floor at 2^-K with a sticky half (log 20) -/

/-- Integer square root by bits from `2^b` down. -/
def isqrtGo (n : Nat) : Nat → Nat → Nat
  | 0, r => r
  | b + 1, r =>
    let r' := r + 2 ^ b
    if r' * r' ≤ n then isqrtGo n b r' else isqrtGo n b r

/-- ⌊√n⌋. -/
def isqrt (n : Nat) : Nat := isqrtGo n (Nat.log2 n / 2 + 1) 0

/-- √x for x ≥ 0: exact when it is a multiple of 2^-170, otherwise the midpoint of the interval of that width that holds
it. -/
def sqrtRep (x : Rat) : Rat :=
  let y := x * pow2 340
  let n := y.num.natAbs / y.den
  let s := isqrt n
  if s * s = n ∧ y.den = 1 then (s : Rat) * pow2 (-170) else ((2 * s + 1 : Nat) : Rat) * pow2 (-171)

/-- Terms of atan(1/k) × 2^p by its alternating series, from the term t = 2^p ÷ k^(2i+1). -/
def atanInv (k : Nat) : Nat → Nat → Nat → Int
  | 0, _, _ => 0
  | fuel + 1, t, i => (t / (2 * i + 1) : Nat) - atanInv k fuel (t / (k * k)) (i + 1)

/-- Fraction bits of the fixed-point values below. -/
def fixP : Nat := 440

/-- π × 2^440 by Machin's formula. -/
def piFix : Int := 16 * atanInv 5 110 (2 ^ fixP / 5) 0 - 4 * atanInv 239 40 (2 ^ fixP / 239) 0

/-- The series Σ (−1)^i r^(2i)/(2i + s)! from a first term, in fixed point: sine for first term r and s = 1, cosine for
first term 1 and s = 0. -/
def trigSeries (r : Int) : Nat → Int → Nat → Int
  | 0, _, _ => 0
  | fuel + 1, t, k => t - trigSeries r fuel (t * r / 2 ^ fixP * r / 2 ^ fixP / ((k + 1) * (k + 2))) (k + 2)

/-- sin (false) or cos (true) of a finite non-zero x (R183), as a rational that rounds alike. -/
def trigRep (cosine : Bool) (x : Rat) : Rat :=
  if |x| < pow2 (-60) then (if cosine then 1 - pow2 (-100) else x * (1 - pow2 (-100)))
  else
    let y := x * pow2 fixP
    let n : Int := y.num / y.den
    let h := piFix / 2
    let k := (2 * n + h) / (2 * h)
    let r := n - k * piFix / 2
    let m := (k + (if cosine then 1 else 0)) % 4
    let s := trigSeries r 60 r 1
    let c := trigSeries r 60 (2 ^ fixP) 0
    let v := if m = 0 then s else if m = 1 then c else if m = 2 then -s else -c
    (v : Rat) * pow2 (-(fixP : Int))

/-- Terms z^(2i+1)/(2i+1) of atanh in fixed point, from t = z^(2i+1). -/
def atanhSeries (z2 : Nat) : Nat → Nat → Nat → Nat
  | 0, _, _ => 0
  | fuel + 1, t, i => t / (2 * i + 1) + atanhSeries z2 fuel (t * z2 / 2 ^ fixP) (i + 1)

/-- ln 2 × 2^440. -/
def ln2Fix : Nat := 2 * atanhSeries (2 ^ fixP / 9) 150 (2 ^ fixP / 3) 0

/-- log₂ x for x > 0 (R183): exact for a power of two. -/
def log2Rep (x : Rat) : Rat :=
  let e := ilog2 x
  let m := x * pow2 (-e)
  if m = 1 then (e : Rat)
  else
    let z := (m - 1) / (m + 1) * pow2 fixP
    let zf := z.num.natAbs / z.den
    let l := 2 * atanhSeries (zf * zf / 2 ^ fixP) 150 zf 0
    (e : Rat) + ((l * 2 ^ fixP / ln2Fix : Nat) : Rat) * pow2 (-(fixP : Int))

/-- Σ y^i/i! in fixed point, from the term t. -/
def expSeries (y : Nat) : Nat → Nat → Nat → Nat
  | 0, _, _ => 0
  | fuel + 1, t, i => t + expSeries y fuel (t * y / 2 ^ fixP / (i + 1)) (i + 1)

/-- 2^x (R183): exact for an integer; beyond every F32 result, a power of two that overflows or underflows alike. -/
def exp2Rep (x : Rat) : Rat :=
  if x ≥ 200 then pow2 200 else if x ≤ -200 then pow2 (-200)
  else
    let n : Int := x.num / x.den
    let f := x - n
    if f = 0 then pow2 n
    else
      let y := f * pow2 fixP
      let yf := y.num.natAbs / y.den
      ((expSeries (yf * ln2Fix / 2 ^ fixP) 110 (2 ^ fixP) 0 : Nat) : Rat) * pow2 (n - fixP)

/-- The special functions of Table 6.7. -/
inductive Sfu | rcp | rsq | sqrt | exp2 | log2 | sin | cos
  deriving DecidableEq, Repr

/-- A special function of a value (Table 6.7): the exact result and the flags of R76. -/
def sfuX (f : Sfu) (a : FV) : XV × BitVec 5 :=
  match a with
  | .nan _ => (.nan, sigFlag [a])
  | .inf n =>
    match f with
    | .rcp => (.val 0 n, 0)
    | .rsq => if n then (.nan, flNV) else (.val 0 false, 0)
    | .sqrt => if n then (.nan, flNV) else (.inf false, 0)
    | .exp2 => if n then (.val 0 false, 0) else (.inf false, 0)
    | .log2 => if n then (.nan, flNV) else (.inf false, 0)
    | .sin | .cos => (.nan, flNV)
  | .fin n q =>
    match f with
    | .rcp => if q = 0 then (.inf n, flDZ) else (.val (1 / a.rat) n, 0)
    | .rsq => if q = 0 then (.inf n, flDZ) else if n then (.nan, flNV) else (.val (sqrtRep (1 / q)) false, 0)
    | .sqrt => if q = 0 then (.val 0 n, 0) else if n then (.nan, flNV) else (.val (sqrtRep q) false, 0)
    | .exp2 => (.val (exp2Rep a.rat) false, 0)
    | .log2 => if q = 0 then (.inf true, flDZ) else if n then (.nan, flNV) else (.val (log2Rep q) false, 0)
    | .sin => if q = 0 then (.val 0 n, 0) else (.val (trigRep false a.rat) false, 0)
    | .cos => if q = 0 then (.val 1 false, 0) else (.val (trigRep true a.rat) false, 0)

/-- The class bit of Table 6.6. -/
def classBit (w : Word) : Word :=
  match fv w with
  | .nan s => if s then 0x100 else 0x200
  | .inf n => if n then 0x001 else 0x080
  | .fin n q =>
    if q = 0 then (if n then 0x008 else 0x010)
    else if q < pow2 (-126) then (if n then 0x004 else 0x020)
    else if n then 0x002 else 0x040

/-- `fscl` (R73, R182): a × 2^e, saturating at the largest finite value. -/
def fsclX (a : Word) (e : Int) (ftz : Bool) : Word × BitVec 5 :=
  let v := fv a
  if e < -127 ∨ 127 < e then (0x7FC00000, flNV)
  else match v with
    | .nan s => (0x7FC00000, if s then flNV else 0)
    | .inf _ => (a, 0)
    | .fin n q =>
      if q = 0 then (a, 0)
      else
        let x := q * pow2 e
        if (fmtOf .f32).mag (fmtOf .f32).max < x then (if n then 0xFF7FFFFF else 0x7F7FFFFF, flOF ||| flNX)
        else
          let r := flush .f32 ftz (roundX .f32 .rn false (.val (if n then -x else x) n))
          (BitVec.ofNat 32 r.1, r.2)

/-- a rounded to an integral value (R181); no inexact flag. -/
def frndX (rm : RM) (a : Word) : Word × BitVec 5 :=
  match fv a with
  | .nan s => (0x7FC00000, if s then flNV else 0)
  | .inf _ => (a, 0)
  | .fin n _ => (BitVec.ofNat 32 (roundX .f32 .rn false (.val (roundInt rm (fv a).rat) n)).1, 0)

/-- a − trunc(a) (R181). -/
def ffracX (a : Word) (ftz : Bool) : Word × BitVec 5 :=
  match fv a with
  | .nan s => (0x7FC00000, if s then flNV else 0)
  | .inf _ => (0x7FC00000, flNV)
  | .fin n _ =>
    let x := (fv a).rat
    let r := flush .f32 ftz (roundX .f32 .rn false (.val (x - roundInt .rz x) n))
    (BitVec.ofNat 32 r.1, r.2)

/-- An f32 sum over a set of values in one step (R196). -/
def sum196 (ftz : Bool) (ws : List Word) : Word × BitVec 5 :=
  let vs := ws.map fv
  if vs.any FV.isNan then (0x7FC00000, sigFlag vs)
  else if vs.any (· == .inf false) && vs.any (· == .inf true) then (0x7FC00000, flNV)
  else if vs.any (· == .inf false) then (0x7F800000, 0)
  else if vs.any (· == .inf true) then (0xFF800000, 0)
  else if vs.all (· == .fin true 0) then (0x80000000, 0)
  else
    let r := flush .f32 ftz (roundX .f32 .rn false (.val ((vs.map FV.rat).sum) false))
    (BitVec.ofNat 32 r.1, r.2)

/-- Error-feedback narrowing (R72, R188): the narrowed code, the new residue, and the flags of the two roundings. DESIGN CHOICE (log 106):
with v and c both −0, t and the code are −0. -/
def cvefX (ty : Ty) (v c : Word) : Nat × Word × BitVec 5 :=
  let s := addX .rn (fv v) (fv c)
  let t := roundX .f32 .rn false s.1
  let tv := valueOf .f32 t.1
  let y := toFloat ty .rn false tv
  let yv := valueOf ty y.1
  let c' := if tv.isFin && yv.isFin then roundW .rn (tv.rat - yv.rat) else 0
  (y.1, c', s.2 ||| t.2 ||| y.2)

end Sys2Proof.Machine
end

