-- ==== Sys2Proof/Config.lean ====
section
/-! DEFINITION. What the manual leaves open, as constants without a body: nothing in Lean can evaluate one or prove a
value of it. Each is applied to what it depends on, or to the model's own counter `Gpu.free`. -/

namespace Sys2Proof.Config

/-- A value the manual does not state: the n-th free value drawn (R57, R220, R318, R407). -/
opaque freeWord : Nat → Word

/-- The bytes of a save area after its header: their layout belongs to the part (R384). Arguments: the save's number
and the byte's offset. -/
opaque saveByte : Nat → Nat → Byte

/-- Whether the image a context runs has a safe point at a code address that can be used for a move across revisions (R317,
R318): its map lies in the code object, which the part's state does not hold. -/
opaque safeAt : Nat → DWord → Bool

/-- Where a virtual register stands at a safe point (Table 10.11): a native register, a slot of the thread's spill area, or a native
register that holds a code address. -/
inductive Loc | reg (n : Nat) | slot (off : Nat) | code (n : Nat)
  deriving DecidableEq, Repr

/-- The live records of a safe point (R317), its virtual registers with their places: of the image that a context runs, or, with the
first argument, of the one that the restoring part selects; then the context and the safe point's code address. -/
opaque liveAt : Bool → Nat → DWord → List (Nat × Loc)
/-- The address of a thread's spill area (Table 10.11), which the toolchain lays out: of the old image or the new; context, workgroup,
thread. -/
opaque spillArea : Bool → Nat → Nat → Nat → DWord
/-- The code address of the matching safe point in the image that the restoring part selects (R316, R318). -/
opaque lowPc : Nat → DWord → DWord
/-- A code address of the old image as the new image has it (LOC 10, R318). -/
opaque lowCode : Nat → DWord → DWord

/-- The integrity word over a save area's bytes, "computed by the part" (R384). -/
opaque saveInteg : List Byte → DWord

/-- The set of its home slice that a line indexes, from its number in its space: the manual gives L2's ways and capacity, and no
index (R23, R406). -/
opaque l2Set : Nat → Nat
/-- The set of an L1 TLB that a translation indexes, from its ASID and page number (R20, R395). -/
opaque tlbSet : Nat → Nat → Nat

/-- The raster unit of its die to which a submission is queued, by the submission's number (R12, R304). -/
opaque rasterUnit : Nat → Nat

/-- What a byte of a compressed page reads as after a store by software into a live record, the pool or the ring (R407): the n-th
free value drawn when that happened, and the byte's place. -/
opaque tornByte : Nat → Nat → Byte

/-- SHAKE256 truncated to 32 bytes, of FIPS 202, which the manual names and does not define (R432, R434, R436). -/
opaque shake256x32 : List Byte → List Byte

/-- The first 96 bytes of SHAKE256 (R434). -/
opaque shake256x96 : List Byte → List Byte

/-- Verification of a pure SLH-DSA-SHAKE-256s signature with an empty context string (R432): public key, message,
signature. The scheme is FIPS 205's, which the manual names and does not define. -/
opaque slhVerify : List Byte → List Byte → List Byte → Bool

/-- The public key of SLH-DSA-SHAKE-256s key generation from SK.seed, SK.prf and PK.seed (R434). -/
opaque slhPublic : List Byte → List Byte

/-- The pure SLH-DSA-SHAKE-256s signature under the key of the given seeds (R434). -/
opaque slhSign : List Byte → List Byte → List Byte

/-- Bytes 0x000 to 0x17F of the partition table that is active when none is stored (R436), which CFGMEAS digests (R434). -/
opaque defaultTable : List Byte

/-- Package power in W, the mean over the last 2 ms, at a core cycle (R438): a sensor's reading. -/
opaque packageWatts : Nat → BitVec 16

/-- The coolant inlet temperature in °C at a core cycle (R438): a sensor's reading. -/
opaque coolant : Nat → BitVec 8

end Sys2Proof.Config
end

