-- ==== Sys2Proof/Machine/State.lean ====
section
/-! DEFINITION. The state of the device: everything the manual gives the machine, as plain data. Three parts that no
instruction word mixes: `Gpu` (cores, memory, launches, ports), `Clock` (cycles and PTP time) and `Sec` (fuses, flash
and what only the security core and the firmware hold). -/

namespace Sys2Proof.Machine

/-! ### Stores -/

/-- Sparse data by number in one canonical form: keys strictly rising, and no entry equal to what an unlisted key
reads as (log 6). -/
abbrev Store (β : Type) := List (Nat × β)

/-- Bytes by address. -/
abbrev Memory := List Host.Cell

/-- The registers of one thread by number; an unlisted one is 0 (R27). -/
abbrev Regs := Store Word

/-! ### Locations and translations -/

/-- The four kinds of location (R392): device memory, a partition's compressed pages, host memory behind a port, and
peer memory through an endpoint of a context. -/
inductive Space | dev | comp (part : Nat) | host (port : Nat) | peer (ctx ep : Nat)
  deriving DecidableEq, Repr

/-- A byte's physical location. Compressed pages use 64 KiB × RIDX + offset (R392). -/
structure Phys where
  sp   : Space
  addr : Nat
  deriving DecidableEq, Repr

/-- A 128-byte line of a space (R23). -/
structure LineKey where
  sp  : Space
  idx : Nat
  deriving DecidableEq, Repr

/-- A leaf translation (Table 16.1): where its page starts, the page's size 2^log, and its attributes. -/
structure Leaf where
  base   : Phys
  log    : Nat
  x      : Bool
  rpl    : Bool
  w      : Bool
  cache  : BitVec 2
  wpol   : BitVec 2
  evp    : BitVec 2
  hsnoop : Bool
  home   : Bool
  deriving DecidableEq, Repr

/-- A TLB entry (R395): the ASID, the page's number in units of its own size, and the leaf. -/
structure TlbEntry where
  asid : Nat
  vpn  : Nat
  leaf : Leaf
  deriving DecidableEq, Repr

/-! ### Threads -/

/-- User or trap mode (R345). -/
inductive Mode | user | trap
  deriving DecidableEq, Repr

/-- What an array stall waits for (Table 2.2, R237, R244, R258, R261, R263). -/
inductive ArrWait
  | grant (cls : Nat)
  | follower
  | tile (t : Nat)
  | order
  | sequencer (k : SeqKind)
  deriving DecidableEq, Repr

/-- Park conditions (Table 2.2) and the parks of R211, R355, R359 and R360. `tbar` names the `tbwt` that waits (R131), `rendezvous`
the sequencers that `rdv` waits for. `clear`: the condition has cleared and the thread becomes READY at the next formation point. -/
inductive Wait
  | clear
  | switch
  | token (r : Reg)
  | rejoin (k : Nat)
  | barrier (b : Nat)
  | gang (g : Nat)
  | counter (cls : Cls) (n : Nat)
  | array (a : ArrWait)
  | marcher
  | pool
  | tbar (off : Nat) (pc word : DWord)
  | fault (part seq : Nat) (word va : DWord)
  | inval (sc : Scope) (asid : Option Nat) (page : Option Nat)
  | quiet
  | rendezvous (ids : List Nat)
  | lifted
  deriving DecidableEq, Repr

/-- Thread states (Table 2.3). `stopped` is a fenced thread (R62, R363). SAVED is the state of a thread whose workgroup
is saved (`Wg.place`). -/
inductive TStatus
  | ready | active | parked (w : Wait) | exiting | exited | stopped
  deriving DecidableEq, Repr

/-- A variable-latency result or a token that is outstanding (R128, R147): the destination registers, the values once
known, the flags it sets, whether it counts in XCH, and the word that a deferred trap names; `drop` are the flags that later writes
to sr.flags have cleared (R357). -/
structure Pending where
  id    : Nat
  regs  : List Reg
  vals  : Option (List Word)
  flags : BitVec 5
  token : Bool
  xch   : Bool
  pc    : DWord
  word  : DWord
  drop  : BitVec 5 := 0
  deriving DecidableEq, Repr

/-- One operation counted by a thread (R125), in issue order; `drop` are the flags of its retirement that later writes to sr.flags have
cleared (R357). -/
structure Outst where
  cls  : Cls
  id   : Nat
  done : Bool
  drop : BitVec 5 := 0
  deriving DecidableEq, Repr

/-- A deferred trap waiting for its park (R352). -/
structure Deferred where
  kind : BitVec 8
  info : BitVec 16
  pc   : DWord
  word : DWord
  addr : DWord
  deriving DecidableEq, Repr

/-- The trap registers (Table 14.3). -/
structure TrapRegs where
  cause  : Word
  tpc    : DWord
  tsrc   : DWord
  tword  : DWord
  taddr  : DWord
  tmask  : Word
  spmode : Bool
  ts0    : DWord
  ts1    : DWord
  ts2    : DWord
  ts3    : DWord
  deriving DecidableEq, Repr

/-- A reservation (R122): the line, and the core cycle of the `lr`. -/
structure Resv where
  key : LineKey
  at_ : Nat
  deriving DecidableEq, Repr

/-- A thread (R26, R27). `owes`: the last word had S = 1, and the park that it asks for has not ended (R147). `rdfl`: the
issue of `rdfl` by which the thread is sealed (R227). `sysrel`: a fence with a release part at system scope holds the thread's accesses
back until the peers have acknowledged its stores (R209, R421). `lifted`: the thread's live virtual registers in a lifted save (R318,
R388). -/
structure Thread where
  regs     : Regs
  preds    : BitVec 7
  flags    : BitVec 5
  prb      : Bool
  pmode    : Bool
  mode     : Mode
  pc       : DWord
  status   : TStatus
  pend     : List Pending
  outst    : List Outst
  resv     : Option Resv
  deferred : List Deferred
  due      : List Deferred
  trap     : TrapRegs
  owes     : Bool
  rdfl     : Option Nat
  sysrel   : Bool
  recAddr  : DWord
  lifted   : List (Nat × DWord)
  deriving DecidableEq, Repr

/-! ### Workgroups -/

/-- A rejoin mask (R41). -/
structure RMask where
  mask    : BitVec 32
  arrived : BitVec 32
  deriving DecidableEq, Repr

/-- The A latch when FULL (R246): the registers of 32 lanes, and whether `.tall` filled it; a lane outside Lanes() has no words. -/
structure Latch where
  tall : Bool
  rows : List (List Word)
  deriving DecidableEq, Repr

/-- Verdict state of a team (R252). -/
structure Verdict where
  vt   : Word
  k    : Nat
  max  : Bool
  list : List (Word × BitVec 16)
  deriving DecidableEq, Repr

/-- A power grant of a team (R259): class, the core cycle at which it expires, and its number for the youngest-first
order of R387. -/
structure Grant where
  cls  : Nat
  till : Nat
  id   : Nat
  deriving DecidableEq, Repr

/-- A team's last fork not met by `rdv` (R263 to R266): the operations that count its sequencers, the sequencers still
running, and the engine fault's INFO. -/
structure ForkSt where
  ids   : List Nat
  arr   : Bool
  copy  : Bool
  fault : Option (BitVec 16)
  deriving DecidableEq, Repr

/-- A team (R10, R41, R246, R252, R259). -/
structure Team where
  masks   : List RMask
  latch   : Option Latch
  verdict : Verdict
  grant   : Option Grant
  fork    : Option ForkSt
  deriving DecidableEq, Repr

/-- A workgroup barrier (R42), with the phase each thread last arrived in (R43). -/
structure Bar where
  e     : Nat
  a     : Nat
  phase : Bool
  arr   : BitVec 1024
  parts : BitVec 1024
  last  : List (Nat × Bool)
  deriving DecidableEq, Repr

/-- A state of an engine program (Table 8.8). -/
structure EState where
  op   : Nat
  ix   : Nat
  ring : Nat
  tile : Nat
  areg : Nat
  off  : Nat
  size : Nat
  arg  : Nat
  incC : Nat
  inc  : Bool
  wait : Bool
  post : Bool
  loopC : Nat
  loop : Bool
  next : Nat
  jmp  : Nat
  deriving DecidableEq, Repr

/-- An engine sequencer at work (R263, R264): `fork` is the operation that counts it, `other` the other sequencer's POST. -/
structure Seq where
  fork    : Nat
  wg      : Nat
  team    : Nat
  lanes   : List TRef
  elected : TRef
  tab     : List EState
  idx     : Nat
  ctrs    : List Nat
  limits  : List Word
  post    : Int
  other   : Int
  take    : Int
  src     : DWord
  fmt     : Word
  ops     : List Nat
  posts   : List Nat
  ended   : Bool
  pc      : DWord
  word    : DWord
  deriving DecidableEq, Repr

/-- Where a workgroup is (R370, R382): on a core, saved, or finished. -/
inductive Place | core (c : Nat) | saved | gone
  deriving DecidableEq, Repr

/-- A workgroup's times in core cycles (R62, R381): the budget that is enforced (R377), when it was placed, when its
counting began or resumed (none while it is saved, migrating or not started), and cycles counted before that. -/
structure WgTime where
  budget : Nat
  placed : Nat
  since  : Option Nat
  used   : Nat
  tier   : Nat
  deriving DecidableEq, Repr

/-- A workgroup (R26, R27, R42, R62, R94, R238). `node` is none for the root grid; `index` is sr.wg; `recs` are the pool
records of a batch; `seqs` are its sequencers while it is saved (R383); `endSt` is the status and the PTP time of its end. `tmap` holds the model's number for each tile a0 to
a(C − 1) (64 × a generation + the name), so that a dropped tile stays with the operations that name it (R239); `tiles` is
keyed by 256 × that number + 16 × row + column. -/
structure Wg where
  id      : Nat
  launch  : Nat
  ctx     : Nat
  node    : Option Nat
  index   : Nat
  size    : Nat
  regs    : Nat
  place   : Place
  scratchLen : Nat
  scratch : Memory
  tbars   : List Nat
  tilesDecl : Nat
  tmap    : List Nat
  tiles   : Store Word
  bars    : List Bar
  teams   : List Team
  time    : WgTime
  recs    : List Nat
  seqs    : List (SeqKind × Seq)
  endSt   : Option (Nat × Nat)
  deriving DecidableEq, Repr

/-! ### Bundles and cores -/

/-- A bundle (R29, R30, R33, R36): its members, key, whether it holds a hash-table entry, when it was made or last
moved to the tail (`order`), when it last issued, and its fairness timer. -/
structure Bundle where
  members : List TRef
  launch  : Nat
  mode    : Mode
  pc      : DWord
  entry   : Bool
  order   : Nat
  issued  : Nat
  timer   : Nat
  deriving DecidableEq, Repr

/-- How a page's lines may be held, as an access carries it (R95, R96). `rank` is the line's place in the order of eviction from
L1: 0 for a hint 01, 1 + EVP without one, 5 for a hint 10. -/
structure Attr where
  cache : BitVec 2
  wpol  : BitVec 2
  rank  : Nat
  deriving DecidableEq, Repr

/-- A store waiting in a thread's FIFO (R109): its bytes by location, in issue order across the core, and the word that
issued it; `inst` numbers that issue, whose stores enter L1 in lane order. -/
structure FifoEntry where
  t     : TRef
  pc    : DWord
  word  : DWord
  inst  : Nat
  cells : List (Phys × Byte)
  attr  : Attr
  bypass : Bool
  res   : Bool
  deriving DecidableEq, Repr

/-- An L1 line (R100): data, dirty bytes, when it was filled and when first dirtied, and its place in the order of eviction. -/
structure L1Line where
  key    : LineKey
  data   : Line
  dirty  : BitVec 128
  filled : Nat
  dirtied : Nat
  bad    : Bool
  res    : Bool
  rank   : Nat
  deriving DecidableEq, Repr

/-- A core (R15 to R22, R33, R100): split and brick-mode size while workgroups are resident, store FIFOs, L1,
instruction cache, brick-mode region, L1 TLB, active and pending bundles, the array's order, the two sequencers,
forwarding entries (R380: a moved workgroup and the last operation that may still name this core), shadow counters by
context (R89), resident contexts' tile counters. -/
structure CoreSt where
  split   : Nat
  brick   : Nat
  fifo    : List FifoEntry
  l1      : List L1Line
  icache  : List (Phys × DWord)
  bricks  : List (LineKey × Line)
  tlb     : List TlbEntry
  active  : List Bundle
  pending : List Bundle
  arrq    : List Nat
  seqA    : Option Seq
  seqC    : Option Seq
  fwd     : List (Nat × Nat)
  shadow  : Store Nat
  deriving DecidableEq, Repr

/-- The word a core is issuing: the model's latch between fetch and meaning. `no` numbers the issue. -/
structure Issue where
  core    : Nat
  members : List TRef
  pc      : DWord
  word    : DWord
  lit     : DWord
  len     : Nat
  no      : Nat
  deriving DecidableEq, Repr

/-! ### The marcher -/

/-- An affine form (R84). -/
structure Aff where
  c  : Word
  x0 : Word
  x1 : Word
  x2 : Word
  x3 : Word
  e  : Word
  deriving DecidableEq, Repr

/-- A value of the evaluator (R277): a point, an interval, an affine form. -/
inductive VVal | pt (v : Word) | iv (lo hi : Word) | aff (a : Aff)
  deriving DecidableEq, Repr

/-- Evaluation modes (R277). -/
inductive VMode | pt | iv | aff
  deriving DecidableEq, Repr

/-- A frame (R278): the coordinates x, y, z. -/
structure Frame where
  x : VVal
  y : VVal
  z : VVal
  deriving DecidableEq, Repr

/-- An evaluation under way (R274 to R278): the code byte, the stack (top first) and the frames (current first). -/
structure Vm where
  pc     : Nat
  stack  : List VVal
  frames : List Frame
  deriving DecidableEq, Repr

/-- A segment of an instance: bounds and depth (R287). -/
structure Sgm where
  a : Word
  b : Word
  q : Nat
  deriving DecidableEq, Repr

/-- An instance's record (Table 9.3). -/
structure Inst where
  xf   : List Word
  prog : DWord
  ident : Word
  kind : Nat
  opid : Nat
  deriving DecidableEq, Repr

/-- The scene descriptor's fields (Table 9.1). -/
structure Scene where
  dmax   : Nat
  eps    : Word
  nodes  : DWord
  nnode  : Nat
  ninst  : Nat
  inst   : DWord
  budget : Nat
  deriving DecidableEq, Repr

/-- The instance under evaluation (R287): the object-space ray, the segments still to visit, the one being evaluated,
and the evaluation when it is suspended in a program. -/
structure InstEval where
  inst : Inst
  o    : List Word
  d    : List Word
  segs : List Sgm
  cur  : Option Sgm
  vm   : Option Vm
  deriving DecidableEq, Repr

/-- The best candidate so far (R286): status, a, b and ID. -/
structure Best where
  inside : Bool
  a : Word
  b : Word
  ident : Word
  deriving DecidableEq, Repr

/-- A march's whole state (R286, R289). -/
structure MState where
  aff   : Bool
  ray   : List Word
  scene : Scene
  stack : List Nat
  best  : Option Best
  tf    : Word
  steps : Nat
  ev    : Option InstEval
  deriving DecidableEq, Repr

/-- A ray slot in use (R290): its core and number, its owner, and the suspended march (none while one is in
flight). -/
structure Ray where
  core  : Nat
  slot  : Nat
  owner : TRef
  susp  : Option MState
  deriving DecidableEq, Repr

/-- The raster descriptor's fields (Table 9.13). -/
structure RDesc where
  dmode   : Nat
  lequal  : Bool
  cull    : Nat
  ntri    : Nat
  vert    : DWord
  depth   : DWord
  pitch   : Nat
  node    : Nat
  x0 : Nat
  y0 : Nat
  x1 : Nat
  y1 : Nat
  tag : Word
  deriving DecidableEq, Repr

/-! ### Asynchronous operations -/

/-- Copy shapes (R216): rows of bytes, or an element widening. -/
inductive Shape
  | rows (w n : Nat) (ss ds : Int)
  | widen (n cv : Nat)
  deriving DecidableEq, Repr

/-- A copy (R215 to R220): source and destination addresses, the workgroup whose scratchpad the destination window
names, and the barrier offset. -/
structure Copy where
  src   : DWord
  dst   : DWord
  dwg   : Nat
  shape : Shape
  tb    : Option Nat
  sc    : Scope
  deriving DecidableEq, Repr

/-- An array operation with its captured operands (R232 to R256): tiles by the numbers of `Wg.tmap`; registers of a team as
32 lists of words, none for a lane outside Lanes(). -/
inductive ArrOp
  | zero (t : Nat)
  | ld (ty : Ty) (t : Nat) (a : DWord) (sc : Scope)
  | st (ty : Ty) (rm : RM) (sat : Bool) (t : Nat) (a : DWord) (sc : Scope)
  | mma (pair tall clr sparse : Bool) (t t2 : Nat) (rows : List (List Word)) (off : Nat) (fmt : Word)
  | drain (max hi w : Bool) (n t t2 : Nat) (d : Reg)
  | topk (max hi w : Bool) (n kk t t2 : Nat) (d : Reg)
  | cupd (t t2 : Nat) (rows : List (List Word)) (idx : List (Option (BitVec 16))) (fmt : Word)
  | cfin (ty : Ty) (n t t2 off : Nat)
  | verd (kind : VKind) (t col off : Nat) (fmt : Word) (desc : List Byte) (hdrs : List Byte)
  deriving DecidableEq, Repr

/-- What an operation does (Table 4.6). -/
inductive OpKind
  | gth (wide : Bool) (elems : List DWord) (d : Reg)
  | sct (wide : Bool) (elems : List (DWord × List Byte)) (sc : Scope)
  | copy (c : Copy)
  | acpx (c : Copy) (ep bar : Nat)
  | arr (a : ArrOp)
  | march (aff : Bool) (ray : List Word) (desc : DWord) (slot : Nat)
  | mres (slot : Nat) (m : MState) (v : Option (Word × Word))
  | mqry (ray : Bool) (slot : Nat)
  | prep (prog : DWord) (box : List Word) (out cap : Nat)
  | veval (iv : Bool) (prog : DWord) (xs : List Word)
  | bfetch (hdr : DWord) (xs : List Word)
  | zts (le : Bool) (a : DWord) (z : Word)
  | rsub (d : RDesc) (tri y x : Nat) (count : Nat)
  | leave (cls dur : Nat)
  | seq (k : SeqKind)
  | rread (ty : Ty) (ps : List Phys)
  deriving DecidableEq, Repr

/-- An operation in flight: who issued it, every thread that counts it, its core, its class, whether a sequencer
issued it, the tokens it writes with their values once known, the translations captured at issue (R397), remote reads
under way (tag, first location, bytes) and the bytes they have brought, whether its writes have been sent, and the word
that a deferred trap names. `inst` numbers the issue, whose gathers and scatters stand in lane order (R214); `ch` is its hint (R96);
`acq`: an acquire beyond the core is performed when its remote read has come (R112); `moved` the bytes that a copy has written (R383); `flags` the flags that an array operation sets as it retires (R233). -/
structure Op where
  id     : Nat
  owner  : TRef
  owners : List TRef
  core   : Nat
  cls    : Option Cls
  kind   : OpKind
  bySeq  : Option SeqKind
  result : Option (List (TRef × List Word))
  done   : Bool
  refused : Bool
  pages  : List (Nat × Leaf)
  asks   : List (Nat × Phys × Nat)
  got    : List (Phys × Byte)
  sent   : Bool
  pc     : DWord
  word   : DWord
  at_    : Nat
  inst   : Nat
  ch     : BitVec 2
  acq    : Bool
  moved  : Nat
  flags  : BitVec 5
  deriving DecidableEq, Repr

/-! ### Launches -/

/-- A tier entry (Table 2.10). -/
structure Tier where
  entry  : DWord
  budget : Nat
  deriving DecidableEq, Repr

/-- The launch descriptor's fields (Table 2.9), read once at admission. -/
structure LDesc where
  wgcount  : Nat
  wgsize   : Nat
  regs     : Nat
  split    : Nat
  brick    : Nat
  tiles    : Nat
  power    : Nat
  scratch  : Nat
  prio     : Nat
  tiers    : List Tier
  deadline : Option Nat
  pooln    : Nat
  pool     : DWord
  greport  : DWord
  args     : DWord
  rootsucc : DWord
  deriving DecidableEq, Repr

/-- A node table entry (Table 2.7). -/
structure Node where
  entry   : DWord
  batch   : Nat
  regs    : Nat
  timeout : Nat
  tiles   : Nat
  scratch : Nat
  budget  : Nat
  succ    : DWord
  deriving DecidableEq, Repr

/-- A gang (R47 to R51) and its barrier (R50): `parts` are the threads still counted, `arr` those arrived. -/
structure Gang where
  idx     : Nat
  pairadj : Bool
  report  : Bool
  members : List Nat
  e       : Nat
  phase   : Bool
  arr     : List TRef
  ends    : List (Nat × Nat × Nat)
  written : Bool
  deriving DecidableEq, Repr

/-- A pool record held by a partial batch or a ready one: record index, acceptance number, and the part it came from
(none: the general part). -/
structure Rec where
  idx  : Nat
  seq  : Nat
  part : Option Nat
  deriving DecidableEq, Repr

/-- The packer's state for a node (R56): the partial batch with the core cycle of its first record (moved on by the cycles for which
the launch has been SAVED since, R63), the batch number to come, and the batches running. -/
structure Pack where
  recs   : List Rec
  since  : Nat
  nextNo : Nat
  running : Nat
  deriving DecidableEq, Repr

/-- A parked spawn (R54): by a thread, or by a raster submission's fragment. -/
structure PSpawn where
  t    : TRef
  op   : Option Nat
  node : Nat
  len  : Nat
  data : List Byte
  deriving DecidableEq, Repr

/-- The life of a launch (Table 15.2). -/
inductive LStatus | queued | reserved | running | preempted | finished
  deriving DecidableEq, Repr

/-- An allotment (R372): cores, window in core cycles, POWER class held. -/
structure Alloc where
  cores : List Nat
  start : Nat
  stop  : Nat
  deriving DecidableEq, Repr

/-- A launch (R59 to R62, R369 to R377). `waiting` are root workgroups not yet placed; `queue` the batches launched and not
yet placed, oldest first: node, batch number, records (R381); `general` and `reserve` are the
pool's free lists (R54); `fences` are the workgroup fences so far (status, PTP time, rank) and
`fin` the status and PTP time of the finish (R447), until it is formed, at the PTP time `formedAt` (R428). -/
structure Launch where
  id      : Nat
  ctx     : Nat
  part    : Nat
  hseq    : Nat
  desc    : LDesc
  nodes   : List Node
  gangs   : List Gang
  tier    : Nat
  status  : LStatus
  accepted : Nat
  alloc   : Option Alloc
  waiting : List Nat
  queue   : List (Nat × Nat × List Rec)
  packs   : List Pack
  general : List Nat
  reserve : List (Nat × List Nat)
  parked  : List PSpawn
  nextSeq : Nat
  fences  : List (Nat × Nat × Nat)
  charged : Nat
  fin     : Option (Nat × Nat)
  formedAt : Nat := 0
  deriving DecidableEq, Repr

/-! ### Contexts -/

/-- The life of a context: active, fenced with a status, saved, or saved lifted (R363, R382, R388). -/
inductive CtxSt | live | fenced (status : Nat) | saved | lifted
  deriving DecidableEq, Repr

/-- A resident context (Table 14.1): the descriptor's fields as last read (R347), its state, a lift in progress (the
command's HSEQ, R388), dropped telemetry entries not yet stored (R441), and its telemetry write index. -/
structure Ctx where
  slot    : Nat
  part    : Nat
  asid    : Nat
  desc    : Nat
  ftz     : Bool
  te      : BitVec 5
  shadow  : Nat
  ptroot  : Nat
  tvec    : DWord
  save    : Nat
  savelen : Nat
  tring   : DWord
  tringn  : Nat
  eptab   : DWord
  nept    : Nat
  status  : CtxSt
  lift    : Option Nat
  drops   : Nat
  deriving DecidableEq, Repr

/-! ### Memory beyond the cores -/

/-- A dirty line of a compressed page in L2 (R106, R405, R406): its data, RES mark, and its place among the pins when
pinned. -/
structure L2Line where
  key  : LineKey
  part : Nat
  data : Line
  res  : Bool
  pin  : Option Nat
  deriving DecidableEq, Repr

/-- Memory behind the L1s: device memory as last written back, the bytes of device-memory lines that L2 holds dirty
(none: not dirty), the host memory behind each port, dirty L2 lines of compressed pages, poisoned lines, the
last-level TLBs and the hub's translation cache (R23, R107, R366, R395), the HOME bits of pages as last translated (R102): the page's
first location, its size 2^n and whether its home is die 1, the latest first; and the lines for which a deadline launch's fill waits (R406). -/
structure MemSt where
  dev    : Memory
  l2dev  : Store (Option Byte)
  host0  : Memory
  host1  : Memory
  l2     : List L2Line
  poison : List LineKey
  lltlb0 : List TlbEntry
  lltlb1 : List TlbEntry
  hubtlb : List TlbEntry
  homes  : List (Phys × Nat × Bool)
  fills  : List LineKey
  deriving DecidableEq, Repr

/-! ### Partitions and host ports -/

/-- A partition's entry of the table (Table 18.6). -/
structure PEntry where
  valid  : Bool
  port   : Nat
  groups : BitVec 16
  ways   : BitVec 16
  powerw : Nat
  fabric : List Nat
  mem    : BitVec 192
  deriving DecidableEq, Repr

/-- A function's BAR 0 registers (Table 17.1); SERVO is the time unit's. -/
structure Bar0 where
  sqbase  : DWord
  sqcfg   : Word
  sqtail  : Word
  sqhead  : Word
  cqbase  : DWord
  cqcfg   : Word
  cqhead  : Word
  cqtail  : Word
  fqbase  : DWord
  fqcfg   : Word
  fqhead  : Word
  fqtail  : Word
  acchseq : Word
  openhseq : Word
  lastdseq : Word
  stopped : Bool
  deriving DecidableEq, Repr

/-- A completion entry before it is written (Table 17.3). -/
structure Compl where
  hseq   : Word
  status : Nat
  detail : Nat
  kind   : Nat
  ctx    : Nat
  tier   : Nat
  value  : DWord
  time   : Nat
  deriving DecidableEq, Repr

/-- An accepted command (R412) that has not been performed, or that still owes its finish. -/
structure Cmd where
  hseq : Nat
  cmd  : Nat
  ctx  : Nat
  args : List Byte
  form : Bool
  answered : Bool
  owes : Bool
  at_  : Nat
  deriving DecidableEq, Repr

/-- A fault record (Table 16.3) that is unanswered, with the lanes, the operations and the connections (context, endpoint) that
wait for its answer. -/
structure FaultRec where
  seq    : Nat
  va     : Nat
  asid   : Nat
  access : Nat
  cause  : Nat
  core   : Nat
  ctx    : Nat
  lanes  : List TRef
  ops    : List Nat
  conns  : List (Nat × Nat)
  written : Bool
  deriving DecidableEq, Repr

/-- An error log entry (Table 18.8). -/
structure LogEntry where
  time  : Nat
  kind  : Nat
  asid  : Nat
  core  : Nat
  unit  : Nat
  addr  : Nat
  index : Nat
  deriving DecidableEq, Repr

/-- A partition (R367, R401, R410 to R418, R439): its table entry, BAR 0, expected HSEQ, entry counters, commands,
completions formed and not yet written (R413), faults, compression block address, whether software has stored
into what the part keeps for compressed pages (R407), error log, corrected-error counts by
unit, AtomicOps negotiated (R409), recent deadline acceptances (R371). -/
structure Part where
  id      : Nat
  entry   : PEntry
  bar     : Bar0
  expect  : Word
  dseq    : Word
  cmds    : List Cmd
  outbox  : List Compl
  faults  : List FaultRec
  faultSeq : Nat
  comp    : Option Nat
  torn    : Option Nat
  nextPin : Nat
  log     : List LogEntry
  logNext : Nat
  corr    : Store Nat
  atomics : Bool
  recent  : List Nat
  deriving DecidableEq, Repr

/-! ### Fabric, frames, governor -/

/-- A packet sent and not acknowledged (R419), with the operation it belongs to, or the thread and word of a plain store
(R422). -/
structure Sent where
  seq  : BitVec 24
  body : PktBody
  op   : Option Nat
  by_  : Option (TRef × DWord × DWord)
  at_  : Nat
  deriving DecidableEq, Repr

/-- A connection of an ordered pair of endpoints (R419): sequence numbers, unacknowledged packets, resends in a row,
whether it failed, and whether the fault of the packet expected next was answered refused. -/
structure Conn where
  ctx     : Nat
  ep      : Nat
  peer    : Nat
  rpart   : Nat
  rasid   : Nat
  next    : BitVec 24
  unacked : List Sent
  expect  : BitVec 24
  resends : Nat
  failed  : Bool
  refused : Bool
  deriving DecidableEq, Repr

/-- An RTP packet of a frame (R427): its extended sequence number, the marker bit, and its rows: line, first pixel, octets. -/
structure Rtp where
  seq    : Word
  marker : Bool
  rows   : List (Nat × Nat × List Byte)
  deriving DecidableEq, Repr

/-- What has left an Ethernet port: a fabric packet, or a frame with its packets (R419, R427). -/
inductive TxItem
  | pkt (peer : Nat) (rpart rasid : Nat) (seq : BitVec 24) (body : PktBody)
  | ack (peer : Nat) (rpart rasid : Nat) (upto : BitVec 24)
  | frame (port : Nat) (at_ : Nat) (rtp : Word) (desc : List Byte) (data : List Byte) (pkts : List Rtp)
  deriving DecidableEq, Repr

/-- A frame release (R426, R428): `formed` whether the finish it waits for is formed, `formedAt` the PTP time at which; `got` what has
been read of the frame. -/
structure Release where
  id    : Nat
  part  : Nat
  hseq  : Nat
  ctx   : Nat
  desc  : List Byte
  after : Nat
  formed : Bool
  formedAt : Nat
  got   : List Byte
  deriving DecidableEq, Repr

/-- A stream's last frame (R428): port, SSRC, data, the PTP time its last packet leaves, its descriptor, and the sequence number of the
packet to come. -/
structure Stream where
  port : Nat
  ssrc : Word
  data : List Byte
  last : Nat
  desc : List Byte
  seq  : Word
  deriving DecidableEq, Repr

/-- The fabric ports, connections and the release unit. -/
structure Fabric where
  up      : List Bool
  conns   : List Conn
  tx      : List TxItem
  rels    : List Release
  streams : List Stream
  nextTag : Nat
  deriving DecidableEq, Repr

/-- A request waiting at the leave governor (R260, R387). -/
structure LeaveReq where
  id   : Nat
  wg   : Nat
  team : Nat
  cls  : Nat
  dur  : Nat
  op   : Option Nat
  deriving DecidableEq, Repr

/-- The leave governor: waiting requests, and whether best-effort grants are barred (R437). -/
structure Gov where
  reqs : List LeaveReq
  hot  : Bool
  deriving DecidableEq, Repr

/-! ### The machine -/

/-- Everything but clock and security core. `devErr` says of each host port whether a device error has been reported on it (R362). `now` and `ptp` are the clocks as the step under way reads them
(`State.onGpu` latches them). `free` counts the free values drawn; `nextId` numbers operations, bundles,
grants, launches and workgroups: both are the model's own. -/
structure Gpu where
  cur     : Issue
  threads : List (TRef × Thread)
  wgs     : List Wg
  launches : List Launch
  ctxs    : List Ctx
  ops     : List Op
  rays    : List Ray
  cores   : List (Nat × CoreSt)
  mem     : MemSt
  parts   : List Part
  fabric  : Fabric
  gov     : Gov
  devErr  : List Bool
  now     : Nat
  ptp     : Nat
  free    : Nat
  nextId  : Nat
  deriving DecidableEq, Repr

/-- The clocks (R6, R424, R425): core cycles; PTP time in ns and its fraction in 1/8,000 ns; SERVO; the correction
still to be applied, in 1/8,000 ns; `hold` while a larger negative offset lets the clock run at half rate. -/
structure Clock where
  cyc   : Nat
  ptp   : Nat
  frac  : Nat
  servo : Nat
  corr  : Int
  hold  : Bool
  deriving DecidableEq, Repr

/-- A flash image slot and what has been staged into it (R431, R433). -/
structure Slot where
  bytes : List Byte
  deriving DecidableEq, Repr

/-- A mailbox response (R433): the function it answers, the status, and the object's bytes. -/
structure Reply where
  part   : Nat
  status : Nat
  bytes  : List Byte
  deriving DecidableEq, Repr

/-- The security core, fuses, flash, firmware and sensors (R429 to R438): package serial, fused secret, the two vendor
key hashes and revoke bits, burned MINSVN, the owner key hash, flash slots and stored table, the booted slot and its
SVN and measurement, recovery mode, the active table's bytes, die temperatures, thermal state, mailbox responses. -/
structure Sec where
  serial  : DWord
  secret  : List Byte
  vendor  : List (List Byte)
  revoked : List Bool
  minsvn  : Nat
  okh     : Option (List Byte)
  slot0   : Slot
  slot1   : Slot
  table   : Option (List Byte × List Byte)
  booted  : Nat
  svn     : Nat
  fwmeas  : List Byte
  recov   : Bool
  active  : Option (List Byte)
  temps   : List Nat
  held    : Bool
  tripped : Bool
  toReset : Bool
  replies : List Reply
  deriving DecidableEq, Repr

/-- One entry of the agenda: which agent moves next (log 1). `event` performs a row of the opcode table; `tick` lets core
cycles pass; `issue` lets a core issue its next word; `copyStep` lets a copy write its next bytes (R383); `landPart` lets one register of a pending result come early (R147); `frameStep` lets the release unit read the next word of a frame (R428); `sensor` gives a die's temperature below THOT (R438); `otherRequest` is a mailbox request of an unknown type (R433); the others are moves no
program sees, or the outside world's. TLBs are numbered: a core's by its core, 192 and 193 the dies' last-level TLBs, 194 the hub's. -/
inductive Move
  | event (i : Instr)
  | tick (n : Nat)
  | issue (core : Nat)
  | l1Drop (core line : Nat)
  | tlbDrop (tlb entry : Nat)
  | icDrop (core entry : Nat)
  | copyStep (op : Nat)
  | landPart (t : TRef) (id i : Nat)
  | l2Evict (line : Nat)
  | hostStore (port addr : Nat) (bytes : List Byte)
  | hostAtomics (part : Nat) (on : Bool)
  | connect (ctx ep : Nat)
  | frameStep (rel : Nat)
  | sensor (die temp : Nat)
  | otherRequest (part type : Nat)
  deriving DecidableEq, Repr

/-- The state. -/
structure State where
  gpu    : Gpu
  clk    : Clock
  sec    : Sec
  agenda : List Move
  deriving DecidableEq, Repr

/-- Why a step could stop the machine. The manual gives every failure an effect (a trap, a fence, a refusal status), so
no meaning and no step raises the one reason below; it stands for a step that finds no next state. Safe. -/
inductive Fault
  /-- No next state: raised by nothing. Safe. -/
  | noNextState
  deriving DecidableEq, Repr

/-- Why a meaning could be refused. -/
inductive Refusal
  /-- An instruction without a meaning yet, by its mnemonic: raised by an arm of `exec` only. Safe. -/
  | notModelled (mnemonic : String)
  deriving DecidableEq, Repr

/-! ### Reset -/

/-- BAR 0 at reset (Table 17.1). -/
def Bar0.reset : Bar0 where
  sqbase := 0
  sqcfg := 0
  sqtail := 0
  sqhead := 0
  cqbase := 0
  cqcfg := 0
  cqhead := 0
  cqtail := 0
  fqbase := 0
  fqcfg := 0
  fqhead := 0
  fqtail := 0
  acchseq := 0xFFFFFFFF
  openhseq := 0
  lastdseq := 0xFFFFFFFF
  stopped := false

/-- The one partition that holds every resource when no table is stored (R436). -/
def PEntry.all : PEntry where
  valid := true
  port := 0
  groups := 0x0FFF
  ways := 0xFFFF
  powerw := 1230
  fabric := [64, 64, 64, 64, 64, 64]
  mem := BitVec.allOnes 192

/-- A partition at reset, with its table entry. -/
def Part.fresh (id : Nat) (e : PEntry) : Part where
  id := id
  entry := e
  bar := .reset
  expect := 0
  dseq := 0
  cmds := []
  outbox := []
  faults := []
  faultSeq := 0
  comp := none
  torn := none
  nextPin := 0
  log := []
  logNext := 0
  corr := []
  atomics := false
  recent := []

/-- A core that holds no workgroup: empty caches, no bundle, split and brick-mode size 0 (log 5). -/
def CoreSt.empty : CoreSt where
  split := 0
  brick := 0
  fifo := []
  l1 := []
  icache := []
  bricks := []
  tlb := []
  active := []
  pending := []
  arrq := []
  seqA := none
  seqC := none
  fwd := []
  shadow := []

/-- The latch of the issuing word when no core issues. -/
def Issue.none : Issue := { core := 0, members := [], pc := 0, word := 0, lit := 0, len := 8, no := 0 }

/-- Cores, memory and ports after stage 4 of a boot (R430) with the given partitions, at the given times. -/
def Gpu.boot (parts : List Part) (now ptp : Nat) : Gpu where
  cur := .none
  threads := []
  wgs := []
  launches := []
  ctxs := []
  ops := []
  rays := []
  cores := []
  mem := { dev := [], l2dev := [], host0 := [], host1 := [], l2 := [], poison := [], lltlb0 := [], lltlb1 := [], hubtlb := [], homes := [], fills := [] }
  parts := parts
  fabric := { up := List.replicate 6 true, conns := [], tx := [], rels := [], streams := [], nextTag := 0 }
  gov := { reqs := [], hot := false }
  devErr := [false, false]
  now := now
  ptp := ptp
  free := 0
  nextId := 0

/-- The clocks after a boot: SERVO 0 (R430); the times are log 4's. -/
def Clock.reset : Clock := { cyc := 0, ptp := 0, frac := 0, servo := 0, corr := 0, hold := false }

/-- The security core after a boot of a package on which nothing has been burned or stored (log 4). -/
def Sec.reset : Sec where
  serial := 0
  secret := List.replicate 32 0
  vendor := [List.replicate 32 0, List.replicate 32 0]
  revoked := [false, false]
  minsvn := 0
  okh := none
  slot0 := { bytes := [] }
  slot1 := { bytes := [] }
  table := none
  booted := 0
  svn := 0
  fwmeas := List.replicate 32 0
  recov := false
  active := none
  temps := [0, 0, 0]
  held := false
  tripped := false
  toReset := false
  replies := []

/-- The device right after a power-on reset, when stage 4 of Table 18.2 is complete, with no partition table stored:
one partition holds every resource (R436), no context, launch or command exists (R430), memory is zero (R430). -/
def State.reset : State where
  gpu := .boot [.fresh 0 .all] 0 0
  clk := .reset
  sec := .reset
  agenda := []

end Sys2Proof.Machine
end

