-- ==== Sys2Proof/Machine/Ops.lean ====
section
/-! DEFINITION. Named operations over stores, bytes, registers, threads, workgroups and cores, and the entry into a
trap and the return from one. -/

namespace Sys2Proof

/-- The lane of a thread (R26). -/
def TRef.lane (t : TRef) : Nat := t.tid % 32

/-- The team of a thread within its workgroup (R26). -/
def TRef.team (t : TRef) : Nat := t.tid / 32

/-- A scope that reaches beyond the core. -/
def Scope.beyondCore : Scope → Bool
  | .thr | .core => false
  | _ => true

/-- Whether an ordering acquires, and whether it releases (R112). -/
def Ord4.acquires : Ord4 → Bool
  | .acq | .ar => true
  | _ => false
/-- Whether an ordering releases (R112). -/
def Ord4.releases : Ord4 → Bool
  | .rel | .ar => true
  | _ => false

end Sys2Proof

namespace Sys2Proof.Machine

/-! ### Stores in canonical form -/

/-- What a key reads as; `d` where it is not listed. -/
def Store.get {β : Type} (d : β) : Store β → Nat → β
  | [], _ => d
  | (k', v) :: m, k => if k = k' then v else if k < k' then d else Store.get d m k

/-- A write that keeps the canonical form: writing `d` removes the entry. -/
def Store.set {β : Type} [DecidableEq β] (d : β) : Store β → Nat → β → Store β
  | [], k, v => if v = d then [] else [(k, v)]
  | (k', v') :: m, k, v =>
    if k < k' then (if v = d then (k', v') :: m else (k, v) :: (k', v') :: m)
    else if k = k' then (if v = d then m else (k, v) :: m)
    else (k', v') :: Store.set d m k v

/-- The canonical form: every key above `lo`, keys strictly rising, no entry equal to `d`. -/
def Store.wfFrom {β : Type} [DecidableEq β] (d : β) : Nat → Store β → Bool
  | _, [] => true
  | lo, (k, v) :: m => decide (lo ≤ k) && decide (v ≠ d) && Store.wfFrom d (k + 1) m

/-- The canonical form of a store. -/
def Store.wf {β : Type} [DecidableEq β] (d : β) (m : Store β) : Bool := Store.wfFrom d 0 m

/-- The canonical form of a memory: what an unlisted byte reads as is 0 (R430, log 6). -/
def Memory.wf (m : Memory) : Bool := Store.wf (0 : Byte) m

/-- One byte of a memory. -/
def Memory.byte (m : Memory) (a : Nat) : Byte := Store.get 0 m a

/-- One byte written. -/
def Memory.setByte (m : Memory) (a : Nat) (b : Byte) : Memory := Store.set 0 m a b

/-- `n` bytes from an address. -/
def Memory.bytes (m : Memory) (a n : Nat) : List Byte := (List.range n).map fun i => Memory.byte m (a + i)

/-- Bytes written from an address upward. -/
def Memory.setBytes (m : Memory) (a : Nat) : List Byte → Memory
  | [] => m
  | b :: bs => Memory.setBytes (Memory.setByte m a b) (a + 1) bs

/-! ### Little-endian values (R7) -/

/-- The number that bytes hold, lowest first. -/
def natOfBytes : List Byte → Nat
  | [] => 0
  | b :: bs => b.toNat + 256 * natOfBytes bs

/-- The low `n` bytes of a number, lowest first. -/
def bytesOfNat : Nat → Nat → List Byte
  | 0, _ => []
  | n + 1, v => BitVec.ofNat 8 v :: bytesOfNat n (v / 256)

/-- A field of a structure: the number in `n` bytes at offset `o`. -/
def field (bs : List Byte) (o n : Nat) : Nat := natOfBytes ((bs.drop o).take n)

/-- Whether `n` bytes at offset `o` are all zero. -/
def zeroAt (bs : List Byte) (o n : Nat) : Bool := ((bs.drop o).take n).all (· == 0)

/-- The 4-byte words that bytes hold. -/
def wordsOfBytes (bs : List Byte) : Nat → List Word
  | 0 => []
  | n + 1 => BitVec.ofNat 32 (field bs 0 4) :: wordsOfBytes (bs.drop 4) n

/-- The bytes of words, in order. -/
def bytesOfWords (ws : List Word) : List Byte := ws.flatMap fun w => bytesOfNat 4 w.toNat

/-- Replaces the elements from position `i` on. -/
def listPut {α : Type} (l : List α) (i : Nat) (xs : List α) : List α := l.take i ++ xs ++ l.drop (i + xs.length)

/-! ### Registers and predicates -/

/-- A 32-bit register (R16, R27). -/
def Thread.reg (th : Thread) (r : Reg) : Word := Store.get 0 th.regs r.toNat

/-- A 32-bit register written. -/
def Thread.setReg (th : Thread) (r : Reg) (v : Word) : Thread := { th with regs := Store.set 0 th.regs r.toNat v }

/-- A pair: low word in the even register (R65). -/
def Thread.pair (th : Thread) (r : Reg) : DWord := th.reg (r + 1) ++ th.reg r

/-- A pair written. -/
def Thread.setPair (th : Thread) (r : Reg) (v : DWord) : Thread :=
  (th.setReg r (v.setWidth 32)).setReg (r + 1) ((v >>> 32).setWidth 32)

/-- `n` registers from `r` upward. -/
def Thread.regsFrom (th : Thread) (r : Reg) (n : Nat) : List Word := (List.range n).map fun i => th.reg (r + BitVec.ofNat 8 i)

/-- Words written to registers from `r` upward. -/
def Thread.setRegs (th : Thread) (r : Reg) : List Word → Thread
  | [] => th
  | v :: vs => (th.setReg r v).setRegs (r + 1) vs

/-- Words written to the registers listed. -/
def Thread.putRegs (th : Thread) : List Reg → List Word → Thread
  | r :: rs, v :: vs => (th.setReg r v).putRegs rs vs
  | _, _ => th

/-- A predicate; p7 reads true (R137). -/
def Thread.pred (th : Thread) (p : PredNo) : Bool := p = 7 || th.preds.getLsbD p.toNat

/-- A predicate written; a write to p7 is discarded (R137). -/
def Thread.setPred (th : Thread) (p : PredNo) (b : Bool) : Thread :=
  if p = 7 then th
  else { th with preds := (th.preds &&& ~~~((1 : BitVec 7) <<< p.toNat)) ||| ((BitVec.ofBool b).setWidth 7 <<< p.toNat) }

/-- A guard holds when its predicate, exclusive-or its negate bit, is true (R135). -/
def Thread.guard (th : Thread) (g : Guard) : Bool := th.pred g.p != g.n

/-- Both guards hold (R135). -/
def Thread.guards (th : Thread) (p : Pfx) : Bool := th.guard p.ga && th.guard p.gb

/-- Sticky flags set (R75). -/
def Thread.raise (th : Thread) (f : BitVec 5) : Thread := { th with flags := th.flags ||| f }

/-- How many operations of a class the thread has outstanding (R125). -/
def Thread.count (th : Thread) (c : Cls) : Nat := (th.outst.filter fun o => o.cls == c).length

/-- Whether any result is outstanding, tokens included (R28, R128, R147). -/
def Thread.hasPend (th : Thread) : Bool := !th.pend.isEmpty

/-- The thread is free of results, tokens and counted operations (R318, R360). -/
def Thread.quiet (th : Thread) : Bool := th.pend.isEmpty && th.outst.isEmpty

/-- A register that is a pending token (R128). -/
def Thread.tokenPending (th : Thread) (r : Reg) : Bool := th.pend.any fun q => q.token && q.regs.contains r

/-- The first of the registers that is a pending token. -/
def Thread.pendingAmong (th : Thread) (rs : List Reg) : Option Reg := rs.find? th.tokenPending

/-- A result made pending (R147). -/
def Thread.addPend (th : Thread) (q : Pending) : Thread := { th with pend := th.pend ++ [q] }

/-- An operation counted (R125). -/
def Thread.addOutst (th : Thread) (c : Cls) (id : Nat) : Thread :=
  { th with outst := th.outst ++ [{ cls := c, id := id, done := false }] }

/-- Operations of a class at the head of the issue order that are done retire (R125). -/
def retireDone (c : Cls) : List Outst → List Outst
  | [] => []
  | o :: os => if o.cls == c then (if o.done then retireDone c os else o :: os) else o :: retireDone c os

/-- An operation of the thread is done; what may retire in issue order retires (R125). -/
def Thread.finishOp (th : Thread) (c : Cls) (id : Nat) : Thread :=
  { th with outst := retireDone c (th.outst.map fun o => if o.id = id then { o with done := true } else o) }

/-- A deferred trap recorded (R352). -/
def Thread.defer (th : Thread) (d : Deferred) : Thread := { th with deferred := th.deferred ++ [d] }

/-! ### Looking things up -/

/-- A thread. -/
def Gpu.thread? (g : Gpu) (t : TRef) : Option Thread := (g.threads.find? fun x => x.1 == t).map (·.2)

/-- Every thread mapped. -/
def Gpu.mapThreads (g : Gpu) (f : TRef → Thread → Thread) : Gpu :=
  { g with threads := g.threads.map fun x => (x.1, f x.1 x.2) }

/-- One thread changed. -/
def Gpu.modThread (g : Gpu) (t : TRef) (f : Thread → Thread) : Gpu := g.mapThreads fun u x => if u = t then f x else x

/-- One thread replaced. -/
def Gpu.setThread (g : Gpu) (t : TRef) (th : Thread) : Gpu := g.modThread t fun _ => th

/-- A workgroup. -/
def Gpu.wg? (g : Gpu) (id : Nat) : Option Wg := g.wgs.find? fun w => w.id == id

/-- One workgroup changed. -/
def Gpu.modWg (g : Gpu) (id : Nat) (f : Wg → Wg) : Gpu :=
  { g with wgs := g.wgs.map fun w => if w.id = id then f w else w }

/-- A launch. -/
def Gpu.launch? (g : Gpu) (id : Nat) : Option Launch := g.launches.find? fun l => l.id == id

/-- One launch changed. -/
def Gpu.modLaunch (g : Gpu) (id : Nat) (f : Launch → Launch) : Gpu :=
  { g with launches := g.launches.map fun l => if l.id = id then f l else l }

/-- A context by slot. -/
def Gpu.ctx? (g : Gpu) (slot : Nat) : Option Ctx := g.ctxs.find? fun c => c.slot == slot

/-- One context changed. -/
def Gpu.modCtx (g : Gpu) (slot : Nat) (f : Ctx → Ctx) : Gpu :=
  { g with ctxs := g.ctxs.map fun c => if c.slot = slot then f c else c }

/-- A partition. -/
def Gpu.part? (g : Gpu) (id : Nat) : Option Part := g.parts.find? fun p => p.id == id

/-- One partition changed. -/
def Gpu.modPart (g : Gpu) (id : Nat) (f : Part → Part) : Gpu :=
  { g with parts := g.parts.map fun p => if p.id = id then f p else p }

/-- An operation in flight. -/
def Gpu.op? (g : Gpu) (id : Nat) : Option Op := g.ops.find? fun o => o.id == id

/-- One operation changed. -/
def Gpu.modOp (g : Gpu) (id : Nat) (f : Op → Op) : Gpu :=
  { g with ops := g.ops.map fun o => if o.id = id then f o else o }

/-- An operation removed. -/
def Gpu.dropOp (g : Gpu) (id : Nat) : Gpu := { g with ops := g.ops.filter fun o => o.id != id }

/-- A core; one never touched is empty. -/
def Gpu.core (g : Gpu) (n : Nat) : CoreSt := ((g.cores.find? fun x => x.1 == n).map (·.2)).getD .empty

/-- One core changed. -/
def Gpu.modCore (g : Gpu) (n : Nat) (f : CoreSt → CoreSt) : Gpu :=
  if g.cores.any fun x => x.1 == n then
    { g with cores := g.cores.map fun x => if x.1 = n then (n, f x.2) else x }
  else { g with cores := g.cores ++ [(n, f .empty)] }

/-- Every core that has been touched, changed. -/
def Gpu.mapCores (g : Gpu) (f : Nat → CoreSt → CoreSt) : Gpu :=
  { g with cores := g.cores.map fun x => (x.1, f x.1 x.2) }

/-- A number never used before (operations, bundles, grants, launches, workgroups). -/
def Gpu.fresh (g : Gpu) : Gpu := { g with nextId := g.nextId + 1 }

/-- A free value drawn: the value, and the device with its counter advanced. -/
def Gpu.drawWord (g : Gpu) : Gpu × Word := ({ g with free := g.free + 1 }, Config.freeWord g.free)

/-- One of `n` things that the manual leaves open: the first where there is no choice, else a free value. -/
def Gpu.choose (g : Gpu) (n : Nat) : Gpu × Nat :=
  if n ≤ 1 then (g, 0) else (g.drawWord.1, g.drawWord.2.toNat % n)

/-- Bytes whose contents the manual does not specify. -/
def Gpu.drawBytes (g : Gpu) (n : Nat) : Gpu × List Byte :=
  ({ g with free := g.free + n }, (List.range n).map fun i => (Config.freeWord (g.free + i)).setWidth 8)

/-- The core a workgroup is on, if it is resident. -/
def Wg.core? (w : Wg) : Option Nat := match w.place with | .core c => some c | _ => none

/-- The core on which a thread runs; 192, which is no core, when it is not resident. -/
def Gpu.coreOf (g : Gpu) (t : TRef) : Nat := ((g.wg? t.wg).bind Wg.core?).getD 192

/-- A core's pair, die and leader (R13). -/
def pairOf (core : Nat) : Nat := core / 2
/-- The compute die of a core (R13). -/
def dieOf (core : Nat) : Nat := core / 96
/-- The even core of a pair is its leader (R13). -/
def isLeader (core : Nat) : Bool := core % 2 == 0

/-- Whether a core lies within a scope of another (Table 4.5). -/
def inScope (sc : Scope) (a b : Nat) : Bool :=
  match sc with
  | .thr => false
  | .core => a == b
  | .pair => pairOf a == pairOf b
  | .die => dieOf a == dieOf b
  | .dev | .sys => true

/-- Ascending lane order, then workgroup, then thread (R9). -/
def laneBefore (a b : TRef) : Bool := a.lane < b.lane || (a.lane == b.lane && (a.wg < b.wg || (a.wg == b.wg && a.tid ≤ b.tid)))

/-- A thread put in its place among threads in ascending lane order. -/
def insertLane (t : TRef) : List TRef → List TRef
  | [] => [t]
  | u :: us => if laneBefore t u then t :: u :: us else u :: insertLane t us

/-- Members of a set of threads in ascending lane order, then workgroup, then thread (R9). -/
def sortLanes (l : List TRef) : List TRef := l.foldr insertLane []

/-- The mask of the lanes of threads. -/
def lanesMask (l : List TRef) : Word := l.foldl (fun m t => m ||| ((1 : Word) <<< t.lane)) 0

/-- The live set of a team (R39): its threads that have started and are not counted exited. -/
def Gpu.liveSet (g : Gpu) (wg team : Nat) : List TRef :=
  (g.threads.filter fun x => x.1.wg == wg && x.1.team == team && x.2.status != .exited && x.2.status != .stopped).map (·.1)

/-- Threads of a workgroup that are not counted exited and not fenced. -/
def Gpu.liveOf (g : Gpu) (wg : Nat) : List TRef :=
  (g.threads.filter fun x => x.1.wg == wg && x.2.status != .exited && x.2.status != .stopped).map (·.1)

/-- Threads woken: their condition has cleared, and they become READY at the next formation point (Table 2.2). -/
def Gpu.wake (g : Gpu) (ts : List TRef) : Gpu :=
  g.mapThreads fun u x => if ts.contains u then { x with status := .parked .clear } else x

/-- The threads parked on one condition. -/
def Gpu.waiters (g : Gpu) (f : TRef → Wait → Bool) : List TRef :=
  (g.threads.filter fun x => match x.2.status with | .parked w => f x.1 w | _ => false).map (·.1)

/-- A team of a workgroup changed. -/
def Wg.modTeam (w : Wg) (j : Nat) (f : Team → Team) : Wg := { w with teams := w.teams.modify j f }

/-- A team at workgroup start (R27, R252, R268). -/
def Team.start : Team where
  masks := List.replicate 8 { mask := 0, arrived := 0 }
  latch := none
  verdict := { vt := 0x7F800000, k := 1, max := false, list := [] }
  grant := none
  fork := none

/-- A workgroup barrier at workgroup start (R42): every thread is a participant. -/
def Bar.start (n : Nat) : Bar where
  e := n
  a := 0
  phase := false
  arr := 0
  parts := BitVec.ofNat 1024 (2 ^ n - 1)
  last := []

/-- One millisecond in core cycles (R6). -/
def msCycles : Nat := 4000000

/-- A resume point with bits 2..0 zero (R133, Table 14.3). -/
def alignPc (v : DWord) : DWord := v &&& ~~~7

/-- A thread at workgroup start (R27). -/
def Thread.start (entry recAddr : DWord) : Thread where
  regs := []
  preds := 0
  flags := 0
  prb := false
  pmode := false
  mode := .user
  pc := entry
  status := .ready
  pend := []
  outst := []
  resv := none
  deferred := []
  due := []
  trap := { cause := 0, tpc := 0, tsrc := 0, tword := 0, taddr := 0, tmask := 0, spmode := false, ts0 := 0, ts1 := 0, ts2 := 0, ts3 := 0 }
  owes := false
  rdfl := none
  sysrel := false
  recAddr := recAddr
  lifted := []

/-! ### Trap kinds (Table 14.4) and trap entry (R351) -/

/-- The kinds of trap of Table 14.4. -/
inductive TrapKind
  | illegal | privileged | regRange | teamIncomplete | verdict | fpe | address | alignment | scratchRange
  | translation | hostAtomic | poison | stateRecord | copyShape | copyTarget | fabricLoss
  | barCount | barBusy | barRearrival | barOverflow | barPoison | gangMember | rejoinBusy
  | divergent | spawnTarget | pairRole | accRange | fmtDivergence | arrayFormat | leaveClass | engineForm | engineBusy
  | engineFault | marchBusy | marchSlot | rasterForm | software | breakpoint | syscall
  deriving DecidableEq, Repr

/-- KIND codes (Table 14.4). -/
def TrapKind.code : TrapKind → BitVec 8
  | .illegal => 0x01 | .privileged => 0x02 | .regRange => 0x03 | .teamIncomplete => 0x04 | .verdict => 0x05
  | .fpe => 0x06 | .address => 0x07 | .alignment => 0x08 | .scratchRange => 0x09 | .translation => 0x0A
  | .hostAtomic => 0x0B | .poison => 0x0C | .stateRecord => 0x0D | .copyShape => 0x10 | .copyTarget => 0x11
  | .fabricLoss => 0x12 | .barCount => 0x18 | .barBusy => 0x19 | .barRearrival => 0x1A | .barOverflow => 0x1B
  | .barPoison => 0x1C | .gangMember => 0x1D | .rejoinBusy => 0x1E | .divergent => 0x20 | .spawnTarget => 0x21
  | .pairRole => 0x28 | .accRange => 0x29 | .fmtDivergence => 0x2A | .arrayFormat => 0x2B | .leaveClass => 0x2C
  | .engineForm => 0x2D | .engineBusy => 0x2E | .engineFault => 0x2F | .marchBusy => 0x30 | .marchSlot => 0x31
  | .rasterForm => 0x32 | .software => 0x38 | .breakpoint => 0x39 | .syscall => 0x3A

/-- Kinds whose resume point is the word after the trapping one (Table 14.4). -/
def TrapKind.resumesNext : TrapKind → Bool
  | .software | .breakpoint | .syscall => true
  | _ => false

/-- A trap as an instruction raises it: kind, INFO, faulting address, and the half of a dual word (false: H1). -/
structure Trap where
  kind : TrapKind
  info : BitVec 16
  addr : DWord
  half : Bool
  deriving DecidableEq, Repr

/-- A trap of a kind without detail. -/
def Trap.of (k : TrapKind) : Trap := ⟨k, 0, 0, false⟩

/-- A trap with a faulting address. -/
def Trap.at (k : TrapKind) (a : DWord) : Trap := ⟨k, 0, a, false⟩

/-- sr.tcause (Table 14.3). -/
def causeWord (info : BitVec 16) (half deferred : Bool) (code : BitVec 8) : Word :=
  info ++ (0 : BitVec 6) ++ BitVec.ofBool half ++ BitVec.ofBool deferred ++ code

/-- What TrapEntry does to a thread in user mode (R351): the saved registers written, probe mode off, the reservation
lost, the mode trap and the PC at TVEC. The thread goes on as ACTIVE in a bundle of its own (Table 2.3). -/
def Thread.enterTrap (th : Thread) (tvec cause : DWord) (tpc tsrc tword taddr : DWord) (mask : Word) : Thread :=
  { th with
    trap := { th.trap with cause := cause.setWidth 32, tpc := tpc, tsrc := tsrc, tword := tword, taddr := taddr,
                           tmask := mask, spmode := th.pmode }
    pmode := false
    resv := none
    owes := false
    rdfl := none
    mode := .trap
    status := .active
    pc := tvec }

/-- TrapEntry for a precise trap of the word at `pc` of length `len` (R350, R351). -/
def Thread.takeTrap (th : Thread) (tvec : DWord) (k : Trap) (pc word : DWord) (len : Nat) (mask : Word) : Thread :=
  th.enterTrap tvec ((causeWord k.info k.half false k.kind.code).setWidth 64)
    (if k.kind.resumesNext then pc + BitVec.ofNat 64 len else pc) pc word k.addr mask

/-- TrapEntry for a deferred trap; it resumes after the park, at the thread's PC (R350, R352). -/
def Thread.takeDeferred (th : Thread) (tvec : DWord) (d : Deferred) (lane : Nat) : Thread :=
  th.enterTrap tvec ((causeWord d.info false true d.kind).setWidth 64) th.pc d.pc d.word d.addr ((1 : Word) <<< lane)

/-- Delivery of deferred traps at a park (R352): those pending become due, and the first is taken. -/
def Thread.deliver (th : Thread) (tvec : DWord) (lane : Nat) : Thread :=
  match th.due ++ th.deferred with
  | [] => th
  | d :: ds => { th with deferred := [], due := ds }.takeDeferred tvec d lane

/-- Return from a trap (R358): probe mode restored, user mode, PC := sr.tpc; and the next due deferred trap is
delivered before the word at sr.tpc issues (R352). -/
def Thread.returnTrap (th : Thread) (tvec : DWord) (lane : Nat) : Thread :=
  let r := { th with pmode := th.trap.spmode, mode := .user, pc := th.trap.tpc }
  match th.due with
  | [] => r
  | d :: ds => { r with due := ds }.takeDeferred tvec d lane

end Sys2Proof.Machine
end

