-- ==== Sys2Proof/Machine/Operands.lean ====
section
/-! DEFINITION. Operand forms: registers, pairs, literals, displacements (05 R137 to R139; 07 R199), and what a word knows
of the thread that issues it. -/

namespace Sys2Proof

/-- The registers that FB names as a run of n (none for a literal). -/
def SrcB.run (n : Nat) : SrcB → List Reg
  | .reg r => (List.range n).map fun i => r + BitVec.ofNat 8 i
  | .lit _ => []

/-- A run of n registers from r. -/
def Reg.run (r : Reg) (n : Nat) : List Reg := (List.range n).map fun i => r + BitVec.ofNat 8 i

/-- One register, or a pair when wide. -/
def Reg.span (r : Reg) (wide : Bool) : List Reg := r.run (if wide then 2 else 1)

/-- FB as one register, or a pair when wide. -/
def SrcB.span (b : SrcB) (wide : Bool) : List Reg := b.run (if wide then 2 else 1)

/-- The displacement (R199): 8 signed bits, or the literal's low 32 bits, signed. -/
def Disp.value : Disp → DWord
  | .short d => d.signExtend 64
  | .lit w => (w.setWidth 32).signExtend 64

end Sys2Proof

namespace Sys2Proof.Machine

open Sys2Proof

/-- A 32-bit FB operand: the register, or the literal's bits 31..0 (R139). DESIGN CHOICE (log 107): of a packed 16-, 8- or 4-bit entry too,
a literal gives all the elements of the register that it stands for, and not one of them. -/
def Thread.srcW (th : Thread) : SrcB → Word
  | .reg r => th.reg r
  | .lit w => w.setWidth 32

/-- A pair FB operand: the pair, or all 64 literal bits (R139). -/
def Thread.srcD (th : Thread) : SrcB → DWord
  | .reg r => th.pair r
  | .lit w => w

/-- A b32 or b64 register operand, in 64 bits. -/
def Thread.wideReg (th : Thread) (wide : Bool) (r : Reg) : DWord := if wide then th.pair r else (th.reg r).setWidth 64

/-- A b32 or b64 FB operand, in 64 bits. -/
def Thread.wideSrc (th : Thread) (wide : Bool) (b : SrcB) : DWord := if wide then th.srcD b else (th.srcW b).setWidth 64

/-- A b32 or b64 destination written. -/
def Thread.setWide (th : Thread) (wide : Bool) (r : Reg) (v : DWord) : Thread :=
  if wide then th.setPair r v else th.setReg r (v.setWidth 32)

/-- The address of a memory operand: (base + disp) mod 2^64 (R199). -/
def Thread.address (th : Thread) (a : Reg) (d : Disp) : DWord := th.pair a + d.value

/-- What the workgroup, the launch and the context give a thread: REGS (R138), FTZ and TE (R75), TVEC (R346), its core
and context slot, its workgroup. -/
structure Env where
  regs : Nat
  ftz  : Bool
  te   : BitVec 5
  tvec : DWord
  core : Nat
  ctx  : Nat
  deriving DecidableEq, Repr

/-- The environment of a thread. -/
def Gpu.env (g : Gpu) (t : TRef) : Env :=
  match g.wg? t.wg with
  | none => ⟨256, false, 0, 0, 0, 0⟩
  | some w =>
    match g.ctx? w.ctx with
    | none => ⟨w.regs, false, 0, 0, w.core?.getD 0, w.ctx⟩
    | some c => ⟨w.regs, c.ftz, c.te, c.tvec, w.core?.getD 0, c.slot⟩

/-- Whether a register operand lies at or above REGS (R138). -/
def overRange (regs : Nat) (used : List Reg) : Bool := used.any fun r => regs ≤ r.toNat

end Sys2Proof.Machine
end

