-- ==== Sys2Proof/Machine/Flags.lean ====
section
/-! DEFINITION. Sticky flags and the floating-point-exception trap (03 R75 to R77; 14 R345). -/

namespace Sys2Proof.Machine

open Sys2Proof

/-- The value of sr.flags (Table 3.6). -/
def flagsWord (e : Env) (th : Thread) : Word :=
  (0 : BitVec 11) ++ e.te ++ (0 : BitVec 7) ++ BitVec.ofBool e.ftz ++ (0 : BitVec 3) ++ th.flags

/-- The value of sr.prb (Table 5.10). -/
def prbWord (th : Thread) : Word := (0 : BitVec 30) ++ BitVec.ofBool th.pmode ++ BitVec.ofBool th.prb

/-- The value of sr.cnt (Table 4.7). -/
def cntWord (th : Thread) : Word :=
  let f := fun c => BitVec.ofNat 6 (th.count c)
  (0 : BitVec 2) ++ f .xch ++ f .march ++ f .arr ++ f .gath ++ f .copy

/-- INFO of a floating-point exception: the flags in bits 20..16 of sr.tcause (Table 14.4). -/
def fpeInfo (f : BitVec 5) : BitVec 16 := f.setWidth 16

/-- Whether flags raise the trap: an enabled one, in user mode (R77, R345). -/
def fpeTraps (e : Env) (th : Thread) (f : BitVec 5) : Bool := th.mode == .user && (f &&& e.te) != 0

/-- A fixed-latency result with its flags (R77): the flags set and the write made, or the precise trap naming the flags
that would have been set. -/
def withFlags (e : Env) (th : Thread) (f : BitVec 5) (write : Thread → Thread) : Except Trap Thread :=
  if fpeTraps e th f then .error ⟨.fpe, fpeInfo f, 0, false⟩ else .ok (write (th.raise f))

/-- The flags of a variable-latency result when it returns (R77): set, but for those that a later write to sr.flags cleared (R357);
and an enabled one raises the deferred trap. DESIGN CHOICE (log 100): the mode in which the result returns decides whether the trap is
raised (R345), not the mode in which its word issued. -/
def Thread.lateFlags (th : Thread) (e : Env) (f drop : BitVec 5) (pc word : DWord) : Thread :=
  let th := th.raise (f &&& ~~~drop)
  if fpeTraps e th f then th.defer ⟨TrapKind.fpe.code, fpeInfo f, pc, word, 0⟩ else th

end Sys2Proof.Machine
end

