-- ==== Sys2Proof/Machine/Compress.lean ====
section
/-! DEFINITION. Line compression (04 R104, R105), page records of compressed pages (16 R401 to R405), and the partition's
log and events that they raise (17 R418, 18 R439). -/

namespace Sys2Proof.Machine

open Sys2Proof

/-! ### Lines and bytes -/

/-- Byte `i` of a line. -/
def lineByte (l : Line) (i : Nat) : Byte := l.extractLsb' (8 * i) 8

/-- A line with byte `i` replaced. -/
def lineSet (l : Line) (i : Nat) (b : Byte) : Line :=
  (l &&& ~~~((0xFF : Line) <<< (8 * i))) ||| (b.setWidth 1024 <<< (8 * i))

/-- The line that 128 bytes make. -/
def lineOf (bs : List Byte) : Line := BitVec.ofNat 1024 (natOfBytes bs)

/-- The bytes of a line. -/
def lineBytes (l : Line) : List Byte := (List.range 128).map (lineByte l)

/-- The line that holds a location. -/
def Phys.line (p : Phys) : LineKey := ⟨p.sp, p.addr / 128⟩

/-! ### Table 4.4 -/

/-- Sectors of a tag's payload (Table 4.4). -/
def tagSectors (tag : Nat) : Nat :=
  match tag with
  | 0 => 8 | 1 => 0 | 2 => 1 | 3 => 1 | 4 => 2 | 5 => 3 | 6 => 3 | 7 => 5 | 8 => 5 | _ => 0

/-- Base width in bytes, words, and delta width in bytes of the delta tags (Table 4.4). -/
def tagDelta (tag : Nat) : Option (Nat × Nat × Nat) :=
  match tag with
  | 4 => some (8, 16, 1) | 5 => some (8, 16, 2) | 6 => some (4, 32, 1) | 7 => some (4, 32, 2) | 8 => some (8, 16, 4)
  | _ => none

/-- Whether every word's difference from word 0 fits the delta width (R105). -/
def deltaFits (bs : List Byte) (wb n db : Nat) : Bool :=
  let m := 2 ^ (8 * wb)
  let base := field bs 0 wb
  (List.range n).all fun i =>
    let d := (field bs (wb * i) wb + (m - base)) % m
    decide (d < 2 ^ (8 * db - 1)) || decide (m - 2 ^ (8 * db - 1) ≤ d)

/-- Whether a line fits a tag (R105). -/
def tagFits (bs : List Byte) (tag : Nat) : Bool :=
  match tag with
  | 0 => true
  | 1 => bs.all (· == 0)
  | 2 => (List.range 32).all fun i => field bs (4 * i) 4 == field bs 0 4
  | 3 => (List.range 16).all fun i => field bs (8 * i) 8 == field bs 0 8
  | t => match tagDelta t with
    | some (wb, n, db) => deltaFits bs wb n db
    | none => false

/-- The fitting tag of fewest sectors, and the lowest among equals (R105). -/
def chooseTag (bs : List Byte) : Nat :=
  (List.range 9).foldl (fun best t =>
    if tagFits bs t && (tagSectors t < tagSectors best) then t else best) 0

/-- The payload of a line under a tag, filled with zeros to whole sectors (R104). -/
def encodeLine (bs : List Byte) (tag : Nat) : List Byte :=
  let raw := match tag with
    | 0 => bs
    | 1 => []
    | 2 => bs.take 4
    | 3 => bs.take 8
    | t => match tagDelta t with
      | some (wb, n, db) =>
        let m := 2 ^ (8 * wb)
        bs.take wb ++ (List.range n).flatMap fun i => bytesOfNat db ((field bs (wb * i) wb + (m - field bs 0 wb)) % m)
      | none => []
  raw ++ List.replicate (16 * tagSectors tag - raw.length) 0

/-- A line from its tag and payload (R105). -/
def decodeLine (tag : Nat) (pl : List Byte) : List Byte :=
  match tag with
  | 0 => pl.take 128
  | 2 => (List.range 32).flatMap fun _ => pl.take 4
  | 3 => (List.range 16).flatMap fun _ => pl.take 8
  | t => match tagDelta t with
    | some (wb, n, db) =>
      let m := 2 ^ (8 * wb)
      (List.range n).flatMap fun i =>
        let d := field pl (wb + db * i) db
        let dx := if d < 2 ^ (8 * db - 1) then d else m - 2 ^ (8 * db) + d
        bytesOfNat wb ((field pl 0 wb + dx) % m)
    | none => List.replicate 128 0

/-! ### Device memory as the home slices serve it -/

/-- A byte of device memory: L2's dirty byte, otherwise memory's (R102). -/
def MemSt.devByte (m : MemSt) (a : Nat) : Byte := (Store.get none m.l2dev a).getD (m.dev.byte a)

/-- Bytes of device memory from an address. -/
def MemSt.devBytes (m : MemSt) (a n : Nat) : List Byte := (List.range n).map fun i => m.devByte (a + i)

/-- A byte of device memory written at its home slice. -/
def MemSt.setDevByte (m : MemSt) (a : Nat) (b : Byte) : MemSt := { m with l2dev := Store.set none m.l2dev a (some b) }

/-- Bytes of device memory written at their home slices. -/
def MemSt.setDevBytes (m : MemSt) (a : Nat) : List Byte → MemSt
  | [] => m
  | b :: bs => (m.setDevByte a b).setDevBytes (a + 1) bs

/-- A byte that the part itself keeps for compressed pages: it does not go with L2's ways (R407). -/
def MemSt.keepByte (m : MemSt) (a : Nat) (b : Byte) : MemSt :=
  { m with dev := m.dev.setByte a b, l2dev := Store.set none m.l2dev a none }

/-- Bytes that the part keeps from an address. -/
def MemSt.keepBytes (m : MemSt) (a : Nat) : List Byte → MemSt
  | [] => m
  | b :: bs => (m.keepByte a b).keepBytes (a + 1) bs

/-! ### The control block and page records (Tables 16.4, 16.5) -/

/-- Where the fields of a partition's control block point. -/
structure CBlk where
  at_   : Nat
  nrec  : Nat
  ctab  : Nat
  pool  : Nat
  nchunk : Nat
  wmark : Nat
  free  : Nat
  fhead : Nat
  fcount : Nat
  pinned : Nat
  flags : Nat
  deriving DecidableEq, Repr

/-- The control block read (Table 16.4). -/
def MemSt.cblk (m : MemSt) (a : Nat) : CBlk :=
  let b := m.devBytes a 64
  { at_ := a, nrec := field b 4 4, ctab := field b 8 8, pool := field b 0x10 8, nchunk := field b 0x18 4,
    wmark := field b 0x1C 4, free := field b 0x20 8, fhead := field b 0x28 4, fcount := field b 0x2C 4,
    pinned := field b 0x30 4, flags := field b 0x34 4 }

/-- A 4-byte field of device memory. -/
def MemSt.dev32 (m : MemSt) (a : Nat) : Nat := natOfBytes (m.devBytes a 4)
/-- A 4-byte field that the part keeps. -/
def MemSt.setDev32 (m : MemSt) (a v : Nat) : MemSt := m.keepBytes a (bytesOfNat 4 v)

/-- A page record's address (R401). -/
def CBlk.page (c : CBlk) (ridx : Nat) : Nat := c.ctab + 2048 * ridx

/-- A line's tag, slot and sector in a record (Table 16.5). -/
def MemSt.lineEntry (m : MemSt) (c : CBlk) (ridx i : Nat) : Nat × Nat × Nat :=
  let e := natOfBytes (m.devBytes (c.page ridx + 0x80 + 2 * i) 2)
  (e / 4096, e / 256 % 16, e % 256)

/-- The chunk in a slot of a record. -/
def MemSt.chunkAt (m : MemSt) (c : CBlk) (ridx slot : Nat) : Nat := m.dev32 (c.page ridx + 0x40 + 4 * slot)

/-- The bytes of a line of a compressed page as its record holds it; none when it is poisoned (R402, R104). -/
def MemSt.compLine (m : MemSt) (c : CBlk) (ridx i : Nat) : Option (List Byte) :=
  if m.dev32 (c.page ridx) % 2 = 0 then some (List.replicate 128 0)
  else
    let (tag, slot, sec) := m.lineEntry c ridx i
    if 9 ≤ tag then none
    else some (decodeLine tag (m.devBytes (c.pool + 4096 * (m.chunkAt c ridx slot % 2 ^ 24) + 16 * sec) (16 * tagSectors tag)))

/-- Whether an address lies in a live page record, a chunk of the pool, or the ring (R407). -/
def MemSt.compOwns (m : MemSt) (c : CBlk) (a : Nat) : Bool :=
  let within := fun (base n : Nat) => decide (base ≤ a) && decide (a < base + n)
  (within c.ctab (2048 * c.nrec) && m.dev32 (c.page ((a - c.ctab) / 2048)) % 2 == 1) || within c.pool (4096 * c.nchunk) || within c.free (4 * c.nchunk)

/-- What a store by software to a byte of device memory does beforehand (R407): into what the part keeps for compressed pages, it leaves every compressed page
of the partition with contents that are not stated, until the partition is reset. -/
def Gpu.tear (g : Gpu) (a : Nat) : Gpu :=
  let hit := fun (p : Part) => p.torn.isNone && p.comp.any fun blk => g.mem.compOwns (g.mem.cblk blk) a
  if g.parts.any hit then { g with free := g.free + 1, parts := g.parts.map fun p => if hit p then { p with torn := some g.free } else p } else g

/-! ### Partition events and the error log -/

/-- A completion entry formed and put in DSEQ order (R413, R414). -/
def Gpu.post (g : Gpu) (part : Nat) (c : Compl) : Gpu :=
  g.modPart part fun p => { p with outbox := p.outbox ++ [{ c with time := g.ptp }] }

/-- An event entry (R418). -/
def Gpu.event (g : Gpu) (part detail : Nat) (value : DWord) : Gpu :=
  g.post part { hseq := 0, status := 0, detail := detail, kind := 2, ctx := 0, tier := 0, value := value, time := 0 }

/-- An error log entry, and the event that reports it (R439). -/
def Gpu.logError (g : Gpu) (part kind asid core unit addr : Nat) : Gpu :=
  match g.part? part with
  | none => g
  | some p =>
    let e : LogEntry := { time := g.ptp, kind := kind, asid := asid, core := core, unit := unit, addr := addr, index := p.logNext }
    let g := g.modPart part fun p => { p with log := (p.log ++ [e]).drop ((p.log.length + 1) - 256), logNext := p.logNext + 1 }
    g.event part 7 (BitVec.ofNat 64 p.logNext)

/-! ### Chunks (R404, R405) -/

/-- PRESSURE and PINS written as they stand, with the events of R405. -/
def Gpu.setPressure (g : Gpu) (part : Nat) (c : CBlk) (fcount pinned : Nat) : Gpu :=
  let was := c.flags % 2 == 1
  let is := decide (fcount ≤ c.wmark)
  let fl := (if is then 1 else 0) + (if pinned = 0 then 0 else 2)
  let g := { g with mem := ((g.mem.setDev32 (c.at_ + 0x2C) fcount).setDev32 (c.at_ + 0x30) pinned).setDev32 (c.at_ + 0x34) fl }
  if is && !was then g.event part 2 (BitVec.ofNat 64 fcount)
  else if was && !is then g.event part 3 (BitVec.ofNat 64 fcount)
  else g

/-- A chunk taken from the ring, when R405 serves the request; the device and the chunk. -/
def Gpu.takeChunk (g : Gpu) (part : Nat) (c : CBlk) (res : Bool) : Option (Gpu × Nat) :=
  if c.fcount = 0 || (c.fcount ≤ c.wmark && !res) then none
  else
    let k := g.mem.dev32 (c.free + 4 * (c.fhead % c.nchunk))
    let g := { g with mem := g.mem.setDev32 (c.at_ + 0x28) ((c.fhead + 1) % c.nchunk) }
    some (g.setPressure part c (c.fcount - 1) c.pinned, k)

/-- A chunk returned to the ring (R401). -/
def Gpu.giveChunk (g : Gpu) (part : Nat) (c : CBlk) (k : Nat) : Gpu :=
  let g := { g with mem := g.mem.setDev32 (c.free + 4 * ((c.fhead + c.fcount) % c.nchunk)) k }
  g.setPressure part c (c.fcount + 1) c.pinned

/-- Whether a sector of a slot is in use (Table 16.5). -/
def MemSt.occ (m : MemSt) (c : CBlk) (ridx slot sec : Nat) : Bool :=
  (m.devByte (c.page ridx + 0x480 + 32 * slot + sec / 8)).getLsbD (sec % 8)

/-- Sectors of a slot marked. -/
def MemSt.markOcc (m : MemSt) (c : CBlk) (ridx slot : Nat) (on : Bool) : List Nat → MemSt
  | [] => m
  | s :: ss =>
    let a := c.page ridx + 0x480 + 32 * slot + s / 8
    let bit := (1 : Byte) <<< (s % 8)
    (m.keepByte a (if on then m.devByte a ||| bit else m.devByte a &&& ~~~bit)).markOcc c ridx slot on ss

/-- The lowest run of n free sectors within a held chunk, slot 0 first (R404 step 3). -/
def MemSt.findRun (m : MemSt) (c : CBlk) (ridx n : Nat) : Option (Nat × Nat) :=
  (List.range 16).findSome? fun slot =>
    if m.chunkAt c ridx slot / 2 ^ 31 = 0 then none
    else ((List.range (257 - n)).find? fun s => (List.range n).all fun j => !m.occ c ridx slot (s + j)).map fun s => (slot, s)

/-- A line's payload and LINE entry written (R404). -/
def MemSt.putLine (m : MemSt) (c : CBlk) (ridx i tag slot sec : Nat) (pl : List Byte) : MemSt :=
  let m := m.keepBytes (c.pool + 4096 * (m.chunkAt c ridx slot % 2 ^ 24) + 16 * sec) pl
  m.keepBytes (c.page ridx + 0x80 + 2 * i)
    (bytesOfNat 2 (tag * 4096 + (if tagSectors tag = 0 then 0 else slot * 256 + sec)))

/-- A record made live at the first write-back into its page (R402). -/
def MemSt.enliven (m : MemSt) (c : CBlk) (ridx : Nat) : MemSt :=
  if m.dev32 (c.page ridx) % 2 = 1 then m
  else
    let m := (List.range 512).foldl (fun m i => m.keepBytes (c.page ridx + 0x80 + 2 * i) (bytesOfNat 2 0x1000)) m
    m.setDev32 (c.page ridx) 1

/-- The page rewritten into raw layout in ascending line order (R404 step 5): line i in slot i ÷ 32 from sector
8 × (i mod 32). -/
def MemSt.rawLayout (m : MemSt) (c : CBlk) (ridx : Nat) : MemSt :=
  let old := (List.range 512).map fun i => ((m.lineEntry c ridx i).1, m.compLine c ridx i)
  let m := (List.range 512).foldl (fun m i =>
    match old[i]? with
    | some (_, some bs) => m.putLine c ridx i 0 (i / 32) (8 * (i % 32)) bs
    | _ => m) m
  (List.range 16).foldl (fun m s => m.markOcc c ridx s true (List.range 256)) m

/-- A slot whose sectors are all free gives its chunk back (R404). -/
def Gpu.releaseSlot (g : Gpu) (part blk ridx slot : Nat) : Gpu :=
  let c := g.mem.cblk blk
  let k := g.mem.chunkAt c ridx slot
  if k / 2 ^ 31 = 1 && (List.range 256).all fun s => !g.mem.occ c ridx slot s then
    let nch := g.mem.dev32 (c.page ridx + 4)
    let g := { g with mem := (g.mem.setDev32 (c.page ridx + 0x40 + 4 * slot) 0).setDev32 (c.page ridx + 4) (nch - 1) }
    g.giveChunk part c (k % 2 ^ 24)
  else g

/-- The write-back of a line into its page (R404); none when it is refused a chunk (R405). A poisoned line takes tag 0xF and no sector
(R105, R402). -/
def Gpu.writebackComp (g : Gpu) (part blk ridx i : Nat) (bad : Bool) (bs : List Byte) (res : Bool) : Option Gpu :=
  let c := g.mem.cblk blk
  let g := { g with mem := g.mem.enliven c ridx }
  let tag := if bad then 15 else chooseTag bs
  let n := tagSectors tag
  let pl := encodeLine bs tag
  let (otag, oslot, osec) := g.mem.lineEntry c ridx i
  let on := tagSectors otag
  if n ≤ on then
    let m := g.mem.putLine c ridx i tag oslot osec pl
    let g := { g with mem := m.markOcc c ridx oslot false ((List.range (on - n)).map (osec + n + ·)) }
    some (if on = 0 then g else g.releaseSlot part blk ridx oslot)
  else
    let finish := fun (g : Gpu) (slot sec : Nat) =>
      let m := (g.mem.putLine c ridx i tag slot sec pl).markOcc c ridx slot true ((List.range n).map (sec + ·))
      let m := m.markOcc c ridx oslot false ((List.range on).map (osec + ·))
      let g := { g with mem := m }
      if on = 0 then g else g.releaseSlot part blk ridx oslot
    match g.mem.findRun c ridx n with
    | some (slot, sec) => some (finish g slot sec)
    | none =>
      let nch := g.mem.dev32 (c.page ridx + 4)
      if nch < 16 then
        (g.takeChunk part c res).map fun (g, k) =>
          let slot := ((List.range 16).find? fun s => g.mem.chunkAt c ridx s / 2 ^ 31 == 0).getD 0
          let g := { g with mem := (g.mem.setDev32 (c.page ridx + 0x40 + 4 * slot) (2 ^ 31 + k)).setDev32 (c.page ridx + 4) (nch + 1) }
          finish g slot 0
      else
        let m := g.mem.rawLayout c ridx
        let m := m.putLine c ridx i tag (i / 32) (8 * (i % 32)) pl
        some { g with mem := m.markOcc c ridx (i / 32) false ((List.range (8 - n)).map (8 * (i % 32) + n + ·)) }

end Sys2Proof.Machine
end

