-- ==== Sys2Proof/Machine/Mem.lean ====
section
/-! DEFINITION. The memory system: home slices, poison, reservations, L1 and store FIFOs (04 R100, R106, R107, R109, R112,
R115, R119, R122), translation and TLBs (16 R389 to R397), fault records (16 R398 to R400), the scratchpad (04 R94, R99)
and the address checks of Table 7.1. -/

namespace Sys2Proof.Machine

open Sys2Proof

/-! ### Home slices -/

/-- A byte as its home slice, or its port, holds it. Peer bytes are held by the peer and read 0 here. -/
def Gpu.homeByte (g : Gpu) (p : Phys) : Byte :=
  match p.sp with
  | .dev => g.mem.devByte p.addr
  | .host n => if n = 0 then g.mem.host0.byte p.addr else g.mem.host1.byte p.addr
  | .comp part =>
    match (g.part? part).bind Part.torn, g.mem.l2.find? fun l => l.key == p.line with
    | some n, _ => Config.tornByte n p.addr
    | none, some l => lineByte l.data (p.addr % 128)
    | none, none =>
      match (g.part? part).bind Part.comp with
      | none => 0
      | some blk =>
        match g.mem.compLine (g.mem.cblk blk) (p.addr / 65536) (p.addr % 65536 / 128) with
        | some bs => bs.getD (p.addr % 128) 0
        | none => 0
  | .peer _ _ => 0

/-- The bytes of a line at its home. -/
def Gpu.homeLine (g : Gpu) (k : LineKey) : List Byte := (List.range 128).map fun i => g.homeByte ⟨k.sp, 128 * k.idx + i⟩

/-- A poisoned line (R107): recorded as such, or read from its record with tag 0x9 to 0xF (R104). -/
def Gpu.poisoned (g : Gpu) (k : LineKey) : Bool :=
  g.mem.poison.contains k ||
  match k.sp with
  | .comp part =>
    !(g.mem.l2.any fun l => l.key == k) &&
    match (g.part? part).bind Part.comp with
    | none => false
    | some blk => (g.mem.compLine (g.mem.cblk blk) (k.idx / 512) (k.idx % 512)).isNone
  | _ => false

/-- A byte written at its home: into L2 for device and compressed pages, at the port for host pages. -/
def Gpu.putHome (g : Gpu) (res : Bool) (p : Phys) (b : Byte) : Gpu :=
  match p.sp with
  | .dev =>
    let g := g.tear p.addr
    { g with mem := g.mem.setDevByte p.addr b }
  | .host n =>
    if n = 0 then { g with mem := { g.mem with host0 := g.mem.host0.setByte p.addr b } }
    else { g with mem := { g.mem with host1 := g.mem.host1.setByte p.addr b } }
  | .comp part =>
    let m := g.mem
    let l2 := if m.l2.any fun l => l.key == p.line then m.l2
              else m.l2 ++ [{ key := p.line, part := part, data := lineOf (g.homeLine p.line), res := false, pin := none }]
    { g with mem := { m with l2 := l2.map fun l =>
        if l.key = p.line then { l with data := lineSet l.data (p.addr % 128) b, res := l.res || res } else l } }
  | .peer _ _ => g

/-- Reservations on a line are lost (R122). -/
def Gpu.loseResv (g : Gpu) (k : LineKey) : Gpu :=
  g.mapThreads fun _ th => match th.resv with
    | some r => if r.key = k then { th with resv := none } else th
    | none => th

/-- Bytes stored at their homes, one step (R106): a store that does not cover a poisoned line whole is discarded there,
one that does clears the poison (R107). -/
def Gpu.homeStore (g : Gpu) (whole res : Bool) : List (Phys × Byte) → Gpu
  | [] => g
  | (p, b) :: cs =>
    let k := p.line
    let g := g.loseResv k
    if whole then ({ g with mem := { g.mem with poison := g.mem.poison.filter (· != k) } }.putHome res p b).homeStore whole res cs
    else if g.poisoned k then g.homeStore whole res cs
    else (g.putHome res p b).homeStore whole res cs

/-- A line's poison cleared, by a store that replaces the whole line (R107). -/
def Gpu.cure (g : Gpu) (k : LineKey) : Gpu := { g with mem := { g.mem with poison := g.mem.poison.filter (· != k) } }

/-- Bytes of device memory stored by the memory controller for a page whose CACHE is none (R95): L2 keeps no copy. -/
def Gpu.ctrlStore (g : Gpu) : List (Phys × Byte) → Gpu
  | [] => g
  | (p, b) :: cs =>
    match p.sp with
    | .dev =>
      let g := g.loseResv p.line
      if g.poisoned p.line then g.ctrlStore cs
      else
        let g := g.tear p.addr
        ({ g with mem := g.mem.keepByte p.addr b } : Gpu).ctrlStore cs
    | _ => (g.homeStore false false [(p, b)]).ctrlStore cs

/-! ### Peer writes (R419, R421) -/

/-- A packet put on a connection: numbered, kept until acknowledged, and sent (R419); on one that has failed it is never
sent, and ends as R422 gives. -/
def Gpu.sendOn (g : Gpu) (ctx ep : Nat) (body : PktBody) (op : Option Nat) (by_ : Option (TRef × DWord × DWord)) : Gpu :=
  let mine := fun (c : Conn) => c.ctx == ctx && c.ep == ep
  let add := fun (c : Conn) =>
    if mine c then { c with next := c.next + 1, unacked := c.unacked ++ [{ seq := c.next, body := body, op := op, by_ := by_, at_ := g.now }] } else c
  let out := (g.fabric.conns.filter fun c => mine c && !c.failed).map fun c => TxItem.pkt c.peer c.rpart c.rasid c.next body
  { g with fabric := { g.fabric with conns := g.fabric.conns.map add, tx := g.fabric.tx ++ out } }

/-- Locations grouped into runs of consecutive ones, none longer than a packet's 4,096 bytes (R419). -/
def runsOf : List Phys → List (Phys × Nat)
  | [] => []
  | p :: ps =>
    match runsOf ps with
    | (q, n) :: rs => if q.sp = p.sp ∧ q.addr = p.addr + 1 ∧ n < 4096 then (p, n + 1) :: rs else (p, 1) :: (q, n) :: rs
    | [] => [(p, 1)]

/-- Bytes sent to peer locations as remote writes, one for each run of consecutive locations (R421). -/
def Gpu.peerStore (g : Gpu) (cells : List (Phys × Byte)) (op : Option Nat) (by_ : Option (TRef × DWord × DWord)) : Gpu :=
  let cs := cells.filter fun x => match x.1.sp with | .peer _ _ => true | _ => false
  let send := fun (s : Gpu × List Byte) (r : Phys × Nat) =>
    match r.1.sp with
    | .peer ctx ep => (s.1.sendOn ctx ep (.write r.1.addr (s.2.take r.2)) op by_, s.2.drop r.2)
    | _ => s
  ((runsOf (cs.map (·.1))).foldl send (g, cs.map (·.2))).1

/-- Remote reads sent for an operation, one for each run of consecutive peer locations (R421). -/
def Gpu.ask (g : Gpu) (id : Nat) (ps : List Phys) : Gpu :=
  let send := fun (g : Gpu) (r : Phys × Nat) =>
    match r.1.sp with
    | .peer ctx ep =>
      let tag := g.fabric.nextTag
      let g := { g with fabric := { g.fabric with nextTag := tag + 1 } }
      (g.sendOn ctx ep (.read r.1.addr r.2 tag) (some id) none).modOp id fun o => { o with asks := o.asks ++ [(tag, r.1, r.2)] }
    | _ => g
  (runsOf (ps.filter fun p => match p.sp with | .peer _ _ => true | _ => false)).foldl send g

/-- A device address within a partition's ranges (R367, R392). -/
def PEntry.holds (e : PEntry) (a : Nat) : Bool := decide (a < 192 * 2 ^ 30) && e.mem.getLsbD (a / 2 ^ 30)

/-- The partition to which a line belongs (R367): by its memory range, or by its port. -/
def Gpu.lineOwner (g : Gpu) (k : LineKey) : Nat :=
  match k.sp with
  | .comp p => p
  | .dev => ((g.parts.find? fun p => p.entry.holds (128 * k.idx)).map Part.id).getD 0
  | .host n => ((g.parts.find? fun p => p.entry.port == n).map Part.id).getD 0
  | .peer _ _ => 0

/-- The partition whose groups hold a core (R13, R367). -/
def Gpu.coreOwner (g : Gpu) (core : Nat) : Nat := ((g.parts.find? fun p => p.entry.groups.getLsbD (core / 16)).map Part.id).getD 0

/-! ### Homes in L2 (R102, R406) -/

/-- The index of a line's home slice within its die (R102). -/
def sliceOf (l : Nat) : Nat := Nat.xor (Nat.xor l (l / 4096)) (l / 2 ^ 24) % 96

/-- A line's home slice: whether it lies on die 1, and its index there (R102). -/
def Gpu.homeOf (g : Gpu) (k : LineKey) : Bool × Nat :=
  let covers := fun (x : Phys × Nat × Bool) => x.1.sp == k.sp && decide (x.1.addr ≤ 128 * k.idx) && decide (128 * k.idx < x.1.addr + 2 ^ x.2.1)
  (((g.mem.homes.find? covers).map fun x => x.2.2).getD false, sliceOf k.idx)

/-- The home die of a page of device memory, compressed or not, as its leaf names it (R102). -/
def Gpu.noteHome (g : Gpu) (l : Leaf) : Gpu :=
  let meets := fun (x : Phys × Nat × Bool) =>
    x.1.sp == l.base.sp && decide (x.1.addr < l.base.addr + 2 ^ l.log) && decide (l.base.addr < x.1.addr + 2 ^ x.2.1)
  match l.base.sp with
  | .dev | .comp _ =>
    let rest := g.mem.homes.filter fun x => !(x.1 == l.base && x.2.1 == l.log)
    { g with mem := { g.mem with homes := if l.home || rest.any meets then (l.base, l.log, l.home) :: rest else rest } }
  | _ => g

/-- Ways that a partition owns in every set of L2 (R367). -/
def PEntry.wayCount (e : PEntry) : Nat := ((List.range 16).filter fun i => e.ways.getLsbD i).length

/-- Whether a line that L2 does not hold finds no way: every way of the partition in its set holds a dirty line of a compressed page,
pinned, or waiting to be written back (R23, R406); dirty lines of plain pages leave at any time. A slice has 2,048 sets (R23); which one a line
indexes is not stated. -/
def Gpu.noWay (g : Gpu) (k : LineKey) : Bool :=
  let p := g.lineOwner k
  let near := g.mem.l2.filter fun l => l.part == p && g.homeOf l.key == g.homeOf k
  let ways := ((g.part? p).map fun p => p.entry.wayCount).getD 16
  (match k.sp with | .dev | .comp _ => true | _ => false) && !near.isEmpty && decide (ways ≤ near.length) &&
  !(g.mem.l2.any fun l => l.key == k) &&
  decide (ways ≤ (near.filter fun l => Config.l2Set l.key.idx % 2048 == Config.l2Set k.idx % 2048).length)

/-- The first of some lines that must wait for a way in L2 (R406). -/
def Gpu.lineWait (g : Gpu) (ks : List LineKey) : Option LineKey := if g.mem.l2.isEmpty then none else ks.find? g.noWay

/-! ### L1 and store FIFOs (R100, R109) -/

/-- Dirty bytes of an L1 line as cells. -/
def L1Line.dirtyCells (l : L1Line) : List (Phys × Byte) :=
  ((List.range 128).filter fun i => l.dirty.getLsbD i).map fun i => (⟨l.key.sp, 128 * l.key.idx + i⟩, lineByte l.data i)

/-- An L1 line's dirty bytes sent to its home (R106). A whole-line store is performed at the home itself (R119), so these are
partial stores, and on a poisoned line they are discarded (R107). A line whose L1 copy holds an uncorrectable error is poisoned at its
home, and logged for the core's partition when it was not poisoned yet (R364, R365). -/
def Gpu.writeL1 (core : Nat) (g : Gpu) (l : L1Line) : Gpu :=
  if l.bad then
    if g.poisoned l.key then g
    else { g with mem := { g.mem with poison := l.key :: g.mem.poison } }.logError (g.coreOwner core) 1 0xFFFF core 2 (128 * l.key.idx)
  else g.homeStore false l.res l.dirtyCells

/-- Every dirty line of a core that `f` picks written back; the lines stay, clean (R100, R106), but for those whose line is poisoned at
its home, where the stores are discarded (R107). A line that finds no way at its home slice waits (R406). -/
def Gpu.cleanLines (g : Gpu) (core : Nat) (f : L1Line → Bool) : Gpu :=
  let mine := fun (l : L1Line) => l.dirty != 0 && f l && (g.lineWait [l.key]).isNone
  let g := ((g.core core).l1.filter mine).foldl (Gpu.writeL1 core) g
  g.modCore core fun c => { c with
    l1 := (c.l1.filter fun l => !(mine l && g.poisoned l.key)).map fun l => if mine l then { l with dirty := 0, res := false } else l }

/-- Every dirty line of a core written back; the lines stay, clean (R100, R112). -/
def Gpu.cleanL1 (g : Gpu) (core : Nat) : Gpu := g.cleanLines core fun _ => true

/-- Every line of a core written back and dropped: later loads fetch again (R115). -/
def Gpu.flushL1 (g : Gpu) (core : Nat) : Gpu := (g.cleanL1 core).modCore core fun c => { c with l1 := c.l1.filter fun l => l.dirty != 0 }

/-- One line of a core written back and dropped. -/
def Gpu.evictL1 (g : Gpu) (core : Nat) (k : LineKey) : Gpu :=
  let ls := (g.core core).l1.filter fun l => l.key == k && l.dirty != 0
  (ls.foldl (Gpu.writeL1 core) g).modCore core fun c => { c with l1 := c.l1.filter fun l => l.key != k }

/-- Core cycles for which a line filled from L2 stays valid (R100). -/
def lineLife : Nat := 16384

/-- Lines that a core's L1 holds beside its scratchpad and its brick-mode region, and lines of that region (R17): 512 KiB − S − brick
and 64 KiB for each unit of brick-mode size. -/
def CoreSt.l1Lines (c : CoreSt) : Nat := 4096 - 512 * c.split - 512 * c.brick
/-- Lines of a core's brick-mode region (R17). -/
def CoreSt.brickLines (c : CoreSt) : Nat := 512 * c.brick

/-- Room made in a full L1 (R17): a line of the lowest rank leaves (R95, R96); which of several is a free choice. -/
def Gpu.makeRoom (g : Gpu) (core : Nat) : Gpu :=
  let ls := (g.core core).l1.filter fun l => l.dirty == 0 || (g.lineWait [l.key]).isNone
  if (g.core core).l1.length < (g.core core).l1Lines then g
  else
    let low := ls.foldl (fun m l => min m l.rank) 5
    let vs := ls.filter fun l => l.rank == low
    let c := g.choose vs.length
    match vs[c.2]? with
    | some l => c.1.evictL1 core l.key
    | none => g

/-- A line brought into L1 from its home, unless it is there and still valid (R100), or poisoned (R107); a hint sets its place in the
order of eviction (R96), of a line that is there too. -/
def Gpu.fillL1 (g : Gpu) (core rank : Nat) (k : LineKey) : Gpu :=
  if g.poisoned k then g
  else if (g.core core).l1.any fun l => l.key == k && g.now < l.filled + lineLife then
    if rank = 0 || rank = 5 then g.modCore core fun c => { c with l1 := c.l1.map fun l => if l.key = k then { l with rank := rank } else l }
    else g
  else ((g.evictL1 core k).makeRoom core).modCore core fun c => { c with l1 := c.l1 ++
    [{ key := k, data := lineOf (g.homeLine k), dirty := 0, filled := g.now, dirtied := 0, bad := false, res := false, rank := rank }] }

/-- A byte written into an L1 line when it lies in it, marked dirty, or clean because its home holds it too. -/
def L1Line.poke (now : Nat) (mark res : Bool) (l : L1Line) (x : Phys × Byte) : L1Line :=
  if x.1.line = l.key then
    { l with
      data := lineSet l.data (x.1.addr % 128) x.2,
      dirty := if mark then l.dirty ||| ((1 : BitVec 128) <<< (x.1.addr % 128)) else l.dirty &&& ~~~((1 : BitVec 128) <<< (x.1.addr % 128)),
      dirtied := if mark && l.dirty == 0 then now else l.dirtied,
      res := l.res || (mark && res) }
  else l

/-- Bytes written into a core's L1 copies of their lines. -/
def Gpu.pokeL1 (g : Gpu) (core : Nat) (mark res : Bool) (cells : List (Phys × Byte)) : Gpu :=
  g.modCore core fun c => { c with l1 := c.l1.map fun l => cells.foldl (L1Line.poke g.now mark res) l }

/-- How a page's CACHE and a hint let L1 hold a line (R95, R96). -/
def Attr.inL1 (a : Attr) : Bool := a.cache == 0

/-- A store leaves its FIFO and is performed (R95, R96, R106, R109): at L1, at the home slice, at the memory controller,
at the port, or as a remote write; to a poisoned line it is discarded (R107). -/
def Gpu.perform (g : Gpu) (core : Nat) (e : FifoEntry) : Gpu :=
  match e.cells with
  | [] => g
  | (p, _) :: _ =>
    match p.sp with
    | .peer _ _ => g.peerStore e.cells none (some (e.t, e.pc, e.word))
    | _ =>
      if g.poisoned p.line then g.loseResv p.line
      else if e.attr.cache == 2 then g.ctrlStore e.cells
      else if !e.attr.inL1 || e.bypass then (g.homeStore false e.res e.cells).pokeL1 core false false e.cells
      else if e.attr.wpol == 2 && !((g.core core).l1.any fun l => l.key == p.line) then g.homeStore false e.res e.cells
      else
        let g := e.cells.foldl (fun g x => (g.loseResv x.1.line).fillL1 core e.attr.rank x.1.line) g
        if e.attr.wpol == 1 then (g.homeStore false e.res e.cells).pokeL1 core false false e.cells
        else g.pokeL1 core true e.res e.cells

/-- FIFO entries, youngest first, parted into those that leave and those that stay, each in issue order: an entry leaves with
those of the threads `ts` or of the issues `is`, and before it leave its thread's older entries and the lower lanes of its issue
(R109). -/
def parting : List FifoEntry → List TRef → List Nat → List FifoEntry × List FifoEntry
  | [], _, _ => ([], [])
  | x :: xs, ts, is =>
    if ts.contains x.t || is.contains x.inst then
      let r := parting xs (x.t :: ts) (x.inst :: is)
      (r.1 ++ [x], r.2)
    else
      let r := parting xs ts is
      (r.1, r.2 ++ [x])

/-- Entries leave a core's FIFOs in their order, and the others stay (R109). -/
def Gpu.leaveFifo (g : Gpu) (core : Nat) (r : List FifoEntry × List FifoEntry) : Gpu :=
  r.1.foldl (fun g e => g.perform core e) (g.modCore core fun c => { c with fifo := r.2 })

/-- A thread's oldest FIFO entry leaves, with what must leave before it (R109), unless one of their lines finds no way in L2 (R406). -/
def Gpu.drainOne (g : Gpu) (core : Nat) (t : TRef) : Gpu :=
  let q := (g.core core).fifo
  match q.dropWhile fun e => e.t != t with
  | [] => g
  | e :: post =>
    let r := parting (q.takeWhile fun e => e.t != t).reverse [] [e.inst]
    if (g.lineWait ((r.1 ++ [e]).flatMap fun x => x.cells.map fun y => y.1.line)).isSome then g
    else g.leaveFifo core (r.1 ++ [e], r.2 ++ post)

/-- A thread's whole FIFO leaves in program order, with what must leave before (R109). -/
def Gpu.drain (g : Gpu) (core : Nat) (t : TRef) : Gpu := g.leaveFifo core (parting (g.core core).fifo.reverse [t] [])

/-- Every FIFO of a core leaves, in one order (R109). -/
def Gpu.drainCore (g : Gpu) (core : Nat) : Gpu := g.leaveFifo core ((g.core core).fifo, [])

/-- Whether a thread's FIFO is empty (R28). -/
def Gpu.fifoEmpty (g : Gpu) (core : Nat) (t : TRef) : Bool := !((g.core core).fifo.any fun e => e.t == t)

/-- A byte as a thread's load sees it (R96, R109): its own FIFO's youngest, else L1's copy, else the home's. With a
bypass hint, L1 answers only with a newer value. -/
def Gpu.seeByte (g : Gpu) (core : Nat) (t : TRef) (bypass : Bool) (p : Phys) : Byte :=
  let own := ((g.core core).fifo.filter fun e => e.t == t).flatMap FifoEntry.cells
  match own.reverse.find? fun x => x.1 == p with
  | some x => x.2
  | none =>
    match (g.core core).l1.find? fun l => l.key == p.line with
    | some l => if bypass && !l.dirty.getLsbD (p.addr % 128) then g.homeByte p else lineByte l.data (p.addr % 128)
    | none => g.homeByte p

/-- A hint's effect on the order of eviction (R96). -/
def Attr.hinted (a : Attr) (ch : BitVec 2) : Attr := { a with rank := if ch = 1 then 0 else if ch = 2 then 5 else a.rank }

/-- A load of locations by a thread: L1 filled where the page allows it, and the bytes (R95, R96). A bypassing load
leaves L1's clean bytes no older than what it read (R110). -/
def Gpu.loadCells (g : Gpu) (core : Nat) (t : TRef) (attr : Attr) (bypass : Bool) (ps : List Phys) : Gpu × List Byte :=
  let g := if attr.inL1 && !bypass then ps.foldl (fun g p => g.fillL1 core attr.rank p.line) g else g
  let bs := ps.map (g.seeByte core t bypass)
  (if bypass then g.pokeL1 core false false ((ps.zip bs).filter fun x =>
      !((g.core core).l1.any fun l => l.key == x.1.line && l.dirty.getLsbD (x.1.addr % 128))) else g, bs)

/-- An access performed at the home slice by a thread (R112, R115, R120): its FIFO first, then its core's copy of the
line gives way. -/
def Gpu.atHome (g : Gpu) (core : Nat) (t : TRef) (ps : List Phys) : Gpu :=
  ps.foldl (fun g p => g.evictL1 core p.line) (g.drain core t)

/-- The release part of an ordering at a scope (R112, R117, R127): the thread's stores leave its FIFO, and beyond the core the
core's dirty lines reach their homes. -/
def Gpu.release (g : Gpu) (core : Nat) (t : TRef) (sc : Scope) : Gpu :=
  if sc.beyondCore then (g.drain core t).cleanL1 core else g.drain core t

/-- The acquire part of an ordering at a scope (R112, R115): beyond the core, later loads fetch again. -/
def Gpu.acquire (g : Gpu) (core : Nat) (sc : Scope) : Gpu := if sc.beyondCore then g.flushL1 core else g

/-! ### Remote reads and acknowledgements that hold a thread back (R114, R117, R421) -/

/-- A remote read of a thread whose value has not come. -/
def Op.readsFor (o : Op) (t : TRef) : Bool :=
  o.owners.contains t && !o.asks.isEmpty && match o.kind with | .rread _ _ => true | _ => false

/-- A remote read of a thread whose value has not come: its later accesses wait for it (R109, R112, R114). -/
def Gpu.remoteRead (g : Gpu) (t : TRef) : Option Nat := (g.ops.find? fun o => o.readsFor t).map Op.id

/-- Whether a store of a thread to a peer is not acknowledged: it is not known to be visible at system scope (R421). -/
def Gpu.owesAck (g : Gpu) (t : TRef) : Bool := g.fabric.conns.any fun c => c.unacked.any fun x => x.by_.any fun b => b.1 == t

/-- Fences at system scope whose acknowledgements have all come hold nothing back any more (R209, R421). -/
def Gpu.freeAcks (g : Gpu) : Gpu :=
  g.mapThreads fun t th => if th.sysrel && !g.owesAck t then { th with sysrel := false } else th

/-- Whether a thread's accesses are held back: by a remote read (R114), or by a fence whose stores the peers have not acknowledged (R209,
R421). -/
def Gpu.heldBack (g : Gpu) (t : TRef) : Bool := (g.remoteRead t).isSome || (g.thread? t).any Thread.sysrel

/-- A fence (R112, R209). What it orders holds the thread's later accesses back, and not the fence: stores that peers have yet to
acknowledge (R421), and remote reads, as which the acquire is performed when they have come. -/
def Gpu.fence (g : Gpu) (core : Nat) (t : TRef) (o : Ord4) (sc : Scope) : Gpu :=
  let g := if o.releases then g.release core t sc else g
  let g := if o.releases && sc == .sys && g.owesAck t then g.modThread t fun th => { th with sysrel := true } else g
  if o.acquires && sc.beyondCore then
    let late := fun (x : Op) => if x.readsFor t then { x with acq := true } else x
    { g.flushL1 core with ops := (g.flushL1 core).ops.map late }
  else g

/-! ### Fills (R406) -/

/-- The line of an access that must wait for a way in L2: one that L2 does not hold, nor the core's L1, unless the access is performed at
the home slice (R406). -/
def Gpu.fillWait (g : Gpu) (core : Nat) (atHome : Bool) (ps : List Phys) : Option LineKey :=
  g.lineWait ((ps.map Phys.line).filter fun k => atHome || !((g.core core).l1.any fun l => l.key == k))

/-- The line for which a release waits for a way in L2: of a store in the thread's FIFO, or beyond the core a dirty one of its L1 (R406). -/
def Gpu.releaseWait (g : Gpu) (core : Nat) (t : TRef) (sc : Scope) : Option LineKey :=
  g.lineWait ((((g.core core).fifo.filter fun e => e.t == t).flatMap fun e => e.cells.map fun x => x.1.line) ++
    (if sc.beyondCore then ((g.core core).l1.filter fun l => l.dirty != 0).map L1Line.key else []))

/-- The line for which an access performed at the home slice waits for a way: its own, or one of a store in the thread's FIFO, which
leaves first (R112, R406). -/
def Gpu.homeWait (g : Gpu) (core : Nat) (t : TRef) (ps : List Phys) : Option LineKey :=
  (g.fillWait core true ps).orElse fun _ => g.releaseWait core t .thr

/-- Whether a dirty line of some core finds no way at its home slice: what must be visible first waits for it (R100, R406). -/
def Gpu.dirtyWait (g : Gpu) : Bool :=
  (g.lineWait (g.cores.flatMap fun x => (x.2.l1.filter fun l => l.dirty != 0).map L1Line.key)).isSome

/-- A fill of a deadline launch that waits for a way is known to its slice (R406). -/
def Gpu.wantFill (g : Gpu) (on : Bool) (k : LineKey) : Gpu :=
  if on && !g.mem.fills.contains k then { g with mem := { g.mem with fills := g.mem.fills ++ [k] } } else g

/-! ### Translation (R389 to R397) -/

/-- Access classes (Table 16.2), with the codes of Table 14.4's INFO. -/
inductive Access | read | write | atomic | fetch
  deriving DecidableEq, Repr

/-- The code of an access class (R398). -/
def Access.code : Access → Nat
  | .read => 0 | .write => 1 | .atomic => 2 | .fetch => 3

/-- Why a walk failed (R393, R398): the entry's level, not permitted (else not mapped), replayable, malformed. -/
structure WalkFail where
  level : Nat
  perm  : Bool
  rpl   : Bool
  bad   : Bool
  deriving DecidableEq, Repr

/-- Page size at a level (R389). -/
def pageLog (level : Nat) (s64 : Bool) : Nat := if level = 2 then 30 else if level = 1 then 21 else if s64 then 16 else 12

/-- The leaf an entry gives (R390 to R393); none when it is malformed. `entry` is the 8 bytes at `base + 8 × idx`. -/
def Gpu.leafOf (g : Gpu) (c : Ctx) (p : Part) (base idx level : Nat) (e : DWord) : Option Leaf :=
  let bits := fun (hi lo : Nat) => e.toNat / 2 ^ lo % 2 ^ (hi - lo + 1)
  let s64 := e.getLsbD 2
  let addr := 4096 * bits 47 12
  let loc := bits 51 50
  let lg := pageLog level s64
  if e.getLsbD 60 || bits 49 48 ≠ 0 || bits 11 3 ≠ 0 || level = 3 || (s64 && level ≠ 0) || bits 59 58 = 3 || bits 57 56 = 3 then none
  else
    let m := idx / 16 * 16
    let first := natOfBytes (g.mem.devBytes (base + 8 * m) 8)
    let faddr := first / 4096 % 2 ^ 36 * 4096
    let groupOk := !s64 || ((List.range 16).all fun j =>
      natOfBytes (g.mem.devBytes (base + 8 * (m + j)) 8) == first + 4096 * j) && faddr % 65536 == 0
    let pg := if s64 then faddr else addr
    let mk := fun (sp : Space) (a : Nat) => some
      { base := ⟨sp, a⟩, log := lg, x := e.getLsbD 63, rpl := e.getLsbD 62, w := e.getLsbD 61,
        cache := BitVec.ofNat 2 (bits 59 58), wpol := BitVec.ofNat 2 (bits 57 56), evp := BitVec.ofNat 2 (bits 55 54),
        hsnoop := e.getLsbD 53, home := e.getLsbD 52 : Leaf }
    if !groupOk then none
    else if loc = 1 then
      match p.comp with
      | none => none
      | some blk =>
        if s64 && bits 59 58 < 2 && pg / 65536 < (g.mem.cblk blk).nrec then mk (.comp p.id) pg else none
    else if pg % 2 ^ lg ≠ 0 then none
    else if loc = 0 then (if p.entry.holds pg then mk .dev pg else none)
    else if loc = 2 then mk (.host p.entry.port) pg
    else mk (.peer c.slot (pg / 2 ^ 36)) (pg % 2 ^ 36)

/-- The walk from a table at a level down (R389, R393). DESIGN CHOICE (log 108): an entry of level 0 with V = 1 and LEAF = 0, which R393
does not name, is malformed. -/
def Gpu.walkFrom (g : Gpu) (c : Ctx) (p : Part) (va : Nat) : Nat → Nat → Except WalkFail Leaf
  | base, level =>
    if !p.entry.holds base then .error ⟨level, false, false, true⟩
    else
      let idx := va / 2 ^ (12 + 9 * level) % 512
      let e : DWord := BitVec.ofNat 64 (natOfBytes (g.mem.devBytes (base + 8 * idx) 8))
      if !e.getLsbD 0 then .error ⟨level, false, e.getLsbD 62, false⟩
      else if e.getLsbD 1 then
        match g.leafOf c p base idx level e with
        | some l => .ok l
        | none => .error ⟨level, false, false, true⟩
      else if e.toNat / 2 ^ 48 ≠ 0 || e.getLsbD 2 || e.toNat / 8 % 512 ≠ 0 then .error ⟨level, false, false, true⟩
      else match level with
        | 0 => .error ⟨0, false, false, true⟩
        | l + 1 => g.walkFrom c p va (e.toNat / 4096 % 2 ^ 36 * 4096) l

/-- A whole walk of a context's tables (R389). -/
def Gpu.walk (g : Gpu) (c : Ctx) (va : Nat) : Except WalkFail Leaf :=
  match g.part? c.part with
  | none => .error ⟨3, false, false, true⟩
  | some p => g.walkFrom c p va c.ptroot 3

/-- A TLB entry that covers an address. -/
def tlbHit (tlb : List TlbEntry) (asid va : Nat) : Option Leaf :=
  (tlb.find? fun e => e.asid == asid && e.vpn == va / 2 ^ e.leaf.log).map (·.leaf)

/-- An entry added to a core's L1 TLB of 128 sets of 8 ways: the oldest of a full set leaves (R20, R395). -/
def tlbAddWay (tlb : List TlbEntry) (asid va : Nat) (l : Leaf) : List TlbEntry :=
  let n : TlbEntry := { asid := asid, vpn := va / 2 ^ l.log, leaf := l }
  if tlb.length < 8 then tlb ++ [n]
  else
    let mate := fun (e : TlbEntry) => Config.tlbSet e.asid e.vpn % 128 == Config.tlbSet n.asid n.vpn % 128
    (if 8 ≤ (tlb.filter mate).length then tlb.eraseP mate else tlb) ++ [n]

/-- An entry added; beyond the capacity the oldest leaves (R395). -/
def tlbAdd (tlb : List TlbEntry) (cap asid va : Nat) (l : Leaf) : List TlbEntry :=
  let t := tlb ++ [{ asid := asid, vpn := va / 2 ^ l.log, leaf := l }]
  t.drop (t.length - cap)

/-- The permission an access needs (Table 16.2). -/
def Leaf.permits (l : Leaf) (a : Access) : Bool :=
  match a with
  | .read => true
  | .write | .atomic => l.w
  | .fetch => l.x

/-- The level of the entry that a leaf is (R389, R399). -/
def Leaf.level (l : Leaf) : Nat := if l.log = 30 then 2 else if l.log = 21 then 1 else 0

/-- The translation of an address for a core of a context (R395, R396): from its L1 TLB, its die's TLB, or a walk whose
leaf both then hold. A malformed entry is logged (R393). -/
def Gpu.translate (g : Gpu) (core : Nat) (c : Ctx) (a : Access) (va : Nat) : Gpu × Except WalkFail Leaf :=
  let check := fun (g : Gpu) (l : Leaf) => (g, if l.permits a then .ok l else Except.error ⟨l.level, true, l.rpl, false⟩)
  match tlbHit (g.core core).tlb c.asid va with
  | some l => check g l
  | none =>
    let die := dieOf core
    match tlbHit (if die = 0 then g.mem.lltlb0 else g.mem.lltlb1) c.asid va with
    | some l => check (g.modCore core fun k => { k with tlb := tlbAddWay k.tlb c.asid va l }) l
    | none =>
      match g.walk c va with
      | .error f => (if f.bad then g.logError c.part 2 c.asid core 7 va else g, .error f)
      | .ok l =>
        let g := (g.noteHome l).modCore core fun k => { k with tlb := tlbAddWay k.tlb c.asid va l }
        let g := if die = 0 then { g with mem := { g.mem with lltlb0 := tlbAdd g.mem.lltlb0 131072 c.asid va l } }
                 else { g with mem := { g.mem with lltlb1 := tlbAdd g.mem.lltlb1 131072 c.asid va l } }
        check g l

/-- The location of an address in a leaf's page. -/
def Leaf.phys (l : Leaf) (va : Nat) : Phys := ⟨l.base.sp, l.base.addr + va % 2 ^ l.log⟩

/-- The attributes an access carries. -/
def Leaf.attr (l : Leaf) : Attr := ⟨l.cache, l.wpol, 1 + l.evp.toNat⟩

/-- The first malformed entry that walks of `n` bytes' pages meet is logged (R393): for accesses whose walk keeps no device. -/
def Gpu.logWalk (g : Gpu) (c : Ctx) (core va n : Nat) : Gpu :=
  let bad := fun (a : Nat) => match g.walk c a with | .error f => f.bad | .ok _ => false
  match ((List.range (n / 4096 + 2)).map fun i => if i = 0 then va else (va / 4096 + i) * 4096).find? fun a =>
      a < va + n && decide (a < 0xFF0000000000) && bad a with
  | some a => g.logError c.part 2 c.asid core 7 a
  | none => g

/-- A hub unit's translation (R397): through the hub's cache. Hub units reach no peer page. -/
def Gpu.hubTranslate (g : Gpu) (c : Ctx) (a : Access) (va : Nat) : Option Leaf :=
  let l := match tlbHit g.mem.hubtlb c.asid va with
    | some l => some l
    | none => match g.walk c va with | .ok l => some l | .error _ => none
  l.filter fun l => l.permits a && match l.base.sp with | .peer _ _ => false | _ => true

/-- `n` bytes at a virtual address of a context, read by a hub unit at the home slices; none when a byte does not
translate or is poisoned. -/
def Gpu.hubRead (g : Gpu) (c : Ctx) (va n : Nat) : Option (List Byte) :=
  (List.range n).mapM fun i =>
    if 0xFF0000000000 ≤ va + i then none
    else (g.hubTranslate c .read (va + i)).bind fun l =>
      let p := l.phys (va + i)
      if g.poisoned p.line then none else some (g.homeByte p)

/-- The hub's cache keeps the translation of a page that a hub unit wrote (R395, R396). -/
def Gpu.hubFill (g : Gpu) (c : Ctx) (va : Nat) : Gpu :=
  match tlbHit g.mem.hubtlb c.asid va, g.hubTranslate c .write va with
  | none, some l => ({ g with mem := { g.mem with hubtlb := tlbAdd g.mem.hubtlb 1024 c.asid va l } } : Gpu).noteHome l
  | _, _ => g

/-- Bytes written by a hub unit at a virtual address of a context; none when one does not translate. -/
def Gpu.hubWrite (g : Gpu) (c : Ctx) (va : Nat) (bs : List Byte) : Option Gpu :=
  ((bs.zipIdx).mapM fun x =>
    if 0xFF0000000000 ≤ va + x.2 then none else (g.hubTranslate c .write (va + x.2)).map fun l => (l.phys (va + x.2), x.1)).map fun cs =>
      (g.homeStore false false cs).hubFill c va

/-- Bytes written by a hub unit; where a malformed entry keeps them from being written, it is logged (R393). DESIGN CHOICE (log 116): what
does not translate or may not be written is dropped; (log 122): a hub unit's writes find ways in L2 at once. -/
def Gpu.hubPut (g : Gpu) (c : Ctx) (va : Nat) (bs : List Byte) : Gpu := (g.hubWrite c va bs).getD (g.logWalk c 0xFFFF va bs.length)

/-- One entry of a TLB dropped, which may happen at any time (R396). -/
def Gpu.dropTlbEntry (g : Gpu) (tlb i : Nat) : Gpu :=
  if tlb = 192 then { g with mem := { g.mem with lltlb0 := g.mem.lltlb0.eraseIdx i } }
  else if tlb = 193 then { g with mem := { g.mem with lltlb1 := g.mem.lltlb1.eraseIdx i } }
  else if tlb = 194 then { g with mem := { g.mem with hubtlb := g.mem.hubtlb.eraseIdx i } }
  else g.modCore tlb fun c => { c with tlb := c.tlb.eraseIdx i }

/-- Translations of an ASID dropped where `f` holds of the core, and beyond (R359, R397). -/
def Gpu.dropTlb (g : Gpu) (asid : Nat) (page : Option Nat) (f : Nat → Bool) (dies : List Nat) (hub : Bool) : Gpu :=
  let keep := fun (e : TlbEntry) => e.asid != asid || (match page with
    | none => false
    | some va => e.vpn != va / 2 ^ e.leaf.log)
  let g := g.mapCores fun n c => if f n then { c with tlb := c.tlb.filter keep } else c
  { g with mem := { g.mem with
      lltlb0 := if dies.contains 0 then g.mem.lltlb0.filter keep else g.mem.lltlb0,
      lltlb1 := if dies.contains 1 then g.mem.lltlb1.filter keep else g.mem.lltlb1,
      hubtlb := if hub then g.mem.hubtlb.filter keep else g.mem.hubtlb } }

/-! ### Fault records (R398 to R400) -/

/-- A replayable fault joins an unanswered record of its ASID, page and class, or posts its own; the device and the
record's number (R400). -/
def Gpu.joinFault (g : Gpu) (c : Ctx) (core va : Nat) (a : Access) (f : WalkFail) (t : Option TRef) (op : Option Nat) : Gpu × Nat :=
  match g.part? c.part with
  | none => (g, 0)
  | some p =>
    match p.faults.find? fun r => r.asid == c.asid && r.va / 4096 == va / 4096 && r.access == a.code with
    | some r =>
      let add := fun (x : FaultRec) =>
        if x.seq = r.seq then { x with lanes := x.lanes ++ t.toList, ops := x.ops ++ op.toList } else x
      (g.modPart c.part fun p => { p with faults := p.faults.map add }, r.seq)
    | none =>
      let r : FaultRec :=
        { seq := p.faultSeq, va := va, asid := c.asid, access := a.code, cause := (if f.perm then 1 else 0) + 2 * f.level,
          core := core, ctx := c.slot, lanes := t.toList, ops := op.toList, conns := [], written := false }
      (g.modPart c.part fun p => { p with faultSeq := (p.faultSeq + 1) % 2 ^ 32, faults := p.faults ++ [r] }, r.seq)

/-! ### Outcomes of a word for one thread -/

/-- Why a word does not issue yet, though nothing parks its threads: an earlier access of one of them, or an acknowledgement, holds it back
(R114, R209, R421); bytes that it reads at issue come by a remote read (R421); or a line finds no way in L2 (R406). -/
inductive Hold
  | order
  | read (pages : List (Nat × Leaf)) (ps : List Phys)
  | fill (k : LineKey)
  deriving DecidableEq, Repr

/-- What a word does to one thread: it completes, the thread parks before the word, it traps, or the whole word does not issue yet. -/
inductive Fate
  | done
  | wait (w : Wait)
  | trap (k : Trap)
  | hold (h : Hold)
  deriving DecidableEq, Repr

/-- The trap of a translation fault that is not served (R398, Table 14.4). -/
def transTrap (a : Access) (perm : Bool) (va : DWord) : Trap :=
  ⟨.translation, BitVec.ofNat 16 (a.code + (if perm then 4 else 0)), va, false⟩

/-! ### Regions and the checks of Table 7.1 -/

/-- Regions of Table 4.1. -/
inductive Region | mem (va : Nat) | scratch (off : Nat) | bad
  deriving DecidableEq, Repr

/-- The region of an address (R93). -/
def region (a : DWord) : Region :=
  let n := a.toNat
  if n < 0xFF0000000000 then .mem n
  else if n < 0xFF0001000000 then .scratch (n - 0xFF0000000000)
  else .bad

/-- Which regions an entry allows. -/
inductive Allow | any | memOnly | scratchOnly
  deriving DecidableEq, Repr

/-- Checks of Table 7.1, orders 2 to 4: the region, the alignment `al` (to be met in memory only when `memAl`), and
SCRATCHWG over `size` bytes. An access in memory does not run on into the scratchpad window (R93). -/
def checkAddr (allow : Allow) (al : Nat) (memAl : Bool) (size scratchLen : Nat) (a : DWord) : Except Trap Region :=
  match region a with
  | .bad => .error (.at .address a)
  | .mem va =>
    if allow = .scratchOnly || 0xFF0000000000 < va + size then .error (.at .address a)
    else if memAl && va % al ≠ 0 then .error (.at .alignment a)
    else .ok (.mem va)
  | .scratch o =>
    if allow = .memOnly then .error (.at .address a)
    else if o % al ≠ 0 then .error (.at .alignment a)
    else if scratchLen < o + size then .error (.at .scratchRange a)
    else .ok (.scratch o)

/-- The leaves of the pages that `size` bytes at `va` touch (R118, R397), with the first failure: the faulting address and
why. -/
def Gpu.leaves (g : Gpu) (core : Nat) (c : Ctx) (a : Access) : Nat → Nat → Nat → Gpu × Except (Nat × WalkFail) (List (Nat × Leaf))
  | 0, _, _ => (g, .ok [])
  | fuel + 1, va, stop =>
    if stop ≤ va then (g, .ok [])
    else if 0xFF0000000000 ≤ va then (g, .error (va, ⟨3, false, false, false⟩))
    else
      match g.translate core c a va with
      | (g, .error f) => (g, .error (va, f))
      | (g, .ok l) =>
        let base := va / 2 ^ l.log * 2 ^ l.log
        match g.leaves core c a fuel (base + 2 ^ l.log) stop with
        | (g, .error e) => (g, .error e)
        | (g, .ok ls) => (g, .ok ((base, l) :: ls))

/-- The leaf that covers an address among translations captured. -/
def findLeaf (ls : List (Nat × Leaf)) (va : Nat) : Option Leaf :=
  (ls.find? fun x => x.1 ≤ va && va < x.1 + 2 ^ x.2.log).map (·.2)

/-- Order 6 of Table 7.1 for a thread: the captured leaves, or the fate of the lane: a park on a fault record when the
entry is replayable (R355), otherwise the trap. -/
def Gpu.pages (g : Gpu) (t : TRef) (core : Nat) (c : Ctx) (a : Access) (va size : Nat) : Gpu × Except Fate (List (Nat × Leaf)) :=
  match g.leaves core c a (size / 4096 + 2) va (va + size) with
  | (g, .ok ls) => (g, .ok ls)
  | (g, .error (fa, f)) =>
    if f.rpl then
      let (g, n) := g.joinFault c core fa a f (some t) none
      (g, .error (.wait (.fault c.part n g.cur.word (BitVec.ofNat 64 fa))))
    else (g, .error (.trap (transTrap a f.perm (BitVec.ofNat 64 fa))))

/-- The locations of `size` bytes at `va` under captured leaves. -/
def physOf (ls : List (Nat × Leaf)) (va size : Nat) : List Phys :=
  (List.range size).map fun i => ((findLeaf ls (va + i)).map fun l => l.phys (va + i)).getD ⟨.dev, 0⟩

/-- An endpoint of a context's table that is valid (R420): its entry's bytes. -/
def Gpu.endpoint (g : Gpu) (c : Ctx) (ep : Nat) : Option (List Byte) :=
  if c.nept ≤ ep then none
  else (g.hubRead c (c.eptab.toNat + 16 * ep) 16).filter fun h =>
    field h 4 1 / 128 == 1 && field h 4 1 / 4 % 32 == 0 && field h 5 1 / 64 == 0 && zeroAt h 7 1 && zeroAt h 0xA 6

/-- Whether a connection is with the remote endpoint that an entry names (R420). -/
def Conn.names (k : Conn) (h : List Byte) : Bool := k.peer == field h 0 2 && k.rpart == field h 4 1 % 4 && k.rasid == field h 2 2

/-- Whether an endpoint is valid and connected with the one that its entry names (R420). -/
def Gpu.connected (g : Gpu) (c : Ctx) (ep : Nat) : Bool :=
  (g.endpoint c ep).any fun h => g.fabric.conns.any fun k => k.ctx == c.slot && k.ep == ep && k.names h

/-- A malformed page table entry that keeps an endpoint's entry from being read is logged (R393). -/
def Gpu.logEnd (g : Gpu) (c : Ctx) (ep : Nat) : Gpu := if ep < c.nept then g.logWalk c 0xFFFF (c.eptab.toNat + 16 * ep) 16 else g

/-- Whether a peer location's endpoint is not valid, or has no connection (R420). -/
def Gpu.unlinked (g : Gpu) (ps : List Phys) : Bool :=
  ps.any fun p => match p.sp with
    | .peer ctx ep => !((g.ctx? ctx).any fun c => g.connected c ep)
    | _ => false

/-- What reading the endpoints of peer locations logs (R393). -/
def Gpu.logEnds (g : Gpu) (ps : List Phys) : Gpu :=
  ((ps.map Phys.sp).dedup).foldl (fun g sp => match sp with
    | .peer ctx ep => ((g.ctx? ctx).map fun c => g.logEnd c ep).getD g
    | _ => g) g

/-- What an access reaches: the scratchpad, or memory under captured leaves. -/
inductive Target
  | scratch (o : Nat)
  | mem (ls : List (Nat × Leaf)) (ps : List Phys)
  deriving DecidableEq, Repr

/-- What holds an access to memory back: an earlier access or fence of the thread, or a line without a way in L2 (R406). -/
def Gpu.holds (g : Gpu) (t : TRef) (core : Nat) (acc : Access) (ps : List Phys) : Option Hold :=
  if g.heldBack t then some .order else (if acc = .atomic then g.homeWait core t ps else g.fillWait core false ps).map .fill

/-- Orders 2 to 6 of Table 7.1 for one access of a thread, the connection of a peer page among them when `link` asks for it (R420);
then what holds the access back. -/
def Gpu.reachAs (link : Bool) (g : Gpu) (t : TRef) (core ctx : Nat) (allow : Allow) (al : Nat) (memAl : Bool) (size : Nat) (acc : Access) (a : DWord) :
    Gpu × Except Fate Target :=
  match g.wg? t.wg, g.ctx? ctx with
  | some w, some c =>
    match checkAddr allow al memAl size w.scratchLen a with
    | .error k => (g, .error (.trap k))
    | .ok .bad => (g, .error (.trap (.at .address a)))
    | .ok (.scratch o) => (g, .ok (.scratch o))
    | .ok (.mem va) =>
      match g.pages t core c acc va size with
      | (g, .error f) => (g, .error f)
      | (g, .ok ls) =>
        let ps := physOf ls va size
        if link && g.unlinked ps then (g.logEnds ps, .error (.trap (.at .copyTarget a)))
        else match g.holds t core acc ps with
          | some h => (g, .error (.hold h))
          | none => (g, .ok (.mem ls ps))
  | _, _ => (g, .error (.trap (.at .address a)))

/-- Orders 2 to 6 of Table 7.1 for one access of a thread. -/
abbrev Gpu.reach := Gpu.reachAs true

/-- The first poisoned byte among locations (R365): its index. -/
def Gpu.firstPoison (g : Gpu) (ps : List Phys) : Option Nat := ps.findIdx? fun p => g.poisoned p.line

/-! ### The scratchpad (R94, R99) and transaction-barrier blocks (R129, R130) -/

/-- A byte of the scratchpad as a load sees it: bytes 0 to 7 of a barrier read zero (R129). -/
def Wg.scratchByte (w : Wg) (o : Nat) : Byte :=
  if w.tbars.contains (o / 16) && o % 16 < 8 then 0 else w.scratch.byte o

/-- Bytes of the scratchpad from an offset. -/
def Wg.scratchBytes (w : Wg) (o n : Nat) : List Byte := (List.range n).map fun i => w.scratchByte (o + i)

/-- The poison bit of the barrier block `k` set (R130, R131). -/
def Wg.poisonBar (w : Wg) (k : Nat) : Wg :=
  { w with scratch := w.scratch.setByte (16 * k + 15) (w.scratch.byte (16 * k + 15) ||| 0x08) }

/-- A byte stored to the scratchpad: to a barrier's bytes 0 to 7 it has no effect, and bits 122..120 stay zero (R130). -/
def Wg.pokeScratch (w : Wg) (o : Nat) (b : Byte) : Wg :=
  if w.tbars.contains (o / 16) then
    if o % 16 < 8 then w
    else { w with scratch := w.scratch.setByte o (if o % 16 = 15 then b &&& 0xF8 else b) }
  else { w with scratch := w.scratch.setByte o b }

/-- The waiters of a barrier block (R131). -/
def Gpu.tbarWaiters (g : Gpu) (wg k : Nat) : List TRef :=
  g.waiters fun t w => t.wg == wg && match w with | .tbar o _ _ => o == 16 * k | _ => false

/-- A workgroup whose threads may issue (R27, R49). -/
def Gpu.started (g : Gpu) (wg : Nat) : Bool := (g.wg? wg).any fun w => w.time.since.isSome

/-- A thread that has entered its trap handler goes on in a bundle of its own in the active set (Table 2.3); one whose workgroup may not
issue yet becomes READY when it may (R49). -/
def Gpu.runAlone (g : Gpu) (core launch : Nat) (t : TRef) (pc : DWord) : Gpu :=
  if g.started t.wg then
    let b : Bundle := { members := [t], launch := launch, mode := .trap, pc := pc, entry := false, order := g.nextId, issued := 0, timer := 0 }
    (g.fresh).modCore core fun c => { c with active := c.active ++ [b] }
  else g.wake [t]

/-- A waiter of a poisoned barrier takes the barrier-poison trap of its own `tbwt` word (R131). In trap mode it issues the
word again, which then finds the poison (R354), and so does one whose workgroup is saved or not yet started. -/
def Gpu.trapWaiter (g : Gpu) (t : TRef) : Gpu :=
  match g.thread? t, g.wg? t.wg with
  | some th, some w =>
    match th.status with
    | .parked (.tbar _ pc word) =>
      if th.mode = .trap || w.time.since.isNone then g.setThread t { th with pc := pc, status := .parked .clear }
      else
        let tvec := ((g.ctx? w.ctx).map Ctx.tvec).getD 0
        let th := th.takeTrap tvec (.of .barPoison) pc word (th.pc - pc).toNat ((1 : Word) <<< t.lane)
        (g.setThread t th).runAlone (w.core?.getD 0) w.launch t th.pc
    | _ => g
  | _, _ => g

/-- The waiters of a poisoned barrier trap (R131). -/
def Gpu.trapWaiters (g : Gpu) (wg k : Nat) : Gpu := (g.tbarWaiters wg k).foldl Gpu.trapWaiter g

/-- Bytes stored to a workgroup's scratchpad (R99, R130): a store to bytes 8 to 15 of a barrier with waiters poisons
it. -/
def Gpu.scratchStore (g : Gpu) (wg o : Nat) (bs : List Byte) : Gpu :=
  let g := g.modWg wg fun w => (bs.zipIdx).foldl (fun w x => w.pokeScratch (o + x.2) x.1) w
  match g.wg? wg with
  | none => g
  | some w =>
    let ks := ((List.range bs.length).filter fun i => 8 ≤ (o + i) % 16 && w.tbars.contains ((o + i) / 16)).map fun i => (o + i) / 16
    ks.dedup.foldl (fun g k => if (g.tbarWaiters wg k).isEmpty then g else (g.modWg wg (·.poisonBar k)).trapWaiters wg k) g

/-! ### Structures read by asynchronous units (R269) -/

/-- What a read of a structure gives: bytes, with the first poisoned address among them (whose bytes read zero, R269); a
replayable fault to be served first; peer locations to be read first (R421); a line that finds no way in L2 (R406); or a failure (reason
0x6). -/
inductive Read
  | ok (bs : List Byte) (poison : Option Nat)
  | fault (va : Nat) (f : WalkFail)
  | peer (ps : List Phys)
  | fill (k : LineKey)
  | fail
  deriving DecidableEq, Repr

/-- Peer locations that remote reads have not brought yet. -/
def missing (got : List (Phys × Byte)) (ps : List Phys) : List Phys :=
  ps.filter fun p => match p.sp with | .peer _ _ => !(got.any fun x => x.1 == p) | _ => false

/-- A byte as a structure read of a thread's operation sees it (R127, R269, R292): as a remote read brought it, else the thread's own
FIFO's youngest, its core's dirty L1 byte, or the home's. -/
def Gpu.structByte (g : Gpu) (core : Nat) (t : TRef) (got : List (Phys × Byte)) (p : Phys) : Byte :=
  match got.find? fun x => x.1 == p with
  | some x => x.2
  | none => g.seeByte core t true p

/-- The leaves that translation gives for the pages from `va` to `stop` that no captured leaf covers. -/
def Gpu.restLeaves (g : Gpu) (pages : List (Nat × Leaf)) (core : Nat) (c : Ctx) : Nat → Nat → Nat → Except (Nat × WalkFail) (List (Nat × Leaf))
  | 0, _, _ => .ok []
  | fuel + 1, va, stop =>
    if stop ≤ va then .ok []
    else match pages.find? fun x => x.1 ≤ va && va < x.1 + 2 ^ x.2.log with
      | some x => g.restLeaves pages core c fuel (x.1 + 2 ^ x.2.log) stop
      | none =>
        if 0xFF0000000000 ≤ va then .error (va, ⟨3, false, false, false⟩)
        else match (g.translate core c .read va).2 with
          | .error f => .error (va, f)
          | .ok l =>
            let base := va / 2 ^ l.log * 2 ^ l.log
            (g.restLeaves pages core c fuel (base + 2 ^ l.log) stop).map fun ls => (base, l) :: ls

/-- The leaves for `n` bytes at an address: those captured at issue (R397), and for pages that they do not cover those that translation
gives. -/
def Gpu.leavesWith (g : Gpu) (pages : List (Nat × Leaf)) (core : Nat) (c : Ctx) (va n : Nat) : Except (Nat × WalkFail) (List (Nat × Leaf)) :=
  (g.restLeaves pages core c (2 * (n / 4096) + 4) va (va + n)).map fun ls => pages ++ ls

/-- A byte at its home, or as a remote read brought it. -/
def Gpu.byteWith (g : Gpu) (got : List (Phys × Byte)) (p : Phys) : Byte :=
  ((got.find? fun x => x.1 == p).map (·.2)).getD (g.homeByte p)

/-- `n` bytes at an address of a thread's context, read under R127 or in its scratchpad, aligned to `al` (R269). An endpoint that is not
connected is a failure (R420). `refused`: a refused fault counts as a failure; `got`: what remote reads have brought; `pages`: translations captured at issue. -/
def Gpu.readAt (g : Gpu) (t : TRef) (refused : Bool) (got : List (Phys × Byte)) (pages : List (Nat × Leaf)) (a : DWord) (n al : Nat) : Read :=
  match g.wg? t.wg with
  | none => .fail
  | some w =>
    match g.ctx? w.ctx, checkAddr .any al true n w.scratchLen a with
    | some _, .ok (.scratch o) => .ok (w.scratchBytes o n) none
    | some c, .ok (.mem va) =>
      let core := w.core?.getD 0
      match g.leavesWith pages core c va n with
      | .error (fa, f) => if f.rpl && !refused then .fault fa f else .fail
      | .ok ls =>
        let ps := physOf ls va n
        let miss := missing got ps
        if !miss.isEmpty then (if g.unlinked miss then .fail else .peer miss)
        else if let some k := g.lineWait (ps.map Phys.line) then .fill k
        else .ok (ps.map fun p => if g.poisoned p.line then 0 else g.structByte core t got p) ((g.firstPoison ps).map (va + ·))
    | _, _ => .fail

end Sys2Proof.Machine
end

