-- ==== Sys2Proof/Machine/Packer.lean ====
section
/-! DEFINITION. What threads of a workgroup, a gang and a launch do to one another: rejoin masks (02 R41), workgroup and gang
barriers (02 R43, R44, R50), the Chairlift packer (02 R54 to R57), the end of a thread, a workgroup, a gang and a launch
(02 R28, R51, R57; 15 R447), and the fences of workgroups and contexts (02 R62; 14 R363). -/

namespace Sys2Proof.Machine

open Sys2Proof

/-! ### Bundles -/

/-- A bundle made of threads directly, at the tail of a core's pending order. -/
def Gpu.addBundle (g : Gpu) (core : Nat) (ms : List TRef) (launch : Nat) (mode : Mode) (pc : DWord) : Gpu :=
  let b : Bundle := { members := ms, launch := launch, mode := mode, pc := pc, entry := false, order := g.nextId, issued := 0, timer := 0 }
  (g.fresh).modCore core fun c => { c with pending := c.pending ++ [b] }

/-- Threads taken out of every bundle of a core. -/
def Gpu.unbundle (g : Gpu) (core : Nat) (ts : List TRef) : Gpu :=
  let strip := fun (b : Bundle) => { b with members := b.members.filter fun m => !ts.contains m }
  let live := fun (b : Bundle) => !b.members.isEmpty
  g.modCore core fun c => { c with active := (c.active.map strip).filter live, pending := (c.pending.map strip).filter live }

/-- A thread owes the park of its word's switch marker, and has a result outstanding or a deferred trap pending (R147, R352). -/
def Thread.lingers (th : Thread) : Bool := th.owes && (th.hasPend || !(th.due ++ th.deferred).isEmpty)

/-- Threads made READY together, built directly into one bundle for each mode and PC among them (R30, R34, R40); one that
still owes the park of its word's switch marker ends that park first (R147), and those of a workgroup that is on no core become READY
when it is back (R35). -/
def Gpu.releaseAsBundle (g : Gpu) (core : Nat) (ts : List TRef) : Gpu :=
  let seated := fun (u : TRef) => (g.wg? u.wg).any fun w => w.core?.isSome
  let late := ts.filter fun u => !seated u || (g.thread? u).any Thread.lingers
  let now := ts.filter fun u => !late.contains u
  let g := g.mapThreads fun u x =>
    if late.contains u then { x with status := .parked (if x.lingers && x.hasPend then .switch else .clear) }
    else if now.contains u then { x with status := .ready, owes := false } else x
  let key := fun (u : TRef) => (g.thread? u).map fun x => (x.mode, x.pc)
  let launch := ((ts.head?.bind fun t => g.wg? t.wg).map Wg.launch).getD 0
  ((now.filterMap key).dedup).foldl (fun g k => g.addBundle core (now.filter fun u => key u == some k) launch k.1 k.2) g

/-- Array stalls of a core pair whose condition may have cleared: each team's members become READY together (R34). -/
def Gpu.wakeArrays (g : Gpu) (core : Nat) (f : ArrWait → Bool) : Gpu :=
  let ws := g.waiters fun t w => pairOf (g.coreOf t) == pairOf core && match w with | .array a => f a | _ => false
  ((ws.map fun t => (t.wg, t.team)).dedup).foldl (fun g tm =>
    let ts := sortLanes (ws.filter fun t => t.wg == tm.1 && t.team == tm.2)
    g.releaseAsBundle ((ts.head?.map g.coreOf).getD 0) ts) g

/-- Stalls that the end of an array operation may clear. -/
def waitsArray : ArrWait → Bool
  | .follower | .tile _ | .order => true
  | _ => false

/-! ### Rejoin masks (R41) -/

/-- The rejoin mask k of a team. -/
def Wg.mask (w : Wg) (j k : Nat) : RMask := ((w.teams[j]?.map Team.masks).bind fun m => m[k]?).getD ⟨0, 0⟩

/-- A rejoin mask written. -/
def Wg.setMask (w : Wg) (j k : Nat) (m : RMask) : Wg := w.modTeam j fun t => { t with masks := t.masks.set k m }

/-- Every lane of MASK is in ARRIVED or holds no live thread of the team (R41). -/
def Gpu.maskComplete (g : Gpu) (wg j : Nat) (m : RMask) : Bool :=
  let live := (g.liveSet wg j).map TRef.lane
  (List.range 32).all fun l => !m.mask.getLsbD l || m.arrived.getLsbD l || !live.contains l

/-- The completion test of a rejoin mask: the waiting threads become READY together as one bundle (R41). -/
def Gpu.testMask (g : Gpu) (wg j k : Nat) : Gpu :=
  match g.wg? wg with
  | none => g
  | some w =>
    let m := w.mask j k
    if m.arrived != 0 && g.maskComplete wg j m then
      let ts := sortLanes (g.waiters fun t x => t.wg == wg && t.team == j && x == .rejoin k)
      let g := g.modWg wg fun w => w.setMask j k { m with arrived := 0 }
      g.releaseAsBundle (w.core?.getD 0) ts
    else g

/-! ### Barriers (R43, R44, R50) -/

/-- The completion test of a workgroup barrier (R43, R44): a barrier whose E is zero completes a phase as soon as it has a waiter or
an arrival. -/
def Gpu.testBar (g : Gpu) (wg b : Nat) : Gpu :=
  match (g.wg? wg).bind fun w => w.bars[b]? with
  | none => g
  | some x =>
    let ws := g.waiters fun t w => t.wg == wg && w == .barrier b
    if x.e ≤ x.a && (x.a ≠ 0 || !ws.isEmpty) then
      let y := { x with phase := !x.phase, a := 0, arr := 0 }
      (g.modWg wg fun w => { w with bars := w.bars.set b y }).wake ws
    else g

/-- A barrier arrival (R43): the bits set, A raised, the phase noted; the completion test follows. -/
def Gpu.arriveBar (g : Gpu) (t : TRef) (b : Nat) (x : Bar) : Gpu :=
  let bit := (1 : BitVec 1024) <<< t.tid
  let y := { x with a := x.a + 1, arr := x.arr ||| bit, parts := x.parts ||| bit,
                    last := (t.tid, x.phase) :: x.last.filter fun l => l.1 != t.tid }
  g.modWg t.wg fun w => { w with bars := w.bars.set b y }

/-- A participant's exit is deducted from a barrier (R44). DESIGN CHOICE (log 99): an E that is already zero, after a `barinit` with N
below the number of threads that use the barrier, stays zero. -/
def Gpu.leaveBar (g : Gpu) (t : TRef) (b : Nat) : Gpu :=
  match (g.wg? t.wg).bind fun w => w.bars[b]? with
  | none => g
  | some x =>
    if x.parts.getLsbD t.tid then
      let bit := (1 : BitVec 1024) <<< t.tid
      let y := { x with e := x.e - 1, a := if x.arr.getLsbD t.tid then x.a - 1 else x.a,
                        arr := x.arr &&& ~~~bit, parts := x.parts &&& ~~~bit }
      (g.modWg t.wg fun w => { w with bars := w.bars.set b y }).testBar t.wg b
    else g

/-- One gang of a launch changed. -/
def Gpu.modGang (g : Gpu) (launch gang : Nat) (f : Gang → Gang) : Gpu :=
  g.modLaunch launch fun l => { l with gangs := l.gangs.map fun x => if x.idx = gang then f x else x }

/-- Threads waiting at a gang's barrier. -/
def Gpu.gangWaiters (g : Gpu) (launch gang : Nat) : List TRef :=
  g.waiters fun t w => w == .gang gang && ((g.wg? t.wg).map Wg.launch == some launch)

/-- The completion test of a gang barrier (R50): its waiters become READY, with an acquire on their cores. -/
def Gpu.testGang (g : Gpu) (launch gang : Nat) : Gpu :=
  match (g.launch? launch).bind fun l => l.gangs.find? fun x => x.idx == gang with
  | none => g
  | some x =>
    let ws := g.gangWaiters launch gang
    if (x.e ≠ 0 && x.e ≤ x.arr.length) || (x.e = 0 && !ws.isEmpty) then
      let g := ((ws.map g.coreOf).dedup).foldl (fun g c => g.acquire c .dev) g
      (g.modGang launch gang fun x => { x with phase := !x.phase, arr := [] }).wake ws
    else g

/-- A thread is deducted from every gang barrier of its workgroup (R50). -/
def Gpu.leaveGangs (g : Gpu) (t : TRef) : Gpu :=
  match g.wg? t.wg with
  | none => g
  | some w =>
    if w.node.isSome then g
    else
      match g.launch? w.launch with
      | none => g
      | some l => (l.gangs.filter fun x => x.members.contains w.index).foldl (fun g x =>
          (g.modGang l.id x.idx fun x => { x with e := x.e - 1, arr := x.arr.filter (· != t) }).testGang l.id x.idx) g

/-! ### The pool and the packer (R54 to R57) -/

/-- The packer's state of a node. -/
def Launch.pack (l : Launch) (n : Nat) : Pack := l.packs[n]?.getD ⟨[], 0, 0, 0⟩

/-- A node's packer state changed. -/
def Launch.modPack (l : Launch) (n : Nat) (f : Pack → Pack) : Launch := { l with packs := l.packs.modify n f }

/-- A record drawn for a spawn into node n (R54): by a root-grid thread from the general part; by a node thread from the
general part, or from the node's reserve. `k` says which of those on offer (log 30). -/
def Launch.draw (l : Launch) (root : Bool) (n k : Nat) : Option (Launch × Nat × Option Nat) :=
  if l.general.isEmpty then
    if root then none
    else ((l.reserve.find? fun x => x.1 == n).map (·.2)).bind fun is =>
      is[k]?.map fun i => ({ l with reserve := l.reserve.map fun x => if x.1 = n then (n, is.eraseIdx k) else x }, i, some n)
  else l.general[k]?.map fun i => ({ l with general := l.general.eraseIdx k }, i, none)

/-- Records on offer to a spawn. -/
def Launch.offer (l : Launch) (root : Bool) (n : Nat) : Nat :=
  if l.general.isEmpty then (if root then 0 else (((l.reserve.find? fun x => x.1 == n).map (·.2)).getD []).length)
  else l.general.length

/-- Records returned to the parts they came from (R54, R57). -/
def Launch.giveBack (l : Launch) (rs : List Rec) : Launch :=
  rs.foldl (fun l r => match r.part with
    | none => { l with general := l.general ++ [r.idx] }
    | some n => { l with reserve := l.reserve.map fun x => if x.1 = n then (n, x.2 ++ [r.idx]) else x }) l

/-- A node's partial batch launched: it takes the next batch number and waits to be placed (R56). -/
def Launch.launchBatch (l : Launch) (n : Nat) : Launch :=
  let p := l.pack n
  if p.recs.isEmpty then l
  else ({ l with queue := l.queue ++ [(n, p.nextNo, p.recs)] } : Launch).modPack n fun p => { p with recs := [], nextNo := p.nextNo + 1 }

/-- FULL and DRY (R56): a batch of BATCH records, and every partial batch while a spawn is parked. DESIGN CHOICE (log 118): batches of
several nodes that are due at one moment launch in ascending node index. -/
def Launch.packRules (l : Launch) : Launch :=
  (List.range l.nodes.length).foldl (fun l n =>
    let full := match l.nodes[n]? with | some nd => decide (nd.batch ≤ (l.pack n).recs.length) | none => false
    if full || !l.parked.isEmpty then l.launchBatch n else l) l

/-- The 80 bytes of a pool record (Table 2.8). -/
def recordBytes (node len seq srcwg srctid srcnode : Nat) (data : List Byte) : List Byte :=
  bytesOfNat 2 node ++ bytesOfNat 2 len ++ bytesOfNat 4 seq ++ bytesOfNat 4 srcwg ++ bytesOfNat 2 srctid ++
  bytesOfNat 1 srcnode ++ bytesOfNat 1 0 ++ (data ++ List.replicate (64 - data.length) 0).take 64

/-- sr.node's value for a workgroup (Table 2.1). -/
def Wg.nodeNo (w : Wg) : Nat := w.node.getD 0x7F

/-- A spawn accepted with a record drawn (R53, R55): the record written, and put in the node's partial batch. DESIGN CHOICE (log 116): a
record whose address does not translate or may not be written is not, and the spawn is accepted; (log 117): SRCWG holds a batch number
of 2^24 or more whole, where sr.wg shows its low 24 bits. -/
def Gpu.acceptSpawn (g : Gpu) (l : Launch) (w : Wg) (s : PSpawn) (idx : Nat) (part : Option Nat) : Gpu :=
  let g := g.release (w.core?.getD 0) s.t .dev
  let bs := recordBytes s.node s.len l.nextSeq w.index s.t.tid w.nodeNo s.data
  let g := match g.ctx? l.ctx with
    | some c => g.hubPut c (l.desc.pool.toNat + 80 * idx) bs
    | none => g
  let r : Rec := ⟨idx, l.nextSeq, part⟩
  let add := fun (p : Pack) => { p with recs := p.recs ++ [r], since := if p.recs.isEmpty then g.now else p.since }
  g.modLaunch l.id fun _ => ({ l with nextSeq := l.nextSeq + 1 }.modPack s.node add).packRules

/-- A spawn tried (R54): accepted, or refused for want of a record. Which record it takes is not stated: a free choice. -/
def Gpu.trySpawn (g : Gpu) (s : PSpawn) : Option Gpu :=
  (g.wg? s.t.wg).bind fun w => (g.launch? w.launch).bind fun l =>
    let c := g.choose (l.offer w.node.isNone s.node)
    (l.draw w.node.isNone s.node c.2).map fun (l', i, part) => c.1.acceptSpawn l' w s i part

/-- A fragment's spawn counted by its submission, or the parked thread woken (R54, R303). -/
def Gpu.spawnServed (g : Gpu) (s : PSpawn) : Gpu :=
  match s.op with
  | some o => g.modOp o fun o => match o.kind with
    | .rsub d tri y x n => { o with kind := .rsub d tri y x (n + 1) }
    | _ => o
  | none => g.wake [s.t]

/-- Parked spawns served in the order in which they parked (R54); a spawn that is served is parked no more, so its record does not
leave by DRY on its own account (R56, R443). -/
def Gpu.serveParked (g : Gpu) (launch : Nat) : Gpu :=
  match g.launch? launch with
  | none => g
  | some l => l.parked.foldl (fun g s =>
      match (g.modLaunch launch fun l => { l with parked := l.parked.erase s }).trySpawn s with
      | none => g
      | some g => g.spawnServed s) g

/-- A launch is SAVED: its context is, or workgroups of it are and none is on a core (R63, R382). -/
def Gpu.launchSaved (g : Gpu) (l : Launch) : Bool :=
  ((g.ctx? l.ctx).any fun c => c.status == .saved || c.status == .lifted) ||
  (g.wgs.any (fun w => w.launch == l.id && w.place == .saved) && !(g.wgs.any fun w => w.launch == l.id && w.core?.isSome))

/-- Nodes that a node reaches along SUCC in at most `fuel` steps. -/
def Launch.reach (l : Launch) : Nat → DWord → List Nat
  | 0, _ => []
  | fuel + 1, succ =>
    let ns := (List.range l.nodes.length).filter fun n => succ.getLsbD n
    (ns ++ ns.flatMap fun n => l.reach fuel ((l.nodes[n]?.map Node.succ).getD 0)).dedup

/-- Root-grid workgroups still running or waiting. -/
def Gpu.rootOpen (g : Gpu) (l : Launch) : Bool :=
  !l.waiting.isEmpty || g.wgs.any fun w => w.launch == l.id && w.node.isNone && w.place != .gone

/-- A node with a workgroup running or waiting, or with a partial batch. -/
def Launch.nodeOpen (l : Launch) (n : Nat) : Bool :=
  let p := l.pack n
  !p.recs.isEmpty || (l.queue.any fun q => q.1 == n) || p.running != 0

/-- Whether no record can still reach a node (DONE, R56). -/
def Gpu.nodeDone (g : Gpu) (l : Launch) (n : Nat) : Bool :=
  let k := l.nodes.length
  !(g.rootOpen l && (l.reach k l.desc.rootsucc).contains n) &&
  (List.range k).all fun a => !((l.reach k ((l.nodes[a]?.map Node.succ).getD 0)).contains n && l.nodeOpen a)

/-- DONE (R56): the partial batches that no record can still reach launch, in ascending node index (DESIGN CHOICE, log 118). -/
def Gpu.doneBatches (g : Gpu) (launch : Nat) : Gpu :=
  match g.launch? launch with
  | none => g
  | some l => (List.range l.nodes.length).foldl (fun g n =>
      match g.launch? launch with
      | some l => if !(l.pack n).recs.isEmpty && g.nodeDone l n then g.modLaunch launch fun l => l.launchBatch n else g
      | none => g) g

/-! ### The end of a launch (R57, R414, R447) -/

/-- The finish entry of a command formed (R414). -/
def Gpu.postFinish (g : Gpu) (part hseq status ctx : Nat) (value : DWord) : Gpu :=
  (g.post part { hseq := BitVec.ofNat 32 hseq, status := status, detail := 0, kind := 1, ctx := ctx, tier := 0, value := value, time := 0 }).modPart
    part fun p => { p with cmds := p.cmds.map fun c => if c.hseq = hseq then { c with owes := false } else c }

/-- Whether a peer has not acknowledged a store of a launch's threads: it is not known to be visible at system scope (R414, R421). -/
def Gpu.launchOwes (g : Gpu) (launch : Nat) : Bool :=
  g.fabric.conns.any fun c => c.unacked.any fun x => x.by_.any fun b => (g.wg? b.1.wg).any fun w => w.launch == launch

/-- A launch's finish formed once every gang report is written, no peer owes an acknowledgement of its stores and every dirty line finds
a way (R406): its results are made visible first (R414), and releases that wait for it may read (R428). -/
def Gpu.formFinish (g : Gpu) (launch : Nat) : Gpu :=
  match g.launch? launch with
  | none => g
  | some l =>
    match l.fin with
    | none => g
    | some (st, v) =>
      if l.gangs.any (fun x => x.report && !x.written) || g.launchOwes launch || g.dirtyWait then g
      else
        let g := g.cores.foldl (fun g x => g.cleanL1 x.1) g
        let g := g.postFinish l.part l.hseq st l.ctx (BitVec.ofNat 64 v)
        let mark := fun (r : Release) => if r.part = l.part ∧ r.after = l.hseq then { r with formed := true, formedAt := g.ptp } else r
        let clear := fun (x : Launch) => if x.id = launch then { x with fin := none, formedAt := g.ptp } else x
        { g with fabric := { g.fabric with rels := g.fabric.rels.map mark }, launches := g.launches.map clear }

/-- Every finish that may be formed is formed. -/
def Gpu.formFinishes (g : Gpu) : Gpu := (g.launches.map Launch.id).foldl Gpu.formFinish g

/-- A launch ended with a status (R363, R375, R447): its reservation is released. -/
def Gpu.endLaunch (g : Gpu) (launch status : Nat) : Gpu :=
  (g.modLaunch launch fun l => if l.status = .finished then l
    else { l with status := .finished, alloc := none, fin := some (status, g.ptp) }).formFinish launch

/-- The status of a finish that no context fence gives (R447): OK, or the earliest workgroup fence's, ties by rank. -/
def Launch.finStatus (l : Launch) : Nat :=
  match l.fences.foldl (fun (b : Option (Nat × Nat × Nat)) f => match b with
    | none => some f
    | some x => if f.2.1 < x.2.1 || (f.2.1 == x.2.1 && f.2.2 < x.2.2) then some f else b) none with
  | none => 0
  | some f => f.1

/-- R57: the launch finishes when the root grid and every batch have finished and no partial batch holds a record. -/
def Gpu.testLaunch (g : Gpu) (launch : Nat) : Gpu :=
  match g.launch? launch with
  | none => g
  | some l =>
    if l.status = .finished || g.rootOpen l || (List.range l.nodes.length).any l.nodeOpen then g
    else g.endLaunch launch l.finStatus

/-- A gang's members' ends recorded (R51). -/
def Gpu.gangEnd (g : Gpu) (w : Wg) (status : Nat) : Gpu :=
  if w.node.isSome then g
  else
    let note := fun (x : Gang) =>
      if x.members.contains w.index then { x with ends := x.ends ++ [(w.index, status, g.ptp)] } else x
    g.modLaunch w.launch fun l => { l with gangs := l.gangs.map note }

/-- The contents of a finished batch's records, which are no longer specified (R57). -/
def Gpu.blurRecords (g : Gpu) (w : Wg) : Gpu :=
  match g.ctx? w.ctx, g.launch? w.launch with
  | some c, some l => w.recs.foldl (fun g r =>
      let x := g.drawBytes 80
      x.1.hubPut c (l.desc.pool.toNat + 80 * (r / 2)) x.2) g
  | _, _ => g

/-- A workgroup finishes (R28, R57, R62): its tiles, slots and records go back, waiting spawns are served, batches that
nothing can reach any more launch, and the launch may finish. -/
def Gpu.finishWg (g : Gpu) (wg status : Nat) : Gpu :=
  match g.wg? wg with
  | none => g
  | some w =>
    if w.place = .gone then g
    else
      let g := g.modWg wg fun w => { w with place := .gone, endSt := some (status, g.ptp) }
      let g := (g.gangEnd w status).blurRecords w
      let back := fun (l : Launch) =>
        match w.node with
        | none => l
        | some n => (l.giveBack (w.recs.map fun r => ⟨r / 2, 0, if r % 2 = 1 then some n else none⟩)).modPack n fun p => { p with running := p.running - 1 }
      let g := g.modLaunch w.launch back
      ((g.serveParked w.launch).doneBatches w.launch).testLaunch w.launch

/-- Ray slots freed; marcher stalls on their cores may end (R290). -/
def Gpu.freeRays (g : Gpu) (f : Ray → Bool) : Gpu :=
  let cores := (g.rays.filter f).map Ray.core
  let g := { g with rays := g.rays.filter fun r => !f r }
  g.wake (g.waiters fun t w => w == .marcher && cores.contains (g.coreOf t))

/-- A thread's exit is counted (R28): its rays are freed (R290), and it is deducted from rejoin masks, barriers and gang
barriers; the last one finishes the workgroup. -/
def Gpu.countExit (g : Gpu) (t : TRef) : Gpu :=
  let g := g.modThread t fun th => { th with status := .exited }
  let g := g.freeRays fun r => r.owner == t
  let g := (List.range 8).foldl (fun g k => g.testMask t.wg t.team k) g
  let g := (List.range 16).foldl (fun g b => g.leaveBar t b) g
  let g := g.leaveGangs t
  if (g.liveOf t.wg).isEmpty then g.finishWg t.wg 0 else g

/-! ### Fences (R62, R363) -/

/-- The FIFO stores of fenced workgroups on a core: each leaves, and each of its 4-byte words is performed whole or never (R363);
which is not stated, and a free value decides (log 31). -/
def Gpu.cutFifo (g : Gpu) (f : Nat → Bool) (core : Nat) : Gpu :=
  let q := (g.core core).fifo
  let ts := ((q.map FifoEntry.t).filter fun t => f t.wg).dedup
  if ts.isEmpty then g
  else
    let r := parting q.reverse ts []
    let cut := fun (x : FifoEntry × Nat) =>
      if f x.1.t.wg then { x.1 with cells := x.1.cells.filter fun c => (Config.freeWord (g.free + x.2)).getLsbD (c.1.addr / 4 % 32) } else x.1
    { g with free := g.free + r.1.length }.leaveFifo core (r.1.zipIdx.map cut, r.2)

/-- Packets of operations that are discarded stay sent: they count as stores of the thread that issued the operation. -/
def Conn.orphan (ops : List Op) (c : Conn) : Conn :=
  let of := fun (x : Sent) => match ops.find? fun o => x.op == some o.id with
    | some o => { x with op := none, by_ := some (o.owner, o.pc, o.word) }
    | none => x
  { c with unacked := c.unacked.map of }

/-- Everything a set of workgroups has in flight is discarded: bundles, stores in FIFOs word by word, operations, sequencers, rays,
grants, requests, parked spawns and fault lanes (R363), once their threads have stopped; what their array operations held back in others
goes on. -/
def Gpu.discardWork (g : Gpu) (f : Nat → Bool) : Gpu :=
  let cores := (g.cores.map (·.1)).filter fun n => g.wgs.any fun w => f w.id && w.place == .core n
  let g := (g.cores.map (·.1)).foldl (Gpu.cutFifo · f) g
  let dead := g.ops.filter fun o => f o.owner.wg
  let gone := dead.map Op.id
  let strip := fun (b : Bundle) => { b with members := b.members.filter fun m => !f m.wg }
  let live := fun (b : Bundle) => !b.members.isEmpty
  let seqs := fun (q : Option Seq) => q.filter fun x => !f x.wg
  let g := { g with
    ops := g.ops.filter (fun o => !f o.owner.wg),
    fabric := { g.fabric with conns := g.fabric.conns.map (Conn.orphan dead) },
    gov := { g.gov with reqs := g.gov.reqs.filter fun r => !f r.wg } }
  let g := g.mapCores fun _ c => { c with
    active := (c.active.map strip).filter live, pending := (c.pending.map strip).filter live,
    arrq := c.arrq.filter (fun i => !gone.contains i), seqA := seqs c.seqA, seqC := seqs c.seqC }
  let unpark := fun (l : Launch) => { l with parked := l.parked.filter fun s => !f s.t.wg }
  let unlane := fun (r : FaultRec) => { r with lanes := r.lanes.filter (fun t => !f t.wg), ops := r.ops.filter fun i => !gone.contains i }
  let unfault := fun (p : Part) => { p with faults := p.faults.map unlane }
  let g := ({ g with launches := g.launches.map unpark, parts := g.parts.map unfault } : Gpu).freeRays fun r => f r.owner.wg
  cores.foldl (fun g n => g.wakeArrays n fun a => waitsArray a || match a with | .sequencer _ => true | _ => false) g

/-- Threads of workgroups stopped for good (R62, R363). -/
def Gpu.stopThreads (g : Gpu) (f : Nat → Bool) : Gpu :=
  g.mapThreads fun t th => if f t.wg && th.status != .exited then { th with status := .stopped, pend := [], outst := [], resv := none } else th

/-- The rank of a workgroup among fences of one instant (R447). -/
def Wg.rank (w : Wg) : Nat := (match w.node with | none => 0 | some n => n + 1) * 2 ^ 24 + w.index

/-- A workgroup fenced with a status (R62, R361, R363): it counts as finished once its threads have stopped; gang members
are released as if its threads had exited. -/
def Gpu.fenceWg (g : Gpu) (wg status : Nat) : Gpu :=
  match g.wg? wg with
  | none => g
  | some w =>
    if w.place = .gone then g
    else
      let ts := g.liveOf wg
      let g := (g.stopThreads (· == wg)).discardWork (· == wg)
      let g := ts.foldl (fun g t => g.leaveGangs t) g
      let g := g.modLaunch w.launch fun l => { l with fences := l.fences ++ [(status, g.ptp, w.rank)] }
      g.finishWg wg status

/-- A context fenced with a status (R363): every launch ends with it, queued or running; its partial batches, faults and
saved state are discarded; it admits nothing until it is re-armed. -/
def Gpu.fenceCtx (g : Gpu) (slot status : Nat) : Gpu :=
  match g.ctx? slot with
  | none => g
  | some c =>
    match c.status with
    | .fenced _ => g
    | _ =>
      let mine := fun (wg : Nat) => (g.wg? wg).any fun w => w.ctx == slot
      let ws := g.wgs.filter fun w => w.ctx == slot && w.place != .gone
      let g := (g.stopThreads mine).discardWork mine
      let ended := fun (w : Wg) =>
        if w.ctx == slot && w.place != .gone then { w with place := .gone, endSt := some (status, g.ptp) } else w
      let g := { g with wgs := g.wgs.map ended }
      let g := ws.foldl (fun g w => g.gangEnd w status) g
      let clear := fun (l : Launch) => if l.ctx = slot then
          { l with waiting := [], queue := [], parked := [], packs := l.packs.map fun p => { p with recs := [], running := 0 } } else l
      let ls := (g.launches.filter fun l => l.ctx == slot && l.status != .finished).map Launch.id
      let g := { g with launches := g.launches.map clear }
      let g := ls.foldl (fun g i => g.endLaunch i status) g
      let g := g.modPart c.part fun p => { p with faults := p.faults.filter fun r => r.ctx != slot }
      g.modCtx slot fun c => { c with status := .fenced status, lift := none }

/-- Status codes (Table 15.1). -/
def stOVERRUN : Nat := 4
/-- FENCED. -/
def stFENCED : Nat := 5
/-- TRAPFAULT. -/
def stTRAPFAULT : Nat := 6
/-- HALTED. -/
def stHALTED : Nat := 7
/-- HWERR. -/
def stHWERR : Nat := 8
/-- PARTRESET. -/
def stPARTRESET : Nat := 9

end Sys2Proof.Machine
end

