-- ==== Sys2Proof/Machine/Pipe.lean ====
section
/-! DEFINITION. How a word issues for a bundle (02 R31, R34, R39; 05 R135, R138, R143, R147; 14 R351 to R354): the shared
frames of per-thread words, lane-by-lane words and team words, and what follows a word for each member and its
bundle. -/

namespace Sys2Proof.Machine

open Sys2Proof

/-- The word's outcome for each member. -/
abbrev Fates := List (TRef × Fate)

/-- A member's outcome. -/
def Fates.of (fs : Fates) (t : TRef) : Fate := ((fs.find? fun x => x.1 == t).map (·.2)).getD .done

/-- The lanes of the issuing bundle that took a kind at this word (Table 14.3). -/
def Fates.mask (fs : Fates) (k : TrapKind) : Word :=
  lanesMask ((fs.filter fun x => match x.2 with | .trap q => q.kind == k | _ => false).map (·.1))

/-! ### After the word -/

/-- A trap other than a floating-point exception waits for the next park of a thread in trap mode, where it fences the context
(R345, R354). -/
def Thread.trapDue (th : Thread) : Bool := th.mode == .trap && th.deferred.any fun d => d.kind != TrapKind.fpe.code

/-- What follows for one member: a park before the word, the trap (none in trap mode: its context is fenced, R354), or,
after a word with S = 1, the park on outstanding results or the delivery of deferred traps (R147, R352); a thread that the
word itself parked owes that park, and so does one parked for an invalidation (R211). A park ends a seal (R227). DEDUCED (log 100): a
word with S = 1 after which no result is outstanding counts as a park at which deferred traps are delivered. -/
def finishMember (sw : Bool) (iss : Issue) (tvec : DWord) (mask : TrapKind → Word) (lane : Nat) (f : Fate) (th : Thread) : Thread :=
  match f with
  | .wait w => { th with status := .parked w, rdfl := none }
  | .trap k => if th.mode = .trap then th else th.takeTrap tvec k iss.pc iss.word iss.len (mask k.kind)
  | .hold _ => th
  | .done =>
    if sw && th.status == .active then
      if th.hasPend then { th with status := .parked .switch, owes := true, rdfl := none }
      else if th.mode == .user then th.deliver tvec lane
      else th
    else match th.status with
      | .parked (.inval _ _ _) => { th with owes := true, rdfl := none }
      | .parked _ => { th with owes := sw, rdfl := none }
      | _ => th

/-- A thread whose word with S = 1 ended as a park at which a trap fences its context (R345, R354). -/
def Thread.faultsAt (sw : Bool) (f : Fate) (th : Thread) : Bool :=
  sw && f == .done && th.status == .active && !th.hasPend && th.trapDue

/-- The bundle after its word (R31): the members that stay ACTIVE in the bundle's mode at the PC of the lowest lane stay
together; a trapped member goes on in a bundle of its own; the others become READY (log 32). -/
def Gpu.regroup (g : Gpu) (iss : Issue) (mode : Mode) : Gpu :=
  let live := (sortLanes iss.members).filterMap fun t => (g.thread? t).map fun th => (t, th)
  let act := live.filter fun x => x.2.status == .active
  let same := act.filter fun x => x.2.mode == mode
  let pc := (same.head?.map fun x => x.2.pc).getD 0
  let keep := (same.filter fun x => x.2.pc == pc).map (·.1)
  let alone := (act.filter fun x => x.2.mode == .trap && mode == .user).map fun x => (x.1, x.2.pc)
  let ready := (act.filter fun x => !keep.contains x.1 && !(x.2.mode == .trap && mode == .user)).map (·.1)
  let g := g.mapThreads fun t th => if ready.contains t then { th with status := .ready } else th
  let upd := fun (b : Bundle) =>
    if b.members = iss.members then { b with members := keep, mode := mode, pc := pc, issued := g.nextId } else b
  let launch := ((iss.members.head?.bind fun t => g.wg? t.wg).map Wg.launch).getD 0
  let mk := fun (x : (TRef × DWord) × Nat) =>
    ({ members := [x.1.1], launch := launch, mode := .trap, pc := x.1.2, entry := false, order := g.nextId + 1 + x.2, issued := 0, timer := 0 } : Bundle)
  let g := g.modCore iss.core fun c => { c with active := (c.active.map upd).filter (fun b => !b.members.isEmpty) ++ alone.zipIdx.map mk }
  { g with nextId := g.nextId + 1 + alone.length, cur := .none }

/-- The end of a word: its consequences for each member, the fence of every context in which a trap was raised in trap
mode (R345, R354), and the bundle. -/
def Gpu.finishWord (g : Gpu) (sw : Bool) (fs : Fates) : Gpu :=
  let iss := g.cur
  let mode := ((iss.members.head?.bind g.thread?).map Thread.mode).getD .user
  let bad := (fs.filter fun x => (g.thread? x.1).any fun th => match x.2 with
    | .trap _ => th.mode == .trap
    | f => th.faultsAt sw f).map fun x => (g.env x.1).ctx
  let g' := g.mapThreads fun t th =>
    if iss.members.contains t then finishMember sw iss (g.env t).tvec fs.mask t.lane (fs.of t) th else th
  let g' := bad.dedup.foldl (fun g c => g.fenceCtx c stTRAPFAULT) g'
  g'.regroup iss mode

/-- A word that traps for every member, whatever its guards. -/
def Gpu.trapAll (g : Gpu) (sw : Bool) (k : TrapKind) : Gpu := g.finishWord sw (g.cur.members.map fun t => (t, .trap (.of k)))

/-! ### Words that do not issue yet (R114, R209, R406, R421; log 97) -/

/-- The launch of a workgroup is an admitted deadline launch (R405, R423). -/
def Gpu.deadlineWg (g : Gpu) (wg : Nat) : Bool :=
  ((g.wg? wg).bind fun w => g.launch? w.launch).any fun l => l.desc.deadline.isSome

/-- An operation issued by a thread: who counts it, its class and the pages it holds. -/
def Gpu.newOp (g : Gpu) (t : TRef) (owners : List TRef) (cls : Option Cls) (kind : OpKind) (pages : List (Nat × Leaf)) : Gpu :=
  let o : Op :=
    { id := g.nextId, owner := t, owners := owners, core := g.coreOf t, cls := cls, kind := kind, bySeq := none, result := none,
      done := false, refused := false, pages := pages, asks := [], got := [], sent := false, pc := g.cur.pc, word := g.cur.word, at_ := g.now,
      inst := g.cur.no, ch := 0, acq := false, moved := 0, flags := 0 }
  { g.fresh with ops := g.ops ++ [o] }

/-- Remote reads begun for bytes that a thread's word reads at issue, unless they are under way (R421). -/
def Gpu.askIssue (g : Gpu) (t : TRef) (ls : List (Nat × Leaf)) (ps : List Phys) : Gpu :=
  if g.ops.any fun o => o.owner == t && o.kind == .rread .n8 ps then g
  else (g.newOp t [t] none (.rread .n8 ps) ls).ask g.nextId ps

/-- The bundle's turn passes without its word (R33). -/
def Gpu.passTurn (g : Gpu) : Gpu :=
  let iss := g.cur
  let turn := fun (b : Bundle) => if b.members = iss.members then { b with issued := g.nextId } else b
  { g.fresh.modCore iss.core fun c => { c with active := c.active.map turn } with cur := .none }

/-- Whether the word does not issue yet for some member. -/
def Fates.held (fs : Fates) : Bool := fs.any fun x => match x.2 with | .hold _ => true | _ => false

/-- A word that does not issue yet: `g` is the device before it, of which nothing changes but what the word waits for: remote reads of
the bytes that it reads at issue, and a deadline launch's fill, of which its slice knows (R406). -/
def Gpu.holdWord (g : Gpu) (fs : Fates) : Gpu :=
  let want := fun (g : Gpu) (x : TRef × Fate) => match x.2 with
    | .hold (.read ls ps) => g.askIssue x.1 ls ps
    | .hold (.fill k) => g.wantFill (g.deadlineWg x.1.wg) k
    | _ => g
  (fs.foldl want g).passTurn

/-- The end of a word whose lanes took `fs` from the device `g` to `g'`: when some member is held back, the word does not issue for any, so
that lanes keep their order (R108, R203, R206). -/
def Gpu.endWord (g g' : Gpu) (sw : Bool) (fs : Fates) : Gpu := if fs.held then g.holdWord fs else g'.finishWord sw fs

/-! ### Per-thread words -/

/-- One member of a per-thread word: register range whatever the guards (R138), skipped when a guard fails (R135), parked
on a pending token it names (R128), otherwise the effect `f`, with the PC at the next word. -/
def memberStep (p : Pfx) (used : List Reg) (len : Nat) (f : Env → Thread → Except Trap Thread) (e : Env) (th : Thread) : Thread × Fate :=
  let next := { th with pc := th.pc + BitVec.ofNat 64 len }
  if overRange e.regs used then (th, .trap (.of .regRange))
  else if !th.guards p then (next, .done)
  else match th.pendingAmong used with
    | some r => (th, .wait (.token r))
    | none => match f e next with
      | .error k => (th, .trap k)
      | .ok th' => (th', .done)

/-- A word whose effect on a thread depends on that thread alone. -/
def Gpu.aluWord (g : Gpu) (p : Pfx) (used : List Reg) (f : Env → Thread → Except Trap Thread) : Gpu :=
  let iss := g.cur
  let step := fun (t : TRef) (th : Thread) => memberStep p used iss.len f (g.env t) th
  let fs : Fates := iss.members.filterMap fun t => (g.thread? t).map fun th => (t, (step t th).2)
  let g' := g.mapThreads fun t th => if iss.members.contains t then (step t th).1 else th
  g'.finishWord p.sw fs

/-! ### Words performed lane by lane -/

/-- One lane of a lane-by-lane word: the effect `f` on the device, in its turn. -/
def Gpu.laneStep (p : Pfx) (used : List Reg) (f : Gpu → TRef → Env → Thread → Gpu × Fate) (s : Gpu × Fates) (t : TRef) : Gpu × Fates :=
  let (g, fs) := s
  match g.thread? t with
  | none => s
  | some th =>
    let e := g.env t
    let adv := fun (g : Gpu) => g.modThread t fun th => { th with pc := th.pc + BitVec.ofNat 64 g.cur.len }
    if overRange e.regs used then (g, fs ++ [(t, .trap (.of .regRange))])
    else if !th.guards p then (adv g, fs ++ [(t, .done)])
    else match th.pendingAmong used with
      | some r => (g, fs ++ [(t, .wait (.token r))])
      | none => match f g t e th with
        | (g, .done) => (adv g, fs ++ [(t, .done)])
        | (g, x) => (g, fs ++ [(t, x)])

/-- A word whose lanes act one after another in ascending order (R108, R109, R223). -/
def Gpu.laneWord (g : Gpu) (p : Pfx) (used : List Reg) (f : Gpu → TRef → Env → Thread → Gpu × Fate) : Gpu :=
  let r := (sortLanes g.cur.members).foldl (Gpu.laneStep p used f) (g, [])
  g.endWord r.1 p.sw r.2

/-! ### Team words (R39, R192, R232) -/

/-- Elements without repeats, in the order in which each first occurs. -/
def firstOf : List (Nat × Nat) → List (Nat × Nat)
  | [] => []
  | x :: xs => x :: (firstOf xs).filter (· != x)

/-- The teams of a bundle, in ascending order of their lowest member lane (R232). -/
def bundleTeams (ms : List TRef) : List (Nat × Nat) := firstOf ((sortLanes ms).map fun t => (t.wg, t.team))

/-- The registers that a lane of a team reads or writes, and so may wait for as pending tokens (R128, R135): of a device, a workgroup, a
team, the lanes whose guards hold, and a lane. -/
abbrev Reads := Gpu → Nat → Nat → List TRef → TRef → List Reg

/-- The registers of a team word: `vec` in every lane whose guard holds, and `sca` in the elected thread (R232). -/
def laneReads (vec sca : List Reg) : Reads := fun _ _ _ act t =>
  if act.contains t then vec ++ (if act.head? = some t then sca else []) else []

/-- The registers of `bcast` and `shfl`: `vec` in every lane whose guard holds, and `src` in a source lane whatever its guard (R135,
R192); `from_` gives the source lane of an active one. -/
def sourceReads (vec src : List Reg) (from_ : TRef → Thread → Nat) : Reads := fun g _ _ act t =>
  if act.contains t then vec else if act.any fun u => (g.thread? u).any fun x => from_ u x == t.lane then src else []

/-- A set of threads equal to another. -/
def sameSet (a b : List TRef) : Bool := a.all b.contains && b.all a.contains

/-- One team of a team word: register range, team incomplete (R39), nothing when no guard holds (R232), otherwise the
effect `f` on the lanes whose guards hold. A member for which a register among `reads` is a pending token parks and leaves the bundle
first (R31, log 33). -/
def Gpu.teamStep (p : Pfx) (used : List Reg) (reads : Reads) (f : Gpu → Nat → Nat → List TRef → List TRef → Gpu × (TRef → Fate))
    (s : Gpu × Fates) (tm : Nat × Nat) : Gpu × Fates :=
  let (g, fs) := s
  let ms := (sortLanes g.cur.members).filter fun t => t.wg == tm.1 && t.team == tm.2
  let regs := ((g.wg? tm.1).map Wg.regs).getD 256
  let all := fun (k : TrapKind) => ms.map fun t => (t, Fate.trap (.of k))
  if overRange regs used then (g, fs ++ all .regRange)
  else
    let holds := fun (t : TRef) => (g.thread? t).any fun th => th.guards p
    let act := ms.filter holds
    let tok := fun (t : TRef) => (g.thread? t).bind fun th => th.pendingAmong (reads g tm.1 tm.2 act t)
    let parked := ms.filter fun t => (tok t).isSome
    let rest := ms.filter fun t => (tok t).isNone
    let pf := parked.map fun t => (t, Fate.wait (.token ((tok t).getD 0)))
    if !parked.isEmpty || !sameSet ms (g.liveSet tm.1 tm.2) then
      (g, fs ++ pf ++ rest.map fun t => (t, Fate.trap (.of .teamIncomplete)))
    else
      let (g, r) := if act.isEmpty then (g, fun _ => Fate.done) else f g tm.1 tm.2 ms act
      let done := ms.filter fun t => r t == .done
      let len := g.cur.len
      (g.mapThreads fun t th => if done.contains t then { th with pc := th.pc + BitVec.ofNat 64 len } else th,
        fs ++ ms.map fun t => (t, r t))

/-- A team word: executed separately for each team of the bundle. -/
def Gpu.teamWord (g : Gpu) (p : Pfx) (used : List Reg) (reads : Reads)
    (f : Gpu → Nat → Nat → List TRef → List TRef → Gpu × (TRef → Fate)) : Gpu :=
  let r := (bundleTeams g.cur.members).foldl (Gpu.teamStep p used reads f) (g, [])
  g.endWord r.1 p.sw r.2

/-- A team word whose effect is one function of the team's threads: `f` gives each active lane its new thread, or one
trap for the whole team. -/
def Gpu.teamAlu (g : Gpu) (p : Pfx) (used : List Reg) (reads : Reads)
    (f : Gpu → List (TRef × Thread) → List (TRef × Thread) → Except Trap (TRef → Thread → Thread)) : Gpu :=
  g.teamWord p used reads fun g _ _ ms act =>
    let look := fun (ts : List TRef) => ts.filterMap fun t => (g.thread? t).map fun th => (t, th)
    match f g (look ms) (look act) with
    | .error k => (g, fun _ => .trap k)
    | .ok h => (g.mapThreads fun t th => if act.contains t then h t th else th, fun _ => .done)

/-- Members whose guards fail issue `rdfl`, `brx`, `callx` and `ret` too, and so begin or end a seal (R135, R227); a park or a trap of
theirs has ended it. `g` is the device before the word. -/
def Gpu.sealSkipped (g : Gpu) (p : Pfx) (v : Option Nat) (g' : Gpu) : Gpu :=
  let skips := fun (t : TRef) => g.cur.members.contains t && (g.thread? t).any fun x => !x.guards p
  g'.mapThreads fun t th =>
    if skips t && (th.status == .active || th.status == .ready) && (g.thread? t).any fun x => x.mode == th.mode then { th with rdfl := v } else th

/-! ### From the device to the state -/

/-- An effect on the device; the clocks are latched for it to read. -/
def State.onGpu (s : State) (f : Gpu → Gpu) : State := { s with gpu := f { s.gpu with now := s.clk.cyc, ptp := s.clk.ptp } }

/-- The step that an effect on the device makes. -/
abbrev Out := Host.Outcome State Fault Refusal

/-- The next state after an effect on the device. -/
def State.device (s : State) (f : Gpu → Gpu) : Out := .next (s.onGpu f)

/-- A variable-latency result made pending in a thread (R147). -/
def Thread.pendNow (th : Thread) (id : Nat) (rs : List Reg) (vs : List Word) (fl : BitVec 5) (xch : Bool) (pc word : DWord) : Thread :=
  let th := th.addPend { id := id, regs := rs, vals := some vs, flags := fl, token := false, xch := xch, pc := pc, word := word }
  if xch then th.addOutst .xch id else th

end Sys2Proof.Machine
end

