-- ==== Sys2Proof/Machine/Async.lean ====
section
/-! DEFINITION. Asynchronous operations (04 R125 to R128): their issue, their tokens, their retirement, and how they read and
write memory under the translations captured at issue (16 R397). -/

namespace Sys2Proof.Machine

open Sys2Proof

/-! ### Issue -/

/-- An operation counted by a thread, with the token registers it writes there (R125, R128). -/
def Thread.startOp (th : Thread) (cls : Cls) (id : Nat) (token : List Reg) (pc word : DWord) : Thread :=
  let th := th.addOutst cls id
  if token.isEmpty then th
  else th.addPend { id := id, regs := token, vals := none, flags := 0, token := true, xch := false, pc := pc, word := word }

/-- An operation just issued marked with its word's hint (R96). -/
def Gpu.markHint (ch : BitVec 2) (r : Gpu × Fate) (id : Nat) : Gpu × Fate :=
  if r.2 == .done then (r.1.modOp id fun o => { o with ch := ch }, r.2) else r

/-- An operation of one thread issued, counted and its token made pending; a thread whose counter stands at 63 waits
(R125). -/
def Gpu.issueOp (g : Gpu) (t : TRef) (th : Thread) (cls : Cls) (kind : OpKind) (pages : List (Nat × Leaf)) (token : List Reg) : Gpu × Fate :=
  if 63 ≤ th.count cls then (g, .wait (.counter cls 62))
  else ((g.newOp t [t] (some cls) kind pages).modThread t fun th => th.startOp cls g.nextId token g.cur.pc g.cur.word, .done)

/-! ### Results, tokens and retirement -/

/-- A park that a thread's own results, tokens and counters decide, ended when they allow (Table 2.2). -/
def Thread.settle (th : Thread) : Thread :=
  let clear := { th with status := .parked .clear }
  match th.status with
  | .parked .switch => if th.hasPend then th else clear
  | .parked (.token r) => if th.tokenPending r then th else clear
  | .parked (.counter c n) => if th.count c ≤ n then clear else th
  | .parked .quiet => if th.quiet then clear else th
  | _ => th

/-- A pending result written to its registers, with its flags (R77, R128, R147); an exchange retires with it (R125). -/
def Thread.land (th : Thread) (e : Env) (q : Pending) (vs : List Word) : Thread :=
  let th := { th with pend := th.pend.filter fun x => x.id != q.id }
  let th := (th.putRegs q.regs vs).lateFlags e q.flags q.drop q.pc q.word
  (if q.xch then th.finishOp .xch q.id else th).settle

/-- One register of a pending result written before the others (R147); a token's are written together (R128). -/
def Thread.landPart (th : Thread) (id i : Nat) : Thread :=
  match th.pend.find? fun q => q.id == id && !q.token with
  | some q =>
    match q.regs[i]?, q.vals.bind fun vs => vs[i]? with
    | some r, some v =>
      if q.regs.length < 2 then th
      else
        let rest := { q with regs := q.regs.eraseIdx i, vals := q.vals.map fun vs => vs.eraseIdx i }
        { th.setReg r v with pend := th.pend.map fun x => if x.id = id && !x.token then rest else x }
    | _, _ => th
  | none => th

/-- The value of a pending result becomes known. -/
def Thread.resolve (th : Thread) (id : Nat) (vs : List Word) (fl : BitVec 5) : Thread :=
  { th with pend := th.pend.map fun q => if q.id = id then { q with vals := some vs, flags := fl } else q }

/-- The tokens of an operation written in one thread (R128). -/
def Gpu.landToken (g : Gpu) (t : TRef) (id : Nat) (vs : List Word) : Gpu :=
  let e := g.env t
  g.modThread t fun th => match th.pend.find? fun q => q.id == id with
    | some q => th.land e q vs
    | none => th

/-- An operation is complete: it may retire in the issue order of its class in every thread that counts it. -/
def Gpu.markDone (g : Gpu) (id : Nat) : Gpu :=
  let mark := fun (o : Outst) => if o.id = id then { o with done := true } else o
  (g.mapThreads fun _ th => { th with outst := th.outst.map mark }).modOp id fun o => { o with done := true }

/-- `rdv` waits that their team's counters allow to end (R266): the team's members become READY together. -/
def Gpu.testRendezvous (g : Gpu) : Gpu :=
  let ws := g.waiters fun _ w => match w with | .rendezvous _ => true | _ => false
  let owing := fun (tm : Nat × Nat) => g.threads.any fun x =>
    x.1.wg == tm.1 && x.1.team == tm.2 && match x.2.status with
      | .parked (.rendezvous ids) => g.threads.any fun y =>
          y.1.wg == tm.1 && y.1.team == tm.2 && y.2.outst.any fun o => ids.contains o.id
      | _ => false
  (((ws.map fun t => (t.wg, t.team)).dedup).filter fun tm => !owing tm).foldl (fun g tm =>
    let ts := sortLanes (ws.filter fun t => t.wg == tm.1 && t.team == tm.2)
    g.releaseAsBundle ((ts.head?.map g.coreOf).getD 0) ts) g

/-- An operation is complete, and what may retire in issue order retires in every thread that counts it (R125); rays and
array turns that waited for it go on. -/
def Gpu.retireOp (g : Gpu) (id : Nat) : Gpu :=
  match g.op? id with
  | none => g
  | some o =>
    let g := match o.cls with
      | some c => g.mapThreads fun t th => if o.owners.contains t then (th.finishOp c id).settle else th
      | none => g
    (g.dropOp id).testRendezvous

/-- The release part of a word's ordering at a scope, if it has one, then its effect. The word is held back while a released line
finds no way (R406), and at system scope until every earlier store of the thread to a peer is acknowledged (R117, R421). -/
def Gpu.releasing (g : Gpu) (core : Nat) (t : TRef) (on : Bool) (sc : Scope) (k : Gpu → Gpu × Fate) : Gpu × Fate :=
  if !on then k g
  else match g.releaseWait core t sc with
    | some l => (g, .hold (.fill l))
    | none =>
      let g := g.release core t sc
      if sc == .sys && g.owesAck t then (g, .hold .order) else k g

/-- A word that releases at a scope comes after its thread's remote reads and fences (R112, R114, R209), and waits for ways for what it
releases (R406). -/
def Gpu.afterReads (g : Gpu) (core : Nat) (t : TRef) (sc : Scope) (k : Gpu × Fate) : Gpu × Fate :=
  if g.heldBack t then (g, .hold .order)
  else match g.releaseWait core t sc with
    | some l => (g, .hold (.fill l))
    | none => k

/-- A deferred trap of an operation, recorded in its issuing thread (R107, R220, R352). -/
def Gpu.deferOp (g : Gpu) (o : Op) (k : TrapKind) (a : DWord) : Gpu :=
  g.modThread o.owner fun th => th.defer ⟨k.code, 0, o.pc, o.word, a⟩

/-- The poison trap deferred for the first poisoned address an operation met (R107, R269). -/
def Gpu.deferPoison (g : Gpu) (o : Op) (p : Option Nat) : Gpu :=
  match p with
  | none => g
  | some a => g.deferOp o .poison (BitVec.ofNat 64 a)

/-! ### Reads and writes -/

/-- Bytes of one access of a thread, each under its page's attributes and the hint `ch` (R96). -/
def Gpu.loadPages (g : Gpu) (core : Nat) (t : TRef) (ch : BitVec 2) (ls : List (Nat × Leaf)) (got : List (Phys × Byte)) (va n : Nat) :
    Gpu × List Byte :=
  (List.range n).foldl (fun (s : Gpu × List Byte) i =>
    match findLeaf ls (va + i) with
    | none => (s.1, s.2 ++ [0])
    | some l =>
      let p := l.phys (va + i)
      match p.sp with
      | .peer _ _ => (s.1, s.2 ++ [s.1.byteWith got p])
      | _ =>
        let r := s.1.loadCells core t (l.attr.hinted ch) (ch == 3) [p]
        (r.1, s.2 ++ r.2)) (g, [])

/-- Bytes of an asynchronous operation stored at their homes, and sent to peers (R127, R421): the core's L1 copies follow. -/
def Gpu.storePages (g : Gpu) (core : Nat) (op : Option Nat) (res : Bool) (ls : List (Nat × Leaf)) (cells : List (Nat × Byte)) : Gpu :=
  let at_ := fun (x : Nat × Byte) => (findLeaf ls x.1).map fun l => (l, l.phys x.1, x.2)
  let cs := cells.filterMap at_
  let isPeer := fun (p : Phys) => match p.sp with | .peer _ _ => true | _ => false
  let pick := fun (f : Leaf → Phys → Bool) => (cs.filter fun x => f x.1 x.2.1).map fun x => (x.2.1, x.2.2)
  let ctrl := pick fun l p => !isPeer p && l.cache == 2
  let home := pick fun l p => !isPeer p && l.cache != 2
  let g := g.peerStore (pick fun _ p => isPeer p) op none
  ((g.ctrlStore ctrl).homeStore false res home).pokeL1 core false false home

/-- Bytes of a thread's workgroup's scratchpad, or of memory, read by an operation: the bytes, the first poisoned address
(its bytes zero, R107), or the peer locations still to be read. -/
def Gpu.opBytes (g : Gpu) (o : Op) (a : DWord) (n : Nat) : Gpu × Except (List Phys) (List Byte × Option Nat) :=
  match region a with
  | .scratch off => (g, .ok (((g.wg? o.owner.wg).map fun w => w.scratchBytes off n).getD [], none))
  | .mem va =>
    let ps := physOf o.pages va n
    let miss := missing o.got ps
    if !miss.isEmpty then (g, .error miss)
    else
      let (g', bs) := g.loadPages o.core o.owner o.ch o.pages o.got va n
      (g', .ok (((bs.zip ps).map fun x => if g.poisoned x.2.line then 0 else x.1), (g.firstPoison ps).map (va + ·)))
  | .bad => (g, .ok ([], none))

/-- The line for which accesses of an operation wait for a way in L2 (R406). -/
def Gpu.accessWait (g : Gpu) (o : Op) (xs : List (DWord × Nat)) : Option LineKey :=
  if g.mem.l2.isEmpty then none
  else g.lineWait (xs.flatMap fun x => match region x.1 with
    | .mem va => (physOf o.pages va x.2).map Phys.line
    | _ => [])

/-- The first byte of accesses to memory for which an operation holds no translation that permits them: one of an operation that was
saved or moved, whose pages are translated anew (R359). -/
def Op.unheld (o : Op) (acc : Access) (xs : List (DWord × Nat)) : Option Nat :=
  xs.findSome? fun x => match region x.1 with
    | .mem va => ((List.range x.2).map (va + ·)).find? fun a => !((findLeaf o.pages a).any fun l => l.permits acc)
    | _ => none

/-- A page translated for an operation after its issue; a replayable fault is served first. DESIGN CHOICE (log 110): where the page is not
to be had, the translation trap is deferred in the issuing thread and the operation ends as `lost` says. -/
def Gpu.mapAgain (g : Gpu) (o : Op) (acc : Access) (va : Nat) (lost : Gpu → Gpu) : Gpu :=
  match g.ctx? (g.env o.owner).ctx with
  | none => g
  | some c =>
    match g.translate o.core c acc va with
    | (g, .ok l) =>
      let rest := o.pages.filter fun x => va < x.1 || x.1 + 2 ^ x.2.log ≤ va
      g.modOp o.id fun o => { o with pages := (va / 2 ^ l.log * 2 ^ l.log, l) :: rest }
    | (g, .error f) =>
      if f.rpl && !o.refused then (g.joinFault c o.core va acc f none (some o.id)).1
      else
        let k := transTrap acc f.perm (BitVec.ofNat 64 va)
        lost (g.modThread o.owner fun th => th.defer ⟨k.kind.code, k.info, o.pc, o.word, k.addr⟩)

/-- Why an operation cannot make its next reads `rd` and writes `wr` yet, if it cannot, and what it does instead: a page is translated, or
a line waits for a way in L2, of which the slice knows for a deadline launch (R406). -/
def Gpu.unready (g : Gpu) (o : Op) (rd wr : List (DWord × Nat)) (lost : Gpu → Gpu) : Option Gpu :=
  match o.unheld .read rd, o.unheld .write wr with
  | some va, _ => some (g.mapAgain o .read va lost)
  | none, some va => some (g.mapAgain o .write va lost)
  | none, none => (g.accessWait o (rd ++ wr)).map (g.wantFill (g.deadlineWg o.owner.wg))

/-- Bytes stored by an operation to its thread's scratchpad or to memory. -/
def Gpu.opStore (g : Gpu) (o : Op) (a : DWord) (bs : List Byte) : Gpu :=
  match region a with
  | .scratch off => g.scratchStore o.owner.wg off bs
  | .mem va => g.storePages o.core (some o.id) (g.deadlineWg o.owner.wg) o.pages ((bs.zipIdx).map fun x => (va + x.2, x.1))
  | .bad => g

/-- Remote reads of an operation sent for locations not already asked for (R421). Where the endpoint is no longer connected they end as
those of a failed connection: the fabric-loss trap, and zeros (R422). -/
def Gpu.askFor (g : Gpu) (o : Op) (ps : List Phys) : Gpu :=
  let asked := fun (p : Phys) => o.asks.any fun q => q.2.1.sp == p.sp && q.2.1.addr ≤ p.addr && p.addr < q.2.1.addr + q.2.2
  let new := (ps.filter fun p => !asked p).dedup
  if g.unlinked new then
    ((if o.refused then g else g.deferOp o .fabricLoss 0).logEnds new).modOp o.id fun o =>
      { o with refused := true, got := o.got ++ new.map fun p => (p, 0) }
  else g.ask o.id new

/-- Bytes that a word reads at issue under captured pages. Those of a peer are read remotely first, and the word is held back until they
have come (R421). -/
def Gpu.readIssue (g : Gpu) (core : Nat) (t : TRef) (ls : List (Nat × Leaf)) (va n : Nat) : Gpu × Except Fate (List Byte) :=
  let ps := physOf ls va n
  if (missing [] ps).isEmpty then
    let (g, bs) := g.loadPages core t 0 ls [] va n
    (g, .ok bs)
  else
    match g.ops.find? fun o => o.owner == t && o.kind == .rread .n8 ps with
    | some o =>
      if (missing o.got ps).isEmpty then
        let (g, bs) := (g.dropOp o.id).loadPages core t 0 ls o.got va n
        (g, .ok bs)
      else (g, .error (.hold .order))
    | none => (g, .error (.hold (.read ls ps)))

/-- Whether a packet of an operation is not acknowledged yet. -/
def Gpu.unacked (g : Gpu) (id : Nat) : Bool := g.fabric.conns.any fun c => c.unacked.any fun s => s.op == some id

/-- Every copy of the operation's own stores to the peer is acknowledged, or the operation waits. -/
def Gpu.retireAcked (g : Gpu) (id : Nat) : Gpu := if g.unacked id then g.modOp id fun o => { o with sent := true } else g.retireOp id

end Sys2Proof.Machine
end

