-- ==== Sys2Proof/Machine/Control.lean ====
section
/-! DEFINITION. Branches, calls and thread control (07 R224 to R231). -/

namespace Sys2Proof.Machine

open Sys2Proof

/-! ### Branches and calls -/

/-- The target of `bra` and `call` (R224). -/
def relTarget (pc : DWord) (off : BitVec 24) : DWord := pc + 8 * off.signExtend 64

/-- A thread sent to a target, its seal ended (R225, R227): a target that is no multiple of 8 takes the alignment fault. -/
def Thread.goTo (th : Thread) (target : DWord) : Except Trap Thread :=
  if target.toNat % 8 ≠ 0 then .error (.at .alignment target) else .ok { th with pc := target, rdfl := none }

/-- `bra` (R225). -/
def execBra (p : Pfx) (off : BitVec 24) (s : State) : Out :=
  s.device fun g => g.aluWord p [] fun _ th => th.goTo (relTarget g.cur.pc off)

/-- `call` (R225): the link pair holds PC + 8. -/
def execCall (p : Pfx) (d : Reg) (off : BitVec 24) (s : State) : Out :=
  s.device fun g => g.aluWord p (d.run 2) fun _ th => (th.setPair d (g.cur.pc + 8)).goTo (relTarget g.cur.pc off)

/-- The members whose targets `brx` and `callx` compare (R226). -/
def Gpu.targets (g : Gpu) (p : Pfx) (used : List Reg) (a : Reg) : List DWord :=
  (g.cur.members.filterMap fun t => (g.thread? t).bind fun th =>
    if th.guards p && (th.pendingAmong used).isNone then some (th.pair a) else none).dedup

/-- A branch through a register pair: targets that differ trap (R226); a misaligned one traps first (R201). -/
def Gpu.branchReg (g : Gpu) (p : Pfx) (used : List Reg) (a : Reg) (link : Thread → Thread) : Gpu :=
  let split := 1 < (g.targets p used a).length
  g.aluWord p used fun _ th =>
    match (link th).goTo (th.pair a) with
    | .error k => .error k
    | .ok th => if split then .error (.of .divergent) else .ok th

/-- `brx` (R226). -/
def execBrx (p : Pfx) (a : Reg) (s : State) : Out := s.device fun g => g.sealSkipped p none (g.branchReg p (a.run 2) a id)

/-- `callx` (R225, R226): the target is read before the link is written. -/
def execCallx (p : Pfx) (d a : Reg) (s : State) : Out :=
  s.device fun g => g.sealSkipped p none (g.branchReg p (d.run 2 ++ a.run 2) a fun th => th.setPair d (g.cur.pc + 8))

/-- `ret` (R226): each member goes to its own target. -/
def execRet (p : Pfx) (a : Reg) (s : State) : Out :=
  s.device fun g => g.sealSkipped p none (g.aluWord p (a.run 2) fun _ th => th.goTo (th.pair a))

/-! ### Thread control -/

/-- `exit` (R28): the thread stops issuing, its PC at the `exit`. -/
def execExit (p : Pfx) (s : State) : Out :=
  s.device fun g => g.aluWord p [] fun _ th => .ok { th with status := .exiting, pc := g.cur.pc, rdfl := none }

/-- An active bundle moved whole to the tail of the pending order, its members READY (R36, R37). -/
def Gpu.rotate (g : Gpu) (core : Nat) (f : Bundle → Bool) : Gpu :=
  match (g.core core).active.find? f with
  | none => g
  | some b =>
    let g := g.mapThreads fun t th => if b.members.contains t then { th with status := .ready } else th
    let tail := { b with entry := false, order := g.nextId, timer := 0 }
    (g.modCore core fun c => { c with active := c.active.erase b, pending := c.pending ++ [tail] }).fresh

/-- `yield` (R37): a no-operation, and the bundle goes to the tail of the pending order; a member that takes a trap as the word ends has
left it (R38). -/
def execYield (p : Pfx) (s : State) : Out :=
  s.device fun g =>
    let iss := g.cur
    let on := iss.members.any fun t => (g.thread? t).any fun th => th.guards p
    let mode := (iss.members.head?.bind g.thread?).map Thread.mode
    let g := g.aluWord p [] fun _ th => .ok th
    if on then g.rotate iss.core fun b => mode == some b.mode && b.members.any fun t => iss.members.contains t else g

/-- `nop` (R228). -/
def execNop (p : Pfx) (s : State) : Out := s.device fun g => g.aluWord p [] fun _ th => .ok th

/-- `prb.on` (R231). -/
def execPrbOn (p : Pfx) (s : State) : Out := s.device fun g => g.aluWord p [] fun _ th => .ok { th with pmode := true }

/-- `prb.off` (R231). -/
def execPrbOff (p : Pfx) (s : State) : Out := s.device fun g => g.aluWord p [] fun _ th => .ok { th with pmode := false }

/-- `trap` (R231): the software trap with its code. -/
def execTrap (p : Pfx) (code : BitVec 9) (s : State) : Out :=
  s.device fun g => g.aluWord p [] fun _ _ => .error ⟨.software, code.setWidth 16, 0, false⟩

/-- `brk` (R231): the breakpoint trap with its code. -/
def execBrk (p : Pfx) (code : BitVec 9) (s : State) : Out :=
  s.device fun g => g.aluWord p [] fun _ _ => .error ⟨.breakpoint, code.setWidth 16, 0, false⟩

/-! ### Rejoin (R41, R229) -/

/-- The teams of a bundle that have a thread waiting on a mask. -/
def Gpu.busyTeams (g : Gpu) (k : Nat) : List (Nat × Nat) :=
  (bundleTeams g.cur.members).filter fun tm =>
    !(g.waiters fun t w => t.wg == tm.1 && t.team == tm.2 && w == .rejoin k).isEmpty

/-- `rjset` (R229): the rejoin-busy check of a team before any of its writes, then MASK := gB in ascending lane order. -/
def execRjset (p : Pfx) (k : BitVec 3) (b : SrcB) (s : State) : Out :=
  s.device fun g =>
    let busy := g.busyTeams k.toNat
    g.laneWord p (b.span false) fun g t _ th =>
      if busy.contains (t.wg, t.team) then (g, .trap (.of .rejoinBusy))
      else (g.modWg t.wg fun w => w.setMask t.team k.toNat ⟨th.srcW b, 0⟩, .done)

/-- One lane of `rjoin`: in MASK it arrives and waits (R41). -/
def Gpu.rjoinLane (k : BitVec 3) (g : Gpu) (t : TRef) (_e : Env) (_th : Thread) : Gpu × Fate :=
  match g.wg? t.wg with
  | none => (g, .done)
  | some w =>
    let m := w.mask t.team k.toNat
    if m.mask.getLsbD t.lane then
      let g := g.modWg t.wg fun w => w.setMask t.team k.toNat { m with arrived := m.arrived ||| ((1 : Word) <<< t.lane) }
      (g.modThread t fun th => { th with status := .parked (.rejoin k.toNat) }, .done)
    else (g, .done)

/-- `rjoin` (R41, R229): the lanes arrive, and a mask that is then complete releases its waiters as one bundle. -/
def execRjoin (p : Pfx) (k : BitVec 3) (s : State) : Out :=
  s.device fun g =>
    let teams := bundleTeams g.cur.members
    let g := g.laneWord p [] (Gpu.rjoinLane k)
    teams.foldl (fun g tm => g.testMask tm.1 tm.2 k.toNat) g

/-! ### Spawn (R54, R55, R230) -/

/-- Whether a workgroup's threads may spawn into a node (R55). -/
def Launch.permits (l : Launch) (w : Wg) (n : Nat) : Bool :=
  let succ := match w.node with
    | none => l.desc.rootsucc
    | some m => (l.nodes[m]?.map Node.succ).getD 0
  n < 64 && succ.getLsbD n

/-- One lane of `spawn`: accepted, or parked until a record is available. -/
def Gpu.spawnLane (b : SrcB) (a : Reg) (len : Nat) (g : Gpu) (t : TRef) (e : Env) (th : Thread) : Gpu × Fate :=
  let n := (th.srcW b).toNat
  match g.wg? t.wg with
  | none => (g, .trap (.of .spawnTarget))
  | some w =>
    match g.launch? w.launch with
    | none => (g, .trap (.of .spawnTarget))
    | some l =>
      if !l.permits w n || 64 < len || len % 4 ≠ 0 then (g, .trap (.of .spawnTarget))
      else
        g.afterReads e.core t .dev <|
        let s : PSpawn := { t := t, op := none, node := n, len := len, data := bytesOfWords (th.regsFrom a (len / 4)) }
        match g.trySpawn s with
        | some g => (g, .done)
        | none =>
          let g := g.modLaunch l.id fun l => { l with parked := l.parked ++ [s] }.packRules
          (g.modThread t fun th => { th with status := .parked .pool }, .done)

/-- `spawn` (R230): R138 looks at the last payload register as LEN encodes it, past g255 included. -/
def execSpawn (p : Pfx) (b : SrcB) (a : Reg) (len : BitVec 7) (s : State) : Out :=
  s.device fun g =>
    let n := (len.toNat + 3) / 4
    if 256 < a.toNat + n then g.trapAll p.sw .regRange
    else g.laneWord p (a.run n ++ b.span false) (Gpu.spawnLane b a len.toNat)

end Sys2Proof.Machine
end

