-- ==== Sys2Proof/Decode.lean ====
section
/-! DEFINITION. Decoding and encoding of instruction words (05_formats R133 to R146, R149; the FX layouts of each
entry). The encoder is written from the same tables. A word is legal exactly when the instruction its fields name is
well formed and encodes to that very word: a non-zero reserved field therefore never decodes (R134, R151). -/

namespace Sys2Proof

/-! ### Field codes (Tables 5.5, 5.6, 6.1) -/

/-- TY codes (Table 5.5). -/
def Ty.code : Ty → BitVec 4
  | .s32 => 0x0 | .n32 => 0x1 | .s16 => 0x2 | .n16 => 0x3 | .f32 => 0x4 | .f16 => 0x5 | .e16 => 0x6 | .f8a => 0x7
  | .f8b => 0x8 | .f4 => 0x9 | .s8 => 0xA | .n8 => 0xB | .s4 => 0xC | .n4 => 0xD | .b32 => 0xE | .b64 => 0xF

/-- The type of a TY code (Table 5.5). -/
def Ty.ofCode (c : BitVec 4) : Ty :=
  match c.toNat with
  | 0 => .s32 | 1 => .n32 | 2 => .s16 | 3 => .n16 | 4 => .f32 | 5 => .f16 | 6 => .e16 | 7 => .f8a
  | 8 => .f8b | 9 => .f4 | 10 => .s8 | 11 => .n8 | 12 => .s4 | 13 => .n4 | 14 => .b32 | _ => .b64

/-- RM codes (Table 5.6). -/
def RM.code : RM → BitVec 3
  | .rn => 0 | .rz => 1 | .rd => 2 | .ru => 3

/-- The rounding mode of an RM code; 100 to 111 name none (R141). -/
def RM.ofCode (c : BitVec 3) : Option RM :=
  match c.toNat with
  | 0 => some .rn | 1 => some .rz | 2 => some .rd | 3 => some .ru | _ => none

/-- SC codes (Table 5.6). -/
def Scope.code : Scope → BitVec 3
  | .thr => 0 | .core => 1 | .pair => 2 | .die => 3 | .dev => 4 | .sys => 5

/-- The scope of an SC code (R141). -/
def Scope.ofCode (c : BitVec 3) : Option Scope :=
  match c.toNat with
  | 0 => some .thr | 1 => some .core | 2 => some .pair | 3 => some .die | 4 => some .dev | 5 => some .sys
  | _ => none

/-- ORD codes (Table 5.6). -/
def Ord4.code : Ord4 → BitVec 2
  | .none => 0 | .acq => 1 | .rel => 2 | .ar => 3

/-- The ordering of an ORD code (Table 5.6). -/
def Ord4.ofCode (c : BitVec 2) : Ord4 :=
  match c.toNat with
  | 0 => .none | 1 => .acq | 2 => .rel | _ => .ar

/-- CC codes (Table 6.1). -/
def CC.code : CC → BitVec 3
  | .eq => 0 | .ne => 1 | .lt => 2 | .le => 3 | .gt => 4 | .ge => 5 | .num => 6 | .nan => 7

/-- The condition of a CC code (Table 6.1). -/
def CC.ofCode (c : BitVec 3) : CC :=
  match c.toNat with
  | 0 => .eq | 1 => .ne | 2 => .lt | 3 => .le | 4 => .gt | 5 => .ge | 6 => .num | _ => .nan

/-- LOP codes of `pset` (R175). -/
def LOp.code : LOp → BitVec 2
  | .and => 0 | .or => 1 | .xor => 2

/-- The operation of a LOP code; 11 names none (R175). -/
def LOp.ofCode (c : BitVec 2) : Option LOp :=
  match c.toNat with
  | 0 => some .and | 1 => some .or | 2 => some .xor | _ => none

/-- MODE codes of `shfl` (R193). -/
def ShflMode.code : ShflMode → BitVec 2
  | .idx => 0 | .up => 1 | .down => 2 | .xor => 3

/-- The `shfl` mode of a code (R193). -/
def ShflMode.ofCode (c : BitVec 2) : ShflMode :=
  match c.toNat with
  | 0 => .idx | 1 => .up | 2 => .down | _ => .xor

/-- MODE codes of `vote` (R194). -/
def VoteMode.code : VoteMode → BitVec 2
  | .all => 0 | .any => 1 | .uni => 2 | .ballot => 3

/-- The `vote` mode of a code (R194). -/
def VoteMode.ofCode (c : BitVec 2) : VoteMode :=
  match c.toNat with
  | 0 => .all | 1 => .any | 2 => .uni | _ => .ballot

/-- OP codes of `redu` and `scan` (Table 6.12). -/
def FoldOp.code : FoldOp → BitVec 3
  | .add => 0 | .min => 1 | .max => 2 | .and => 3 | .or => 4 | .xor => 5

/-- The fold of an OP code (Table 6.12). -/
def FoldOp.ofCode (c : BitVec 3) : Option FoldOp :=
  match c.toNat with
  | 0 => some .add | 1 => some .min | 2 => some .max | 3 => some .and | 4 => some .or | 5 => some .xor
  | _ => none

/-- AOP codes of `atom` (Table 7.3). -/
def AOp.code : AOp → BitVec 4
  | .add => 0 | .min => 1 | .max => 2 | .and => 3 | .or => 4 | .xor => 5 | .exch => 6 | .cas => 7

/-- The operation of an AOP code (Table 7.3). -/
def AOp.ofCode (c : BitVec 4) : Option AOp :=
  match c.toNat with
  | 0 => some .add | 1 => some .min | 2 => some .max | 3 => some .and | 4 => some .or | 5 => some .xor
  | 6 => some .exch | 7 => some .cas | _ => none

/-- VEC codes (R202). -/
def Vec.code : Vec → BitVec 2
  | .x1 => 0 | .x2 => 1 | .x4 => 2

/-- The element count of a VEC code (R202). -/
def Vec.ofCode (c : BitVec 2) : Option Vec :=
  match c.toNat with
  | 0 => some .x1 | 1 => some .x2 | 2 => some .x4 | _ => none

/-- CLASS codes of `wcnt` (Table 4.6, R221). -/
def Cls.code : Cls → BitVec 3
  | .copy => 0 | .gath => 1 | .arr => 2 | .march => 3 | .xch => 4

/-- The class of a CLASS code (R221). -/
def Cls.ofCode (c : BitVec 3) : Option Cls :=
  match c.toNat with
  | 0 => some .copy | 1 => some .gath | 2 => some .arr | 3 => some .march | 4 => some .xch | _ => none

/-- KIND codes of verdicts (Table 3.9, R256, R258). -/
def VKind.code : VKind → BitVec 2
  | .sign => 1 | .thresh => 2 | .topk => 3

/-- The verdict kind of a KIND code (R258). -/
def VKind.ofCode (c : BitVec 2) : Option VKind :=
  match c.toNat with
  | 1 => some .sign | 2 => some .thresh | 3 => some .topk | _ => none

/-- Special-register numbers (Table 14.2). -/
def SReg.code : SReg → BitVec 8
  | .lane => 0x00 | .tid => 0x01 | .team => 0x02 | .wg => 0x03 | .wgsize => 0x04 | .node => 0x05 | .tier => 0x06
  | .core => 0x07 | .pair => 0x08 | .ctx => 0x09 | .args => 0x10 | .recAddr => 0x11 | .flags => 0x18 | .prb => 0x19
  | .cnt => 0x1A | .time => 0x20 | .tcause => 0x40 | .tpc => 0x41 | .tsrc => 0x42 | .tword => 0x43 | .taddr => 0x44
  | .tmask => 0x45 | .tstat => 0x46 | .ts0 => 0x48 | .ts1 => 0x49 | .ts2 => 0x4A | .ts3 => 0x4B

/-- The special register of a number; an unassigned one is illegal (R348). -/
def SReg.ofCode (c : BitVec 8) : Option SReg :=
  match c.toNat with
  | 0x00 => some .lane | 0x01 => some .tid | 0x02 => some .team | 0x03 => some .wg | 0x04 => some .wgsize
  | 0x05 => some .node | 0x06 => some .tier | 0x07 => some .core | 0x08 => some .pair | 0x09 => some .ctx
  | 0x10 => some .args | 0x11 => some .recAddr | 0x18 => some .flags | 0x19 => some .prb | 0x1A => some .cnt
  | 0x20 => some .time | 0x40 => some .tcause | 0x41 => some .tpc | 0x42 => some .tsrc | 0x43 => some .tword
  | 0x44 => some .taddr | 0x45 => some .tmask | 0x46 => some .tstat | 0x48 => some .ts0 | 0x49 => some .ts1
  | 0x4A => some .ts2 | 0x4B => some .ts3 | _ => none

/-- OP7 codes (Table 5.8). -/
def HalfOp.code : HalfOp → BitVec 7
  | .nop => 0x00
  | .iadd => 0x01 | .isub => 0x02 | .imul => 0x03 | .iminS => 0x04 | .iminN => 0x05 | .imaxS => 0x06 | .imaxN => 0x07
  | .and => 0x08 | .or => 0x09 | .xor => 0x0A | .shl => 0x0B | .shr => 0x0C | .sar => 0x0D | .rotl => 0x0E
  | .iaddI => 0x10 | .isubI => 0x11 | .shlI => 0x12 | .shrI => 0x13 | .sarI => 0x14 | .rotlI => 0x15 | .andI => 0x16
  | .orI => 0x17 | .xorI => 0x18
  | .mov => 0x20 | .not => 0x21 | .ineg => 0x22 | .iabs => 0x23 | .popc => 0x24 | .clz => 0x25 | .brev => 0x26
  | .movi => 0x27
  | .fadd => 0x30 | .fsub => 0x31 | .fmul => 0x32 | .fmin => 0x33 | .fmax => 0x34 | .fscl => 0x35
  | .hadd2F => 0x40 | .hmul2F => 0x41 | .hadd2E => 0x42 | .hmul2E => 0x43

/-- The half operation of an OP7 code; every code not listed is reserved (R146). -/
def HalfOp.ofCode (c : BitVec 7) : Option HalfOp :=
  match c.toNat with
  | 0x00 => some .nop
  | 0x01 => some .iadd | 0x02 => some .isub | 0x03 => some .imul | 0x04 => some .iminS | 0x05 => some .iminN
  | 0x06 => some .imaxS | 0x07 => some .imaxN | 0x08 => some .and | 0x09 => some .or | 0x0A => some .xor
  | 0x0B => some .shl | 0x0C => some .shr | 0x0D => some .sar | 0x0E => some .rotl
  | 0x10 => some .iaddI | 0x11 => some .isubI | 0x12 => some .shlI | 0x13 => some .shrI | 0x14 => some .sarI
  | 0x15 => some .rotlI | 0x16 => some .andI | 0x17 => some .orI | 0x18 => some .xorI
  | 0x20 => some .mov | 0x21 => some .not | 0x22 => some .ineg | 0x23 => some .iabs | 0x24 => some .popc
  | 0x25 => some .clz | 0x26 => some .brev | 0x27 => some .movi
  | 0x30 => some .fadd | 0x31 => some .fsub | 0x32 => some .fmul | 0x33 => some .fmin | 0x34 => some .fmax
  | 0x35 => some .fscl
  | 0x40 => some .hadd2F | 0x41 => some .hmul2F | 0x42 => some .hadd2E | 0x43 => some .hmul2E
  | _ => none

/-! ### The word's fields (Table 5.2) -/

/-- The fields of a full word below bits 63 and 62 (Table 5.2), with S. -/
structure Raw where
  s  : Bool
  op : BitVec 10
  ga : Guard
  gb : Guard
  ch : BitVec 2
  fd : BitVec 8
  fa : BitVec 8
  fb : BitVec 8
  fc : BitVec 8
  fx : BitVec 10
  deriving DecidableEq, Repr

/-- The word of the fields, D = 0 (Tables 5.1, 5.2). -/
def Raw.pack (r : Raw) : DWord :=
  BitVec.ofBool r.s ++ 0#1 ++ r.op ++ r.ga.p ++ BitVec.ofBool r.ga.n ++ r.gb.p ++ BitVec.ofBool r.gb.n
    ++ r.ch ++ r.fd ++ r.fa ++ r.fb ++ r.fc ++ r.fx

/-- The fields of a word (Table 5.2). -/
def Raw.unpack (w : DWord) : Raw where
  s  := w.getLsbD 63
  op := w.extractLsb' 52 10
  ga := ⟨w.extractLsb' 49 3, w.getLsbD 48⟩
  gb := ⟨w.extractLsb' 45 3, w.getLsbD 44⟩
  ch := w.extractLsb' 42 2
  fd := w.extractLsb' 34 8
  fa := w.extractLsb' 26 8
  fb := w.extractLsb' 18 8
  fc := w.extractLsb' 10 8
  fx := w.extractLsb' 0 10

/-- The fields of one half (Table 5.7). -/
def Half.pack (h : Half) : BitVec 31 :=
  h.op.code ++ h.g.p ++ BitVec.ofBool h.g.n ++ h.hd ++ h.ha ++ h.hx

/-- The half of 31 bits, where its OP7 is listed (Table 5.7, R146). -/
def Half.unpack (w : BitVec 31) : Option Half :=
  match HalfOp.ofCode (w.extractLsb' 24 7) with
  | none => none
  | some op => some ⟨op, ⟨w.extractLsb' 21 3, w.getLsbD 20⟩, w.extractLsb' 12 8, w.extractLsb' 4 8, w.extractLsb' 0 4⟩

/-- The prefix of a full word. -/
def Raw.pfx (r : Raw) : Pfx := ⟨r.s, r.ga, r.gb⟩

/-- L, the literal flag: FX bit 9 (R139). -/
def Raw.l (r : Raw) : Bool := r.fx.getLsbD 9
/-- FX bits 8..5 as a type (Table 5.4). -/
def Raw.ty (r : Raw) : Ty := Ty.ofCode (r.fx.extractLsb' 5 4)
/-- FX bits 4..2 as three bits (Table 5.4). -/
def Raw.f42 (r : Raw) : BitVec 3 := r.fx.extractLsb' 2 3
/-- FX bits 1..0 (Table 5.4). -/
def Raw.mx (r : Raw) : BitVec 2 := r.fx.extractLsb' 0 2
/-- Bit `i` of FX. -/
def Raw.x (r : Raw) (i : Nat) : Bool := r.fx.getLsbD i
/-- b64 against b32 in the TY field. -/
def Raw.wide (r : Raw) : Bool := r.ty == .b64
/-- The FB operand (R139). -/
def Raw.srcB (r : Raw) (lit : DWord) : SrcB := if r.l then .lit lit else .reg r.fb
/-- The displacement (R199). -/
def Raw.disp (r : Raw) (lit : DWord) : Disp := if r.l then .lit lit else .short r.fb
/-- The low three bits of an operand field: a predicate or rejoin mask (R137). -/
def Raw.p3 (f : BitVec 8) : BitVec 3 := f.extractLsb' 0 3

/-! ### Encoding -/

/-- A predicate or mask operand field (R137). -/
def f3 (v : BitVec 3) : BitVec 8 := 0#5 ++ v
/-- A tile operand field (R137). -/
def f6 (v : BitVec 6) : BitVec 8 := 0#2 ++ v
/-- A barrier operand field (R137). -/
def f4b (v : BitVec 4) : BitVec 8 := 0#4 ++ v

/-- FB of an operand that may be a literal: zero with a literal (R139). -/
def SrcB.fb : SrcB → BitVec 8
  | .reg r => r
  | .lit _ => 0
/-- L of such an operand. -/
def SrcB.l : SrcB → Bool
  | .reg _ => false
  | .lit _ => true
/-- FB of a displacement (R199). -/
def Disp.fb : Disp → BitVec 8
  | .short d => d
  | .lit _ => 0
/-- L of a displacement (R199). -/
def Disp.l : Disp → Bool
  | .short _ => false
  | .lit _ => true

/-- FX of profile A or M: L, TY, the three-bit and the two-bit sub-field (Table 5.4). -/
def fxA (l : Bool) (ty : BitVec 4) (mid : BitVec 3) (mx : BitVec 2) : BitVec 10 := BitVec.ofBool l ++ ty ++ mid ++ mx
/-- FX holding only L (profile N). -/
def fxL (l : Bool) : BitVec 10 := BitVec.ofBool l ++ 0#9
/-- SAT as MX bit 1 (Table 6.2). -/
def mxSat (sat : Bool) : BitVec 2 := BitVec.ofBool sat ++ 0#1
/-- A flag in MX bit 0. -/
def mx0 (b : Bool) : BitVec 2 := 0#1 ++ BitVec.ofBool b
/-- The TY code of the width forms. -/
def wideTy (w : Bool) : BitVec 4 := if w then 0xF else 0xE
/-- FX of a copy (R215). -/
def fxCopy (l tb rwg : Bool) (sc : Scope) (rel : Bool) : BitVec 10 :=
  BitVec.ofBool l ++ BitVec.ofBool tb ++ BitVec.ofBool rwg ++ 0#2 ++ sc.code ++ BitVec.ofBool rel ++ 0#1
/-- FX of `amma` and `amms` (Table 8.3). -/
def fxArr (l clr tall pair reuse : Bool) : BitVec 10 :=
  BitVec.ofBool l ++ 0#5 ++ BitVec.ofBool clr ++ BitVec.ofBool tall ++ BitVec.ofBool pair ++ BitVec.ofBool reuse
/-- FX of the drains (R247). -/
def fxDrain (hi max w : Bool) (n : BitVec 5) : BitVec 10 :=
  0#2 ++ BitVec.ofBool hi ++ BitVec.ofBool max ++ BitVec.ofBool w ++ n

/-- The fields of a full word from its prefix, opcode and operand fields. -/
def Pfx.raw (p : Pfx) (op : BitVec 10) (fd fa fb fc : BitVec 8) (fx : BitVec 10) (ch : BitVec 2 := 0) : Raw :=
  ⟨p.sw, op, p.ga, p.gb, ch, fd, fa, fb, fc, fx⟩

/-- Word bits 33..10 of a branch: OFF (R224). -/
def offA (o : BitVec 24) : BitVec 8 := o.extractLsb' 16 8
/-- OFF bits 15..8, in FB. -/
def offB (o : BitVec 24) : BitVec 8 := o.extractLsb' 8 8
/-- OFF bits 7..0, in FC. -/
def offC (o : BitVec 24) : BitVec 8 := o.extractLsb' 0 8

/-- The fields of an instruction's full word, from the opcode map (Table 5.9) and each entry's layout. Events and
dual words have none. -/
def encodeRaw (i : Instr) : Option Raw :=
  match i with
  | .iadd p ty sat d a b => some (p.raw 0x001 d a b.fb 0 (fxA b.l ty.code 0 (mxSat sat)))
  | .isub p ty sat d a b => some (p.raw 0x002 d a b.fb 0 (fxA b.l ty.code 0 (mxSat sat)))
  | .imul p ty sat d a b => some (p.raw 0x003 d a b.fb 0 (fxA b.l ty.code 0 (mxSat sat)))
  | .imulh p ty d a b => some (p.raw 0x004 d a b.fb 0 (fxA b.l ty.code 0 0))
  | .imad p ty sat d a b c => some (p.raw 0x005 d a b.fb c (fxA b.l ty.code 0 (mxSat sat)))
  | .iaddc p d a b pc => some (p.raw 0x006 d a b.fb (f3 pc) (fxA b.l Ty.n32.code 0 0))
  | .isubb p d a b pc => some (p.raw 0x007 d a b.fb (f3 pc) (fxA b.l Ty.n32.code 0 0))
  | .imin p ty d a b => some (p.raw 0x008 d a b.fb 0 (fxA b.l ty.code 0 0))
  | .imax p ty d a b => some (p.raw 0x009 d a b.fb 0 (fxA b.l ty.code 0 0))
  | .iabs p ty sat d a => some (p.raw 0x00A d a 0 0 (fxA false ty.code 0 (mxSat sat)))
  | .ineg p ty sat d a => some (p.raw 0x00B d a 0 0 (fxA false ty.code 0 (mxSat sat)))
  | .sel p w d a b pc => some (p.raw 0x00C d a b.fb (f3 pc) (fxA b.l (wideTy w) 0 0))
  | .icmp p cc ty pd a b => some (p.raw 0x00D (f3 pd) a b.fb 0 (fxA b.l ty.code cc.code 0))
  | .mov p w d a => some (p.raw 0x00E d a 0 0 (fxA false (wideTy w) 0 0))
  | .movi p w d (.short v) => some (p.raw 0x00F d 0 0 0 (0#1 ++ BitVec.ofBool w ++ v))
  | .movi p w d (.lit _) => some (p.raw 0x00F d 0 0 0 (1#1 ++ BitVec.ofBool w ++ 0#8))
  | .pset p op na nb pd pa pb =>
      some (p.raw 0x010 (f3 pd) (f3 pa) (f3 pb) 0 (0#6 ++ BitVec.ofBool na ++ BitVec.ofBool nb ++ op.code))
  | .pmov p d => some (p.raw 0x011 d 0 0 0 0)
  | .pmovSet p a mask => some (p.raw 0x011 0 a 0 0 (0#2 ++ mask ++ 1#1))
  | .lea p ty d a b sh => some (p.raw 0x040 d a b.fb 0 (fxA b.l ty.code sh 0))
  | .ladd p d a b => some (p.raw 0x041 d a b.fb 0 (fxA b.l Ty.b64.code 0 0))
  | .lsub p d a b => some (p.raw 0x042 d a b.fb 0 (fxA b.l Ty.b64.code 0 0))
  | .lcmp p cc sgn pd a b => some (p.raw 0x043 (f3 pd) a b.fb 0 (fxA b.l Ty.b64.code cc.code (mx0 sgn)))
  | .bAnd p w d a b => some (p.raw 0x048 d a b.fb 0 (fxA b.l (wideTy w) 0 0))
  | .bOr p w d a b => some (p.raw 0x049 d a b.fb 0 (fxA b.l (wideTy w) 0 0))
  | .bXor p w d a b => some (p.raw 0x04A d a b.fb 0 (fxA b.l (wideTy w) 0 0))
  | .bNot p w d a => some (p.raw 0x04B d a 0 0 (fxA false (wideTy w) 0 0))
  | .shl p d a b => some (p.raw 0x04C d a b.fb 0 (fxA b.l Ty.b32.code 0 0))
  | .shr p d a b => some (p.raw 0x04D d a b.fb 0 (fxA b.l Ty.b32.code 0 0))
  | .sar p d a b => some (p.raw 0x04E d a b.fb 0 (fxA b.l Ty.b32.code 0 0))
  | .rotl p d a b => some (p.raw 0x04F d a b.fb 0 (fxA b.l Ty.b32.code 0 0))
  | .bfx p ty d a b => some (p.raw 0x050 d a b.fb 0 (fxA b.l ty.code 0 0))
  | .bfi p d a b c => some (p.raw 0x051 d a b.fb c (fxA b.l Ty.b32.code 0 0))
  | .popc p d a => some (p.raw 0x052 d a 0 0 (fxA false Ty.b32.code 0 0))
  | .clz p d a => some (p.raw 0x053 d a 0 0 (fxA false Ty.b32.code 0 0))
  | .brev p d a => some (p.raw 0x054 d a 0 0 (fxA false Ty.b32.code 0 0))
  | .fadd p rm d a b => some (p.raw 0x080 d a b.fb 0 (fxA b.l Ty.f32.code rm.code 0))
  | .fsub p rm d a b => some (p.raw 0x081 d a b.fb 0 (fxA b.l Ty.f32.code rm.code 0))
  | .fmul p rm d a b => some (p.raw 0x082 d a b.fb 0 (fxA b.l Ty.f32.code rm.code 0))
  | .ffma p rm d a b c => some (p.raw 0x083 d a b.fb c (fxA b.l Ty.f32.code rm.code 0))
  | .fmin p d a b => some (p.raw 0x084 d a b.fb 0 (fxA b.l Ty.f32.code 0 0))
  | .fmax p d a b => some (p.raw 0x085 d a b.fb 0 (fxA b.l Ty.f32.code 0 0))
  | .fcmp p cc pd a b => some (p.raw 0x086 (f3 pd) a b.fb 0 (fxA b.l Ty.f32.code cc.code 0))
  | .fsel p cc d a b c => some (p.raw 0x087 d a b.fb c (fxA b.l Ty.f32.code cc.code 0))
  | .fclass p d a => some (p.raw 0x088 d a 0 0 (fxA false Ty.f32.code 0 0))
  | .frnd p rm d a => some (p.raw 0x089 d a 0 0 (fxA false Ty.f32.code rm.code 0))
  | .ffrac p d a => some (p.raw 0x08A d a 0 0 (fxA false Ty.f32.code 0 0))
  | .fscl p d a b => some (p.raw 0x08B d a b.fb 0 (fxA b.l Ty.f32.code 0 0))
  | .frcp p rm d a => some (p.raw 0x090 d a 0 0 (fxA false Ty.f32.code rm.code 0))
  | .frsq p d a => some (p.raw 0x091 d a 0 0 (fxA false Ty.f32.code 0 0))
  | .fsqrt p rm d a => some (p.raw 0x092 d a 0 0 (fxA false Ty.f32.code rm.code 0))
  | .fexp2 p d a => some (p.raw 0x093 d a 0 0 (fxA false Ty.f32.code 0 0))
  | .flog2 p d a => some (p.raw 0x094 d a 0 0 (fxA false Ty.f32.code 0 0))
  | .fsin p d a => some (p.raw 0x095 d a 0 0 (fxA false Ty.f32.code 0 0))
  | .fcos p d a => some (p.raw 0x096 d a 0 0 (fxA false Ty.f32.code 0 0))
  | .hadd2 p ty rm d a b => some (p.raw 0x098 d a b.fb 0 (fxA b.l ty.code rm.code 0))
  | .hmul2 p ty rm d a b => some (p.raw 0x099 d a b.fb 0 (fxA b.l ty.code rm.code 0))
  | .hfma2 p rm d a b c => some (p.raw 0x09A d a b.fb c (fxA b.l Ty.f16.code rm.code 0))
  | .efma2 p rm d a b c => some (p.raw 0x09B d a b.fb c (fxA b.l Ty.e16.code rm.code 0))
  | .ivadd p d a b => some (p.raw 0x0C0 d a b.fb 0 (fxL b.l))
  | .ivsub p d a b => some (p.raw 0x0C1 d a b.fb 0 (fxL b.l))
  | .ivmul p d a b => some (p.raw 0x0C2 d a b.fb 0 (fxL b.l))
  | .ivsqr p d a => some (p.raw 0x0C3 d a 0 0 0)
  | .ivsqrt p d a => some (p.raw 0x0C4 d a 0 0 0)
  | .ivmin p d a b => some (p.raw 0x0C5 d a b.fb 0 (fxL b.l))
  | .ivmax p d a b => some (p.raw 0x0C6 d a b.fb 0 (fxL b.l))
  | .ivabs p d a => some (p.raw 0x0C7 d a 0 0 0)
  | .ivhull p d a b => some (p.raw 0x0C8 d a b.fb 0 (fxL b.l))
  | .ivsplit p d c a => some (p.raw 0x0C9 d a 0 c 0)
  | .cvt p dt src rm sat d a => some (p.raw 0x100 d a 0 (0#4 ++ src.code) (fxA false dt.code rm.code (mxSat sat)))
  | .cvef p dt d a c => some (p.raw 0x101 d a 0 c (fxA false dt.code 4 0))
  | .pack p ty idx d a => some (p.raw 0x102 d a 0 0 (fxA false ty.code idx 0))
  | .unpack p ty idx d a => some (p.raw 0x103 d a 0 0 (fxA false ty.code idx 0))
  | .prm p d a b c => some (p.raw 0x104 d a b.fb c (fxA b.l Ty.b32.code 0 0))
  | .dot2 p ty d a b c => some (p.raw 0x105 d a b.fb c (fxA b.l ty.code 0 0))
  | .dot4 p ty d a b c => some (p.raw 0x106 d a b.fb c (fxA b.l ty.code 0 0))
  | .dot8 p ty d a b c => some (p.raw 0x107 d a b.fb c (fxA b.l ty.code 0 0))
  | .rdfl p w d a => some (p.raw 0x140 d a 0 0 (fxA false (wideTy w) 0 0))
  | .bcast p w d a lane => some (p.raw 0x141 d a 0 0 (0#1 ++ wideTy w ++ lane))
  | .shfl p m w d a b => some (p.raw 0x142 d a b.fb 0 (fxA b.l (wideTy w) 0 m.code))
  | .vote p m d a => some (p.raw 0x143 d a 0 0 (fxA false (if m = .uni then Ty.b32.code else 0) 0 m.code))
  | .redu p op ty d a => some (p.raw 0x144 d a 0 0 (fxA false ty.code op.code 0))
  | .scan p op ex ty d a => some (p.raw 0x145 d a 0 0 (fxA false ty.code op.code (mx0 ex)))
  | .matchL p w d a => some (p.raw 0x146 d a 0 0 (fxA false (wideTy w) 0 0))
  | .hist p d a sh => some (p.raw 0x147 d a 0 0 (0#1 ++ Ty.n32.code ++ sh))
  | .hmerge p ty rl desc d a c => some (p.raw 0x148 d a 0 c (fxA false ty.code rl (mx0 desc)))
  | .ld p ch ty v ord scp d a dsp =>
      some (p.raw 0x180 d a dsp.fb (0#6 ++ v.code) (fxA dsp.l ty.code scp.code ord.code) ch)
  | .st p ch ty v ord scp d a dsp =>
      some (p.raw 0x181 d a dsp.fb (0#6 ++ v.code) (fxA dsp.l ty.code scp.code ord.code) ch)
  | .ldu p ch ty v d a dsp => some (p.raw 0x182 d a dsp.fb (0#6 ++ v.code) (fxA dsp.l ty.code 0 0) ch)
  | .atom p ch op ty nr sgn ord scp d a b =>
      some (p.raw 0x183 d a b.fb (0#2 ++ BitVec.ofBool sgn ++ BitVec.ofBool nr ++ op.code)
        (fxA b.l ty.code scp.code ord.code) ch)
  | .lr p ch w acq scp d a =>
      some (p.raw 0x184 d a 0 0 (fxA false (wideTy w) scp.code (if acq then 1 else 0)) ch)
  | .sc p ch w rel scp d a b =>
      some (p.raw 0x185 d a b.fb 0 (fxA b.l (wideTy w) scp.code (if rel then 2 else 0)) ch)
  | .fence p ch ord scp => some (p.raw 0x186 0 0 0 0 (fxA false 0 scp.code ord.code) ch)
  | .gth p ch w v sx rel scp sh d a b =>
      some (p.raw 0x188 d a b (0#2 ++ BitVec.ofBool sx ++ sh ++ v.code)
        (fxA false (wideTy w) scp.code (if rel then 2 else 0)) ch)
  | .sct p ch w v sx rel scp sh d a b =>
      some (p.raw 0x189 d a b (0#2 ++ BitVec.ofBool sx ++ sh ++ v.code)
        (fxA false (wideTy w) scp.code (if rel then 2 else 0)) ch)
  | .pfch p ch l2 a dsp => some (p.raw 0x18A 0 a dsp.fb 0 (fxA dsp.l 0 0 (mx0 l2)) ch)
  | .icinv p ch scp => some (p.raw 0x18B 0 0 0 0 (fxA false 0 scp.code 0) ch)
  | .acp p ch tb rwg rel scp d a b c => some (p.raw 0x200 d a b.fb c (fxCopy b.l tb rwg scp rel) ch)
  | .acps p ch tb rwg rel scp d a b c => some (p.raw 0x201 d a b c (fxCopy false tb rwg scp rel) ch)
  | .acpw p ch tb rwg rel scp d a b c => some (p.raw 0x202 d a b.fb c (fxCopy b.l tb rwg scp rel) ch)
  | .acpx p ch tb rel d a b c => some (p.raw 0x203 d a b.fb c (fxCopy b.l tb false .sys rel) ch)
  | .wcnt p cls n => some (p.raw 0x204 0 0 0 0 (0#1 ++ n ++ cls.code))
  | .tbinit p a b => some (p.raw 0x208 0 a b.fb 0 (fxL b.l))
  | .tbarv p d a => some (p.raw 0x209 d a 0 0 0)
  | .tbexp p a b => some (p.raw 0x20A 0 a b.fb 0 (fxL b.l))
  | .tbwt p a b => some (p.raw 0x20B 0 a b.fb 0 (fxL b.l))
  | .barinit p n b => some (p.raw 0x210 (f4b n) 0 b.fb 0 (fxL b.l))
  | .bar p n => some (p.raw 0x211 (f4b n) 0 0 0 0)
  | .bararv p n => some (p.raw 0x212 (f4b n) 0 0 0 0)
  | .barwt p n => some (p.raw 0x213 (f4b n) 0 0 0 0)
  | .gbar p b => some (p.raw 0x214 0 0 b.fb 0 (fxL b.l))
  | .bra p off => some (p.raw 0x240 0 (offA off) (offB off) (offC off) 0)
  | .brx p a => some (p.raw 0x241 0 a 0 0 0)
  | .call p d off => some (p.raw 0x242 d (offA off) (offB off) (offC off) 0)
  | .callx p d a => some (p.raw 0x243 d a 0 0 0)
  | .ret p a => some (p.raw 0x244 0 a 0 0 0)
  | .exit p => some (p.raw 0x245 0 0 0 0 0)
  | .yield p => some (p.raw 0x246 0 0 0 0 0)
  | .nop p => some (p.raw 0x247 0 0 0 0 0)
  | .rjset p k b => some (p.raw 0x248 (f3 k) 0 b.fb 0 (fxL b.l))
  | .rjoin p k => some (p.raw 0x249 (f3 k) 0 0 0 0)
  | .spawn p b a len => some (p.raw 0x24A 0 a b.fb 0 (BitVec.ofBool b.l ++ 0#2 ++ len))
  | .prbOn p => some (p.raw 0x24C 0 0 0 0 1)
  | .prbOff p => some (p.raw 0x24C 0 0 0 0 0)
  | .trap p code => some (p.raw 0x24D 0 0 0 0 (0#1 ++ code))
  | .brk p code => some (p.raw 0x24E 0 0 0 0 (0#1 ++ code))
  | .aalloc p d b => some (p.raw 0x280 d 0 b.fb 0 (fxL b.l))
  | .agrow p d b => some (p.raw 0x281 d 0 b.fb 0 (fxL b.l))
  | .afree p d b => some (p.raw 0x282 d 0 b.fb 0 (fxL b.l))
  | .azero p t => some (p.raw 0x283 (f6 t) 0 0 0 0)
  | .ald p ty scp t a => some (p.raw 0x284 (f6 t) a 0 (f3 scp.code) (fxA false ty.code 0 0))
  | .ast p ty rm sat scp t a => some (p.raw 0x285 (f6 t) a 0 (f3 scp.code) (fxA false ty.code rm.code (mxSat sat)))
  | .amma p pair tall reuse clr t a b f => some (p.raw 0x288 (f6 t) a b.fb f (fxArr b.l clr tall pair reuse))
  | .amms p pair tall reuse clr t a b f => some (p.raw 0x289 (f6 t) a b.fb f (fxArr b.l clr tall pair reuse))
  | .adrain p max hi w n d t => some (p.raw 0x28A d (f6 t) 0 0 (fxDrain hi max w n))
  | .atopk p max hi w n kk d t => some (p.raw 0x28B d (f6 t) 0 (f3 kk) (fxDrain hi max w n))
  | .cupd p t a b f => some (p.raw 0x28C (f6 t) a b f 0)
  | .cfin p ty n t a => some (p.raw 0x28D (f6 t) a 0 0 (0#1 ++ ty.code ++ n))
  | .vacc p k t a f col => some (p.raw 0x290 (f6 t) a 0 f (0#4 ++ k.code ++ col))
  | .vtop p t a f col => some (p.raw 0x291 (f6 t) a 0 f (0#6 ++ col))
  | .vset p max kk a => some (p.raw 0x292 0 a 0 0 (0#6 ++ kk ++ BitVec.ofBool max))
  | .vsetRd p d => some (p.raw 0x292 d 0 0 0 (0#5 ++ 1#1 ++ 0#4))
  | .vchk p k pd a pc => some (p.raw 0x293 (f3 pd) a 0 (f3 pc) (0#8 ++ k.code))
  | .fork p na nc a b c => some (p.raw 0x298 na a b c (0#4 ++ nc))
  | .rdv p => some (p.raw 0x299 0 0 0 0 0)
  | .leave p d cls b => some (p.raw 0x29A d 0 b.fb 0 (BitVec.ofBool b.l ++ 0#6 ++ cls))
  | .lvfree p => some (p.raw 0x29B 0 0 0 0 0)
  | .march p aff d a b => some (p.raw 0x300 d a b.fb 0 (BitVec.ofBool b.l ++ 0#8 ++ BitVec.ofBool aff))
  | .mres p d a b => some (p.raw 0x301 d a b.fb 0 (fxL b.l))
  | .mresAbort p d a => some (p.raw 0x301 d a 0 0 1)
  | .mqry p ray d a => some (p.raw 0x302 d a 0 0 (0#9 ++ BitVec.ofBool ray))
  | .prep p d a b => some (p.raw 0x303 d a b 0 0)
  | .veval p iv d a b => some (p.raw 0x304 d a b 0 (0#9 ++ BitVec.ofBool iv))
  | .bfetch p d a b => some (p.raw 0x305 d a b 0 0)
  | .zts p le d a b => some (p.raw 0x306 d a b.fb 0 (BitVec.ofBool b.l ++ 0#8 ++ BitVec.ofBool le))
  | .rsub p d a => some (p.raw 0x307 d a 0 0 0)
  | .cmeta p d a => some (p.raw 0x308 d a 0 0 0)
  | .rdsr p d sr => some (p.raw 0x340 d sr.code 0 0 0)
  | .wrsr p sr b => some (p.raw 0x341 sr.code 0 b.fb 0 (fxL b.l))
  | .sysc p code => some (p.raw 0x342 0 0 0 0 (0#1 ++ code))
  | .tret p => some (p.raw 0x343 0 0 0 0 0)
  | .tlbinv p scp a => some (p.raw 0x344 0 a 0 0 (fxA false 0 scp.code 0))
  | .tlbinvAll p scp => some (p.raw 0x344 0 0 0 0 (fxA false 0 scp.code 1))
  | .ctxsv p a => some (p.raw 0x345 0 a 0 0 0)
  | .ctxld p a => some (p.raw 0x346 0 a 0 0 0)
  | .hltWg p => some (p.raw 0x347 0 0 0 0 0)
  | .hltCtx p => some (p.raw 0x347 0 0 0 0 1)
  | _ => none

/-- The instruction's 64-bit word; an event has none (R133, R134, R143). -/
def encodeWord (i : Instr) : Option DWord :=
  match i with
  | .dualWord sw h1 h2 => some (BitVec.ofBool sw ++ 1#1 ++ h1.pack ++ h2.pack)
  | i => (encodeRaw i).map Raw.pack

/-- The literal word that follows the instruction (R139). -/
def SrcB.lit? : SrcB → Option DWord
  | .reg _ => none
  | .lit w => some w

/-- The literal word of a displacement (R199). -/
def Disp.lit? : Disp → Option DWord
  | .short _ => none
  | .lit w => some w

/-- The literal word of an instruction, where it has one (R139). -/
def literalOf (i : Instr) : Option DWord :=
  match i with
  | .iadd _ _ _ _ _ b | .isub _ _ _ _ _ b | .imul _ _ _ _ _ b | .imulh _ _ _ _ b | .imad _ _ _ _ _ b _
  | .iaddc _ _ _ b _ | .isubb _ _ _ b _ | .imin _ _ _ _ b | .imax _ _ _ _ b | .sel _ _ _ _ b _
  | .icmp _ _ _ _ _ b | .lea _ _ _ _ b _ | .ladd _ _ _ b | .lsub _ _ _ b | .lcmp _ _ _ _ _ b
  | .bAnd _ _ _ _ b | .bOr _ _ _ _ b | .bXor _ _ _ _ b | .shl _ _ _ b | .shr _ _ _ b | .sar _ _ _ b
  | .rotl _ _ _ b | .bfx _ _ _ _ b | .bfi _ _ _ b _ | .fadd _ _ _ _ b | .fsub _ _ _ _ b | .fmul _ _ _ _ b
  | .ffma _ _ _ _ b _ | .fmin _ _ _ b | .fmax _ _ _ b | .fcmp _ _ _ _ b | .fsel _ _ _ _ b _ | .fscl _ _ _ b
  | .hadd2 _ _ _ _ _ b | .hmul2 _ _ _ _ _ b | .hfma2 _ _ _ _ b _ | .efma2 _ _ _ _ b _ | .ivadd _ _ _ b
  | .ivsub _ _ _ b | .ivmul _ _ _ b | .ivmin _ _ _ b | .ivmax _ _ _ b | .ivhull _ _ _ b | .prm _ _ _ b _
  | .dot2 _ _ _ _ b _ | .dot4 _ _ _ _ b _ | .dot8 _ _ _ _ b _ | .shfl _ _ _ _ _ b
  | .atom _ _ _ _ _ _ _ _ _ _ b | .sc _ _ _ _ _ _ _ b | .acp _ _ _ _ _ _ _ _ b _ | .acpw _ _ _ _ _ _ _ _ b _
  | .acpx _ _ _ _ _ _ b _ | .tbinit _ _ b | .tbexp _ _ b | .tbwt _ _ b | .barinit _ _ b | .gbar _ b
  | .rjset _ _ b | .spawn _ b _ _ | .aalloc _ _ b | .agrow _ _ b | .afree _ _ b | .amma _ _ _ _ _ _ _ b _
  | .amms _ _ _ _ _ _ _ b _ | .leave _ _ _ b | .march _ _ _ _ b | .mres _ _ _ b | .zts _ _ _ _ b
  | .wrsr _ _ b => b.lit?
  | .movi _ _ _ (.lit w) => some w
  | .ld _ _ _ _ _ _ _ _ dsp | .st _ _ _ _ _ _ _ _ dsp | .ldu _ _ _ _ _ _ dsp | .pfch _ _ _ _ dsp => dsp.lit?
  | _ => none

/-- The words of an instruction: the word, and the literal where there is one. -/
def encode (i : Instr) : List DWord :=
  match encodeWord i with
  | none => []
  | some w => w :: (literalOf i).toList

/-- The bytes an instruction occupies (R139). -/
def sizeOf (i : Instr) : Nat := if (literalOf i).isSome then 16 else 8

/-! ### Decoding -/

/-- The parser of one opcode: which instruction the fields name, before the checks. -/
abbrev Parser := Raw → DWord → Option Instr

/-- The opcode map (Table 5.9): each code with the operand layout of its entry. -/
def opcodeMap1 : List (Nat × Parser) :=
  [ (0x001, fun r l => some (.iadd r.pfx r.ty (r.x 1) r.fd r.fa (r.srcB l))),
    (0x002, fun r l => some (.isub r.pfx r.ty (r.x 1) r.fd r.fa (r.srcB l))),
    (0x003, fun r l => some (.imul r.pfx r.ty (r.x 1) r.fd r.fa (r.srcB l))),
    (0x004, fun r l => some (.imulh r.pfx r.ty r.fd r.fa (r.srcB l))),
    (0x005, fun r l => some (.imad r.pfx r.ty (r.x 1) r.fd r.fa (r.srcB l) r.fc)),
    (0x006, fun r l => some (.iaddc r.pfx r.fd r.fa (r.srcB l) (Raw.p3 r.fc))),
    (0x007, fun r l => some (.isubb r.pfx r.fd r.fa (r.srcB l) (Raw.p3 r.fc))),
    (0x008, fun r l => some (.imin r.pfx r.ty r.fd r.fa (r.srcB l))),
    (0x009, fun r l => some (.imax r.pfx r.ty r.fd r.fa (r.srcB l))),
    (0x00A, fun r _ => some (.iabs r.pfx r.ty (r.x 1) r.fd r.fa)),
    (0x00B, fun r _ => some (.ineg r.pfx r.ty (r.x 1) r.fd r.fa)),
    (0x00C, fun r l => some (.sel r.pfx r.wide r.fd r.fa (r.srcB l) (Raw.p3 r.fc))),
    (0x00D, fun r l => some (.icmp r.pfx (CC.ofCode r.f42) r.ty (Raw.p3 r.fd) r.fa (r.srcB l))),
    (0x00E, fun r _ => some (.mov r.pfx r.wide r.fd r.fa)),
    (0x00F, fun r l => some (.movi r.pfx (r.x 8) r.fd (if r.l then .lit l else .short (r.fx.extractLsb' 0 8)))),
    (0x010, fun r _ => (LOp.ofCode r.mx).map fun op =>
      .pset r.pfx op (r.x 3) (r.x 2) (Raw.p3 r.fd) (Raw.p3 r.fa) (Raw.p3 r.fb)),
    (0x011, fun r _ => some (if r.x 0 then .pmovSet r.pfx r.fa (r.fx.extractLsb' 1 7) else .pmov r.pfx r.fd)),
    (0x040, fun r l => some (.lea r.pfx r.ty r.fd r.fa (r.srcB l) r.f42)),
    (0x041, fun r l => some (.ladd r.pfx r.fd r.fa (r.srcB l))),
    (0x042, fun r l => some (.lsub r.pfx r.fd r.fa (r.srcB l))),
    (0x043, fun r l => some (.lcmp r.pfx (CC.ofCode r.f42) (r.x 0) (Raw.p3 r.fd) r.fa (r.srcB l))),
    (0x048, fun r l => some (.bAnd r.pfx r.wide r.fd r.fa (r.srcB l))),
    (0x049, fun r l => some (.bOr r.pfx r.wide r.fd r.fa (r.srcB l))),
    (0x04A, fun r l => some (.bXor r.pfx r.wide r.fd r.fa (r.srcB l))),
    (0x04B, fun r _ => some (.bNot r.pfx r.wide r.fd r.fa)),
    (0x04C, fun r l => some (.shl r.pfx r.fd r.fa (r.srcB l))),
    (0x04D, fun r l => some (.shr r.pfx r.fd r.fa (r.srcB l))),
    (0x04E, fun r l => some (.sar r.pfx r.fd r.fa (r.srcB l))),
    (0x04F, fun r l => some (.rotl r.pfx r.fd r.fa (r.srcB l))),
    (0x050, fun r l => some (.bfx r.pfx r.ty r.fd r.fa (r.srcB l))),
    (0x051, fun r l => some (.bfi r.pfx r.fd r.fa (r.srcB l) r.fc)),
    (0x052, fun r _ => some (.popc r.pfx r.fd r.fa)),
    (0x053, fun r _ => some (.clz r.pfx r.fd r.fa)),
    (0x054, fun r _ => some (.brev r.pfx r.fd r.fa)) ]

/-- The opcode map (Table 5.9): floating point, intervals, conversion, lane and team. -/
def opcodeMap2 : List (Nat × Parser) :=
  [ (0x080, fun r l => (RM.ofCode r.f42).map fun m => .fadd r.pfx m r.fd r.fa (r.srcB l)),
    (0x081, fun r l => (RM.ofCode r.f42).map fun m => .fsub r.pfx m r.fd r.fa (r.srcB l)),
    (0x082, fun r l => (RM.ofCode r.f42).map fun m => .fmul r.pfx m r.fd r.fa (r.srcB l)),
    (0x083, fun r l => (RM.ofCode r.f42).map fun m => .ffma r.pfx m r.fd r.fa (r.srcB l) r.fc),
    (0x084, fun r l => some (.fmin r.pfx r.fd r.fa (r.srcB l))),
    (0x085, fun r l => some (.fmax r.pfx r.fd r.fa (r.srcB l))),
    (0x086, fun r l => some (.fcmp r.pfx (CC.ofCode r.f42) (Raw.p3 r.fd) r.fa (r.srcB l))),
    (0x087, fun r l => some (.fsel r.pfx (CC.ofCode r.f42) r.fd r.fa (r.srcB l) r.fc)),
    (0x088, fun r _ => some (.fclass r.pfx r.fd r.fa)),
    (0x089, fun r _ => (RM.ofCode r.f42).map fun m => .frnd r.pfx m r.fd r.fa),
    (0x08A, fun r _ => some (.ffrac r.pfx r.fd r.fa)),
    (0x08B, fun r l => some (.fscl r.pfx r.fd r.fa (r.srcB l))),
    (0x090, fun r _ => (RM.ofCode r.f42).map fun m => .frcp r.pfx m r.fd r.fa),
    (0x091, fun r _ => some (.frsq r.pfx r.fd r.fa)),
    (0x092, fun r _ => (RM.ofCode r.f42).map fun m => .fsqrt r.pfx m r.fd r.fa),
    (0x093, fun r _ => some (.fexp2 r.pfx r.fd r.fa)),
    (0x094, fun r _ => some (.flog2 r.pfx r.fd r.fa)),
    (0x095, fun r _ => some (.fsin r.pfx r.fd r.fa)),
    (0x096, fun r _ => some (.fcos r.pfx r.fd r.fa)),
    (0x098, fun r l => (RM.ofCode r.f42).map fun m => .hadd2 r.pfx r.ty m r.fd r.fa (r.srcB l)),
    (0x099, fun r l => (RM.ofCode r.f42).map fun m => .hmul2 r.pfx r.ty m r.fd r.fa (r.srcB l)),
    (0x09A, fun r l => (RM.ofCode r.f42).map fun m => .hfma2 r.pfx m r.fd r.fa (r.srcB l) r.fc),
    (0x09B, fun r l => (RM.ofCode r.f42).map fun m => .efma2 r.pfx m r.fd r.fa (r.srcB l) r.fc),
    (0x0C0, fun r l => some (.ivadd r.pfx r.fd r.fa (r.srcB l))),
    (0x0C1, fun r l => some (.ivsub r.pfx r.fd r.fa (r.srcB l))),
    (0x0C2, fun r l => some (.ivmul r.pfx r.fd r.fa (r.srcB l))),
    (0x0C3, fun r _ => some (.ivsqr r.pfx r.fd r.fa)),
    (0x0C4, fun r _ => some (.ivsqrt r.pfx r.fd r.fa)),
    (0x0C5, fun r l => some (.ivmin r.pfx r.fd r.fa (r.srcB l))),
    (0x0C6, fun r l => some (.ivmax r.pfx r.fd r.fa (r.srcB l))),
    (0x0C7, fun r _ => some (.ivabs r.pfx r.fd r.fa)),
    (0x0C8, fun r l => some (.ivhull r.pfx r.fd r.fa (r.srcB l))),
    (0x0C9, fun r _ => some (.ivsplit r.pfx r.fd r.fc r.fa)),
    (0x100, fun r _ => (RM.ofCode r.f42).map fun m =>
      .cvt r.pfx r.ty (Ty.ofCode (r.fc.extractLsb' 0 4)) m (r.x 1) r.fd r.fa),
    (0x101, fun r _ => some (.cvef r.pfx r.ty r.fd r.fa r.fc)),
    (0x102, fun r _ => some (.pack r.pfx r.ty r.f42 r.fd r.fa)),
    (0x103, fun r _ => some (.unpack r.pfx r.ty r.f42 r.fd r.fa)),
    (0x104, fun r l => some (.prm r.pfx r.fd r.fa (r.srcB l) r.fc)),
    (0x105, fun r l => some (.dot2 r.pfx r.ty r.fd r.fa (r.srcB l) r.fc)),
    (0x106, fun r l => some (.dot4 r.pfx r.ty r.fd r.fa (r.srcB l) r.fc)),
    (0x107, fun r l => some (.dot8 r.pfx r.ty r.fd r.fa (r.srcB l) r.fc)),
    (0x140, fun r _ => some (.rdfl r.pfx r.wide r.fd r.fa)),
    (0x141, fun r _ => some (.bcast r.pfx r.wide r.fd r.fa (r.fx.extractLsb' 0 5))),
    (0x142, fun r l => some (.shfl r.pfx (ShflMode.ofCode r.mx) r.wide r.fd r.fa (r.srcB l))),
    (0x143, fun r _ => some (.vote r.pfx (VoteMode.ofCode r.mx) r.fd r.fa)),
    (0x144, fun r _ => (FoldOp.ofCode r.f42).map fun op => .redu r.pfx op r.ty r.fd r.fa),
    (0x145, fun r _ => (FoldOp.ofCode r.f42).map fun op => .scan r.pfx op (r.x 0) r.ty r.fd r.fa),
    (0x146, fun r _ => some (.matchL r.pfx r.wide r.fd r.fa)),
    (0x147, fun r _ => some (.hist r.pfx r.fd r.fa (r.fx.extractLsb' 0 5))),
    (0x148, fun r _ => some (.hmerge r.pfx r.ty r.f42 (r.x 0) r.fd r.fa r.fc)) ]

/-- The opcode map (Table 5.9): memory, asynchronous operations, barriers, control. -/
def opcodeMap3 : List (Nat × Parser) :=
  [ (0x180, fun r l => (Scope.ofCode r.f42).bind fun scp => (Vec.ofCode (r.fc.extractLsb' 0 2)).map fun v =>
      .ld r.pfx r.ch r.ty v (Ord4.ofCode r.mx) scp r.fd r.fa (r.disp l)),
    (0x181, fun r l => (Scope.ofCode r.f42).bind fun scp => (Vec.ofCode (r.fc.extractLsb' 0 2)).map fun v =>
      .st r.pfx r.ch r.ty v (Ord4.ofCode r.mx) scp r.fd r.fa (r.disp l)),
    (0x182, fun r l => (Vec.ofCode (r.fc.extractLsb' 0 2)).map fun v =>
      .ldu r.pfx r.ch r.ty v r.fd r.fa (r.disp l)),
    (0x183, fun r l => (Scope.ofCode r.f42).bind fun scp => (AOp.ofCode (r.fc.extractLsb' 0 4)).map fun op =>
      .atom r.pfx r.ch op r.ty (r.fc.getLsbD 4) (r.fc.getLsbD 5) (Ord4.ofCode r.mx) scp r.fd r.fa (r.srcB l)),
    (0x184, fun r _ => (Scope.ofCode r.f42).map fun scp => .lr r.pfx r.ch r.wide (r.x 0) scp r.fd r.fa),
    (0x185, fun r l => (Scope.ofCode r.f42).map fun scp => .sc r.pfx r.ch r.wide (r.x 1) scp r.fd r.fa (r.srcB l)),
    (0x186, fun r _ => (Scope.ofCode r.f42).map fun scp => .fence r.pfx r.ch (Ord4.ofCode r.mx) scp),
    (0x188, fun r _ => (Scope.ofCode r.f42).bind fun scp => (Vec.ofCode (r.fc.extractLsb' 0 2)).map fun v =>
      .gth r.pfx r.ch r.wide v (r.fc.getLsbD 5) (r.x 1) scp (r.fc.extractLsb' 2 3) r.fd r.fa r.fb),
    (0x189, fun r _ => (Scope.ofCode r.f42).bind fun scp => (Vec.ofCode (r.fc.extractLsb' 0 2)).map fun v =>
      .sct r.pfx r.ch r.wide v (r.fc.getLsbD 5) (r.x 1) scp (r.fc.extractLsb' 2 3) r.fd r.fa r.fb),
    (0x18A, fun r l => some (.pfch r.pfx r.ch (r.x 0) r.fa (r.disp l))),
    (0x18B, fun r _ => (Scope.ofCode r.f42).map fun scp => .icinv r.pfx r.ch scp),
    (0x200, fun r l => (Scope.ofCode r.f42).map fun scp =>
      .acp r.pfx r.ch (r.x 8) (r.x 7) (r.x 1) scp r.fd r.fa (r.srcB l) r.fc),
    (0x201, fun r _ => (Scope.ofCode r.f42).map fun scp =>
      .acps r.pfx r.ch (r.x 8) (r.x 7) (r.x 1) scp r.fd r.fa r.fb r.fc),
    (0x202, fun r l => (Scope.ofCode r.f42).map fun scp =>
      .acpw r.pfx r.ch (r.x 8) (r.x 7) (r.x 1) scp r.fd r.fa (r.srcB l) r.fc),
    (0x203, fun r l => some (.acpx r.pfx r.ch (r.x 8) (r.x 1) r.fd r.fa (r.srcB l) r.fc)),
    (0x204, fun r _ => (Cls.ofCode (r.fx.extractLsb' 0 3)).map fun c => .wcnt r.pfx c (r.fx.extractLsb' 3 6)),
    (0x208, fun r l => some (.tbinit r.pfx r.fa (r.srcB l))),
    (0x209, fun r _ => some (.tbarv r.pfx r.fd r.fa)),
    (0x20A, fun r l => some (.tbexp r.pfx r.fa (r.srcB l))),
    (0x20B, fun r l => some (.tbwt r.pfx r.fa (r.srcB l))),
    (0x210, fun r l => some (.barinit r.pfx (r.fd.extractLsb' 0 4) (r.srcB l))),
    (0x211, fun r _ => some (.bar r.pfx (r.fd.extractLsb' 0 4))),
    (0x212, fun r _ => some (.bararv r.pfx (r.fd.extractLsb' 0 4))),
    (0x213, fun r _ => some (.barwt r.pfx (r.fd.extractLsb' 0 4))),
    (0x214, fun r l => some (.gbar r.pfx (r.srcB l))),
    (0x240, fun r _ => some (.bra r.pfx (r.fa ++ r.fb ++ r.fc))),
    (0x241, fun r _ => some (.brx r.pfx r.fa)),
    (0x242, fun r _ => some (.call r.pfx r.fd (r.fa ++ r.fb ++ r.fc))),
    (0x243, fun r _ => some (.callx r.pfx r.fd r.fa)),
    (0x244, fun r _ => some (.ret r.pfx r.fa)),
    (0x245, fun r _ => some (.exit r.pfx)),
    (0x246, fun r _ => some (.yield r.pfx)),
    (0x247, fun r _ => some (.nop r.pfx)),
    (0x248, fun r l => some (.rjset r.pfx (Raw.p3 r.fd) (r.srcB l))),
    (0x249, fun r _ => some (.rjoin r.pfx (Raw.p3 r.fd))),
    (0x24A, fun r l => some (.spawn r.pfx (r.srcB l) r.fa (r.fx.extractLsb' 0 7))),
    (0x24C, fun r _ => some (if r.x 0 then .prbOn r.pfx else .prbOff r.pfx)),
    (0x24D, fun r _ => some (.trap r.pfx (r.fx.extractLsb' 0 9))),
    (0x24E, fun r _ => some (.brk r.pfx (r.fx.extractLsb' 0 9))) ]

/-- The opcode map (Table 5.9): array, verdict, engines, surfaces, system. -/
def opcodeMap4 : List (Nat × Parser) :=
  [ (0x280, fun r l => some (.aalloc r.pfx r.fd (r.srcB l))),
    (0x281, fun r l => some (.agrow r.pfx r.fd (r.srcB l))),
    (0x282, fun r l => some (.afree r.pfx r.fd (r.srcB l))),
    (0x283, fun r _ => some (.azero r.pfx (r.fd.extractLsb' 0 6))),
    (0x284, fun r _ => (Scope.ofCode (Raw.p3 r.fc)).map fun scp =>
      .ald r.pfx r.ty scp (r.fd.extractLsb' 0 6) r.fa),
    (0x285, fun r _ => (Scope.ofCode (Raw.p3 r.fc)).bind fun scp => (RM.ofCode r.f42).map fun m =>
      .ast r.pfx r.ty m (r.x 1) scp (r.fd.extractLsb' 0 6) r.fa),
    (0x288, fun r l => some (.amma r.pfx (r.x 1) (r.x 2) (r.x 0) (r.x 3) (r.fd.extractLsb' 0 6) r.fa (r.srcB l) r.fc)),
    (0x289, fun r l => some (.amms r.pfx (r.x 1) (r.x 2) (r.x 0) (r.x 3) (r.fd.extractLsb' 0 6) r.fa (r.srcB l) r.fc)),
    (0x28A, fun r _ => some (.adrain r.pfx (r.x 6) (r.x 7) (r.x 5) (r.fx.extractLsb' 0 5) r.fd (r.fa.extractLsb' 0 6))),
    (0x28B, fun r _ => some (.atopk r.pfx (r.x 6) (r.x 7) (r.x 5) (r.fx.extractLsb' 0 5) (Raw.p3 r.fc) r.fd
      (r.fa.extractLsb' 0 6))),
    (0x28C, fun r _ => some (.cupd r.pfx (r.fd.extractLsb' 0 6) r.fa r.fb r.fc)),
    (0x28D, fun r _ => some (.cfin r.pfx r.ty (r.fx.extractLsb' 0 5) (r.fd.extractLsb' 0 6) r.fa)),
    (0x290, fun r _ => (VKind.ofCode (r.fx.extractLsb' 4 2)).map fun k =>
      .vacc r.pfx k (r.fd.extractLsb' 0 6) r.fa r.fc (r.fx.extractLsb' 0 4)),
    (0x291, fun r _ => some (.vtop r.pfx (r.fd.extractLsb' 0 6) r.fa r.fc (r.fx.extractLsb' 0 4))),
    (0x292, fun r _ => some (if r.x 4 then .vsetRd r.pfx r.fd
      else .vset r.pfx (r.x 0) (r.fx.extractLsb' 1 3) r.fa)),
    (0x293, fun r _ => (VKind.ofCode r.mx).map fun k => .vchk r.pfx k (Raw.p3 r.fd) r.fa (Raw.p3 r.fc)),
    (0x298, fun r _ => some (.fork r.pfx r.fd (r.fx.extractLsb' 0 6) r.fa r.fb r.fc)),
    (0x299, fun r _ => some (.rdv r.pfx)),
    (0x29A, fun r l => some (.leave r.pfx r.fd (r.fx.extractLsb' 0 3) (r.srcB l))),
    (0x29B, fun r _ => some (.lvfree r.pfx)),
    (0x300, fun r l => some (.march r.pfx (r.x 0) r.fd r.fa (r.srcB l))),
    (0x301, fun r l => some (if r.x 0 then .mresAbort r.pfx r.fd r.fa else .mres r.pfx r.fd r.fa (r.srcB l))),
    (0x302, fun r _ => some (.mqry r.pfx (r.x 0) r.fd r.fa)),
    (0x303, fun r _ => some (.prep r.pfx r.fd r.fa r.fb)),
    (0x304, fun r _ => some (.veval r.pfx (r.x 0) r.fd r.fa r.fb)),
    (0x305, fun r _ => some (.bfetch r.pfx r.fd r.fa r.fb)),
    (0x306, fun r l => some (.zts r.pfx (r.x 0) r.fd r.fa (r.srcB l))),
    (0x307, fun r _ => some (.rsub r.pfx r.fd r.fa)),
    (0x308, fun r _ => some (.cmeta r.pfx r.fd r.fa)),
    (0x340, fun r _ => (SReg.ofCode r.fa).map fun sr => .rdsr r.pfx r.fd sr),
    (0x341, fun r l => (SReg.ofCode r.fd).map fun sr => .wrsr r.pfx sr (r.srcB l)),
    (0x342, fun r _ => some (.sysc r.pfx (r.fx.extractLsb' 0 9))),
    (0x343, fun r _ => some (.tret r.pfx)),
    (0x344, fun r _ => (Scope.ofCode r.f42).map fun scp =>
      if r.x 0 then .tlbinvAll r.pfx scp else .tlbinv r.pfx scp r.fa),
    (0x345, fun r _ => some (.ctxsv r.pfx r.fa)),
    (0x346, fun r _ => some (.ctxld r.pfx r.fa)),
    (0x347, fun r _ => some (if r.x 0 then .hltCtx r.pfx else .hltWg r.pfx)) ]

/-- The whole opcode map. -/
def opcodeMap : List (Nat × Parser) := opcodeMap1 ++ opcodeMap2 ++ opcodeMap3 ++ opcodeMap4

/-- The instruction the fields of a full word name, before the legality checks; a reserved opcode names none (R149). -/
def parseRaw (r : Raw) (l : DWord) : Option Instr :=
  (opcodeMap.lookup r.op.toNat).bind fun f => f r l

/-- The instruction a word names, before the legality checks (Table 5.1). -/
def parseWord (w l : DWord) : Option Instr :=
  if w.getLsbD 62 then
    (Half.unpack (w.extractLsb' 31 31)).bind fun h1 =>
      (Half.unpack (w.extractLsb' 0 31)).map fun h2 => .dualWord (w.getLsbD 63) h1 h2
  else parseRaw (Raw.unpack w) l

/-- Decoding a word with the word at PC + 8 as its possible literal: the instruction, or nothing for an illegal
encoding (R151). -/
def decode (w l : DWord) : Option Instr :=
  (parseWord w l).bind fun i => if i.wf && encodeWord i == some w then some i else none

/-- The host's table words: bits 63..0 are the first word, bits 127..64 the word after it (00_scope R7). -/
def decodeTableWord (_nbits w : Nat) : Option Instr :=
  decode (BitVec.ofNat 64 w) (BitVec.ofNat 64 (w / 2 ^ 64))

end Sys2Proof
end

