-- ==== Sys2Proof/Machine/Float.lean ====
section
/-! DEFINITION. Floating-point instructions (06 R179 to R182), special functions (06 R183) and packed 16-bit floating point
(06 R184). -/

namespace Sys2Proof.Machine

open Sys2Proof

/-! ### Values with flags -/

/-- `fadd`. -/
def faddV (rm : RM) (ftz : Bool) (a b : Word) : Word × BitVec 5 := arith32 rm ftz (addX rm (fv a) (fv b))
/-- `fsub`. -/
def fsubV (rm : RM) (ftz : Bool) (a b : Word) : Word × BitVec 5 := arith32 rm ftz (addX rm (fv a) (fv b).negate)
/-- `fmul`. -/
def fmulV (rm : RM) (ftz : Bool) (a b : Word) : Word × BitVec 5 := arith32 rm ftz (mulX (fv a) (fv b))
/-- `ffma`. -/
def ffmaV (rm : RM) (ftz : Bool) (a b c : Word) : Word × BitVec 5 := arith32 rm ftz (fmaX rm (fv a) (fv b) (fv c))
/-- `fscl` (R182). -/
def fsclV (ftz : Bool) (a b : Word) : Word × BitVec 5 := fsclX a b.toInt ftz

/-- A packed operation per element, with the union of the flags (R184). -/
def packed16 (ty : Ty) (rm : RM) (ftz : Bool) (op : List FV → XV × BitVec 5) (ws : List Word) : Word × BitVec 5 :=
  let el := fun (i : Nat) => arith ty rm ftz (op (ws.map fun w => valueOf ty (w.toNat / 2 ^ (16 * i) % 2 ^ 16)))
  let r0 := el 0
  let r1 := el 1
  (BitVec.ofNat 32 (packElems ty [r0.1, r1.1]), r0.2 ||| r1.2)

/-- A sum of the elements of two operands. -/
def add2X (rm : RM) : List FV → XV × BitVec 5
  | [a, b] => addX rm a b
  | _ => (.nan, 0)
/-- A product. -/
def mul2X : List FV → XV × BitVec 5
  | [a, b] => mulX a b
  | _ => (.nan, 0)
/-- A product and sum. -/
def fma2X (rm : RM) : List FV → XV × BitVec 5
  | [a, b, c] => fmaX rm a b c
  | _ => (.nan, 0)

/-- `hadd2`. -/
def hadd2V (ty : Ty) (rm : RM) (ftz : Bool) (a b : Word) : Word × BitVec 5 := packed16 ty rm ftz (add2X rm) [a, b]
/-- `hmul2`. -/
def hmul2V (ty : Ty) (rm : RM) (ftz : Bool) (a b : Word) : Word × BitVec 5 := packed16 ty rm ftz mul2X [a, b]

/-! ### Frames of the group -/

/-- The verdict-consume trap when an F32 read finds an abandoned encoding (R87). -/
def verdictOr (ws : List Word) (r : Except Trap Thread) : Except Trap Thread :=
  if ws.any isAbandoned then .error (.of .verdict) else r

/-- d := f(a, b) with flags, both F32 reads. -/
def State.fp2 (s : State) (p : Pfx) (d a : Reg) (b : SrcB) (f : Bool → Word → Word → Word × BitVec 5) : Out :=
  s.device fun g => g.aluWord p (d :: a :: b.span false) fun e th =>
    let x := th.reg a
    let y := th.srcW b
    let r := f e.ftz x y
    verdictOr [x, y] (withFlags e th r.2 fun th => th.setReg d r.1)

/-- d := f(a) with flags, an F32 read. -/
def State.fp1 (s : State) (p : Pfx) (d a : Reg) (f : Bool → Word → Word × BitVec 5) : Out :=
  s.device fun g => g.aluWord p [d, a] fun e th =>
    let r := f e.ftz (th.reg a)
    verdictOr [th.reg a] (withFlags e th r.2 fun th => th.setReg d r.1)

/-- d := f(a, b) with flags, packed operands. -/
def State.hp2 (s : State) (p : Pfx) (d a : Reg) (b : SrcB) (f : Bool → Word → Word → Word × BitVec 5) : Out :=
  s.device fun g => g.aluWord p (d :: a :: b.span false) fun e th =>
    let r := f e.ftz (th.reg a) (th.srcW b)
    withFlags e th r.2 fun th => th.setReg d r.1

/-- A special function: the result is pending, and its flags are set when it returns (R77, R147, R183). -/
def State.sfu (s : State) (p : Pfx) (rm : RM) (d a : Reg) (f : Sfu) : Out :=
  s.device fun g => g.aluWord p [d, a] fun e th =>
    let r := arith32 rm e.ftz (sfuX f (fv (th.reg a)))
    verdictOr [th.reg a] (.ok (th.pendNow g.nextId [d] [r.1] r.2 false g.cur.pc g.cur.word))

/-! ### Table 6.5 -/

/-- `fadd` (R179). -/
def execFadd (p : Pfx) (rm : RM) (d a : Reg) (b : SrcB) (s : State) : Out := s.fp2 p d a b (faddV rm)

/-- `fsub` (R179). -/
def execFsub (p : Pfx) (rm : RM) (d a : Reg) (b : SrcB) (s : State) : Out := s.fp2 p d a b (fsubV rm)

/-- `fmul` (R179). -/
def execFmul (p : Pfx) (rm : RM) (d a : Reg) (b : SrcB) (s : State) : Out := s.fp2 p d a b (fmulV rm)

/-- `ffma` (R179). -/
def execFfma (p : Pfx) (rm : RM) (d a : Reg) (b : SrcB) (c : Reg) (s : State) : Out :=
  s.device fun g => g.aluWord p (d :: a :: c :: b.span false) fun e th =>
    let x := th.reg a
    let y := th.srcW b
    let z := th.reg c
    let r := ffmaV rm e.ftz x y z
    verdictOr [x, y, z] (withFlags e th r.2 fun th => th.setReg d r.1)

/-- `fmin` (R180). -/
def execFmin (p : Pfx) (d a : Reg) (b : SrcB) (s : State) : Out := s.fp2 p d a b fun _ => minmaxW false

/-- `fmax` (R180). -/
def execFmax (p : Pfx) (d a : Reg) (b : SrcB) (s : State) : Out := s.fp2 p d a b fun _ => minmaxW true

/-- `fcmp` (R179). -/
def execFcmp (p : Pfx) (cc : CC) (pd : PredNo) (a : Reg) (b : SrcB) (s : State) : Out :=
  s.device fun g => g.aluWord p (a :: b.span false) fun e th =>
    let x := fv (th.reg a)
    let y := fv (th.srcW b)
    verdictOr [th.reg a, th.srcW b] (withFlags e th (sigFlag [x, y]) fun th => th.setPred pd (ccF cc x y))

/-- `fsel` (R179): only c is read as a value. -/
def execFsel (p : Pfx) (cc : CC) (d a : Reg) (b : SrcB) (c : Reg) (s : State) : Out :=
  s.device fun g => g.aluWord p (d :: a :: c :: b.span false) fun e th =>
    let x := th.reg a
    let y := th.srcW b
    let z := fv (th.reg c)
    verdictOr [x, y, th.reg c]
      (withFlags e th (sigFlag [z]) fun th => th.setReg d (if ccF cc z (.fin false 0) then x else y))

/-- `fclass` (Table 6.6). -/
def execFclass (p : Pfx) (d a : Reg) (s : State) : Out := s.fp1 p d a fun _ x => (classBit x, 0)

/-- `frnd` (R181). -/
def execFrnd (p : Pfx) (rm : RM) (d a : Reg) (s : State) : Out := s.fp1 p d a fun _ => frndX rm

/-- `ffrac` (R181). -/
def execFfrac (p : Pfx) (d a : Reg) (s : State) : Out := s.fp1 p d a fun ftz x => ffracX x ftz

/-- `fscl` (R182): b is no F32 read. -/
def execFscl (p : Pfx) (d a : Reg) (b : SrcB) (s : State) : Out :=
  s.device fun g => g.aluWord p (d :: a :: b.span false) fun e th =>
    let r := fsclV e.ftz (th.reg a) (th.srcW b)
    verdictOr [th.reg a] (withFlags e th r.2 fun th => th.setReg d r.1)

/-! ### Table 6.7 -/

/-- `frcp` (R183). -/
def execFrcp (p : Pfx) (rm : RM) (d a : Reg) (s : State) : Out := s.sfu p rm d a .rcp

/-- `frsq` (R183). -/
def execFrsq (p : Pfx) (d a : Reg) (s : State) : Out := s.sfu p .rn d a .rsq

/-- `fsqrt` (R183). -/
def execFsqrt (p : Pfx) (rm : RM) (d a : Reg) (s : State) : Out := s.sfu p rm d a .sqrt

/-- `fexp2` (R183). -/
def execFexp2 (p : Pfx) (d a : Reg) (s : State) : Out := s.sfu p .rn d a .exp2

/-- `flog2` (R183). -/
def execFlog2 (p : Pfx) (d a : Reg) (s : State) : Out := s.sfu p .rn d a .log2

/-- `fsin` (R183). -/
def execFsin (p : Pfx) (d a : Reg) (s : State) : Out := s.sfu p .rn d a .sin

/-- `fcos` (R183). -/
def execFcos (p : Pfx) (d a : Reg) (s : State) : Out := s.sfu p .rn d a .cos

/-! ### Table 6.8 -/

/-- `hadd2` (R184). -/
def execHadd2 (p : Pfx) (ty : Ty) (rm : RM) (d a : Reg) (b : SrcB) (s : State) : Out := s.hp2 p d a b (hadd2V ty rm)

/-- `hmul2` (R184). -/
def execHmul2 (p : Pfx) (ty : Ty) (rm : RM) (d a : Reg) (b : SrcB) (s : State) : Out := s.hp2 p d a b (hmul2V ty rm)

/-- d := a·b + c per element (R184). -/
def State.hp3 (s : State) (p : Pfx) (ty : Ty) (rm : RM) (d a : Reg) (b : SrcB) (c : Reg) : Out :=
  s.device fun g => g.aluWord p (d :: a :: c :: b.span false) fun e th =>
    let r := packed16 ty rm e.ftz (fma2X rm) [th.reg a, th.srcW b, th.reg c]
    withFlags e th r.2 fun th => th.setReg d r.1

/-- `hfma2` (R184). -/
def execHfma2 (p : Pfx) (rm : RM) (d a : Reg) (b : SrcB) (c : Reg) (s : State) : Out := s.hp3 p .f16 rm d a b c

/-- `efma2` (R184). -/
def execEfma2 (p : Pfx) (rm : RM) (d a : Reg) (b : SrcB) (c : Reg) (s : State) : Out := s.hp3 p .e16 rm d a b c

end Sys2Proof.Machine
end

