-- ==== Sys2Proof/Machine/Integer.lean ====
section
/-! DEFINITION. Integer and predicate instructions (06 R171 to R175), address instructions (06 R176) and bit instructions
(06 R177, R178). -/

namespace Sys2Proof.Machine

open Sys2Proof

/-! ### Values -/

/-- A value clamped to the range of a type (R172). -/
def clampTo (ty : Ty) (x : Int) : Int := min (max x (intMin ty)) (intMax ty)

/-- The element that an exact result leaves (R172). -/
def elemResult (ty : Ty) (sat : Bool) (x : Int) : Nat := wrapInt (widthOf ty) (if sat then clampTo ty x else x)

/-- Elements in a 32-bit word. -/
def lanesOf (ty : Ty) : Nat := 32 / widthOf ty

/-- A two-operand operation per element (R172). -/
def perElem (ty : Ty) (sat : Bool) (f : Int → Int → Int) (a b : Word) : Word :=
  let n := lanesOf ty
  BitVec.ofNat 32 (packElems ty (((elems ty a.toNat n).zip (elems ty b.toNat n)).map fun p =>
    elemResult ty sat (f (intOf ty p.1) (intOf ty p.2))))

/-- A one-operand operation per element (R172). -/
def perElem1 (ty : Ty) (sat : Bool) (f : Int → Int) (a : Word) : Word :=
  BitVec.ofNat 32 (packElems ty ((elems ty a.toNat (lanesOf ty)).map fun x => elemResult ty sat (f (intOf ty x))))

/-- `iadd`. -/
def iaddV (ty : Ty) (sat : Bool) (a b : Word) : Word := perElem ty sat (· + ·) a b
/-- `isub`. -/
def isubV (ty : Ty) (sat : Bool) (a b : Word) : Word := perElem ty sat (· - ·) a b
/-- `imul`. -/
def imulV (ty : Ty) (sat : Bool) (a b : Word) : Word := perElem ty sat (· * ·) a b
/-- `imin`. -/
def iminV (ty : Ty) (a b : Word) : Word := perElem ty false min a b
/-- `imax`. -/
def imaxV (ty : Ty) (a b : Word) : Word := perElem ty false max a b
/-- `iabs`. -/
def iabsV (ty : Ty) (sat : Bool) (a : Word) : Word := perElem1 ty sat (fun x => (x.natAbs : Int)) a
/-- `ineg`. -/
def inegV (ty : Ty) (sat : Bool) (a : Word) : Word := perElem1 ty sat (- ·) a

/-- An integer test of Table 6.1. -/
def ccI (cc : CC) (a b : Int) : Bool :=
  match cc with
  | .eq => a = b
  | .ne => a ≠ b
  | .lt => a < b
  | .le => a ≤ b
  | .gt => b < a
  | .ge => b ≤ a
  | .num | .nan => false

/-- `shl` (R177): n from b[7..0]. -/
def shlV (a b : Word) : Word := a <<< (b.toNat % 256)
/-- `shr`. -/
def shrV (a b : Word) : Word := a >>> (b.toNat % 256)
/-- `sar`. -/
def sarV (a b : Word) : Word := a.sshiftRight (min (b.toNat % 256) 31)
/-- `rotl`. -/
def rotlV (a b : Word) : Word := a.rotateLeft (b.toNat % 32)
/-- `popc`. -/
def popcV (a : Word) : Word := BitVec.ofNat 32 ((List.range 32).filter a.getLsbD).length
/-- `clz`. -/
def clzV (a : Word) : Word := if a = 0 then 32 else BitVec.ofNat 32 (31 - Nat.log2 a.toNat)
/-- `brev`. -/
def brevV (a : Word) : Word := a.reverse

/-- POS and the effective length of a field (R178). -/
def fieldOf (b : Word) : Nat × Nat :=
  let pos := b.toNat % 32
  (pos, min (b.toNat / 256 % 64) (32 - pos))

/-- `bfx` (R178). -/
def bfxV (ty : Ty) (a b : Word) : Word :=
  let (pos, n) := fieldOf b
  let v := a.toNat / 2 ^ pos % 2 ^ n
  if ty == .s32 && n != 0 && decide (2 ^ (n - 1) ≤ v) then BitVec.ofNat 32 (v + 2 ^ 32 - 2 ^ n) else BitVec.ofNat 32 v

/-- `bfi` (R178). -/
def bfiV (a b c : Word) : Word :=
  let (pos, n) := fieldOf b
  let m : Word := BitVec.ofNat 32 (2 ^ n - 1) <<< pos
  (c &&& ~~~m) ||| ((a <<< pos) &&& m)

/-- `pset`'s operation (R175). -/
def lopV (op : LOp) (x y : Bool) : Bool :=
  match op with
  | .and => x && y
  | .or => x || y
  | .xor => x != y

/-- `pmov gD` (R175): p0 to p6, and bit 7 set. -/
def predWord (th : Thread) : Word := (0 : BitVec 24) ++ (1 : BitVec 1) ++ th.preds

/-- `pmov.set` (R175). -/
def predsFrom (old : BitVec 7) (mask : BitVec 7) (a : Word) : BitVec 7 := (old &&& ~~~mask) ||| (a.setWidth 7 &&& mask)

/-- The value of `movi` (R174). -/
def moviV : MoviImm → DWord
  | .short v => v.signExtend 64
  | .lit w => w

/-- `lea`'s extension (R176). -/
def leaExt (ty : Ty) (b : Word) : DWord := if ty == .s32 then b.signExtend 64 else b.setWidth 64

/-! ### Frames of the group -/

/-- d := f(a, b). -/
def State.int2 (s : State) (p : Pfx) (d a : Reg) (b : SrcB) (f : Word → Word → Word) : Out :=
  s.device fun g => g.aluWord p (d :: a :: b.span false) fun _ th => .ok (th.setReg d (f (th.reg a) (th.srcW b)))

/-- d := f(a). -/
def State.int1 (s : State) (p : Pfx) (d a : Reg) (f : Word → Word) : Out :=
  s.device fun g => g.aluWord p [d, a] fun _ th => .ok (th.setReg d (f (th.reg a)))

/-- d := f(a, b) on b32 or b64. -/
def State.bits2 (s : State) (p : Pfx) (wide : Bool) (d a : Reg) (b : SrcB) (f : DWord → DWord → DWord) : Out :=
  s.device fun g => g.aluWord p (d.span wide ++ a.span wide ++ b.span wide) fun _ th =>
    .ok (th.setWide wide d (f (th.wideReg wide a) (th.wideSrc wide b)))

/-- d := f(a, b) on pairs. -/
def State.pair2 (s : State) (p : Pfx) (d a : Reg) (b : SrcB) (f : DWord → DWord → DWord) : Out :=
  s.device fun g => g.aluWord p (d.span true ++ a.span true ++ b.span true) fun _ th =>
    .ok (th.setPair d (f (th.pair a) (th.srcD b)))

/-! ### Table 6.2 -/

/-- `iadd` (R172). -/
def execIadd (p : Pfx) (ty : Ty) (sat : Bool) (d a : Reg) (b : SrcB) (s : State) : Out := s.int2 p d a b (iaddV ty sat)

/-- `isub` (R172). -/
def execIsub (p : Pfx) (ty : Ty) (sat : Bool) (d a : Reg) (b : SrcB) (s : State) : Out := s.int2 p d a b (isubV ty sat)

/-- `imul` (R172). -/
def execImul (p : Pfx) (ty : Ty) (sat : Bool) (d a : Reg) (b : SrcB) (s : State) : Out := s.int2 p d a b (imulV ty sat)

/-- `imulh` (R172): ⌊a·b ÷ 2^32⌋. -/
def execImulh (p : Pfx) (ty : Ty) (d a : Reg) (b : SrcB) (s : State) : Out :=
  s.int2 p d a b fun x y => BitVec.ofNat 32 (wrapInt 32 (intOf ty x.toNat * intOf ty y.toNat / 2 ^ 32))

/-- `imad` (R172). -/
def execImad (p : Pfx) (ty : Ty) (sat : Bool) (d a : Reg) (b : SrcB) (c : Reg) (s : State) : Out :=
  s.device fun g => g.aluWord p (d :: a :: c :: b.span false) fun _ th =>
    let v := fun (w : Word) => intOf ty w.toNat
    .ok (th.setReg d (BitVec.ofNat 32 (elemResult ty sat (v (th.reg a) * v (th.srcW b) + v (th.reg c)))))

/-- `iaddc` (R173). -/
def execIaddc (p : Pfx) (d a : Reg) (b : SrcB) (pc : PredNo) (s : State) : Out :=
  s.device fun g => g.aluWord p (d :: a :: b.span false) fun _ th =>
    let x := (th.reg a).toNat + (th.srcW b).toNat + (if th.pred pc then 1 else 0)
    .ok ((th.setReg d (BitVec.ofNat 32 x)).setPred pc (decide (2 ^ 32 ≤ x)))

/-- `isubb` (R173). -/
def execIsubb (p : Pfx) (d a : Reg) (b : SrcB) (pc : PredNo) (s : State) : Out :=
  s.device fun g => g.aluWord p (d :: a :: b.span false) fun _ th =>
    let x : Int := (th.reg a).toNat - (th.srcW b).toNat - (if th.pred pc then 1 else 0)
    .ok ((th.setReg d (BitVec.ofNat 32 (wrapInt 32 x))).setPred pc (decide (x < 0)))

/-- `imin` (R172). -/
def execImin (p : Pfx) (ty : Ty) (d a : Reg) (b : SrcB) (s : State) : Out := s.int2 p d a b (iminV ty)

/-- `imax` (R172). -/
def execImax (p : Pfx) (ty : Ty) (d a : Reg) (b : SrcB) (s : State) : Out := s.int2 p d a b (imaxV ty)

/-- `iabs` (R172). -/
def execIabs (p : Pfx) (ty : Ty) (sat : Bool) (d a : Reg) (s : State) : Out := s.int1 p d a (iabsV ty sat)

/-- `ineg` (R172). -/
def execIneg (p : Pfx) (ty : Ty) (sat : Bool) (d a : Reg) (s : State) : Out := s.int1 p d a (inegV ty sat)

/-- `sel` (Table 6.2). -/
def execSel (p : Pfx) (wide : Bool) (d a : Reg) (b : SrcB) (pc : PredNo) (s : State) : Out :=
  s.device fun g => g.aluWord p (d.span wide ++ a.span wide ++ b.span wide) fun _ th =>
    .ok (th.setWide wide d (if th.pred pc then th.wideReg wide a else th.wideSrc wide b))

/-- `icmp` (Table 6.1). -/
def execIcmp (p : Pfx) (cc : CC) (ty : Ty) (pd : PredNo) (a : Reg) (b : SrcB) (s : State) : Out :=
  s.device fun g => g.aluWord p (a :: b.span false) fun _ th =>
    .ok (th.setPred pd (ccI cc (intOf ty (th.reg a).toNat) (intOf ty (th.srcW b).toNat)))

/-- `mov` (Table 6.2). -/
def execMov (p : Pfx) (wide : Bool) (d a : Reg) (s : State) : Out :=
  s.device fun g => g.aluWord p (d.span wide ++ a.span wide) fun _ th => .ok (th.setWide wide d (th.wideReg wide a))

/-- `movi` (R174). -/
def execMovi (p : Pfx) (wide : Bool) (d : Reg) (v : MoviImm) (s : State) : Out :=
  s.device fun g => g.aluWord p (d.span wide) fun _ th => .ok (th.setWide wide d (moviV v))

/-- `pset` (R175). -/
def execPset (p : Pfx) (op : LOp) (na nb : Bool) (pd pa pb : PredNo) (s : State) : Out :=
  s.device fun g => g.aluWord p [] fun _ th => .ok (th.setPred pd (lopV op (th.pred pa != na) (th.pred pb != nb)))

/-- `pmov gD` (R175). -/
def execPmov (p : Pfx) (d : Reg) (s : State) : Out :=
  s.device fun g => g.aluWord p [d] fun _ th => .ok (th.setReg d (predWord th))

/-- `pmov.set` (R175). -/
def execPmovSet (p : Pfx) (a : Reg) (mask : BitVec 7) (s : State) : Out :=
  s.device fun g => g.aluWord p [a] fun _ th => .ok { th with preds := predsFrom th.preds mask (th.reg a) }

/-! ### Table 6.3 -/

/-- `lea` (R176). -/
def execLea (p : Pfx) (ty : Ty) (d a : Reg) (b : SrcB) (sh : BitVec 3) (s : State) : Out :=
  s.device fun g => g.aluWord p (d.span true ++ a.span true ++ b.span false) fun _ th =>
    .ok (th.setPair d (th.pair a + (leaExt ty (th.srcW b) <<< sh.toNat)))

/-- `ladd` (R176). -/
def execLadd (p : Pfx) (d a : Reg) (b : SrcB) (s : State) : Out := s.pair2 p d a b (· + ·)

/-- `lsub` (R176). -/
def execLsub (p : Pfx) (d a : Reg) (b : SrcB) (s : State) : Out := s.pair2 p d a b (· - ·)

/-- `lcmp` (R176). -/
def execLcmp (p : Pfx) (cc : CC) (sgn : Bool) (pd : PredNo) (a : Reg) (b : SrcB) (s : State) : Out :=
  s.device fun g => g.aluWord p (a.span true ++ b.span true) fun _ th =>
    let v := fun (w : DWord) => if sgn then w.toInt else (w.toNat : Int)
    .ok (th.setPred pd (ccI cc (v (th.pair a)) (v (th.srcD b))))

/-! ### Table 6.4 -/

/-- `and` (R177). -/
def execBAnd (p : Pfx) (wide : Bool) (d a : Reg) (b : SrcB) (s : State) : Out := s.bits2 p wide d a b (· &&& ·)

/-- `or` (R177). -/
def execBOr (p : Pfx) (wide : Bool) (d a : Reg) (b : SrcB) (s : State) : Out := s.bits2 p wide d a b (· ||| ·)

/-- `xor` (R177). -/
def execBXor (p : Pfx) (wide : Bool) (d a : Reg) (b : SrcB) (s : State) : Out := s.bits2 p wide d a b (· ^^^ ·)

/-- `not` (R177). -/
def execBNot (p : Pfx) (wide : Bool) (d a : Reg) (s : State) : Out :=
  s.device fun g => g.aluWord p (d.span wide ++ a.span wide) fun _ th => .ok (th.setWide wide d (~~~(th.wideReg wide a)))

/-- `shl` (R177). -/
def execShl (p : Pfx) (d a : Reg) (b : SrcB) (s : State) : Out := s.int2 p d a b shlV

/-- `shr` (R177). -/
def execShr (p : Pfx) (d a : Reg) (b : SrcB) (s : State) : Out := s.int2 p d a b shrV

/-- `sar` (R177). -/
def execSar (p : Pfx) (d a : Reg) (b : SrcB) (s : State) : Out := s.int2 p d a b sarV

/-- `rotl` (R177). -/
def execRotl (p : Pfx) (d a : Reg) (b : SrcB) (s : State) : Out := s.int2 p d a b rotlV

/-- `bfx` (R178). -/
def execBfx (p : Pfx) (ty : Ty) (d a : Reg) (b : SrcB) (s : State) : Out := s.int2 p d a b (bfxV ty)

/-- `bfi` (R178). -/
def execBfi (p : Pfx) (d a : Reg) (b : SrcB) (c : Reg) (s : State) : Out :=
  s.device fun g => g.aluWord p (d :: a :: c :: b.span false) fun _ th =>
    .ok (th.setReg d (bfiV (th.reg a) (th.srcW b) (th.reg c)))

/-- `popc` (R177). -/
def execPopc (p : Pfx) (d a : Reg) (s : State) : Out := s.int1 p d a popcV

/-- `clz` (R177). -/
def execClz (p : Pfx) (d a : Reg) (s : State) : Out := s.int1 p d a clzV

/-- `brev` (R177). -/
def execBrev (p : Pfx) (d a : Reg) (s : State) : Out := s.int1 p d a brevV

end Sys2Proof.Machine
end

