-- ==== Sys2Proof/Machine/Memory.lean ====
section
/-! DEFINITION. Loads, stores, atomics, reservations, fences, prefetch, gather and scatter (07 R199 to R214). -/

namespace Sys2Proof.Machine

open Sys2Proof

/-! ### Sizes and data -/

/-- Bytes of an element (R202). -/
def elemSize : Ty → Nat
  | .s8 | .n8 => 1
  | .s16 | .n16 => 2
  | .b64 => 8
  | _ => 4

/-- Elements of an access (R202). -/
def vecCount : Vec → Nat
  | .x1 => 1
  | .x2 => 2
  | .x4 => 4

/-- Bytes of an access (R202). -/
def accSize (ty : Ty) (vec : Vec) : Nat := elemSize ty * vecCount vec

/-- The registers that hold an access's data (R202). -/
def dataRegs (d : Reg) (size : Nat) : List Reg := d.run ((size + 3) / 4)

/-- The registers' values after a load (R203): extended to 32 bits, or the words of the bytes. -/
def loadWords (ty : Ty) (bs : List Byte) : List Word :=
  match ty with
  | .s8 => [(BitVec.ofNat 8 (natOfBytes bs)).signExtend 32]
  | .s16 => [(BitVec.ofNat 16 (natOfBytes bs)).signExtend 32]
  | .n8 | .n16 => [BitVec.ofNat 32 (natOfBytes bs)]
  | _ => wordsOfBytes bs (bs.length / 4)

/-- The low bytes of the registers that a store sends (R203). -/
def storeBytes (th : Thread) (d : Reg) (size : Nat) : List Byte := ((dataRegs d size).map th.reg |> bytesOfWords).take size

/-- A result made pending in a lane, its value known. -/
def Gpu.pendLane (g : Gpu) (t : TRef) (rs : List Reg) (vs : List Word) (fl : BitVec 5) (xch : Bool) : Gpu :=
  (g.modThread t fun th => th.pendNow g.nextId rs vs fl xch g.cur.pc g.cur.word).fresh

/-! ### `ld`, `ldu` and `st` (R203, R204) -/

/-- A result made pending in a lane, its value still to come from a remote read. -/
def Gpu.pendRead (g : Gpu) (t : TRef) (id : Nat) (rs : List Reg) : Gpu :=
  g.modThread t fun th =>
    th.addPend { id := id, regs := rs, vals := none, flags := 0, token := false, xch := false, pc := g.cur.pc, word := g.cur.word }

/-- The value that a lane of an `ldu` takes from a lower lane of the word that presents its address (R204): the one that lane holds
pending from this word. -/
def Gpu.servedBy (g : Gpu) (t : TRef) (a : Reg) (disp : Disp) : Option (List Word) :=
  let addr := fun (u : TRef) => (g.thread? u).map fun x => x.address a disp
  (sortLanes g.cur.members).findSome? fun u =>
    if u != t && addr u == addr t then
      (g.thread? u).bind fun x => (x.pend.find? fun q => decide (g.cur.no ≤ q.id) && !q.token).bind Pending.vals
    else none

/-- One lane of a load: the value is taken now and returns later (R147); a peer location is read remotely, after the thread's own stores
have left its FIFO (R110, R421), and an acquire is performed when its value comes (R112). Under `.ldu` (`share`) lanes of one address and
size share the value and the remote read (R204). -/
def Gpu.loadLane (share : Bool) (ch : BitVec 2) (ty : Ty) (size : Nat) (ord : Ord4) (sc : Scope) (d a : Reg) (disp : Disp)
    (g : Gpu) (t : TRef) (e : Env) (th : Thread) : Gpu × Fate :=
  let addr := th.address a disp
  let rs := dataRegs d size
  match g.reach t e.core e.ctx .any size false size .read addr with
  | (g, .error f) => (g, f)
  | (g, .ok (.scratch o)) =>
    (g.pendLane t rs (loadWords ty (((g.wg? t.wg).map fun w => w.scratchBytes o size).getD [])) 0 false, .done)
  | (g, .ok (.mem ls ps)) =>
    match g.firstPoison ps with
    | some i => (g, .trap (.at .poison (addr + BitVec.ofNat 64 i)))
    | none =>
      let peer := missing [] ps
      if peer.isEmpty then
        match (if share then g.servedBy t a disp else none) with
        | some vs => (g.pendLane t rs vs 0 false, .done)
        | none =>
          let g := if ord.acquires then g.acquire e.core sc else g
          let (g, bs) := g.loadPages e.core t ch ls [] addr.toNat size
          (g.pendLane t rs (loadWords ty bs) 0 false, .done)
      else
        match (if share then g.ops.find? fun o => o.inst == g.cur.no && o.kind == .rread ty ps else none) with
        | some o => ((g.drain e.core t).modOp o.id (fun o => { o with owners := o.owners ++ [t] }) |>.pendRead t o.id rs, .done)
        | none =>
          let g := g.drain e.core t
          let id := g.nextId
          let g := (g.newOp t [t] none (.rread ty ps) ls).modOp id fun o => { o with acq := ord.acquires && sc.beyondCore }
          ((g.pendRead t id rs).ask id peer, .done)

/-- One lane of `ldu`: the lanes of the word that present its address are served by one event, which sees every store that they have
in their FIFOs (R109, R110, R204). -/
def Gpu.lduLane (ch : BitVec 2) (ty : Ty) (size : Nat) (d a : Reg) (disp : Disp)
    (g : Gpu) (t : TRef) (e : Env) (th : Thread) : Gpu × Fate :=
  let mates := (sortLanes g.cur.members).filter fun u => (g.thread? u).any fun x => x.address a disp == th.address a disp
  let g := if mates.length ≤ 1 then g else mates.foldl (fun g u => g.drain e.core u) g
  Gpu.loadLane true ch ty size .none .thr d a disp g t e th

/-- `ld` (R203). -/
def execLd (p : Pfx) (ch : BitVec 2) (ty : Ty) (vec : Vec) (ord : Ord4) (sc : Scope) (d a : Reg) (disp : Disp) (s : State) : Out :=
  s.device fun g => g.laneWord p (dataRegs d (accSize ty vec) ++ a.run 2) (Gpu.loadLane false ch ty (accSize ty vec) ord sc d a disp)

/-- `ldu` (R204). -/
def execLdu (p : Pfx) (ch : BitVec 2) (ty : Ty) (vec : Vec) (d a : Reg) (disp : Disp) (s : State) : Out :=
  s.device fun g => g.laneWord p (dataRegs d (accSize ty vec) ++ a.run 2) (Gpu.lduLane ch ty (accSize ty vec) d a disp)

/-- A store put in a thread's FIFO (R109): one entry when aligned, one a byte otherwise, in ascending order, which R118 leaves open (log 96). -/
def Gpu.pushStore (g : Gpu) (core : Nat) (t : TRef) (ch : BitVec 2) (bypass : Bool) (ls : List (Nat × Leaf)) (va : Nat) (bs : List Byte) : Gpu :=
  let res := g.deadlineWg t.wg
  let entry := fun (i : Nat) (b : List Byte) => (findLeaf ls (va + i)).map fun l =>
    ({ t := t, pc := g.cur.pc, word := g.cur.word, inst := g.cur.no, cells := (b.zipIdx).map fun x => (l.phys (va + i + x.2), x.1),
       attr := l.attr.hinted ch, bypass := bypass, res := res } : FifoEntry)
  let es := if va % bs.length = 0 then (entry 0 bs).toList else (bs.zipIdx).filterMap fun x => entry x.2 [x.1]
  g.modCore core fun c => { c with fifo := c.fifo ++ es }

/-- One lane of a store (R203). -/
def Gpu.storeLane (ch : BitVec 2) (size : Nat) (ord : Ord4) (sc : Scope) (d a : Reg) (disp : Disp)
    (g : Gpu) (t : TRef) (e : Env) (th : Thread) : Gpu × Fate :=
  let addr := th.address a disp
  let bs := storeBytes th d size
  match g.reach t e.core e.ctx .any size false size .write addr with
  | (g, .error f) => (g, f)
  | (g, .ok (.scratch o)) => (g.scratchStore t.wg o bs, .done)
  | (g, .ok (.mem ls _)) =>
    g.releasing e.core t ord.releases sc fun g =>
      (g.pushStore e.core t ch (ch == 3 || (ord.releases && sc.beyondCore)) ls addr.toNat bs, .done)

/-- The 32 lanes of a whole-line store to memory (R119): each on its lane, with its guards, at A + 4l. -/
def Gpu.wholeLine (g : Gpu) (p : Pfx) (used : List Reg) (a : Reg) (disp : Disp) : Option Nat :=
  let on := (sortLanes g.cur.members).filterMap fun t => (g.thread? t).bind fun th =>
    if th.guards p && (th.pendingAmong used).isNone && !overRange (g.env t).regs used then some (t.lane, th.address a disp) else none
  let base := (on.head?.map (·.2)).getD 1
  if on.map (·.1) == List.range 32 && base.toNat % 128 == 0 && (on.all fun x => x.2 == base + BitVec.ofNat 64 (4 * x.1)) then
    match region base with
    | .mem va => some va
    | _ => none
  else none

/-- The last lane of a whole-line store: the 32 threads' FIFOs drain, and the line is replaced at once at its home, poison
and all (R107, R119). -/
def Gpu.storeLine (g : Gpu) (core : Nat) (d : Reg) (l : Leaf) (va : Nat) : Gpu :=
  let ts := sortLanes g.cur.members
  let g := ts.foldl (fun g t => g.drain core t) g
  let cells := (ts.flatMap fun t => (g.thread? t).elim [] fun th => storeBytes th d 4).zipIdx.map fun x => (l.phys (va + x.2), x.1)
  let p := l.phys va
  let g := g.evictL1 core p.line
  if l.cache == 2 then (g.cure p.line).ctrlStore cells
  else g.homeStore true ((ts.head?.map fun t => g.deadlineWg t.wg).getD false) cells

/-- One lane of a whole-line store: its own checks, and the line at the last lane's turn. -/
def Gpu.wholeLane (ord : Ord4) (sc : Scope) (d a : Reg) (disp : Disp) (ch : BitVec 2) (va : Nat)
    (g : Gpu) (t : TRef) (e : Env) (th : Thread) : Gpu × Fate :=
  let addr := th.address a disp
  match g.reach t e.core e.ctx .any 4 false 4 .write addr with
  | (g, .error f) => (g, f)
  | (g, .ok (.scratch _)) => (g, .done)
  | (g, .ok (.mem ls ps)) =>
    match ps.head?.map Phys.sp, findLeaf ls addr.toNat with
    | some (.host _), _ | some (.peer _ _), _ => Gpu.storeLane ch 4 ord sc d a disp g t e th
    | _, some l =>
      g.releasing e.core t ord.releases sc fun g => (if t.lane = 31 then g.storeLine e.core d l va else g, .done)
    | _, none => (g, .done)

/-- `st` (R203). -/
def execSt (p : Pfx) (ch : BitVec 2) (ty : Ty) (vec : Vec) (ord : Ord4) (sc : Scope) (d a : Reg) (disp : Disp) (s : State) : Out :=
  s.device fun g =>
    let size := accSize ty vec
    let used := dataRegs d size ++ a.run 2
    match (if size = 4 then g.wholeLine p used a disp else none) with
    | some va => g.laneWord p used (Gpu.wholeLane ord sc d a disp ch va)
    | none => g.laneWord p used (Gpu.storeLane ch size ord sc d a disp)

/-! ### `atom` (R205 to R207) -/

/-- The operation of an `atom` as a suffix of `w` bytes: memory value, operand, compare value (Table 7.3, R206). -/
def atomV (op : AOp) (ty : Ty) (sgn ftz : Bool) (v b d : DWord) : DWord × BitVec 5 :=
  let vw : Word := v.setWidth 32
  let bw : Word := b.setWidth 32
  let up := fun (r : Word × BitVec 5) => ((r.1.setWidth 64 : DWord), r.2)
  let pick := fun (less : Bool) => (if less then b else v, (0 : BitVec 5))
  let blt := match ty with
    | .s32 => bw.slt vw
    | .b64 => if sgn then b.slt v else b.ult v
    | _ => bw.ult vw
  let vlt := match ty with
    | .s32 => vw.slt bw
    | .b64 => if sgn then v.slt b else v.ult b
    | _ => vw.ult bw
  match op with
  | .add =>
    if ty = .f32 then (if isAbandoned vw then (v, flNV) else up (faddV .rn ftz vw bw))
    else if ty = .b64 then (v + b, 0) else up (vw + bw, 0)
  | .min => if ty = .f32 then (if isAbandoned vw then (v, flNV) else up (minmaxW false vw bw)) else pick blt
  | .max => if ty = .f32 then (if isAbandoned vw then (v, flNV) else up (minmaxW true vw bw)) else pick vlt
  | .and => (v &&& b, 0)
  | .or => (v ||| b, 0)
  | .xor => (v ^^^ b, 0)
  | .exch => (b, 0)
  | .cas => (if v = d then b else v, 0)

/-- Whether an AtomicOp expresses an operation (R207). -/
def hostAtomOk (op : AOp) (ty : Ty) : Bool :=
  match op with
  | .add => ty == .s32 || ty == .n32 || ty == .b64
  | .exch | .cas => true
  | _ => false

/-- Whether an atomic to these locations takes the host-atomic fault (R121, R207). -/
def Gpu.hostAtomFault (g : Gpu) (t : TRef) (allow : Bool) (ps : List Phys) : Bool :=
  let neg := (((g.wg? t.wg).bind fun w => g.ctx? w.ctx).bind fun c => g.part? c.part).any Part.atomics
  ps.any fun p => match p.sp with
    | .host _ => !(allow && neg)
    | .peer _ _ => true
    | _ => false

/-- The flags that an `atom` without a result sets when it is performed (R206). -/
def Gpu.atomFlags (g : Gpu) (t : TRef) (e : Env) (fl : BitVec 5) : Gpu :=
  g.modThread t fun th => th.lateFlags e fl 0 g.cur.pc g.cur.word

/-- The end of an `atom`: the old value pending, or nothing returned. -/
def Gpu.atomEnd (g : Gpu) (t : TRef) (e : Env) (nr : Bool) (rs : List Reg) (old : List Byte) (fl : BitVec 5) : Gpu :=
  if nr then g.atomFlags t e fl else g.pendLane t rs (wordsOfBytes old rs.length) fl true

/-- One lane of an `atom` (R206). -/
def Gpu.atomLane (op : AOp) (ty : Ty) (nr sgn : Bool) (ord : Ord4) (sc : Scope) (d a : Reg) (b : SrcB)
    (g : Gpu) (t : TRef) (e : Env) (th : Thread) : Gpu × Fate :=
  let wide := ty == .b64
  let n := if wide then 8 else 4
  let addr := th.pair a
  let bv := th.wideSrc wide b
  let dv := th.wideReg wide d
  let rs := d.span wide
  let go := fun (old : List Byte) =>
    let r := atomV op ty sgn e.ftz (BitVec.ofNat 64 (natOfBytes old)) bv dv
    (bytesOfNat n r.1.toNat, r.2)
  if ty == .f32 && isAbandoned (bv.setWidth 32) then (g, .trap (.of .verdict))
  else
    let full := !nr && decide (63 ≤ th.count .xch)
    match g.reach t e.core e.ctx .any n true n .atomic addr with
    | (g, .error f) => (g, f)
    | (g, .ok (.scratch o)) =>
      if full then (g, .wait (.counter .xch 62))
      else
        let old := ((g.wg? t.wg).map fun w => w.scratchBytes o n).getD []
        let (new, fl) := go old
        ((g.scratchStore t.wg o new).atomEnd t e nr rs old fl, .done)
    | (g, .ok (.mem ls ps)) =>
      if g.hostAtomFault t (hostAtomOk op ty) ps then (g, .trap (.at .hostAtomic addr))
      else if (g.firstPoison ps).isSome then (g, .trap (.at .poison addr))
      else if full then (g, .wait (.counter .xch 62))
      else
        g.releasing e.core t ord.releases sc fun g =>
          let g := g.atHome e.core t ps
          let old := ps.map g.homeByte
          let (new, fl) := go old
          let g := if (findLeaf ls addr.toNat).any fun l => l.cache == 2 then g.ctrlStore (ps.zip new)
                   else g.homeStore false (g.deadlineWg t.wg) (ps.zip new)
          let g := if ord.acquires then g.acquire e.core sc else g
          (g.atomEnd t e nr rs old fl, .done)

/-- `atom` (R206). -/
def execAtom (p : Pfx) (_ch : BitVec 2) (op : AOp) (ty : Ty) (nr sgn : Bool) (ord : Ord4) (sc : Scope) (d a : Reg) (b : SrcB) (s : State) : Out :=
  s.device fun g => g.laneWord p ((if nr then [] else d.span (ty == .b64)) ++ a.run 2 ++ b.span (ty == .b64))
    (Gpu.atomLane op ty nr sgn ord sc d a b)

/-! ### Reservations (R122, R208) -/

/-- One lane of `lr`. -/
def Gpu.lrLane (wide acq : Bool) (sc : Scope) (d a : Reg) (g : Gpu) (t : TRef) (e : Env) (th : Thread) : Gpu × Fate :=
  let n := if wide then 8 else 4
  let addr := th.pair a
  match g.reach t e.core e.ctx .memOnly n true n .read addr with
  | (g, .error f) => (g, f)
  | (g, .ok (.scratch _)) => (g, .trap (.at .address addr))
  | (g, .ok (.mem _ ps)) =>
    if g.hostAtomFault t false ps then (g, .trap (.at .hostAtomic addr))
    else if (g.firstPoison ps).isSome then (g, .trap (.at .poison addr))
    else match g.homeWait e.core t ps with
    | some k => (g, .hold (.fill k))
    | none =>
      let g := g.atHome e.core t ps
      let bs := ps.map g.homeByte
      let g := if acq then g.acquire e.core sc else g
      let key := (ps.head?.map Phys.line).getD ⟨.dev, 0⟩
      let g := g.modThread t fun th => { th with resv := some { key := key, at_ := g.now } }
      (g.pendLane t (d.span wide) (wordsOfBytes bs (n / 4)) 0 false, .done)

/-- `lr` (R208). -/
def execLr (p : Pfx) (_ch : BitVec 2) (wide acq : Bool) (sc : Scope) (d a : Reg) (s : State) : Out :=
  s.device fun g => g.laneWord p (d.span wide ++ a.run 2) (Gpu.lrLane wide acq sc d a)

/-- Whether a thread's reservation is held on a line (R122). -/
def Gpu.holdsResv (g : Gpu) (t : TRef) (k : LineKey) : Bool :=
  ((g.thread? t).bind Thread.resv).any fun r => r.key == k && decide (g.now < r.at_ + 4096)

/-- One lane of `sc`: the thread's earlier stores first, then the test (R122). -/
def Gpu.scLane (wide rel : Bool) (scp : Scope) (d a : Reg) (b : SrcB) (g : Gpu) (t : TRef) (e : Env) (th : Thread) : Gpu × Fate :=
  let n := if wide then 8 else 4
  let addr := th.pair a
  match g.reach t e.core e.ctx .memOnly n true n .atomic addr with
  | (g, .error f) => (g, f)
  | (g, .ok (.scratch _)) => (g, .trap (.at .address addr))
  | (g, .ok (.mem ls ps)) =>
    if g.hostAtomFault t false ps then (g, .trap (.at .hostAtomic addr))
    else if 63 ≤ th.count .xch then (g, .wait (.counter .xch 62))
    else
      g.releasing e.core t rel scp fun g =>
        let g := g.drain e.core t
        let key := (ps.head?.map Phys.line).getD ⟨.dev, 0⟩
        let ok := g.holdsResv t key
        let cells := ps.zip (bytesOfNat n (th.wideSrc wide b).toNat)
        let g := if !ok then g
                 else if (findLeaf ls addr.toNat).any fun l => l.cache == 2 then (g.atHome e.core t ps).ctrlStore cells
                 else (g.atHome e.core t ps).homeStore false (g.deadlineWg t.wg) cells
        let g := g.modThread t fun th => { th with resv := none }
        (g.pendLane t [d] [if ok then 0 else 1] 0 true, .done)

/-- `sc` (R208). -/
def execSc (p : Pfx) (_ch : BitVec 2) (wide rel : Bool) (scp : Scope) (d a : Reg) (b : SrcB) (s : State) : Out :=
  s.device fun g => g.laneWord p (d :: a.run 2 ++ b.span wide) (Gpu.scLane wide rel scp d a b)

/-! ### Fences, prefetch, instruction-cache invalidation (R209 to R211) -/

/-- One lane of a fence: it parks nothing and waits for nothing but a way in L2 for what it releases (R406). -/
def Gpu.fenceLane (ord : Ord4) (sc : Scope) (g : Gpu) (t : TRef) (e : Env) (_th : Thread) : Gpu × Fate :=
  match (if ord.releases then g.releaseWait e.core t sc else none) with
  | some k => (g, .hold (.fill k))
  | none => (g.fence e.core t ord sc, .done)

/-- `fence` (R209): it orders by holding the thread's later accesses back, until its remote reads have come, and at system scope until
peers have acknowledged its stores (R112, R117, R421; log 97). -/
def execFence (p : Pfx) (_ch : BitVec 2) (ord : Ord4) (sc : Scope) (s : State) : Out :=
  s.device fun g => g.laneWord p [] (Gpu.fenceLane ord sc)

/-- One lane of a prefetch: the line brought into L1 as far as the page's CACHE allows; nothing when the address would
fault or lies elsewhere (R210), or the line finds no way in L2. -/
def Gpu.pfchLane (ch : BitVec 2) (l2 : Bool) (a : Reg) (disp : Disp) (g : Gpu) (_t : TRef) (e : Env) (th : Thread) : Gpu × Fate :=
  match region (th.address a disp), g.ctx? e.ctx with
  | .mem va, some c =>
    match g.translate e.core c .read va with
    | (g', .ok l) =>
      let peer := match l.base.sp with | .peer _ _ => true | _ => false
      (if l2 || ch == 3 || l.cache != 0 || peer || (g'.fillWait e.core false [l.phys va]).isSome then g' else g'.fillL1 e.core (l.attr.hinted ch).rank (l.phys va).line, .done)
    | (g', .error _) => (g', .done)
  | _, _ => (g, .done)

/-- `pfch` (R210). -/
def execPfch (p : Pfx) (ch : BitVec 2) (l2 : Bool) (a : Reg) (disp : Disp) (s : State) : Out :=
  s.device fun g => g.laneWord p (a.run 2) (Gpu.pfchLane ch l2 a disp)

/-- Remote fetches of the cores that `f` picks, discarded: their words would be older than the invalidation (R212). -/
def Gpu.dropFetches (g : Gpu) (f : Nat → Bool) : Gpu :=
  { g with ops := g.ops.filter fun o => !(o.owners.isEmpty && f o.core && match o.kind with | .rread _ _ => true | _ => false) }

/-- `icinv` (R211): the fence, the caches of every core in scope, and the park until INVALIDATION_COMPLETE. The core's dirty lines
reach their homes, where fetches read (R212). -/
def execIcinv (p : Pfx) (_ch : BitVec 2) (sc : Scope) (s : State) : Out :=
  s.device fun g => g.laneWord p [] fun g t e _ => g.afterReads e.core t sc (g.releasing e.core t true sc fun g =>
    let g := (g.acquire e.core sc).cleanL1 e.core
    let g := g.dropFetches fun n => inScope sc e.core n
    let g := g.mapCores fun n c => if inScope sc e.core n then { c with icache := [], bricks := [] } else c
    (g.modThread t fun th => { th with status := .parked (.inval sc none none) }, .done))

/-! ### Gather and scatter (R213, R214) -/

/-- The element addresses of a lane (R214). -/
def elemAddrs (th : Thread) (n : Nat) (sx : Bool) (sh : BitVec 3) (a b : Reg) : List DWord :=
  (b.run n).map fun r =>
    let i := th.reg r
    th.pair a + ((if sx then i.signExtend 64 else i.setWidth 64) <<< sh.toNat)

/-- The fate of the first address that a check refuses. -/
def firstErr (xs : List (Except Trap Region)) (k : TrapKind) : Option Fate :=
  xs.findSome? fun x => match x with
    | .error t => if t.kind = k then some (.trap t) else none
    | .ok _ => none

/-- Orders 2 to 4 of Table 7.1 over several accesses of a lane, each order over all of them before the next. -/
def checkAll (allow : Allow) (al : Nat) (size scratchLen : Nat) (as_ : List DWord) : Option Fate :=
  let xs := as_.map (checkAddr allow al true size scratchLen)
  (firstErr xs .address).orElse fun _ => (firstErr xs .alignment).orElse fun _ => firstErr xs .scratchRange

/-- Order 6 over several accesses of a lane, with the connections of peer pages. -/
def Gpu.reachAll (t : TRef) (core ctx al size : Nat) (acc : Access) : Gpu → List DWord → Gpu × Except Fate (List (Nat × Leaf))
  | g, [] => (g, .ok [])
  | g, a :: as_ =>
    match g.reach t core ctx .any al true size acc a with
    | (g, .error f) => (g, .error f)
    | (g, .ok tg) =>
      match Gpu.reachAll t core ctx al size acc g as_ with
      | (g, .error f) => (g, .error f)
      | (g, .ok ls) => (g, .ok ((match tg with | .mem l _ => l | .scratch _ => []) ++ ls))

/-- One lane of a gather or a scatter at issue: every element checked, then the operation. -/
def Gpu.elemLane (ch : BitVec 2) (gather wide : Bool) (n : Nat) (sx rel : Bool) (sc : Scope) (sh : BitVec 3) (d a b : Reg)
    (g : Gpu) (t : TRef) (e : Env) (th : Thread) : Gpu × Fate :=
  let w := if wide then 8 else 4
  let as_ := elemAddrs th n sx sh a b
  match checkAll .any w w (((g.wg? t.wg).map Wg.scratchLen).getD 0) as_ with
  | some f => (g, f)
  | none =>
    match Gpu.reachAll t e.core e.ctx w w (if gather then .read else .write) g as_ with
    | (g, .error f) => (g, f)
    | (g, .ok ls) =>
      if 63 ≤ th.count .gath then (g, .wait (.counter .gath 62))
      else
        let data := storeBytes th d (n * w)
        let kind := if gather then OpKind.gth wide as_ d
          else .sct wide (as_.zipIdx.map fun x => (x.1, (data.drop (x.2 * w)).take w)) sc
        g.releasing e.core t rel sc fun g =>
          Gpu.markHint ch (g.issueOp t th .gath kind ls (if gather then dataRegs d (n * w) else [])) g.nextId

/-- `gth` (R214). -/
def execGth (p : Pfx) (ch : BitVec 2) (wide : Bool) (vec : Vec) (sx rel : Bool) (sc : Scope) (sh : BitVec 3) (d a b : Reg) (s : State) : Out :=
  let n := vecCount vec
  s.device fun g => g.laneWord p (dataRegs d (n * (if wide then 8 else 4)) ++ a.run 2 ++ b.run n)
    (Gpu.elemLane ch true wide n sx rel sc sh d a b)

/-- `sct` (R214). -/
def execSct (p : Pfx) (ch : BitVec 2) (wide : Bool) (vec : Vec) (sx rel : Bool) (sc : Scope) (sh : BitVec 3) (d a b : Reg) (s : State) : Out :=
  let n := vecCount vec
  s.device fun g => g.laneWord p (dataRegs d (n * (if wide then 8 else 4)) ++ a.run 2 ++ b.run n)
    (Gpu.elemLane ch false wide n sx rel sc sh d a b)

/-- A gather's elements read, in ascending order: the words, the first poisoned address, or peer locations to read. -/
def Gpu.gatherElems (o : Op) (w : Nat) : Gpu → List DWord → Gpu × Except (List Phys) (List Byte × Option Nat)
  | g, [] => (g, .ok ([], none))
  | g, a :: as_ =>
    match g.opBytes o a w with
    | (g, .error ps) => (g, .error ps)
    | (g, .ok (bs, p)) =>
      match Gpu.gatherElems o w g as_ with
      | (g, .error ps) => (g, .error ps)
      | (g, .ok (cs, q)) => (g, .ok (bs ++ cs, p.orElse fun _ => q))

/-- A gather or scatter of a lower lane of the same word that is not performed yet: the events of one word stand in lane order (R214). -/
def Gpu.laneBlocked (g : Gpu) (o : Op) : Bool :=
  g.ops.any fun q => q.inst == o.inst && q.id < o.id && !q.done && match q.kind with | .gth _ _ _ | .sct _ _ _ => true | _ => false

/-- A gather completes (R214, R128): its tokens are written; it retires in its class's order. -/
def Gpu.performGth (g : Gpu) (o : Op) (wide : Bool) (as_ : List DWord) : Gpu :=
  let w := if wide then 8 else 4
  if g.laneBlocked o then g
  else if let some g := g.unready o (as_.map fun a => (a, w)) [] id then g
  else match Gpu.gatherElems o w g as_ with
  | (_, .error ps) => g.askFor o (as_.flatMap fun a => match region a with
      | .mem va => missing o.got (physOf o.pages va w)
      | _ => ps)
  | (g, .ok (bs, p)) => ((g.deferPoison o p).landToken o.owner o.id (wordsOfBytes bs (bs.length / 4))).markDone o.id

/-- A scatter's elements stored, in ascending order (R214). -/
def Gpu.performSct (g : Gpu) (o : Op) (es : List (DWord × List Byte)) : Gpu :=
  if g.laneBlocked o then g
  else (g.unready o [] (es.map fun x => (x.1, x.2.length)) id).getD ((es.foldl (fun g x => g.opStore o x.1 x.2) g).markDone o.id)

end Sys2Proof.Machine
end

