-- ==== Sys2Proof/Machine/Copy.lean ====
section
/-! DEFINITION. Asynchronous copies, counter waits and transaction barriers (07 R215 to R222; 04 R129 to R132). -/

namespace Sys2Proof.Machine

open Sys2Proof

/-! ### Transaction barriers (R129, R131) -/

/-- The fields of a barrier's bytes 8 to 15 (Table 4.8). -/
structure TBar where
  phase  : Nat
  poison : Bool
  pend   : Nat
  init   : Nat
  sect   : Nat
  deriving DecidableEq, Repr

/-- The fields that 64 bits hold. -/
def TBar.ofNat (v : Nat) : TBar :=
  ⟨v / 2 ^ 60 % 16, v / 2 ^ 59 % 2 == 1, v / 2 ^ 40 % 2 ^ 16, v / 2 ^ 24 % 2 ^ 16, v % 2 ^ 24⟩

/-- The 64 bits that hold the fields. -/
def TBar.toNat (b : TBar) : Nat :=
  b.phase % 16 * 2 ^ 60 + (if b.poison then 2 ^ 59 else 0) + b.pend % 2 ^ 16 * 2 ^ 40 + b.init % 2 ^ 16 * 2 ^ 24 + b.sect % 2 ^ 24

/-- The barrier in block k of a scratchpad. -/
def Wg.tbar (w : Wg) (k : Nat) : TBar := .ofNat (natOfBytes (w.scratch.bytes (16 * k + 8) 8))

/-- A barrier's fields written by an event. -/
def Wg.setTbar (w : Wg) (k : Nat) (b : TBar) : Wg := { w with scratch := w.scratch.setBytes (16 * k + 8) (bytesOfNat 8 b.toNat) }

/-- A block that an event names becomes a barrier (R129). -/
def Wg.markTbar (w : Wg) (k : Nat) : Wg :=
  if w.tbars.contains k then w
  else { w with
    tbars := w.tbars ++ [k],
    scratch := (w.scratch.setBytes (16 * k) (List.replicate 8 0)).setByte (16 * k + 15) (w.scratch.byte (16 * k + 15) &&& 0xF8) }

/-- The events of Table 4.9. -/
inductive TbEvent
  | init (n : Nat)
  | expect (s : Nat)
  | arrive
  | deliver (d : Nat)
  | wait (p : Nat)
  deriving DecidableEq, Repr

/-- What an event comes to: performed (PHASE before it), a wait, or a refusal. -/
inductive TbResult
  | ok (phase : Nat)
  | park
  | refused (k : TrapKind)
  deriving DecidableEq, Repr

/-- Fields written, then the completion test (R131, R132). -/
def Gpu.tbTest (g : Gpu) (wg k : Nat) (b : TBar) : Gpu :=
  if b.pend = 0 && b.sect = 0 then
    (g.modWg wg fun w => w.setTbar k { b with phase := (b.phase + 1) % 16, pend := b.init }).wake (g.tbarWaiters wg k)
  else g.modWg wg fun w => w.setTbar k b

/-- An update refused: POISON set, and the waiters trap (R131). -/
def Gpu.tbPoison (g : Gpu) (wg k : Nat) : Gpu := (g.modWg wg fun w => w.poisonBar k).trapWaiters wg k

/-- One event of Table 4.9 on the barrier in block k of a workgroup's scratchpad. -/
def Gpu.tbEvent (g : Gpu) (wg k : Nat) (ev : TbEvent) : Gpu × TbResult :=
  let g := g.modWg wg fun w => w.markTbar k
  let b := ((g.wg? wg).map fun w => w.tbar k).getD (.ofNat 0)
  match ev with
  | .init n =>
    if n = 0 || 65535 < n then (g, .refused .barCount)
    else if !(g.tbarWaiters wg k).isEmpty then (g, .refused .barBusy)
    else (g.modWg wg fun w => w.setTbar k ⟨0, false, n, n, 0⟩, .ok b.phase)
  | .expect s =>
    if b.poison then (g, .refused .barPoison)
    else if 0xFFFFFF < b.sect + s then (g.tbPoison wg k, .refused .barOverflow)
    else (g.modWg wg fun w => w.setTbar k { b with sect := b.sect + s }, .ok b.phase)
  | .arrive =>
    if b.poison then (g, .refused .barPoison)
    else if b.pend = 0 then (g.tbPoison wg k, .refused .barOverflow)
    else (g.tbTest wg k { b with pend := b.pend - 1 }, .ok b.phase)
  | .deliver d =>
    if b.poison then (g, .ok b.phase)
    else if b.sect < d then (g.tbPoison wg k, .ok b.phase)
    else (g.tbTest wg k { b with sect := b.sect - d }, .ok b.phase)
  | .wait p =>
    if b.poison then (g, .refused .barPoison)
    else if b.phase = p then (g, .park)
    else (g, .ok b.phase)

/-- One lane of a transaction-barrier instruction (R222): the address checked, then its event; `f` is what a performed event
writes. -/
def Gpu.tbLane (a : Reg) (ev : Thread → TbEvent) (f : Nat → Thread → Thread) (g : Gpu) (t : TRef) (e : Env) (th : Thread) : Gpu × Fate :=
  let addr := th.pair a
  match checkAddr .scratchOnly 16 true 16 (((g.wg? t.wg).map Wg.scratchLen).getD 0) addr with
  | .error k => (g, .trap k)
  | .ok (.scratch o) =>
    let x := ev th
    let act := fun (g : Gpu) => match g.tbEvent t.wg (o / 16) x with
      | (g, .ok ph) => (g.modThread t (f ph), Fate.done)
      | (g, .park) => (g.modThread t fun th => { th with status := .parked (.tbar o g.cur.pc g.cur.word) }, .done)
      | (g, .refused k) => (g, .trap (.of k))
    if x = .arrive then g.afterReads e.core t .core (act (g.release e.core t .core)) else act g
  | .ok _ => (g, .trap (.at .address addr))

/-- `tbinit` (R222). -/
def execTbinit (p : Pfx) (a : Reg) (b : SrcB) (s : State) : Out :=
  s.device fun g => g.laneWord p (a.run 2 ++ b.span false) (Gpu.tbLane a (fun th => .init (th.srcW b).toNat) fun _ th => th)

/-- `tbarv` (R222). -/
def execTbarv (p : Pfx) (d a : Reg) (s : State) : Out :=
  s.device fun g => g.laneWord p (d :: a.run 2) (Gpu.tbLane a (fun _ => .arrive) fun ph th => th.setReg d (BitVec.ofNat 32 ph))

/-- `tbexp` (R222). -/
def execTbexp (p : Pfx) (a : Reg) (b : SrcB) (s : State) : Out :=
  s.device fun g => g.laneWord p (a.run 2 ++ b.span false) (Gpu.tbLane a (fun th => .expect (th.srcW b).toNat) fun _ th => th)

/-- `tbwt` (R222). -/
def execTbwt (p : Pfx) (a : Reg) (b : SrcB) (s : State) : Out :=
  s.device fun g => g.laneWord p (a.run 2 ++ b.span false) (Gpu.tbLane a (fun th => .wait ((th.srcW b).toNat % 16)) fun _ th => th)

/-! ### Shapes of copies (R216, R217) -/

/-- Source and destination formats of Table 7.5. -/
def widenTypes (cv : Nat) : Option (Ty × Ty) :=
  match cv with
  | 0 => some (.n8, .n16) | 1 => some (.s8, .s16) | 2 => some (.n8, .n32) | 3 => some (.s8, .s32)
  | 4 => some (.n16, .n32) | 5 => some (.s16, .s32) | 6 => some (.f8a, .f16) | 7 => some (.f8b, .f16)
  | 8 => some (.f8a, .e16) | 9 => some (.f16, .f32) | 10 => some (.e16, .f32) | 11 => some (.f4, .f8a)
  | _ => none

/-- Bits of a source and of a destination element. -/
def widenBits (cv : Nat) : Nat × Nat := ((widenTypes cv).map fun t => (widthOf t.1, widthOf t.2)).getD (8, 16)

/-- An element widened exactly (R217). -/
def widenCode (st dt : Ty) (c : Nat) : Nat :=
  match dt with
  | .f16 | .e16 | .f32 | .f8a => (toFloat dt .rn false (valueOf st c)).1
  | _ => wrapInt (widthOf dt) (intOf st c)

/-- The destination bytes of a widening copy. -/
def widenBytes (cv n : Nat) (src : List Byte) : List Byte :=
  match widenTypes cv with
  | none => []
  | some (st, dt) =>
    let all := natOfBytes src
    let ws := widthOf st
    let wd := widthOf dt
    ((List.range n).flatMap fun i => bytesOfNat (wd / 8) (widenCode st dt (all / 2 ^ (ws * i) % 2 ^ ws)))

/-- The source address of row r, and the destination address. -/
def rowAddr (base : DWord) (stride : Int) (r : Nat) : DWord := base + BitVec.ofInt 64 (stride * r)

/-- The source accesses of a shape: address and bytes of each. -/
def Shape.sources (s : Shape) (src : DWord) : List (DWord × Nat) :=
  match s with
  | .rows w n ss _ => (List.range n).map fun r => (rowAddr src ss r, w)
  | .widen n cv => [(src, n * (widenBits cv).1 / 8)]

/-- The destination accesses of a shape. -/
def Shape.dests (s : Shape) (dst : DWord) : List (DWord × Nat) :=
  match s with
  | .rows w n _ ds => (List.range n).map fun r => (rowAddr dst ds r, w)
  | .widen n cv => [(dst, n * (widenBits cv).2 / 8)]

/-- D: the destination byte count (R219). -/
def Shape.bytes : Shape → Nat
  | .rows w n _ _ => w * n
  | .widen n cv => n * (widenBits cv).2 / 8

/-- The limits of Table 7.4. -/
def Shape.ok (s : Shape) (strided : Bool) : Bool :=
  match s with
  | .rows w n ss ds =>
    w % 4 == 0 && decide (4 ≤ w) &&
    (if strided then
      decide (w ≤ 65536) && decide (1 ≤ n) && decide (n ≤ 65536) && ss % 4 == 0 && ds % 4 == 0 && decide (w * n ≤ 2 ^ 24) &&
      (decide (n ≤ 1) || decide (w ≤ ds.natAbs))
    else decide (w ≤ 2 ^ 24))
  | .widen n cv =>
    let b := widenBits cv
    (widenTypes cv).isSome && n * b.1 % 32 == 0 && n * b.2 % 32 == 0 && decide (n * b.1 / 8 ≤ 2 ^ 24) && decide (n * b.2 / 8 ≤ 2 ^ 24)

/-- A shape whose numbers are within the limits, close to the given one: what orders 2 to 4 look at when the limits are
broken. -/
def Shape.clamp (s : Shape) : Shape :=
  match s with
  | .rows w n ss ds => .rows (min (max w 4) (2 ^ 24)) (min (max n 1) 65536) ss ds
  | s => s

/-- The ends of a list of accesses: the first and the last. -/
def ends {α : Type} (l : List α) : List α := l.head?.toList ++ (if l.length ≤ 1 then [] else l.getLast?.toList)

/-! ### Issue (R215 to R220) -/

/-- A copy's operands as a lane reads them. -/
structure CopyArgs where
  src   : DWord
  dst   : DWord
  shape : Shape
  strided : Bool
  extra : Bool
  deriving DecidableEq, Repr

/-- The workgroup that a `.rwg` destination names (R218): of the issuing launch's root grid, in a valid gang with the
issuer's. -/
def Gpu.rwgTarget (g : Gpu) (w : Wg) (idx : Nat) : Option Wg :=
  match w.node with
  | some _ => none
  | none =>
    (g.launch? w.launch).bind fun l =>
      if l.gangs.any fun x => x.members.contains w.index && x.members.contains idx then
        g.wgs.find? fun v => v.launch == w.launch && v.node.isNone && v.index == idx && v.core?.isSome
      else none

/-- The window address of a scratchpad offset; an offset beyond the window stands for one past every SCRATCHWG, with the same
alignment (R94). -/
def scratchAddr (o : Nat) : DWord :=
  BitVec.ofNat 64 (0xFF0000000000 + if o < 2 ^ 24 then o else 2 ^ 24 - 32 + o % 16)

/-- The window address of an offset that a row of a `.rwg` copy reaches: one below 0 lies beyond every SCRATCHWG too (R218). -/
def scratchRow (o : Int) : DWord := if 0 ≤ o then scratchAddr o.toNat else scratchAddr (2 ^ 24 + (o % 16).toNat)

/-- The destination accesses of a `.rwg` copy, from its offset (R218). -/
def Shape.windowDests (s : Shape) (off : Nat) : List (DWord × Nat) :=
  match s with
  | .rows w n _ ds => (List.range n).map fun r => (scratchRow ((off : Int) + ds * r), w)
  | .widen n cv => [(scratchAddr off, n * (widenBits cv).2 / 8)]

/-- Order 6 over accesses of several sizes. -/
def Gpu.reachEach (t : TRef) (core ctx : Nat) (acc : Access) : Gpu → List (DWord × Nat) → Gpu × Except Fate (List (Nat × Leaf))
  | g, [] => (g, .ok [])
  | g, (a, n) :: xs =>
    match g.reach t core ctx .any 4 true n acc a with
    | (g, .error f) => (g, .error f)
    | (g, .ok tg) =>
      match Gpu.reachEach t core ctx acc g xs with
      | (g, .error f) => (g, .error f)
      | (g, .ok ls) => (g, .ok ((match tg with | .mem l _ => l | .scratch _ => []) ++ ls))

/-- The accesses that memory translates. -/
def inMemory (xs : List (DWord × Nat)) : List (DWord × Nat) :=
  xs.filter fun x => match region x.1 with | .mem _ => x.2 != 0 | _ => false

/-- One lane of `acp`, `acps` or `acpw` (R216 to R219): its checks in the order of Table 7.1, then the copy, counted in
COPY. Copy-shape and copy-target share an order there: the model takes copy-shape first; and where no target is valid, order 4 is checked
against the issuer's own SCRATCHWG (log 98). -/
def Gpu.copyLane (ch : BitVec 2) (tb rwg rel : Bool) (sc : Scope) (c : Reg) (args : Thread → CopyArgs) (g : Gpu) (t : TRef) (e : Env) (th : Thread) :
    Gpu × Fate :=
  match g.wg? t.wg with
  | none => (g, .trap (.of .copyTarget))
  | some w =>
    let x := args th
    let target := if rwg then g.rwgTarget w (x.dst >>> 32).toNat else some w
    let tlen := (target.map Wg.scratchLen).getD w.scratchLen
    let off := (x.dst.setWidth 32 : Word).toNat
    let dst := if rwg then scratchAddr off else x.dst
    let dests := fun (s : Shape) => if rwg then s.windowDests off else s.dests dst
    let near := x.shape.clamp
    let srcs := (ends (near.sources x.src)).map fun y => (y.1, 4, y.2)
    let dsts := (ends (dests near)).map fun y => (y.1, 4, y.2)
    let boff := if tb then (th.reg c).toNat else 0
    let bars := if tb then [(scratchAddr boff, 16, 16)] else []
    let chk := fun (k : TrapKind) =>
      (firstErr (srcs.map fun y => checkAddr .any y.2.1 true y.2.2 w.scratchLen y.1) k).orElse fun _ =>
        firstErr ((dsts ++ bars).map fun y => checkAddr .any y.2.1 true y.2.2 tlen y.1) k
    match (chk .address).orElse fun _ => (chk .alignment).orElse fun _ => chk .scratchRange with
    | some f => (g, f)
    | none =>
      if x.extra || !x.shape.ok x.strided then (g, .trap (.of .copyShape))
      else
        match target with
        | none => (g, .trap (.of .copyTarget))
        | some v =>
          match Gpu.reachEach t e.core e.ctx .read g (inMemory (x.shape.sources x.src)) with
          | (g, .error f) => (g, f)
          | (g, .ok ls) =>
            match Gpu.reachEach t e.core e.ctx .write g (inMemory (dests x.shape)) with
            | (g, .error f) => (g, f)
            | (g, .ok ms) =>
              if 63 ≤ th.count .copy then (g, .wait (.counter .copy 62))
              else
                let cp : Copy := { src := x.src, dst := dst, dwg := v.id, shape := x.shape, tb := if tb then some boff else none,
                                   sc := sc }
                g.releasing e.core t rel sc fun g => Gpu.markHint ch (g.issueOp t th .copy (.copy cp) (ls ++ ms) []) g.nextId

/-- Registers a copy names: the two pairs, and FC with TB. -/
def copyRegs (tb : Bool) (d a c : Reg) : List Reg := d.run 2 ++ a.run 2 ++ (if tb then [c] else [])

/-- `acp` (R216). -/
def execAcp (p : Pfx) (ch : BitVec 2) (tb rwg rel : Bool) (sc : Scope) (d a : Reg) (b : SrcB) (c : Reg) (s : State) : Out :=
  s.device fun g => g.laneWord p (copyRegs tb d a c ++ b.span false) (Gpu.copyLane ch tb rwg rel sc c fun th =>
    ⟨th.pair a, th.pair d, .rows (th.srcW b).toNat 1 0 0, false, false⟩)

/-- `acps` (R216): width, rows and the two signed strides in four registers. -/
def execAcps (p : Pfx) (ch : BitVec 2) (tb rwg rel : Bool) (sc : Scope) (d a b c : Reg) (s : State) : Out :=
  s.device fun g => g.laneWord p (copyRegs tb d a c ++ b.run 4) (Gpu.copyLane ch tb rwg rel sc c fun th =>
    ⟨th.pair a, th.pair d, .rows (th.reg b).toNat (th.reg (b + 1)).toNat (th.reg (b + 2)).toInt (th.reg (b + 3)).toInt, true, false⟩)

/-- `acpw` (R216, R217). -/
def execAcpw (p : Pfx) (ch : BitVec 2) (tb rwg rel : Bool) (sc : Scope) (d a : Reg) (b : SrcB) (c : Reg) (s : State) : Out :=
  s.device fun g => g.laneWord p (copyRegs tb d a c ++ b.span false) (Gpu.copyLane ch tb rwg rel sc c fun th =>
    let v := (th.srcW b).toNat
    ⟨th.pair a, th.pair d, .widen (v % 2 ^ 20) (v / 2 ^ 20 % 16), false, v / 2 ^ 24 ≠ 0⟩)

/-- One lane of `acpx` (R220); copy-shape comes before copy-target, which share an order of Table 7.1 (log 98). -/
def Gpu.acpxLane (ch : BitVec 2) (tb rel : Bool) (d a : Reg) (b : SrcB) (c : Reg) (g : Gpu) (t : TRef) (e : Env) (th : Thread) : Gpu × Fate :=
  match g.wg? t.wg, g.ctx? e.ctx with
  | some w, some cx =>
    let n := (th.srcW b).toNat
    let shape := Shape.rows n 1 0 0
    let near := min (max n 4) (2 ^ 24)
    let src := th.pair a
    let dst := th.pair d
    let v := (th.reg c).toNat
    let ep := v % 2 ^ 16
    let bar := v / 2 ^ 16
    let chk := firstErr [checkAddr .any 4 true near w.scratchLen src]
    let fate := (chk .address).orElse fun _ => (chk .alignment).orElse fun _ =>
      if dst.toNat % 4 ≠ 0 then some (.trap (.at .alignment dst)) else chk .scratchRange
    match fate with
    | some f => (g, f)
    | none =>
      if !shape.ok false || (!tb && bar ≠ 0) then (g, .trap (.of .copyShape))
      else if !g.connected cx ep then (g.logWalk cx 0xFFFF (cx.eptab.toNat + 16 * ep) 16, .trap (.of .copyTarget))
      else
        match Gpu.reachEach t e.core e.ctx .read g (inMemory [(src, n)]) with
        | (g, .error f) => (g, f)
        | (g, .ok ls) =>
          if 63 ≤ th.count .copy then (g, .wait (.counter .copy 62))
          else
            let cp : Copy := { src := src, dst := dst, dwg := t.wg, shape := shape, tb := if tb then some (16 * bar) else none,
                               sc := .sys }
            g.releasing e.core t rel .sys fun g => Gpu.markHint ch (g.issueOp t th .copy (.acpx cp ep bar) ls []) g.nextId
  | _, _ => (g, .trap (.of .copyTarget))

/-- `acpx` (R220). -/
def execAcpx (p : Pfx) (ch : BitVec 2) (tb rel : Bool) (d a : Reg) (b : SrcB) (c : Reg) (s : State) : Out :=
  s.device fun g => g.laneWord p (d.run 2 ++ a.run 2 ++ [c] ++ b.span false) (Gpu.acpxLane ch tb rel d a b c)

/-- `wcnt` (R127, R221): the thread waits before the word while its counter exceeds N. -/
def execWcnt (p : Pfx) (cls : Cls) (n : BitVec 6) (s : State) : Out :=
  s.device fun g => g.laneWord p [] fun g _ _ th =>
    if n.toNat < th.count cls then (g, .wait (.counter cls n.toNat)) else (g, .done)

/-! ### Completion (R219, R220) -/

/-- A copy's source accesses read in turn. -/
def Gpu.copySource (o : Op) : Gpu → List (DWord × Nat) → Gpu × Except (List Phys) (List Byte × Option Nat)
  | g, [] => (g, .ok ([], none))
  | g, (a, n) :: xs =>
    match g.opBytes o a n with
    | (g, .error ps) => (g, .error ps)
    | (g, .ok (bs, p)) =>
      match Gpu.copySource o g xs with
      | (g, .error ps) => (g, .error ps)
      | (g, .ok (cs, q)) => (g, .ok (bs ++ cs, p.orElse fun _ => q))

/-- A copy's destination accesses written in turn, in the scratchpad that the copy names or in memory. -/
def Gpu.copyDest (o : Op) (dwg : Nat) : Gpu → List (DWord × Nat) → List Byte → Gpu
  | g, [], _ => g
  | g, (a, n) :: xs, bs =>
    let g := match region a with
      | .scratch off => g.scratchStore dwg off (bs.take n)
      | _ => g.opStore o a (bs.take n)
    Gpu.copyDest o dwg g xs (bs.drop n)

/-- The destination bytes that the source bytes of `d` of them give. -/
def Shape.convert (s : Shape) (d : Nat) (src : List Byte) : List Byte :=
  match s with
  | .rows _ _ _ _ => src
  | .widen _ cv => widenBytes cv (8 * d / (widenBits cv).2) src

/-- Source bytes that `d` destination bytes come from. -/
def Shape.sourceLen (s : Shape) (d : Nat) : Nat :=
  match s with
  | .rows _ _ _ _ => d
  | .widen _ cv => d * (widenBits cv).1 / (widenBits cv).2

/-- Sectors of a delivery (R219). -/
def Copy.sectors (c : Copy) : Nat := (c.shape.bytes + 31) / 32

/-- Accesses without their first `k` bytes. -/
def skipBytes : Nat → List (DWord × Nat) → List (DWord × Nat)
  | _, [] => []
  | k, (a, n) :: xs =>
    if k = 0 then (a, n) :: xs
    else if n ≤ k then skipBytes (k - n) xs else (a + BitVec.ofNat 64 k, n - k) :: xs

/-- The first `k` bytes of accesses. -/
def firstBytes : Nat → List (DWord × Nat) → List (DWord × Nat)
  | _, [] => []
  | k, (a, n) :: xs => if k ≤ n then (if k = 0 then [] else [(a, k)]) else (a, n) :: firstBytes (k - n) xs

/-- The source accesses of a copy's next `n` bytes. -/
def Op.nextSrc (o : Op) (c : Copy) (n : Nat) : List (DWord × Nat) :=
  firstBytes (c.shape.sourceLen n) (skipBytes (c.shape.sourceLen o.moved) (c.shape.sources c.src))

/-- The destination accesses of a copy's next `n` bytes. -/
def Op.nextDst (o : Op) (c : Copy) (n : Nat) : List (DWord × Nat) := firstBytes n (skipBytes o.moved (c.shape.dests c.dst))

/-- The next `n` bytes of a copy read and written (R219, R383): those before are done. -/
def Gpu.movePart (g : Gpu) (o : Op) (c : Copy) (n : Nat) : Gpu × Bool :=
  match Gpu.copySource o g (o.nextSrc c n) with
  | (_, .error ps) => (g.askFor o ps, false)
  | (g, .ok (bs, p)) =>
    let g := (Gpu.copyDest o c.dwg g (o.nextDst c n) (c.shape.convert n bs)).deferPoison o p
    (g.modOp o.id fun o => { o with moved := o.moved + n }, true)

/-- The delivery of a copy, which follows all its writes, and its retirement (R219). -/
def Gpu.endCopy (g : Gpu) (o : Op) (c : Copy) : Gpu :=
  (match c.tb with
    | some b => (g.tbEvent c.dwg (b / 16) (.deliver c.sectors)).1
    | none => g).retireOp o.id

/-- A copy of this device completes: it reads and writes what is left of it, delivers when its writes are performed, at a peer too, and
retires (R219). -/
def Gpu.performCopy (g : Gpu) (o : Op) (c : Copy) : Gpu :=
  let n := c.shape.bytes - o.moved
  if o.sent then (if g.unacked o.id then g else g.endCopy o c)
  else if let some g := g.unready o (o.nextSrc c n) (o.nextDst c n) (Gpu.retireOp · o.id) then g
  else
    let r := g.movePart o c n
    if !r.2 then r.1
    else if r.1.unacked o.id then r.1.modOp o.id fun o => { o with sent := true }
    else r.1.endCopy o c

/-- A copy that may stop inside (R383): its next 128 bytes moved, while its workgroup is on a core. -/
def Gpu.stepCopy (g : Gpu) (id : Nat) : Gpu :=
  match g.op? id with
  | some o => match o.kind with
    | .copy c =>
      let away := ((g.wg? o.owner.wg).bind Wg.core?).isNone
      if away || o.sent || c.shape.bytes ≤ o.moved + 128 || (g.unready o (o.nextSrc c 128) (o.nextDst c 128) fun x => x).isSome then g
      else (g.movePart o c 128).1
    | _ => g
  | none => g

/-- A copy to a remote context: packet after packet of at most 4,096 bytes, each when the one before is performed, then its delivery;
it retires when the peer has acknowledged them (R220). A packet that is refused ends it, and so does a failed connection, with the
fabric-loss trap (R422). Which workgroup of the remote context owns the barrier is not stated: a free value. -/
def Gpu.performAcpx (g : Gpu) (o : Op) (c : Copy) (ep : Nat) : Gpu :=
  let slot := (g.env o.owner).ctx
  if g.fabric.conns.any (fun k => k.ctx == slot && k.ep == ep && k.failed) then
    (if o.refused then g else g.deferOp o .fabricLoss 0).retireOp o.id
  else if g.unacked o.id then g
  else if o.sent || o.refused then g.retireOp o.id
  else if o.moved < c.shape.bytes then
    let n := min 4096 (c.shape.bytes - o.moved)
    if let some g := g.unready o (o.nextSrc c n) [] (Gpu.retireOp · o.id) then g
    else match Gpu.copySource o g (o.nextSrc c n) with
    | (_, .error ps) => g.askFor o ps
    | (g, .ok (bs, p)) =>
      ((g.sendOn slot ep (.write (c.dst.toNat + o.moved) bs) (some o.id) none).deferPoison o p).modOp o.id fun o => { o with moved := o.moved + n }
  else
    match c.tb with
    | some b =>
      let (g, w) := g.drawWord
      (g.sendOn slot ep (.deliver w.toNat b c.sectors) (some o.id) none).modOp o.id fun o => { o with sent := true }
    | none => g.retireOp o.id

end Sys2Proof.Machine
end

