-- ==== Sys2Proof/Machine/Lane.lean ====
section
/-! DEFINITION. Lane and team instructions (06 R191 to R198). -/

namespace Sys2Proof.Machine

open Sys2Proof

/-! ### Frames of the group -/

/-- Lanes of a team with their threads. -/
abbrev Lanes := List (TRef × Thread)

/-- The thread on a lane of a team. -/
def Lanes.at_ (ls : Lanes) (lane : Nat) : Option Thread := (ls.find? fun x => x.1.lane == lane).map (·.2)

/-- The fates of a team in which some lanes cannot issue for a full counter: they wait (R125), and the rest of the team is
incomplete (log 33). -/
def fullFate (hot : List TRef) (c : Cls) (t : TRef) : Fate :=
  if hot.contains t then .wait (.counter c 62) else .trap (.of .teamIncomplete)

/-- Lanes whose counter of a class stands at 63. -/
def hotLanes (c : Cls) (ls : Lanes) : List TRef := (ls.filter fun x => 63 ≤ x.2.count c).map (·.1)

/-- A team exchange: each active lane's destinations become pending with the values and flags of `f`, counted in XCH (R167).
`f32` are the operands that every active lane reads as F32 (R87). DESIGN CHOICE (log 101): the verdict-consume trap comes before the
park of a lane whose counter is full, of which R168's order does not speak. -/
def Gpu.teamXch (g : Gpu) (p : Pfx) (used : List Reg) (reads : Reads) (f32 : List Reg) (dst : List Reg)
    (f : Env → Lanes → Lanes → TRef → Thread → List Word × BitVec 5) : Gpu :=
  g.teamWord p used reads fun g _ _ ms act =>
    let look := fun (ts : List TRef) => ts.filterMap fun t => (g.thread? t).map fun th => (t, th)
    let all := look ms
    let on := look act
    let hot := hotLanes .xch on
    if on.any fun x => f32.any fun r => isAbandoned (x.2.reg r) then (g, fun _ => .trap (.of .verdict))
    else if !hot.isEmpty then (g, fullFate hot .xch)
    else
      let id := g.nextId
      (g.mapThreads fun t th =>
        if act.contains t then
          let r := f (g.env t) all on t th
          th.pendNow id dst r.1 r.2 true g.cur.pc g.cur.word
        else th, fun _ => .done)

/-- A b32 or b64 value as the words of its registers. -/
def wideWords (wide : Bool) (v : DWord) : List Word := if wide then [v.setWidth 32, (v >>> 32).setWidth 32] else [v.setWidth 32]

/-- A register read of a lane of the team; a lane that holds no live thread gives zero (R192). -/
def laneRead (ls : Lanes) (wide : Bool) (a : Reg) (lane : Nat) : DWord := ((ls.at_ lane).map fun th => th.wideReg wide a).getD 0

/-! ### Folds (R195, R196) -/

/-- Least or greatest by R180 over a set: the result and NV. -/
def foldMinMax (mx : Bool) (ws : List Word) : Word × BitVec 5 :=
  let r := match ws.filter fun w => !(fv w).isNan with
    | [] => 0x7FC00000
    | x :: xs => xs.foldl (fun a b => (minmaxW mx a b).1) x
  (r, sigFlag (ws.map fv))

/-- A fold of Table 6.12 over the values of some lanes; the identity where there is none. -/
def foldV (op : FoldOp) (ty : Ty) (ftz : Bool) (ws : List Word) : Word × BitVec 5 :=
  let int := fun (f : Int → Int → Int) (z : Int) =>
    (BitVec.ofNat 32 (wrapInt 32 (match ws.map fun w => intOf ty w.toNat with
      | [] => z
      | x :: xs => xs.foldl f x)), (0 : BitVec 5))
  match op, ty with
  | .add, .f32 => if ws.isEmpty then (0, 0) else sum196 ftz ws
  | .min, .f32 => if ws.isEmpty then (0x7F800000, 0) else foldMinMax false ws
  | .max, .f32 => if ws.isEmpty then (0xFF800000, 0) else foldMinMax true ws
  | .add, _ => int (· + ·) 0
  | .min, t => int min (intMax t)
  | .max, t => int max (intMin t)
  | .and, _ => (ws.foldl (· &&& ·) 0xFFFFFFFF, 0)
  | .or, _ => (ws.foldl (· ||| ·) 0, 0)
  | .xor, _ => (ws.foldl (· ^^^ ·) 0, 0)

/-! ### The instructions -/

/-- `rdfl` (R191): over the whole bundle; its lanes are sealed by it (R227). -/
def execRdfl (p : Pfx) (wide : Bool) (d a : Reg) (s : State) : Out :=
  s.device fun g =>
    let used := d.span wide ++ a.span wide
    let on := (sortLanes g.cur.members).filterMap fun t => (g.thread? t).bind fun th =>
      if th.guards p && (th.pendingAmong used).isNone then some th else none
    let v := (on.head?.map fun th => th.wideReg wide a).getD 0
    g.sealSkipped p (some g.nextId) (g.aluWord p used fun _ th => .ok { th.setWide wide d v with rdfl := some g.nextId })

/-- `bcast` (R193). -/
def execBcast (p : Pfx) (wide : Bool) (d a : Reg) (lane : BitVec 5) (s : State) : Out :=
  s.device fun g => g.teamAlu p (d.span wide ++ a.span wide) (sourceReads (d.span wide ++ a.span wide) (a.span wide) fun _ _ => lane.toNat) fun _ ms _ =>
    .ok fun _ th => th.setWide wide d (laneRead ms wide a lane.toNat)

/-- The source lane of a lane of `shfl` (R193). -/
def shflLane (mode : ShflMode) (l : Nat) (b : Word) : Nat :=
  match mode with
  | .idx => b.toNat % 32
  | .up => if l < b.toNat then l else l - b.toNat
  | .down => if 31 < l + b.toNat then l else l + b.toNat
  | .xor => l ^^^ (b.toNat % 32)

/-- `shfl` (R193). -/
def execShfl (p : Pfx) (mode : ShflMode) (wide : Bool) (d a : Reg) (b : SrcB) (s : State) : Out :=
  s.device fun g =>
    let used := d.span wide ++ a.span wide ++ b.span false
    g.teamXch p used (sourceReads used (a.span wide) fun u x => shflLane mode u.lane (x.srcW b)) [] (d.span wide) fun _ ms _ t th =>
      (wideWords wide (laneRead ms wide a (shflLane mode t.lane (th.srcW b))), 0)

/-- `vote` (R194). -/
def execVote (p : Pfx) (mode : VoteMode) (d a : Reg) (s : State) : Out :=
  s.device fun g =>
    let used := match mode with | .uni => [a] | .ballot => [d] | _ => []
    g.teamAlu p used (laneReads used []) fun _ _ on =>
      let holds := fun (th : Thread) => th.pred (a.setWidth 3)
      .ok fun _ th => match mode with
        | .all => th.setPred (d.setWidth 3) (on.all fun x => holds x.2)
        | .any => th.setPred (d.setWidth 3) (on.any fun x => holds x.2)
        | .uni => th.setPred (d.setWidth 3) (on.all fun x => x.2.reg a == th.reg a)
        | .ballot => th.setReg d (lanesMask ((on.filter fun x => holds x.2).map (·.1)))

/-- `redu` (R195). -/
def execRedu (p : Pfx) (op : FoldOp) (ty : Ty) (d a : Reg) (s : State) : Out :=
  s.device fun g => g.teamXch p [d, a] (laneReads [d, a] []) (if ty == .f32 then [a] else []) [d] fun e _ on _ _ =>
    let r := foldV op ty e.ftz (on.map fun x => x.2.reg a)
    ([r.1], r.2)

/-- `scan` (R195). -/
def execScan (p : Pfx) (op : FoldOp) (excl : Bool) (ty : Ty) (d a : Reg) (s : State) : Out :=
  s.device fun g => g.teamXch p [d, a] (laneReads [d, a] []) (if ty == .f32 then [a] else []) [d] fun e _ on t _ =>
    let pre := on.filter fun x => if excl then x.1.lane < t.lane else x.1.lane ≤ t.lane
    let r := foldV op ty e.ftz (pre.map fun x => x.2.reg a)
    ([r.1], r.2)

/-- `match` (R197). -/
def execMatchL (p : Pfx) (wide : Bool) (d a : Reg) (s : State) : Out :=
  s.device fun g => g.teamXch p (d :: a.span wide) (laneReads (d :: a.span wide) []) [] [d] fun _ _ on _ th =>
    ([lanesMask ((on.filter fun x => x.2.wideReg wide a == th.wideReg wide a).map (·.1))], 0)

/-- `hist` (R197). -/
def execHist (p : Pfx) (d a : Reg) (sh : BitVec 5) (s : State) : Out :=
  s.device fun g => g.teamXch p [d, a] (laneReads [d, a] []) [] [d] fun _ _ on t th =>
    let n := (on.filter fun x => (x.2.reg a).toNat / 2 ^ sh.toNat == t.lane).length
    ([th.reg d + BitVec.ofNat 32 n], 0)

/-- Key order of `hmerge` (R198): −0 below +0, every NaN above +∞, two NaNs equal. -/
def keyLt (ty : Ty) (a b : Word) : Bool :=
  match ty with
  | .f32 =>
    let x := fv a
    let y := fv b
    if x.isNan then false else if y.isNan then true else ltSigned x y
  | t => intOf t a.toNat < intOf t b.toNat

/-- Before(y, x) of R198. -/
def keyBefore (ty : Ty) (desc : Bool) (y x : Word) : Bool := if desc then keyLt ty x y else keyLt ty y x

/-- The merge of two runs of keys with payloads (R198). -/
def mergeRuns (ty : Ty) (desc : Bool) : Nat → List (Word × Word) → List (Word × Word) → List (Word × Word)
  | 0, _, _ => []
  | _ + 1, [], ys => ys
  | _ + 1, xs, [] => xs
  | fuel + 1, x :: xs, y :: ys =>
    if keyBefore ty desc y.1 x.1 then y :: mergeRuns ty desc fuel (x :: xs) ys
    else x :: mergeRuns ty desc fuel xs (y :: ys)

/-- The merged key and payload of a lane (R198). -/
def hmergeV (ty : Ty) (runlog : Nat) (desc : Bool) (on : Lanes) (a c : Reg) (lane : Nat) : Word × Word :=
  let r := 2 ^ runlog
  let q := lane / (2 * r)
  let blk := on.filter fun x => x.1.lane / (2 * r) == q
  let kv := fun (ls : Lanes) => ls.map fun x => (x.2.reg a, x.2.reg c)
  let z := mergeRuns ty desc 64 (kv (blk.filter fun x => x.1.lane % (2 * r) < r)) (kv (blk.filter fun x => r ≤ x.1.lane % (2 * r)))
  z.getD (blk.filter fun x => x.1.lane < lane).length (0, 0)

/-- `hmerge` (R198). -/
def execHmerge (p : Pfx) (ty : Ty) (runlog : BitVec 3) (desc : Bool) (d a c : Reg) (s : State) : Out :=
  s.device fun g => g.teamXch p [d, a, c] (laneReads [d, a, c] []) (if ty == .f32 then [a] else []) [d, c] fun _ _ on t _ =>
    let r := hmergeV ty runlog.toNat desc on a c t.lane
    ([r.1, r.2], 0)

end Sys2Proof.Machine
end

