-- ==== Sys2Proof/Machine/Array.lean ====
section
/-! DEFINITION. The distance array (08 R232 to R250): tiles, products, drains, centroid update, the issue of an array operation
and its retirement, and the shadow check with its telemetry (03 R89 to R91; 18 R441). -/

namespace Sys2Proof.Machine

open Sys2Proof

/-! ### Format words (R236) -/

/-- A valid format word (Table 8.1). -/
structure Fmw where
  sb   : Int
  sa   : Int
  mt   : Metric
  bty  : Ty
  aty  : Ty
  word : Word
  deriving DecidableEq, Repr

/-- The element formats of the array, codes 0x4 to 0xD. -/
def arrayTy (t : Ty) : Bool := 4 ≤ t.code.toNat && t.code.toNat ≤ 13

/-- The fields of a format word when it is valid. -/
def fmwOf (w : Word) : Option Fmw :=
  let a := Ty.ofCode (w.extractLsb' 0 4)
  let b := Ty.ofCode (w.extractLsb' 4 4)
  let sa : BitVec 8 := w.extractLsb' 16 8
  let sb : BitVec 8 := w.extractLsb' 24 8
  let mt := (w.extractLsb' 8 2).toNat
  if !arrayTy a || !arrayTy b || widthOf a != widthOf b || mt == 3 || w.extractLsb' 10 6 != 0 || sa == 0x80 || sb == 0x80 then none
  else some { sb := sb.toInt, sa := sa.toInt, mt := mt, bty := b, aty := a, word := w }

/-- The depth k of one instruction. -/
def Fmw.depth (f : Fmw) : Nat := 512 / widthOf f.aty

/-- Terms per step (Table 3.8). -/
def Fmw.kb (f : Fmw) : Nat := if widthOf f.aty = 32 then 2 else if widthOf f.aty = 16 then 8 else if widthOf f.aty = 8 then 16 else 32

/-- The demand class of a product (Table 8.4). -/
def Fmw.demand (f : Fmw) (pair : Bool) : Nat :=
  (if widthOf f.aty = 32 then 1 else if widthOf f.aty = 16 then 2 else if widthOf f.aty = 8 then 3 else 4) + (if pair then 2 else 0)

/-! ### Tiles (R238) -/

/-- An element of a tile. -/
def Wg.elem (w : Wg) (t i j : Nat) : Word := Store.get 0 w.tiles (256 * t + 16 * i + j)

/-- An element written. -/
def Wg.setElem (w : Wg) (t i j : Nat) (v : Word) : Wg := { w with tiles := Store.set 0 w.tiles (256 * t + 16 * i + j) v }

/-- A tile's elements written, row by row. -/
def Wg.setTile (w : Wg) (t : Nat) (vs : List Word) : Wg :=
  (vs.zipIdx).foldl (fun w x => w.setElem t (x.2 / 16) (x.2 % 16) x.1) w

/-- Positions of a tile, row by row. -/
def cells : List (Nat × Nat) := (List.range 256).map fun e => (e / 16, e % 16)

/-- The tiles that an operation names. -/
def ArrOp.tiles : ArrOp → List Nat
  | .zero t => [t]
  | .ld _ t _ _ => [t]
  | .st _ _ _ t _ _ => [t]
  | .mma pair _ _ _ t t2 _ _ _ => if pair then [t, t2] else [t]
  | .drain _ _ w _ t t2 _ => if w then [t, t2] else [t]
  | .topk _ _ w _ _ t t2 _ => if w then [t, t2] else [t]
  | .cupd t t2 _ _ _ => [t, t2]
  | .cfin _ _ t t2 _ => [t, t2]
  | .verd _ t _ _ _ _ _ => [t]

/-- Operations that may write an abandoned encoding (R237). -/
def ArrOp.mayAbandon : ArrOp → Bool
  | .ld _ _ _ _ | .verd _ _ _ _ _ _ _ => true
  | _ => false

/-- The array operations outstanding in a core's order. -/
def Gpu.arrOps (g : Gpu) (core : Nat) : List (Op × ArrOp) :=
  (g.core core).arrq.filterMap fun i => (g.op? i).bind fun o => match o.kind with | .arr a => some (o, a) | _ => none

/-- Tiles named by outstanding operations of a workgroup. -/
def Gpu.namedTiles (g : Gpu) (core wg : Nat) : List Nat :=
  (((g.arrOps core).filter fun x => x.1.owner.wg == wg).flatMap fun x => x.2.tiles).dedup

/-- A core's free tiles (R19, R239): a dropped tile counts as used while an operation names it. -/
def Gpu.freeTiles (g : Gpu) (core : Nat) : Nat :=
  let here := g.wgs.filter fun w => w.place == .core core
  64 - here.foldl (fun n w => n + w.tmap.length + ((g.namedTiles core w.id).filter fun t => !w.tmap.contains t).length) 0

/-- Contents of tiles that are neither owned nor named by an outstanding operation are dropped. -/
def Gpu.sweepTiles (g : Gpu) (core wg : Nat) : Gpu :=
  let named := g.namedTiles core wg
  g.modWg wg fun w => { w with tiles := w.tiles.filter fun x => w.tmap.contains (x.1 / 256) || named.contains (x.1 / 256) }

/-- C set (R239): new tiles are +0, the highest names are dropped. -/
def Gpu.setTiles (g : Gpu) (core wg n : Nat) : Gpu :=
  let gen := g.nextId + 1
  let g := g.fresh.modWg wg fun w =>
    { w with tmap := w.tmap.take n ++ (List.range (n - w.tmap.length)).map fun i => 64 * gen + (w.tmap.length + i) }
  g.sweepTiles core wg

/-- The status word of R239. -/
def tileStatus (refused : Bool) (c : Nat) : Word := (if refused then 0x80000000 else 0) ||| BitVec.ofNat 32 (c % 128)

/-- `aalloc`, `agrow` and `afree` (R239): `want` gives C′ when the request is in bounds. -/
def Gpu.tileWord (g : Gpu) (p : Pfx) (d : Reg) (b : SrcB) (want : Wg → Nat → Option Nat) : Gpu :=
  g.teamWord p (d :: b.span false) (laneReads [d] (b.span false)) fun g wg _ _ act =>
    match g.wg? wg, (act.head?.bind g.thread?) with
    | some w, some el =>
      let core := w.core?.getD 0
      let n := (el.srcW b).toNat
      let c := w.tmap.length
      let (g, bad, c') := match want w n with
        | some m => if m ≤ c || m - c ≤ g.freeTiles core then (g.setTiles core wg m, false, m) else (g, true, c)
        | none => (g, true, c)
      (g.mapThreads fun t th => if act.contains t then th.setReg d (tileStatus bad c') else th, fun _ => .done)
    | _, _ => (g, fun _ => .done)

/-- `aalloc` (R239). -/
def execAalloc (p : Pfx) (d : Reg) (b : SrcB) (s : State) : Out :=
  s.device fun g => g.tileWord p d b fun w n => if w.tilesDecl ≤ n && n ≤ 64 then some n else none

/-- `agrow` (R239). -/
def execAgrow (p : Pfx) (d : Reg) (b : SrcB) (s : State) : Out :=
  s.device fun g => g.tileWord p d b fun w n => if w.tmap.length + n ≤ 64 then some (w.tmap.length + n) else none

/-- `afree` (R239). -/
def execAfree (p : Pfx) (d : Reg) (b : SrcB) (s : State) : Out :=
  s.device fun g => g.tileWord p d b fun w n => if n + w.tilesDecl ≤ w.tmap.length then some (w.tmap.length - n) else none

/-! ### Issue of an array operation (R232 to R237, R261) -/

/-- What an array instruction asks of its core once its operands are read; `waits` are tiles that it may read as numbers beyond the
elements `reads`. -/
structure ArrReq where
  demand : Nat
  pair   : Bool
  reads  : List (Nat × Nat × Nat)
  offs   : List (Nat × Nat × Nat)
  mem    : Option (DWord × Nat × Access)
  kind   : ArrOp
  regs   : List Reg
  latch  : Option (Option Latch)
  counts : Bool
  waits  : List Nat := []
  deriving DecidableEq, Repr

/-- The window address of an offset, as a trap reports it. -/
def windowAddr (off : Nat) : DWord := BitVec.ofNat 64 (0xFF0000000000 + off)

/-- Item 9 of R235 for scratchpad operands (offset, alignment, bytes): alignment before range. -/
def offTrap (scratchLen : Nat) (offs : List (Nat × Nat × Nat)) : Option Trap :=
  ((offs.find? fun x => x.1 % x.2.1 ≠ 0).map fun x => Trap.at .alignment (windowAddr x.1)).orElse fun _ =>
    (offs.find? fun x => scratchLen < x.1 + x.2.2).map fun x => Trap.at .scratchRange (windowAddr x.1)

/-- Item 9 for a memory operand: the address checks, then the pages for every member of the team (R355). -/
def Gpu.teamReach (g : Gpu) (ms : List TRef) (core ctx al size : Nat) (acc : Access) (a : DWord) : Gpu × Except Fate (List (Nat × Leaf)) :=
  match ms with
  | [] => (g, .ok [])
  | t :: ts =>
    match g.reach t core ctx .any al true size acc a with
    | (g, .ok (.mem ls _)) => (g, .ok ls)
    | (g, .ok (.scratch _)) => (g, .ok [])
    | (g, .error f) =>
      match f with
      | .wait (.fault part n _ _) =>
        let add := fun (r : FaultRec) => if r.seq = n then { r with lanes := r.lanes ++ ts } else r
        (g.modPart part fun p => { p with faults := p.faults.map add }, .error f)
      | _ => (g, .error f)

/-- A team of a workgroup. -/
def Wg.team? (w : Wg) (j : Nat) : Option Team := w.teams[j]?

/-- The team holds an unexpired grant of the class or above (R261). -/
def Gpu.hasGrant (g : Gpu) (w : Wg) (j d : Nat) : Bool :=
  ((w.team? j).bind Team.grant).any fun x => d ≤ x.cls && decide (g.now < x.till)

/-- A grant asked for on a team's behalf, unless one is already waiting (R261). -/
def Gpu.askGrant (g : Gpu) (wg j d : Nat) : Gpu :=
  if g.gov.reqs.any fun r => r.wg == wg && r.team == j && r.op.isNone && r.cls == d then g
  else
    let r : LeaveReq := { id := g.nextId, wg := wg, team := j, cls := d, dur := 20, op := none }
    { g.fresh with gov := { g.gov with reqs := g.gov.reqs ++ [r] } }

/-- The follower's core of a pair. -/
def followerOf (core : Nat) : Nat := 2 * pairOf core + 1

/-- A core's array is held by a pair operation of the other core (R21). -/
def Gpu.held (g : Gpu) (core : Nat) : Bool := (g.arrOps core).any fun x => x.1.core != core

/-- An array operation put in its place in the array's order, and in the follower's for a pair operation (R234). DESIGN CHOICE (log 115):
a pair operation that is issued again after a save or a migration on an odd core takes that core's own array alone. -/
def Gpu.enqueue (g : Gpu) (core : Nat) (pair : Bool) (id : Nat) : Gpu :=
  let push := fun (c : CoreSt) => { c with arrq := c.arrq ++ [id] }
  let g := g.modCore core push
  if pair && followerOf core != core then g.modCore (followerOf core) push else g

/-- What stops a request, in R235's order from item 8 on: a trap, a wait, or nothing; with the pages it holds. DESIGN CHOICE (log 114):
item 10 sees the tile as it stands, not as earlier operations outstanding will leave it. -/
def Gpu.arrStop (g : Gpu) (w : Wg) (j core ctx : Nat) (ms : List TRef) (r : ArrReq) : Gpu × Except Fate (List (Nat × Leaf)) :=
  let power := ((g.launch? w.launch).map fun l => l.desc.power).getD 0
  if power < r.demand then (g, .error (.trap (.of .leaveClass)))
  else
    match offTrap w.scratchLen r.offs with
    | some k => (g, .error (.trap k))
    | none =>
      let (g, pages) := match r.mem with
        | some (a, n, acc) => g.teamReach ms core ctx 64 n acc a
        | none => (g, .ok [])
      match pages with
      | .error f => (g, .error f)
      | .ok ls =>
        let busy := (g.arrOps core).any fun x =>
          x.1.owner.wg == w.id && x.2.mayAbandon && x.2.tiles.any fun t => r.waits.contains t || r.reads.any fun e => e.1 == t
        if busy then (g, .error (.wait (.array (.tile ((r.reads.head?.map (·.1)).getD 0)))))
        else if r.reads.any fun e => isAbandoned (w.elem e.1 e.2.1 e.2.2) then (g, .error (.trap (.of .verdict)))
        else if r.demand ≠ 0 && !g.hasGrant w j r.demand then (g.askGrant w.id j r.demand, .error (.wait (.array (.grant r.demand))))
        else if (if r.pair then !(g.core (followerOf core)).arrq.isEmpty else g.held core) then (g, .error (.wait (.array .follower)))
        else (g, .ok ls)

/-- The operation itself issued for the lanes of a team. -/
def Gpu.arrIssue (g : Gpu) (w : Wg) (j core : Nat) (act : List TRef) (r : ArrReq) (ls : List (Nat × Leaf)) : Gpu :=
  let el := act.headD ⟨0, 0⟩
  let id := g.nextId
  let g := (g.newOp el act (if r.counts then some .arr else none) (.arr r.kind) ls).enqueue core r.pair id
  let g := match r.latch with
    | some l => g.modWg w.id fun w => w.modTeam j fun t => { t with latch := l }
    | none => g
  g.mapThreads fun t th =>
    if act.contains t && r.counts then
      let th := th.addOutst .arr id
      if r.regs.isEmpty then th
      else th.addPend { id := id, regs := r.regs, vals := none, flags := 0, token := false, xch := false, pc := g.cur.pc, word := g.cur.word }
    else th

/-- A team's members, its elected thread first: it is the one that reads the team's memory operands (R232). -/
def electFirst (act ms : List TRef) : List TRef := act.take 1 ++ ms.filter fun t => !(act.take 1).contains t

/-- A team's array instruction: `build` reads its operands and makes items 4 to 7 of R235; then items 8 to 10, the stalls, and
the issue. -/
def Gpu.arrayWord (g : Gpu) (p : Pfx) (used : List Reg) (reads : Reads)
    (build : Gpu → Wg → Nat → List (TRef × Thread) → Except Trap ArrReq) : Gpu :=
  g.teamWord p used reads fun g wg j ms act =>
    let on := act.filterMap fun t => (g.thread? t).map fun th => (t, th)
    match g.wg? wg with
    | none => (g, fun _ => .done)
    | some w =>
      match build g w j on with
      | .error k => (g, fun _ => .trap k)
      | .ok r =>
        let core := w.core?.getD 0
        match g.arrStop w j core w.ctx (electFirst act ms) r with
        | (g, .error f) => (g, fun _ => f)
        | (g, .ok ls) =>
          let hot := if r.counts then hotLanes .arr on else []
          if !hot.isEmpty then (g, fullFate hot .arr)
          else (g.arrIssue w j core act r ls, fun _ => .done)

/-- The model's number of a tile that an instruction names, checked against C (R238). -/
def Wg.tileNo (w : Wg) (t : Nat) : Except Trap Nat :=
  match w.tmap[t]? with
  | some n => .ok n
  | none => .error (.of .accRange)

/-- The format word voted over the lanes and checked (R236). -/
def voteFormat (on : List (TRef × Thread)) (f : Reg) : Except Trap Fmw :=
  match (on.map fun x => x.2.reg f).dedup with
  | [w] => match fmwOf w with
    | some x => .ok x
    | none => .error (.of .arrayFormat)
  | _ => .error (.of .fmtDivergence)

/-- The elected thread of the lanes (R232). -/
def electedOf (on : List (TRef × Thread)) : Thread := (on.head?.map (·.2)).getD (.start 0 0)

/-- `n` registers from `a` of each of 32 lanes; none where the lane is not among them (R243). -/
def laneRows (on : List (TRef × Thread)) (a : Reg) (n : Nat) : List (List Word) :=
  (List.range 32).map fun l => match on.find? fun x => x.1.lane == l with
    | some x => x.2.regsFrom a n
    | none => []

/-- A request without operands in scratchpad or memory. -/
def ArrReq.plain (k : ArrOp) (counts : Bool) : ArrReq :=
  { demand := 0, pair := false, reads := [], offs := [], mem := none, kind := k, regs := [], latch := none, counts := counts }

/-- `azero` (R240). -/
def execAzero (p : Pfx) (t : TileNo) (s : State) : Out :=
  s.device fun g => g.arrayWord p [] (laneReads [] []) fun _ w _ _ => do
    let n ← w.tileNo t.toNat
    pure (.plain (.zero n) false)

/-- Bytes of a tile in memory. -/
def tileBytes (ty : Ty) : Nat := 256 * widthOf ty / 8

/-- `ald` (R241). -/
def execAld (p : Pfx) (ty : Ty) (sc : Scope) (t : TileNo) (a : Reg) (s : State) : Out :=
  s.device fun g => g.arrayWord p (a.run 2) (laneReads [] (a.run 2)) fun _ w _ on => do
    let n ← w.tileNo t.toNat
    let addr := (electedOf on).pair a
    pure { ArrReq.plain (.ld ty n addr sc) true with mem := some (addr, tileBytes ty, .read) }

/-- `ast` (R241): a type other than f32 narrows every element (R237). -/
def execAst (p : Pfx) (ty : Ty) (rm : RM) (sat : Bool) (sc : Scope) (t : TileNo) (a : Reg) (s : State) : Out :=
  s.device fun g => g.arrayWord p (a.run 2) (laneReads [] (a.run 2)) fun _ w _ on => do
    let n ← w.tileNo t.toNat
    let addr := (electedOf on).pair a
    pure { ArrReq.plain (.st ty rm sat n addr sc) true with
      mem := some (addr, tileBytes ty, .write),
      reads := if ty == .f32 then [] else cells.map fun c => (n, c.1, c.2) }

/-! ### Products (R242 to R246) -/

/-- Element n of a lane's half-row (R243); +0 past the words. -/
def laneCode (w n : Nat) (ws : List Word) : Nat := natOfBytes (bytesOfWords ws) / 2 ^ (n * w) % 2 ^ w

/-- The dense codes of a lane's half-row of k/2 elements (R243). -/
def denseHalf (w k : Nat) (ws : List Word) : List Nat := (List.range (k / 2)).map fun n => laneCode w n ws

/-- The two positions of group q of a sparse lane (R245). -/
def sparsePos (ws : List Word) (q : Nat) : Nat × Nat :=
  let ix := natOfBytes (bytesOfWords ((ws.drop 4).take 2))
  (ix / 2 ^ (4 * q) % 4, ix / 2 ^ (4 * q + 2) % 4)

/-- The dense codes of a sparse lane: two kept elements of each group of four, the others +0 (R245, R80). -/
def sparseHalf (w k : Nat) (ws : List Word) : List Nat :=
  if ws.isEmpty then List.replicate (k / 2) 0
  else (List.range (k / 2)).map fun n =>
    let q := n / 4
    let p := sparsePos ws q
    let kept := ws.take 4
    if n % 4 = p.1 then laneCode w (2 * q) kept else if n % 4 = p.2 then laneCode w (2 * q + 1) kept else 0

/-- A sparse lane has a group whose two positions are equal (R245). DESIGN CHOICE (log 103): a latched lane that was absent when the
latch filled holds zeros as data (R246) and has no groups to check. -/
def badGroups (k : Nat) (ws : List Word) : Bool :=
  !ws.isEmpty && (List.range (k / 8)).any fun q => let p := sparsePos ws q; p.1 == p.2

/-- The A rows that a form uses from its captured registers: rows 0 to 15, or 16 to 31 from the upper eight. -/
def rowCodes (f : Fmw) (sparse upper : Bool) (rows : List (List Word)) (i : Nat) : List Nat :=
  let half := fun (l : Nat) =>
    let ws := rows.getD l []
    let ws := if upper then ws.drop 8 else ws.take 8
    if sparse then sparseHalf (widthOf f.aty) f.depth ws else denseHalf (widthOf f.aty) f.depth ws
  half i ++ half (i + 16)

/-- The A that an `amma` or `amms` uses, and what its team's latch then holds (R246). DESIGN CHOICE (log 113): the latch keeps all the
registers from FA, those that an `amms` ignores among them, and a later `amma` takes them as elements. -/
def latchUse (tall reuse : Bool) (l : Option Latch) (regs : List (List Word)) : List (List Word) × Option Latch :=
  if reuse then
    match l with
    | some x => if x.tall = tall then (x.rows, some x) else (regs, some ⟨tall, regs⟩)
    | none => (regs, some ⟨tall, regs⟩)
  else (regs, none)

/-- The A registers that an `amma` or `amms` reads: a sparse one ignores the last two of each eight (R245). -/
def mmaRegs (sparse tall : Bool) (a : Reg) : List Reg :=
  if sparse then a.run 6 ++ (if tall then (a + 8).run 6 else []) else a.run (if tall then 16 else 8)

/-- The registers of an `amma` or `amms`: those of A only where the latch does not give it (R246), the offset in the elected thread. -/
def mmaReads (sparse tall reuse : Bool) (a : Reg) (b : SrcB) (f : Reg) : Reads := fun g wg j act t =>
  let full := reuse && (((g.wg? wg).bind fun w => w.team? j).bind Team.latch).any fun x => x.tall == tall
  laneReads ((if full then [] else mmaRegs sparse tall a) ++ [f]) (b.span false) g wg j act t

/-- The request of an `amma` or `amms` (R242 to R246). -/
def mmaReq (w : Wg) (j : Nat) (on : List (TRef × Thread)) (sparse pair tall reuse clr : Bool) (t : Nat) (a : Reg) (off : Nat)
    (fmt : Except Trap Fmw) : Except Trap ArrReq := do
  if pair && !isLeader (w.core?.getD 0) then throw (.of .pairRole)
  let n ← w.tileNo t
  let n2 ← if pair then w.tileNo (t + 1) else pure n
  let f ← fmt
  let (rows, latch) := latchUse tall reuse ((w.team? j).bind Team.latch) (laneRows on a (if tall then 16 else 8))
  if sparse && rows.any (fun ws => badGroups f.depth (ws.take 8) || (tall && badGroups f.depth (ws.drop 8))) then throw (.of .arrayFormat)
  let ts := if pair then [n, n2] else [n]
  pure { demand := f.demand pair, pair := pair,
         reads := if clr then [] else ts.flatMap fun t => cells.map fun c => (t, c.1, c.2),
         offs := [(off, 64, if pair && !tall then 2048 else 1024)], mem := none,
         kind := .mma pair tall clr sparse n n2 rows off f.word, regs := [], latch := some latch, counts := true }

/-- `amma` (R242). -/
def execAmma (p : Pfx) (pair tall reuse clr : Bool) (t : TileNo) (a : Reg) (b : SrcB) (f : Reg) (s : State) : Out :=
  s.device fun g => g.arrayWord p (a.run (if tall then 16 else 8) ++ b.span false ++ [f]) (mmaReads false tall reuse a b f) fun _ w j on =>
    mmaReq w j on false pair tall reuse clr t.toNat a ((electedOf on).srcW b).toNat (voteFormat on f)

/-- `amms` (R245). -/
def execAmms (p : Pfx) (pair tall reuse clr : Bool) (t : TileNo) (a : Reg) (b : SrcB) (f : Reg) (s : State) : Out :=
  s.device fun g => g.arrayWord p (a.run (if tall then 16 else 8) ++ b.span false ++ [f]) (mmaReads true tall reuse a b f) fun _ w j on =>
    mmaReq w j on true pair tall reuse clr t.toNat a ((electedOf on).srcW b).toNat (voteFormat on f)

/-- Lists cut into runs of n. -/
def chunks {α : Type} (n : Nat) : Nat → List α → List (List α)
  | 0, _ => []
  | _ + 1, [] => []
  | fuel + 1, xs => xs.take n :: chunks n fuel (xs.drop n)

/-- The step chain of R79 over terms, in runs of kb. -/
def stepChain (mt : Metric) (s : Int) (ftz : Bool) (kb : Nat) (acc : Word) (ts : List (FV × FV)) : Word × BitVec 5 :=
  (chunks kb ts.length ts).foldl (fun r c => let q := step79 mt s ftz r.1 c; (q.1, r.2 ||| q.2)) (acc, 0)

/-- The codes of column j of B (R243). -/
def colCodes (f : Fmw) (w : Wg) (off : Nat) (j : Nat) : List Nat :=
  let v := natOfBytes (w.scratchBytes (off + 64 * j) 64)
  (List.range f.depth).map fun n => v / 2 ^ (n * widthOf f.bty) % 2 ^ widthOf f.bty

/-- The terms of element (i, j) of a product. -/
def mmaTerms (f : Fmw) (row col : List Nat) : List (FV × FV) := (row.map (elemOf f.aty)).zip (col.map (elemOf f.bty))

/-- A tile's result: for each element its accumulator before, its terms, its value after and its flags. -/
structure CellRes where
  acc   : Word
  terms : List (FV × FV)
  res   : Word
  flags : BitVec 5
  deriving DecidableEq, Repr

/-- One tile of a product (R244). -/
def mmaTile (f : Fmw) (ftz clr sparse upper : Bool) (w : Wg) (t : Nat) (rows : List (List Word)) (off : Nat) : List CellRes :=
  let rs := (List.range 16).map (rowCodes f sparse upper rows)
  let cs := (List.range 16).map (colCodes f w off)
  cells.map fun c =>
    let acc := if clr then 0 else w.elem t c.1 c.2
    let ts := mmaTerms f (rs.getD c.1 []) (cs.getD c.2 [])
    let r := stepChain f.mt (f.sa + f.sb) ftz f.kb acc ts
    ⟨acc, ts, r.1, r.2⟩

/-! ### Drains (R247, R248) -/

/-- `adrain` (R247). -/
def execAdrain (p : Pfx) (max hi w : Bool) (ncol : BitVec 5) (d : Reg) (t : TileNo) (s : State) : Out :=
  s.device fun g => g.arrayWord p (d.run 2) (laneReads (d.run 2) []) fun _ wg _ _ => do
    let n ← wg.tileNo t.toNat
    let n2 ← if w then wg.tileNo (t.toNat + 1) else pure n
    pure { ArrReq.plain (.drain max hi w (ncol.toNat + 1) n n2 d) true with regs := d.run 2 }

/-- `atopk` (R247). -/
def execAtopk (p : Pfx) (max hi w : Bool) (ncol : BitVec 5) (kk : BitVec 3) (d : Reg) (t : TileNo) (s : State) : Out :=
  s.device fun g => g.arrayWord p (d.run 8) (laneReads (d.run 8) []) fun _ wg _ _ => do
    let n ← wg.tileNo t.toNat
    let n2 ← if w then wg.tileNo (t.toNat + 1) else pure n
    pure { ArrReq.plain (.topk max hi w (ncol.toNat + 1) (kk.toNat + 1) n n2 d) true with regs := d.run 8 }

/-- Candidate x ranks before y (R248). -/
def rankBefore (max hi : Bool) (x y : Word × Nat) : Bool :=
  let a := fv x.1
  let b := fv y.1
  if a.eqv b then (if hi then y.2 < x.2 else x.2 < y.2) else if max then b.lt a else a.lt b

/-- A candidate put in its place. -/
def insertRank (max hi : Bool) (x : Word × Nat) : List (Word × Nat) → List (Word × Nat)
  | [] => [x]
  | y :: ys => if rankBefore max hi x y then x :: y :: ys else y :: insertRank max hi x ys

/-- The candidates of row i in rank order (R248). -/
def rankedRow (w : Wg) (max hi : Bool) (n t t2 i : Nat) : List (Word × Nat) :=
  let el := fun (c : Nat) => if c < 16 then w.elem t i c else w.elem t2 i (c - 16)
  let cs := (List.range n).filterMap fun c => if (fv (el c)).isNan then none else some (el c, c)
  cs.foldr (insertRank max hi) []

/-- A place of a ranked row, or the sentinel. -/
def placeWords (max : Bool) (l : List (Word × Nat)) (k : Nat) : List Word :=
  match l[k]? with
  | some x => [x.1, BitVec.ofNat 32 x.2]
  | none => [if max then 0xFF800000 else 0x7F800000, 0xFFFF]

/-! ### Centroids (R249, R250) -/

/-- `cupd` (R249): a run of A registers that would pass g255 lies above every REGS (R138). -/
def execCupd (p : Pfx) (t : TileNo) (a b f : Reg) (s : State) : Out :=
  s.device fun g =>
    if 256 < a.toNat + 8 then g.trapAll p.sw .regRange
    else g.arrayWord p (a.run 8 ++ [b, f]) (laneReads (a.run 8 ++ [b, f]) []) fun _ w _ on => do
      let n ← w.tileNo t.toNat
      let n2 ← w.tileNo (t.toNat + 1)
      let fw ← voteFormat on f
      let idx := (List.range 32).map fun l => (on.find? fun x => x.1.lane == l).map fun x => (x.2.reg b).setWidth 16
      let cs := ((idx.take 16).filterMap fun c => c.bind fun v => if v.toNat ≤ 15 then some v.toNat else none).dedup
      pure { ArrReq.plain (.cupd n n2 (laneRows on a 8) idx fw.word) true with
        demand := 1, reads := cs.flatMap fun c => (n2, c, 0) :: (List.range 16).map fun j => (n, c, j) }

/-- A value scaled by a power of two, exactly. -/
def FV.scale (v : FV) (s : Int) : FV :=
  match v with
  | .fin n q => .fin n (q * pow2 s)
  | v => v

/-- One point of a centroid update (R249). -/
def cupdPoint (ftz : Bool) (f : Fmw) (rows : List (List Word)) (t t2 i c : Nat) (x : Wg × BitVec 5) : Wg × BitVec 5 :=
  let codes := rowCodes f false false rows i
  let dim := fun (x : Wg × BitVec 5) (j : Nat) =>
    let r := arith32 .rn ftz (addX .rn (fv (x.1.elem t c j)) ((elemOf f.aty (codes.getD j 0)).scale f.sa))
    (x.1.setElem t c j r.1, x.2 ||| r.2)
  let x := (List.range 16).foldl dim x
  let r := arith32 .rn false (addX .rn (fv (x.1.elem t2 c 0)) (.fin false 1))
  (x.1.setElem t2 c 0 r.1, x.2 ||| r.2)

/-- The whole update, in the defined order (R249). -/
def cupdAll (ftz : Bool) (f : Fmw) (rows : List (List Word)) (idx : List (Option (BitVec 16))) (t t2 : Nat) (w : Wg) : Wg × BitVec 5 :=
  (List.range 16).foldl (fun x i => match idx.getD i none with
    | some c => if c.toNat ≤ 15 then cupdPoint ftz f rows t t2 i c.toNat x else x
    | none => x) (w, 0)

/-- Whether an outstanding product may change the elements of a tile, and so raise a count from zero. -/
def Gpu.mayCount (g : Gpu) (core wg n : Nat) : Bool :=
  (g.arrOps core).any fun x => x.1.owner.wg == wg && match x.2 with
    | .mma _ _ _ _ _ _ _ _ _ => x.2.tiles.contains n
    | _ => false

/-- `cfin` (R250): it waits for whatever may abandon an element of either tile (R237). It checks the sums that it may divide: those
whose count is not zero, and all of them while an outstanding product may raise a count (log 114); a count that an outstanding `cupd`
raises belongs to sums that the `cupd` has checked. -/
def execCfin (p : Pfx) (ty : Ty) (ncent : BitVec 5) (t : TileNo) (a : Reg) (s : State) : Out :=
  s.device fun g => g.arrayWord p [a] (laneReads [] [a]) fun g w _ on => do
    let n ← w.tileNo t.toNat
    let n2 ← w.tileNo (t.toNat + 1)
    let k := ncent.toNat + 1
    let off := ((electedOf on).reg a).toNat
    let live := (List.range k).filter fun c => g.mayCount (w.core?.getD 0) w.id n2 || !(fv (w.elem n2 c 0)).isZero
    pure { ArrReq.plain (.cfin ty k n n2 off) true with
      demand := 1, offs := [(off, 64, 64 * k)], waits := [n, n2],
      reads := (List.range k).map (fun c => (n2, c, 0)) ++ live.flatMap fun c => (List.range 16).map fun j => (n, c, j) }

/-- One centroid's column: the codes of its 16 elements and their flags (R250). -/
def cfinColumn (ftz : Bool) (ty : Ty) (w : Wg) (t t2 c : Nat) : List Nat × BitVec 5 :=
  let q := (List.range 16).map fun j => arith ty .rn ftz (divX (fv (w.elem t c j)) (fv (w.elem t2 c 0)))
  (q.map (·.1), q.foldl (fun f r => f ||| r.2) 0)

/-- Sums and counts become +0 (R250). -/
def cfinClear (t t2 : Nat) (w : Wg) : Wg :=
  let w := w.setTile t (List.replicate 256 0)
  (List.range 16).foldl (fun w c => w.setElem t2 c 0 0) w

/-! ### Telemetry (R440, R441) and the shadow check (R89 to R91) -/

/-- A counter of a telemetry ring's control block. -/
def Gpu.ringWord (g : Gpu) (c : Ctx) (o : Nat) : Option Nat := (g.hubRead c (c.tring.toNat + o) 4).map natOfBytes

/-- A dropped entry: DROPS is stored, or counted until it can be (R441). -/
def Gpu.dropEntry (g : Gpu) (c : Ctx) : Gpu :=
  let n := c.drops + 1
  match g.ringWord c 8 with
  | none => g.modCtx c.slot fun x => { x with drops := n }
  | some d =>
    match g.hubWrite c (c.tring.toNat + 8) (bytesOfNat 4 (min (d + n) 0xFFFFFFFF)) with
    | some g => g.modCtx c.slot fun x => { x with drops := 0 }
    | none => g.modCtx c.slot fun x => { x with drops := n }

/-- An entry written to a context's telemetry ring (R441). -/
def Gpu.telemetry (g : Gpu) (slot : Nat) (bs : List Byte) : Gpu :=
  match g.ctx? slot with
  | none => g
  | some c =>
    match g.ringWord c 0, g.ringWord c 4 with
    | some wi, some ri =>
      if (wi + 2 ^ 32 - ri) % 2 ^ 32 < c.tringn then
        let base := c.tring.toNat
        match (g.hubWrite c (base + 32 + 32 * (wi % c.tringn)) bs).bind fun g => g.hubWrite c base (bytesOfNat 4 ((wi + 1) % 2 ^ 32)) with
        | some g =>
          if c.drops = 0 then g
          else match g.ringWord c 8 with
            | some d => ((g.hubWrite c (base + 8) (bytesOfNat 4 (min (d + c.drops) 0xFFFFFFFF))).map fun g =>
                g.modCtx slot fun x => { x with drops := 0 }).getD g
            | none => g
        | none => (g.logWalk c 0xFFFF (base + 32 + 32 * (wi % c.tringn)) 32).modCtx slot fun x => { x with drops := c.drops + 1 }
      else g.dropEntry c
    | _, _ => (g.logWalk c 0xFFFF c.tring.toNat 8).modCtx slot fun x => { x with drops := c.drops + 1 }

/-- The deviation of an element (R90); none when it is skipped. -/
def deviation (res shadow : Word) : Option Word :=
  let a := fv res
  let b := fv shadow
  if isAbandoned res || (a.isNan && b.isNan) then none
  else match a, b with
    | .fin _ _, .fin _ _ => some (roundW .ru |a.rat - b.rat|)
    | .inf s, .inf t => some (if s = t then 0 else 0x7F800000)
    | _, _ => some 0x7F800000

/-- The tile's deviation and the element reported, of the elements `cs` by index that the operation computed: the largest, of lowest
index (R90). A tile whose elements are all skipped reports 0 of element 0 (log 102). -/
def tileDeviation (mt : Metric) (s : Int) (cs : List (Nat × CellRes)) : Word × Nat :=
  (cs.foldl (fun (best : Option (Word × Nat)) x =>
    match deviation x.2.res (step79 mt s false x.2.acc x.2.terms).1, best with
    | some d, some b => if (fv b.1).lt (fv d) then some (d, x.1) else some b
    | some d, none => some (d, x.1)
    | none, b => b) none).getD (0, 0)

/-- The entry of Table 3.10. -/
def shadowEntry (time tile elem core flags : Nat) (dev fmt : Word) (w : Wg) (tid : Nat) : List Byte :=
  bytesOfNat 8 time ++ bytesOfNat 2 1 ++ bytesOfNat 1 tile ++ bytesOfNat 1 elem ++ bytesOfNat 2 core ++ bytesOfNat 2 flags ++
  bytesOfNat 4 dev.toNat ++ bytesOfNat 4 fmt.toNat ++ bytesOfNat 4 w.index ++ bytesOfNat 2 tid ++ bytesOfNat 2 w.nodeNo

/-- The context's counter on a core advanced for `n` tiles that an operation without products writes (R89): R90 recomputes sums of
products, and none of these tiles is one (log 102). -/
def Gpu.countTiles (g : Gpu) (o : Op) (w : Wg) (n : Nat) : Gpu :=
  if (g.ctx? w.ctx).any fun c => c.shadow != 0 then
    g.modCore o.core fun k => { k with shadow := Store.set 0 k.shadow w.ctx ((Store.get 0 k.shadow w.ctx + n) % 4096) }
  else g

/-- A context's counters on every core at zero, before it first becomes resident there (R89). -/
def Gpu.clearShadow (g : Gpu) (slot : Nat) : Gpu := g.mapCores fun _ k => { k with shadow := Store.set 0 k.shadow slot 0 }

/-- The context's counter on a core advanced for a tile that an operation writes, and the tile checked at every N-th (R89); the entry
names the pair's leader core (R91). -/
def Gpu.shadowTile (g : Gpu) (o : Op) (w : Wg) (f : Fmw) (flags t : Nat) (cs : List (Nat × CellRes)) : Gpu :=
  match g.ctx? w.ctx with
  | none => g
  | some c =>
    if c.shadow = 0 then g
    else
      let n := Store.get 0 (g.core o.core).shadow c.slot
      let g := g.modCore o.core fun k => { k with shadow := Store.set 0 k.shadow c.slot ((n + 1) % 4096) }
      if n % 2 ^ c.shadow = 2 ^ c.shadow - 1 then
        let d := tileDeviation f.mt (f.sa + f.sb) cs
        g.telemetry c.slot (shadowEntry g.ptp (t % 64) d.2 (2 * pairOf o.core) flags d.1 f.word w o.owner.tid)
      else g

end Sys2Proof.Machine
end

