-- ==== Sys2Proof/Machine/Interval.lean ====
section
/-! DEFINITION. Intervals (03 R81 to R83; 06 R185, R186) with exact bounds, and their reading from and writing to pairs. -/

namespace Sys2Proof.Machine

open Sys2Proof

/-- An exact bound. -/
inductive EB
  | ninf
  | fin (q : Rat)
  | pinf
  deriving DecidableEq, Repr

/-- An interval: none is empty (R81). -/
abbrev Iv := Option (EB × EB)

/-- The whole line. -/
def Iv.whole : Iv := some (.ninf, .pinf)

/-- Order of bounds. -/
def EB.le : EB → EB → Bool
  | .ninf, _ => true
  | _, .pinf => true
  | .fin a, .fin b => decide (a ≤ b)
  | _, _ => false

/-- Strict order of bounds. -/
def EB.lt (a b : EB) : Bool := !b.le a

/-- The lesser bound. -/
def EB.min (a b : EB) : EB := if a.le b then a else b
/-- The greater bound. -/
def EB.max (a b : EB) : EB := if a.le b then b else a

/-- A sum of two lower or two upper bounds. -/
def EB.add : EB → EB → EB
  | .fin a, .fin b => .fin (a + b)
  | .ninf, _ => .ninf
  | _, .ninf => .ninf
  | _, _ => .pinf

/-- The negated bound. -/
def EB.neg : EB → EB
  | .ninf => .pinf
  | .pinf => .ninf
  | .fin a => .fin (-a)

/-- The sign of a bound: −1, 0 or 1. -/
def EB.sgn : EB → Int
  | .ninf => -1
  | .pinf => 1
  | .fin a => if a < 0 then -1 else if a = 0 then 0 else 1

/-- A product of bounds, 0 × ±∞ counted as 0 (R82). -/
def EB.mul (a b : EB) : EB :=
  match a, b with
  | .fin x, .fin y => .fin (x * y)
  | _, _ => let s := a.sgn * b.sgn; if s = 0 then .fin 0 else if s < 0 then .ninf else .pinf

/-- The bound an F32 value names; a NaN has none. -/
def EB.ofFV : FV → Option EB
  | .nan _ => none
  | .inf n => some (if n then .ninf else .pinf)
  | .fin n q => some (.fin (if n then -q else q))

/-- A pair read as an interval (R81). -/
def ivRead (lo hi : Word) : Iv :=
  match EB.ofFV (fv lo), EB.ofFV (fv hi) with
  | some l, some h => if h.lt l || l == .pinf || h == .ninf then none else some (l, h)
  | _, _ => .whole

/-- A bound rounded into F32 outward (R82): a zero is +0. -/
def EB.word (rm : RM) : EB → Word
  | .ninf => 0xFF800000
  | .pinf => 0x7F800000
  | .fin q => let w := roundW rm q; if w == 0x80000000 then 0 else w

/-- An interval written as a pair of words (R81, R82). -/
def ivWrite : Iv → Word × Word
  | none => (0x7F800000, 0xFF800000)
  | some (l, h) => (l.word .rd, h.word .ru)

/-- A function of one interval, empty for empty. -/
def iv1 (f : EB × EB → Iv) (x : Iv) : Iv := x.bind f

/-- A function of two intervals, empty for empty. -/
def iv2 (f : EB × EB → EB × EB → Iv) (x y : Iv) : Iv := x.bind fun a => y.bind fun b => f a b

/-- x + y. -/
def ivAdd : Iv → Iv → Iv := iv2 fun a b => some (a.1.add b.1, a.2.add b.2)
/-- −x. -/
def ivNeg : Iv → Iv := iv1 fun a => some (a.2.neg, a.1.neg)
/-- x − y. -/
def ivSub (x y : Iv) : Iv := ivAdd x (ivNeg y)
/-- x·y. -/
def ivMul : Iv → Iv → Iv := iv2 fun a b =>
  let p := a.1.mul b.1
  let q := a.1.mul b.2
  let r := a.2.mul b.1
  let s := a.2.mul b.2
  some ((p.min q).min (r.min s), (p.max q).max (r.max s))
/-- |x|. -/
def ivAbs : Iv → Iv := iv1 fun a =>
  if 0 ≤ a.1.sgn then some a
  else if a.2.sgn ≤ 0 then some (a.2.neg, a.1.neg)
  else some (.fin 0, a.1.neg.max a.2)
/-- x². -/
def ivSqr (x : Iv) : Iv := iv1 (fun a => some (a.1.mul a.1, a.2.mul a.2)) (ivAbs x)
/-- The square root of a bound at or above 0. -/
def EB.sqrt : EB → EB
  | .fin q => .fin (if q ≤ 0 then 0 else sqrtRep q)
  | b => b
/-- √x over the part at or above 0. -/
def ivSqrt : Iv → Iv := iv1 fun a => if a.2.sgn < 0 then none else some ((a.1.max (.fin 0)).sqrt, a.2.sqrt)
/-- min(x, y). -/
def ivMin : Iv → Iv → Iv := iv2 fun a b => some (a.1.min b.1, a.2.min b.2)
/-- max(x, y). -/
def ivMax : Iv → Iv → Iv := iv2 fun a b => some (a.1.max b.1, a.2.max b.2)
/-- The hull; empty operands are ignored (R82). -/
def ivHull (x y : Iv) : Iv :=
  match x, y with
  | none, _ => y
  | _, none => x
  | some a, some b => some (a.1.min b.1, a.2.max b.2)
/-- x ÷ y: a divisor that holds 0 gives the whole line (R277). -/
def ivDiv : Iv → Iv → Iv := iv2 fun a b =>
  if b.1.sgn ≤ 0 && 0 ≤ b.2.sgn then .whole
  else
    let inv := fun (c : EB) => match c with
      | .fin q => EB.fin (1 / q)
      | _ => .fin 0
    ivMul (some a) (some (inv b.2, inv b.1))

/-- The midpoint of a non-empty interval (R186), as a word. -/
def ivMid (l h : EB) : Word :=
  match l, h with
  | .fin a, .fin b => (EB.fin ((a + b) / 2)).word .rn
  | .ninf, .pinf => 0
  | .ninf, h => if (EB.fin (-(pow2 127))).lt h then 0xFF000000 else h.word .rn
  | l, _ => if l.lt (.fin (pow2 127)) then 0x7F000000 else l.word .rn

/-- `ivsplit` (R186): the lower and the upper half. -/
def ivSplitX (x : Iv) : (Word × Word) × (Word × Word) :=
  match x with
  | none => (ivWrite none, ivWrite none)
  | some (l, h) =>
    let m := ivMid l h
    ((l.word .rd, m), (m, h.word .ru))

end Sys2Proof.Machine
end

