-- ==== Sys2Proof/Machine/Vilad.lean ====
section
/-! DEFINITION. Vilad programs and bricks (09 R274 to R284): validity, the evaluator in its three modes, affine forms (03 R84,
R85), and the sample of a brick set. -/

namespace Sys2Proof.Machine

open Sys2Proof

/-! ### Reading structures -/

/-- Why an evaluation ends early: a replayable fault to be served, peer locations to be read, a line without a way in L2 (R406), or a
failure with its reason (Table 9.9). -/
inductive RErr
  | fault (va : Nat) (f : WalkFail)
  | peer (ps : List Phys)
  | fill (k : LineKey)
  | reason (n : Nat)
  deriving DecidableEq, Repr

/-- What reading has met so far: the first poisoned address (R269), the brick data read (R101), and the bytes whose reading failed. -/
structure RLog where
  poison : Option Nat
  seen   : List DWord
  failed : Option (DWord × Nat) := none
  deriving DecidableEq, Repr

/-- A computation that reads structures. -/
abbrev RD := ExceptT RErr (StateM RLog)

/-- A reader of structures: whether through the brick-mode region, the address, the size and the alignment. -/
abbrev Reader := Bool → DWord → Nat → Nat → Read

/-- Bytes of a structure. -/
def rdBytes (r : Reader) (brick : Bool) (a : DWord) (n al : Nat) : RD (List Byte) := do
  match r brick a n al with
  | .ok bs p =>
    modify fun l => { l with poison := l.poison.orElse fun _ => p, seen := if brick then l.seen ++ [a] else l.seen }
    pure bs
  | .fault va f => throw (.fault va f)
  | .peer ps => throw (.peer ps)
  | .fill k => throw (.fill k)
  | .fail => do
    modify fun l => { l with failed := some (a, n) }
    throw (.reason 6)

/-- A 4-byte word of bytes. -/
def wordAt (bs : List Byte) (o : Nat) : Word := BitVec.ofNat 32 (field bs o 4)

/-- An 8-byte address of bytes. -/
def dwordAt (bs : List Byte) (o : Nat) : DWord := BitVec.ofNat 64 (field bs o 8)

/-! ### Exact values with infinities, and affine forms -/

/-- The exact value of an F32 word. -/
def XV.ofW (w : Word) : XV :=
  match fv w with
  | .nan _ => .nan
  | .inf n => .inf n
  | .fin n q => .val (if n then -q else q) n

/-- A value rounded into F32 (R277): RN, no flush, a NaN canonical. -/
def XV.word (x : XV) : Word := BitVec.ofNat 32 (roundX .f32 .rn false x).1

/-- The sign. -/
def XV.neg : XV → Bool
  | .nan => false
  | .inf n => n
  | .val x z => decide (x < 0) || (decide (x = 0) && z)

/-- The negation. -/
def xneg : XV → XV
  | .nan => .nan
  | .inf n => .inf (!n)
  | .val x z => .val (-x) (!z)

/-- A sum. -/
def xadd : XV → XV → XV
  | .val x a, .val y b => .val (x + y) (decide (x = 0) && decide (y = 0) && a && b)
  | .inf a, .inf b => if a = b then .inf a else .nan
  | .inf a, .val _ _ => .inf a
  | .val _ _, .inf b => .inf b
  | _, _ => .nan

/-- A difference. -/
def xsub (a b : XV) : XV := xadd a (xneg b)

/-- A product. -/
def xmul (a b : XV) : XV :=
  let s := a.neg != b.neg
  match a, b with
  | .val x _, .val y _ => .val (x * y) s
  | .inf _, .inf _ => .inf s
  | .inf _, .val y _ => if y = 0 then .nan else .inf s
  | .val x _, .inf _ => if x = 0 then .nan else .inf s
  | _, _ => .nan

/-- A quotient by IEEE 754 (R277). -/
def xdiv (a b : XV) : XV :=
  let s := a.neg != b.neg
  match a, b with
  | .val x _, .val y _ => if y = 0 then (if x = 0 then .nan else .inf s) else .val (x / y) s
  | .inf _, .val _ _ => .inf s
  | .val _ _, .inf _ => .val 0 s
  | _, _ => .nan

/-- The absolute value. -/
def xabs (a : XV) : XV := if a.neg then xneg a else a

/-- A square root. -/
def xsqrt : XV → XV
  | .val x z => if x < 0 then .nan else if x = 0 then .val 0 z else .val (sqrtRep x) false
  | .inf n => if n then .nan else .inf false
  | .nan => .nan

/-- Order of values that are not NaN, −0 below +0. -/
def xle : XV → XV → Bool
  | .inf true, _ => true
  | _, .inf false => true
  | .val x a, .val y b => decide (x < y) || (decide (x = y) && (a || !b || decide (x ≠ 0)))
  | _, _ => false

/-- The lesser of two values; a NaN gives a NaN. -/
def xmin (a b : XV) : XV := if a = .nan ∨ b = .nan then .nan else if xle a b then a else b
/-- The greater of two values; a NaN gives a NaN. -/
def xmax (a b : XV) : XV := if a = .nan ∨ b = .nan then .nan else if xle a b then b else a

/-- The form that stands for the whole line (R84): any form with a non-finite part does. -/
def Aff.whole : Aff := ⟨0, 0, 0, 0, 0, 0x7F800000⟩

/-- The coefficients x0 to x3. -/
def Aff.xs (a : Aff) : List Word := [a.x0, a.x1, a.x2, a.x3]

/-- Whether every part is finite. -/
def Aff.finite (a : Aff) : Bool := (a.c :: a.e :: a.xs).all fun w => (fv w).isFin

/-- A form from its centre, coefficients and bound. -/
def Aff.mk' (c : Word) (xs : List Word) (e : Word) : Aff := ⟨c, xs.getD 0 0, xs.getD 1 0, xs.getD 2 0, xs.getD 3 0, e⟩

/-- A constant: centre c, zero coefficients (R277). -/
def Aff.const (c : Word) : Aff := ⟨c, 0, 0, 0, 0, 0⟩

/-- A form as an interval (R85). -/
def Aff.iv (a : Aff) : Iv :=
  if !a.finite then .whole
  else
    let r := (a.xs.map fun w => |ratW w|).sum + ratW a.e
    ivRead (roundW .rd (ratW a.c - r)) (roundW .ru (ratW a.c + r))

/-- An interval converted back to a form (R85). -/
def Aff.ofIv (x : Iv) : Aff :=
  match x.map fun b => ((b.1.word .rd), (b.2.word .ru)) with
  | none => .whole
  | some (l, h) =>
    if !(fv l).isFin || !(fv h).isFin then .whole
    else
      let c := roundW .rn ((ratW l + ratW h) / 2)
      ⟨c, 0, 0, 0, 0, roundW .ru (max (ratW h - ratW c) (ratW c - ratW l))⟩

/-- The linear rule of R85: a weighted sum of forms plus a constant. -/
def Aff.linear (ts : List (Word × Aff)) (k : Word) : Aff :=
  if ts.any (fun t => !(fv t.1).isFin || !t.2.finite) || !(fv k).isFin then .whole
  else
    let ex := fun (f : Aff → Word) => (ts.map fun t => ratW t.1 * ratW (f t.2)).sum
    let exact := [ex Aff.c + ratW k, ex Aff.x0, ex Aff.x1, ex Aff.x2, ex Aff.x3]
    let rs := exact.map (roundW .rn)
    if rs.any fun w => !(fv w).isFin then .whole
    else
      let err := ((exact.zip rs).map fun p => |p.1 - ratW p.2|).sum
      let e := roundW .ru ((ts.map fun t => |ratW t.1| * ratW t.2.e).sum + err)
      Aff.mk' (rs.getD 0 0) (rs.drop 1) e

/-- The multiplication rule of R85. -/
def Aff.mul (a b : Aff) : Aff :=
  if !a.finite || !b.finite then .whole
  else
    let c1 := ratW a.c
    let c2 := ratW b.c
    let exact := (c1 * c2) :: (a.xs.zip b.xs).map fun p => c1 * ratW p.2 + c2 * ratW p.1
    let rs := exact.map (roundW .rn)
    if rs.any fun w => !(fv w).isFin then .whole
    else
      let sa := (a.xs.map fun w => |ratW w|).sum + ratW a.e
      let sb := (b.xs.map fun w => |ratW w|).sum + ratW b.e
      let err := ((exact.zip rs).map fun p => |p.1 - ratW p.2|).sum
      let e := roundW .ru (|c1| * ratW b.e + |c2| * ratW a.e + sa * sb + err)
      Aff.mk' (rs.getD 0 0) (rs.drop 1) e

/-! ### Values by mode -/

/-- A value as an interval (R289, R287). -/
def VVal.toIv : VVal → Iv
  | .pt v => ivRead v v
  | .iv l h => ivRead l h
  | .aff a => a.iv

/-- An interval as a value of the evaluator. -/
def VVal.ofIv (x : Iv) : VVal := let p := ivWrite x; .iv p.1 p.2

/-- An interval as a value of a mode. -/
def VVal.ofIvIn (m : VMode) (x : Iv) : VVal :=
  match m with
  | .aff => .aff (.ofIv x)
  | _ => .ofIv x

/-- A value as an exact value (point mode). -/
def VVal.toX : VVal → XV
  | .pt v => .ofW v
  | _ => .nan

/-- A value as a form. -/
def VVal.toAff : VVal → Aff
  | .aff a => a
  | v => .ofIv v.toIv

/-- A point value whose NaN is the canonical one (R277). -/
def VVal.canon : VVal → VVal
  | .pt w => .pt (if (fv w).isNan then 0x7FC00000 else w)
  | v => v

/-- A constant as a value (R277). -/
def VVal.const (m : VMode) (c : Word) : VVal :=
  match m with
  | .pt => VVal.canon (.pt c)
  | .iv => .ofIv (ivRead c c)
  | .aff => .aff (.const c)

/-! ### The operations of Table 9.5 -/

/-- The operations that compute (Table 9.5). -/
inductive VOp
  | add | sub | mul | div | neg | abs | min | max | sqr | sqrt | clamp | smin | smax | len2 | len3 | onion
  | sphere | box | plane | cyl
  deriving DecidableEq, Repr

/-- ρ of `smin` and `smax` when it is positive and finite (R276). -/
def rhoOf (w : Word) : Option Rat :=
  match fv w with
  | .fin n q => if !n && q != 0 then some q else none
  | _ => none

/-- ρ·q²/4 with q = max(ρ − |a − b|, 0) ÷ ρ. -/
def blend (rho a b : Rat) : Rat := let q := max (rho - |a - b|) 0 / rho; rho * (q * q) / 4

/-- `smin` (false) and `smax` (true) of exact values. -/
def smoothX (mx : Bool) (rho : Option Rat) (a b : XV) : XV :=
  let m := if mx then xmax a b else xmin a b
  match rho, a, b with
  | some r, .val x _, .val y _ => let t := blend r x y; if t = 0 then m else xadd m (.val (if mx then t else -t) false)
  | some _, .inf s, .inf t => if s = t then .nan else m
  | _, _, _ => m

/-- `smin` and `smax` of bounds: both are monotone in each operand. -/
def smoothE (mx : Bool) (rho : Option Rat) (a b : EB) : EB :=
  let m := if mx then a.max b else a.min b
  match rho, m, a, b with
  | some r, .fin z, .fin x, .fin y => .fin (if mx then z + blend r x y else z - blend r x y)
  | _, _, _, _ => m

/-- √(Σ v²) of exact values. -/
def lenX (vs : List XV) : XV := xsqrt (vs.foldl (fun s v => xadd s (xmul v v)) (.val 0 false))

/-- √(Σ v²) of intervals. -/
def lenI (vs : List Iv) : Iv := ivSqrt (vs.foldl (fun s v => ivAdd s (ivSqr v)) (some (.fin 0, .fin 0)))

/-- The box's value at one bound of each q (Table 9.5); it rises with each q. -/
def boxE (a b c : EB) : EB :=
  let z := EB.fin 0
  let sq := fun (x : EB) => let y := x.max z; y.mul y
  (((sq a).add (sq b)).add (sq c)).sqrt.add (((a.max b).max c).min z)

/-- An operation in point mode (R277): constants, then operands, deepest first. -/
def VOp.point (op : VOp) (cs : List Word) (xs : List XV) : XV :=
  let c := fun (i : Nat) => XV.ofW (cs.getD i 0)
  let z := XV.val 0 false
  match op, xs with
  | .add, [a, b] => xadd a b
  | .sub, [a, b] => xsub a b
  | .mul, [a, b] => xmul a b
  | .div, [a, b] => xdiv a b
  | .neg, [a] => xneg a
  | .abs, [a] => xabs a
  | .min, [a, b] => xmin a b
  | .max, [a, b] => xmax a b
  | .sqr, [a] => xmul a a
  | .sqrt, [a] => xsqrt a
  | .clamp, [a, l, h] => xmin (xmax a l) h
  | .smin, [a, b] => smoothX false (rhoOf (cs.getD 0 0)) a b
  | .smax, [a, b] => smoothX true (rhoOf (cs.getD 0 0)) a b
  | .len2, [a, b] => lenX [a, b]
  | .len3, [a, b, e] => lenX [a, b, e]
  | .onion, [a] => xsub (xabs a) (c 0)
  | .sphere, [x, y, w] => xsub (lenX [xsub x (c 0), xsub y (c 1), xsub w (c 2)]) (c 3)
  | .box, [x, y, w] =>
    let q := fun (p : XV) (i : Nat) => xsub (xabs (xsub p (c i))) (c (i + 3))
    let qs := [q x 0, q y 1, q w 2]
    xadd (lenX (qs.map fun v => xmax v z)) (xmin (xmax (xmax (q x 0) (q y 1)) (q w 2)) z)
  | .plane, [x, y, w] => xadd (xadd (xadd (xmul (c 0) x) (xmul (c 1) y)) (xmul (c 2) w)) (c 3)
  | .cyl, [x, y, _] => xsub (lenX [xsub x (c 0), xsub y (c 1)]) (c 2)
  | _, _ => .nan

/-- An operation in interval mode (R277). -/
def VOp.interval (op : VOp) (cs : List Word) (xs : List Iv) : Iv :=
  let c := fun (i : Nat) => ivRead (cs.getD i 0) (cs.getD i 0)
  match op, xs with
  | .add, [a, b] => ivAdd a b
  | .sub, [a, b] => ivSub a b
  | .mul, [a, b] => ivMul a b
  | .div, [a, b] => ivDiv a b
  | .neg, [a] => ivNeg a
  | .abs, [a] => ivAbs a
  | .min, [a, b] => ivMin a b
  | .max, [a, b] => ivMax a b
  | .sqr, [a] => ivSqr a
  | .sqrt, [a] => ivSqrt a
  | .clamp, [a, l, h] => ivMin (ivMax a l) h
  | .smin, [a, b] => iv2 (fun x y => some (smoothE false (rhoOf (cs.getD 0 0)) x.1 y.1, smoothE false (rhoOf (cs.getD 0 0)) x.2 y.2)) a b
  | .smax, [a, b] => iv2 (fun x y => some (smoothE true (rhoOf (cs.getD 0 0)) x.1 y.1, smoothE true (rhoOf (cs.getD 0 0)) x.2 y.2)) a b
  | .len2, [a, b] => lenI [a, b]
  | .len3, [a, b, e] => lenI [a, b, e]
  | .onion, [a] => ivSub (ivAbs a) (c 0)
  | .sphere, [x, y, w] => ivSub (lenI [ivSub x (c 0), ivSub y (c 1), ivSub w (c 2)]) (c 3)
  | .box, [x, y, w] =>
    let q := fun (p : Iv) (i : Nat) => ivSub (ivAbs (ivSub p (c i))) (c (i + 3))
    (q x 0).bind fun a => (q y 1).bind fun b => (q w 2).map fun e => (boxE a.1 b.1 e.1, boxE a.2 b.2 e.2)
  | .plane, [x, y, w] => ivAdd (ivAdd (ivAdd (ivMul (c 0) x) (ivMul (c 1) y)) (ivMul (c 2) w)) (c 3)
  | .cyl, [x, y, _] => ivSub (lenI [ivSub x (c 0), ivSub y (c 1)]) (c 2)
  | _, _ => .whole

/-- An operation in affine mode (R277): the linear rule, the multiplication rule, or through intervals. -/
def VOp.affine (op : VOp) (cs : List Word) (xs : List Aff) : Aff :=
  let one : Word := 0x3F800000
  let mone : Word := 0xBF800000
  match op, xs with
  | .add, [a, b] => .linear [(one, a), (one, b)] 0
  | .sub, [a, b] => .linear [(one, a), (mone, b)] 0
  | .neg, [a] => .linear [(mone, a)] 0
  | .mul, [a, b] => .mul a b
  | .sqr, [a] => .mul a a
  | .plane, [x, y, w] => .linear [(cs.getD 0 0, x), (cs.getD 1 0, y), (cs.getD 2 0, w)] (cs.getD 3 0)
  | _, _ => .ofIv (op.interval cs (xs.map Aff.iv))

/-- An operation in a mode. -/
def VOp.eval (op : VOp) (m : VMode) (cs : List Word) (xs : List VVal) : VVal :=
  match m with
  | .pt => .pt (op.point cs (xs.map VVal.toX)).word
  | .iv => .ofIv (op.interval cs (xs.map VVal.toIv))
  | .aff => .aff (op.affine cs (xs.map VVal.toAff))

/-- One row of a transform applied to a frame (R278). -/
def rowEval (m : VMode) (cs : List Word) (f : Frame) : VVal := VOp.plane.eval m cs [f.x, f.y, f.z]

/-! ### Program objects (R274, R275) -/

/-- A program object. -/
structure Prog where
  code   : List Byte
  consts : List Word
  bset   : DWord
  deriving DecidableEq, Repr

/-- An entry of Table 9.5: immediate bytes, values popped and pushed, constants read. -/
structure VInfo where
  imm  : Nat
  pops : Nat
  push : Nat
  cons : Nat
  deriving DecidableEq, Repr

/-- Table 9.5 by code. -/
def vInfo (code : Nat) : Option VInfo :=
  match code with
  | 0x00 => some ⟨0, 1, 0, 0⟩
  | 0x01 | 0x02 | 0x03 => some ⟨0, 0, 1, 0⟩
  | 0x04 => some ⟨1, 0, 1, 1⟩
  | 0x05 => some ⟨4, 0, 1, 0⟩
  | 0x06 => some ⟨0, 1, 2, 0⟩
  | 0x07 => some ⟨0, 2, 2, 0⟩
  | 0x08 => some ⟨0, 2, 3, 0⟩
  | 0x09 => some ⟨0, 1, 0, 0⟩
  | 0x10 | 0x11 | 0x12 | 0x13 => some ⟨0, 2, 1, 0⟩
  | 0x14 | 0x15 => some ⟨0, 1, 1, 0⟩
  | 0x16 | 0x17 => some ⟨0, 2, 1, 0⟩
  | 0x18 | 0x19 => some ⟨0, 1, 1, 0⟩
  | 0x1A => some ⟨0, 3, 1, 0⟩
  | 0x1B | 0x1C => some ⟨1, 2, 1, 1⟩
  | 0x1D => some ⟨0, 2, 1, 0⟩
  | 0x1E => some ⟨0, 3, 1, 0⟩
  | 0x1F => some ⟨1, 1, 1, 1⟩
  | 0x20 => some ⟨1, 0, 0, 12⟩
  | 0x21 => some ⟨0, 0, 0, 0⟩
  | 0x28 => some ⟨1, 0, 1, 4⟩
  | 0x29 => some ⟨1, 0, 1, 6⟩
  | 0x2A => some ⟨1, 0, 1, 4⟩
  | 0x2B => some ⟨1, 0, 1, 3⟩
  | 0x30 => some ⟨0, 0, 1, 0⟩
  | 0x38 => some ⟨2, 0, 1, 0⟩
  | _ => none

/-- The computing operation of a code. -/
def vOpOf (code : Nat) : Option VOp :=
  match code with
  | 0x10 => some .add | 0x11 => some .sub | 0x12 => some .mul | 0x13 => some .div
  | 0x14 => some .neg | 0x15 => some .abs | 0x16 => some .min | 0x17 => some .max
  | 0x18 => some .sqr | 0x19 => some .sqrt | 0x1A => some .clamp | 0x1B => some .smin | 0x1C => some .smax
  | 0x1D => some .len2 | 0x1E => some .len3 | 0x1F => some .onion
  | 0x28 => some .sphere | 0x29 => some .box | 0x2A => some .plane | 0x2B => some .cyl
  | _ => none

/-- Byte q of the code. -/
def Prog.at_ (p : Prog) (q : Nat) : Nat := (p.code.getD q 0).toNat

/-- The one-byte immediate of the operation at q. -/
def Prog.k (p : Prog) (q : Nat) : Nat := p.at_ (q + 1)

/-- The walk of R275 from byte q, with the stack and frame depths before it. -/
def Prog.validFrom (p : Prog) : Nat → Nat → Nat → Nat → Bool
  | 0, _, _, _ => false
  | fuel + 1, q, d, fr =>
    match vInfo (p.at_ q) with
    | none => false
    | some i =>
      let code := p.at_ q
      let next := q + 1 + i.imm
      if p.code.length < next || d < i.pops then false
      else if code = 0 then q + 1 == p.code.length && d == 1
      else
        let d' := d - i.pops + i.push
        let fr' := if code = 0x20 then fr + 1 else if code = 0x21 then fr - 1 else fr
        decide (d' ≤ 16) && decide (fr' ≤ 4) && !(code == 0x21 && fr == 0) &&
        (i.cons == 0 || decide (p.k q + i.cons ≤ p.consts.length)) && !(code == 0x30 && p.bset == 0) &&
        p.validFrom fuel next d' fr'

/-- A program object read and validated (R274, R275): reason 0x4 when it is invalid. -/
def readProg (r : Reader) (a : DWord) : RD Prog := do
  let h ← rdBytes r false a 16 64
  let n := field h 2 2
  let k := field h 4 2
  if field h 0 2 ≠ 1 ∨ n = 0 ∨ 4096 < n ∨ 256 < k ∨ !zeroAt h 6 2 then throw (.reason 4)
  let cs ← rdBytes r false (a + 16) (4 * k) 4
  let code ← rdBytes r false (a + 16 + BitVec.ofNat 64 (4 * k)) n 1
  let p : Prog := { code := code, consts := wordsOfBytes cs k, bset := dwordAt h 8 }
  if p.validFrom (n + 1) 0 0 0 then pure p else throw (.reason 4)

/-! ### Bricks (R280 to R284) -/

/-- A brick set header's fields (Table 9.6). -/
structure BSet where
  n      : Nat
  maplog : Nat
  map    : DWord
  pool   : DWord
  origin : List Word
  voxel  : Word
  far    : Word
  deriving DecidableEq, Repr

/-- A positive, finite and normal F32 (R280). -/
def posNormal (w : Word) : Bool :=
  match fv w with
  | .fin n q => !n && decide (pow2 (-126) ≤ q)
  | _ => false

/-- A brick set header read (R280): reason 0x5 when it is invalid. -/
def readBSet (r : Reader) (a : DWord) : RD BSet := do
  if a.toNat % 64 ≠ 0 then throw (.reason 5)
  let h ← rdBytes r true a 64 64
  let b : BSet := { n := field h 2 1, maplog := field h 3 1, map := dwordAt h 8, pool := dwordAt h 16,
                    origin := [wordAt h 0x18, wordAt h 0x1C, wordAt h 0x20], voxel := wordAt h 0x24, far := wordAt h 0x28 }
  if field h 0 2 ≠ 2 ∨ (b.n ≠ 4 ∧ b.n ≠ 8) ∨ 24 < b.maplog ∨ !posNormal b.voxel ∨ b.map.toNat % 8 ≠ 0 ∨ b.pool.toNat % 128 ≠ 0 ∨
      !zeroAt h 4 4 ∨ !zeroAt h 0x2C 20 then throw (.reason 5)
  pure b

/-- The slots of the map probed, at most eight from h (R282): the brick's address. -/
def probe (r : Reader) (b : BSet) (key : Nat) : Nat → Nat → RD (Option DWord)
  | 0, _ => pure none
  | fuel + 1, h => do
    let e := field (← rdBytes r true (b.map + BitVec.ofNat 64 (8 * h)) 8 8) 0 8
    if e / 2 ^ 63 = 0 then pure none
    else if e / 2 ^ 60 % 8 = 0 ∧ e / 2 ^ 24 % 64 = 0 ∧ e / 2 ^ 30 % 2 ^ 30 = key then
      pure (some (b.pool + BitVec.ofNat 64 (e % 2 ^ 24 * (2 * b.n ^ 3))))
    else probe r b key fuel ((h + 1) % 2 ^ b.maplog)

/-- The brick at brick coordinates, when it is present (R281, R282). -/
def findBrick (r : Reader) (b : BSet) (x y z : Int) : RD (Option DWord) :=
  let ok := fun (v : Int) => -512 ≤ v && v ≤ 511
  if !(ok x && ok y && ok z) then pure none
  else
    let key := (z + 512).toNat * 2 ^ 20 + (y + 512).toNat * 2 ^ 10 + (x + 512).toNat
    probe r b key 8 ((key ^^^ (key / 2 ^ 10) ^^^ (key / 2 ^ 20)) % 2 ^ b.maplog)

/-- A voxel's value (R281). -/
def voxelAt (r : Reader) (b : BSet) (a : DWord) (i j l : Nat) : RD FV := do
  let bs ← rdBytes r true (a + BitVec.ofNat 64 (2 * (l * b.n ^ 2 + j * b.n + i))) 2 2
  pure (valueOf .f16 (field bs 0 2))

/-- u of R283 on one axis, rounded by a mode; none when it is not finite. -/
def latticeU (rm : RM) (b : BSet) (axis : Nat) (p : EB) : Option Rat :=
  let o := b.origin.getD axis 0
  match p with
  | .fin q => if !(fv o).isFin then none
      else
        let u := roundW rm ((q - ratW o) / ratW b.voxel)
        if (fv u).isFin then some (ratW u) else none
  | _ => none

/-- ⌊q⌋. -/
def floorQ (q : Rat) : Int := q.num / q.den

/-- The eight offsets of a cell's corners. -/
def corners : List (Nat × Nat × Nat) := (List.range 8).map fun i => (i % 2, i / 2 % 2, i / 4)

/-- The eight voxels of a cell: none where its brick is missing. -/
def cellVoxels (r : Reader) (b : BSet) (cx cy cz : Int) : RD (Option (List FV)) := do
  let m : Int := (b.n : Int) - 1
  match ← findBrick r b (cx / m) (cy / m) (cz / m) with
  | none => pure none
  | some a =>
    let vs ← corners.mapM fun d => voxelAt r b a ((cx % m).toNat + d.1) ((cy % m).toNat + d.2.1) ((cz % m).toNat + d.2.2)
    pure (some vs)

/-- The trilinear sample of R283 at a point: the value and the gradient. -/
def sampleAt (r : Reader) (b : BSet) (x y z : Word) : RD (List Word) := do
  let far := [b.far, 0, 0, 0]
  let u := fun (axis : Nat) (w : Word) => (EB.ofFV (fv w)).bind (latticeU .rn b axis)
  match u 0 x, u 1 y, u 2 z with
  | some ux, some uy, some uz =>
    let cx := floorQ ux
    let cy := floorQ uy
    let cz := floorQ uz
    match ← cellVoxels r b cx cy cz with
    | none => pure far
    | some vs =>
      if vs.any fun v => !v.isFin then pure (List.replicate 4 0x7FC00000)
      else
        let w := fun (f : Rat) (d : Nat) => if d = 1 then f else 1 - f
        let fx := ux - cx
        let fy := uy - cy
        let fz := uz - cz
        let v := fun (i j l : Nat) => (vs.getD (i + 2 * j + 4 * l) (.fin false 0)).rat
        let sum := fun (g : Nat × Nat × Nat → Rat) => (corners.map g).sum
        let val := sum fun d => w fx d.1 * w fy d.2.1 * w fz d.2.2 * v d.1 d.2.1 d.2.2
        let four := [(0, 0), (1, 0), (0, 1), (1, 1)]
        let h := ratW b.voxel
        let gx := (four.map fun d => w fy d.1 * w fz d.2 * (v 1 d.1 d.2 - v 0 d.1 d.2)).sum / h
        let gy := (four.map fun d => w fx d.1 * w fz d.2 * (v d.1 1 d.2 - v d.1 0 d.2)).sum / h
        let gz := (four.map fun d => w fx d.1 * w fy d.2 * (v d.1 d.2 1 - v d.1 d.2 0)).sum / h
        pure ([val, gx, gy, gz].map (roundW .rn))
  | _, _, _ => pure far

/-- A range of whole numbers. -/
def intRange (a : Int) (n : Nat) : List Int := (List.range n).map fun (i : Nat) => a + (i : Int)

/-- `bsample` over a box (R284): none stands for the whole line. -/
def sampleIv (r : Reader) (b : BSet) (bx : Iv × Iv × Iv) : RD Iv := do
  match bx with
  | (some x, some y, some z) =>
    let ax := fun (axis : Nat) (p : EB × EB) => (latticeU .rd b axis p.1).bind fun lo => (latticeU .ru b axis p.2).map fun hi => (floorQ lo, (floorQ hi - floorQ lo + 1).toNat)
    match ax 0 x, ax 1 y, ax 2 z with
    | some cx, some cy, some cz =>
      if 64 < cx.2 ∨ 64 < cy.2 ∨ 64 < cz.2 then pure .whole
      else
        let cells := (intRange cz.1 cz.2).flatMap fun k => (intRange cy.1 cy.2).flatMap fun j => (intRange cx.1 cx.2).map fun i => (i, j, k)
        let vals ← cells.mapM fun c => do
          match ← cellVoxels r b c.1 c.2.1 c.2.2 with
          | none => pure [EB.ofFV (fv b.far)]
          | some vs => pure (vs.map fun v => if v.isFin then EB.ofFV v else none)
        match (vals.flatten).mapM id with
        | some (v :: vs) => pure (some (vs.foldl EB.min v, vs.foldl EB.max v))
        | _ => pure .whole
    | _, _, _ => pure .whole
  | _ => pure none

/-- `bsample` in a mode (R284), at the current frame. -/
def bsampleIn (r : Reader) (bset : DWord) (m : VMode) (f : Frame) : RD VVal := do
  let b ← readBSet r bset
  match m with
  | .pt =>
    match f.x, f.y, f.z with
    | .pt x, .pt y, .pt z => return .pt ((← sampleAt r b x y z).getD 0 0)
    | _, _, _ => return .pt 0x7FC00000
  | _ => return .ofIvIn m (← sampleIv r b (f.x.toIv, f.y.toIv, f.z.toIv))

/-! ### The evaluator -/

/-- How one operation leaves the evaluation: it goes on, has its result, or has reached `opaque`. -/
inductive VmOut
  | more (v : Vm)
  | result (v : VVal)
  | opq (node : Nat) (v : Vm)
  deriving DecidableEq, Repr

/-- The current frame. -/
def Vm.frame (v : Vm) : Frame := v.frames.headD ⟨.pt 0, .pt 0, .pt 0⟩

/-- One operation (R276 to R278). An operand missing from the stack (possible only when the program changed under a
suspended ray, R292) gives reason 0x4. -/
def Vm.op (r : Reader) (p : Prog) (m : VMode) (v : Vm) : RD VmOut := do
  let q := v.pc
  let code := p.at_ q
  let k := p.k q
  match vInfo code with
  | none => throw (.reason 4)
  | some i =>
    if v.stack.length < i.pops then throw (.reason 4)
    let next := q + 1 + i.imm
    let f := v.frame
    let push := fun (s : List VVal) => VmOut.more { v with pc := next, stack := s }
    let cs := p.consts.drop k
    match code, v.stack with
    | 0x00, x :: _ => return .result x
    | 0x01, s => return push (f.x.canon :: s)
    | 0x02, s => return push (f.y.canon :: s)
    | 0x03, s => return push (f.z.canon :: s)
    | 0x04, s => return push (.const m (cs.getD 0 0) :: s)
    | 0x05, s => return push (.const m (wordAt (p.code.drop (q + 1)) 0) :: s)
    | 0x06, x :: s => return push (x :: x :: s)
    | 0x07, y :: x :: s => return push (x :: y :: s)
    | 0x08, y :: x :: s => return push (x :: y :: x :: s)
    | 0x09, _ :: s => return push s
    | 0x20, s =>
      let g : Frame := ⟨rowEval m cs f, rowEval m (cs.drop 4) f, rowEval m (cs.drop 8) f⟩
      return .more { pc := next, stack := s, frames := g :: v.frames }
    | 0x21, s => return .more { pc := next, stack := s, frames := v.frames.drop 1 }
    | 0x30, s => return push ((← bsampleIn r p.bset m f).canon :: s)
    | 0x38, _ => return .opq (field (p.code.drop (q + 1)) 0 2) { v with pc := next }
    | c, s =>
      match vOpOf c with
      | none => throw (.reason 4)
      | some op =>
        let args := if i.pops = 0 then [f.x, f.y, f.z] else (s.take i.pops).reverse
        return push (op.eval m cs args :: s.drop i.pops)

/-- The evaluation run until its result or an `opaque`. -/
def Vm.run (r : Reader) (p : Prog) (m : VMode) : Nat → Vm → RD VmOut
  | 0, _ => throw (.reason 4)
  | fuel + 1, v => do
    match ← v.op r p m with
    | .more v => Vm.run r p m fuel v
    | o => pure o

/-- The start of an evaluation in a base frame. -/
def Vm.start (f : Frame) : Vm := { pc := 0, stack := [], frames := [f] }

/-- An evaluation in which `opaque` pushes a value and does not suspend (R293, R295): the result, and whether an `opaque`
was met. -/
def evalThrough (r : Reader) (p : Prog) (m : VMode) (opq : VVal) : Nat → Bool → Vm → RD (VVal × Bool)
  | 0, _, _ => throw (.reason 4)
  | fuel + 1, met, v => do
    match ← v.op r p m with
    | .more v => evalThrough r p m opq fuel met v
    | .result x => pure (x, met)
    | .opq _ v => evalThrough r p m opq fuel true { v with stack := opq :: v.stack }

/-- A box as a base frame of interval mode. -/
def boxFrame (ws : List Word) : Frame :=
  let p := fun (i : Nat) => VVal.ofIv (ivRead (ws.getD i 0) (ws.getD (i + 1) 0))
  ⟨p 0, p 2, p 4⟩

/-- Point coordinates as a base frame. -/
def pointFrame (ws : List Word) : Frame := ⟨.pt (ws.getD 0 0), .pt (ws.getD 1 0), .pt (ws.getD 2 0)⟩

end Sys2Proof.Machine
end

