-- ==== Sys2Proof/Machine/Verdict.lean ====
section
/-! DEFINITION. Verdict-class accumulation (08 R251 to R258). -/

namespace Sys2Proof.Machine

open Sys2Proof

/-! ### The verdict state (R252) -/

/-- The code of a kind (Table 3.9). -/
def VKind.no : VKind → Nat
  | .sign => 1
  | .thresh => 2
  | .topk => 3

/-- The value of place K of LIST, or the sentinel of the direction (R252). -/
def Verdict.place (v : Verdict) : Word := ((v.list[v.k - 1]?).map (·.1)).getD (if v.max then 0xFF800000 else 0x7F800000)

/-- The TOPK threshold: the greater or the lesser of VT and place K; a NaN VT is an identity (R252). -/
def Verdict.topT (v : Verdict) : Word := (minmaxW v.max v.vt v.place).1

/-- The threshold of a kind (R252, R256). -/
def Verdict.threshold (v : Verdict) (k : VKind) : Word :=
  match k with
  | .sign => 0
  | .thresh => v.vt
  | .topk => v.topT

/-- An entry inserted after every entry of equal value, the best K kept (R256). -/
def insertPlace (max : Bool) (x : Word × BitVec 16) : List (Word × BitVec 16) → List (Word × BitVec 16)
  | [] => [x]
  | y :: ys =>
    let better := if max then (fv y.1).lt (fv x.1) else (fv x.1).lt (fv y.1)
    if better then x :: y :: ys else y :: insertPlace max x ys

/-! ### The descriptor (R251) -/

/-- A verdict descriptor's fields (Table 8.5); `bl` is the block length. -/
structure VDesc where
  qoff : Nat
  qhdr : Nat
  roff : Nat
  rstr : Nat
  rhdr : Nat
  nb   : Nat
  rows : Nat
  bl   : Nat
  base : Nat
  deriving DecidableEq, Repr

/-- The fields of 32 bytes, when they are valid. -/
def vdescOf (h : List Byte) : Option VDesc :=
  let c := field h 0x17 1
  let d : VDesc := { qoff := field h 0 4, qhdr := field h 4 4, roff := field h 8 4, rstr := field h 0xC 4, rhdr := field h 0x10 4,
                     nb := field h 0x14 2, rows := field h 0x16 1, bl := 16 / 2 ^ c, base := field h 0x18 2 }
  if [d.qoff, d.qhdr, d.roff, d.rstr, d.rhdr].any (fun o => o % 4 ≠ 0) || d.nb == 0 || 256 < d.nb || d.rows == 0 || 16 < d.rows || 2 < c ||
     !zeroAt h 0x1A 6 then none
  else some d

/-- Bytes of a row's elements. -/
def VDesc.rowBytes (d : VDesc) (w : Nat) : Nat := d.nb * d.bl * w / 8

/-- The bytes that a descriptor names: query, query headers, rows, row headers. -/
def VDesc.spans (d : VDesc) (w : Nat) : List (Nat × Nat × Nat) :=
  (d.qoff, 1, d.rowBytes w) :: (d.qhdr, 1, 4 * d.nb) :: (d.rhdr, 1, 4 * d.nb * d.rows) ::
  (List.range d.rows).map fun r => (d.roff + r * d.rstr, 1, d.rowBytes w)

/-- Bytes of a scratchpad that a request may not reach yet: none past SCRATCHWG. -/
def Wg.readUpTo (w : Wg) (o n : Nat) : List Byte := if o + n ≤ w.scratchLen then w.scratchBytes o n else []

/-- The request of `vacc` and `vtop` (R256), with R235's items 5 to 7. -/
def verdReq (w : Wg) (on : List (TRef × Thread)) (kind : VKind) (t : Nat) (a f : Reg) (col : Nat) : Except Trap ArrReq := do
  let n ← w.tileNo t
  let fw ← voteFormat on f
  let off := ((electedOf on).reg a).toNat
  if off % 32 ≠ 0 then throw (.at .alignment (windowAddr off))
  if w.scratchLen < off + 32 then throw (.at .scratchRange (windowAddr off))
  let desc := w.scratchBytes off 32
  match vdescOf desc with
  | none => throw (.of .arrayFormat)
  | some d =>
    let hdrs := w.readUpTo d.qhdr (4 * d.nb) ++ w.readUpTo d.rhdr (4 * d.nb * d.rows)
    pure { ArrReq.plain (.verd kind n col off fw.word desc hdrs) true with
      demand := fw.demand false, offs := d.spans (widthOf fw.aty), reads := (List.range d.rows).map fun r => (n, r, col) }

/-- `vacc` (R256). -/
def execVacc (p : Pfx) (kind : VKind) (t : TileNo) (a f : Reg) (col : BitVec 4) (s : State) : Out :=
  s.device fun g => g.arrayWord p [a, f] (laneReads [f] [a]) fun _ w _ on => verdReq w on kind t.toNat a f col.toNat

/-- `vtop` (R256). -/
def execVtop (p : Pfx) (t : TileNo) (a f : Reg) (col : BitVec 4) (s : State) : Out :=
  s.device fun g => g.arrayWord p [a, f] (laneReads [f] [a]) fun _ w _ on => verdReq w on .topk t.toNat a f col.toNat

/-! ### The bound monitor (R254, R255) -/

/-- BB(c); none when it is +∞. -/
def blockBound (f : Fmw) (bl : Nat) (ha hb : Word) : Option Rat :=
  let a := fv ha
  let b := fv hb
  let k := pow2 (f.sa + f.sb) * bl
  if f.mt = 0 && (a.isZero || b.isZero) then some 0
  else if !a.isFin || !b.isFin then none
  else
    let x := |a.rat|
    let y := |b.rat|
    some (k * (if f.mt = 0 then x * y else if f.mt = 1 then x + y else (x + y) * (x + y)))

/-- A sum that is +∞ when a part is. -/
def sumBounds : List (Option Rat) → Option Rat
  | [] => some 0
  | x :: xs => x.bind fun a => (sumBounds xs).map fun b => a + b

/-- lo and hi before a block; none when the window decides nothing. `bbs` are the bounds of the remaining blocks. -/
def window (f : Fmw) (bl : Nat) (acc : Word) (bbs : List (Option Rat)) : Option (Word × Word) :=
  if !(fv acc).isFin then none
  else
    (sumBounds bbs).bind fun s =>
      let u := roundW .ru s
      if !(fv u).isFin then none
      else
        let kb := min f.kb bl
        let m : Rat := (bbs.length * ((bl + kb - 1) / kb) : Nat)
        let mm := roundW .ru (|ratW acc| + ratW u)
        if !(fv mm).isFin then none
        else
          let e := if ratW mm = 0 then m * pow2 (-126) else m * max (pow2 (ilog2 (ratW mm) + 1 - 24)) (pow2 (-126))
          let lr := if f.mt = 0 then -ratW u else 0
          some (roundW .rd (ratW acc + lr - e), roundW .ru (ratW acc + ratW u + e))

/-- The verdict that a window decides (Table 8.6). -/
def windowVerdict (kind : VKind) (max : Bool) (t : Word) (lo hi : Word) : Option Bool :=
  let l := fv lo
  let h := fv hi
  let x := fv t
  let le := fun (a b : FV) => a.lt b || a.eqv b
  match kind with
  | .sign => if h.lt (.fin false 0) then some true else if le (.fin false 0) l then some false else none
  | .thresh => if x.lt l then some true else if le h x then some false else none
  | .topk => if max then (if le h x then some false else none) else (if le x l then some false else none)

/-- Whether a full result enters LIST (Table 8.6). -/
def enters (max : Bool) (t r : Word) : Bool := if max then (fv t).lt (fv r) else (fv r).lt (fv t)

/-- An abandoned result (R256). -/
def abandonedWord (kind : VKind) (v : Bool) : Word := BitVec.ofNat 32 (0x7FA00000 + 2 * VKind.no kind + (if v then 1 else 0))

/-- A row run from a block on: its result and flags, and whether it was abandoned (R256). `blocks` are the terms of the
remaining blocks and their bounds. -/
def runRow (f : Fmw) (ftz : Bool) (bl : Nat) (kind : VKind) (max : Bool) (t : Word) :
    Word → BitVec 5 → List (List (FV × FV) × Option Rat) → Word × BitVec 5 × Bool
  | acc, fl, [] => (acc, fl, false)
  | acc, fl, b :: bs =>
    match (window f bl acc ((b :: bs).map (·.2))).bind fun q => windowVerdict kind max t q.1 q.2 with
    | some v => (abandonedWord kind v, fl, true)
    | none =>
      let r := stepChain f.mt (f.sa + f.sb) ftz (min f.kb bl) acc b.1
      runRow f ftz bl kind max t r.1 (fl ||| r.2) bs

/-- Codes of packed elements at a scratchpad offset. -/
def codesAt (w : Wg) (off n width : Nat) : List Nat :=
  let v := natOfBytes (w.scratchBytes off (n * width / 8))
  (List.range n).map fun i => v / 2 ^ (i * width) % 2 ^ width

/-- The blocks of a row: terms and bounds. -/
def rowBlocks (f : Fmw) (d : VDesc) (w : Wg) (hdrs : List Byte) (r : Nat) : List (List (FV × FV) × Option Rat) :=
  let n := d.nb * d.bl
  let width := widthOf f.aty
  let ts := ((codesAt w (d.roff + r * d.rstr) n width).map (elemOf f.aty)).zip ((codesAt w d.qoff n width).map (elemOf f.bty))
  let hdr := fun (i : Nat) => wordAt hdrs (4 * i)
  (List.range d.nb).map fun b =>
    ((ts.drop (b * d.bl)).take d.bl, blockBound f d.bl (hdr (d.nb + r * d.nb + b)) (hdr b))

/-- The state of the defined order (R256): the workgroup's tile, the verdict state, the flags, and what was computed. -/
structure VRun where
  wg    : Wg
  v     : Verdict
  flags : BitVec 5
  res   : List (Nat × CellRes)
  deriving DecidableEq, Repr

/-- One row in the defined order (R256). -/
def verdRow (f : Fmw) (ftz : Bool) (d : VDesc) (kind : VKind) (t col : Nat) (hdrs : List Byte) (x : VRun) (r : Nat) : VRun :=
  let th := x.v.threshold kind
  let acc := x.wg.elem t r col
  let bs := rowBlocks f d x.wg hdrs r
  let (res, fl, gone) := runRow f ftz d.bl kind x.v.max th acc 0 bs
  let ins := kind == .topk && !gone && enters x.v.max th res
  let v := if ins then { x.v with list := (insertPlace x.v.max (res, BitVec.ofNat 16 (d.base + r)) x.v.list).take x.v.k } else x.v
  { wg := x.wg.setElem t r col res, v := v, flags := x.flags ||| fl, res := x.res ++ [(16 * r + col, ⟨acc, bs.flatMap (·.1), res, fl⟩)] }

/-- A whole verdict operation (R256). -/
def verdRun (f : Fmw) (ftz : Bool) (d : VDesc) (kind : VKind) (t col : Nat) (hdrs : List Byte) (w : Wg) (v : Verdict) : VRun :=
  (List.range d.rows).foldl (verdRow f ftz d kind t col hdrs) ⟨w, v, 0, []⟩

/-! ### `vset` and `vchk` (R253, R258) -/

/-- A verdict operation of a team is outstanding. -/
def Gpu.verdBusy (g : Gpu) (core wg j : Nat) : Bool :=
  (g.arrOps core).any fun x => x.1.owner.wg == wg && x.1.owner.team == j && match x.2 with | .verd _ _ _ _ _ _ _ => true | _ => false

/-- A `vtop` of a team is outstanding: `vset` takes effect as it issues, so that none ever is. -/
def Gpu.topBusy (g : Gpu) (core wg j : Nat) : Bool :=
  (g.arrOps core).any fun x => x.1.owner.wg == wg && x.1.owner.team == j && match x.2 with | .verd .topk _ _ _ _ _ _ => true | _ => false

/-- `vset` (R253): it takes its place in the array order, after the team's outstanding verdict operations. -/
def execVset (p : Pfx) (max : Bool) (kk : BitVec 3) (a : Reg) (s : State) : Out :=
  s.device fun g => g.teamWord p [a] (laneReads [] [a]) fun g wg j _ act =>
    match g.wg? wg, (act.head?.bind g.thread?) with
    | some w, some el =>
      if isAbandoned (el.reg a) then (g, fun _ => .trap (.of .verdict))
      else if g.verdBusy (w.core?.getD 0) wg j then (g, fun _ => .wait (.array .order))
      else
        let v : Verdict := { vt := el.reg a, k := kk.toNat + 1, max := max, list := [] }
        (g.modWg wg fun w => w.modTeam j fun t => { t with verdict := v }, fun _ => .done)
    | _, _ => (g, fun _ => .done)

/-- What a lane receives from `vset.rd` (R253). -/
def vsetRdWords (v : Verdict) (lane : Nat) : List Word :=
  if lane < 8 then
    match v.list[lane]? with
    | some x => [x.1, x.2.setWidth 32]
    | none => [if v.max then 0xFF800000 else 0x7F800000, 0xFFFF]
  else [v.topT, BitVec.ofNat 32 v.list.length]

/-- `vset.rd` (R253). -/
def execVsetRd (p : Pfx) (d : Reg) (s : State) : Out :=
  s.device fun g => g.teamWord p (d.run 2) (laneReads (d.run 2) []) fun g wg j _ act =>
    match g.wg? wg with
    | none => (g, fun _ => .done)
    | some w =>
      if g.verdBusy (w.core?.getD 0) wg j then (g, fun _ => .wait (.array .order))
      else
        let v := ((w.team? j).map Team.verdict).getD Team.start.verdict
        (g.mapThreads fun t th => if act.contains t then th.setRegs d (vsetRdWords v t.lane) else th, fun _ => .done)

/-- What `vchk` writes: pD and pC (R258). -/
def vchkV (kind : VKind) (v : Verdict) (a : Word) : Bool × Bool :=
  if isAbandoned a then ((a.extractLsb' 1 7).toNat == VKind.no kind && a.getLsbD 0, true)
  else
    let x := fv a
    (match kind with
      | .sign => x.lt (.fin false 0)
      | .thresh => (fv v.vt).lt x
      | .topk => enters v.max v.topT a, false)

/-- `vchk` (R258): a per-thread word that waits for an outstanding `vtop` or `vset` of its team. -/
def execVchk (p : Pfx) (kind : VKind) (pd : PredNo) (a : Reg) (pc : PredNo) (s : State) : Out :=
  s.device fun g => g.laneWord p [a] fun g t e th =>
    if g.topBusy e.core t.wg t.team then (g, .wait (.array .order))
    else
      let v := (((g.wg? t.wg).bind fun w => w.team? t.team).map Team.verdict).getD Team.start.verdict
      let r := vchkV kind v (th.reg a)
      (g.modThread t fun th => (th.setPred pc r.2).setPred pd r.1, .done)

end Sys2Proof.Machine
end

