-- ==== Sys2Proof/Machine/Retire.lean ====
section
/-! DEFINITION. The retirement of array operations (08 R233, R234, R240 to R250, R256), what it does for the sequencer that issued
the operation (08 R264), and ARRAY_OP_RETIRE and COPY_RETIRE. -/

namespace Sys2Proof.Machine

open Sys2Proof

/-! ### Sequencers and retirement (R264) -/

/-- A core's sequencer. -/
def CoreSt.seq (c : CoreSt) (k : SeqKind) : Option Seq :=
  match k with
  | .array => c.seqA
  | .copy => c.seqC

/-- A core's sequencer replaced. -/
def CoreSt.setSeq (c : CoreSt) (k : SeqKind) (s : Option Seq) : CoreSt :=
  match k with
  | .array => { c with seqA := s }
  | .copy => { c with seqC := s }

/-- The other sequencer. -/
def seqOther : SeqKind → SeqKind
  | .array => .copy
  | .copy => .array

/-- A sequencer changed. -/
def Gpu.modSeq (g : Gpu) (core : Nat) (k : SeqKind) (f : Seq → Seq) : Gpu :=
  g.modCore core fun c => c.setSeq k ((c.seq k).map f)

/-- 1 added to a sequencer's POST (R264): the other sequencer of its fork sees it. -/
def Gpu.postSeq (g : Gpu) (core : Nat) (k : SeqKind) : Gpu :=
  match (g.core core).seq k with
  | none => g
  | some s =>
    let g := g.modSeq core k fun s => { s with post := s.post + 1 }
    g.modSeq core (seqOther k) fun x => if x.wg = s.wg ∧ x.team = s.team then { x with other := x.other + 1 } else x

/-- A sequencer that has ended and whose operations have all retired finishes (R264): its count retires, and it is free. -/
def Gpu.endSeq (g : Gpu) (core : Nat) (k : SeqKind) : Gpu :=
  match (g.core core).seq k with
  | none => g
  | some s =>
    if s.ended && s.ops.isEmpty then
      let off := fun (f : ForkSt) => match k with | .array => { f with arr := false } | .copy => { f with copy := false }
      let g := g.modCore core fun c => c.setSeq k none
      let g := g.modWg s.wg fun w => w.modTeam s.team fun t => { t with fork := t.fork.map off }
      (g.retireOp s.fork).wakeArrays core fun a => match a with | .sequencer q => q == k | _ => false
    else g

/-- An operation of a core's sequencers that has retired (R264). -/
def Gpu.seqRetired (g : Gpu) (core id : Nat) : Gpu :=
  if (g.op? id).isSome then g
  else
    [SeqKind.array, SeqKind.copy].foldl (fun g k =>
      match (g.core core).seq k with
      | none => g
      | some s =>
        if s.ops.contains id then
          let g := g.modSeq core k fun s => { s with ops := s.ops.erase id, posts := s.posts.erase id }
          (if s.posts.contains id then g.postSeq core k else g).endSeq core k
        else g) g

/-! ### Effects at retirement -/

/-- What an array operation does when it retires: the device with tiles, memory and verdict state written, the flags of the
elected thread, and the words of each lane. -/
structure ArrEff where
  g     : Gpu
  flags : BitVec 5
  words : Nat → List Word

/-- An effect without flags or register results. -/
def ArrEff.only (g : Gpu) : ArrEff := ⟨g, 0, fun _ => []⟩

/-- The F32 elements that a tile's bytes give (R241). -/
def tileOfBytes (ty : Ty) (bs : List Byte) : List Word :=
  let all := natOfBytes bs
  let w := widthOf ty
  (List.range 256).map fun e =>
    let c := all / 2 ^ (w * e) % 2 ^ w
    if ty == .f32 then BitVec.ofNat 32 c else widenW ty c

/-- The bytes that a tile stores as, and their flags (R241): F32 bits unchanged, else each element rounded. -/
def bytesOfTile (ty : Ty) (rm : RM) (sat ftz : Bool) (ws : List Word) : List Byte × BitVec 5 :=
  if ty == .f32 then (bytesOfWords ws, 0)
  else
    let rs := ws.map fun w => flush ty ftz (toFloat ty rm sat (fv w))
    (rs.flatMap fun r => bytesOfNat (widthOf ty / 8) r.1, rs.foldl (fun f r => f ||| r.2) 0)

/-- A product's tiles written, checked and counted (R244, R245, R89). -/
def Gpu.mmaEffect (g : Gpu) (o : Op) (w : Wg) (ftz pair tall clr sparse : Bool) (t t2 : Nat) (rows : List (List Word)) (off : Nat)
    (f : Fmw) : ArrEff :=
  let tile := fun (n : Nat) (second : Bool) =>
    mmaTile f ftz clr sparse (second && tall) w n rows (if second && !tall then off + 1024 else off)
  let put := fun (g : Gpu) (n : Nat) (flags : Nat) (cs : List CellRes) =>
    (g.modWg w.id fun w => w.setTile n (cs.map CellRes.res)).shadowTile o w f flags n (cs.zipIdx.map fun x => (x.2, x.1))
  let fl := fun (cs : List CellRes) => cs.foldl (fun x c => x ||| c.flags) 0
  let a := tile t false
  let g := put g t (if pair then 1 else 0) a
  if pair then
    let b := tile t2 true
    ArrEff.mk (put g t2 3 b) (fl a ||| fl b) fun _ => []
  else ArrEff.mk g (fl a) fun _ => []

/-- A verdict operation's effect (R256). -/
def Gpu.verdEffect (g : Gpu) (o : Op) (w : Wg) (ftz : Bool) (kind : VKind) (t col : Nat) (f : Fmw) (d : VDesc) (hdrs : List Byte) : ArrEff :=
  let j := o.owner.team
  let v := ((w.team? j).map Team.verdict).getD Team.start.verdict
  let r := verdRun f ftz d kind t col hdrs w v
  let set := fun (w : Wg) => (r.res.foldl (fun w x => w.setElem t (x.1 / 16) (x.1 % 16) x.2.res) w).modTeam j fun tm => { tm with verdict := r.v }
  ArrEff.mk ((g.modWg w.id set).shadowTile o w f 4 t r.res) r.flags fun _ => []

/-- `cfin`'s effect (R250): columns of centroids with a count, then sums and counts cleared. -/
def Gpu.cfinEffect (g : Gpu) (o : Op) (w : Wg) (ftz : Bool) (ty : Ty) (n t t2 off : Nat) : ArrEff :=
  let live := (List.range n).filter fun c => !(fv (w.elem t2 c 0)).isZero
  let cols := live.map fun c => (c, cfinColumn ftz ty w t t2 c)
  let store := fun (g : Gpu) (x : Nat × (List Nat × BitVec 5)) =>
    let v := (x.2.1.zipIdx).foldl (fun s y => s + y.1 * 2 ^ (widthOf ty * y.2)) 0
    g.scratchStore w.id (off + 64 * x.1) (bytesOfNat (2 * widthOf ty) v)
  let g := cols.foldl store g
  ArrEff.mk ((g.modWg w.id (cfinClear t t2)).countTiles o w 2) (cols.foldl (fun f x => f ||| x.2.2) 0) fun _ => []

/-- The effect of an array operation that reaches its turn; the locations of a peer page that must be read first (R421). -/
def Gpu.arrEffect (g : Gpu) (o : Op) (w : Wg) (ftz : Bool) (a : ArrOp) : Except (List Phys) ArrEff :=
  match a with
  | .zero t => .ok (.only ((g.modWg w.id fun w => w.setTile t (List.replicate 256 0)).countTiles o w 1))
  | .ld ty t addr _ =>
    match g.opBytes o addr (tileBytes ty) with
    | (_, .error ps) => .error ps
    | (g, .ok (bs, p)) => .ok (.only (((g.modWg w.id fun w => w.setTile t (tileOfBytes ty bs)).countTiles o w 1).deferPoison o p))
  | .st ty rm sat t addr _ =>
    let r := bytesOfTile ty rm sat ftz (cells.map fun c => w.elem t c.1 c.2)
    .ok ⟨g.opStore o addr r.1, r.2, fun _ => []⟩
  | .mma pair tall clr sparse t t2 rows off fmt =>
    match fmwOf fmt with
    | none => .ok (.only g)
    | some f => .ok (g.mmaEffect o w ftz pair tall clr sparse t t2 rows off f)
  | .drain max hi _ n t t2 _ => .ok ⟨g, 0, fun l => placeWords max (rankedRow w max hi n t t2 (l % 16)) 0⟩
  | .topk max hi _ n kk t t2 _ =>
    let place := fun (l m : Nat) =>
      let k := 4 * (l / 16) + m
      placeWords max (if k < kk then rankedRow w max hi n t t2 (l % 16) else []) k
    .ok ⟨g, 0, fun l => (List.range 4).flatMap (place l)⟩
  | .cupd t t2 rows idx fmt =>
    match fmwOf fmt with
    | none => .ok (.only g)
    | some f =>
      let r := cupdAll ftz f rows idx t t2 w
      .ok ⟨(g.modWg w.id fun w => { w with tiles := r.1.tiles }).countTiles o w 2, r.2, fun _ => []⟩
  | .cfin ty n t t2 off => .ok (g.cfinEffect o w ftz ty n t t2 off)
  | .verd kind t col _ fmt desc hdrs =>
    match fmwOf fmt, vdescOf desc with
    | some f, some d => .ok (g.verdEffect o w ftz kind t col f d hdrs)
    | _, _ => .ok (.only g)

/-- Flags of an operation's retirement that its thread has cleared since its issue, or since its fork's (R357). -/
def Gpu.dropped (g : Gpu) (o : Op) : BitVec 5 :=
  let fork := (o.bySeq.bind fun k => (g.core o.core).seq k).map Seq.fork
  let mine := ((g.thread? o.owner).map Thread.outst).getD []
  (mine.filter fun x => x.id == o.id || some x.id == fork).foldl (fun d x => d ||| x.drop) 0

/-- What is left of an array operation's register results written in one lane: some of them may have come before the others (R147). -/
def Gpu.landRest (g : Gpu) (t : TRef) (id : Nat) (ws : List Word) : Gpu :=
  g.landToken t id ((((g.thread? t).bind fun th => th.pend.find? fun q => q.id == id).bind Pending.vals).getD ws)

/-- An array operation retires (R233, R234): it sets the elected thread's flags (R357), writes each lane's registers and leaves the
array's order; what its place in the order held back goes on. -/
def Gpu.endArr (g : Gpu) (o : Op) (flags : BitVec 5) (words : Nat → List Word) : Gpu :=
  let g := g.modThread o.owner fun th => th.raise (flags &&& ~~~(g.dropped o))
  let g := o.owners.foldl (fun g t => g.landRest t o.id (words t.lane)) g
  let g := (g.mapCores fun _ c => { c with arrq := c.arrq.erase o.id }).retireOp o.id
  ((g.seqRetired o.core o.id).sweepTiles o.core o.owner.wg).wakeArrays o.core waitsArray

/-- The memory operand of an array operation: what it reads and what it writes (R241). -/
def ArrOp.operand : ArrOp → List (DWord × Nat) × List (DWord × Nat)
  | .ld ty _ addr _ => ([(addr, tileBytes ty)], [])
  | .st ty _ _ _ addr _ => ([], [(addr, tileBytes ty)])
  | _ => ([], [])

/-- An array operation takes its turn (R234): it reads and writes its tiles at once and retires; an `ast` to a peer's page keeps its
place until the peer has acknowledged it (R421). -/
def Gpu.performArr (g : Gpu) (o : Op) (a : ArrOp) : Gpu :=
  if o.sent then if g.unacked o.id then g else g.endArr o o.flags fun _ => []
  else
    match g.wg? o.owner.wg, g.unready o a.operand.1 a.operand.2 fun g => g.endArr o 0 fun _ => [] with
    | none, _ => g
    | _, some g => g
    | some w, none =>
      match g.arrEffect o w (g.env o.owner).ftz a with
      | .error ps => g.askFor o ps
      | .ok e =>
        if e.g.unacked o.id then e.g.modOp o.id fun o => { o with sent := true, flags := e.flags } else e.g.endArr o e.flags e.words

/-- Whether an operation can do nothing now: it waits for the answer to a fault record (R355), or its workgroup is on no core
(R383). -/
def Gpu.faulted (g : Gpu) (id : Nat) : Bool :=
  (g.parts.any fun p => p.faults.any fun r => r.ops.contains id) ||
  (g.op? id).any fun o => ((g.wg? o.owner.wg).bind Wg.core?).isNone

/-- The operation at the head of an array's order. -/
def Gpu.arrHead (g : Gpu) (core : Nat) : Option Op := (g.core core).arrq.findSome? g.op?

/-- The operation whose turn it is on a core's array: the head of its order, and for a pair operation of the follower's too
(R234). -/
def Gpu.arrTurn (g : Gpu) (core : Nat) : Option (Op × ArrOp) :=
  (g.arrHead core).bind fun o =>
    match o.kind with
    | .arr a =>
      let pair := match a with | .mma pair _ _ _ _ _ _ _ _ => pair | _ => false
      if o.core = core && (!pair || (g.arrHead (followerOf core)).any fun x => x.id == o.id) then some (o, a) else none
    | _ => none

/-- The register results of a drain that has its turn become known, and may be written one by one as it retires (R147, R234; log 112). -/
def Gpu.showDrain (g : Gpu) (id : Nat) : Gpu :=
  match (g.op? id).bind fun o => g.arrTurn o.core with
  | some (o, a) =>
    match a, (g.wg? o.owner.wg).map fun w => g.arrEffect o w false a with
    | .drain _ _ _ _ _ _ _, some (.ok e) | .topk _ _ _ _ _ _ _ _, some (.ok e) =>
      if o.id = id then
        let known := fun (th : Thread) => th.pend.any fun q => q.id == id && q.vals.isSome
        g.mapThreads fun t th => if o.owners.contains t && !known th then th.resolve id (e.words t.lane) 0 else th
      else g
    | _, _ => g
  | none => g

/-- ARRAY_OP_RETIRE (R234). An operation whose stores to a peer are not acknowledged retires when they are. -/
def execArrayOpRetire (core : Nat) (s : State) : Out :=
  s.device fun g =>
    match g.arrTurn core with
    | some (o, a) => g.performArr o a
    | none => g

/-- COPY_RETIRE (R219, R220). -/
def execCopyRetire (op : Nat) (s : State) : Out :=
  s.device fun g =>
    match g.op? op with
    | some o => if g.faulted op then g else match o.kind with
      | .copy c => (g.performCopy o c).seqRetired o.core op
      | .acpx c ep _ => g.performAcpx o c ep
      | _ => g
    | none => g

end Sys2Proof.Machine
end

