-- ==== Sys2Proof/Machine/Engine.lean ====
section
/-! DEFINITION. Engine programs and the power leave (08 R259 to R266; 15 R386, R387). -/

namespace Sys2Proof.Machine

open Sys2Proof

/-! ### The leave governor (R259 to R261, R386, R387) -/

/-- P of a class in half watts (Table 15.4). -/
def classPower (c : Nat) : Nat := [2, 4, 6, 8, 9, 12, 16, 18].getD c 18

/-- The grant word (Table 8.7). -/
def grantWord (valid : Bool) (cls reason dur : Nat) : Word :=
  BitVec.ofNat 32 ((if valid then 2 ^ 31 else 0) + cls % 8 * 2 ^ 28 + reason % 16 * 2 ^ 24 + dur % 2 ^ 16)

/-- A deadline launch whose reservation has started: it holds its power (R386, R387). -/
def Launch.reserves (l : Launch) : Bool := l.desc.deadline.isSome && l.status == .running

/-- The unexpired grants of best-effort teams of a partition: core, workgroup, team, class. -/
def Gpu.bestGrants (g : Gpu) (part : Nat) : List (Nat × Nat × Nat × Nat) :=
  g.wgs.flatMap fun w =>
    match w.core?, g.launch? w.launch with
    | some c, some l =>
      if l.part == part && l.desc.deadline.isNone then
        (w.teams.zipIdx).filterMap fun x => (x.1.grant.filter fun k => g.now < k.till).map fun k => (c, w.id, x.2, k.cls)
      else []
    | _, _ => []

/-- Power of a partition in half watts: the reservations of admitted launches, and on each other core the P of the highest
class granted (R386). -/
def Gpu.partPower (g : Gpu) (part : Nat) (grants : List (Nat × Nat × Nat × Nat)) : Nat :=
  let res := (g.launches.filter fun l => l.part == part && l.reserves).map fun l =>
    ((l.alloc.map fun a => a.cores.length).getD 0) * classPower l.desc.power
  let cores := (grants.map (·.1)).dedup
  res.sum + (cores.map fun c => classPower (((grants.filter fun x => x.1 == c).map fun x => x.2.2.2).foldl max 0)).sum

/-- The partition and PRIO of a request's launch, and whether it is a deadline launch. -/
def Gpu.reqInfo (g : Gpu) (r : LeaveReq) : Option (Nat × Nat × Bool) :=
  ((g.wg? r.wg).bind fun w => g.launch? w.launch).map fun l => (l.part, l.desc.prio, l.desc.deadline.isSome)

/-- Whether one best-effort request is served before another (R387). -/
def Gpu.reqBefore (g : Gpu) (x r : LeaveReq) : Bool :=
  match g.reqInfo x, g.reqInfo r with
  | some (p, a, d), some (q, b, _) => !d && p == q && (b < a || (a == b && x.id < r.id))
  | _, _ => false

/-- Whether the governor may grant a request now (R387). -/
def Gpu.grantable (g : Gpu) (r : LeaveReq) : Bool :=
  match g.reqInfo r, g.wg? r.wg with
  | some (part, _, dl), some w =>
    w.core?.isSome && (dl || (!g.gov.hot && !(g.gov.reqs.any fun x => g.reqBefore x r) &&
      (let others := (g.bestGrants part).filter fun x => !(x.2.1 == r.wg && x.2.2.1 == r.team)
       let share := 2 * ((g.part? part).map fun p => p.entry.powerw).getD 0
       g.partPower part ((w.core?.getD 0, r.wg, r.team, r.cls) :: others) ≤ share)))
  | _, _ => false

/-- Core cycles in a microsecond (R6). -/
def usCycles : Nat := 4000

/-- A request granted (R260): the team's earlier grant is released, and the token or the stall that asked goes on. -/
def Gpu.grantReq (g : Gpu) (r : LeaveReq) : Gpu :=
  let gr : Grant := { cls := r.cls, till := g.now + r.dur * usCycles, id := g.nextId }
  let g := (g.fresh).modWg r.wg fun w => w.modTeam r.team fun t => { t with grant := some gr }
  let g := { g with gov := { g.gov with reqs := g.gov.reqs.filter fun x => x.id != r.id } }
  match r.op with
  | some id =>
    match g.op? id with
    | some o => (o.owners.foldl (fun g t => g.landToken t id [grantWord true r.cls 0 r.dur]) g).dropOp id
    | none => g
  | none =>
    let ts := sortLanes (g.waiters fun t w => t.wg == r.wg && t.team == r.team && match w with | .array (.grant _) => true | _ => false)
    g.releaseAsBundle ((ts.head?.map g.coreOf).getD 0) ts

/-- LEAVE_GRANT (R260, R387). -/
def execLeaveGrant (req : Nat) (s : State) : Out :=
  s.device fun g =>
    match g.gov.reqs.find? fun r => r.id == req with
    | some r => if g.grantable r then g.grantReq r else g
    | none => g

/-- GRANT_EXPIRY (R261). -/
def execGrantExpiry (wg team : Nat) (s : State) : Out :=
  s.device fun g => g.modWg wg fun w => w.modTeam team fun t => { t with grant := t.grant.filter fun k => g.now < k.till }

/-- `leave` (R260). -/
def execLeave (p : Pfx) (d : Reg) (cls : BitVec 3) (b : SrcB) (s : State) : Out :=
  s.device fun g => g.teamWord p (d :: b.span false) (laneReads [d] (b.span false)) fun g wg j _ act =>
    match (g.wg? wg).bind fun w => g.launch? w.launch, act.head?.bind g.thread? with
    | some l, some el =>
      let us := (el.srcW b).toNat
      let reason := if l.desc.power < cls.toNat then 1 else if us = 0 || 65535 < us then 2 else 0
      if reason ≠ 0 then
        (g.mapThreads fun t th => if act.contains t then th.setReg d (grantWord false cls.toNat reason 0) else th, fun _ => .done)
      else
        let id := g.nextId
        let r : LeaveReq := { id := id, wg := wg, team := j, cls := cls.toNat, dur := us, op := some id }
        let pc := g.cur.pc
        let word := g.cur.word
        let g := g.newOp (act.headD ⟨0, 0⟩) act none (.leave cls.toNat us) []
        let g := { g with gov := { g.gov with reqs := g.gov.reqs ++ [r] } }
        (g.mapThreads fun t th =>
          if act.contains t then
            th.addPend { id := id, regs := [d], vals := none, flags := 0, token := true, xch := false, pc := pc, word := word }
          else th, fun _ => .done)
    | _, _ => (g, fun _ => .done)

/-- `lvfree` (R260). -/
def execLvfree (p : Pfx) (s : State) : Out :=
  s.device fun g => g.teamWord p [] (laneReads [] []) fun g wg j _ _ =>
    (g.modWg wg fun w => w.modTeam j fun t => { t with grant := none }, fun _ => .done)

/-! ### Layer tables (R262, R263) -/

/-- A state of a table when it is valid (Table 8.8, R263): `n` is its table's count, `other` whether the other table is
present. DESIGN CHOICE (log 104): the SIZE of an AMMA or AMMS state is any 16-bit value, since no check of R263 names its range. -/
def estateOf (k : SeqKind) (n : Nat) (other : Bool) (h : List Byte) : Option EState :=
  let op := field h 0 1
  let ix := field h 1 1
  let tile := field h 2 1
  let arg := field h 0xA 2
  let ctl := field h 0xC 1
  let cond := field h 0xD 1
  let e : EState :=
    { op := op, ix := ix % 4, ring := ix / 16 + 1, tile := tile, areg := field h 3 1, off := field h 4 4, size := field h 8 2, arg := arg,
      incC := ctl % 4, inc := ctl / 4 % 2 == 1, wait := ctl / 8 % 2 == 1, post := ctl / 16 % 2 == 1, loopC := cond % 4,
      loop := cond / 4 % 2 == 1, next := field h 0xE 1, jmp := field h 0xF 1 }
  let table := match k with
    | .array => [0, 1, 2, 3, 4].contains op && tile < 64 && arg < 16
    | .copy => [0, 1, 0x10].contains op && tile == 0 && field h 3 1 == 0
  if !table || ix / 4 % 4 ≠ 0 || ctl / 32 ≠ 0 || cond / 8 ≠ 0 || n ≤ e.next || n ≤ e.jmp || (e.wait && !other) then none else some e

/-- A whole table; none when a state of it is not valid. -/
def tableOf (k : SeqKind) (n : Nat) (other : Bool) (bs : List Byte) : Option (List EState) :=
  (List.range n).mapM fun i => estateOf k n other ((bs.drop (16 * i)).take 16)

/-- A table read at issue by the elected thread, who comes first among the members: its pages for every member of the team, then its
bytes (R263). -/
def Gpu.readTable (g : Gpu) (ms : List TRef) (w : Wg) (core n : Nat) (a : DWord) : Gpu × Except Fate (List Byte) :=
  let t := ms.headD ⟨0, 0⟩
  if n = 0 then (g, .ok [])
  else
    match g.teamReach ms core w.ctx 1 (16 * n) .read a with
    | (g, .error f) => (g, .error f)
    | (g, .ok ls) =>
      match region a with
      | .mem va =>
        match g.firstPoison (physOf ls va (16 * n)) with
        | some i => (g, .error (.trap (.at .poison (a + BitVec.ofNat 64 i))))
        | none =>
          match g.readIssue core t ls va (16 * n) with
          | (g, .ok bs) => (g, .ok bs)
          | (g, .error f) => (g, .error f)
      | .scratch o => (g, .ok (w.scratchBytes o (16 * n)))
      | .bad => (g, .ok [])

/-- The states that a fork's tables give; none when a check of R263 fails. -/
def forkTables (na nc : Nat) (x7 : Word) (ab cb : List Byte) : Option (List EState × List EState) :=
  if (na = 0 && nc = 0) || x7.toNat / 65536 ≠ 0 then none
  else
    match tableOf .array na (nc != 0) ab, tableOf .copy nc (na != 0) cb with
    | some x, some y => some (x, y)
    | _, _ => none

/-- One sequencer started (R263, R264): it is counted by the threads in Lanes(). -/
def Gpu.startSeq (g : Gpu) (w : Wg) (j core : Nat) (k : SeqKind) (act : List TRef) (tab : List EState) (rs : List Word) (credit : Nat) : Gpu :=
  let el := act.headD ⟨0, 0⟩
  let cls := match k with | .array => Cls.arr | .copy => Cls.copy
  let id := g.nextId
  let s : Seq :=
    { fork := id, wg := w.id, team := j, lanes := act, elected := el, tab := tab, idx := 0, ctrs := [0, 0, 0, 0], limits := rs.take 4,
      post := 0, other := 0, take := -(credit : Int), src := rs.getD 5 0 ++ rs.getD 4 0, fmt := rs.getD 6 0, ops := [], posts := [],
      ended := false, pc := g.cur.pc, word := g.cur.word }
  let g := (g.newOp el act (some cls) (.seq k) []).modCore core fun c => c.setSeq k (some s)
  g.mapThreads fun t th => if act.contains t then th.addOutst cls id else th

/-- `fork` (R263): a table of no states is not read, nor its address. DESIGN CHOICE (log 119): of engine-form and engine-busy, which share
item 11 of R235, engine-form comes first. -/
def execFork (p : Pfx) (na : BitVec 8) (nc : BitVec 6) (a b c : Reg) (s : State) : Out :=
  s.device fun g => g.teamWord p (a.run 2 ++ b.run 2 ++ c.run 8) (laneReads [c + 6]
      ((if na = 0 then [] else a.run 2) ++ (if nc = 0 then [] else b.run 2) ++ c.run 8)) fun g wg j ms act =>
    let on := act.filterMap fun t => (g.thread? t).map fun th => (t, th)
    let el := electedOf on
    let n := na.toNat
    let m := nc.toNat
    match g.wg? wg with
    | none => (g, fun _ => .done)
    | some w =>
      let core := w.core?.getD 0
      match voteFormat on (c + 6) with
      | .error k => (g, fun _ => .trap k)
      | .ok _ =>
        let ms := electFirst act ms
        match g.readTable ms w core n (el.pair a) with
        | (g, .error f) => (g, fun _ => f)
        | (g, .ok ab) =>
          match g.readTable ms w core m (el.pair b) with
          | (g, .error f) => (g, fun _ => f)
          | (g, .ok cb) =>
            match forkTables n m (el.reg (c + 7)) ab cb with
            | none => (g, fun _ => .trap (.of .engineForm))
            | some (at_, ct) =>
              let held := fun (k : SeqKind) => ((g.core core).seq k).isSome
              let hot := (if n = 0 then [] else hotLanes .arr on) ++ (if m = 0 then [] else hotLanes .copy on)
              if ((w.team? j).bind Team.fork).isSome then (g, fun _ => .trap (.of .engineBusy))
              else if n ≠ 0 && held .array then (g, fun _ => .wait (.array (.sequencer .array)))
              else if m ≠ 0 && held .copy then (g, fun _ => .wait (.array (.sequencer .copy)))
              else if !hot.isEmpty then (g, if n ≠ 0 && !(hotLanes .arr on).isEmpty then fullFate hot .arr else fullFate hot .copy)
              else
                let rs := el.regsFrom c 8
                let x7 := (el.reg (c + 7)).toNat
                let id := g.nextId
                let g := if n = 0 then g else g.startSeq w j core .array act at_ rs (x7 / 256 % 256)
                let g := if m = 0 then g else g.startSeq w j core .copy act ct rs (x7 % 256)
                let fs : ForkSt := { ids := (List.range (g.nextId - id)).map (id + ·), arr := n != 0, copy := m != 0, fault := none }
                (g.modWg wg fun w => w.modTeam j fun t => { t with fork := some fs }, fun _ => .done)

/-- `rdv` (R266): the team waits until its sequencers have finished and their counts have retired; a failed check then
traps. -/
def execRdv (p : Pfx) (s : State) : Out :=
  s.device fun g => g.teamWord p [] (laneReads [] []) fun g wg j ms _ =>
    match ((g.wg? wg).bind fun w => w.team? j).bind Team.fork with
    | none => (g, fun _ => .done)
    | some f =>
      let owing := ms.any fun t => (g.thread? t).any fun th => th.outst.any fun o => f.ids.contains o.id
      if f.arr || f.copy || owing then (g, fun _ => .wait (.rendezvous f.ids))
      else match f.fault with
        | some i => (g, fun _ => .trap ⟨.engineFault, i, 0, false⟩)
        | none => (g.modWg wg fun w => w.modTeam j fun t => { t with fork := none }, fun _ => .done)

/-! ### States performed (R264, R265) -/

/-- What a state's operation comes to: it waits, it fails a check, or it is issued (with its number, if there is one). -/
inductive EngIssue
  | stall (g : Gpu)
  | fail (g : Gpu) (k : Trap)
  | issued (g : Gpu) (id : Option Nat)

/-- Counter values of a sequencer. -/
def Seq.ctr (s : Seq) (i : Nat) : Nat := s.ctrs.getD i 0

/-- The address index v of a state (R264). -/
def Seq.slot (s : Seq) (e : EState) : Nat := s.ctr e.ix % e.ring

/-- AMMA or AMMS as `amma` or `amms` (R264): the checks of R235, the stalls, and the issue. -/
def Gpu.engMma (g : Gpu) (s : Seq) (w : Wg) (core : Nat) (e : EState) : EngIssue :=
  let bit := fun (i : Nat) => e.arg / 2 ^ i % 2 == 1
  let pair := bit 1
  let tall := bit 2
  let n := if tall then 16 else 8
  let on := s.lanes.filterMap fun t => (g.thread? t).map fun th => (t, th)
  if (pair && e.tile % 2 = 1) || e.areg % n ≠ 0 || (tall && !pair) then .fail g (.of .illegal)
  else if w.regs < e.areg + n then .fail g (.of .regRange)
  else
    let fmt : Except Trap Fmw := match fmwOf s.fmt with | some f => .ok f | none => .error (.of .arrayFormat)
    match mmaReq w s.team on (e.op == 3) pair tall (bit 0) (bit 3) e.tile (BitVec.ofNat 8 e.areg) (e.off + s.slot e * e.size * 64) fmt with
    | .error k => .fail g k
    | .ok r =>
      let r := { r with counts := false }
      match g.arrStop w s.team core w.ctx [] r with
      | (g, .error (.trap k)) => .fail g k
      | (g, .error _) => .stall g
      | (g, .ok ls) => let id := g.nextId; .issued (g.arrIssue w s.team core s.lanes r ls) (some id)

/-- AZERO as `azero` (R264). -/
def Gpu.engZero (g : Gpu) (s : Seq) (w : Wg) (core : Nat) (e : EState) : EngIssue :=
  match w.tileNo e.tile with
  | .error k => .fail g k
  | .ok n =>
    let r := ArrReq.plain (.zero n) false
    match g.arrStop w s.team core w.ctx [] r with
    | (g, .error (.trap k)) => .fail g k
    | (g, .error _) => .stall g
    | (g, .ok ls) => let id := g.nextId; .issued (g.arrIssue w s.team core s.lanes r ls) (some id)

/-- A fault record that a sequencer's check joined, made to wait for its own operation and not for a thread (R265). -/
def Gpu.faultForSeq (g : Gpu) (part n id : Nat) : Gpu :=
  let fix := fun (r : FaultRec) => if r.seq = n then { r with lanes := r.lanes.dropLast, ops := if r.ops.contains id then r.ops else r.ops ++ [id] } else r
  g.modPart part fun p => { p with faults := p.faults.map fix }

/-- ACP as `acp` (R264): the checks of Table 7.1, then the copy; a replayable fault is served first, and a refused one
fails. -/
def Gpu.engCopy (g : Gpu) (s : Seq) (w : Wg) (core : Nat) (e : EState) : EngIssue :=
  let n := e.size * 64
  let src := s.src + BitVec.ofNat 64 (s.ctr e.ix * n)
  let dst := scratchAddr (e.off + s.slot e * n)
  let bars := if e.arg = 0xFFFF then [] else [(scratchAddr (16 * e.arg), 16, 16)]
  let all := ([(src, 4, max n 4), (dst, 4, max n 4)] ++ bars).map fun (y : DWord × Nat × Nat) => checkAddr .any y.2.1 true y.2.2 w.scratchLen y.1
  match ((firstErr all .address).orElse fun _ => firstErr all .alignment).orElse fun _ => firstErr all .scratchRange with
  | some (.trap k) => .fail g k
  | some _ => .stall g
  | none =>
    let shape := Shape.rows n 1 0 0
    if !shape.ok false then .fail g (.of .copyShape)
    else
      match Gpu.reachEach s.elected core w.ctx .read g (inMemory [(src, n)]) with
      | (g', .error f) =>
        match f with
        | .trap k => .fail g' k
        | .wait (.fault part m _ _) =>
          if (g.op? s.fork).any Op.refused then .fail g (transTrap .read false src)
          else .stall (g'.faultForSeq part m s.fork)
        | .hold (.fill l) => .stall (g'.wantFill (g'.deadlineWg w.id) l)
        | _ => .stall g'
      | (g, .ok ls) =>
        let cp : Copy := { src := src, dst := dst, dwg := w.id, shape := shape, tb := if e.arg = 0xFFFF then none else some (16 * e.arg),
                           sc := .core }
        let id := g.nextId
        .issued (g.newOp s.elected [] none (.copy cp) ls) (some id)

/-- A state's operation (R264). -/
def Gpu.engIssue (g : Gpu) (s : Seq) (w : Wg) (core : Nat) (e : EState) : EngIssue :=
  if e.op = 2 || e.op = 3 then g.engMma s w core e
  else if e.op = 4 then g.engZero s w core e
  else if e.op = 0x10 then g.engCopy s w core e
  else .issued g none

/-- A sequencer stopped (R265). -/
def Gpu.stopSeq (g : Gpu) (core : Nat) (k : SeqKind) : Gpu := (g.modSeq core k fun s => { s with ended := true }).endSeq core k

/-- INFO of an engine fault (Table 14.4). -/
def engineInfo (k : SeqKind) (idx : Nat) (kind : BitVec 8) : BitVec 16 :=
  BitVec.ofBool (k == .copy) ++ (0 : BitVec 2) ++ BitVec.ofNat 5 idx ++ kind

/-- A failed check recorded in the team's fork, once, and the sequencer stopped (R265). -/
def Gpu.failSeq (g : Gpu) (core : Nat) (k : SeqKind) (s : Seq) (t : Trap) : Gpu :=
  let note := fun (f : ForkSt) => if f.fault.isSome then f else { f with fault := some (engineInfo k s.idx t.kind.code) }
  (g.modWg s.wg fun w => w.modTeam s.team fun tm => { tm with fork := tm.fork.map note }).stopSeq core k

/-- What follows a state's operation (R264, steps 1 and 3 to 5). -/
def Seq.advance (s : Seq) (e : EState) (id : Option Nat) : Seq :=
  let ctrs := if e.inc then s.ctrs.set e.incC ((s.ctr e.incC + 1) % 2 ^ 32) else s.ctrs
  let again := e.loop && decide (ctrs.getD e.loopC 0 < (s.limits.getD e.loopC 0).toNat)
  { s with
    take := if e.wait then s.take + 1 else s.take
    ctrs := ctrs
    ops := s.ops ++ id.toList
    posts := if e.post then s.posts ++ id.toList else s.posts
    idx := if again then e.jmp else e.next
    ended := e.op == 0 }

/-- One state of a sequencer (R264); none when it can do nothing now. -/
def Gpu.engineStep (g : Gpu) (core : Nat) (k : SeqKind) : Option Gpu :=
  match (g.core core).seq k with
  | none => none
  | some s =>
    match g.wg? s.wg, s.tab[s.idx]? with
    | some w, some e =>
      let faulty := (((w.team? s.team).bind Team.fork).bind ForkSt.fault).isSome
      if s.ended || g.faulted s.fork then none
      else if faulty then some (g.stopSeq core k)
      else if e.wait && s.other ≤ s.take then none
      else
        let cur := g.cur
        match ({ g with cur := { cur with pc := s.pc, word := s.word } } : Gpu).engIssue s w core e with
        | .stall g' => let g' := { g' with cur := cur }; if g' = g then none else some g'
        | .fail g' t => some (({ g' with cur := cur } : Gpu).failSeq core k s t)
        | .issued g' id =>
          let g' := { g' with cur := cur }
          let g' := match id with
            | some i => g'.modOp i fun o => { o with bySeq := some k }
            | none => g'
          let g' := g'.modSeq core k fun s => s.advance e id
          let g' := if e.post && id.isNone then g'.postSeq core k else g'
          some (g'.endSeq core k)
    | _, _ => none

/-- ENGINE_STATE_STEP (R264). -/
def execEngineStateStep (core : Nat) (seq : SeqKind) (s : State) : Out := s.device fun g => (g.engineStep core seq).getD g

end Sys2Proof.Machine
end

