-- ==== Sys2Proof/Machine/March.lean ====
section
/-! DEFINITION. Scene structures (09 R270 to R273), the march over them and its suspension (09 R285 to R291), the tile
pre-pass (09 R295 to R298), and the raster's geometry (09 R300 to R302). -/

namespace Sys2Proof.Machine

open Sys2Proof

/-! ### Scene structures -/

/-- A scene descriptor read (R270): reason 0x1 when it is invalid. -/
def readScene (r : Reader) (a : DWord) : RD Scene := do
  let h ← rdBytes r false a 64 64
  let s : Scene := { dmax := field h 2 1, eps := wordAt h 4, nodes := dwordAt h 8, nnode := field h 16 4, ninst := field h 20 4,
                     inst := dwordAt h 24, budget := field h 32 4 }
  let epsOk := match fv s.eps with | .fin n q => !n || q == 0 | _ => false
  let cnt := fun (n : Nat) => 1 ≤ n && decide (n ≤ 2 ^ 24)
  if field h 0 2 ≠ 1 ∨ 12 < s.dmax ∨ !epsOk ∨ s.nodes.toNat % 32 ≠ 0 ∨ !cnt s.nnode ∨ !cnt s.ninst ∨ s.inst.toNat % 64 ≠ 0 ∨
      !cnt s.budget ∨ !zeroAt h 3 1 ∨ !zeroAt h 0x26 2 ∨ !zeroAt h 0x30 16 then throw (.reason 1)
  pure s

/-- A node (Table 9.2). -/
structure SNode where
  lo   : List Word
  hi   : List Word
  link : Nat
  kind : Nat
  deriving DecidableEq, Repr

/-- A node read (R271): reason 0x2 when it is invalid. -/
def readNode (r : Reader) (s : Scene) (n : Nat) : RD SNode := do
  let h ← rdBytes r false (s.nodes + BitVec.ofNat 64 (32 * n)) 32 32
  let x : SNode := { lo := wordsOfBytes h 3, hi := wordsOfBytes (h.drop 12) 3, link := field h 24 4, kind := field h 28 4 }
  if 2 < x.kind ∨ (x.kind = 0 ∧ s.nnode ≤ x.link + 1) ∨ (x.kind = 1 ∧ s.ninst ≤ x.link) then throw (.reason 2)
  pure x

/-- An instance record read (R272): reason 0x3 when it is invalid. -/
def readInst (r : Reader) (s : Scene) (i : Nat) : RD Inst := do
  let h ← rdBytes r false (s.inst + BitVec.ofNat 64 (64 * i)) 64 64
  let x : Inst := { xf := wordsOfBytes h 12, prog := dwordAt h 0x30, ident := wordAt h 0x38, kind := field h 0x3C 1, opid := field h 0x3E 2 }
  if 2 < x.kind ∨ !zeroAt h 0x3D 1 ∨ (x.kind ≠ 2 ∧ x.prog.toNat % 64 ≠ 0) then throw (.reason 3)
  pure x

/-- The program of an instance: its object, or `bsample` over its brick set (R273). -/
def instProg (r : Reader) (x : Inst) : RD Prog :=
  if x.kind = 1 then pure { code := [0x30, 0x00], consts := [], bset := x.prog } else readProg r x.prog

/-! ### Rays -/

/-- A row of a transform applied to a world vector (R273). -/
def rowX (row : List Word) (v : List Word) (w : Bool) : Word :=
  let t := fun (i : Nat) => xmul (.ofW (row.getD i 0)) (.ofW (v.getD i 0))
  let s := xadd (xadd (t 0) (t 1)) (t 2)
  (if w then xadd s (.ofW (row.getD 3 0)) else s).word

/-- o′ and d′ of an instance (R273). -/
def objRay (x : Inst) (ray : List Word) : List Word × List Word :=
  let rows := [x.xf, x.xf.drop 4, x.xf.drop 8]
  (rows.map fun q => rowX q ray true, rows.map fun q => rowX q (ray.drop 3) false)

/-- A bound of an exact value; a NaN has none. -/
def XV.bound : XV → Option EB
  | .nan => none
  | .inf n => some (if n then .ninf else .pinf)
  | .val x _ => some (.fin x)

/-- The point o + t·d as a bound, 0 × ±∞ counted as 0 (a degenerate direction does not move). -/
def rayPoint (o d t : Word) : Option EB :=
  let m := match XV.ofW d with
    | .val x _ => if x = 0 then .val 0 false else xmul (.ofW t) (.ofW d)
    | _ => xmul (.ofW t) (.ofW d)
  (xadd (.ofW o) m).bound

/-- The interval base coordinate of an axis over a segment (R278); one that is not a number is the whole line (R81). -/
def segIv (o d a b : Word) : VVal :=
  match rayPoint o d a, rayPoint o d b with
  | some p, some q =>
    let l := (p.min q).word .rd
    let h := (p.max q).word .ru
    .ofIv (ivRead l h)
  | _, _ => .ofIv .whole

/-- The affine base coordinate of an axis over a segment (R84, R278). -/
def segAff (axis : Nat) (o d a b : Word) : VVal :=
  if [o, d, a, b].any fun w => !(fv w).isFin then .aff .whole
  else
    let m := roundW .rn ((ratW a + ratW b) / 2)
    let h := roundW .ru (max (ratW b - ratW m) (ratW m - ratW a))
    if !(fv m).isFin || !(fv h).isFin then .aff .whole
    else
      let ec := ratW o + ratW m * ratW d
      let ex := ratW h * ratW d
      let c := roundW .rn ec
      let x0 := roundW .rn ex
      if !(fv c).isFin || !(fv x0).isFin then .aff .whole
      else
        let e := roundW .ru (|ec - ratW c| + |ex - ratW x0|)
        .aff (Aff.mk' c (x0 :: (List.range 3).map fun i => if i = axis then e else 0) 0)

/-- The base frame over a segment (R278). -/
def segFrame (aff : Bool) (o d : List Word) (a b : Word) : Frame :=
  let f := fun (i : Nat) => if aff then segAff i (o.getD i 0) (d.getD i 0) a b else segIv (o.getD i 0) (d.getD i 0) a b
  ⟨f 0, f 1, f 2⟩

/-! ### The slab test (R286) -/

/-- One axis of Slab: near and far, or empty. -/
def slabAxis (lo hi o d : Word) : Option (EB × EB) :=
  let whole := some (EB.ninf, EB.pinf)
  let l := fv lo
  let h := fv hi
  if l.isNan || h.isNan then whole
  else if h.lt l then none
  else if (fv d).isZero then (if !(fv o).lt l && !h.lt (fv o) then whole else none)
  else
    let q := fun (w : Word) => (xdiv (xsub (.ofW w) (.ofW o)) (.ofW d)).bound
    match q lo, q hi with
    | some x, some y => some (x.min y, x.max y)
    | _, _ => whole

/-- Slab(n): en and ex (R286). -/
def slab (x : SNode) (ray : List Word) : Option (EB × EB) :=
  (List.range 3).foldl (fun s i => s.bind fun s =>
    (slabAxis (x.lo.getD i 0) (x.hi.getD i 0) (ray.getD i 0) (ray.getD (i + 3) 0)).map fun a => (s.1.max a.1, s.2.min a.2))
    (some (.ninf, .pinf))

/-- The lesser and the greater of two F32 words that are not NaN. -/
def minW (a b : Word) : Word := if (fv b).lt (fv a) then b else a
/-- The greater. -/
def maxW (a b : Word) : Word := if (fv a).lt (fv b) then b else a

/-- Slab intersected with [t0, tf]: en rounded RD, ex rounded RU. -/
def slabIn (x : SNode) (ray : List Word) (tf : Word) : Option (Word × Word) :=
  (slab x ray).bind fun s =>
    let en := maxW (ray.getD 6 0) (s.1.word .rd)
    let ex := minW tf (s.2.word .ru)
    if (fv ex).lt (fv en) then none else some (en, ex)

/-- Entry(c) of a child (R286). -/
def entryOf (x : SNode) (ray : List Word) (tf : Word) : EB :=
  if x.kind = 2 || (slabIn x ray tf).isNone then .pinf
  else match slab x ray with
    | some s => (EB.ofFV (fv (s.1.word .rd))).getD .pinf
    | none => .pinf

/-! ### The march (R286, R287) -/

/-- How a march ends: with a status and its words, or suspended at an opaque point. -/
inductive MEnd
  | ended (ws : List Word)
  | susp (node : Nat) (a b ident : Word) (m : MState)
  deriving DecidableEq, Repr

/-- The token words of a status (Table 9.8). -/
def markWords (status : Nat) (a b ident : Word) : List Word := [BitVec.ofNat 32 status, a, b, ident]

/-- The words of a fault (Table 9.9). -/
def faultWords (reason : Nat) : List Word := [BitVec.ofNat 32 (5 + 65536 * reason), 0, 0, 0xFFFFFFFF]

/-- The end of a march without a stop (R287). -/
def MState.finish (m : MState) : MEnd :=
  .ended (match m.best with
    | none => markWords 0 m.tf 0 0xFFFFFFFF
    | some b => markWords (if b.inside then 2 else 1) b.a b.b b.ident)

/-- The end at BUDGET (R288). -/
def MState.overBudget (m : MState) : MEnd :=
  .ended (match m.best with
    | none => markWords 4 0x7F800000 0 0xFFFFFFFF
    | some b => markWords 4 b.a 0 b.ident)

/-- One step counted (R291). -/
def MState.count (m : MState) : MState := { m with steps := m.steps + 1 }

/-- A candidate of an instance found: the instance ends, and best may change (R287). -/
def MState.candidate (m : MState) (inside : Bool) (a b ident : Word) : MState :=
  let m := { m with ev := none }
  if (fv a).lt (fv m.tf) then { m with best := some ⟨inside, a, b, ident⟩, tf := a } else m

/-- A segment's F applied (R287). -/
def MState.applyF (m : MState) (ev : InstEval) (s : Sgm) (f : Iv) : MState :=
  let rest := { m with ev := some { ev with cur := none, vm := none } }
  match f with
  | none => rest
  | some (lo, hi) =>
    if (EB.fin 0).lt lo then rest
    else if hi.lt (.fin 0) then m.candidate true s.a s.b ev.inst.ident
    else
      let w := (xsub (.ofW s.b) (.ofW s.a)).bound.getD .pinf
      let wr := fv (w.word .ru)
      if s.q = m.scene.dmax || wr.lt (fv m.scene.eps) then m.candidate false s.a s.b ev.inst.ident
      else
        let mid := (ivSplitX (ivRead s.a s.b)).1.2
        { m with ev := some { ev with cur := none, vm := none, segs := ⟨s.a, mid, s.q + 1⟩ :: ⟨mid, s.b, s.q + 1⟩ :: ev.segs } }

/-- The mode of a march. -/
def MState.mode (m : MState) : VMode := if m.aff then .aff else .iv

/-- An evaluation of a segment taken up: its F, or its suspension. -/
def MState.evalSeg (r : Reader) (m : MState) (ev : InstEval) (s : Sgm) (v : Vm) : RD (MState ⊕ MEnd) := do
  let p ← instProg r ev.inst
  match ← v.run r p m.mode (p.code.length + 1) with
  | .result x => return .inl (m.applyF ev s x.toIv)
  | .opq node v => return .inr (.susp node s.a s.b ev.inst.ident { m with ev := some { ev with cur := some s, vm := some v } })
  | .more _ => throw (.reason 4)

/-- A node popped (R286). -/
def MState.node (r : Reader) (m : MState) (n : Nat) : RD MState := do
  let x ← readNode r m.scene n
  match slabIn x m.ray m.tf with
  | none => pure m
  | some (en, ex) =>
    if x.kind = 2 then pure m
    else if x.kind = 0 then
      let c1 ← readNode r m.scene x.link
      let c2 ← readNode r m.scene (x.link + 1)
      let first2 := (entryOf c2 m.ray m.tf).lt (entryOf c1 m.ray m.tf)
      let st := if first2 then (x.link + 1) :: x.link :: m.stack else x.link :: (x.link + 1) :: m.stack
      if 64 < st.length then throw (.reason 2)
      pure { m with stack := st }
    else
      let i ← readInst r m.scene x.link
      let od := objRay i m.ray
      if i.kind ≠ 2 then let _ ← instProg r i
      pure { m with ev := some { inst := i, o := od.1, d := od.2, segs := [⟨en, ex, 0⟩], cur := none, vm := none } }

/-- The march run on (R286, R287): `fuel` bounds the steps, the ends of instances included. -/
def MState.run (r : Reader) : Nat → MState → RD MEnd
  | 0, m => pure m.overBudget
  | fuel + 1, m =>
    match m.ev with
    | none =>
      match m.stack with
      | [] => pure m.finish
      | n :: st => do
        let m := { m.count with stack := st }
        if m.scene.budget < m.steps then pure m.overBudget
        else MState.run r fuel (← m.node r n)
    | some ev =>
      match ev.segs with
      | [] => MState.run r fuel { m with ev := none }
      | s :: segs => do
        let m := m.count
        let ev := { ev with segs := segs }
        if m.scene.budget < m.steps then pure m.overBudget
        else if ev.inst.kind = 2 then
          pure (.susp ev.inst.opid s.a s.b ev.inst.ident { m with ev := some { ev with cur := some s, vm := none } })
        else
          match ← m.evalSeg r ev s (.start (segFrame m.aff ev.o ev.d s.a s.b)) with
          | .inl m => MState.run r fuel m
          | .inr e => pure e

/-- Fuel for the rest of a march: its steps, and one end of an instance for each. -/
def MState.fuel (m : MState) : Nat := 2 * (m.scene.budget - m.steps) + 4

/-- A NaN among the ray's registers, or t0 > t1 (R285). -/
def deadRay (ray : List Word) : Bool :=
  ray.any (fun w => (fv w).isNan) || (fv (ray.getD 7 0)).lt (fv (ray.getD 6 0))

/-- A march from its start (R285, R286). -/
def marchFrom (r : Reader) (aff : Bool) (ray : List Word) (desc : DWord) : RD MEnd := do
  if deadRay ray then return .ended (markWords 0 (ray.getD 7 0) 0 0xFFFFFFFF)
  let s ← readScene r desc
  let m : MState := { aff := aff, ray := ray, scene := s, stack := [0], best := none, tf := ray.getD 7 0, steps := 0, ev := none }
  m.run r m.fuel

/-- A suspended march resumed with a value (R289). -/
def MState.resume (r : Reader) (m : MState) (lo hi : Word) : RD MEnd := do
  let v : Iv := (ivRead lo hi).elim .whole some
  match m.ev with
  | none => m.run r m.fuel
  | some ev =>
    match ev.cur with
    | none => m.run r m.fuel
    | some s =>
      match ev.vm with
      | none => let m := m.applyF ev s v; m.run r m.fuel
      | some vm =>
        match ← m.evalSeg r ev s { vm with stack := .ofIvIn m.mode v :: vm.stack } with
        | .inl m => m.run r m.fuel
        | .inr e => pure e

/-- `mqry` (R289): the current frame over the suspended segment, or the object ray, and the segment. -/
def MState.query (m : MState) (ray : Bool) : List Word :=
  match m.ev with
  | none => List.replicate 8 0
  | some ev =>
    let s := ev.cur.getD ⟨0, 0, 0⟩
    if ray then ev.o ++ ev.d ++ [s.a, s.b]
    else
      let f := match ev.vm with
        | some v => v.frame
        | none => segFrame m.aff ev.o ev.d s.a s.b
      let pr := fun (v : VVal) => let p := ivWrite v.toIv; [p.1, p.2]
      pr f.x ++ pr f.y ++ pr f.z ++ [s.a, s.b]

/-! ### The pre-pass (R295 to R298) -/

/-- A recorded `min`, `max`, `smin` or `smax` (R295): its byte and its operand intervals. -/
abbrev PrepRec := Nat × Iv × Iv

/-- The program evaluated once in interval mode with its two-operand choices recorded (R295). -/
def prepEval (r : Reader) (p : Prog) : Nat → List PrepRec → Vm → RD (List PrepRec)
  | 0, _, _ => throw (.reason 4)
  | fuel + 1, acc, v => do
    let acc := if [0x16, 0x17, 0x1B, 0x1C].contains (p.at_ v.pc) then
        match v.stack with
        | b :: a :: _ => acc ++ [(v.pc, a.toIv, b.toIv)]
        | _ => acc
      else acc
    match ← v.op r p .iv with
    | .more v => prepEval r p fuel acc v
    | .result _ => pure acc
    | .opq _ v => prepEval r p fuel acc { v with stack := .ofIv .whole :: v.stack }

/-- The bytes at which the operations before byte `stop` start. -/
def Prog.starts (p : Prog) (stop : Nat) : Nat → Nat → List Nat
  | 0, _ => []
  | fuel + 1, q => if stop ≤ q then [] else
    match vInfo (p.at_ q) with
    | none => []
    | some i => q :: p.starts stop fuel (q + 1 + i.imm)

/-- Whether the operations at the listed bytes form a self-contained span that leaves one value (R296). -/
def Prog.spanOk (p : Prog) : List Nat → Int → Int → Bool
  | [], d, f => d == 1 && f == 0
  | q :: qs, d, f =>
    match vInfo (p.at_ q) with
    | none => false
    | some i =>
      let code := p.at_ q
      let low := d - i.pops
      let d' := low + i.push
      let f' := if code = 0x20 then f + 1 else if code = 0x21 then f - 1 else f
      decide (0 ≤ low) && decide (0 ≤ d') && decide (0 ≤ f') && p.spanOk qs d' f'

/-- The start of the shortest operand range that ends before byte q (R296). -/
def Prog.rangeBefore (p : Prog) (q : Nat) : Option Nat :=
  let ss := p.starts q (p.code.length + 1) 0
  ss.reverse.find? fun j => p.spanOk (ss.filter fun s => j ≤ s) 0 0

/-- A difference of bounds rounded RD, for the comparison of Table 9.12. -/
def diffAtLeast (a b : EB) (rho : Rat) : Bool :=
  match a, b with
  | .fin x, .fin y => match EB.ofFV (fv (roundW .rd (x - y))) with
    | some d => (EB.fin rho).le d
    | none => false
  | .pinf, .pinf => false
  | .ninf, .ninf => false
  | .pinf, _ => true
  | _, .ninf => true
  | _, _ => false

/-- Table 9.12: keep B (false), keep A (true), or no decision. -/
def prepDecide (p : Prog) (x : PrepRec) : Option Bool :=
  match x.2.1, x.2.2 with
  | some a, some b =>
    let code := p.at_ x.1
    let rho := if code = 0x1B || code = 0x1C then rhoOf (p.consts.getD (p.k x.1) 0) else none
    let isMin := code = 0x16 || code = 0x1B
    match rho with
    | none =>
      if isMin then (if b.2.le a.1 then some false else if a.2.le b.1 then some true else none)
      else (if a.2.le b.1 then some false else if b.2.le a.1 then some true else none)
    | some q =>
      if isMin then (if diffAtLeast a.1 b.2 q then some false else if diffAtLeast b.1 a.2 q then some true else none)
      else (if diffAtLeast b.1 a.2 q then some false else if diffAtLeast a.1 b.2 q then some true else none)
  | _, _ => none

/-- A decision's removed bytes: the operation, and the range of the operand it discards. -/
structure PrepCut where
  at_ : Nat
  lo  : Nat
  hi  : Nat
  deriving DecidableEq, Repr

/-- The decided operations of a program (R296, R297). -/
def prepCuts (p : Prog) (recs : List PrepRec) : List PrepCut :=
  recs.filterMap fun x =>
    match p.rangeBefore x.1 with
    | none => none
    | some j =>
      match p.rangeBefore j with
      | none => none
      | some i => (prepDecide p x).map fun keepA => if keepA then ⟨x.1, j, x.1⟩ else ⟨x.1, i, j⟩

/-- The output program and the number of decisions counted (R297, R298). -/
def prepOutput (p : Prog) (cuts : List PrepCut) : List Byte × Nat :=
  let size := fun (q : Nat) => 1 + ((vInfo (p.at_ q)).map VInfo.imm).getD 0
  let gone := fun (q : Nat) => cuts.any fun c => (c.lo ≤ q && q < c.hi) || (c.at_ ≤ q && q < c.at_ + size c.at_)
  let code := ((p.code.zipIdx).filter fun x => !gone x.2).map (·.1)
  (code, (cuts.filter fun c => !(cuts.any fun d => d.lo ≤ c.at_ && c.at_ < d.hi)).length)

/-- `prep` (R295, R298): the token and the bytes to write, none on failure. -/
def prepRun (r : Reader) (addr : DWord) (box : List Word) (cap : Nat) : RD (Word × Option (List Byte)) := do
  let h ← rdBytes r false addr 16 64
  let p ← readProg r addr
  let recs ← prepEval r p (p.code.length + 1) [] (.start (boxFrame box))
  let (code, n) := prepOutput p (prepCuts p recs)
  let len := 16 + 4 * p.consts.length + code.length
  if cap < len then pure (0x80000007, none)
  else
    let out := h.take 2 ++ bytesOfNat 2 code.length ++ (h.drop 4).take 12 ++ bytesOfWords p.consts ++ code
    pure (BitVec.ofNat 32 (65536 * n + len), some out)

/-- `veval` (R293): the four words. -/
def vevalRun (r : Reader) (iv : Bool) (addr : DWord) (xs : List Word) : RD (List Word) := do
  let p ← readProg r addr
  let m := if iv then VMode.iv else .pt
  let opq := if iv then VVal.ofIv .whole else .pt 0x7FC00000
  let (v, met) ← evalThrough r p m opq (p.code.length + 1) false (.start (if iv then boxFrame xs else pointFrame xs))
  let st : Word := if met then 8 else 0
  match v with
  | .pt w => pure [w, w, st, 0]
  | v => let q := ivWrite v.toIv; pure [q.1, q.2, st, 0]

/-- `bfetch` (R294). -/
def bfetchRun (r : Reader) (hdr : DWord) (xs : List Word) : RD (List Word) := do
  let b ← readBSet r hdr
  sampleAt r b (xs.getD 0 0) (xs.getD 1 0) (xs.getD 2 0)

/-! ### Raster (R300 to R302) -/

/-- A raster descriptor's fields, when it is valid (R300). -/
def rdescOf (h : List Byte) : Option RDesc :=
  let fl := field h 2 2
  let d : RDesc := {
    dmode := fl % 4, lequal := fl / 4 % 2 == 1, cull := fl / 8 % 4, ntri := field h 4 4, vert := dwordAt h 8,
    depth := dwordAt h 0x10, pitch := field h 0x18 4, node := field h 0x1C 1, x0 := field h 0x20 2, y0 := field h 0x22 2,
    x1 := field h 0x24 2, y1 := field h 0x26 2, tag := wordAt h 0x28 }
  if field h 0 2 ≠ 1 || d.dmode == 3 || d.cull == 3 || fl / 32 ≠ 0 || d.ntri == 0 || decide (2 ^ 24 < d.ntri) || d.vert.toNat % 16 ≠ 0 ||
     d.depth.toNat % 128 ≠ 0 || d.pitch % 4 ≠ 0 || decide (d.x1 < d.x0) || decide (16384 < d.x1) || decide (d.y1 < d.y0) ||
     decide (16384 < d.y1) || !zeroAt h 0x1D 3 || !zeroAt h 0x2C 20 then none
  else some d

/-- A triangle with finite X and Y that is not discarded: A and its stored vertices as (x, y). -/
def triArea (d : RDesc) (vs : List (Word × Word × Word)) : Option (Rat × List (Rat × Rat)) :=
  if vs.any fun v => !(fv v.1).isFin || !(fv v.2.1).isFin then none
  else
    let ps := vs.map fun v => (ratW v.1, ratW v.2.1)
    let p := fun (i : Nat) => ps.getD i (0, 0)
    let a := ((p 1).1 - (p 0).1) * ((p 2).2 - (p 0).2) - ((p 2).1 - (p 0).1) * ((p 1).2 - (p 0).2)
    if a = 0 ∨ (d.cull = 1 ∧ 0 < a) ∨ (d.cull = 2 ∧ a < 0) then none else some (a, ps)

/-- Whether an edge's sample covers (R301). -/
def edgeCovers (w v : Rat × Rat) (p : Rat × Rat) : Bool :=
  let dx := v.1 - w.1
  let dy := v.2 - w.2
  let e := dx * (p.2 - w.2) - dy * (p.1 - w.1)
  decide (0 < e) || (decide (e = 0) && (decide (dy < 0) || (decide (dy = 0) && decide (0 < dx))))

/-- Whether a pixel is covered by a triangle (R301). -/
def covers (a : Rat) (ps : List (Rat × Rat)) (x y : Nat) : Bool :=
  let v := fun (i : Nat) => ps.getD i (0, 0)
  let ws := if 0 < a then [v 0, v 1, v 2] else [v 0, v 2, v 1]
  let w := fun (i : Nat) => ws.getD i (0, 0)
  let p : Rat × Rat := ((x : Rat) + 1 / 2, (y : Rat) + 1 / 2)
  edgeCovers (w 0) (w 1) p && edgeCovers (w 1) (w 2) p && edgeCovers (w 2) (w 0) p

/-- β1 and β2 at a pixel's centre (R302). -/
def baryAt (a : Rat) (ps : List (Rat × Rat)) (x y : Nat) : Rat × Rat :=
  let v := fun (i : Nat) => ps.getD i (0, 0)
  let px : Rat := (x : Rat) + 1 / 2
  let py : Rat := (y : Rat) + 1 / 2
  let cross := fun (u w : Rat × Rat) => (u.1 - px) * (w.2 - py) - (w.1 - px) * (u.2 - py)
  (cross (v 2) (v 0) / a, cross (v 0) (v 1) / a)

/-- The depth of a fragment (R302): the exact weighted sum rounded RN, with an infinite or NaN vertex depth by
IEEE 754. -/
def fragZ (b : Rat × Rat) (z0 z1 z2 : Word) : Word :=
  let t := fun (w : Rat) (z : Word) => xmul (.val w false) (.ofW z)
  (xadd (xadd (t (1 - b.1 - b.2) z0) (t b.1 z1)) (t b.2 z2)).word

/-- The payload of a fragment (Table 9.14). -/
def fragPayload (x y : Nat) (z : Word) (tri : Nat) (b : Rat × Rat) (tag : Word) : List Byte :=
  bytesOfNat 2 x ++ bytesOfNat 2 y ++ bytesOfNat 4 z.toNat ++ bytesOfNat 4 tri ++
  bytesOfNat 4 (roundW .rn b.1).toNat ++ bytesOfNat 4 (roundW .rn b.2).toNat ++ bytesOfNat 4 tag.toNat

/-- The depth test of R299: ordered, −0 equal to +0. -/
def depthPass (le : Bool) (z old : Word) : Bool :=
  let a := fv z
  let b := fv old
  !a.isNan && !b.isNan && (a.lt b || (le && a.eqv b))

end Sys2Proof.Machine
end

