-- ==== Sys2Proof/Machine/Surfaces.lean ====
section
/-! DEFINITION. The marcher's instructions, point and interval queries, the tile pre-pass, depth and raster (09 R269, R285 to
R306), and their events. -/

namespace Sys2Proof.Machine

open Sys2Proof

/-! ### Reading structures (R269, R101) -/

/-- The leaf and the location of a structure's byte in memory, under the translations captured at issue or, where they do not cover it,
made now (R397). -/
def Gpu.structAt (g : Gpu) (o : Op) (a : DWord) : Option (Leaf × Phys) :=
  match region a, g.ctx? (g.env o.owner).ctx with
  | .mem va, some c =>
    match g.leavesWith o.pages o.core c va 1 with
    | .ok ls => (findLeaf ls va).map fun l => (l, l.phys va)
    | .error _ => none
  | _, _ => none

/-- Bytes of a structure at an address: those whose lines the brick-mode region holds come from there, in place of what their home
holds (R101), unless the line is poisoned and reads as zeros (R107, R269). -/
def Gpu.brickBytes (g : Gpu) (o : Op) (a : DWord) (bs : List Byte) : List Byte :=
  bs.zipIdx.map fun x =>
    match (g.structAt o (a + BitVec.ofNat 64 x.2)).bind fun y =>
        if g.poisoned y.2.line then none
        else ((g.core o.core).bricks.find? fun b => b.1 == y.2.line).map fun b => lineByte b.2 (y.2.addr % 128) with
    | some v => v
    | none => x.1

/-- The reader of an operation; brick data comes through the brick-mode region where the core has one (R17, R101). -/
def Gpu.reader (g : Gpu) (o : Op) : Reader := fun brick a n al =>
  match g.readAt o.owner o.refused o.got o.pages a n al with
  | .ok bs p => .ok (if brick && (g.core o.core).brick != 0 && !(g.core o.core).bricks.isEmpty then g.brickBytes o a bs else bs) p
  | r => r

/-- Lines that a `bfetch` read, brought into the brick-mode region where the core has one (R17, R101): those of pages that L1 may hold
(R95), of no peer, and not poisoned (R107). Which line leaves a full region is not stated: the oldest (log 16). -/
def Gpu.fillBricks (g : Gpu) (o : Op) (seen : List DWord) : Gpu :=
  if (g.core o.core).brick = 0 then g
  else
    let fits := fun (x : Leaf × Phys) => x.1.attr.inL1 && !g.poisoned x.2.line && match x.2.sp with | .peer _ _ => false | _ => true
    let keys := (((seen.filterMap (g.structAt o)).filter fits).map fun x => x.2.line).dedup
    let add := fun (c : CoreSt) =>
      let bs := c.bricks ++ (keys.filter fun k => !(c.bricks.any fun b => b.1 == k)).map fun k => (k, lineOf (g.homeLine k))
      { c with bricks := bs.drop (bs.length - c.brickLines) }
    g.modCore o.core add

/-- The malformed entry that an operation's failed reading met, of its pages or of an endpoint's entry, logged (R393). -/
def Gpu.logFailed (g : Gpu) (o : Op) (x : Option (DWord × Nat)) : Gpu :=
  match x.map fun y => (region y.1, y.2), g.ctx? (g.env o.owner).ctx with
  | some (.mem va, n), some c =>
    match g.leavesWith o.pages o.core c va n with
    | .ok ls => g.logEnds (physOf ls va n)
    | .error _ => g.logWalk c o.core va n
  | _, _ => g

/-- A run of a structure-reading computation: served first, or its outcome with what was read. -/
inductive Ran (α : Type)
  | wait (g : Gpu)
  | out (g : Gpu) (r : Except Nat α) (log : RLog)

/-- A computation run for an operation: a replayable fault joins a record with the operation, peer locations are asked
for, a line waits for a way in L2 (R406). A malformed entry that a failed reading met is logged (R393). -/
def Gpu.runRd {α : Type} (g : Gpu) (o : Op) (m : RD α) : Ran α :=
  match (m.run).run ⟨none, [], none⟩ with
  | (.ok x, l) => .out g (.ok x) l
  | (.error (.reason n), l) => .out (g.logFailed o l.failed) (.error n) l
  | (.error (.peer ps), _) => .wait (g.askFor o ps)
  | (.error (.fill k), _) => .wait (g.wantFill (g.deadlineWg o.owner.wg) k)
  | (.error (.fault va f), _) =>
    match g.ctx? (g.env o.owner).ctx with
    | some c => .wait (g.joinFault c o.core va .read f none (some o.id)).1
    | none => .wait g

/-- An operation's tokens written and its poison trap recorded: it is complete (R128). -/
def Gpu.tokens (g : Gpu) (o : Op) (ws : List Word) (p : Option Nat) : Gpu :=
  ((g.deferPoison o p).landToken o.owner o.id ws).markDone o.id

/-! ### `march`, `mres`, `mqry` (R285 to R290) -/

/-- Orders 2 to 4 and 6 of Table 7.1 for a structure of an operand (R306): the pages that the operation holds (R397). -/
def Gpu.structReach (g : Gpu) (t : TRef) (e : Env) (al n : Nat) (a : DWord) : Gpu × Except Fate (List (Nat × Leaf)) :=
  match g.reach t e.core e.ctx .any al true n .read a with
  | (g, .error f) => (g, .error f)
  | (g, .ok (.mem ls _)) => (g, .ok ls)
  | (g, .ok (.scratch _)) => (g, .ok [])

/-- An abandoned encoding among F32 register operands (R87). -/
def anyAbandoned (ws : List Word) : Bool := ws.any isAbandoned

/-- A literal is no register operand: the words of FB that R87 reads. -/
def Thread.fbWords (th : Thread) (b : SrcB) (n : Nat) : List Word := (b.run n).map th.reg

/-- A free ray slot of a core, by a number that no ray of the thread bears: a moved ray keeps its number (R307). DESIGN CHOICE (log 120):
which free slot a march takes is not stated, and the lowest is taken. -/
def Gpu.freeSlot (g : Gpu) (core : Nat) (t : TRef) : Option Nat :=
  if 64 ≤ (g.rays.filter fun r => r.core == core).length then none
  else ((List.range 64).find? fun s => !(g.rays.any fun r => r.core == core && r.slot == s)).orElse fun _ =>
    (List.range 64).find? fun s => !(g.rays.any fun r => r.owner == t && r.slot == s)

/-- One lane of `march` (R285, R290). -/
def Gpu.marchLane (aff : Bool) (d a : Reg) (b : SrcB) (g : Gpu) (t : TRef) (e : Env) (th : Thread) : Gpu × Fate :=
  let ray := th.regsFrom a 8
  if anyAbandoned ray then (g, .trap (.of .verdict))
  else
    let desc := th.srcD b
    match g.structReach t e 64 64 desc with
    | (g, .error f) => (g, f)
    | (g, .ok ls) =>
      if g.rays.any fun r => r.owner == t && r.susp.isSome then (g, .trap (.of .marchBusy))
      else if 63 ≤ th.count .march then (g, .wait (.counter .march 62))
      else
        match g.freeSlot e.core t with
        | none => (g, .wait .marcher)
        | some slot =>
          let ray1 : Ray := { core := e.core, slot := slot, owner := t, susp := none }
          let g := { g with rays := g.rays ++ [ray1] }
          g.issueOp t th .march (.march aff ray desc slot) ls (d.run 4)

/-- `march` (R285). -/
def execMarch (p : Pfx) (aff : Bool) (d a : Reg) (b : SrcB) (s : State) : Out :=
  s.device fun g => g.laneWord p (d.run 4 ++ a.run 8 ++ b.span true) (Gpu.marchLane aff d a b)

/-- The suspended ray that a status word names, when the thread owns it (R289). -/
def Gpu.suspended (g : Gpu) (core : Nat) (t : TRef) (st : Word) : Option (Nat × MState) :=
  let slot := st.toNat / 16 % 64
  if st.toNat % 16 ≠ 3 then none
  else (g.rays.find? fun r => r.core == core && r.slot == slot && r.owner == t).bind fun r => r.susp.map fun m => (slot, m)

/-- A ray's state replaced. -/
def Gpu.setRay (g : Gpu) (t : TRef) (slot : Nat) (m : Option MState) : Gpu :=
  { g with rays := g.rays.map fun r => if r.owner = t ∧ r.slot = slot then { r with susp := m } else r }

/-- One lane of `mres` and `mres.abort` (R289): `b` is absent with `.abort`. -/
def Gpu.mresLane (d a : Reg) (b : Option SrcB) (g : Gpu) (t : TRef) (e : Env) (th : Thread) : Gpu × Fate :=
  if anyAbandoned ((b.map fun x => th.fbWords x 2).getD []) then (g, .trap (.of .verdict))
  else
    match g.suspended e.core t (th.reg a) with
    | none => (g, .trap (.of .marchSlot))
    | some (slot, m) =>
      if 63 ≤ th.count .march then (g, .wait (.counter .march 62))
      else
        let v := b.map fun x => let w := th.srcD x; ((w.setWidth 32 : Word), ((w >>> 32).setWidth 32 : Word))
        (g.setRay t slot none).issueOp t th .march (.mres slot m v) [] (d.run 4)

/-- `mres` (R289). -/
def execMres (p : Pfx) (d a : Reg) (b : SrcB) (s : State) : Out :=
  s.device fun g => g.laneWord p (d.run 4 ++ [a] ++ b.span true) (Gpu.mresLane d a (some b))

/-- `mres.abort` (R289). -/
def execMresAbort (p : Pfx) (d a : Reg) (s : State) : Out := s.device fun g => g.laneWord p (d.run 4 ++ [a]) (Gpu.mresLane d a none)

/-- One lane of `mqry` (R289): the words of the suspended ray. -/
def Gpu.mqryLane (ray : Bool) (d a : Reg) (g : Gpu) (t : TRef) (e : Env) (th : Thread) : Gpu × Fate :=
  match g.suspended e.core t (th.reg a) with
  | none => (g, .trap (.of .marchSlot))
  | some (slot, m) =>
    let id := g.nextId
    let r := g.issueOp t th .march (.mqry ray slot) [] (d.run 8)
    (r.1.modOp id fun o => { o with result := some [(t, m.query ray)] }, r.2)

/-- `mqry` (R289). -/
def execMqry (p : Pfx) (ray : Bool) (d a : Reg) (s : State) : Out :=
  s.device fun g => g.laneWord p (d.run 8 ++ [a]) (Gpu.mqryLane ray d a)

/-- The OPAQUE words (Table 9.8). -/
def opaqueWords (node slot : Nat) (a b ident : Word) : List Word := [BitVec.ofNat 32 (3 + 16 * slot + 65536 * node), a, b, ident]

/-- The end of a march: its slot freed or its ray suspended, its tokens written, its count retired (R288, R290). -/
def Gpu.endMarch (g : Gpu) (o : Op) (slot : Nat) (r : Except Nat MEnd) (p : Option Nat) : Gpu :=
  let done := fun (g : Gpu) (ws : List Word) => ((g.deferPoison o p).landToken o.owner o.id ws).retireOp o.id
  let free := g.freeRays fun r => r.owner == o.owner && r.slot == slot
  match r with
  | .error n => done free (faultWords n)
  | .ok (.ended ws) => done free ws
  | .ok (.susp node a b ident m) => done (g.setRay o.owner slot (some m)) (opaqueWords node slot a b ident)

/-- A march or `mres` performed (R286 to R289). -/
def Gpu.performMarch (g : Gpu) (o : Op) (slot : Nat) (m : RD MEnd) : Gpu :=
  match g.runRd o m with
  | .wait g => g
  | .out g r l => g.endMarch o slot r l.poison

/-- MARCH_COMPLETE (R288). -/
def execMarchComplete (op : Nat) (s : State) : Out :=
  s.device fun g =>
    match g.op? op with
    | none => g
    | some o =>
      if g.faulted op then g
      else match o.kind with
        | .march aff ray desc slot => g.performMarch o slot (marchFrom (g.reader o) aff ray desc)
        | .mres slot m (some v) => g.performMarch o slot (m.resume (g.reader o) v.1 v.2)
        | .mres slot _ none => g.endMarch o slot (.ok (.ended (markWords 6 0 0 0xFFFFFFFF))) none
        | _ => g

/-! ### `veval`, `bfetch`, `prep`, `zts` (R293 to R299) -/

/-- An operation of one lane whose program or header lies at a pair and whose coordinates are F32 reads. -/
def Gpu.queryLane (a : Reg) (f32 : List Reg) (n : Nat) (token : List Reg) (kind : Thread → OpKind)
    (g : Gpu) (t : TRef) (e : Env) (th : Thread) : Gpu × Fate :=
  if anyAbandoned (f32.map th.reg) then (g, .trap (.of .verdict))
  else
    match g.structReach t e 64 n (th.pair a) with
    | (g, .error f) => (g, f)
    | (g, .ok ls) => g.issueOp t th .march (kind th) ls token

/-- `veval` (R293). -/
def execVeval (p : Pfx) (iv : Bool) (d a b : Reg) (s : State) : Out :=
  let n := if iv then 6 else 3
  s.device fun g => g.laneWord p (d.run 4 ++ a.run 2 ++ b.run n)
    (Gpu.queryLane a (b.run n) 16 (d.run 4) fun th => .veval iv (th.pair a) (th.regsFrom b n))

/-- `bfetch` (R294). -/
def execBfetch (p : Pfx) (d a b : Reg) (s : State) : Out :=
  s.device fun g => g.laneWord p (d.run 4 ++ a.run 2 ++ b.run 3)
    (Gpu.queryLane a (b.run 3) 64 (d.run 4) fun th => .bfetch (th.pair a) (th.regsFrom b 3))

/-- One lane of `prep` (R295, R298): the output's range is checked with the program's address. -/
def Gpu.prepLane (d a b : Reg) (g : Gpu) (t : TRef) (e : Env) (th : Thread) : Gpu × Fate :=
  if anyAbandoned (th.regsFrom b 6) then (g, .trap (.of .verdict))
  else
    let len := ((g.wg? t.wg).map Wg.scratchLen).getD 0
    let prog := th.pair a
    let out := (th.reg (b + 6)).toNat
    let cap := (th.reg (b + 7)).toNat
    let own := [checkAddr .any 64 true 16 len prog]
    let early := (firstErr own .address).orElse fun _ => (firstErr own .alignment).orElse fun _ =>
      if out % 64 ≠ 0 then some (.trap (.at .alignment (windowAddr out))) else (firstErr own .scratchRange).orElse fun _ =>
        if len < out + cap then some (.trap (.at .scratchRange (windowAddr out))) else none
    match early with
    | some f => (g, f)
    | none =>
      match g.structReach t e 64 16 prog with
      | (g, .error f) => (g, f)
      | (g, .ok ls) => g.issueOp t th .march (.prep prog (th.regsFrom b 6) out cap) ls [d]

/-- `prep` (R295). -/
def execPrep (p : Pfx) (d a b : Reg) (s : State) : Out := s.device fun g => g.laneWord p (d :: a.run 2 ++ b.run 8) (Gpu.prepLane d a b)

/-- One lane of `zts` at issue (R299). -/
def Gpu.ztsLane (le : Bool) (d a : Reg) (b : SrcB) (g : Gpu) (t : TRef) (e : Env) (th : Thread) : Gpu × Fate :=
  if anyAbandoned (th.fbWords b 1) then (g, .trap (.of .verdict))
  else
    let addr := th.pair a
    match g.reachAs false t e.core e.ctx .any 4 true 4 .atomic addr with
    | (g, .error f) => (g, f)
    | (g, .ok tg) =>
      let kind := OpKind.zts le addr (th.srcW b)
      match tg with
      | .scratch _ => g.issueOp t th .march kind [] (d.run 2)
      | .mem ls ps =>
        if g.hostAtomFault t false ps then (g, .trap (.at .hostAtomic addr)) else g.issueOp t th .march kind ls (d.run 2)

/-- `zts` (R299). -/
def execZts (p : Pfx) (le : Bool) (d a : Reg) (b : SrcB) (s : State) : Out :=
  s.device fun g => g.laneWord p (d.run 2 ++ a.run 2 ++ b.span false) (Gpu.ztsLane le d a b)

/-- Bytes stored at the home by a unit that acts there: the memory controller where the page's CACHE is none (R95, R120). -/
def Gpu.unitStore (g : Gpu) (l : Leaf) (res : Bool) (cells : List (Phys × Byte)) : Gpu :=
  if l.cache == 2 then g.ctrlStore cells else g.homeStore false res cells

/-- The depth read-modify-write of R299 on a word of memory: old, pass, or poison. -/
def Gpu.depthSwap (g : Gpu) (core : Nat) (res le : Bool) (l : Leaf) (ps : List Phys) (z : Word) : Gpu × Option (Word × Bool) :=
  let g := ps.foldl (fun g p => g.evictL1 core p.line) g
  if (g.firstPoison ps).isSome then (g, none)
  else
    let old : Word := BitVec.ofNat 32 (natOfBytes (ps.map g.homeByte))
    let pass := depthPass le z old
    (if pass then g.unitStore l res (ps.zip (bytesOfNat 4 z.toNat)) else g, some (old, pass))

/-- A `zts` performed (R299). -/
def Gpu.performZts (g : Gpu) (o : Op) (le : Bool) (a : DWord) (z : Word) : Gpu :=
  match region a with
  | .scratch off =>
    let old : Word := BitVec.ofNat 32 (natOfBytes (((g.wg? o.owner.wg).map fun w => w.scratchBytes off 4).getD []))
    let pass := depthPass le z old
    let g := if pass then g.scratchStore o.owner.wg off (bytesOfNat 4 z.toNat) else g
    g.tokens o [old, if pass then 1 else 0] none
  | .mem va =>
    match findLeaf o.pages va, g.accessWait o [(a, 4)] with
    | none, _ => g.tokens o [0, 0] none
    | some _, some k => g.wantFill (g.deadlineWg o.owner.wg) k
    | some l, none =>
      match g.depthSwap o.core (g.deadlineWg o.owner.wg) le l (physOf o.pages va 4) z with
      | (g, some (old, pass)) => g.tokens o [old, if pass then 1 else 0] none
      | (g, none) => g.tokens o [0, 0] (some va)
  | .bad => g

/-- The canonical NaN. -/
def qnan : Word := 0x7FC00000

/-- An operation that writes tokens performed (R128): `gth`, `mqry`, `veval`, `prep`, `bfetch` and `zts`. -/
def Gpu.performToken (g : Gpu) (o : Op) : Gpu :=
  match o.kind with
  | .gth wide as_ _ => g.performGth o wide as_
  | .mqry _ _ => g.tokens o (((o.result.getD []).head?.map (·.2)).getD []) none
  | .zts le a z => g.performZts o le a z
  | .veval iv prog xs =>
    match g.runRd o (vevalRun (g.reader o) iv prog xs) with
    | .wait g => g
    | .out g (.ok ws) l => g.tokens o ws l.poison
    | .out g (.error n) l => g.tokens o [qnan, qnan, BitVec.ofNat 32 (5 + 65536 * n), 0] l.poison
  | .bfetch hdr xs =>
    match g.runRd o (bfetchRun (g.reader o) hdr xs) with
    | .wait g => g
    | .out g (.ok ws) l => (g.fillBricks o l.seen).tokens o ws l.poison
    | .out g (.error _) l => g.tokens o (List.replicate 4 qnan) l.poison
  | .prep prog box out cap =>
    match g.runRd o (prepRun (g.reader o) prog box cap) with
    | .wait g => g
    | .out g (.error n) l => g.tokens o [BitVec.ofNat 32 (0x80000000 + n)] l.poison
    | .out g (.ok (w, none)) l => g.tokens o [w] l.poison
    | .out g (.ok (w, some bs)) l => (g.scratchStore o.owner.wg out bs).tokens o [w] l.poison
  | _ => g

/-- TOKEN_WRITE (R128). -/
def execTokenWrite (op : Nat) (s : State) : Out :=
  s.device fun g =>
    match g.op? op with
    | some o => if o.done || g.faulted op then g else g.performToken o
    | none => g

/-! ### Raster (R300 to R304) -/

/-- One lane of `rsub` (R304): its descriptor is read at issue; a poisoned line of it reads as zeros and gives the deferred poison trap
(R107, R269). -/
def Gpu.rsubLane (d a : Reg) (g : Gpu) (t : TRef) (e : Env) (th : Thread) : Gpu × Fate :=
  let addr := th.pair a
  match g.reach t e.core e.ctx .any 1 true 64 .read addr with
  | (g, .error f) => (g, f)
  | (g, .ok tg) =>
    let (g, r) : Gpu × Except Fate (List Byte × List (Nat × Leaf) × Option Nat) := match tg with
      | .scratch o => (g, .ok (((g.wg? t.wg).map fun w => w.scratchBytes o 64).getD [], [], none))
      | .mem ls ps =>
        match g.readIssue e.core t ls addr.toNat 64 with
        | (g, .error w) => (g, .error w)
        | (g, .ok bs) => (g, .ok ((bs.zip ps).map fun x => if g.poisoned x.2.line then 0 else x.1, ls, (g.firstPoison ps).map (addr.toNat + ·)))
    match r with
    | .error f => (g, f)
    | .ok (bs, ls, bad) =>
      let note := fun (g : Gpu) => match bad with
        | some i => g.modThread t fun th => th.defer ⟨TrapKind.poison.code, 0, g.cur.pc, g.cur.word, BitVec.ofNat 64 i⟩
        | none => g
      match if addr.toNat % 64 = 0 then rdescOf bs else none with
      | none => (note g, .trap (.of .rasterForm))
      | some x =>
        let may := ((g.wg? t.wg).bind fun w => (g.launch? w.launch).map fun l => l.permits w x.node).getD false
        if !may then (note g, .trap (.of .spawnTarget))
        else
          let r := g.issueOp t th .march (.rsub x 0 x.y0 x.x0 0) ls [d]
          if r.2 = .done then (note r.1, .done) else r

/-- `rsub` (R304). -/
def execRsub (p : Pfx) (d a : Reg) (s : State) : Out := s.device fun g => g.laneWord p (d :: a.run 2) (Gpu.rsubLane d a)

/-- The vertices of a triangle: X, Y and Z of v0, v1 and v2 (R300). -/
def readTri (r : Reader) (d : RDesc) (tri : Nat) : RD (List (Word × Word × Word)) := do
  let bs ← rdBytes r false (d.vert + BitVec.ofNat 64 (48 * tri)) 48 16
  pure ((List.range 3).map fun i => (wordAt bs (16 * i), wordAt bs (16 * i + 4), wordAt bs (16 * i + 8)))

/-- The first covered pixel of a triangle at or after (x, y), in ascending Y and then X (R301, R303). -/
def nextPixel (d : RDesc) (a : Rat) (ps : List (Rat × Rat)) (y x : Nat) : Option (Nat × Nat) :=
  (List.range (d.y1 - y)).findSome? fun i =>
    let x0 := if i = 0 then x else d.x0
    ((List.range (d.x1 - x0)).find? fun j => covers a ps (x0 + j) (y + i)).map fun j => (x0 + j, y + i)

/-- The end of a submission: its token, then its retirement (R304). -/
def Gpu.endRaster (g : Gpu) (o : Op) (code count : Nat) : Gpu :=
  let w := (if code = 0 then 0 else 2 ^ 31 + code * 2 ^ 28) + min count (2 ^ 28 - 1)
  (g.landToken o.owner o.id [BitVec.ofNat 32 w]).retireOp o.id

/-- What a fragment's depth operation comes to: it passes or fails, it must wait, or it cannot be made. -/
inductive Depth
  | tested (g : Gpu) (pass : Bool)
  | wait (g : Gpu)
  | bad (g : Gpu)

/-- A fragment's depth operation (R303). -/
def Gpu.fragDepth (g : Gpu) (o : Op) (d : RDesc) (x y : Nat) (z : Word) : Depth :=
  let a := d.depth + BitVec.ofNat 64 (y * d.pitch + 4 * x)
  if d.dmode = 0 then .tested g true
  else if d.dmode = 1 then
    match g.readAt o.owner o.refused o.got o.pages a 4 4 with
    | .ok bs p => .tested (g.deferPoison o p) (depthPass d.lequal z (wordAt bs 0))
    | .peer ps => .wait (g.askFor o ps)
    | .fill k => .wait (g.wantFill (g.deadlineWg o.owner.wg) k)
    | .fault va f =>
      match g.ctx? (g.env o.owner).ctx with
      | some c => .wait (g.joinFault c o.core va .read f none (some o.id)).1
      | none => .bad g
    | .fail => .bad (g.logFailed o (some (a, 4)))
  else
    match g.wg? o.owner.wg, g.ctx? (g.env o.owner).ctx with
    | some w, some c =>
      match checkAddr .any 4 true 4 w.scratchLen a with
      | .ok (.scratch off) =>
        let old : Word := BitVec.ofNat 32 (natOfBytes (w.scratchBytes off 4))
        let pass := depthPass d.lequal z old
        .tested (if pass then g.scratchStore w.id off (bytesOfNat 4 z.toNat) else g) pass
      | .ok (.mem va) =>
        match g.leaves o.core c .write 2 va (va + 4) with
        | (g, .error (fa, f)) => if f.rpl && !o.refused then .wait (g.joinFault c o.core fa .write f none (some o.id)).1 else .bad g
        | (g, .ok ls) =>
          let ps := physOf ls va 4
          if g.hostAtomFault o.owner false ps then .bad g
          else match findLeaf ls va, g.lineWait (ps.map Phys.line) with
            | none, _ => .bad g
            | some _, some k => .wait (g.wantFill (g.deadlineWg o.owner.wg) k)
            | some l, none =>
              match g.depthSwap o.core (g.deadlineWg o.owner.wg) d.lequal l ps z with
              | (g, some r) => .tested g r.2
              | (g, none) => .tested (g.deferPoison o (some va)) false
      | _ => .bad g
    | _, _ => .bad g

/-- A fragment that passes spawned, or its spawn parked (R303). -/
def Gpu.fragSpawn (g : Gpu) (o : Op) (d : RDesc) (data : List Byte) : Gpu :=
  let s : PSpawn := { t := o.owner, op := some o.id, node := d.node, len := 24, data := data }
  match g.trySpawn s with
  | some g => g.spawnServed s
  | none =>
    match g.wg? o.owner.wg with
    | some w => g.modLaunch w.launch fun l => { l with parked := l.parked ++ [s] }.packRules
    | none => g

/-- Where a submission goes on after a pixel, its count kept. -/
def Gpu.rasterAt (g : Gpu) (id tri y x : Nat) : Gpu :=
  g.modOp id fun o => match o.kind with
    | .rsub d _ _ _ n => { o with kind := .rsub d tri y x n, refused := false }
    | _ => o

/-- The next fragment of a submission, or its end (R303, R304). -/
def Gpu.fragment (g : Gpu) (o : Op) (d : RDesc) (tri y x count : Nat) : Gpu :=
  if d.ntri ≤ tri then g.endRaster o 0 count
  else
    match g.runRd o (readTri (g.reader o) d tri) with
    | .wait g => g
    | .out g (.error _) l => (g.deferPoison o l.poison).endRaster o 1 count
    | .out g (.ok vs) l =>
      let g := if y = d.y0 ∧ x = d.x0 then g.deferPoison o l.poison else g
      let z := fun (i : Nat) => ((vs[i]?).map fun v => v.2.2).getD 0
      match (triArea d (vs.map fun v => v)).bind fun ap => (nextPixel d ap.1 ap.2 y x).map fun q => (ap, q) with
      | none => g.rasterAt o.id (tri + 1) d.y0 d.x0
      | some ((a, ps), (px, py)) =>
        let b := baryAt a ps px py
        let zv := fragZ b (z 0) (z 1) (z 2)
        match g.fragDepth o d px py zv with
        | .wait g => g.rasterAt o.id tri py px
        | .bad g => g.endRaster o 2 count
        | .tested g pass =>
          let g := g.rasterAt o.id tri py (px + 1)
          if pass then g.fragSpawn o d (fragPayload px py zv tri b d.tag) else g

/-- The raster unit to which a submission is queued: a die and one of its eight units (R12, R304). Which unit takes it is not stated: a
free value (log 111). -/
def Op.rasterUnit (o : Op) : Nat × Nat := (dieOf o.core, Config.rasterUnit o.id % 8)

/-- Whether another submission stands before one in its unit's queue (R304). -/
def Gpu.behind (g : Gpu) (o : Op) : Bool :=
  g.ops.any fun q => decide (q.id < o.id) && decide (q.core < 192) && q.rasterUnit == o.rasterUnit && match q.kind with
    | .rsub _ _ _ _ _ => true
    | _ => false

/-- RASTER_FRAGMENT (R303): nothing while a spawn of the submission waits for a record, or another stands before it (R304). -/
def execRasterFragment (op : Nat) (s : State) : Out :=
  s.device fun g =>
    match g.op? op with
    | some o => match o.kind with
      | .rsub d tri y x n =>
        if g.behind o || g.faulted op || (g.launches.any fun l => l.parked.any fun q => q.op == some op) then g else g.fragment o d tri y x n
      | _ => g
    | none => g

/-! ### `cmeta` (R305) -/

/-- The result of `cmeta` for a location (Table 9.15). -/
def Gpu.lineMeta (g : Gpu) (p : Phys) : Word :=
  let word := fun (remote comp : Bool) (sectors tag : Nat) =>
    BitVec.ofNat 32 ((if remote then 1024 else 0) + (if comp then 256 else 0) + 16 * sectors + tag)
  match p.sp with
  | .host _ | .peer _ _ => word true false 8 0
  | .dev => if g.poisoned p.line then word false false 0 15 else word false false 8 0
  | .comp part =>
    if g.poisoned p.line then word false true 0 15
    else
      let tag := chooseTag (g.homeLine p.line)
      let rec_ := ((g.part? part).bind Part.comp).map fun blk =>
        let c := g.mem.cblk blk
        if g.mem.dev32 (c.page (p.addr / 65536)) % 2 = 0 then tag else (g.mem.lineEntry c (p.addr / 65536) (p.addr % 65536 / 128)).1
      let tag := if g.mem.l2.any fun l => l.key == p.line then tag else rec_.getD tag
      word false true (tagSectors tag) tag

/-- `cmeta` (R305). -/
def execCmeta (p : Pfx) (d a : Reg) (s : State) : Out :=
  s.device fun g => g.laneWord p (d :: a.run 2) fun g t e th =>
    match g.reachAs false t e.core e.ctx .memOnly 1 true 1 .read (th.pair a) with
    | (g, .error f) => (g, f)
    | (g, .ok (.scratch _)) => (g, .trap (.at .address (th.pair a)))
    | (g, .ok (.mem _ ps)) => (g.pendLane t [d] [(ps.head?.map g.lineMeta).getD 0] 0 false, .done)

end Sys2Proof.Machine
end

