-- ==== Sys2Proof/Machine/CoreEvents.lean ====
section
/-! DEFINITION. Events of the cores: bundles and the active set (02 R29, R30, R33, R36), results and retirement (05 R147;
04 R125), the exit of threads (02 R28), the bounds of L1 and of reservations (04 R100, R122), batches, gang reports and
budgets (02 R51, R56, R62), stores and invalidations (04 R109; 07 R211; 14 R359; 16 R397). -/

namespace Sys2Proof.Machine

open Sys2Proof

/-! ### Bundles (R29, R30, R33, R36) -/

/-- A thread whose park has ended, at a formation point (R35): it waits on for the results that its switch marker names
(R147), takes the first of its deferred traps (R352), or is READY. -/
def Thread.endPark (th : Thread) (tvec : DWord) (lane : Nat) : Thread :=
  if th.status = .parked .clear then
    if th.owes && th.hasPend then { th with status := .parked .switch }
    else
      let r := { th with status := .ready, owes := false }
      if th.owes && th.mode == .user then r.deliver tvec lane else r
  else th

/-- The launch of a thread. -/
def Gpu.launchOf (g : Gpu) (t : TRef) : Nat := ((g.wg? t.wg).map Wg.launch).getD 0

/-- What threads of one bundle share (R29; R227 for the seal of `rdfl`). -/
def Gpu.bundleKey (g : Gpu) (t : TRef) (th : Thread) : Nat × Mode × DWord × Option Nat := (g.launchOf t, th.mode, th.pc, th.rdfl)

/-- Whether a thread may join a pending bundle (R29, R30): one that holds an entry of its key, on other lanes. -/
def Gpu.joinable (g : Gpu) (t : TRef) (th : Thread) (b : Bundle) : Bool :=
  b.entry && b.launch == g.launchOf t && b.mode == th.mode && b.pc == th.pc &&
  b.members.all fun m => m.lane != t.lane && (g.thread? m).any fun x => x.rdfl == th.rdfl

/-- The set of the PC hash table that a PC indexes (R30). -/
def pcSet (pc : DWord) : Nat := pc.toNat / 128 % 32

/-- A READY thread joins a pending bundle or forms one, which holds an entry if a way of its set is free (R30). -/
def Gpu.formOne (core : Nat) (g : Gpu) (t : TRef) : Gpu :=
  match g.thread? t with
  | none => g
  | some th =>
    match (g.core core).pending.find? (g.joinable t th) with
    | some b =>
      let join := fun (x : Bundle) => if x.order = b.order then { x with members := x.members ++ [t] } else x
      g.modCore core fun c => { c with pending := c.pending.map join }
    | none =>
      let used := ((g.core core).pending.filter fun b => b.entry && pcSet b.pc == pcSet th.pc).length
      let b : Bundle :=
        { members := [t], launch := g.launchOf t, mode := th.mode, pc := th.pc, entry := used < 4, order := g.nextId, issued := 0, timer := 0 }
      (g.fresh).modCore core fun c => { c with pending := c.pending ++ [b] }

/-- Whether the order in which READY threads are considered shows (R29, R30): two of one key on one lane, or more of them
than the ways of a set. -/
def Gpu.contested (g : Gpu) (ts : List TRef) : Bool :=
  let key := fun (t : TRef) => (g.thread? t).map (g.bundleKey t)
  let set := fun (t : TRef) => (g.thread? t).map fun th => pcSet th.pc
  ts.any fun t => (ts.filter fun u => u.lane == t.lane && key u == key t).length ≠ 1 || 4 < (ts.filter fun u => set u == set t).length

/-- A formation point of a core (R29, R35). A trap other than a floating-point exception that is pending where a thread in trap mode
ends a switch-marker park fences its context (R345, R354). -/
def Gpu.form (g : Gpu) (core : Nat) : Gpu :=
  let here := fun (t : TRef) => g.coreOf t == core && g.started t.wg
  let ended := (g.waiters fun t w => w == .clear && here t)
  let faults := ended.filter fun t => (g.thread? t).any fun th => th.owes && !th.hasPend && th.trapDue
  let ctxs := (faults.map fun t => (g.env t).ctx).dedup
  let g := ctxs.foldl (fun g c => g.fenceCtx c stTRAPFAULT) g
  let g := g.mapThreads fun t th => if here t then th.endPark (g.env t).tvec t.lane else th
  let g := ended.foldl (fun g t => match g.thread? t with
    | some th => if th.status = .active then g.runAlone core (g.launchOf t) t th.pc else g
    | none => g) g
  let held := (g.core core).pending.flatMap Bundle.members
  let free := sortLanes ((g.threads.filter fun x => x.2.status == .ready && here x.1 && !held.contains x.1).map (·.1))
  let c := if g.contested free then g.choose free.length else (g, 0)
  (free.rotateLeft c.2).foldl (Gpu.formOne core) c.1

/-- BUNDLE_FORMATION (R29): on every core cycle that is a multiple of 4. -/
def execBundleFormation (core : Nat) (s : State) : Out :=
  s.device fun g => if g.now % 4 = 0 then g.form core else g

/-- The pending bundle that the active set takes next (R33): trap mode first, then the one that became READY first; `ok` are those whose
threads may issue. -/
def CoreSt.nextPending (c : CoreSt) (ok : Bundle → Bool) : Option Bundle :=
  let before := fun (a b : Bundle) => match a.mode, b.mode with
    | .trap, .user => true
    | .user, .trap => false
    | _, _ => decide (a.order ≤ b.order)
  (c.pending.filter ok).foldl (fun best b => match best with
    | none => some b
    | some x => if before x b then some x else some b) none

/-- ACTIVE_SET_FILL (R33), from bundles whose workgroups may issue (R49): the bundle's entry is freed (R30), its timer restarts (R36). -/
def execActiveSetFill (core : Nat) (s : State) : Out :=
  s.device fun g =>
    if 8 ≤ (g.core core).active.length then g
    else match (g.core core).nextPending fun b => b.members.all fun t => g.started t.wg with
      | none => g
      | some b =>
        let g := g.mapThreads fun t th => if b.members.contains t then { th with status := .active } else th
        g.modCore core fun c => { c with
          pending := c.pending.filter fun x => x.order != b.order,
          active := c.active ++ [{ b with entry := false, timer := 0 }] }

/-- The fairness bound (R36). -/
def fairLimit : Nat := 2048

/-- FAIRNESS_ROTATION (R36). -/
def execFairnessRotation (core slot : Nat) (s : State) : Out :=
  s.device fun g =>
    match (g.core core).active[slot]? with
    | some b => if fairLimit ≤ b.timer then g.rotate core (· == b) else g
    | none => g

/-! ### Results and retirement (R125, R147) -/

/-- RESULT_RETURN (R147): a result whose value is known is written, with its flags. -/
def execResultReturn (t : TRef) (id : Nat) (s : State) : Out :=
  s.device fun g =>
    match (g.thread? t).bind fun th => th.pend.find? fun q => q.id == id with
    | some q => match q.vals with
      | some vs => let e := g.env t; g.modThread t fun th => th.land e q vs
      | none => g
    | none => g

/-- The oldest operation of a class that a thread counts (R125). -/
def Thread.head? (th : Thread) (c : Cls) : Option Outst := th.outst.find? fun o => o.cls == c

/-- The oldest operation of a class retires: its counter falls (R125). -/
def Thread.retireHead (th : Thread) (c : Cls) : Thread := { th with outst := th.outst.eraseP fun o => o.cls == c }

/-- An operation that no thread counts and no register waits for leaves the device. -/
def Gpu.sweepOp (g : Gpu) (id : Nat) : Gpu :=
  if g.threads.any fun x => (x.2.outst.any fun o => o.id == id) || x.2.pend.any fun q => q.id == id then g else g.dropOp id

/-- ASYNC_RETIRE (R125): a scatter is performed as it comes to the head of its class; an operation whose stores to a peer are
not acknowledged waits (R422). -/
def execAsyncRetire (t : TRef) (cls : Cls) (s : State) : Out :=
  s.device fun g =>
    let head := fun (g : Gpu) => (g.thread? t).bind fun th => th.head? cls
    match head g with
    | none => g
    | some h =>
      if g.faulted h.id then g
      else
        let g := match g.op? h.id with
          | some o => match o.kind with
            | .sct _ es _ => if o.done then g else g.performSct o es
            | _ => g
          | none => g
        match head g with
        | some h => if h.done && !g.unacked h.id then ((g.modThread t fun th => (th.retireHead cls).settle).sweepOp h.id).testRendezvous else g
        | none => g

/-! ### Bounds of L1 and of reservations -/

/-- Core cycles for which a reservation holds (R122). -/
def resvLife : Nat := 4096

/-- RESERVATION_TIMEOUT (R122). -/
def execReservationTimeout (t : TRef) (s : State) : Out :=
  s.device fun g => g.modThread t fun th => { th with resv := th.resv.filter fun r => g.now < r.at_ + resvLife }

/-- L1_LINE_EXPIRY (R100): the core's copies of a line are dropped, what is dirty in them written back first. -/
def execL1LineExpiry (core line : Nat) (s : State) : Out :=
  s.device fun g => (((g.core core).l1.map L1Line.key).filter fun k => k.idx == line).foldl (fun g k => g.evictL1 core k) g

/-- L1_WRITEBACK (R100, R106): the line stays, clean. -/
def execL1Writeback (core line : Nat) (s : State) : Out :=
  s.device fun g =>
    g.cleanLines core fun l => l.key.idx == line

/-! ### Exits (R28) -/

/-- R28's conditions but for deferred traps, of a thread whose workgroup is on its core and may issue: a saved one stays SAVED (R35,
R49, R382). -/
def Gpu.mayExit (g : Gpu) (t : TRef) (th : Thread) : Bool :=
  th.status == .exiting && th.quiet && g.started t.wg && g.fifoEmpty (g.coreOf t) t

/-- EXIT_COUNT (R28): a deferred trap that is pending is delivered first. In trap mode one fences the context (R354); the
floating-point-exception trap is never taken there (R345). -/
def execExitCount (t : TRef) (s : State) : Out :=
  s.device fun g =>
    match g.thread? t with
    | none => g
    | some th =>
      if !g.mayExit t th then g
      else
        let owed := th.due ++ th.deferred
        if th.mode = .trap then
          if owed.any fun d => d.kind != TrapKind.fpe.code then g.fenceCtx (g.env t).ctx stTRAPFAULT else g.countExit t
        else if owed.isEmpty then g.countExit t
        else
          let th := th.deliver (g.env t).tvec t.lane
          (g.setThread t th).runAlone (g.coreOf t) (g.launchOf t) t th.pc

/-! ### Batches, gang reports, budgets -/

/-- Whether a node's partial batch has run out of time (R56); the clock stands still while the launch is SAVED (R63). -/
def Gpu.batchDue (g : Gpu) (l : Launch) (n : Nat) : Bool :=
  let p := l.pack n
  match l.nodes[n]? with
  | some nd => !g.launchSaved l && !p.recs.isEmpty && nd.timeout ≠ 0 && decide (p.since + 256 * nd.timeout ≤ g.now)
  | none => false

/-- BATCH_TIMEOUT (R56). -/
def execBatchTimeout (launch node : Nat) (s : State) : Out :=
  s.device fun g =>
    match g.launch? launch with
    | some l => if g.batchDue l node then (g.modLaunch launch fun l => l.launchBatch node).doneBatches launch else g
    | none => g

/-- A gang whose last member has finished (R51), or whose launch has ended. -/
def Launch.gangOver (l : Launch) (x : Gang) : Bool := decide (x.members.length ≤ x.ends.length) || l.fin.isSome

/-- The gang whose report is written next (R51): the lowest REPORT gang not yet written, once it has finished. -/
def Launch.nextReport (l : Launch) : Option Gang :=
  (l.gangs.find? fun x => x.report && !x.written).filter l.gangOver

/-- A gang's report record (Table 2.6): the first error status in index order, and the time of the last finish. Members that
never started end with their launch. -/
def Launch.reportBytes (l : Launch) (x : Gang) : List Byte :=
  let fin := l.fin.getD (0, 0)
  let endOf := fun (m : Nat) => ((x.ends.find? fun e => e.1 == m).map (·.2)).getD fin
  let st := ((x.members.map fun m => (endOf m).1).find? (· != 0)).getD 0
  bytesOfNat 2 x.idx ++ bytesOfNat 2 st ++ bytesOfNat 4 0 ++ bytesOfNat 8 ((x.members.map fun m => (endOf m).2).foldl max 0)

/-- GANG_REPORT_WRITE (R51): a release store at system scope. DESIGN CHOICE (log 116): a record whose address does not translate or may not
be written counts as written. -/
def execGangReportWrite (launch : Nat) (s : State) : Out :=
  s.device fun g =>
    match g.launch? launch with
    | none => g
    | some l =>
      match l.nextReport with
      | none => g
      | some x =>
        if g.dirtyWait then g
        else
        let g := g.cores.foldl (fun g k => g.cleanL1 k.1) g
        let g := match g.ctx? l.ctx with
          | some c => g.hubPut c (l.desc.greport.toNat + 16 * x.idx) (l.reportBytes x)
          | none => g
        (g.modGang launch x.idx fun x => { x with written := true }).formFinish launch

/-- Core cycles that a workgroup's budget has counted (R62). -/
def WgTime.spent (w : WgTime) (now : Nat) : Nat := w.used + (w.since.map fun t => now - t).getD 0

/-- BUDGET_OVERRUN (R62). -/
def execBudgetOverrun (wg : Nat) (s : State) : Out :=
  s.device fun g =>
    match g.wg? wg with
    | some w => if w.core?.isSome && w.time.budget ≤ w.time.spent g.now then g.fenceWg wg stOVERRUN else g
    | none => g

/-! ### Stores and invalidations -/

/-- STORE_FIFO_DRAIN (R109). -/
def execStoreFifoDrain (t : TRef) (s : State) : Out :=
  s.device fun g =>
    match g.cores.find? fun x => x.2.fifo.any fun e => e.t == t with
    | some x => g.drainOne x.1 t
    | none => g

/-- Whether an operation holds a translation of a page, or any, of an ASID (R397). -/
def Gpu.holdsPage (g : Gpu) (o : Op) (asid : Nat) (page : Option Nat) : Bool :=
  ((g.ctx? (g.env o.owner).ctx).any fun c => c.asid == asid) && match page with
    | none => !o.pages.isEmpty
    | some va => (findLeaf o.pages va).isSome

/-- INVALIDATION_COMPLETE (R211, R359): after every operation in the scope that holds an invalidated translation has retired
(R397); stores that wait in the scope's FIFOs under an older translation are performed first. -/
def execInvalidationComplete (t : TRef) (s : State) : Out :=
  s.device fun g =>
    match (g.thread? t).map Thread.status with
    | some (.parked (.inval _ none _)) => g.wake [t]
    | some (.parked (.inval sc (some asid) page)) =>
      if g.ops.any fun o => inScope sc (g.coreOf t) o.core && g.holdsPage o asid page then g
      else (((g.cores.map (·.1)).filter fun n => inScope sc (g.coreOf t) n).foldl Gpu.drainCore g).wake [t]
    | _ => g

end Sys2Proof.Machine
end

