-- ==== Sys2Proof/Machine/Dispatcher.lean ====
section
/-! DEFINITION. The dispatch complex: the fitting and placement of workgroups (01 R16 to R19, R24, R25; 02 R26, R27, R49, R55, R61;
15 R376, R381), saves and restores (15 R382 to R385; 08 R268; 09 R307), reservations (15 R374, R375, R387), migration (15 R379,
R380), pre-emption (15 R381), and the write-back of compressed lines (16 R404 to R406). -/

namespace Sys2Proof.Machine

open Sys2Proof

/-! ### Fitting (R17, R24, R25) -/

/-- What a workgroup asks of a core (R24). -/
structure Need where
  teams   : Nat
  regs    : Nat
  scratch : Nat
  tiles   : Nat
  split   : Nat
  brick   : Nat
  deriving DecidableEq, Repr

/-- Teams of n threads (R26). -/
def teamsOf (n : Nat) : Nat := (n + 31) / 32

/-- What a root-grid workgroup of a launch asks. -/
def LDesc.need (d : LDesc) : Need := ⟨teamsOf d.wgsize, d.regs, d.scratch, d.tiles, d.split, d.brick⟩

/-- What a batch of m records of a node asks (R52). -/
def LDesc.nodeNeed (d : LDesc) (nd : Node) (m : Nat) : Need := ⟨teamsOf m, nd.regs, nd.scratch, nd.tiles, d.split, d.brick⟩

/-- What a workgroup asks when it is restored or moved: its tiles as they stand. -/
def LDesc.wgNeed (d : LDesc) (w : Wg) : Need := ⟨teamsOf w.size, w.regs, w.scratchLen, w.tmap.length, d.split, d.brick⟩

/-- Workgroups resident on a core. -/
def Gpu.resident (g : Gpu) (core : Nat) : List Wg := g.wgs.filter fun w => w.core? == some core

/-- A workgroup may be placed on a core (R17, R24). -/
def Gpu.fits (g : Gpu) (core : Nat) (n : Need) : Bool :=
  let ws := g.resident core
  let c := g.core core
  let sum := fun (f : Wg → Nat) => (ws.map f).sum
  (ws.isEmpty || (c.split == n.split && c.brick == n.brick)) && decide (ws.length < 64) &&
  decide (sum (fun w => teamsOf w.size) + n.teams ≤ 64) && decide (sum (fun w => teamsOf w.size * w.regs) + n.teams * n.regs ≤ 2048) &&
  decide (sum Wg.scratchLen + n.scratch ≤ 65536 * n.split) && decide (n.tiles ≤ g.freeTiles core)

/-- How many workgroups of one launch a core holds (R25). -/
def Need.perCore (n : Need) : Nat :=
  let q := fun (a b : Nat) => if b = 0 then 64 else a / b
  min (min 64 (q 64 n.teams)) (min (q 2048 (n.teams * n.regs)) (min (q (65536 * n.split) n.scratch) (q 64 n.tiles)))

/-- The cores of a partition (R13). -/
def PEntry.cores (e : PEntry) : List Nat := (List.range 192).filter fun c => e.groups.getLsbD (c / 16)

/-! ### Reservations in time (R372, R375) -/

/-- A reservation's window in core cycles from now, with the power it holds in half watts. -/
structure Window where
  start : Nat
  stop  : Nat
  cores : List Nat
  half  : Nat
  deriving DecidableEq, Repr

/-- The reservations of admitted launches of a partition that `f` picks. -/
def Gpu.windowsOf (g : Gpu) (part : Nat) (f : Launch → Bool) : List Window :=
  g.launches.filterMap fun l =>
    if f l && l.part == part && l.desc.deadline.isSome && (l.status == .reserved || l.status == .running) then
      l.alloc.map fun a => ⟨if l.status = .running then 0 else a.start - g.now, a.stop - g.now, a.cores, a.cores.length * classPower l.desc.power⟩
    else none

/-- The reservations of admitted launches of a partition. -/
def Gpu.windows (g : Gpu) (part : Nat) : List Window := g.windowsOf part fun _ => true

/-- Power at every time of a window (R372). -/
def powerOk (ws : List Window) (share half s t : Nat) : Bool :=
  let at_ := fun (x : Nat) => ((ws.filter fun w => w.start ≤ x && x < w.stop).map Window.half).sum
  (s :: (ws.map Window.start).filter fun x => s ≤ x && x < s + t).all fun x => decide (at_ x + half ≤ 2 * share)

/-- A launch whose reservation holds a core now (R374). -/
def Gpu.holder (g : Gpu) (core : Nat) : Option Launch :=
  g.launches.find? fun l => (l.alloc.any fun a => a.cores.contains core && (l.status == .running || (l.status == .reserved && a.start ≤ g.now)))

/-- Whether a reserved launch may start before its window (R375): every core of its allotment holds nothing, no other reservation of
those cores lies before its own (DEDUCED from R377's promise, log 105), and the power that it would hold fits the share until its
window's end (R386). -/
def Gpu.mayStartEarly (g : Gpu) (l : Launch) : Bool :=
  let others := g.windowsOf l.part fun k => k.id != l.id
  l.status == .reserved && l.alloc.any fun a =>
    (a.cores.all fun c => (g.resident c).isEmpty && ((g.holder c).all fun k => k.id == l.id)) &&
    (others.all fun w => decide (a.start ≤ g.now + w.start) || !(w.cores.any a.cores.contains)) &&
    powerOk others (((g.part? l.part).map fun p => p.entry.powerw).getD 0) (a.cores.length * classPower l.desc.power) 0 (a.stop - g.now)

/-- A core on which a launch may place workgroups now: one of its allotment that other launches have left (R374), or for best-effort
work one free of reservations (R381), on which no admitted launch may start early (R375). -/
def Gpu.spot (g : Gpu) (l : Launch) (core : Nat) : Bool :=
  if l.desc.deadline.isSome then
    l.status == .running && (l.alloc.any fun a => a.cores.contains core) && (g.resident core).all fun w => w.launch == l.id
  else ((g.part? l.part).any fun p => p.entry.cores.contains core) && (g.holder core).isNone &&
    !(g.launches.any fun k => k.part == l.part && (k.alloc.any fun a => a.cores.contains core) && g.mayStartEarly k)

/-! ### Gangs at placement (R49) -/

/-- The gangs that are linked to a workgroup by shared members, with all their members (R373). -/
def Launch.component (l : Launch) (idx : Nat) : List Nat :=
  l.gangs.foldl (fun s _ => (s ++ (l.gangs.filter fun x => x.members.any s.contains).flatMap Gang.members).dedup) [idx]

/-- The root-grid workgroup of an index. -/
def Gpu.rootWg (g : Gpu) (launch idx : Nat) : Option Wg := g.wgs.find? fun w => w.launch == launch && w.node.isNone && w.index == idx

/-- The pairs of a component's PAIRADJ gangs: leader's and follower's workgroup (R49). -/
def Launch.pairs (l : Launch) (comp : List Nat) : List (Nat × Nat) :=
  (l.gangs.filter fun x => x.pairadj && x.members.any comp.contains).flatMap fun x =>
    (List.range (x.members.length / 2)).map fun m => (x.members.getD (2 * m) 0, x.members.getD (2 * m + 1) 0)

/-- Workgroups that pairs bind to one core pair. -/
def boundTo (ps : List (Nat × Nat)) (i : Nat) : List Nat :=
  ps.foldl (fun s _ => (s ++ (ps.filter fun p => s.contains p.1 || s.contains p.2).flatMap fun p => [p.1, p.2]).dedup) [i]

/-- PAIRADJ (R49): the member's place in its pair, its partner on the pair's other core, or finished, or room for the partner there. -/
def Gpu.pairOk (g : Gpu) (l : Launch) (idx core : Nat) : Bool :=
  l.gangs.all fun x =>
    match x.pairadj, x.members.findIdx? (· == idx) with
    | true, some i =>
      let other := if i % 2 = 0 then i + 1 else i - 1
      let sib := if core % 2 = 0 then core + 1 else core - 1
      core % 2 == i % 2 && match x.members[other]?.bind fun m => g.rootWg l.id m with
        | none => g.fits sib l.desc.need && g.spot l sib
        | some w => match w.place with
          | .core c => c == sib
          | .saved => g.fits sib (l.desc.wgNeed w) && g.spot l sib
          | .gone => true
    | _, _ => true

/-- Every gang of a workgroup has all its members resident, or finished (R49). -/
def Gpu.gangReady (g : Gpu) (l : Launch) (w : Wg) : Bool :=
  w.node.isSome || (l.gangs.filter fun x => x.members.contains w.index).all fun x =>
    x.members.all fun m => (g.rootWg l.id m).any fun v => v.core?.isSome || v.place == .gone

/-- Teams of a workgroup that an array holds back issue again, each as one bundle (R34, R35). -/
def Gpu.retryTeams (g : Gpu) (w : Wg) : Gpu :=
  let stalled := g.waiters fun t x => t.wg == w.id && match x with | .array _ => true | _ => false
  ((stalled.map TRef.team).dedup).foldl (fun g j =>
    g.releaseAsBundle (w.core?.getD 0) (sortLanes (stalled.filter fun t => t.team == j))) g

/-- Workgroups of a launch that have become free to issue start: their budgets begin to count (R27, R49, R62), and the teams that an
array held back when they were saved issue again. -/
def Gpu.startReady (g : Gpu) (launch : Nat) : Gpu :=
  match g.launch? launch with
  | none => g
  | some l =>
    let ready := fun (w : Wg) => w.launch == launch && w.core?.isSome && w.time.since.isNone && g.gangReady l w
    let go := fun (w : Wg) => if ready w then { w with time := { w.time with since := some g.now } } else w
    (g.wgs.filter ready).foldl Gpu.retryTeams { g with wgs := g.wgs.map go }

/-! ### The start of a workgroup (R26, R27) -/

/-- The tier at which a launch runs (R61). -/
def Launch.tierEntry (l : Launch) : Tier := l.desc.tiers.getD l.tier ⟨0, 1⟩

/-- A budget scaled for the shadow check (R372, R377): N = 2^SHADOW. -/
def scaledBudget (shadow b : Nat) : Nat := if shadow = 0 then b else (b * (2 ^ shadow + 16) + 2 ^ shadow - 1) / 2 ^ shadow

/-- An empty core's split and brick-mode size set (R17): where they change, its L1 is written back and its brick-mode region emptied. -/
def Gpu.setSplit (g : Gpu) (core : Nat) (n : Need) : Gpu :=
  if (g.core core).split == n.split && (g.core core).brick == n.brick then g
  else (g.flushL1 core).modCore core fun c => { c with split := n.split, brick := n.brick, bricks := [] }

/-- A new workgroup on a core, all its threads READY once it may start (R16, R19, R26, R27, R42). -/
def Gpu.newWg (g : Gpu) (l : Launch) (core : Nat) (n : Need) (node : Option Nat) (index size : Nat) (entry : DWord) (budget : Nat)
    (recs : List Rec) : Gpu :=
  let id := g.nextId
  let mark := fun (r : Rec) => 2 * r.idx + (if r.part.isSome then 1 else 0)
  let w : Wg :=
    { id := id, launch := l.id, ctx := l.ctx, node := node, index := index, size := size, regs := n.regs, place := .core core,
      scratchLen := n.scratch, scratch := [], tbars := [], tilesDecl := n.tiles, tmap := List.range n.tiles, tiles := [],
      bars := List.replicate 16 (.start size), teams := List.replicate n.teams .start,
      time := { budget := budget, placed := g.now, since := none, used := 0, tier := l.tier }, recs := recs.map mark, seqs := [], endSt := none }
  let rec_ := fun (i : Nat) => (recs[i]?.map fun r => l.desc.pool + BitVec.ofNat 64 (80 * r.idx)).getD 0
  let ts : List (TRef × Thread) := (List.range size).map fun i => (⟨id, i⟩, Thread.start entry (rec_ i))
  let g : Gpu := { g.fresh with wgs := g.wgs ++ [w], threads := g.threads ++ ts }
  (g.setSplit core n).startReady l.id

/-- A launch fenced as a whole (R376). -/
def Gpu.fenceLaunch (g : Gpu) (launch status : Nat) : Gpu :=
  let g := g.modLaunch launch fun l =>
    { l with waiting := [], queue := [], parked := [], packs := l.packs.map fun p => { p with recs := [], running := 0 } }
  let ws := g.wgs.filter fun w => w.launch == launch && w.place != .gone
  (ws.foldl (fun g w => g.fenceWg w.id status) g).endLaunch launch status

/-- A root-grid workgroup placed (R61). -/
def Gpu.placeRoot (g : Gpu) (l : Launch) (idx core : Nat) : Gpu :=
  let t := l.tierEntry
  let shadow := ((g.ctx? l.ctx).map Ctx.shadow).getD 0
  let b := if l.desc.deadline.isSome then scaledBudget shadow t.budget else t.budget
  let g := g.modLaunch l.id fun l => { l with waiting := l.waiting.erase idx, status := .running }
  g.newWg l core l.desc.need none idx l.desc.wgsize t.entry b []

/-- The oldest batch placed (R55, R56): it begins with an acquire at device scope. A batch of a deadline launch is charged, and
one beyond the allotment fences the launch (R376). -/
def Gpu.placeBatch (g : Gpu) (l : Launch) (core : Nat) : Gpu :=
  match l.queue with
  | [] => g
  | (n, no, rs) :: q =>
    match l.nodes[n]? with
    | none => g
    | some nd =>
      let left := (l.alloc.map fun a => l.desc.need.perCore * a.cores.length * (a.stop - g.now)).getD 0
      if l.desc.deadline.isSome && left < l.charged + nd.budget then g.fenceLaunch l.id stOVERRUN
      else
        let charge := if l.desc.deadline.isSome then l.charged + nd.budget else l.charged
        let upd := fun (l : Launch) =>
          ({ l with queue := q, charged := charge, status := .running } : Launch).modPack n fun p => { p with running := p.running + 1 }
        ((g.acquire core .dev).modLaunch l.id upd).newWg l core (l.desc.nodeNeed nd rs.length) (some n) no rs.length nd.entry nd.budget rs

/-! ### Saves (R382, R383) -/

/-- What is completed before a save (R383, R307): results, gathers, scatters and `zts` of the workgroups. -/
def Gpu.settleWgs (g : Gpu) (f : Nat → Bool) : Gpu :=
  let ts := (g.threads.filter fun x => f x.1.wg).map (·.1)
  let back := fun (g : Gpu) (t : TRef) =>
    let e := g.env t
    ((g.thread? t).map Thread.pend).elim g fun ps => ps.foldl (fun g q => match q.vals with
      | some vs => g.modThread t fun th => th.land e q vs
      | none => g) g
  let g := ts.foldl back g
  let run := fun (g : Gpu) (o : Op) =>
    if !f o.owner.wg || o.done then g
    else match o.kind with
      | .gth _ _ _ | .zts _ _ _ => g.performToken o
      | .sct _ es _ => g.performSct o es
      | _ => g
  let g := g.ops.foldl run g
  let g := g.mapThreads fun t th => if f t.wg then ({ th with outst := retireDone .gath (retireDone .march th.outst) } : Thread).settle else th
  (g.ops.filter fun o => f o.owner.wg && o.done).foldl (fun g o => g.sweepOp o.id) g

/-- Whether something must still run to its end before the workgroups can be saved or moved (R383, R307): operations, and what R116's
fence at system scope waits for: stores that peers have not acknowledged or been sent (R421), and lines that find no way (R406). -/
def Gpu.saveBlocked (g : Gpu) (f : Nat → Bool) : Bool :=
  (g.ops.any fun o => f o.owner.wg && match o.kind with
    | .acpx _ _ _ | .rread _ _ => true
    | .gth _ _ _ | .zts _ _ _ | .sct _ _ _ => !o.done
    | _ => false) ||
  (g.cores.any fun c => c.2.fifo.any fun e => f e.t.wg && e.cells.any fun x => match x.1.sp with | .peer _ _ => true | _ => false) ||
  g.threads.any fun x => f x.1.wg && (g.owesAck x.1 || (g.releaseWait (g.coreOf x.1) x.1 .sys).isSome)

/-- Workgroups taken off their cores (R382, R383): threads stop at their next instruction boundary after R116's fences, with no
reservation (R122); array operations leave the arrays, to be replayed; sequencers stop after the state they issued. A grant does
not travel (R261). What the arrays and the marchers of their cores held back in others goes on (R290). -/
def Gpu.takeOff (g : Gpu) (f : Nat → Bool) : Gpu :=
  let ts := (g.threads.filter fun x => f x.1.wg).map (·.1)
  let cores := (g.wgs.filter fun w => f w.id).filterMap Wg.core?
  let g := ts.foldl (fun g t => g.fence (g.coreOf t) t .ar .sys) g
  let stop := fun (t : TRef) (th : Thread) =>
    if f t.wg then { th with resv := none, rdfl := none, status := if th.status == .active then .ready else th.status } else th
  let g := g.mapThreads stop
  let ids := (g.ops.filter fun o => f o.owner.wg).map Op.id
  let strip := fun (b : Bundle) => { b with members := b.members.filter fun m => !f m.wg }
  let live := fun (b : Bundle) => !b.members.isEmpty
  let seqs := fun (w : Wg) => [SeqKind.array, SeqKind.copy].filterMap fun k =>
    ((w.core?.bind fun c => (g.core c).seq k).filter fun s => s.wg == w.id).map fun s => (k, s)
  let off := fun (w : Wg) =>
    if f w.id then
      { w with
        place := .saved
        seqs := seqs w
        teams := w.teams.map fun t => { t with grant := none }
        time := { w.time with used := w.time.spent g.now, since := none } }
    else w
  let wgs := g.wgs.map off
  let gone := fun (q : Option Seq) => q.filter fun s => !f s.wg
  let g := g.mapCores fun _ c => { c with
    active := (c.active.map strip).filter live, pending := (c.pending.map strip).filter live,
    arrq := c.arrq.filter (fun i => !ids.contains i), seqA := gone c.seqA, seqC := gone c.seqC }
  let mo := fun (o : Op) => if f o.owner.wg then { o with core := 192 } else o
  let mr := fun (r : Ray) => if f r.owner.wg then { r with core := 192 } else r
  let reqs := g.gov.reqs.filter fun r => !(f r.wg && r.op.isNone)
  let g : Gpu := { g with wgs := wgs, ops := g.ops.map mo, rays := g.rays.map mr, gov := { g.gov with reqs := reqs } }
  let free := fun (a : ArrWait) => waitsArray a || match a with | .sequencer _ => true | _ => false
  let g := cores.dedup.foldl (fun g c => g.wakeArrays c free) g
  g.wake (g.waiters fun t x => x == .marcher && cores.contains (g.coreOf t))

/-- Bytes that a save of a context needs (R385). -/
def Gpu.saveSize (g : Gpu) (ctx : Nat) : Nat :=
  let ls := g.launches.filter fun l => l.ctx == ctx && l.status != .finished
  let ws := g.wgs.filter fun w => w.ctx == ctx && w.place == .saved
  let ops := fun (w : Wg) => (g.ops.filter fun o => o.owner.wg == w.id).length
  64 + (ls.map fun l => 4096 + 2560 * l.nodes.length).sum +
    (ws.map fun w => 4096 + 32 * teamsOf w.size * (4 * w.regs + 64) + w.scratchLen + 1024 * w.tmap.length + 32 * ops w).sum

/-- The header of a save area (Table 15.3): STATE, NWG, USED, TSAVE and INTEG. -/
def saveHead (state nwg used time integ : Nat) : List Byte :=
  bytesOfNat 2 1 ++ bytesOfNat 2 state ++ bytesOfNat 4 nwg ++ bytesOfNat 8 used ++ bytesOfNat 8 time ++ bytesOfNat 8 integ ++ List.replicate 32 0

/-- Bytes written to a context's save area, at its home slices. -/
def Gpu.putSave (g : Gpu) (c : Ctx) (bs : List Byte) : Gpu :=
  g.homeStore false false ((bs.zipIdx).map fun x => ((⟨.dev, c.save + x.2⟩ : Phys), x.1))

/-- Whether `n` bytes of a context's save area lie in its partition's memory, to its last byte. -/
def Gpu.saveHeld (g : Gpu) (c : Ctx) (n : Nat) : Bool :=
  (g.part? c.part).any fun p => p.entry.holds c.save && p.entry.holds (c.save + n - 1)

/-- The save area written (R384): its header, and contents whose layout is the part's own. A save that needs more than SAVELEN,
or whose area lies outside the partition's memory, fences the context instead (R362, R385). -/
def Gpu.writeSave (g : Gpu) (ctx state : Nat) : Gpu :=
  match g.ctx? ctx with
  | some c =>
    let used := g.saveSize ctx
    let nwg := (g.wgs.filter fun w => w.ctx == ctx && w.place == .saved).length
    if c.savelen < used || !g.saveHeld c used then g.fenceCtx ctx stFENCED
    else
      let body := (List.range (used - 64)).map fun i => Config.saveByte g.free (64 + i)
      ({ g with free := g.free + 1 } : Gpu).putSave c (saveHead state nwg used g.ptp (Config.saveInteg body).toNat ++ body)
  | none => g

/-- The save area marked empty (R384), at the creation of its context: STATE 0, and the other fields at their reset values. STATE stays
as a save wrote it from then on (R446). -/
def Gpu.emptySave (g : Gpu) (c : Ctx) : Gpu := if g.saveHeld c 64 then g.putSave c (saveHead 0 0 0 0 0) else g

/-- The save area holds what was saved (R384): its header's fields and its integrity word. -/
def Gpu.saveIntact (g : Gpu) (c : Ctx) : Bool :=
  let h := g.mem.devBytes c.save 64
  let used := field h 8 8
  field h 0 2 == 1 && (field h 2 2 == 1 || field h 2 2 == 2) && decide (64 ≤ used) && decide (used ≤ c.savelen) &&
  field h 0x18 8 == (Config.saveInteg (g.mem.devBytes (c.save + 64) (used - 64))).toNat

/-! ### Restores (R382) -/

/-- A workgroup's place, with that of its operations and rays. -/
def Gpu.sit (g : Gpu) (wg core : Nat) : Gpu :=
  { g with
    wgs := g.wgs.map fun v => if v.id = wg then { v with place := .core core } else v
    ops := g.ops.map fun o => if o.owner.wg = wg then { o with core := core } else o
    rays := g.rays.map fun r => if r.owner.wg = wg then { r with core := core } else r }

/-- The pages that an operation held translated anew on its core (R359, R383); those that do not translate are dropped, and tried again
when the operation needs them. -/
def Gpu.rehold (core : Nat) (c : Ctx) (g : Gpu) (o : Op) : Gpu :=
  let again := fun (s : Gpu × List (Nat × Leaf)) (x : Nat × Leaf) => match s.1.translate core c .read x.1 with
    | (g, .ok l) => (g, s.2 ++ [(x.1 / 2 ^ l.log * 2 ^ l.log, l)])
    | (_, .error _) => s
  let r := o.pages.foldl again (g, [])
  r.1.modOp o.id fun o => { o with pages := r.2, asks := [], got := [] }

/-- A saved workgroup put on a core: its array operations issued again in their order, its sequencers and rays back, the core's
instruction cache, brick-mode region and older translations invalidated (R212), its operations under translations made now (R307, R359),
its stalled lanes issuing again (R35, R235, R307). DESIGN CHOICE (log 121): its residency begins anew (R381), at a migration too. -/
def Gpu.putOn (g : Gpu) (w : Wg) (core : Nat) (n : Need) : Gpu :=
  let asid := ((g.ctx? w.ctx).map Ctx.asid).getD 0
  let g := (g.sit w.id core).modWg w.id fun v => { v with seqs := [], time := { v.time with placed := g.now } }
  let g := ((g.setSplit core n).acquire core .sys).modCore core fun c =>
    w.seqs.foldl (fun c x => c.setSeq x.1 (some x.2)) { c with icache := [], bricks := [] }
  let g := g.dropTlb asid none (· == core) [dieOf core] false
  let again := fun (g : Gpu) (o : Op) => match o.kind with
    | .arr (.mma pair _ _ _ _ _ _ _ _) => if o.owner.wg = w.id then g.enqueue core pair o.id else g
    | .arr _ => if o.owner.wg = w.id then g.enqueue core false o.id else g
    | _ => g
  let g := g.ops.foldl again g
  let g : Gpu := match g.ctx? w.ctx with
    | some c => (g.ops.filter fun (o : Op) => o.owner.wg == w.id).foldl (Gpu.rehold core c) g
    | none => g
  let g := g.wake (g.waiters fun t x => t.wg == w.id && x == .marcher)
  g.startReady w.launch

/-- The engines that a workgroup's sequencers need (R268, R383). -/
def Gpu.engines (g : Gpu) (w : Wg) : List SeqKind :=
  w.seqs.map (·.1) ++ [SeqKind.array, SeqKind.copy].filter fun k => ((w.core?.bind fun c => (g.core c).seq k).any fun s => s.wg == w.id)

/-- A core takes a workgroup that has run: room for it (R17, R24), ray slots for its rays (R22, R307), its sequencers free. -/
def Gpu.takes (g : Gpu) (l : Launch) (w : Wg) (core : Nat) : Bool :=
  g.spot l core && g.fits core (l.desc.wgNeed w) && ((g.engines w).all fun k => ((g.core core).seq k).isNone) &&
  decide ((g.rays.filter fun r => r.core == core).length + (g.rays.filter fun r => r.owner.wg == w.id).length ≤ 64)

/-- A saved workgroup of a launch that comes back next: first the rest of a gang that is being made co-resident (R381). -/
def Gpu.savedWg (g : Gpu) (l : Launch) : Option Wg :=
  let saved := g.wgs.filter fun w => w.launch == l.id && w.place == .saved
  let begun := fun (w : Wg) => w.node.isNone && (l.component w.index).any fun m => (g.rootWg l.id m).any fun v => v.core?.isSome
  (if l.gangs.isEmpty then none else saved.find? begun).orElse fun _ => saved.head?

/-- A saved workgroup restored (R382). The launch runs again when none of its workgroups is saved (Table 15.2). -/
def Gpu.restoreWg (g : Gpu) (l : Launch) (w : Wg) (core : Nat) : Gpu :=
  let g := g.putOn w core (l.desc.wgNeed w)
  g.modLaunch l.id fun l => if (g.savedWg l).isNone && l.status == .preempted then { l with status := .running } else l

/-- The next saved workgroup restored; a save area that does not hold what was saved fences the context (R384). -/
def Gpu.placeSaved (g : Gpu) (l : Launch) (core : Nat) : Gpu :=
  match g.savedWg l with
  | none => g
  | some w => if (g.ctx? w.ctx).any g.saveIntact then g.restoreWg l w core else g.fenceCtx w.ctx stFENCED

/-! ### WORKGROUP_PLACE (R381) -/

/-- The root workgroup that a launch places next: the rest of a gang that is being made co-resident, else the lowest index
(R49, R381). -/
def Gpu.nextRoot (g : Gpu) (l : Launch) : Option Nat :=
  let begun := fun (i : Nat) => (l.component i).any fun m => (g.rootWg l.id m).any fun w => w.core?.isSome && w.time.since.isNone
  (if l.gangs.isEmpty then none else l.waiting.find? begun).orElse fun _ => l.waiting.head?

/-- What a launch places next (R381). -/
def Gpu.nextItem (g : Gpu) (l : Launch) : Option PlaceSrc :=
  if (g.savedWg l).isSome then some .saved
  else match l.queue with
    | (n, _, _) :: _ => some (.batch n)
    | [] => (g.nextRoot l).map .root

/-- What that asks of a core. -/
def Gpu.itemNeed (g : Gpu) (l : Launch) (src : PlaceSrc) : Option Need :=
  match src with
  | .root _ => some l.desc.need
  | .batch n => match l.nodes[n]?, l.queue with
    | some nd, (_, _, rs) :: _ => some (l.desc.nodeNeed nd rs.length)
    | _, _ => none
  | .saved => (g.savedWg l).map fun w => l.desc.wgNeed w

/-- The launch may place workgroups: its context is live and is not being lifted (R363, R388), and it has begun. -/
def Gpu.mayPlace (g : Gpu) (l : Launch) : Bool :=
  ((g.ctx? l.ctx).any fun c => c.status == .live && c.lift.isNone) && l.status != .finished && l.status != .reserved

/-- The item fits the core, whatever other launches wait for. -/
def Gpu.fitsItem (g : Gpu) (l : Launch) (src : PlaceSrc) (core : Nat) : Bool :=
  g.mayPlace l && g.spot l core && ((g.itemNeed l src).any fun n => g.fits core n) && match src with
    | .root i => g.pairOk l i core
    | .batch _ => true
    | .saved => (g.savedWg l).any fun w => (w.node.isSome || g.pairOk l w.index core) && g.takes l w core

/-- The item placed. -/
def Gpu.place (g : Gpu) (l : Launch) (src : PlaceSrc) (core : Nat) : Gpu :=
  match src with
  | .root i => g.placeRoot l i core
  | .batch _ => g.placeBatch l core
  | .saved => g.placeSaved l core

/-- Cores that a launch may use, in ascending number. -/
def Gpu.coresFor (g : Gpu) (l : Launch) : List Nat :=
  match l.desc.deadline, l.alloc with
  | some _, some a => a.cores
  | _, _ => ((g.part? l.part).map fun p => p.entry.cores).getD []

/-- A member of a gang fits a core: one that waits, or one that is saved. -/
def Gpu.memberFits (g : Gpu) (l : Launch) (i core : Nat) : Bool :=
  match g.rootWg l.id i with
  | none => g.fitsItem l (.root i) core
  | some w => g.mayPlace l && g.pairOk l i core && g.takes l w core

/-- A member of a gang placed or restored. -/
def Gpu.placeMember (g : Gpu) (l : Launch) (i core : Nat) : Gpu :=
  match g.rootWg l.id i with
  | none => g.placeRoot l i core
  | some w => g.restoreWg l w core

/-- Whether some choice of cores takes the given members together. -/
def Gpu.setFits (g : Gpu) (launch : Nat) : List Nat → Bool
  | [] => true
  | i :: is =>
    match g.launch? launch with
    | none => false
    | some l => (g.coresFor l).any fun c => g.memberFits l i c && Gpu.setFits (g.placeMember l i c) launch is

/-- Whether a gang's whole component, its saved members too, finds room when its first member goes to a core (R49, R381). -/
def Gpu.gangFits (g : Gpu) (l : Launch) (src : PlaceSrc) (core : Nat) : Bool :=
  let first := match src with
    | .root i => some i
    | .batch _ => none
    | .saved => (g.savedWg l).bind fun w => if w.node.isNone then some w.index else none
  match first with
  | none => true
  | some i =>
    let open_ := fun (m : Nat) => l.waiting.contains m || (g.rootWg l.id m).any fun w => w.place == .saved
    l.gangs.isEmpty || (g.placeMember l i core).setFits l.id ((l.component i).filter fun m => m ≠ i && open_ m)

/-- One best-effort launch is taken before another (R381). -/
def Launch.before (k l : Launch) : Bool :=
  k.part == l.part && k.desc.deadline.isNone && l.desc.deadline.isNone &&
  (decide (l.desc.prio < k.desc.prio) ||
    (k.desc.prio == l.desc.prio && (decide (k.accepted < l.accepted) || (k.accepted == l.accepted && decide (k.id < l.id)))))

/-- A core on which a launch's next item fits, with the item. -/
def Gpu.autoSpot (g : Gpu) (l : Launch) : Option (PlaceSrc × Nat) :=
  (g.nextItem l).bind fun src => ((g.coresFor l).find? fun c => g.fitsItem l src c && g.gangFits l src c).map fun c => (src, c)

/-- WORKGROUP_PLACE (R24, R381): the launch's next item, on a core that the event names, unless a launch that is taken earlier
can place its own. -/
def execWorkgroupPlace (launch : Nat) (src : PlaceSrc) (core : Nat) (s : State) : Out :=
  s.device fun g =>
    match g.launch? launch with
    | none => g
    | some l =>
      if g.nextItem l == some src && g.fitsItem l src core && g.gangFits l src core &&
         !(g.launches.any fun k => k.before l && (g.autoSpot k).isSome) then g.place l src core
      else g

/-! ### Reservations (R374, R375, R387) -/

/-- A best-effort grant of a partition ends: the lowest PRIO first, the youngest first within a PRIO (R387). -/
def Gpu.revokeOne (g : Gpu) (part : Nat) : Gpu :=
  let all := g.wgs.flatMap fun w => match g.launch? w.launch with
    | some l => if l.part == part && l.desc.deadline.isNone && w.core?.isSome then
        (w.teams.zipIdx).filterMap fun x => (x.1.grant.filter fun k => g.now < k.till).map fun k => (l.desc.prio, k.id, w.id, x.2)
      else []
    | none => []
  let pick := all.foldl (fun (b : Option (Nat × Nat × Nat × Nat)) x => match b with
    | none => some x
    | some y => if x.1 < y.1 || (x.1 == y.1 && y.2.1 < x.2.1) then some x else some y) none
  match pick with
  | none => g
  | some (_, _, w, j) => g.modWg w fun w => w.modTeam j fun t => { t with grant := none }

/-- Best-effort grants of a partition end until the granted and reserved power lies within its share (R387). -/
def Gpu.revoke (g : Gpu) (part : Nat) : Gpu :=
  let share := 2 * ((g.part? part).map fun p => p.entry.powerw).getD 0
  (List.range (g.bestGrants part).length).foldl (fun g _ => if share < g.partPower part (g.bestGrants part) then g.revokeOne part else g) g

/-- Best-effort grants on a reservation's cores end (R387). -/
def Gpu.endGrants (g : Gpu) (cores : List Nat) : Gpu :=
  let best := fun (w : Wg) => (w.core?.any cores.contains) && (g.launch? w.launch).any fun l => l.desc.deadline.isNone
  { g with wgs := g.wgs.map fun w => if best w then { w with teams := w.teams.map fun t => { t with grant := none } } else w }

/-- Workgroups saved for a reservation or a higher launch (R374, R382): each context's save area is written. -/
def Gpu.preempt (g : Gpu) (ids : List Nat) : Gpu :=
  let f := fun (i : Nat) => ids.contains i
  let ws := g.wgs.filter fun w => f w.id
  let g := (g.settleWgs f).takeOff f
  let mark := fun (l : Launch) => if (ws.any fun w => w.launch == l.id) && l.status == .running then { l with status := .preempted } else l
  let g := { g with launches := g.launches.map mark }
  ((ws.map Wg.ctx).dedup).foldl (fun g c => g.writeSave c 1) g

/-- Work placed until nothing more fits. -/
def Gpu.placeAll (g : Gpu) (launch : Nat) : Nat → Gpu
  | 0 => g
  | fuel + 1 =>
    match (g.launch? launch).bind fun l => (g.autoSpot l).map fun x => (l, x) with
    | none => g
    | some (l, src, c) => Gpu.placeAll (g.place l src c) launch fuel

/-- Whether a reservation may start now: in its window with its cores free of other reservations, or early, in DEADLINE order
(R374, R375). -/
def Gpu.mayStart (g : Gpu) (l : Launch) : Bool :=
  l.status == .reserved && l.alloc.any fun a =>
    if a.start ≤ g.now then a.cores.all fun c => !(g.launches.any fun k => k.id != l.id && k.status == .running && k.alloc.any fun b => b.cores.contains c)
    else g.mayStartEarly l && !(g.launches.any fun k =>
      k.id != l.id && k.part == l.part && g.mayStartEarly k && decide (k.desc.deadline.getD 0 < l.desc.deadline.getD 0))

/-- The workgroups that leave with a victim: its gang's members leave together (R49, R381). -/
def Gpu.withGang (g : Gpu) (w : Wg) : List Nat :=
  match w.node, g.launch? w.launch with
  | none, some k => (g.wgs.filter fun v => v.launch == k.id && v.node.isNone && v.core?.isSome && (k.component w.index).contains v.index).map Wg.id
  | _, _ => [w.id]

/-- Best-effort workgroups on cores. -/
def Gpu.bestOn (g : Gpu) (cores : List Nat) : List Wg :=
  g.wgs.filter fun w => (w.core?.any cores.contains) && (g.launch? w.launch).any fun k => k.desc.deadline.isNone

/-- RESERVATION_START (R374): best-effort work on the allotment is saved, with its gangs (R49), and its grants end, others too while the
share is short (R387). A workgroup that cannot be saved yet (R383) keeps its core until a later event; on the cores that are empty the
first wave is placed. -/
def execReservationStart (launch : Nat) (s : State) : Out :=
  s.device fun g =>
    match g.launch? launch with
    | none => g
    | some l =>
      let cores := (l.alloc.map Alloc.cores).getD []
      if !(g.mayStart l || (l.status == .running && l.desc.deadline.isSome && !(g.bestOn cores).isEmpty)) then g
      else
        let ids := (g.bestOn cores).flatMap g.withGang
        let g := g.settleWgs ids.contains
        let go := (g.bestOn cores).flatMap fun w => if g.saveBlocked (g.withGang w).contains then [] else g.withGang w
        let g := (g.preempt go.dedup).modLaunch launch fun l => if l.status == .finished then l else { l with status := .running }
        ((g.endGrants cores).revoke l.part).placeAll launch (l.waiting.length + l.queue.length)

/-! ### Migration (R379, R380) and pre-emption (R381) -/

/-- The workgroups that move with one (R49): those that PAIRADJ gangs bind to its core pair. -/
def Gpu.movers (g : Gpu) (l : Launch) (w : Wg) : List Wg :=
  if w.node.isSome then [w]
  else (boundTo (l.pairs (l.component w.index)) w.index).filterMap fun i => (g.rootWg l.id i).filter fun v => v.core?.isSome

/-- A PAIRADJ member: it stays on its side of a pair. -/
def Launch.paired (l : Launch) (w : Wg) : Bool :=
  w.node.isNone && (l.pairs (l.component w.index)).any fun p => p.1 == w.index || p.2 == w.index

/-- A PAIRADJ gang of a launch has a member that waits for a core. -/
def Gpu.pairWaits (g : Gpu) (k : Launch) : Bool :=
  k.gangs.any fun x => x.pairadj && x.members.any fun m => k.waiting.contains m || (g.rootWg k.id m).any fun w => w.place == .saved

/-- Whether a core pair holds room for a pair of a launch's members. -/
def Gpu.pairRoom (g : Gpu) (k : Launch) (core : Nat) : Bool :=
  [core / 2 * 2, core / 2 * 2 + 1].all fun c => g.spot k c && g.fits c k.desc.need

/-- Workgroups taken off their cores in name only: what the device would have room for without them. -/
def Gpu.without (g : Gpu) (ids : List Nat) : Gpu :=
  { g with wgs := g.wgs.map fun w => if ids.contains w.id then { w with place := .saved } else w }

/-- Whether a pair of a launch waits for a core pair on which workgroups stand, and that pair would have room once these and whatever else
`f` picks there have left (R379). -/
def Gpu.opensPair (g : Gpu) (k : Launch) (ms : List Wg) (f : Wg → Bool) : Bool :=
  let leave := fun (c : Nat) => ms ++ g.wgs.filter fun v => f v && v.core?.any fun x => x / 2 == c / 2
  g.pairWaits k && ms.any fun v => v.core?.any fun c => !g.pairRoom k c && (g.without ((leave c).map Wg.id)).pairRoom k c

/-- Whether a move brings a member of a gang to the pair on whose other core another of its members stands, where none did before
(R379). -/
def Gpu.gathers (g : Gpu) (l : Launch) (ms : List Wg) (dest : Wg → Nat) : Bool :=
  let sib := fun (c : Nat) => if c % 2 = 0 then c + 1 else c - 1
  ms.any fun v => v.node.isNone && l.gangs.any fun x =>
    let beside := fun (c : Nat) => x.members.any fun m => m != v.index && (g.rootWg l.id m).any fun u => u.core? == some (sib c)
    x.members.contains v.index && beside (dest v) && !(v.core?.any beside)

/-- The two cases in which workgroups move (R379). Pair gathering: a pair of the launch's new wave waits, and the leaving of these and of
others of the launch gives it a core pair, while they go to free cores. Best-effort compaction: the same for a best-effort PAIRADJ gang
of the partition, or a gang's members are gathered on pairs. -/
def Gpu.mayMigrate (g : Gpu) (l : Launch) (ms : List Wg) (dest : Wg → Nat) : Bool :=
  let best := fun (v : Wg) => (g.launch? v.launch).any fun k => k.part == l.part && k.desc.deadline.isNone
  if l.desc.deadline.isSome then g.opensPair l ms (fun v => v.launch == l.id) && ms.all fun v => (g.resident (dest v)).isEmpty
  else g.gathers l ms dest ||
    g.launches.any fun k => k.part == l.part && k.desc.deadline.isNone && k.status != .finished && g.opensPair k ms best

/-- Forwarding entries of a core still needed (R380): a copy into the moved workgroup's scratchpad, issued before the move, has not
retired. -/
def Gpu.liveFwd (g : Gpu) (core : Nat) : List (Nat × Nat) :=
  (g.core core).fwd.filter fun x => g.ops.any fun o => decide (o.id < x.2) && match o.kind with | .copy c => c.dwg == x.1 | _ => false

/-- Whether the old cores of moving workgroups have forwarding entries free for all that leave them (R380). -/
def Gpu.fwdFree (g : Gpu) (ms : List Wg) : Bool :=
  ms.all fun v => decide ((g.liveFwd (v.core?.getD 0)).length + (ms.filter fun u => u.core? == v.core?).length ≤ 8)

/-- Whether workgroups that have left their cores find room on others, one after another. -/
def Gpu.allTake (g : Gpu) (l : Launch) : List (Wg × Nat) → Bool
  | [] => true
  | (w, c) :: rest => (g.coresFor l).contains c && g.takes l w c && Gpu.allTake (g.sit w.id c) l rest

/-- MIGRATION (R379, R380): within the launch's cores, with forwarding entries free at the old cores; the members that PAIRADJ binds to
one pair move together, each to its side of the new pair (R49). -/
def execMigration (wg core : Nat) (s : State) : Out :=
  s.device fun g =>
    match g.wg? wg, (g.wg? wg).bind fun w => g.launch? w.launch with
    | some w, some l =>
      match w.core? with
      | none => g
      | some old =>
        let ms := g.movers l w
        let ids := ms.map Wg.id
        let dest := fun (v : Wg) => if l.paired w then core / 2 * 2 + (v.core?.getD 0) % 2 else core
        let apart := if l.paired w then core / 2 != old / 2 && core % 2 == old % 2 else core != old
        if !apart || !g.mayMigrate l ms dest || !(g.without ids).allTake l (ms.map fun v => (v, dest v)) || !g.fwdFree ms then g
        else
          let g' := g.settleWgs ids.contains
          if g'.saveBlocked ids.contains then g'
          else
            let g' := ms.foldl (fun g v => g.modCore (v.core?.getD 0) fun c => { c with fwd := g.liveFwd (v.core?.getD 0) ++ [(v.id, g.nextId)] }) g'
            let g' := g'.takeOff ids.contains
            ms.foldl (fun g v => ((g.wg? v.id).map fun x => g.putOn x (dest v) (l.desc.wgNeed x)).getD g) g'
    | _, _ => g

/-- Workgroups that a launch may pre-empt (R381): best-effort, of lower PRIO, resident for 1 ms at least. -/
def Gpu.victims (g : Gpu) (l : Launch) : List Wg :=
  g.wgs.filter fun w => w.core?.isSome && decide (w.time.placed + msCycles ≤ g.now) && (g.launch? w.launch).any fun k =>
    k.part == l.part && k.desc.deadline.isNone && decide (k.desc.prio < l.desc.prio)

/-- PREEMPTION (R381): a waiting best-effort launch that finds no core takes the youngest placement of a lower launch. -/
def execPreemption (launch wg : Nat) (s : State) : Out :=
  s.device fun g =>
    match g.launch? launch, g.wg? wg with
    | some l, some w =>
      let vs := g.victims l
      if l.desc.deadline.isSome || !g.mayPlace l || (g.nextItem l).isNone || (g.autoSpot l).isSome || !vs.contains w ||
         vs.any fun v => w.time.placed < v.time.placed then g
      else
        let ids := g.withGang w
        let f := fun (i : Nat) => ids.contains i
        let g' := g.settleWgs f
        if g'.saveBlocked f then g' else g'.preempt ids
    | _, _ => g

/-! ### Compressed lines (R404 to R406) -/

/-- A dirty line's write-back from L2; none when it is refused a chunk. -/
def Gpu.tryWriteback (g : Gpu) (l : L2Line) : Option Gpu :=
  match (g.part? l.part).bind Part.comp with
  | none => none
  | some blk =>
    (g.writebackComp l.part blk (l.key.idx / 512) (l.key.idx % 512) (g.poisoned l.key) (lineBytes l.data) l.res).map fun g =>
      { g with mem := { g.mem with l2 := g.mem.l2.filter fun x => x.key != l.key } }

/-- Fills that find a way again are known no more (R406), and finishes that waited for dirty lines are formed. -/
def Gpu.freeFills (g : Gpu) : Gpu :=
  ({ g with mem := { g.mem with fills := g.mem.fills.filter g.noWay } } : Gpu).formFinishes

/-- PINNED as it stands, and its flag (R401, R406); what pins held back goes on. -/
def Gpu.notePins (g : Gpu) (part : Nat) : Gpu :=
  match (g.part? part).bind Part.comp with
  | none => g
  | some blk =>
    let c := g.mem.cblk blk
    (g.setPressure part c c.fcount ((g.mem.l2.filter fun l => l.part == part && l.pin.isSome).length)).freeFills

/-- The line pinned first among some. -/
def firstPin (ls : List L2Line) : Option L2Line :=
  ls.foldl (fun (b : Option L2Line) l => match b with
    | none => some l
    | some x => if l.pin.getD 0 < x.pin.getD 0 then some l else some x) none

/-- The pinned line that a chunk is available to, the one pinned first (R406). -/
def Gpu.nextPin (g : Gpu) (part : Nat) : Option L2Line :=
  firstPin (g.mem.l2.filter fun l => l.part == part && l.pin.isSome && (g.tryWriteback l).isSome)

/-- The exception of R406: a fill of a deadline launch finds its set full of pins, and FCOUNT is above zero: the oldest pinned line of
the set takes a chunk. -/
def Gpu.resPin (g : Gpu) (part : Nat) : Option L2Line :=
  (g.mem.fills.filter fun k => g.lineOwner k == part && g.noWay k).findSome? fun k => firstPin ((g.mem.l2.filter fun l => l.part == part && l.pin.isSome && g.homeOf l.key == g.homeOf k &&
      Config.l2Set l.key.idx % 2048 == Config.l2Set k.idx % 2048).map fun l => { l with res := true })

/-- LINE_WRITEBACK_COMPRESSED (R404, R406): pins that can be served come first; a line refused a chunk is pinned, unless its slice
holds 256 pins already. -/
def execLineWritebackCompressed (part ridx line : Nat) (s : State) : Out :=
  s.device fun g =>
    match g.mem.l2.find? fun l => l.part == part && l.pin.isNone && l.key == ⟨.comp part, 512 * ridx + line⟩ with
    | none => g
    | some l =>
      if (g.nextPin part).isSome then g
      else match g.tryWriteback l with
        | some g => g.freeFills
        | none =>
          let pins := g.mem.l2.filter fun x => x.part == part && x.pin.isSome && g.homeOf x.key == g.homeOf l.key
          if 256 ≤ pins.length then g
          else
            let seq := ((g.part? part).map Part.nextPin).getD 0
            let pin := fun (x : L2Line) => if x.key = l.key then { x with pin := some seq } else x
            let g := { g with mem := { g.mem with l2 := g.mem.l2.map pin } }
            (g.modPart part fun p => { p with nextPin := p.nextPin + 1 }).notePins part

/-- PIN_WRITEBACK (R406): the first pinned line that a chunk is available to, or one whose way a deadline launch's fill takes. -/
def execPinWriteback (part : Nat) (s : State) : Out :=
  s.device fun g =>
    match (g.nextPin part).orElse fun _ => g.resPin part with
    | some l => ((g.tryWriteback l).getD g).notePins part
    | none => g

end Sys2Proof.Machine
end

