-- ==== Sys2Proof/Machine/HostRing.lean ====
section
/-! DEFINITION. The host ports' rings (17 R410 to R418): BAR 0, submission entries, completion entries and fault records. -/

namespace Sys2Proof.Machine

open Sys2Proof

/-! ### BAR 0 (R410) -/

/-- A ring's EN. -/
def ringOn (cfg : Word) : Bool := cfg.getLsbD 31

/-- A ring's entries: 2^LOG. -/
def ringLen (cfg : Word) : Nat := 2 ^ (cfg.toNat % 32)

/-- A write to a CFG register: bits 30..5 read zero, and EN reads 0 with a LOG outside 6 to 16 (Table 17.1). -/
def ringCfg (old v : Word) : Word :=
  if ringOn old then old
  else
    let log := v.toNat % 32
    BitVec.ofNat 32 (log + (if ringOn v && 6 ≤ log && log ≤ 16 then 2 ^ 31 else 0))

/-- Half of a BASE register written while EN is 0. -/
def ringBase (cfg : Word) (old : DWord) (high : Bool) (v : Word) : DWord :=
  if ringOn cfg then old else if high then v ++ old.setWidth 32 else ((old >>> 32).setWidth 32 : Word) ++ v

/-- RESYNC (R412): the expected HSEQ, and STOPPED cleared. -/
def Part.resync (p : Part) (v : Word) : Part := { p with expect := v, bar := { p.bar with stopped := false } }

/-- A 32-bit write to a function's BAR 0 (Table 17.1): other offsets and read-only registers discard it (R408). The expected
HSEQ starts at 0 when EN is set (R412). -/
def Part.writeBar (p : Part) (off : Nat) (v : Word) : Part :=
  let b := p.bar
  match off with
  | 0x000 => { p with bar := { b with sqbase := ringBase b.sqcfg b.sqbase false v } }
  | 0x004 => { p with bar := { b with sqbase := ringBase b.sqcfg b.sqbase true v } }
  | 0x008 =>
    let c := ringCfg b.sqcfg v
    { p with bar := { b with sqcfg := c }, expect := if ringOn c && !ringOn b.sqcfg then 0 else p.expect }
  | 0x010 => { p with bar := { b with sqtail := v } }
  | 0x018 => { p with bar := { b with cqbase := ringBase b.cqcfg b.cqbase false v } }
  | 0x01C => { p with bar := { b with cqbase := ringBase b.cqcfg b.cqbase true v } }
  | 0x020 => { p with bar := { b with cqcfg := ringCfg b.cqcfg v } }
  | 0x028 => { p with bar := { b with cqhead := v } }
  | 0x030 => { p with bar := { b with fqbase := ringBase b.fqcfg b.fqbase false v } }
  | 0x034 => { p with bar := { b with fqbase := ringBase b.fqcfg b.fqbase true v } }
  | 0x038 => { p with bar := { b with fqcfg := ringCfg b.fqcfg v } }
  | 0x03C => { p with bar := { b with fqhead := v } }
  | 0x054 => p.resync v
  | _ => p

/-- PSTAT (Table 17.1): SERVO in bits 2..1, STOPPED in bit 0. -/
def Part.pstat (p : Part) (servo : Nat) : Word := BitVec.ofNat 32 (2 * (servo % 4) + if p.bar.stopped then 1 else 0)

/-- What a host reads at an offset of a function's BAR 0 (Table 17.1): each register's value, zero from the write-only RESYNC and from an
offset that names no register (R8, R408). -/
def Part.readBar (p : Part) (servo off : Nat) : Word :=
  let b := p.bar
  match off with
  | 0x000 => b.sqbase.setWidth 32
  | 0x004 => (b.sqbase >>> 32).setWidth 32
  | 0x008 => b.sqcfg
  | 0x010 => b.sqtail
  | 0x014 => b.sqhead
  | 0x018 => b.cqbase.setWidth 32
  | 0x01C => (b.cqbase >>> 32).setWidth 32
  | 0x020 => b.cqcfg
  | 0x028 => b.cqhead
  | 0x02C => b.cqtail
  | 0x030 => b.fqbase.setWidth 32
  | 0x034 => (b.fqbase >>> 32).setWidth 32
  | 0x038 => b.fqcfg
  | 0x03C => b.fqhead
  | 0x040 => b.fqtail
  | 0x048 => b.acchseq
  | 0x04C => b.openhseq
  | 0x050 => b.lastdseq
  | 0x058 => p.pstat servo
  | _ => 0

/-- A host's read of a partition's function; it changes nothing. -/
def State.readBar (s : State) (part off : Nat) : Word := ((s.gpu.part? part).map fun p => p.readBar s.clk.servo off).getD 0

/-- BAR0_REGISTER_WRITE (R410). -/
def execBar0RegisterWrite (part off : Nat) (val : Word) (s : State) : Out :=
  s.device fun g => g.modPart part fun p => p.writeBar off val

/-- RESYNC (R412). -/
def execResync (part : Nat) (expect : Word) (s : State) : Out := s.device fun g => g.modPart part fun p => p.resync expect

/-! ### Commands and their answers (R411 to R416) -/

/-- Bytes of host memory behind a partition's port. -/
def Gpu.hostBytes (g : Gpu) (port a n : Nat) : List Byte := (List.range n).map fun i => g.homeByte ⟨.host port, a + i⟩

/-- Bytes written to host memory behind a port. -/
def Gpu.hostWrite (g : Gpu) (port a : Nat) (bs : List Byte) : Gpu :=
  g.homeStore false false ((bs.zipIdx).map fun x => (⟨.host port, a + x.2⟩, x.1))

/-- Commands that owe a finish besides their answer (Table 17.4). -/
def finishing (cmd : Nat) : Bool := [1, 3, 5, 6, 7, 10, 12, 13].contains cmd

/-- Bytes of ARGS that a command uses (Table 17.4). -/
def argBytes (cmd : Nat) : Nat :=
  if [1, 2, 9, 10, 11, 13].contains cmd then 8 else 0

/-- A submission entry that is answered FORM whatever the device holds (R412): an unknown CMD, a non-zero reserved byte. -/
def badEntry (b : List Byte) : Bool :=
  let cmd := field b 4 2
  cmd = 0 || 13 < cmd || !zeroAt b 7 9 || !zeroAt b (0x10 + argBytes cmd) (48 - argBytes cmd)

/-- OPENHSEQ (R415), and the commands whose completions are all written forgotten. -/
def Part.refresh (p : Part) : Part :=
  let owed := fun (c : Cmd) => !c.answered || c.owes || p.outbox.any fun o => o.kind ≤ 1 && o.hseq.toNat == c.hseq
  let cs := p.cmds.filter owed
  { p with cmds := cs, bar := { p.bar with openhseq := (cs.head?.map fun c => BitVec.ofNat 32 c.hseq).getD (p.bar.acchseq + 1) } }

/-- An answer formed (R414): a refused entry owes no finish. -/
def Gpu.answerOne (g : Gpu) (part : Nat) (c : Cmd) (status detail tier : Nat) (value : DWord) : Gpu :=
  let e : Compl := { hseq := BitVec.ofNat 32 c.hseq, status := status, detail := detail, kind := 0, ctx := c.ctx, tier := tier, value := value, time := 0 }
  let mark := fun (x : Cmd) => if x.hseq = c.hseq ∧ !x.answered then { x with answered := true, owes := x.owes && status == 0 } else x
  (g.post part e).modPart part fun p => { p with cmds := p.cmds.map mark }

/-- Commands in bad form answered as their turn comes: answers stand in acceptance order (R412, R414). -/
def Gpu.answerForms (g : Gpu) (part : Nat) : Gpu :=
  match g.part? part with
  | some p => ((p.cmds.filter fun c => !c.answered).takeWhile Cmd.form).foldl (fun g c => g.answerOne part c 3 0 0 0) g
  | none => g

/-- A command answered, and those in bad form that wait behind it. -/
def Gpu.answer (g : Gpu) (part : Nat) (c : Cmd) (status detail tier : Nat) (value : DWord) : Gpu :=
  (g.answerOne part c status detail tier value).answerForms part

/-- A command's finish formed (R414). -/
def Gpu.finish (g : Gpu) (part hseq status detail ctx : Nat) (value : DWord) : Gpu :=
  let e : Compl := { hseq := BitVec.ofNat 32 hseq, status := status, detail := detail, kind := 1, ctx := ctx, tier := 0, value := value, time := 0 }
  (g.post part e).modPart part fun p => { p with cmds := p.cmds.map fun c => if c.hseq = hseq then { c with owes := false } else c }

/-- The command to be answered next, when it is the one named. -/
def Gpu.command (g : Gpu) (part hseq cmd : Nat) : Option Cmd :=
  (g.part? part).bind fun p => (p.cmds.find? fun c => !c.answered).filter fun c => c.hseq == hseq && c.cmd == cmd

/-- A command answered OK that owes its finish. -/
def Gpu.begun (g : Gpu) (part hseq cmd : Nat) : Option Cmd :=
  (g.part? part).bind fun p => p.cmds.find? fun c => c.hseq == hseq && c.cmd == cmd && c.answered && c.owes

/-- The context that a command names, when it is one of the partition's (R412). -/
def Gpu.cmdCtx (g : Gpu) (part : Nat) (c : Cmd) : Option Ctx := (g.ctx? c.ctx).filter fun x => x.part == part

/-- Deadline submissions that a port accepts in any 20 µs window, and the window in core cycles (R371). -/
def windowMax : Nat := 8
/-- The window of R371 in core cycles. -/
def windowCycles : Nat := 80000

/-- Whether an entry is a LAUNCH whose descriptor has DEADLINE valid (R371). -/
def Gpu.deadlineEntry (g : Gpu) (part : Nat) (b : List Byte) : Bool :=
  field b 4 2 == 1 && !badEntry b && match (g.ctx? (field b 6 1)).filter fun x => x.part == part with
    | some c => (g.hubRead c (field b 0x10 8) 4).any fun h => field h 2 2 % 2 == 1
    | none => false

/-- SUBMISSION_ENTRY (R412). -/
def execSubmissionEntry (part : Nat) (s : State) : Out :=
  s.device fun g =>
    match g.part? part with
    | none => g
    | some p =>
      let n := ringLen p.bar.sqcfg
      if !ringOn p.bar.sqcfg || p.bar.stopped || p.bar.sqhead.toNat % n == p.bar.sqtail.toNat % n then g
      else
        let b := g.hostBytes p.entry.port (p.bar.sqbase.toNat + 64 * (p.bar.sqhead.toNat % n)) 64
        let hseq := field b 0 4
        if hseq ≠ p.expect.toNat then
          (g.modPart part fun p => { p with bar := { p.bar with stopped := true } }).event part 1
            (BitVec.ofNat 64 (p.expect.toNat + 2 ^ 32 * hseq))
        else
          let dl := g.deadlineEntry part b
          let recent := p.recent.filter fun t => g.now < t + windowCycles
          if dl && windowMax ≤ recent.length then g
          else
            let cmd := field b 4 2
            let c : Cmd :=
              { hseq := hseq, cmd := cmd, ctx := field b 6 1, args := b.drop 0x10, form := badEntry b, answered := false,
                owes := finishing cmd, at_ := g.now }
            let take := fun (p : Part) =>
              { p with
                cmds := p.cmds ++ [c]
                expect := p.expect + 1
                recent := if dl then recent ++ [g.now] else recent
                bar := { p.bar with acchseq := BitVec.ofNat 32 hseq, sqhead := BitVec.ofNat 32 ((p.bar.sqhead.toNat + 1) % n) } }
            ((g.modPart part take).answerForms part).modPart part Part.refresh

/-! ### Completion entries and fault records (R413, R417) -/

/-- The 32 bytes of a completion entry (Table 17.3). -/
def Compl.bytes (c : Compl) (dseq : Word) : List Byte :=
  bytesOfNat 4 c.hseq.toNat ++ bytesOfNat 4 dseq.toNat ++ bytesOfNat 2 c.status ++ bytesOfNat 2 c.detail ++ bytesOfNat 1 c.kind ++
  bytesOfNat 1 c.ctx ++ bytesOfNat 1 c.tier ++ bytesOfNat 1 0 ++ bytesOfNat 8 c.value.toNat ++ bytesOfNat 8 c.time

/-- A ring with a free slot (R413, R417). -/
def ringRoom (cfg head tail : Word) : Bool :=
  let n := ringLen cfg
  ringOn cfg && (tail.toNat + 1) % n != head.toNat % n

/-- COMPLETION_WRITE (R413): the oldest entry formed goes into a free slot. -/
def execCompletionWrite (part : Nat) (s : State) : Out :=
  s.device fun g =>
    match g.part? part with
    | none => g
    | some p =>
      match p.outbox with
      | [] => g
      | c :: cs =>
        if !ringRoom p.bar.cqcfg p.bar.cqhead p.bar.cqtail then g
        else
          let n := ringLen p.bar.cqcfg
          let g := g.hostWrite p.entry.port (p.bar.cqbase.toNat + 32 * (p.bar.cqtail.toNat % n)) (c.bytes p.dseq)
          g.modPart part fun p => Part.refresh
            { p with
              outbox := cs
              dseq := p.dseq + 1
              bar := { p.bar with cqtail := BitVec.ofNat 32 ((p.bar.cqtail.toNat + 1) % n), lastdseq := p.dseq } }

/-- The 32 bytes of a fault record (Table 16.3). -/
def FaultRec.bytes (r : FaultRec) (time : Nat) : List Byte :=
  bytesOfNat 8 r.va ++ bytesOfNat 2 r.asid ++ bytesOfNat 1 r.access ++ bytesOfNat 1 r.cause ++ bytesOfNat 2 r.core ++ bytesOfNat 1 r.ctx ++
  bytesOfNat 1 0 ++ bytesOfNat 4 r.seq ++ bytesOfNat 4 (min r.lanes.length 0xFFFFFFFF) ++ bytesOfNat 8 time

/-- FAULT_RECORD_WRITE (R417): the oldest record not yet written. -/
def execFaultRecordWrite (part : Nat) (s : State) : Out :=
  s.device fun g =>
    match g.part? part with
    | none => g
    | some p =>
      match p.faults.find? fun r => !r.written with
      | none => g
      | some r =>
        if !ringRoom p.bar.fqcfg p.bar.fqhead p.bar.fqtail then g
        else
          let n := ringLen p.bar.fqcfg
          let g := g.hostWrite p.entry.port (p.bar.fqbase.toNat + 32 * (p.bar.fqtail.toNat % n)) (r.bytes g.ptp)
          let mark := fun (x : FaultRec) => if x.seq = r.seq then { x with written := true } else x
          g.modPart part fun p =>
            { p with faults := p.faults.map mark, bar := { p.bar with fqtail := BitVec.ofNat 32 ((p.bar.fqtail.toNat + 1) % n) } }

end Sys2Proof.Machine
end

