-- ==== Sys2Proof/Machine/Admission.lean ====
section
/-! DEFINITION. LAUNCH: the descriptor and its tables with their checks (02 R47, R48, R52, R54, R58 to R61; 01 R25), and the
admission test (15 R369 to R373; 17 R420). -/

namespace Sys2Proof.Machine

open Sys2Proof

/-! ### The descriptor and its tables (Tables 2.5, 2.7, 2.9, 2.10) -/

/-- The fields of a descriptor of 256 bytes. -/
def descOf (b : List Byte) : LDesc where
  wgcount := field b 0x04 4
  wgsize := field b 0x08 2
  regs := field b 0x0A 2
  split := field b 0x0C 1
  brick := field b 0x0D 1
  tiles := field b 0x0E 1
  power := field b 0x0F 1
  scratch := field b 0x10 4
  prio := field b 0x14 1
  tiers := (List.range (field b 0x15 1)).map fun i => ⟨BitVec.ofNat 64 (field b (0x60 + 16 * i) 8), field b (0x68 + 16 * i) 4⟩
  deadline := if field b 2 2 % 2 = 1 then some (field b 0x18 8) else none
  pooln := field b 0x2C 4
  pool := BitVec.ofNat 64 (field b 0x38 8)
  greport := BitVec.ofNat 64 (field b 0x40 8)
  args := BitVec.ofNat 64 (field b 0x48 8)
  rootsucc := BitVec.ofNat 64 (field b 0x50 8)

/-- A number of registers that may be declared (R16). -/
def regsOk (r : Nat) : Bool := decide (32 ≤ r) && decide (r ≤ 256) && r % 8 == 0

/-- R60 on the descriptor's own fields. -/
def descOk (va : Nat) (b : List Byte) : Bool :=
  let d := descOf b
  let u := field b
  let le := fun (a b : Nat) => decide (a ≤ b)
  let s := 65536 * d.split
  va % 64 == 0 && u 0 2 == 1 && le (u 2 2) 1 && le 1 d.wgcount && le d.wgcount (2 ^ 24) && le 1 d.wgsize && le d.wgsize 1024 &&
  regsOk d.regs && le d.split 7 && le d.brick 2 && (d.brick == 0 || le (s + 65536 * d.brick + 65536) 524288) && le d.tiles 64 && le d.power 7 &&
  d.scratch % 1024 == 0 && le d.scratch s && le d.prio 7 && le 1 (u 0x15 1) && le (u 0x15 1) 4 && le (u 0x16 1) 64 && le (u 0x28 2) 256 &&
  le d.pooln (2 ^ 20) && zeroAt b 0x17 1 && zeroAt b 0x2A 2 && zeroAt b 0x58 8 && zeroAt b 0xA0 96 &&
  (u 0x28 2 == 0 || u 0x20 8 % 64 == 0) && (u 0x16 1 == 0 || (u 0x30 8 % 32 == 0 && d.pooln != 0)) && (d.pooln == 0 || u 0x38 8 % 128 == 0) &&
  (List.range (u 0x15 1)).all fun i => u (0x60 + 16 * i) 8 % 8 == 0 && u (0x68 + 16 * i) 4 != 0 && zeroAt b (0x6C + 16 * i) 4

/-- A node table entry's fields. -/
def nodeOf (b : List Byte) : Node where
  entry := BitVec.ofNat 64 (field b 0 8)
  batch := field b 8 2
  regs := field b 0xA 2
  timeout := field b 0xC 2
  tiles := field b 0xE 1
  scratch := field b 0x10 4
  budget := field b 0x14 4
  succ := BitVec.ofNat 64 (field b 0x18 8)

/-- The ranges of a node table entry (R58). -/
def nodeOk (n : Nat) (b : List Byte) : Bool :=
  let x := nodeOf b
  field b 0 8 % 8 == 0 && decide (1 ≤ x.batch) && decide (x.batch ≤ 32) && regsOk x.regs && decide (x.tiles ≤ 64) && zeroAt b 0xF 1 &&
  x.scratch % 1024 == 0 && x.budget != 0 && decide (x.succ.toNat < 2 ^ n)

/-- Consecutive entries of a table. -/
def chunksOf (size : Nat) (b : List Byte) (n : Nat) : List (List Byte) := (List.range n).map fun i => (b.drop (size * i)).take size

/-- A table read, entry by entry; none when it cannot be read. -/
def Gpu.readEntries (g : Gpu) (c : Ctx) (va size n : Nat) : Option (List (List Byte)) :=
  if n = 0 then some [] else (g.hubRead c va (size * n)).map fun b => chunksOf size b n

/-- A gang table entry (R47, R48) with its list; none when it breaks R48, and no gang where VALID is clear. -/
def Gpu.readGang (g : Gpu) (c : Ctx) (d : LDesc) (i : Nat) (b : List Byte) : Option (List Gang) :=
  let fl := field b 0 4
  let n := field b 4 4
  if fl % 2 = 0 then some []
  else if 8 ≤ fl || n = 0 || 4096 < n || field b 8 8 % 4 ≠ 0 || (fl / 2 % 2 = 1 && n % 2 = 1) then none
  else
    (g.hubRead c (field b 8 8) (4 * n)).bind fun l =>
      let ms := (List.range n).map fun k => field l (4 * k) 4
      if ((ms.zip ms.tail).all fun x => decide (x.1 < x.2)) && ms.all fun m => decide (m < d.wgcount) then
        some [{ idx := i, pairadj := fl / 2 % 2 == 1, report := fl / 4 % 2 == 1, members := ms, e := n * d.wgsize, phase := false,
                arr := [], ends := [], written := false }]
      else none

/-- A node that some node's SUCC names (R54). -/
def Launch.inner (l : Launch) (n : Nat) : Bool := l.nodes.any fun x => x.succ.getLsbD n

/-- Records held in reserve (R54). -/
def Launch.reserved (l : Launch) : Nat := ((l.nodes.zipIdx).map fun x => if l.inner x.2 then x.1.batch else 0).sum

/-- R48 on the gangs together, and R58 on the graph and the pool. -/
def Launch.tablesOk (l : Launch) : Bool :=
  let k := l.nodes.length
  let ms := l.gangs.flatMap Gang.members
  (ms.all fun m => decide ((ms.filter (· == m)).length ≤ 4)) && decide (l.desc.rootsucc.toNat < 2 ^ k) &&
  (!(l.gangs.any fun x => x.report) || l.desc.greport.toNat % 16 == 0) &&
  (k == 0 || decide (l.reserved + 1 ≤ l.desc.pooln)) &&
  (l.nodes.zipIdx).all fun x => !(l.reach k x.1.succ).contains x.2

/-- The pool divided (R54): each inner node's reserve lies above the general part. -/
def Launch.dividePool (l : Launch) : Launch :=
  let n := l.desc.pooln - l.reserved
  let rs := (l.nodes.zipIdx).foldl (fun (x : List (Nat × List Nat) × Nat) y =>
    if l.inner y.2 then (x.1 ++ [(y.2, (List.range y.1.batch).map (x.2 + ·))], x.2 + y.1.batch) else x) ([], n)
  { l with general := List.range n, reserve := rs.1 }

/-- A launch as its descriptor gives it, read once; none when it breaks R48, R58 or R60, or cannot be read. -/
def Gpu.readLaunch (g : Gpu) (c : Ctx) (cmd : Cmd) : Option Launch :=
  let va := field cmd.args 0 8
  (g.hubRead c va 256).bind fun b =>
    if !descOk va b then none
    else
      let d := descOf b
      (g.readEntries c (field b 0x30 8) 32 (field b 0x16 1)).bind fun ns =>
        if !ns.all (nodeOk ns.length) then none
        else
          (g.readEntries c (field b 0x20 8) 16 (field b 0x28 2)).bind fun gs =>
            ((gs.zipIdx).mapM fun x => g.readGang c d x.2 x.1).bind fun gangs =>
              let l : Launch :=
                { id := g.nextId, ctx := c.slot, part := c.part, hseq := cmd.hseq, desc := d, nodes := ns.map nodeOf, gangs := gangs.flatten,
                  tier := 0, status := .queued, accepted := cmd.at_, alloc := none, waiting := List.range d.wgcount, queue := [],
                  packs := ns.map fun _ => ⟨[], 0, 0, 0⟩, general := [], reserve := [], parked := [], nextSeq := 0, fences := [],
                  charged := 0, fin := none }
              if l.tablesOk then some l.dividePool else none

/-! ### Wave plans and the SHAPE checks (R25, R48, R373) -/

/-- A workgroup fits an empty core (R25). -/
def Need.fitsEmpty (n : Need) : Bool :=
  decide (n.teams ≤ 64) && decide (n.teams * n.regs ≤ 2048) && decide (n.scratch ≤ 65536 * n.split) && decide (n.tiles ≤ 64)

/-- What the members of a component that pairs bind together ask of one core pair: slots of its leader and of its follower core (R49);
none when a workgroup would have to be on both. -/
def Launch.pairAsks (l : Launch) (comp : List Nat) : Option (List (Nat × Nat)) :=
  let ps := l.pairs comp
  let lead := fun (i : Nat) => ps.any fun p => p.1 == i
  let foll := fun (i : Nat) => ps.any fun p => p.2 == i
  if comp.any fun i => lead i && foll i then none
  else
    let groups := ((comp.filter fun i => lead i || foll i).map fun i => (boundTo ps i).insertionSort (· ≤ ·)).dedup
    some (groups.map fun s => ((s.filter lead).length, (s.filter foll).length))

/-- Whether some assignment gives every ask a core pair with room, the pairs given by their free slots. -/
def assignable : List (Nat × Nat) → List (Nat × Nat) → Bool
  | [], _ => true
  | a :: asks, rooms => rooms.dedup.any fun r =>
      decide (a.1 ≤ r.1) && decide (a.2 ≤ r.2) && assignable asks ((r.1 - a.1, r.2 - a.2) :: rooms.erase r)

/-- Whether one wave holds the given components whole (R373): its slots suffice, and some assignment sets every pair on a core pair. -/
def Launch.waveHolds (l : Launch) (cores : List Nat) (q : Nat) (comps : List (List Nat)) : Bool :=
  let pairs := cores.filter fun c => c % 2 == 0 && cores.contains (c + 1)
  decide ((comps.map List.length).sum ≤ q * cores.length) &&
  match comps.mapM l.pairAsks with
  | none => false
  | some asks => assignable asks.flatten (pairs.map fun _ => (q, q))

/-- The gang components of a launch, in ascending order of their lowest member (R373). -/
def Launch.components (l : Launch) : List (List Nat) :=
  let heads := (l.gangs.filterMap fun x => x.members.head?).dedup.insertionSort (· ≤ ·)
  (heads.map fun i => (l.component i).insertionSort (· ≤ ·)).dedup.insertionSort fun a b => a.headD 0 ≤ b.headD 0

/-- Waves of a plan with the components placed, each whole in the first wave that has room: the components of each wave. -/
def Launch.compWaves (l : Launch) (cores : List Nat) (q : Nat) : Option (List (List (List Nat))) :=
  l.components.foldl (fun ws comp => ws.bind fun ws =>
    match ws.findIdx? fun w => l.waveHolds cores q (w ++ [comp]) with
    | some i => some (ws.modify i (· ++ [comp]))
    | none => if l.waveHolds cores q [comp] then some (ws ++ [[comp]]) else none) (some [])

/-- W, the waves of the wave plan on the given cores (R373). -/
def Launch.waves (l : Launch) (cores : List Nat) : Option Nat :=
  let q := l.desc.need.perCore
  let slots := q * cores.length
  (l.compWaves cores q).map fun ws =>
    let free := (ws.map fun w => slots - (w.map List.length).sum).sum
    let rest := l.desc.wgcount - (l.components.map List.length).sum
    if rest ≤ free then ws.length else ws.length + (rest - free + slots - 1) / slots

/-- The SHAPE checks against a partition's cores (R25, R48, R58). -/
def Launch.shapeOk (l : Launch) (cores : List Nat) : Bool :=
  l.desc.need.fitsEmpty && (l.nodes.all fun n => (l.desc.nodeNeed n n.batch).fitsEmpty) && (l.compWaves cores l.desc.need.perCore).isSome

/-! ### The admission test (R372, R373) -/

/-- Preference class of a core, by the work it holds (R373): none, only best-effort work, or else. -/
def Gpu.coreClass (g : Gpu) (core : Nat) : Nat :=
  if (g.resident core).isEmpty then 0
  else if (g.resident core).all fun w => (g.launch? w.launch).any fun l => l.desc.deadline.isNone then 1 else 2

/-- The partition's cores in preference order; with `pairs`, a pair's two cores stand together (R373). -/
def Gpu.preferred (g : Gpu) (pairs : Bool) (cores : List Nat) : List Nat :=
  if pairs then
    let lead := cores.filter fun c => c % 2 == 0 && cores.contains (c + 1)
    let cls := fun (c : Nat) => max (g.coreClass c) (g.coreClass (c + 1))
    [0, 1, 2].flatMap fun k => (lead.filter fun c => cls c == k).flatMap fun c => [c, c + 1]
  else [0, 1, 2].flatMap fun k => cores.filter fun c => g.coreClass c == k

/-- The earliest start at which cores are free of every reservation for T cycles (R372). -/
def earliest (ws : List Window) (cores : List Nat) (t : Nat) : Nat :=
  let mine := ws.filter fun w => w.cores.any cores.contains
  let ok := fun (s : Nat) => mine.all fun w => decide (s + t ≤ w.start) || decide (w.stop ≤ s)
  (((0 :: mine.map Window.stop).filter ok).foldl (fun (b : Option Nat) s => match b with
    | none => some s
    | some x => some (min x s)) none).getD 0

/-- The Fabric check (R420): rates of the valid endpoints of the partition's contexts, by port. -/
def Gpu.fabricOk (g : Gpu) (p : Part) : Bool :=
  let eps := (g.ctxs.filter fun c => c.part == p.id).flatMap fun c => (List.range c.nept).filterMap fun i => g.endpoint c i
  (List.range 6).all fun port =>
    let rate := ((eps.filter fun b => field b 5 1 / 2 ^ port % 2 == 1).map fun b => field b 8 2).sum
    decide (2 * rate ≤ 25 * p.entry.fabric.getD port 0)

/-- Malformed entries that the reading of those endpoints met, logged (R393). -/
def Gpu.logTables (g : Gpu) (p : Part) : Gpu :=
  (g.ctxs.filter fun c => c.part == p.id).foldl (fun g c => (List.range c.nept).foldl (fun g i => g.logEnd c i) g) g

/-- Whether an entry maps a compressed page (R393, R401). -/
def Gpu.leafComp (g : Gpu) (c : Ctx) (p : Part) (base i level : Nat) (e : DWord) : Bool :=
  e.getLsbD 0 && e.getLsbD 1 && (g.leafOf c p base i level e).any fun l => match l.base.sp with | .comp _ => true | _ => false

/-- Whether a table at a level holds a leaf of a compressed page, in itself or below; a malformed entry maps nothing (R393). -/
def Gpu.tableComp (g : Gpu) (c : Ctx) (p : Part) : Nat → Nat → Bool
  | level, base => p.entry.holds base && (List.range 512).any fun i =>
      let e : DWord := BitVec.ofNat 64 (natOfBytes (g.mem.devBytes (base + 8 * i) 8))
      g.leafComp c p base i level e || match level with
        | 0 => false
        | k + 1 => e.getLsbD 0 && !e.getLsbD 1 && e.toNat / 2 ^ 48 == 0 && !e.getLsbD 2 && e.toNat / 8 % 512 == 0 &&
            g.tableComp c p k (e.toNat / 4096 % 2 ^ 36 * 4096)

/-- The Capacity check (R372, R405). -/
def Gpu.capacityOk (g : Gpu) (c : Ctx) (p : Part) : Bool :=
  match p.comp with
  | none => true
  | some blk =>
    let k := g.mem.cblk blk
    decide (k.wmark < k.fcount) || !g.tableComp c p 3 c.ptroot

/-- What a test of one tier on one core count finds: its window and the checks. -/
structure Trial where
  alloc : Alloc
  start : Nat
  time  : Bool
  power : Bool

/-- One allotment tried (R372). -/
def Gpu.trial (g : Gpu) (l : Launch) (c : Ctx) (p : Part) (tier n : Nat) : Option Trial :=
  let adj := l.gangs.any fun x => x.pairadj
  let cs := (g.preferred adj p.entry.cores).take n
  (l.waves cs).map fun w =>
    let b := scaledBudget c.shadow ((l.desc.tiers[tier]?.map Tier.budget).getD 0)
    let wave := b + 8000 + (if adj then 24000 else 0)
    let k := (cs.filter fun x => (g.resident x).any fun v => (g.launch? v.launch).any fun y => y.desc.deadline.isNone).length
    let t := (if k = 0 then 0 else 16000 + 400 * k) + w * wave
    let ws := g.windows p.id
    let s := earliest ws cs t
    { alloc := { cores := cs, start := g.now + s, stop := g.now + s + t }, start := s,
      time := decide (s + t ≤ 4 * (l.desc.deadline.getD 0 - g.ptp)),
      power := powerOk ws p.entry.powerw (n * classPower l.desc.power) s t }

/-- CandidateCounts (R373). -/
def Launch.candidates (l : Launch) (p : Part) : List Nat :=
  let adj := l.gangs.any fun x => x.pairadj
  let big := (l.components.map List.length).foldl max 0
  let ns := ((List.range p.entry.cores.length).map (· + 1)).filter fun n => (!adj || n % 2 == 0) && decide (big ≤ l.desc.need.perCore * n)
  if l.nodes.isEmpty then ns else ns.reverse

/-- The admission test (R372): the tier and the allotment, or the DETAIL word of NOFIT (R368). -/
def Gpu.placeLaunch (g : Gpu) (l : Launch) (c : Ctx) (p : Part) : Except Nat (Nat × Trial) :=
  if l.desc.deadline.getD 0 ≤ g.ptp then .error 16
  else
    let fab := g.fabricOk p
    let cap := g.capacityOk c p
    let tries := fun (i : Nat) => (l.candidates p).filterMap fun n => g.trial l c p i n
    let pass := fun (t : Trial) => t.time && t.power && fab && cap
    match (List.range l.desc.tiers.length).findSome? fun i => ((tries i).find? pass).map fun t => (i, t) with
    | some r => .ok r
    | none =>
      let last := (tries (l.desc.tiers.length - 1)).getLast?
      let bit := fun (ok : Bool) (v : Nat) => if ok then 0 else v
      .error (bit (last.any Trial.time) 1 + bit ((last.map Trial.power).getD true) 2 + bit fab 4 + bit cap 8)

/-- Malformed entries that the reading of a launch's descriptor and tables met, logged (R393). -/
def Gpu.logLaunch (g : Gpu) (c : Ctx) (cmd : Cmd) : Gpu :=
  let va := field cmd.args 0 8
  match g.hubRead c va 256 with
  | none => g.logWalk c 0xFFFF va 256
  | some b =>
    if !descOk va b then g
    else if (g.readEntries c (field b 0x30 8) 32 (field b 0x16 1)).isNone then g.logWalk c 0xFFFF (field b 0x30 8) (32 * field b 0x16 1)
    else match g.readEntries c (field b 0x20 8) 16 (field b 0x28 2) with
      | none => g.logWalk c 0xFFFF (field b 0x20 8) (16 * field b 0x28 2)
      | some gs => gs.foldl (fun g e =>
          let n := field e 4 4
          if field e 0 4 % 2 = 1 && n ≤ 4096 && (g.hubRead c (field e 8 8) (4 * n)).isNone then g.logWalk c 0xFFFF (field e 8 8) (4 * n) else g) g

/-- LAUNCH (R369, R370, R447): FENCED for a fenced context; FORM, then SHAPE; a best-effort launch is queued, a deadline launch
tested. -/
def execLaunch (part hseq : Nat) (s : State) : Out :=
  s.device fun g =>
    match g.command part hseq 1, g.part? part with
    | some cmd, some p =>
      match g.cmdCtx part cmd with
      | none => g.answer part cmd 3 0 0 0
      | some c =>
        match c.status with
        | .fenced _ => g.answer part cmd 5 0 0 0
        | _ =>
          match g.readLaunch c cmd with
          | none => (g.logLaunch c cmd).answer part cmd 3 0 0 0
          | some l =>
            if !l.shapeOk p.entry.cores then g.answer part cmd 2 0 0 0
            else
              let add := fun (g : Gpu) (l : Launch) => ({ g.fresh with launches := g.launches ++ [l] } : Gpu)
              if l.desc.deadline.isNone then (add g l).answer part cmd 0 0 0 0
              else
                let r := g.placeLaunch l c p
                let g := g.logTables p
                match r with
                | .error d => g.answer part cmd 1 d 0 0
                | .ok (i, t) =>
                  (add g { l with tier := i, status := .reserved, alloc := some t.alloc }).answer part cmd 0 0 i (BitVec.ofNat 64 (g.ptp + t.start / 4))
    | _, _ => g

end Sys2Proof.Machine
end

