-- ==== Sys2Proof/Machine/Barrier.lean ====
section
/-! DEFINITION. Workgroup and gang barriers (07 R223; 02 R42 to R46, R50). -/

namespace Sys2Proof.Machine

open Sys2Proof

/-- A barrier of a workgroup. -/
def Gpu.bar? (g : Gpu) (wg b : Nat) : Option Bar := (g.wg? wg).bind fun w => w.bars[b]?

/-- One lane's arrival at a barrier (R43): a re-arrival traps; the thread's stores precede what the released threads read
(R46), and so do its remote reads; then the completion test. -/
def Gpu.barArrive (b : BitVec 4) (wait : Bool) (g : Gpu) (t : TRef) (e : Env) (_th : Thread) : Gpu × Fate :=
  match g.bar? t.wg b.toNat with
  | none => (g, .done)
  | some x =>
    if x.arr.getLsbD t.tid then (g, .trap (.of .barRearrival))
    else
      g.afterReads e.core t .core (
        let g := ((g.release e.core t .core).arriveBar t b.toNat x).testBar t.wg b.toNat
        let open_ := (g.bar? t.wg b.toNat).map Bar.phase == some x.phase
        (if wait && open_ then g.modThread t fun th => { th with status := .parked (.barrier b.toNat) } else g, .done))

/-- `bar` (R223). -/
def execBar (p : Pfx) (bar : BitVec 4) (s : State) : Out := s.device fun g => g.laneWord p [] (Gpu.barArrive bar true)

/-- `bararv` (R223). -/
def execBararv (p : Pfx) (bar : BitVec 4) (s : State) : Out := s.device fun g => g.laneWord p [] (Gpu.barArrive bar false)

/-- One lane's wait (R43): while the phase is the one of the thread's last arrival. -/
def Gpu.barWait (b : BitVec 4) (g : Gpu) (t : TRef) (_e : Env) (_th : Thread) : Gpu × Fate :=
  match g.bar? t.wg b.toNat with
  | none => (g, .done)
  | some x =>
    let waits := x.e ≠ 0 && (x.last.any fun l => l.1 == t.tid && l.2 == x.phase)
    (if waits then g.modThread t fun th => { th with status := .parked (.barrier b.toNat) } else g, .done)

/-- `barwt` (R223). -/
def execBarwt (p : Pfx) (bar : BitVec 4) (s : State) : Out := s.device fun g => g.laneWord p [] (Gpu.barWait bar)

/-- One lane's `barinit` (R45). -/
def Gpu.barInit (b : BitVec 4) (src : SrcB) (g : Gpu) (t : TRef) (_e : Env) (th : Thread) : Gpu × Fate :=
  let n := (th.srcW src).toNat
  match g.wg? t.wg, g.bar? t.wg b.toNat with
  | some w, some x =>
    if n = 0 || w.size < n then (g, .trap (.of .barCount))
    else if x.a ≠ 0 || !(g.waiters fun u y => u.wg == t.wg && y == .barrier b.toNat).isEmpty then (g, .trap (.of .barBusy))
    else
      let y : Bar := { e := n, a := 0, phase := false, arr := 0, parts := 0, last := [] }
      (g.modWg t.wg fun w => { w with bars := w.bars.set b.toNat y }, .done)
  | _, _ => (g, .done)

/-- `barinit` (R45). -/
def execBarinit (p : Pfx) (bar : BitVec 4) (b : SrcB) (s : State) : Out :=
  s.device fun g => g.laneWord p (b.span false) (Gpu.barInit bar b)

/-- One lane's `gbar` (R50): a gang that does not list the thread's workgroup traps; the arrival is a release. -/
def Gpu.gangArrive (b : SrcB) (g : Gpu) (t : TRef) (e : Env) (th : Thread) : Gpu × Fate :=
  let n := (th.srcW b).toNat
  match g.wg? t.wg with
  | none => (g, .trap (.of .gangMember))
  | some w =>
    match (g.launch? w.launch).bind fun l => l.gangs.find? fun x => x.idx == n with
    | none => (g, .trap (.of .gangMember))
    | some x =>
      if w.node.isSome || !x.members.contains w.index then (g, .trap (.of .gangMember))
      else g.afterReads e.core t .dev (
        let g := g.release e.core t .dev
        let g := g.modThread t fun th => { th with status := .parked (.gang n) }
        ((g.modGang w.launch n fun x => { x with arr := x.arr ++ [t] }).testGang w.launch n, .done))

/-- `gbar` (R223). -/
def execGbar (p : Pfx) (b : SrcB) (s : State) : Out := s.device fun g => g.laneWord p (b.span false) (Gpu.gangArrive b)

end Sys2Proof.Machine
end

