-- ==== Sys2Proof/Machine/Convert.lean ====
section
/-! DEFINITION. Interval instructions (06 R185, R186) and conversion and packed instructions (06 R187 to R190). -/

namespace Sys2Proof.Machine

open Sys2Proof

/-! ### Intervals (Table 6.9) -/

/-- The interval in a pair. -/
def ivOf (w : DWord) : Iv := ivRead (w.setWidth 32) ((w >>> 32).setWidth 32)

/-- The pair that holds two words. -/
def pairWord (x : Word × Word) : DWord := x.2 ++ x.1

/-- The two words of a pair. -/
def wordsOf (w : DWord) : List Word := [w.setWidth 32, (w >>> 32).setWidth 32]

/-- d := f(a, b) on intervals; every source register is an F32 read. -/
def State.iv2 (s : State) (p : Pfx) (d a : Reg) (b : SrcB) (f : Iv → Iv → Iv) : Out :=
  s.device fun g => g.aluWord p (d.span true ++ a.span true ++ b.span true) fun _ th =>
    let x := th.pair a
    let y := th.srcD b
    verdictOr (wordsOf x ++ wordsOf y) (.ok (th.setPair d (pairWord (ivWrite (f (ivOf x) (ivOf y))))))

/-- d := f(a) on an interval, with the flags f gives (R82). -/
def State.iv1 (s : State) (p : Pfx) (d a : Reg) (f : Iv → Iv) (fl : Iv → BitVec 5) : Out :=
  s.device fun g => g.aluWord p (d.span true ++ a.span true) fun e th =>
    let x := th.pair a
    verdictOr (wordsOf x) (withFlags e th (fl (ivOf x)) fun th => th.setPair d (pairWord (ivWrite (f (ivOf x)))))

/-- `ivadd` (R185). -/
def execIvadd (p : Pfx) (d a : Reg) (b : SrcB) (s : State) : Out := s.iv2 p d a b ivAdd

/-- `ivsub` (R185). -/
def execIvsub (p : Pfx) (d a : Reg) (b : SrcB) (s : State) : Out := s.iv2 p d a b ivSub

/-- `ivmul` (R185). -/
def execIvmul (p : Pfx) (d a : Reg) (b : SrcB) (s : State) : Out := s.iv2 p d a b ivMul

/-- `ivsqr` (R185). -/
def execIvsqr (p : Pfx) (d a : Reg) (s : State) : Out := s.iv1 p d a ivSqr fun _ => 0

/-- `ivsqrt` (R82, R185): invalid when a non-empty operand has no part at or above 0. -/
def execIvsqrt (p : Pfx) (d a : Reg) (s : State) : Out :=
  s.iv1 p d a ivSqrt fun x => if x.isSome && (ivSqrt x).isNone then flNV else 0

/-- `ivmin` (R185). -/
def execIvmin (p : Pfx) (d a : Reg) (b : SrcB) (s : State) : Out := s.iv2 p d a b ivMin

/-- `ivmax` (R185). -/
def execIvmax (p : Pfx) (d a : Reg) (b : SrcB) (s : State) : Out := s.iv2 p d a b ivMax

/-- `ivabs` (R185). -/
def execIvabs (p : Pfx) (d a : Reg) (s : State) : Out := s.iv1 p d a ivAbs fun _ => 0

/-- `ivhull` (R82, R185). -/
def execIvhull (p : Pfx) (d a : Reg) (b : SrcB) (s : State) : Out := s.iv2 p d a b ivHull

/-- `ivsplit` (R186). -/
def execIvsplit (p : Pfx) (d c a : Reg) (s : State) : Out :=
  s.device fun g => g.aluWord p (d.span true ++ c.span true ++ a.span true) fun _ th =>
    let x := th.pair a
    let h := ivSplitX (ivOf x)
    verdictOr (wordsOf x) (.ok ((th.setPair d (pairWord h.1)).setPair c (pairWord h.2)))

/-! ### Conversion (R187, R188) -/

/-- `cvt` of a source element's code (R187): the result's code and flags. -/
def cvtX (dt st : Ty) (rm : RM) (sat ftz : Bool) (a : Nat) : Nat × BitVec 5 :=
  if st.isFloat then
    if dt.isFloat then flush dt ftz (toFloat dt rm sat (valueOf st a))
    else toInt dt rm (valueOf st a)
  else
    let x := intOf st a
    if dt.isFloat then flush dt ftz (roundX dt rm sat (.val (x : Rat) false))
    else (elemResult dt sat x, 0)

/-- `cvt` (R187). -/
def execCvt (p : Pfx) (dt st : Ty) (rm : RM) (sat : Bool) (d a : Reg) (s : State) : Out :=
  s.device fun g => g.aluWord p [d, a] fun e th =>
    let x := th.reg a
    let r := cvtX dt st rm sat e.ftz (x.toNat % 2 ^ widthOf st)
    verdictOr (if st == .f32 then [x] else []) (withFlags e th r.2 fun th => th.setReg d (BitVec.ofNat 32 r.1))

/-- `cvef` (R72, R188). -/
def execCvef (p : Pfx) (dt : Ty) (d a c : Reg) (s : State) : Out :=
  s.device fun g => g.aluWord p [d, a, c] fun e th =>
    let r := cvefX dt (th.reg a) (th.reg c)
    verdictOr [th.reg a, th.reg c]
      (withFlags e th r.2.2 fun th => (th.setReg d (BitVec.ofNat 32 r.1)).setReg c r.2.1)

/-! ### Packed (R189, R190) -/

/-- `pack` (R189). -/
def execPack (p : Pfx) (ty : Ty) (idx : BitVec 3) (d a : Reg) (s : State) : Out :=
  s.device fun g => g.aluWord p [d, a] fun _ th =>
    let w := widthOf ty
    let m : Word := BitVec.ofNat 32 (2 ^ w - 1)
    let sh := w * idx.toNat
    .ok (th.setReg d ((th.reg d &&& ~~~(m <<< sh)) ||| ((th.reg a &&& m) <<< sh)))

/-- `unpack` (R189). -/
def execUnpack (p : Pfx) (ty : Ty) (idx : BitVec 3) (d a : Reg) (s : State) : Out :=
  s.device fun g => g.aluWord p [d, a] fun _ th =>
    let w := widthOf ty
    let c := (th.reg a).toNat / 2 ^ (w * idx.toNat) % 2 ^ w
    let sext := (ty == .s16 || ty == .s8 || ty == .s4) && decide (2 ^ (w - 1) ≤ c)
    .ok (th.setReg d (BitVec.ofNat 32 (if sext then c + 2 ^ 32 - 2 ^ w else c)))

/-- A byte of `prm` by its nibble (R189). -/
def prmByte (a b : Word) (v : Nat) : Nat :=
  let src := fun (i : Nat) => if i < 4 then a.toNat / 256 ^ i % 256 else b.toNat / 256 ^ (i - 4) % 256
  if v < 8 then src v else if 128 ≤ src (v - 8) then 0xFF else 0

/-- `prm` (R189). -/
def execPrm (p : Pfx) (d a : Reg) (b : SrcB) (c : Reg) (s : State) : Out :=
  s.device fun g => g.aluWord p (d :: a :: c :: b.span false) fun _ th =>
    let bs := (List.range 4).map fun i => prmByte (th.reg a) (th.srcW b) ((th.reg c).toNat / 16 ^ i % 16)
    .ok (th.setReg d (BitVec.ofNat 32 (packElems .n8 bs)))

/-- A dot step (R190): only c is an F32 read. -/
def State.dot (s : State) (p : Pfx) (ty : Ty) (d a : Reg) (b : SrcB) (c : Reg) : Out :=
  s.device fun g => g.aluWord p (d :: a :: c :: b.span false) fun e th =>
    let n := lanesOf ty
    let xs := (elems ty (th.reg a).toNat n).map (elemOf ty)
    let ys := (elems ty (th.srcW b).toNat n).map (elemOf ty)
    let r := step79 0 0 e.ftz (th.reg c) (xs.zip ys)
    verdictOr [th.reg c] (withFlags e th r.2 fun th => th.setReg d r.1)

/-- `dot2` (R190). -/
def execDot2 (p : Pfx) (ty : Ty) (d a : Reg) (b : SrcB) (c : Reg) (s : State) : Out := s.dot p ty d a b c

/-- `dot4` (R190). -/
def execDot4 (p : Pfx) (ty : Ty) (d a : Reg) (b : SrcB) (c : Reg) (s : State) : Out := s.dot p ty d a b c

/-- `dot8` (R190). -/
def execDot8 (p : Pfx) (ty : Ty) (d a : Reg) (b : SrcB) (c : Reg) (s : State) : Out := s.dot p ty d a b c

end Sys2Proof.Machine
end

