-- ==== Sys2Proof/Machine/Dual.lean ====
section
/-! DEFINITION. Dual words (05 R143 to R146). -/

namespace Sys2Proof

/-- The registers that a half names. -/
def Half.regs (h : Half) : List Reg := h.reads ++ (if h.writes then [h.hd] else [])

/-- The rounding mode in HX (Table 5.6). -/
def Half.rm (h : Half) : RM :=
  match h.hx.toNat with
  | 0 => .rn
  | 1 => .rz
  | 2 => .rd
  | _ => .ru

end Sys2Proof

namespace Sys2Proof.Machine

open Sys2Proof

/-- The F32 operands of a half that R87 examines. -/
def halfF32 (h : Half) (x a : Word) : List Word :=
  match h.op with
  | .fadd | .fsub | .fmul | .fmin | .fmax => [x, a]
  | .fscl => [x]
  | _ => []

/-- A half's result and flags (Table 5.8): `x` is HD's value, `a` HA's. -/
def halfValue (h : Half) (ftz : Bool) (x a : Word) : Word × BitVec 5 :=
  let n : Word := h.hx.setWidth 32
  match h.op with
  | .nop => (x, 0)
  | .iadd => (iaddV .s32 false x a, 0)
  | .isub => (isubV .s32 false x a, 0)
  | .imul => (imulV .s32 false x a, 0)
  | .iminS => (iminV .s32 x a, 0)
  | .iminN => (iminV .n32 x a, 0)
  | .imaxS => (imaxV .s32 x a, 0)
  | .imaxN => (imaxV .n32 x a, 0)
  | .and => (x &&& a, 0)
  | .or => (x ||| a, 0)
  | .xor => (x ^^^ a, 0)
  | .shl => (shlV x a, 0)
  | .shr => (shrV x a, 0)
  | .sar => (sarV x a, 0)
  | .rotl => (rotlV x a, 0)
  | .iaddI => (iaddV .s32 false x n, 0)
  | .isubI => (isubV .s32 false x n, 0)
  | .shlI => (shlV x n, 0)
  | .shrI => (shrV x n, 0)
  | .sarI => (sarV x n, 0)
  | .rotlI => (rotlV x n, 0)
  | .andI => (x &&& n, 0)
  | .orI => (x ||| n, 0)
  | .xorI => (x ^^^ n, 0)
  | .mov => (a, 0)
  | .not => (~~~a, 0)
  | .ineg => (inegV .s32 false a, 0)
  | .iabs => (iabsV .s32 false a, 0)
  | .popc => (popcV a, 0)
  | .clz => (clzV a, 0)
  | .brev => (brevV a, 0)
  | .movi => (h.hx.signExtend 32, 0)
  | .fadd => faddV h.rm ftz x a
  | .fsub => fsubV h.rm ftz x a
  | .fmul => fmulV h.rm ftz x a
  | .fmin => minmaxW false x a
  | .fmax => minmaxW true x a
  | .fscl => fsclV ftz x a
  | .hadd2F => hadd2V .f16 h.rm ftz x a
  | .hmul2F => hmul2V .f16 h.rm ftz x a
  | .hadd2E => hadd2V .e16 h.rm ftz x a
  | .hmul2E => hmul2V .e16 h.rm ftz x a

/-- A half that executes in a thread: its result, its flags, and whether it reads an abandoned encoding. -/
def halfRun (h : Half) (ftz : Bool) (th : Thread) : Word × BitVec 5 × Bool :=
  let x := th.reg h.hd
  let a := th.reg h.ha
  let r := halfValue h ftz x a
  (r.1, r.2, (halfF32 h x a).any isAbandoned)

/-- Whether a half executes in a thread. -/
def halfRuns (h : Half) (th : Thread) : Bool := h.op == .nop || th.guard h.g

/-- A half's write. -/
def halfWrite (h : Half) (v : Word) (th : Thread) : Thread := if h.writes then th.setReg h.hd v else th

/-- A dual word for one thread (R143): both halves read, both compute, both write, or one trap stops both. Among several traps
the order is R168's, and H1's before H2's of the same kind. -/
def dualStep (h1 h2 : Half) (len : Nat) (e : Env) (th : Thread) : Thread × Fate :=
  let next := { th with pc := th.pc + BitVec.ofNat 64 len }
  let hs := [(h1, false), (h2, true)]
  let on := hs.filter fun x => halfRuns x.1 th
  match hs.find? fun x => overRange e.regs x.1.regs with
  | some x => (th, .trap ⟨.regRange, 0, 0, x.2⟩)
  | none =>
    match th.pendingAmong (on.flatMap fun x => x.1.regs) with
    | some r => (th, .wait (.token r))
    | none =>
      let rs := on.map fun x => (x, halfRun x.1 e.ftz th)
      match rs.find? fun x => x.2.2.2 with
      | some x => (th, .trap ⟨.verdict, 0, 0, x.1.2⟩)
      | none =>
        let fl := rs.foldl (fun f x => f ||| x.2.2.1) 0
        match rs.find? fun x => fpeTraps e th x.2.2.1 with
        | some x => (th, .trap ⟨.fpe, fpeInfo fl, 0, x.1.2⟩)
        | none => ((rs.foldl (fun t x => halfWrite x.1.1 x.2.1 t) next).raise fl, .done)

/-- A dual word (R143). -/
def execDualWord (sw : Bool) (h1 h2 : Half) (s : State) : Out :=
  s.device fun g =>
    let iss := g.cur
    let step := fun (t : TRef) (th : Thread) => dualStep h1 h2 iss.len (g.env t) th
    let fs : Fates := iss.members.filterMap fun t => (g.thread? t).map fun th => (t, (step t th).2)
    let g' := g.mapThreads fun t th => if iss.members.contains t then (step t th).1 else th
    g'.finishWord sw fs

end Sys2Proof.Machine
end

