-- ==== Sys2Proof/Machine/Time.lean ====
section
/-! DEFINITION. The passing of time (00 R6; 17 R424, R425): core cycles, and PTP time as the time unit slews, steps and holds
it (log 2); what the passing of cycles does to fairness timers, dirty L1 lines and the packer's clocks. -/

namespace Sys2Proof.Machine

open Sys2Proof

/-- PTP time advanced by a number of 1/8,000 ns. -/
def Clock.addPtp (c : Clock) (u : Nat) : Clock := { c with ptp := c.ptp + (c.frac + u) / 8000, frac := (c.frac + u) % 8000 }

/-- `n` core cycles pass: 2,000 units of PTP time each; a correction under way is worked off at 500 ppm, one unit a cycle; a
held clock runs at half rate until it has caught up (R425). -/
def Clock.tick (c : Clock) (n : Nat) : Clock :=
  let c := { c with cyc := c.cyc + n }
  if c.hold then
    let need := (c.corr.natAbs + 999) / 1000
    if n < need then { c.addPtp (1000 * n) with corr := c.corr + 1000 * (n : Int) }
    else { c.addPtp (2000 * n - c.corr.natAbs) with corr := 0, hold := false }
  else if 0 ≤ c.corr then
    let k := min n c.corr.toNat
    { c.addPtp (2000 * n + k) with corr := c.corr - k }
  else
    let k := min n c.corr.natAbs
    { c.addPtp (2000 * n - k) with corr := c.corr + k }

/-- Fairness timers of a core advanced by `n` cycles (R36): a bundle counts while a READY bundle of its mode or a higher one
waits. -/
def CoreSt.runTimers (c : CoreSt) (n : Nat) : CoreSt :=
  let waits := fun (b : Bundle) => c.pending.any fun q => q.mode == b.mode || q.mode == .trap
  { c with active := c.active.map fun b => if waits b then { b with timer := b.timer + n } else b }

/-- Dirty L1 lines whose 16,384 cycles end before the cycle `till` reach their homes (R100). -/
def Gpu.cleanOverdue (g : Gpu) (till : Nat) : Gpu :=
  (g.cores.map (·.1)).foldl (fun g n => g.cleanLines n fun l => decide (l.dirtied + lineLife < till)) g

/-- TIMEOUT clocks stand still while their launch is SAVED (R63): the start of each partial batch moves on with time. -/
def Gpu.holdPacks (g : Gpu) (n : Nat) : Gpu :=
  { g with launches := g.launches.map fun l =>
      if g.launchSaved l then { l with packs := l.packs.map fun p => { p with since := p.since + n } } else l }

/-- Core cycles pass (R6). A package whose clocks are removed lets none pass (R437). -/
def State.tick (s : State) (n : Nat) : State :=
  if s.sec.held then s
  else { s with
    clk := s.clk.tick n,
    gpu := ((s.gpu.cleanOverdue (s.clk.cyc + n)).holdPacks n).mapCores fun _ c => c.runTimers n }

end Sys2Proof.Machine
end

