-- ==== Sys2Proof/Machine/Fetch.lean ====
section
/-! DEFINITION. The choice of a bundle (02 R33) and the fetch and decoding of its word (07 R212; 05 R139, R151, R152; 01 R20). -/

namespace Sys2Proof.Machine

open Sys2Proof

/-- Whether one bundle issues before another (R33): trap mode first, then the one that issued least recently. -/
def Bundle.before (a b : Bundle) : Bool :=
  match a.mode, b.mode with
  | .trap, .user => true
  | .user, .trap => false
  | _, _ => a.issued ≤ b.issued

/-- The bundle a core issues for (R33). -/
def CoreSt.pick (c : CoreSt) : Option Bundle :=
  c.active.foldl (fun best b => match best with
    | none => some b
    | some x => if x.before b then some x else some b) none

/-- A word kept in the instruction cache, which holds 64 KiB: which word leaves when it is full is not stated, and the oldest does
(log 16). -/
def CoreSt.cacheWord (c : CoreSt) (p : Phys) (w : DWord) : CoreSt :=
  { c with icache := c.icache.drop (c.icache.length + 1 - 8192) ++ [(p, w)] }

/-- A word of a peer page fetched by a remote read (R421): its bytes go to the instruction cache when they come, and the bundle issues
its word then. -/
def Gpu.fetchPeer (g : Gpu) (ts : List TRef) (p : Phys) : Gpu × Except Fate DWord :=
  let t := ts.headD ⟨0, 0⟩
  let ps := (List.range 8).map fun i => { p with addr := p.addr + i }
  if g.ops.any fun o => o.owners.isEmpty && o.owner == t && o.kind == .rread .b64 ps then (g, .error (.hold .order))
  else ((g.newOp t [] none (.rread .b64 ps) []).ask g.nextId ps, .error (.hold .order))

/-- The 8-byte word at an address, as a core's fetch reads it: through its instruction cache, which observes no store
(R20, R212). A word outside memory takes the address fault, a poisoned one the poison trap; one whose line finds no way in L2 waits
(R406). -/
def Gpu.fetch8 (g : Gpu) (core : Nat) (c : Ctx) (ts : List TRef) (a : DWord) : Gpu × Except Fate DWord :=
  match region a with
  | .mem va =>
    match g.translate core c .fetch va with
    | (g, .error f) =>
      if f.rpl then
        match ts with
        | [] => (g, .error (.trap (transTrap .fetch f.perm a)))
        | t :: us =>
          let (g, n) := g.joinFault c core va .fetch f (some t) none
          (us.foldl (fun g u => (g.joinFault c core va .fetch f (some u) none).1) g, .error (.wait (.fault c.part n 0 a)))
      else (g, .error (.trap (transTrap .fetch f.perm a)))
    | (g, .ok l) =>
      let p := l.phys va
      match (g.core core).icache.find? fun x => x.1 == p with
      | some x => (g, .ok x.2)
      | none =>
        if g.poisoned p.line then (g, .error (.trap (.at .poison a)))
        else if g.unlinked [p] then (g.logEnds [p], .error (.trap (.at .copyTarget a)))
        else if !(missing [] [p]).isEmpty then g.fetchPeer ts p
        else match g.lineWait [p.line] with
        | some k => (g.wantFill (ts.any fun t => g.deadlineWg t.wg) k, .error (.hold (.fill k)))
        | none =>
          let w : DWord := BitVec.ofNat 64 (natOfBytes ((List.range 8).map fun i => g.homeByte { p with addr := p.addr + i }))
          (g.modCore core fun k => k.cacheWord p w, .ok w)
  | _ => (g, .error (.trap (.at .address a)))

/-- What a core's issue comes to: no bundle; a word that no member executes as an instruction (its consequences are
done); or an instruction to execute, with the latch set. -/
inductive Issued
  | idle
  | stopped (g : Gpu)
  | word (g : Gpu) (i : Instr)

/-- Whether a context is being lifted, and its threads still have time to park (R388). -/
def Gpu.lifting (g : Gpu) (c : Ctx) : Bool :=
  c.lift.any fun h => ((g.part? c.part).bind fun p => p.cmds.find? fun x => x.hseq == h).any fun x => decide (g.now < x.at_ + msCycles)

/-- Members of a bundle that park before their word because their context is being lifted (R388): they stand at a usable safe
point, in user mode, and meet R318's conditions. -/
def Gpu.liftable (g : Gpu) (c : Ctx) (b : Bundle) : List TRef :=
  if g.lifting c && b.mode == .user && Config.safeAt c.slot b.pc then b.members.filter fun t => (g.thread? t).any Thread.quiet
  else []

/-- An illegal word (R151, R152): the trap, or in probe mode a no-operation that sets PRB. -/
def Gpu.illegalWord (g : Gpu) : Gpu :=
  let iss := g.cur
  let probe := fun (t : TRef) => (g.thread? t).any Thread.pmode
  let fs : Fates := iss.members.map fun t => (t, if probe t then Fate.done else .trap (.of .illegal))
  let g' := g.mapThreads fun t th =>
    if iss.members.contains t && th.pmode then { th with prb := true, pc := th.pc + BitVec.ofNat 64 iss.len } else th
  g'.finishWord (iss.word.getLsbD 63) fs

/-- A core's issue (R33): the bundle, its word and its literal fetched and decoded. DESIGN CHOICE (log 109): where the word itself cannot
be fetched, a trap saves 0 as the word (R351). -/
def Gpu.issue (g : Gpu) (core : Nat) : Issued :=
  match (g.core core).pick with
  | none => .idle
  | some b =>
    let ms := sortLanes b.members
    let latch := fun (g : Gpu) (w lit : DWord) (len : Nat) =>
      { g with cur := { core := core, members := b.members, pc := b.pc, word := w, lit := lit, len := len, no := g.nextId } }
    let all := fun (g : Gpu) (f : Fate) (w : DWord) => Issued.stopped <| match f with
      | .hold _ => (latch g w 0 8).passTurn
      | f => (latch g w 0 8).finishWord false (b.members.map fun t => (t, f))
    match (ms.head?.bind fun t => g.wg? t.wg).bind fun w => g.ctx? w.ctx with
    | none => .idle
    | some c =>
      let up := g.liftable c b
      if !up.isEmpty then
        .stopped ((latch g 0 0 8).finishWord false (b.members.map fun t => (t, if up.contains t then .wait .lifted else .done)))
      else match g.fetch8 core c ms b.pc with
      | (g, .error f) => all g f 0
      | (g, .ok w) =>
        match decode w 0 with
        | none => .stopped ((latch g w 0 (if !w.getLsbD 62 && w.getLsbD 9 then 16 else 8)).illegalWord)
        | some i =>
          if sizeOf i = 8 then .word (latch g w 0 8) i
          else match g.fetch8 core c ms (b.pc + 8) with
            | (g, .error f) => all g f w
            | (g, .ok l) => match decode w l with
              | some j => .word (latch g w l 16) j
              | none => .stopped ((latch g w l 16).illegalWord)

end Sys2Proof.Machine
end

