-- ==== Sys2Proof/Machine/HostCmd.lean ====
section
/-! DEFINITION. The host commands but LAUNCH and RELEASE (17 R416): contexts (14 R346, R347, R363; 15 R382 to R385), lifting
(15 R388; 10 R317, R318), fault answers (16 R400), compressed pages (16 R401, R407) and partition fences (14 R366). -/

namespace Sys2Proof.Machine

open Sys2Proof

/-- Status FORM, of commands in bad form. -/
def stFORM : Nat := 3

/-- The turn of a command: its first phase, which answers it, when it is the one to be answered next. -/
def Gpu.onTurn (g : Gpu) (part hseq cmd : Nat) (f : Gpu → Cmd → Gpu) : Gpu := ((g.command part hseq cmd).map (f g)).getD g

/-- What a command that owes its finish does after its answer. -/
def Gpu.onBegun (g : Gpu) (part hseq cmd : Nat) (f : Gpu → Cmd → Gpu) : Gpu := ((g.begun part hseq cmd).map (f g)).getD g

/-! ### Context descriptors (R346) -/

/-- The fields of a descriptor, for a slot. -/
def ctxOf (slot part addr : Nat) (b : List Byte) : Ctx where
  slot := slot
  part := part
  asid := field b 2 2
  desc := addr
  ftz := field b 5 1 % 2 == 1
  te := BitVec.ofNat 5 (field b 5 1 / 2)
  shadow := field b 6 1
  ptroot := field b 8 8
  tvec := BitVec.ofNat 64 (field b 0x10 8)
  save := field b 0x18 8
  savelen := field b 0x20 8
  tring := BitVec.ofNat 64 (field b 0x28 8)
  tringn := field b 0x30 4
  eptab := BitVec.ofNat 64 (field b 0x38 8)
  nept := field b 0x40 2
  status := .live
  lift := none
  drops := 0

/-- The ranges and alignments of Table 14.1, and R385's least SAVELEN. -/
def ctxDescOk (part : Nat) (b : List Byte) : Bool :=
  let u := field b
  u 0 2 == 1 && decide (u 2 2 ≤ 1023) && u 4 1 == part && decide (u 5 1 < 64) && (u 6 1 == 0 || (decide (4 ≤ u 6 1) && decide (u 6 1 ≤ 12))) &&
  zeroAt b 7 1 && u 8 8 % 4096 == 0 && u 0x10 8 % 8 == 0 && u 0x18 8 % 4096 == 0 && decide (2 ^ 20 ≤ u 0x20 8) && u 0x28 8 % 32 == 0 &&
  (List.range 15).any (fun k => u 0x30 4 == 2 ^ (6 + k)) && zeroAt b 0x34 4 && (u 0x40 2 == 0 || u 0x38 8 % 16 == 0) &&
  decide (u 0x40 2 ≤ 4096) && zeroAt b 0x42 62

/-- A descriptor read from device memory; none when it is invalid, or lies outside the partition's ranges. -/
def Gpu.readCtx (g : Gpu) (p : Part) (slot addr : Nat) : Option Ctx :=
  let b := g.mem.devBytes addr 128
  if addr % 128 = 0 ∧ p.entry.holds addr ∧ !g.poisoned ⟨.dev, addr / 128⟩ ∧ ctxDescOk p.id b then some (ctxOf slot p.id addr b) else none

/-- CTXCREATE (R346, R416): one of the free slots; every translation of its ASID is invalidated (R397), its shadow counters start at 0
(R89), and its save area is empty (R384). -/
def execCtxCreate (part hseq : Nat) (s : State) : Out :=
  s.device fun g => g.onTurn part hseq 2 fun g cmd =>
    let free := (List.range 64).filter fun i => (g.ctx? i).isNone
    if free.isEmpty then g.answer part cmd 11 0 0 0
    else match (g.part? part).bind fun p => g.readCtx p 0 (field cmd.args 0 8) with
      | none => g.answer part cmd stFORM 0 0 0
      | some c =>
        if g.ctxs.any fun k => k.asid == c.asid then g.answer part cmd stFORM 0 0 0
        else
          let x := g.choose free.length
          let slot := free.getD x.2 0
          let new : Ctx := { c with slot := slot }
          let g : Gpu := { x.1 with ctxs := x.1.ctxs ++ [new] }
          (((g.dropTlb c.asid none (fun _ => true) [0, 1] true).clearShadow slot).emptySave new).answer part cmd 0 0 0 (BitVec.ofNat 64 slot)

/-- CTXFENCE (R363, R416). -/
def execCtxFence (part hseq : Nat) (s : State) : Out :=
  s.device fun g => g.onTurn part hseq 3 fun g cmd =>
    match g.cmdCtx part cmd with
    | none => g.answer part cmd stFORM 0 0 0
    | some c => ((g.answer part cmd 0 0 0 0).fenceCtx c.slot stFENCED).finish part hseq 0 0 c.slot 0

/-- CTXREARM (R363, R416). -/
def execCtxRearm (part hseq : Nat) (s : State) : Out :=
  s.device fun g => g.onTurn part hseq 4 fun g cmd =>
    match g.cmdCtx part cmd with
    | none => g.answer part cmd stFORM 0 0 0
    | some c => match c.status with
      | .fenced _ => (g.modCtx c.slot fun c => { c with status := .live }).answer part cmd 0 0 0 0
      | _ => g.answer part cmd stFORM 0 0 0

/-- Whether a context holds a launch (R416). -/
def Gpu.holdsLaunch (g : Gpu) (ctx : Nat) : Bool := g.launches.any fun l => l.ctx == ctx && (l.status != .finished || l.fin.isSome)

/-- CTXDESTROY (R416): the slot, the ASID and the context's connections are free. -/
def execCtxDestroy (part hseq : Nat) (s : State) : Out :=
  s.device fun g => g.onTurn part hseq 8 fun g cmd =>
    match g.cmdCtx part cmd with
    | none => g.answer part cmd stFORM 0 0 0
    | some c =>
      if g.holdsLaunch c.slot then g.answer part cmd stFORM 0 0 0
      else
        let g := (g.answer part cmd 0 0 0 0).modPart part fun p => { p with faults := p.faults.filter fun r => r.ctx != c.slot }
        { g with
          ctxs := g.ctxs.filter fun x => x.slot != c.slot,
          fabric := { g.fabric with conns := g.fabric.conns.filter fun k => k.ctx != c.slot } }

/-! ### Saves (R382, R384, R385, R416) -/

/-- Whether a running deadline launch holds a context's save back (R378). -/
def Gpu.heldByDeadline (g : Gpu) (ctx : Nat) : Bool :=
  g.launches.any fun l => l.ctx == ctx && l.desc.deadline.isSome && l.status == .running

/-- The four bytes of a slot of a thread's spill area (Table 10.11); none where they cannot be read. -/
def Gpu.slotWord (g : Gpu) (w : Wg) (a : DWord) : Option DWord :=
  match region a with
  | .mem va => ((g.ctx? w.ctx).bind fun c => g.hubRead c va 4).map fun b => BitVec.ofNat 64 (natOfBytes b)
  | .scratch o => some (BitVec.ofNat 64 (natOfBytes (w.scratchBytes o 4)))
  | .bad => none

/-- The value of a virtual register where a live record places it (R317). -/
def Gpu.liftValue (g : Gpu) (w : Wg) (t : TRef) (th : Thread) : Config.Loc → Option DWord
  | .reg n => some ((th.reg (BitVec.ofNat 8 n)).setWidth 64)
  | .code n => some (th.reg (BitVec.ofNat 8 (n / 2 * 2 + 1)) ++ th.reg (BitVec.ofNat 8 (n / 2 * 2)))
  | .slot o => g.slotWord w (Config.spillArea false w.ctx w.id t.tid + BitVec.ofNat 64 o)

/-- The registers of a context's threads in Jexquel terms, as a lifted save writes them (R318, R388). -/
def Gpu.liftRegs (g : Gpu) (ctx : Nat) : Gpu :=
  g.mapThreads fun t th => match g.wg? t.wg with
    | some w =>
      if w.ctx = ctx && th.status == .parked .lifted then
        { th with lifted := (Config.liveAt false ctx th.pc).filterMap fun r => (g.liftValue w t th r.2).map fun v => (r.1, v) }
      else th
    | none => th

/-- A whole context saved (R382): its workgroups leave their cores, the clocks of its partial batches stand still (R63), and the
save area is written, for STATE 2 with the threads' registers lifted (R388). The device is unchanged in what it shows while an operation must still run to its end (R383). -/
def Gpu.saveCtx (g : Gpu) (ctx state : Nat) (after : CtxSt) : Gpu :=
  let ids := (g.wgs.filter fun w => w.ctx == ctx && w.core?.isSome).map Wg.id
  let f := fun (i : Nat) => ids.contains i
  let g := g.settleWgs f
  if g.saveBlocked f then g
  else
    let stop := fun (l : Launch) => if l.ctx = ctx then { l with status := if l.status == .running then .preempted else l.status } else l
    let g := g.takeOff f
    let g : Gpu := { g with launches := g.launches.map stop }
    let g := if state = 2 then g.liftRegs ctx else g
    (g.writeSave ctx state).modCtx ctx fun c => match c.status with
      | .live => { c with status := after, lift := none }
      | _ => c

/-- The finish of a save (R415): OK with USED, or the status of the fence that overtook it. -/
def Gpu.saveDone (g : Gpu) (part hseq ctx : Nat) : Gpu :=
  match (g.ctx? ctx).map Ctx.status with
  | some .live => g
  | some (.fenced st) => g.finish part hseq st 0 ctx 0
  | some _ => g.finish part hseq 0 0 ctx (BitVec.ofNat 64 (g.saveSize ctx))
  | none => g.finish part hseq stFENCED 0 ctx 0

/-- CTXSAVE and CTXLIFT answered: FORM for a context that is saved or fenced (R416). -/
def Gpu.answerSave (g : Gpu) (part : Nat) (cmd : Cmd) : Gpu :=
  match (g.cmdCtx part cmd).map Ctx.status with
  | some .live => g.answer part cmd 0 0 0 0
  | _ => g.answer part cmd stFORM 0 0 0

/-- CTXSAVE (R382, R416), held back by a running deadline launch (R378) and while the context is being lifted. -/
def execCtxSave (part hseq : Nat) (s : State) : Out :=
  s.device fun g => (g.onTurn part hseq 5 fun g cmd => g.answerSave part cmd).onBegun part hseq 5 fun g cmd =>
    match g.ctx? cmd.ctx with
    | some c =>
      if c.status == .live && (c.lift.isSome || g.heldByDeadline c.slot) then g
      else ((if c.status == .live then g.saveCtx c.slot 1 .saved else g).saveDone part hseq c.slot)
    | none => g.saveDone part hseq cmd.ctx

/-! ### Lifting (R388) -/

/-- The threads of a context that must reach a safe point. -/
def Gpu.liftThreads (g : Gpu) (ctx : Nat) : List Thread :=
  let mine := fun (t : TRef) => (g.wg? t.wg).any fun w => w.ctx == ctx && w.place != .gone
  ((g.threads.filter fun x => mine x.1).map (·.2)).filter fun th => th.status != .exited && th.status != .stopped

/-- Every one of them stands at a safe point. -/
def Gpu.allLifted (g : Gpu) (ctx : Nat) : Bool := (g.liftThreads ctx).all fun th => th.status == .parked .lifted

/-- Threads released from their safe points. -/
def Gpu.unlift (g : Gpu) (ctx : Nat) : Gpu :=
  let mine := fun (t : TRef) => (g.wg? t.wg).any fun w => w.ctx == ctx
  g.mapThreads fun t th => if mine t && th.status == .parked .lifted then { th with status := .parked .clear } else th

/-- CTXLIFT (R388, R416): the lift starts, and the context is saved when every thread has parked at a safe point, as they may within
1 ms, with no deadline launch of it running (R378). -/
def execCtxLift (part hseq : Nat) (s : State) : Out :=
  s.device fun g => (g.onTurn part hseq 7 fun g cmd => g.answerSave part cmd).onBegun part hseq 7 fun g cmd =>
    match g.ctx? cmd.ctx with
    | none => g.saveDone part hseq cmd.ctx
    | some c =>
      match c.status, c.lift with
      | .live, none =>
        if g.heldByDeadline c.slot then g
        else
          let start := fun (x : Cmd) => if x.hseq = hseq then { x with at_ := g.now } else x
          (g.modPart part fun p => { p with cmds := p.cmds.map start }).modCtx c.slot fun c => { c with lift := some hseq }
      | .live, some h =>
        if h = hseq && g.allLifted c.slot && !g.heldByDeadline c.slot then
          let g := g.saveCtx c.slot 2 .lifted
          if (g.ctx? c.slot).any fun x => x.status == .live then g else (g.unlift c.slot).saveDone part hseq c.slot
        else g
      | _, _ => g.saveDone part hseq c.slot

/-- LIFT_TIMEOUT (R388): 1 ms after the lift started, with some thread not parked. -/
def execLiftTimeout (ctx : Nat) (s : State) : Out :=
  s.device fun g =>
    match g.ctx? ctx with
    | none => g
    | some c =>
      match c.lift with
      | none => g
      | some h =>
        match (g.part? c.part).bind fun p => p.cmds.find? fun x => x.hseq == h with
        | some cmd =>
          if cmd.at_ + msCycles ≤ g.now && !g.allLifted ctx then
            ((g.unlift ctx).modCtx ctx fun c => { c with lift := none }).finish c.part h 10 0 ctx 0
          else g
        | none => g

/-! ### Restores (R347, R382, R384) -/

/-- Four bytes written to a slot of a thread's spill area. -/
def Gpu.putSlot (g : Gpu) (w : Wg) (a : DWord) (v : Word) : Gpu :=
  match region a with
  | .mem va => ((g.ctx? w.ctx).map fun c => g.hubPut c va (bytesOfNat 4 v.toNat)).getD g
  | .scratch o => g.scratchStore w.id o (bytesOfNat 4 v.toNat)
  | .bad => g

/-- A virtual register's value put into the native register in which it lives (R318), a code address converted to the new image's. -/
def Thread.lowReg (ctx : Nat) (th : Thread) (x : Config.Loc × DWord) : Thread :=
  match x.1 with
  | .reg n => th.setReg (BitVec.ofNat 8 n) (x.2.setWidth 32)
  | .code n => th.setReg (BitVec.ofNat 8 n) ((Config.lowCode ctx x.2).extractLsb' (32 * (n % 2)) 32)
  | .slot _ => th

/-- A thread of a lifted save lowered (R318, R388): it resumes at the matching safe point of the new image, its live virtual registers
in the places which that names; every other register holds a free value. -/
def Gpu.lowThread (g : Gpu) (w : Wg) (t : TRef) (th : Thread) : Gpu :=
  let pc := alignPc (Config.lowPc w.ctx th.pc)
  let live := (Config.liveAt true w.ctx pc).filterMap fun r => (th.lifted.lookup r.1).map fun v => (r.2, v)
  let free := fun (th : Thread) (r : Nat) => th.setReg (BitVec.ofNat 8 r) (Config.freeWord (g.free + r))
  let spill := fun (g : Gpu) (x : Config.Loc × DWord) => match x.1 with
    | .slot o => g.putSlot w (Config.spillArea true w.ctx w.id t.tid + BitVec.ofNat 64 o) (x.2.setWidth 32)
    | _ => g
  let g := g.modThread t fun th => live.foldl (Thread.lowReg w.ctx) ((List.range w.regs).foldl free { th with pc := pc, lifted := [] })
  live.foldl spill { g with free := g.free + w.regs }

/-- The threads of a lifted save lowered. -/
def Gpu.lower (g : Gpu) (ctx : Nat) : Gpu :=
  let step := fun (g : Gpu) (x : TRef × Thread) =>
    match g.wg? x.1.wg with
    | none => g
    | some w => if w.ctx ≠ ctx || w.place == .gone || x.2.status == .exited then g else g.lowThread w x.1 x.2
  g.threads.foldl step g

/-- A saved context back (R382): its descriptor as it stands now (R347), its partial batches' times running on. Workgroups come
back by WORKGROUP_PLACE. -/
def Gpu.restoreCtx (g : Gpu) (c : Ctx) : Gpu :=
  match (g.part? c.part).bind fun p => g.readCtx p c.slot c.desc with
  | none => g.fenceCtx c.slot stFENCED
  | some n =>
    if !g.saveIntact n || g.ctxs.any (fun k => k.slot != c.slot && k.asid == n.asid) then g.fenceCtx c.slot stFENCED
    else
      let g := g.modCtx c.slot fun x => { n with slot := c.slot, drops := x.drops }
      if c.status = .lifted then g.lower c.slot else g

/-- CTXRESTORE (R416): the finish follows when every workgroup is back. -/
def execCtxRestore (part hseq : Nat) (s : State) : Out :=
  s.device fun g =>
    let begin_ := fun (g : Gpu) (cmd : Cmd) =>
      match g.cmdCtx part cmd with
      | some c =>
        if c.status == .saved || c.status == .lifted then (g.answer part cmd 0 0 0 0).restoreCtx c else g.answer part cmd stFORM 0 0 0
      | none => g.answer part cmd stFORM 0 0 0
    (g.onTurn part hseq 6 begin_).onBegun part hseq 6 fun g cmd =>
      match (g.ctx? cmd.ctx).map Ctx.status with
      | some (.fenced st) => g.finish part hseq st 0 cmd.ctx 0
      | some .live => if g.wgs.any fun w => w.ctx == cmd.ctx && w.place == .saved then g else g.finish part hseq 0 0 cmd.ctx 0
      | _ => g.finish part hseq 0 0 cmd.ctx 0

/-! ### Fault answers (R400) -/

/-- The threads parked on a record. -/
def Gpu.faultWaiters (g : Gpu) (part seq : Nat) : List TRef :=
  g.waiters fun _ w => match w with | .fault p n _ _ => p == part && n == seq | _ => false

/-- A lane of a refused record takes KIND 0x0A at its word (R400); in trap mode its context is fenced (R354). -/
def Gpu.refuseLane (g : Gpu) (r : FaultRec) (mask : TRef → Word) (t : TRef) : Gpu :=
  match g.thread? t, g.wg? t.wg with
  | some th, some w =>
    if th.mode = .trap then g.fenceCtx w.ctx stTRAPFAULT
    else
      match th.status with
      | .parked (.fault _ _ word va) =>
        let k : Trap := ⟨.translation, BitVec.ofNat 16 (r.access + 4 * (r.cause % 2)), va, false⟩
        let th := th.takeTrap (g.env t).tvec k th.pc word 8 (mask t)
        match w.core? with
        | some c => (g.setThread t th).runAlone c w.launch t th.pc
        | none => g.setThread t { th with status := .ready }
      | _ => g
  | _, _ => g

/-- A record answered: served lanes replay, by new walks, refused ones trap; operations and packets that waited go on, or fail. -/
def Gpu.answerFault (g : Gpu) (part : Nat) (r : FaultRec) (refused : Bool) : Gpu :=
  let ts := sortLanes (g.faultWaiters part r.seq)
  let g := g.modPart part fun p => { p with faults := p.faults.filter fun x => x.seq != r.seq }
  if !refused then (g.dropTlb r.asid (some r.va) (fun _ => true) [0, 1] true).wake ts
  else
    let pc := fun (t : TRef) => (g.thread? t).map Thread.pc
    let with_ := fun (t : TRef) => lanesMask (ts.filter fun u => g.coreOf u == g.coreOf t && g.launchOf u == g.launchOf t && pc u == pc t)
    let mo := fun (o : Op) => if r.ops.contains o.id then { o with refused := true } else o
    let mc := fun (k : Conn) => if r.conns.contains (k.ctx, k.ep) then { k with refused := true } else k
    let g : Gpu := { g with ops := g.ops.map mo, fabric := { g.fabric with conns := g.fabric.conns.map mc } }
    ts.foldl (fun g t => g.refuseLane r with_ t) g

/-- FAULTANS (R400, R417). -/
def execFaultAns (part hseq : Nat) (s : State) : Out :=
  s.device fun g => g.onTurn part hseq 9 fun g cmd =>
    let mode := field cmd.args 4 4
    match (g.part? part).bind fun p => p.faults.find? fun r => r.seq == field cmd.args 0 4 with
    | none => g.answer part cmd stFORM 0 0 0
    | some r => if 1 < mode then g.answer part cmd stFORM 0 0 0 else (g.answer part cmd 0 0 0 0).answerFault part r (mode == 1)

/-! ### Compressed pages (R401, R407) -/

/-- `n` bytes from an address lie in a partition's ranges. -/
def PEntry.holdsAll (e : PEntry) (a n : Nat) : Bool :=
  n == 0 || ((List.range ((a + n - 1) / 2 ^ 30 - a / 2 ^ 30 + 1)).all fun i => e.holds ((a / 2 ^ 30 + i) * 2 ^ 30))

/-- A control block that may be installed (R401). -/
def Gpu.blockOk (g : Gpu) (e : PEntry) (a : Nat) : Bool :=
  let b := g.mem.devBytes a 64
  let c := g.mem.cblk a
  let le := fun (x y : Nat) => decide (x ≤ y)
  a % 64 == 0 && e.holdsAll a 64 && !g.poisoned ⟨.dev, a / 128⟩ && field b 0 2 == 1 && zeroAt b 2 2 && zeroAt b 0x38 8 &&
  le 1 c.nrec && le c.nrec (2 ^ 22) && le 1 c.nchunk && le c.nchunk (2 ^ 24) && decide (c.wmark < c.nchunk) &&
  decide (c.fhead < c.nchunk) && le c.fcount c.nchunk && c.ctab % 4096 == 0 && c.pool % 4096 == 0 && c.free % 4 == 0 &&
  e.holdsAll c.ctab (2048 * c.nrec) && e.holdsAll c.pool (4096 * c.nchunk) && e.holdsAll c.free (4 * c.nchunk)

/-- COMPINST (R401, R416). -/
def execCompInst (part hseq : Nat) (s : State) : Out :=
  s.device fun g => g.onTurn part hseq 11 fun g cmd =>
    let a := field cmd.args 0 8
    match g.part? part with
    | none => g
    | some p =>
      if !g.blockOk p.entry a then g.answer part cmd stFORM 0 0 0
      else ((g.answer part cmd 0 0 0 0).modPart part fun p => { p with comp := some a }).notePins part

/-- A record freed (R407): the page's lines in L2 are written back or dropped, its chunks return to the ring, and it is
zeroed: no line of it is poisoned any more. -/
def Gpu.freeRecord (g : Gpu) (part blk ridx : Nat) (drop : Bool) : Gpu :=
  let mine := fun (l : L2Line) => l.part == part && l.key.sp == .comp part && l.key.idx / 512 == ridx
  let g := (g.mem.l2.filter mine).foldl (fun g l => if drop then g else (g.tryWriteback l).getD g) g
  let poison := g.mem.poison.filter fun k => !(k.sp == .comp part && k.idx / 512 == ridx)
  let g : Gpu := { g with mem := { g.mem with l2 := g.mem.l2.filter (fun l => !mine l), poison := poison } }
  let give := fun (g : Gpu) (slot : Nat) =>
    let c := g.mem.cblk blk
    let k := g.mem.chunkAt c ridx slot
    if k / 2 ^ 31 = 1 then g.giveChunk part c (k % 2 ^ 24) else g
  let g := (List.range 16).foldl give g
  let a := (g.mem.cblk blk).page ridx
  let g : Gpu := { g with mem := g.mem.keepBytes a (List.replicate 2048 0) }
  g.notePins part

/-- PAGEREL (R407, R416). -/
def execPageRel (part hseq : Nat) (s : State) : Out :=
  s.device fun g => g.onTurn part hseq 10 fun g cmd =>
    let ridx := field cmd.args 0 4
    let mode := field cmd.args 4 4
    match (g.part? part).bind Part.comp with
    | none => g.answer part cmd stFORM 0 0 0
    | some blk =>
      if (g.mem.cblk blk).nrec ≤ ridx || 1 < mode then g.answer part cmd stFORM 0 0 0
      else ((g.answer part cmd 0 0 0 0).freeRecord part blk ridx (mode == 1)).finish part hseq 0 0 cmd.ctx 0

/-! ### Partition fences (R366) -/

/-- A partition fenced: its contexts end with PARTRESET, its cores are reset, its lines leave L2 without write-back, and its
error log starts again with the entry of the fence, whose UNIT and ADDR are not stated. -/
def Gpu.fencePart (g : Gpu) (part : Nat) : Gpu :=
  match g.part? part with
  | none => g
  | some p =>
    let g := ((g.ctxs.filter fun c => c.part == part).map Ctx.slot).foldl (fun g c => g.fenceCtx c stPARTRESET) g
    let g := g.mapCores fun n c => if p.entry.cores.contains n then .empty else c
    let m : MemSt := { g.mem with
      l2dev := g.mem.l2dev.filter fun x => !p.entry.holds x.1
      l2 := g.mem.l2.filter fun l => l.part != part }
    let g : Gpu := { g with mem := m }
    let g := (g.modPart part fun p => { p with log := [], logNext := 0, torn := none }).notePins part
    let u := g.drawWord
    let a := u.1.drawWord
    a.1.logError part 4 0xFFFF 0xFFFF (u.2.toNat % 65536) a.2.toNat

/-- PARTRESET (R366, R416). -/
def execPartReset (part hseq : Nat) (s : State) : Out :=
  s.device fun g => g.onTurn part hseq 12 fun g cmd => ((g.answer part cmd 0 0 0 0).fencePart part).finish part hseq 0 0 cmd.ctx 0

end Sys2Proof.Machine
end

