-- ==== Sys2Proof/Machine/Frames.lean ====
section
/-! DEFINITION. Frame release (17 R426 to R428): release descriptors, the cut-off before T, and the sending of a frame. -/

namespace Sys2Proof.Machine

open Sys2Proof

/-- Pixels and octets of a pgroup, by sampling and depth (R426; SMPTE ST 2110-20, log 87). -/
def pgroup (fmt : Nat) : Nat × Nat :=
  match fmt % 4, fmt / 4 % 4 with
  | 0, 0 => (2, 4)
  | 0, 1 => (2, 5)
  | 0, _ => (2, 6)
  | _, 0 => (1, 3)
  | _, 1 => (4, 15)
  | _, _ => (2, 9)

/-- The fields of a release descriptor (Table 17.8). -/
structure RelDesc where
  t      : Nat
  frame  : Nat
  pitch  : Nat
  width  : Nat
  height : Nat
  fmt    : Nat
  port   : Nat
  rep    : Bool
  after  : Nat
  ssrc   : Word
  tro    : Nat
  deriving DecidableEq, Repr

/-- A descriptor's fields. -/
def relOf (b : List Byte) : RelDesc where
  t := field b 0 8
  frame := field b 8 8
  pitch := field b 0x10 4
  width := field b 0x14 2
  height := field b 0x16 2
  fmt := field b 0x18 1
  port := field b 0x19 1
  rep := field b 0x1B 1 == 1
  after := field b 0x1C 4
  ssrc := BitVec.ofNat 32 (field b 0x28 4)
  tro := field b 0x2C 4

/-- The ranges of Table 17.8. -/
def relOk (b : List Byte) : Bool :=
  let r := relOf b
  let le := fun (x y : Nat) => decide (x ≤ y)
  r.frame % 128 == 0 && r.pitch % 4 == 0 && le 16 r.width && le r.width 8192 && r.fmt % 4 != 3 && r.fmt / 4 != 3 && le r.fmt 15 &&
  r.width % (pgroup r.fmt).1 == 0 && le 1 r.height && le r.height 4352 && le r.port 5 && le 96 (field b 0x1A 1) && le (field b 0x1A 1) 127 &&
  le (field b 0x1B 1) 1 && zeroAt b 0x26 2 && le r.tro 1000000 && zeroAt b 0x30 16

/-- The launch of the partition whose finish has been formed (R428), the latest of that HSEQ: its LAUNCH owes none. -/
def Gpu.finishFormed (g : Gpu) (part hseq : Nat) : Option Launch :=
  g.launches.reverse.find? fun l => l.part == part && l.hseq == hseq && l.status == .finished && l.fin.isNone

/-- RELEASE (R426): answered FORM, or taken into the release unit. -/
def execRelease (part hseq : Nat) (s : State) : Out :=
  s.device fun g => g.onTurn part hseq 13 fun g cmd =>
    let va := field cmd.args 0 8
    match (g.cmdCtx part cmd).filter fun _ => va % 64 == 0 with
    | none => g.answer part cmd stFORM 0 0 0
    | some c => match g.hubRead c va 64 with
      | none => (g.logWalk c 0xFFFF va 64).answer part cmd stFORM 0 0 0
      | some b =>
        if !relOk b then g.answer part cmd stFORM 0 0 0
        else
          let f := g.finishFormed part (relOf b).after
          let r : Release :=
            { id := g.nextId, part := part, hseq := hseq, ctx := c.slot, desc := b, after := (relOf b).after,
              formed := f.isSome, formedAt := (f.map Launch.formedAt).getD 0, got := [] }
          let g := g.answer part cmd 0 0 0 0
          { g.fresh with fabric := { g.fabric with rels := g.fabric.rels ++ [r] } }

/-- Octets of a line (R426). -/
def RelDesc.line (r : RelDesc) : Nat := r.width / (pgroup r.fmt).1 * (pgroup r.fmt).2

/-- Bytes of a frame read by the release unit. A byte that does not translate, or is poisoned, is not stated: a free value; a malformed
entry is logged (R393). -/
def Gpu.frameRead (g : Gpu) (c : Ctx) (va n : Nat) : Gpu × List Byte :=
  match g.hubRead c va n with
  | some bs => (g, bs)
  | none => (g.logWalk c 0xFFFF va n).drawBytes n

/-- The rest of a frame's lines after the bytes that have been read, one line after another (R426). -/
def Gpu.frameBytes (g : Gpu) (c : Ctx) (r : RelDesc) (got : List Byte) : Gpu × List Byte :=
  (List.range r.height).foldl (fun (s : Gpu × List Byte) y =>
    let k := min r.line (s.2.length - r.line * y)
    let x := s.1.frameRead c (r.frame + r.pitch * y + k) (r.line - k)
    (x.1, s.2 ++ x.2)) (g, got)

/-- Whether the finish that a release waits for was formed by T − 20 µs (R428). -/
def Release.onTime (r : Release) : Bool := r.formed && decide (r.formedAt + 20000 ≤ (relOf r.desc).t)

/-- The release unit reads the next 4-byte word of a frame (R428): stores between two words tear it. -/
def Gpu.frameStep (g : Gpu) (rel : Nat) : Gpu :=
  match g.fabric.rels.find? fun r => r.id == rel with
  | none => g
  | some r =>
    let d := relOf r.desc
    let i := r.got.length
    match g.ctx? r.ctx with
    | none => g
    | some c =>
      if !r.onTime || d.line * d.height ≤ i then g
      else
        let x := g.frameRead c (d.frame + d.pitch * (i / d.line) + i % d.line) (min 4 (d.line - i % d.line))
        let add := fun (y : Release) => if y.id = rel then { y with got := y.got ++ x.2 } else y
        { x.1 with fabric := { x.1.fabric with rels := x.1.fabric.rels.map add } }

/-- The stream of a release. -/
def Fabric.stream? (f : Fabric) (r : RelDesc) : Option Stream := f.streams.find? fun x => x.port == r.port && x.ssrc == r.ssrc

/-- The RTP timestamp (R427). -/
def rtpTime (t : Nat) : Word := BitVec.ofNat 32 (t * 90000 / 1000000000)

/-- Octets of an IP packet besides sample data: IPv4, UDP and RTP headers, the extended sequence number, and one sample row data header
(R427; RFC 4175, log 84). -/
def rtpHead : Nat := 48

/-- The packets of a frame in General Packing Mode (R427), numbered from `first`: IP packets of at most 1,500 bytes with whole pgroups and
the marker on the last. How rows are parted is not stated: each packet carries one row segment, as long as fits (DESIGN CHOICE, log 84). -/
def framePackets (r : RelDesc) (first : Word) (data : List Byte) : List Rtp :=
  let pg := pgroup r.fmt
  let m := (1500 - rtpHead) / pg.2 * pg.2
  let segs := (List.range r.height).flatMap fun y =>
    let row := (data.drop (r.line * y)).take r.line
    (List.range ((r.line + m - 1) / m)).map fun k => (y, m * k / pg.2 * pg.1, (row.drop (m * k)).take m)
  (segs.zipIdx).map fun x => { seq := first + BitVec.ofNat 32 x.2, marker := x.2 + 1 == segs.length, rows := [x.1] }

/-- A release leaves the unit. -/
def Gpu.dropRel (g : Gpu) (id : Nat) : Gpu := { g with fabric := { g.fabric with rels := g.fabric.rels.filter fun r => r.id != id } }

/-- A frame leaves its port at a time, in packets whose form the descriptor `form` gives, and is the stream's previous one from then on.
When its last packet leaves, and a stream's first sequence number, are not stated: free values. -/
def Gpu.emitFrame (g : Gpu) (d form : List Byte) (at_ : Nat) (data : List Byte) : Gpu :=
  let r := relOf d
  let x := g.drawWord
  let y := x.1.drawWord
  let first := ((g.fabric.stream? r).map Stream.seq).getD y.2
  let pkts := framePackets (relOf form) first data
  let item : TxItem := .frame r.port at_ (rtpTime r.t) d data pkts
  let st : Stream :=
    { port := r.port, ssrc := r.ssrc, data := data, last := at_ + x.2.toNat, desc := form, seq := first + BitVec.ofNat 32 pkts.length }
  let old := y.1.fabric.streams.filter fun y => !(y.port == r.port && y.ssrc == r.ssrc)
  { y.1 with fabric := { y.1.fabric with tx := y.1.fabric.tx ++ [item], streams := old ++ [st] } }

/-- A release overlaps its stream's previous frame (R428). -/
def Fabric.overlaps (f : Fabric) (d : RelDesc) : Bool := (f.stream? d).any fun x => decide (d.t + d.tro < x.last)

/-- FRAME_SEND (R428): at T + TRO, the launch's finish formed by T − 20 µs; refused NOFIT with FABRIC while the stream's previous
frame is still leaving. What has not been read of the frame yet is read as an acquire of the results. -/
def execFrameSend (rel : Nat) (s : State) : Out :=
  s.device fun g =>
    match g.fabric.rels.find? fun r => r.id == rel with
    | none => g
    | some r =>
      let d := relOf r.desc
      if !r.onTime || g.ptp < d.t + d.tro then g
      else
        match g.ctx? r.ctx with
        | none => (g.dropRel rel).finish r.part r.hseq stFENCED 0 r.ctx 0
        | some c =>
          if g.fabric.overlaps d then (g.dropRel rel).finish r.part r.hseq 1 4 r.ctx 0
          else
            let x := g.frameBytes c d r.got
            ((x.1.dropRel rel).emitFrame r.desc r.desc (d.t + d.tro) x.2).finish r.part r.hseq 0 0 r.ctx (BitVec.ofNat 64 (d.t + d.tro))

/-- RELEASE_CUTOFF (R428): at T − 20 µs with the finish not formed by then, the stream's previous frame goes out again with REPEAT, unless
it is still leaving; else the release is refused NOFIT with PAST. -/
def execReleaseCutoff (rel : Nat) (s : State) : Out :=
  s.device fun g =>
    match g.fabric.rels.find? fun r => r.id == rel with
    | none => g
    | some r =>
      let d := relOf r.desc
      if r.onTime || g.ptp + 20000 < d.t then g
      else
        match g.fabric.stream? d with
        | some x =>
          if d.rep && g.fabric.overlaps d then (g.dropRel rel).finish r.part r.hseq 1 4 r.ctx 0
          else if d.rep then ((g.dropRel rel).emitFrame r.desc x.desc d.t x.data).finish r.part r.hseq 0 0 r.ctx (BitVec.ofNat 64 d.t)
          else (g.dropRel rel).finish r.part r.hseq 1 16 r.ctx 0
        | none => (g.dropRel rel).finish r.part r.hseq 1 16 r.ctx 0

end Sys2Proof.Machine
end

