-- ==== Sys2Proof/Machine/FabricTime.lean ====
section
/-! DEFINITION. The fabric transport (17 R419 to R422), the ports' state (R418), and the time unit (R424, R425). The packets'
form on the wire is not the manual's: a packet here is what it carries (log 84). -/

namespace Sys2Proof.Machine

open Sys2Proof

/-! ### Connections -/

/-- A connection changed. -/
def Gpu.modConn (g : Gpu) (ctx ep : Nat) (f : Conn → Conn) : Gpu :=
  { g with fabric := { g.fabric with conns := g.fabric.conns.map fun c => if c.ctx = ctx ∧ c.ep = ep then f c else c } }

/-- The connection on which a packet comes: the sender is the endpoint's remote one, the context the packet's. -/
def Gpu.connOf (g : Gpu) (k : Pkt) : Option Conn :=
  g.fabric.conns.find? fun c => c.peer == k.peer && c.rpart == k.rpart && c.rasid == k.rasid &&
    (g.ctx? c.ctx).any fun x => x.part == k.part && x.asid == k.asid

/-! ### Remote reads that have come (R147, R421) -/

/-- A remote read whose bytes are all there: a load's value is known in every lane that it serves (R204), and an acquire is performed
with it (R112, R115); a fetched word goes to the instruction cache; what a word asked for at issue is kept for it. -/
def Gpu.readDone (g : Gpu) (id : Nat) : Gpu :=
  match g.op? id with
  | none => g
  | some o =>
    match o.kind with
    | .rread ty ps =>
      if !o.asks.isEmpty then g
      else
        let bs := ps.map (g.byteWith o.got)
        if o.owners.isEmpty then
          let keep := fun (k : CoreSt) => match ps with
            | p :: _ => k.cacheWord p (BitVec.ofNat 64 (natOfBytes bs))
            | [] => k
          (g.modCore o.core keep).dropOp id
        else if o.owners.any fun t => (g.thread? t).any fun th => th.pend.any fun q => q.id == id then
          let g := if o.acq && decide (o.core < 192) then g.flushL1 o.core else g
          (g.mapThreads fun t th => if o.owners.contains t then th.resolve id (loadWords ty bs) 0 else th).dropOp id
        else g
    | _ => g

/-- Bytes of a remote read, by its tag. -/
def Gpu.readAnswer (g : Gpu) (tag : Nat) (bytes : List Byte) : Gpu :=
  match g.ops.find? fun o => o.asks.any fun a => a.1 == tag with
  | none => g
  | some o =>
    match o.asks.find? fun a => a.1 == tag with
    | none => g
    | some (_, p, n) =>
      let cells := (List.range n).map fun i => (({ p with addr := p.addr + i } : Phys), bytes.getD i 0)
      (g.modOp o.id fun o => { o with asks := o.asks.filter (fun a => a.1 != tag), got := o.got ++ cells }).readDone o.id

/-! ### Operations that are not performed (R422) -/

/-- The fabric-loss trap of an operation, once: in every lane that a read serves (R204), else in its own. -/
def Gpu.loseOp (g : Gpu) (id : Nat) : Gpu :=
  match g.op? id with
  | none => g
  | some o =>
    if o.refused then g
    else ((o.owners.filter (· != o.owner)).foldl (fun g t => g.deferOp { o with owner := t } .fabricLoss 0)
      (g.deferOp o .fabricLoss 0)).modOp id fun o => { o with refused := true }

/-- A packet that will not be performed: its operation, or the thread of a plain store, takes the fabric-loss trap; a read writes
zero. -/
def Gpu.loseSent (g : Gpu) (x : Sent) : Gpu :=
  let g := match x.by_ with
    | some (t, pc, word) => g.modThread t fun th => th.defer ⟨TrapKind.fabricLoss.code, 0, pc, word, 0⟩
    | none => g
  let g := match x.op with
    | some id => g.loseOp id
    | none => g
  match x.body with
  | .read _ _ tag => g.readAnswer tag []
  | _ => g

/-- A connection fails (R419): what is outstanding on it ends, packets that have no acknowledgement and reads that have no answer. -/
def Gpu.failConn (g : Gpu) (c : Conn) : Gpu :=
  let g := c.unacked.foldl Gpu.loseSent (g.modConn c.ctx c.ep fun c => { c with unacked := [], failed := true })
  let tags := fun (o : Op) => (o.asks.filter fun a => a.2.1.sp == .peer c.ctx c.ep).map fun a => a.1
  let end_ := fun (g : Gpu) (o : Op) => if (tags o).isEmpty then g else (tags o).foldl (fun g t => g.readAnswer t []) (g.loseOp o.id)
  (g.ops.foldl end_ g).freeAcks.formFinishes

/-- A cumulative acknowledgement (R419); with `lost`, the packet it names was not performed. Releases and finishes that waited for it go
on (R414, R421). -/
def Gpu.acked (g : Gpu) (c : Conn) (upto : BitVec 24) (lost : Bool) : Gpu :=
  match c.unacked.findIdx? fun x => x.seq == upto with
  | none => g
  | some i =>
    let g := g.modConn c.ctx c.ep fun c => { c with unacked := c.unacked.drop (i + 1), resends := 0 }
    (if lost then (c.unacked[i]?.map g.loseSent).getD g else g).freeAcks.formFinishes

/-- The last packet that may be acknowledged: none from the first on that was refused, while the peer has not acknowledged the report of
it (R419, R422). -/
def Conn.ackUpto (c : Conn) (upto : BitVec 24) : BitVec 24 :=
  ((c.unacked.findSome? fun x => match x.body with | .failed n => some (BitVec.ofNat 24 n) | _ => none).map (· - 1)).getD upto

/-- An acknowledgement sent, of the packets up to one. -/
def Gpu.sendAck (g : Gpu) (c : Conn) (upto : BitVec 24) : Gpu :=
  let now := (g.fabric.conns.find? fun k => k.ctx == c.ctx && k.ep == c.ep).getD c
  { g with fabric := { g.fabric with tx := g.fabric.tx ++ [.ack c.peer c.rpart c.rasid (now.ackUpto upto)] } }

/-! ### FABRIC_PACKET_RECEIVE (R419, R421, R422) -/

/-- The translation of an arriving packet's byte. -/
def Gpu.fabricLeaf (g : Gpu) (x : Ctx) (a : Access) (va : Nat) : Except WalkFail Leaf :=
  let r : Except WalkFail Leaf := match tlbHit g.mem.hubtlb x.asid va with
    | some l => .ok l
    | none => g.walk x va
  match r with
  | .error f => .error f
  | .ok l => match l.base.sp with
    | .peer _ _ => .error ⟨0, false, false, false⟩
    | _ => if l.permits a then .ok l else .error ⟨l.level, true, l.rpl, false⟩

/-- The locations of an arriving packet's bytes, or where and why they fail. -/
def Gpu.fabricPhys (g : Gpu) (x : Ctx) (a : Access) (va n : Nat) : Except (Nat × WalkFail) (List Phys) :=
  (List.range n).mapM fun i => match g.fabricLeaf x a (va + i) with
    | .ok l => .ok (l.phys (va + i))
    | .error f => .error (va + i, f)

/-- The homes of the pages that an arriving packet's bytes lie in (R102). -/
def Gpu.noteHomes (g : Gpu) (x : Ctx) (a : Access) (va n : Nat) : Gpu :=
  (va :: (List.range (n / 4096 + 1)).map fun i => min (va + n - 1) (4096 * (va / 4096 + i + 1))).foldl (fun g v => match g.fabricLeaf x a v with
    | .ok l => g.noteHome l
    | .error _ => g) g

/-- A packet that waits for a fault to be served (R422): it is not accepted, and comes again. The record names no core: a free
value. -/
def Gpu.fabricFault (g : Gpu) (c : Conn) (x : Ctx) (a : Access) (va : Nat) (f : WalkFail) : Gpu :=
  let w := g.drawWord
  let r := w.1.joinFault x (w.2.toNat % 65536) va a f none none
  let join := fun (k : FaultRec) =>
    if k.seq = r.2 ∧ !k.conns.contains (c.ctx, c.ep) then { k with conns := k.conns ++ [(c.ctx, c.ep)] } else k
  r.1.modPart x.part fun p => { p with faults := p.faults.map join }

/-- A packet accepted: the next number is expected. -/
def Gpu.accept (g : Gpu) (c : Conn) : Gpu := g.modConn c.ctx c.ep fun c => { c with expect := c.expect + 1, refused := false }

/-- A packet refused: accepted, and reported as not performed. -/
def Gpu.refusePkt (g : Gpu) (c : Conn) (seq : BitVec 24) : Gpu := (g.accept c).sendOn c.ctx c.ep (.failed seq.toNat) none none

/-- The workgroup of a context that a delivery names. -/
def Gpu.deliverTo (g : Gpu) (ctx n : Nat) : Option Wg :=
  let ws := g.wgs.filter fun w => w.ctx == ctx && w.core?.isSome
  ws[n % ws.length]?

/-- A packet in its turn, for a live context; a write whose lines find no way in L2 is not accepted yet, and comes again (R406). -/
def Gpu.performPkt (g : Gpu) (c : Conn) (x : Ctx) (seq : BitVec 24) (body : PktBody) : Gpu :=
  let reach := fun (a : Access) (va n : Nat) (f : List Phys → Gpu) =>
    match g.fabricPhys x a va n with
    | .ok ps => f ps
    | .error (fa, e) =>
      if e.rpl && !c.refused then g.fabricFault c x a fa e
      else (if e.bad then g.logError x.part 2 x.asid 0xFFFF 7 fa else g).refusePkt c seq
  match body with
  | .write va bs => reach .write va bs.length fun ps =>
      let g := g.noteHomes x .write va bs.length
      if (g.lineWait (ps.map Phys.line)).isSome then g else ((g.homeStore false false (ps.zip bs)).accept c).sendAck c seq
  | .read va n tag => reach .read va n fun ps =>
      if (g.firstPoison ps).isSome then g.refusePkt c seq
      else ((g.accept c).sendAck c seq).sendOn c.ctx c.ep (.answer tag (ps.map g.homeByte)) none none
  | .answer tag bs => ((g.readAnswer tag bs).accept c).sendAck c seq
  | .deliver n off k =>
    match (g.deliverTo x.slot n).filter fun w => off % 16 == 0 && decide (off + 16 ≤ w.scratchLen) with
    | none => g.refusePkt c seq
    | some w => (((g.tbEvent w.id (off / 16) (.deliver k)).1).accept c).sendAck c seq
  | .ack _ => g
  | .failed n => (g.acked c (BitVec.ofNat 24 n) true).accept c |>.sendAck c seq

/-- FABRIC_PACKET_RECEIVE: acknowledgements take effect; a packet out of its turn is discarded and the last one acknowledged again;
what a fenced context is sent is not performed (R422). -/
def execFabricPacketReceive (k : Pkt) (s : State) : Out :=
  s.device fun g =>
    match g.connOf k with
    | none => g
    | some c =>
      match k.body with
      | .ack upto => g.acked c upto false
      | body =>
        if c.failed then g
        else if k.seq ≠ c.expect then g.sendAck c (c.expect - 1)
        else
          match g.ctx? c.ctx with
          | none => g
          | some x => match x.status, body with
            | .fenced _, .write _ _ | .fenced _, .read _ _ _ | .fenced _, .deliver _ _ _ => g.refusePkt c k.seq
            | _, _ => g.performPkt c x k.seq body

/-! ### FABRIC_RESEND (R419, R422) and the ports (R418) -/

/-- The time after which a packet without acknowledgement is sent again: 20 µs in core cycles. -/
def resendAfter : Nat := 80000

/-- Whether a connection's timer has expired, or it has failed with packets outstanding. -/
def Conn.due (c : Conn) (now : Nat) : Bool := c.unacked.head?.any fun x => c.failed || x.at_ + resendAfter ≤ now

/-- FABRIC_RESEND: every packet outstanding is sent again; after 16 resends in a row the connection fails, and what is outstanding
ends with the fabric-loss trap. -/
def execFabricResend (conn : Nat) (s : State) : Out :=
  s.device fun g =>
    match g.fabric.conns[conn]? with
    | none => g
    | some c =>
      if !c.due g.now then g
      else if c.failed || 16 ≤ c.resends then g.failConn c
      else
        let g := g.modConn c.ctx c.ep fun c => { c with unacked := c.unacked.map (fun x => { x with at_ := g.now }), resends := c.resends + 1 }
        { g with fabric := { g.fabric with tx := g.fabric.tx ++ c.unacked.map fun x => .pkt c.peer c.rpart c.rasid x.seq x.body } }

/-- An event posted in every partition. -/
def Gpu.eventAll (g : Gpu) (detail : Nat) (value : DWord) : Gpu := (g.parts.map Part.id).foldl (fun g p => g.event p detail value) g

/-- A port's state, with its event when it changes. -/
def Gpu.setPort (g : Gpu) (port : Nat) (on : Bool) : Gpu :=
  if g.fabric.up[port]? == some (!on) then
    ({ g with fabric := { g.fabric with up := g.fabric.up.set port on } } : Gpu).eventAll (if on then 6 else 5) (BitVec.ofNat 64 port)
  else g

/-- FABRIC_PORT_DOWN (R418). -/
def execFabricPortDown (port : Nat) (s : State) : Out := s.device fun g => g.setPort port false

/-- FABRIC_PORT_UP (R418). -/
def execFabricPortUp (port : Nat) (s : State) : Out := s.device fun g => g.setPort port true

/-! ### The time unit (R424, R425) -/

/-- What a measured offset does to the clock: up to 1 ms it is slewed; a larger positive one is a step forward; a larger negative
one holds the clock. -/
def Clock.discipline (c : Clock) (offset : Int) : Clock :=
  let c := { c with servo := if offset.natAbs ≤ 50 then 2 else 1 }
  if offset.natAbs ≤ 1000000 then { c with corr := 8000 * offset, hold := false }
  else if 0 < offset then { c with ptp := c.ptp + offset.toNat, corr := 0, hold := false }
  else { c with corr := 8000 * offset, hold := true }

/-- A clock with a new SERVO value is reported to every partition (R418). -/
def State.withClock (s : State) (c : Clock) : State :=
  let t := { s with clk := c }
  if c.servo = s.clk.servo then t else t.onGpu fun g => g.eventAll 4 (BitVec.ofNat 64 c.servo)

/-- PTP_MESSAGE (R424, R425): an offset from the grandmaster, in ns, is measured. -/
def execPtpMessage (offset : Int) (s : State) : Out := .next (s.withClock (s.clk.discipline offset))

/-- PTP_HOLDOVER (R424). -/
def execPtpHoldover (s : State) : Out := .next (s.withClock { s.clk with servo := 3 })

end Sys2Proof.Machine
end

