-- ==== Sys2Proof/Machine/Mailbox.lean ====
section
/-! DEFINITION. Resets and boot (18 R429, R430), firmware images (R431, R432), the management mailbox (R433 to R436, R438,
R439), thermal limits (R437) and storage errors (14 R364). The algorithms of FIPS 202 and FIPS 205, which the manual names,
are constants of `Config`. -/

namespace Sys2Proof.Machine

open Sys2Proof

/-! ### Images (R431, R432) -/

/-- Bytes of a signature. -/
def sigLen : Nat := 29792

/-- The header of an image in a slot: in range, with all of the image there (Table 18.3). -/
def imageForm (b : List Byte) : Bool :=
  let n := field b 0xC 4
  field b 0 4 == 0x5746574B && field b 4 2 == 1 && zeroAt b 6 2 && decide (field b 8 4 ≤ 64) && n % 64 == 0 && decide (64 ≤ n) &&
  decide (n ≤ 2 ^ 25) && zeroAt b 0x50 48 && decide (128 + n + sigLen ≤ b.length)

/-- The key's hash is fused and not revoked, and the signature verifies (R432). -/
def Sec.imageSigned (c : Sec) (b : List Byte) : Bool :=
  let n := 128 + field b 0xC 4
  let pk := (b.drop 0x10).take 64
  let h := Config.shake256x32 pk
  ((c.vendor.zip c.revoked).any fun x => x.1 == h && !x.2) && Config.slhVerify pk (b.take n) ((b.drop n).take sigLen)

/-- The status that R432's checks give an image: OK, FORM, BADSIG or ROLLBACK. -/
def Sec.imageStatus (c : Sec) (b : List Byte) : Nat :=
  if !imageForm b then 3 else if !c.imageSigned b then 1 else if field b 8 4 < c.minsvn then 2 else 0

/-- A slot's bytes. -/
def Sec.slot (c : Sec) (n : Nat) : List Byte := if n = 0 then c.slot0.bytes else c.slot1.bytes

/-! ### Partition tables (R435, R436) -/

/-- An entry of a table (Table 18.6). -/
def pentryOf (b : List Byte) : PEntry where
  valid := field b 0 1 == 1
  port := field b 1 1
  groups := BitVec.ofNat 16 (field b 2 2)
  ways := BitVec.ofNat 16 (field b 4 2)
  powerw := field b 6 2
  fabric := (List.range 6).map fun i => field b (8 + i) 1
  mem := BitVec.ofNat 192 (field b 0x10 24)

/-- The bytes of entry i. -/
def entryBytes (t : List Byte) (i : Nat) : List Byte := (t.drop (0x40 + 64 * i)).take 64

/-- Bits that are set. -/
def bitCount {w : Nat} (v : BitVec w) : Nat := ((List.range w).filter v.getLsbD).length

/-- An entry's own ranges; an invalid partition has no resources. -/
def entryOk (b : List Byte) : Bool :=
  let e := pentryOf b
  zeroAt b 0xE 2 && zeroAt b 0x28 24 &&
  (zeroAt b 0 64 || (e.valid && decide (e.port ≤ 1) && decide (e.groups.toNat < 2 ^ 12) && e.groups != 0 && decide (2 ≤ bitCount e.ways) &&
    e.fabric.all fun f => decide (f ≤ 64)))

/-- The form of a table: header, entries, and Table 14.10 over the partitions together. -/
def tableForm (t : List Byte) : Bool :=
  let es := (List.range 4).map fun i => pentryOf (entryBytes t i)
  let pairs := (List.range 4).all fun i => (List.range i).all fun j =>
    match es[i]?, es[j]? with
    | some a, some b => a.groups &&& b.groups == 0 && a.ways &&& b.ways == 0 && a.mem &&& b.mem == 0
    | _, _ => true
  t.length == 384 && field t 0 4 == 0x47434B57 && field t 4 2 == 1 && decide (field t 6 1 ≤ 1) && zeroAt t 7 1 && zeroAt t 0x10 48 &&
  ((List.range 4).all fun i => entryOk (entryBytes t i)) && pairs && decide ((es.map PEntry.powerw).sum ≤ 1230) &&
  ((List.range 6).all fun p => decide ((es.map fun e => e.fabric.getD p 0).sum ≤ 64)) &&
  ((List.range 2).all fun p => decide ((es.filter fun e => e.valid && e.port == p).length ≤ 2))

/-- The table's signature, under its own key, whose hash is OKH when one is burned. -/
def Sec.tableSigned (c : Sec) (t sig : List Byte) : Bool :=
  let pk := (t.drop 0x140).take 64
  sig.length == sigLen && (c.okh.all fun h => h == Config.shake256x32 pk) && Config.slhVerify pk t sig

/-- The partitions that a table gives. -/
def tableParts (t : List Byte) : List (Nat × PEntry) :=
  ((List.range 4).map fun i => (i, pentryOf (entryBytes t i))).filter fun x => x.2.valid

/-! ### Boot (R429, R430, R432) -/

/-- The slot that boots: the one of higher SVN if it is accepted, else the other; which comes first at equal SVN is not stated. -/
def State.bootSlot (s : State) : State × Option Nat :=
  let c := s.sec
  let a := field c.slot0.bytes 8 4
  let b := field c.slot1.bytes 8 4
  let x := if a = b then s.gpu.choose 2 else (s.gpu, if b < a then 0 else 1)
  ({ s with gpu := x.1 }, [x.2, 1 - x.2].find? fun n => c.imageStatus (c.slot n) == 0)

/-- The partitions that stage 3 applies (R436). -/
def Sec.bootParts (c : Sec) : Option (List Byte) × List Part :=
  match c.table with
  | some (t, sig) =>
    if tableForm t && c.tableSigned t sig then (some t, (tableParts t).map fun x => .fresh x.1 x.2) else (none, [.fresh 0 .all])
  | none => (none, [.fresh 0 .all])

/-- The device after stage 4, or in recovery mode. Host memory, the fabric ports' links, the clocks' counts and the model's own
counters go on (log 4). -/
def State.boot (s : State) (tripped : Bool) : State :=
  let x := s.bootSlot
  let g := x.1.gpu
  let c := s.sec
  let parts := c.bootParts
  let sec : Sec := match x.2 with
    | some n =>
      let b := c.slot n
      { c with
        booted := n, svn := field b 8 4, minsvn := max c.minsvn (field b 8 4),
        fwmeas := Config.shake256x32 (b.take (128 + field b 0xC 4)), recov := false, active := parts.1 }
    | none => { c with booted := 2, recov := true, active := none }
  let g' := Gpu.boot (if x.2.isSome then parts.2 else []) s.clk.cyc s.clk.ptp
  let hot := c.temps.any fun t => 100 ≤ t
  { s with
    gpu := { g' with
      mem := { g'.mem with host0 := g.mem.host0, host1 := g.mem.host1 }
      fabric := { g'.fabric with up := g.fabric.up }
      gov := { g'.gov with hot := hot }
      free := g.free
      nextId := g.nextId }
    clk := { s.clk with servo := 0, corr := 0, hold := false }
    sec := { sec with held := false, tripped := tripped, toReset := false, replies := [] } }

/-- Dies' temperatures taken from the sensors below a bound: free values. -/
def State.coolBelow (s : State) (n : Nat) : State :=
  { s with
    sec := { s.sec with temps := (List.range 3).map fun i => (Config.freeWord (s.gpu.free + i)).toNat % n }
    gpu := { s.gpu with free := s.gpu.free + 3 } }

/-- POWER_ON (R430, R437): power is applied, or a tripped package, whose dies are all below 60 °C, is released. -/
def execPowerOn (s : State) : Out := .next (if s.sec.held then (s.coolBelow 60).boot true else s.boot false)

/-- DEVICE_RESET (R429, R433): follows an accepted FWCOMMIT. The fence of every partition writes no completion entry. -/
def execDeviceReset (s : State) : Out := .next (if s.sec.toReset && !s.sec.held then s.boot false else s)

/-- A function's registers at their reset values, with nothing left of its rings (R429). -/
def Part.resetFunction (p : Part) : Part :=
  { p with bar := .reset, expect := 0, dseq := 0, cmds := [], outbox := [], faults := [], faultSeq := 0, recent := [] }

/-- A function reset (R429). -/
def Gpu.resetFunction (g : Gpu) (part : Nat) : Gpu := (g.fencePart part).modPart part Part.resetFunction

/-- PORT_RESET (R429). -/
def execPortReset (port : Nat) (s : State) : Out :=
  s.device fun g => ((g.parts.filter fun p => p.entry.port == port).map Part.id).foldl Gpu.resetFunction g

/-- FUNCTION_LEVEL_RESET (R429). -/
def execFunctionLevelReset (part : Nat) (s : State) : Out := s.device fun g => g.resetFunction part

/-! ### The mailbox (R433) -/

/-- A response. -/
def State.reply (s : State) (part status : Nat) (bytes : List Byte) : State :=
  { s with sec := { s.sec with replies := s.sec.replies ++ [{ part := part, status := status, bytes := bytes }] } }

/-- A request comes from the management port. In recovery mode no partition exists, and a requester is named by its port (log 88). -/
def State.fromMgmt (s : State) (part : Nat) : Bool :=
  let port := ((s.gpu.part? part).map fun p => p.entry.port).getD part
  port == (s.sec.active.map fun t => field t 6 1).getD 0

/-- A request of an object type that Table 18.4 does not hold is answered DENIED (R433). -/
def State.otherRequest (s : State) (part type : Nat) : State := if 1 ≤ type && type ≤ 7 then s else s.reply part 6 []

/-- The identity key's seeds (R434). -/
def Sec.seeds (c : Sec) : List Byte := Config.shake256x96 (c.secret ++ [1])

/-- IDENT (R433, R434); in recovery mode only SERIAL. -/
def execIdent (part : Nat) (s : State) : Out :=
  let c := s.sec
  let serial := bytesOfNat 8 c.serial.toNat
  .next (s.reply part 0 (if c.recov then serial else serial ++ bytesOfNat 4 c.svn ++ Config.slhPublic c.seeds ++ c.fwmeas))

/-- The report of Table 18.5. -/
def State.report (s : State) (part : Nat) (nonce : List Byte) : List Byte :=
  let c := s.sec
  bytesOfNat 2 1 ++ bytesOfNat 2 part ++ bytesOfNat 4 c.svn ++ bytesOfNat 8 c.serial.toNat ++ bytesOfNat 8 s.clk.ptp ++ nonce ++ c.fwmeas ++
  Config.shake256x32 (c.active.getD Config.defaultTable) ++ List.replicate 8 0

/-- ATTEST (R434). -/
def execAttest (part : Nat) (nonce : List Byte) (s : State) : Out :=
  .next (if s.sec.recov then s
    else if nonce.length ≠ 32 then s.reply part 3 []
    else let r := s.report part nonce; s.reply part 0 (r ++ Config.slhSign s.sec.seeds r))

/-- The words of Table 18.7. Half a watt in USEDW is rounded one way or the other, which is not stated. -/
def State.statusWords (s : State) (part : Nat) : List Word :=
  let c := s.sec
  let g : Gpu := { s.gpu with now := s.clk.cyc, ptp := s.clk.ptp }
  let t := fun (i : Nat) => BitVec.ofNat 8 (c.temps.getD i 0)
  let used := (g.partPower part (g.bestGrants part) + (Config.freeWord g.free).toNat % 2) / 2
  let share := ((g.part? part).map fun p => p.entry.powerw).getD 0
  let hot := c.temps.any fun t => 100 ≤ t
  [ (0 : BitVec 16) ++ Config.packageWatts s.clk.cyc, t 2 ++ t 1 ++ t 0 ++ Config.coolant s.clk.cyc,
    BitVec.ofNat 16 used ++ BitVec.ofNat 16 share,
    (0 : BitVec 29) ++ BitVec.ofBool c.tripped ++ BitVec.ofBool hot ++ BitVec.ofBool c.recov ]

/-- STATUS (R438). -/
def execStatus (part : Nat) (s : State) : Out :=
  .next { s.reply part 0 (bytesOfWords (s.statusWords part)) with gpu := { s.gpu with free := s.gpu.free + 1 } }

/-- The bytes of an error log entry (Table 18.8). -/
def LogEntry.bytes (e : LogEntry) : List Byte :=
  bytesOfNat 8 e.time ++ bytesOfNat 2 e.kind ++ bytesOfNat 2 e.asid ++ bytesOfNat 2 e.core ++ bytesOfNat 2 e.unit ++ bytesOfNat 8 e.addr ++
  bytesOfNat 4 e.index ++ bytesOfNat 4 0

/-- LOG (R439): an entry of the function's own partition, or NOTHELD. -/
def execLog (part : Nat) (index : Word) (s : State) : Out :=
  .next (if s.sec.recov then s
    else match (s.gpu.part? part).bind fun p => p.log.find? fun e => e.index == index.toNat with
      | some e => s.reply part 0 e.bytes
      | none => s.reply part 5 [])

/-- Bytes put at an offset; what lies before them and was never written is a free value. -/
def putBytes (free : Nat) (b : List Byte) (off : Nat) (new : List Byte) : List Byte :=
  listPut (b ++ ((List.range (off - b.length)).map fun i => (Config.freeWord (free + i)).setWidth 8)) off new

/-- FWSTAGE (R433): only into the slot that did not boot, and within the largest image. -/
def execFwStage (part slot : Nat) (off : Nat) (bytes : List Byte) (s : State) : Out :=
  .next (
    if !s.fromMgmt part then s.reply part 6 []
    else if 1 < slot || slot == s.sec.booted || 4096 < bytes.length || 128 + 2 ^ 25 + sigLen < off + bytes.length then s.reply part 3 []
    else
      let c := s.sec
      let b := putBytes s.gpu.free (c.slot slot) off bytes
      let c' : Sec := if slot = 0 then { c with slot0 := ⟨b⟩ } else { c with slot1 := ⟨b⟩ }
      ({ s with sec := c', gpu := { s.gpu with free := s.gpu.free + off } } : State).reply part 0 [])

/-- FWCOMMIT (R432, R433). -/
def execFwCommit (part slot : Nat) (s : State) : Out :=
  .next (
    if !s.fromMgmt part then s.reply part 6 []
    else if 1 < slot || slot == s.sec.booted then s.reply part 3 []
    else
      let st := s.sec.imageStatus (s.sec.slot slot)
      let t := s.reply part st []
      if st = 0 then { t with sec := { t.sec with toReset := true } } else t)

/-! ### CFGSTAGE (R436) -/

/-- The partition that owns something, by a test of its entry. -/
def ownerOf (ps : List Part) (f : PEntry → Bool) : Option Nat := (ps.find? fun p => f p.entry).map Part.id

/-- A table applied (R436): partitions whose entries stay go on; memory ranges that change owner are zeroed, which ends their poison
(R365), and the cores of partitions whose entries change are reset, their dirty lines written back first. A partition keeps its
compressed pages only while its ranges hold all that they need. -/
def Gpu.applyTable (g : Gpu) (t : List Byte) : Gpu :=
  let old := g.parts
  let new := (tableParts t).map fun x => match g.part? x.1 with
    | some p =>
      if p.entry.port ≠ x.2.port then Part.fresh x.1 x.2
      else { p with entry := x.2, comp := p.comp.filter fun a => p.entry == x.2 || g.blockOk x.2 a }
    | none => Part.fresh x.1 x.2
  let moved := fun (f : PEntry → Bool) => ownerOf old f != ownerOf new f
  let entryOf := fun (ps : List Part) (c : Nat) => (ps.find? fun p => p.entry.groups.getLsbD (c / 16)).map fun p => (p.id, p.entry)
  let cores := (List.range 192).filter fun c => entryOf old c != entryOf new c
  let g := cores.foldl Gpu.cleanL1 g
  let g := g.mapCores fun n c => if cores.contains n then .empty else c
  let gone := fun (a : Nat) => moved fun e => e.holds a
  let kept := fun (k : LineKey) => match k.sp with
    | .dev => !gone (128 * k.idx)
    | .comp part => new.any fun p => p.id == part && p.comp.isSome
    | _ => true
  let m : MemSt := { g.mem with
    dev := g.mem.dev.filter fun x => !gone x.1
    l2dev := g.mem.l2dev.filter fun x => !gone x.1
    l2 := g.mem.l2.filter fun l => kept l.key
    poison := g.mem.poison.filter kept
    homes := g.mem.homes.filter fun x => kept x.1.line }
  { g with parts := new, mem := m }

/-- A partition whose entry changes holds a resident context. -/
def Gpu.tableBusy (g : Gpu) (t : List Byte) : Bool :=
  (List.range 4).any fun i =>
    ((g.part? i).map Part.entry) != (((tableParts t).find? fun x => x.1 == i).map (·.2)) && g.ctxs.any fun c => c.part == i

/-- CFGSTAGE (R436): FORM, BADSIG, ROLLBACK, BUSY in this order, or the table is stored and applied. -/
def execCfgStage (part : Nat) (table sig : List Byte) (s : State) : Out :=
  .next (
    if s.sec.recov then s
    else if !s.fromMgmt part then s.reply part 6 []
    else if !tableForm table then s.reply part 3 []
    else if !s.sec.tableSigned table sig then s.reply part 1 []
    else if s.sec.active.any fun t => field table 8 8 ≤ field t 8 8 then s.reply part 2 []
    else if s.gpu.tableBusy table then s.reply part 4 []
    else
      let okh := s.sec.okh.getD (Config.shake256x32 ((table.drop 0x140).take 64))
      ({ s.onGpu (fun g => g.applyTable table) with
          sec := { s.sec with table := some (table, sig), active := some table, okh := some okh } } : State).reply part 0 [])

/-! ### Thermal limits (R437) -/

/-- Every best-effort grant of the device ends. -/
def Gpu.endBestGrants (g : Gpu) : Gpu :=
  let best := fun (w : Wg) => (g.launch? w.launch).any fun l => l.desc.deadline.isNone
  { g with wgs := g.wgs.map fun w => if best w then { w with teams := w.teams.map fun t => { t with grant := none } } else w }

/-- A die's hottest sensor reads a temperature. -/
def Sec.heat (c : Sec) (die temp : Nat) : Sec := { c with temps := c.temps.set die temp }

/-- A die's hottest sensor reads a temperature below THOT; what it reads from THOT on is an event's (R437, R438). -/
def State.sense (s : State) (die temp : Nat) : State := if temp < 100 && die ≤ 2 then { s with sec := s.sec.heat die temp } else s

/-- THERMAL_HOT: a die at or above 100 °C; at or above 110 °C the part is held as well. -/
def execThermalHot (die temp : Nat) (s : State) : Out :=
  if temp < 100 || 2 < die then .next s
  else .next { s.onGpu (fun g => { g.endBestGrants with gov := { g.gov with hot := true } }) with
    sec := { s.sec.heat die temp with held := s.sec.held || decide (110 ≤ temp) } }

/-- THERMAL_HOT_CLEAR: every die is below 95 °C again; a sensor that had not read so yet reads a free value below. -/
def execThermalHotClear (s : State) : Out :=
  if !s.gpu.gov.hot then .next s
  else .next ((if s.sec.temps.all fun t => decide (t < 95) then s else s.coolBelow 95).onGpu fun g => { g with gov := { g.gov with hot := false } })

/-- THERMAL_TRIP: a die at or above 110 °C; clocks are removed and the part is held in reset. -/
def execThermalTrip (die temp : Nat) (s : State) : Out :=
  if temp < 110 || 2 < die then .next s else .next { s with sec := { s.sec.heat die temp with held := true } }

/-! ### Storage errors (R364) -/

/-- A line poisoned, logged once (R365). -/
def Gpu.poisonLine (g : Gpu) (k : LineKey) (unit addr : Nat) : Gpu :=
  if g.poisoned k then g
  else { g with mem := { g.mem with poison := k :: g.mem.poison } }.logError (g.lineOwner k) 1 0xFFFF 0xFFFF unit addr

/-- An error log entry whose ADDR is not stated: a free value. -/
def Gpu.logFree (g : Gpu) (part kind asid core unit : Nat) : Gpu :=
  let x := g.drawWord
  x.1.logError part kind asid core unit x.2.toNat

/-- UNCORRECTABLE_ERROR (Table 14.9). An error in hub-die state is reported on both host ports (R362); what else the part does is not
stated: here every partition is fenced (log 92). -/
def execUncorrectableError (site : ErrSite) (s : State) : Out :=
  s.device fun g => match site with
    | .mem line =>
      let inL2 := (List.range 128).any fun i => (Store.get none g.mem.l2dev (128 * line + i)).isSome
      g.poisonLine ⟨.dev, line⟩ (if inL2 then 1 else 0) (128 * line)
    | .comp part ridx line => g.poisonLine ⟨.comp part, 512 * ridx + line⟩ 1 (65536 * ridx + 128 * line)
    | .l1 core line => g.modCore core fun c => { c with
        l1 := (c.l1.filter fun l => !(l.key.idx == line && l.dirty == 0)).map fun l => if l.key.idx = line then { l with bad := true } else l }
    | .coreStorage core unit =>
      let cs := ((g.resident core).map Wg.ctx).dedup
      cs.foldl (fun g i => match g.ctx? i with
        | some c => (g.fenceCtx i stHWERR).logFree c.part 3 c.asid core unit
        | none => g) g
    | .coreDroppable core => g.modCore core fun c => { c with icache := [], tlb := [], bricks := [] }
    | .tlb tlb entry => g.dropTlbEntry tlb entry
    | .l2tags part => g.fencePart part
    | .hub => (g.parts.map Part.id).foldl Gpu.fencePart { g with devErr := [true, true] }

/-- The core concerned by an error in a unit: none for device memory, L2 and page walks (Table 18.8). -/
def unitCore (u : ErrUnit) : Nat := if u.kind = 0 || u.kind = 1 || 7 ≤ u.kind then 0xFFFF else u.core

/-- CORRECTABLE_ERROR (R364, R439): counted for its unit, and logged as the count passes a multiple of 65,536. -/
def execCorrectableError (part : Nat) (unit : ErrUnit) (s : State) : Out :=
  s.device fun g =>
    match g.part? part with
    | none => g
    | some p =>
      let key := 65536 * unit.kind + unitCore unit
      let n := Store.get 0 p.corr key + 1
      let g := g.modPart part fun p => { p with corr := Store.set 0 p.corr key n }
      if n % 65536 = 0 then g.logFree part 5 0xFFFF (unitCore unit) unit.kind else g

end Sys2Proof.Machine
end

