-- ==== Sys2Proof/Machine/System.lean ====
section
/-! DEFINITION. Special registers and the system instructions (14 R348, R349, R353, R356 to R361). -/

namespace Sys2Proof

/-- A register of trap mode alone (Table 14.2). -/
def SReg.trapOnly : SReg → Bool
  | .tcause | .tpc | .tsrc | .tword | .taddr | .tmask | .tstat | .ts0 | .ts1 | .ts2 | .ts3 => true
  | _ => false

/-- A register that `wrsr` may write in some mode (Table 14.2). -/
def SReg.writable : SReg → Bool
  | .flags | .prb | .tpc | .tstat | .ts0 | .ts1 | .ts2 | .ts3 => true
  | _ => false

/-- A register whose read is variable-latency (Table 14.2). -/
def SReg.slow : SReg → Bool
  | .cnt | .time => true
  | _ => false

end Sys2Proof

namespace Sys2Proof.Machine

open Sys2Proof

/-- The members of the issuing bundle are in trap mode. -/
def Gpu.inTrap (g : Gpu) : Bool := (g.cur.members.head?.bind g.thread?).any fun th => th.mode == .trap

/-- A word of the system group: the privileged trap for every member where the mode may not run it, whatever the guards
(R349, R353), otherwise `f`. -/
def Gpu.sysWord (g : Gpu) (p : Pfx) (ok : Bool) (f : Gpu → Gpu) : Gpu := if ok then f g else g.trapAll p.sw .privileged

/-- sr.ctx (Table 14.3). -/
def ctxWord (c : Ctx) (th : Thread) : Word :=
  BitVec.ofBool (th.mode == .trap) ++ (0 : BitVec 5) ++ BitVec.ofNat 10 c.asid ++ (0 : BitVec 6) ++ BitVec.ofNat 2 c.part ++
  (0 : BitVec 2) ++ BitVec.ofNat 6 c.slot

/-- A special register's value (Tables 1.2, 2.1, 3.6, 4.7, 5.10, 14.3), in 64 bits. DESIGN CHOICE (log 117): sr.wg of a batch numbered
2^24 or more holds the number's low 24 bits. -/
def Gpu.srValue (g : Gpu) (t : TRef) (e : Env) (th : Thread) (sr : SReg) : DWord :=
  let w := g.wg? t.wg
  let word := fun (v : Word) => (v.setWidth 64 : DWord)
  let nat := fun (n : Nat) => BitVec.ofNat 64 n
  match sr with
  | .lane => nat t.lane
  | .tid => nat (t.tid % 1024)
  | .team => nat t.team
  | .wg => nat ((w.map fun w => w.index % 2 ^ 24).getD 0)
  | .wgsize => nat ((w.map Wg.size).getD 0)
  | .node => nat ((w.map Wg.nodeNo).getD 0x7F)
  | .tier => nat ((w.map fun w => w.time.tier).getD 0)
  | .core => nat e.core
  | .pair => nat (pairOf e.core)
  | .ctx => word (((g.ctx? e.ctx).map fun c => ctxWord c th).getD 0)
  | .args => ((w.bind fun w => g.launch? w.launch).map fun l => l.desc.args).getD 0
  | .recAddr => th.recAddr
  | .flags => word (flagsWord e th)
  | .prb => word (prbWord th)
  | .cnt => word (cntWord th)
  | .time => nat g.ptp
  | .tcause => word th.trap.cause
  | .tpc => th.trap.tpc
  | .tsrc => th.trap.tsrc
  | .tword => th.trap.tword
  | .taddr => th.trap.taddr
  | .tmask => word th.trap.tmask
  | .tstat => word (BitVec.ofNat 32 (if th.trap.spmode then 1 else 0))
  | .ts0 => th.trap.ts0
  | .ts1 => th.trap.ts1
  | .ts2 => th.trap.ts2
  | .ts3 => th.trap.ts3

/-- `rdsr` (R349, R357). -/
def execRdsr (p : Pfx) (d : Reg) (sr : SReg) (s : State) : Out :=
  s.device fun g => g.sysWord p (!sr.trapOnly || g.inTrap) fun g =>
    g.laneWord p (d.span sr.wide) fun g t e th =>
      let v := g.srValue t e th sr
      if sr.slow then (g.pendLane t (d.span sr.wide) (if sr.wide then [v.setWidth 32, (v >>> 32).setWidth 32] else [v.setWidth 32]) 0 false, .done)
      else (g.modThread t fun th => th.setWide sr.wide d v, .done)

/-- A write to a writable register, field by field (R349, R357): flags that earlier instructions have yet to set, as their results come
or as they retire, are cleared too. -/
def Thread.writeSr (th : Thread) (sr : SReg) (v : DWord) : Thread :=
  match sr with
  | .flags =>
    { th with
      flags := th.flags &&& ~~~(v.setWidth 5),
      pend := th.pend.map fun q => { q with drop := q.drop ||| v.setWidth 5 },
      outst := th.outst.map fun o => { o with drop := o.drop ||| v.setWidth 5 } }
  | .prb => { th with prb := th.prb && !v.getLsbD 0 }
  | .tpc => { th with trap := { th.trap with tpc := alignPc v } }
  | .tstat => { th with trap := { th.trap with spmode := v.getLsbD 0 } }
  | .ts0 => { th with trap := { th.trap with ts0 := v } }
  | .ts1 => { th with trap := { th.trap with ts1 := v } }
  | .ts2 => { th with trap := { th.trap with ts2 := v } }
  | .ts3 => { th with trap := { th.trap with ts3 := v } }
  | _ => th

/-- `wrsr` (R349, R357). -/
def execWrsr (p : Pfx) (sr : SReg) (b : SrcB) (s : State) : Out :=
  s.device fun g => g.sysWord p (sr.writable && (!sr.trapOnly || g.inTrap)) fun g =>
    g.aluWord p (b.span sr.wide) fun _ th => .ok (th.writeSr sr (th.wideSrc sr.wide b))

/-- `sysc` (R358). -/
def execSysc (p : Pfx) (code : BitVec 9) (s : State) : Out :=
  s.device fun g => g.aluWord p [] fun _ _ => .error ⟨.syscall, code.setWidth 16, 0, false⟩

/-- `tret` (R358, R352): the PC becomes sr.tpc, to which the word's own length is added when it ends. -/
def execTret (p : Pfx) (s : State) : Out :=
  s.device fun g => g.sysWord p g.inTrap fun g =>
    g.laneWord p [] fun g t e _ =>
      let len := BitVec.ofNat 64 g.cur.len
      (g.modThread t fun th => let r := th.returnTrap e.tvec t.lane; { r with pc := r.pc - len }, .done)

/-- One lane's invalidation (R359): the fence, the translations, and the park until INVALIDATION_COMPLETE. The thread's own
stores reach their homes, where walks read; its remote reads and, at system scope, its stores to peers come first. -/
def Gpu.tlbLane (sc : Scope) (page : Thread → Option DWord) (g : Gpu) (t : TRef) (e : Env) (th : Thread) : Gpu × Fate :=
  let a := page th
  match a.map region with
  | some .bad => (g, .trap (.at .address (a.getD 0)))
  | r => g.afterReads e.core t sc <| g.releasing e.core t true sc fun g =>
    let g := (g.acquire e.core sc).release e.core t .dev
    let asid := ((g.ctx? e.ctx).map Ctx.asid).getD 0
    let far := sc == .dev || sc == .sys
    let drop := fun (g : Gpu) (p : Option Nat) => g.dropTlb asid p (inScope sc e.core) (if far then [0, 1] else [dieOf e.core]) far
    let (g, w) : Gpu × Wait := match r with
      | some (.scratch _) => (g, .inval sc none none)
      | some (.mem va) => (drop g (some va), .inval sc (some asid) (some va))
      | _ => (drop g none, .inval sc (some asid) none)
    (g.modThread t fun th => { th with status := .parked w }, .done)

/-- `tlbinv` (R359). -/
def execTlbinv (p : Pfx) (sc : Scope) (a : Reg) (s : State) : Out :=
  s.device fun g => g.sysWord p g.inTrap fun g => g.laneWord p (a.run 2) (Gpu.tlbLane sc fun th => some (th.pair a))

/-- `tlbinv.all` (R359). -/
def execTlbinvAll (p : Pfx) (sc : Scope) (s : State) : Out :=
  s.device fun g => g.sysWord p g.inTrap fun g => g.laneWord p [] (Gpu.tlbLane sc fun _ => none)

/-! ### Thread state records (R360, Table 14.6) -/

/-- Bytes of a record. -/
def recordSize (regs : Nat) : Nat := 64 + 4 * regs

/-- A thread's record. -/
def Thread.record (th : Thread) (regs : Nat) : List Byte :=
  bytesOfNat 8 th.trap.tpc.toNat ++ bytesOfNat 8 th.trap.tsrc.toNat ++ bytesOfNat 4 th.trap.cause.toNat ++ bytesOfNat 2 regs ++
  bytesOfNat 1 th.preds.toNat ++ bytesOfNat 1 ((if th.prb then 1 else 0) + (if th.trap.spmode then 2 else 0)) ++
  bytesOfNat 4 th.flags.toNat ++ List.replicate 36 0 ++ bytesOfWords (th.regsFrom 0 regs)

/-- A record is valid for a thread with `regs` registers (R360). -/
def recordOk (regs : Nat) (bs : List Byte) : Bool :=
  field bs 0x14 2 == regs && field bs 0x16 1 < 128 && field bs 0x17 1 < 4 && field bs 0x18 4 < 32 && zeroAt bs 0x1C 36

/-- A thread's state from a valid record. -/
def Thread.ofRecord (th : Thread) (regs : Nat) (bs : List Byte) : Thread :=
  let th := th.setRegs 0 (wordsOfBytes (bs.drop 64) regs)
  { th with
    preds := BitVec.ofNat 7 (field bs 0x16 1),
    prb := field bs 0x17 1 % 2 == 1,
    flags := BitVec.ofNat 5 (field bs 0x18 4),
    trap := { th.trap with tpc := alignPc (BitVec.ofNat 64 (field bs 0 8)), spmode := field bs 0x17 1 / 2 % 2 == 1 } }

/-- One lane of `ctxsv` (R360): 4-byte stores in ascending address order. -/
def Gpu.ctxsvLane (a : Reg) (g : Gpu) (t : TRef) (e : Env) (th : Thread) : Gpu × Fate :=
  if !th.quiet then (g, .wait .quiet)
  else
    let addr := th.pair a
    let bs := th.record e.regs
    match g.reach t e.core e.ctx .any 64 true (recordSize e.regs) .write addr with
    | (g, .error f) => (g, f)
    | (g, .ok (.scratch o)) => (g.scratchStore t.wg o bs, .done)
    | (g, .ok (.mem ls _)) =>
      ((List.range (16 + e.regs)).foldl (fun g i => g.pushStore e.core t 0 false ls (addr.toNat + 4 * i) ((bs.drop (4 * i)).take 4)) g, .done)

/-- `ctxsv` (R360). -/
def execCtxsv (p : Pfx) (a : Reg) (s : State) : Out :=
  s.device fun g => g.sysWord p g.inTrap fun g => g.laneWord p (a.run 2) (Gpu.ctxsvLane a)

/-- One lane of `ctxld` (R360). -/
def Gpu.ctxldLane (a : Reg) (g : Gpu) (t : TRef) (e : Env) (th : Thread) : Gpu × Fate :=
  if !th.quiet then (g, .wait .quiet)
  else
    let addr := th.pair a
    let n := recordSize e.regs
    let put := fun (g : Gpu) (bs : List Byte) =>
      if recordOk e.regs bs then (g.modThread t fun th => th.ofRecord e.regs bs, Fate.done) else (g, .trap (.of .stateRecord))
    match g.reach t e.core e.ctx .any 64 true n .read addr with
    | (g, .error f) => (g, f)
    | (g, .ok (.scratch o)) => put g (((g.wg? t.wg).map fun w => w.scratchBytes o n).getD [])
    | (g, .ok (.mem ls ps)) =>
      match g.firstPoison ps with
      | some i => (g, .trap (.at .poison (addr + BitVec.ofNat 64 i)))
      | none =>
        match g.readIssue e.core t ls addr.toNat n with
        | (g, .error f) => (g, f)
        | (g, .ok bs) => put g bs

/-- `ctxld` (R360). -/
def execCtxld (p : Pfx) (a : Reg) (s : State) : Out :=
  s.device fun g => g.sysWord p g.inTrap fun g => g.laneWord p (a.run 2) (Gpu.ctxldLane a)

/-! ### `hlt` (R361) -/

/-- The issuing bundle without threads that have stopped: the others keep it (R31). -/
def Gpu.shedStopped (g : Gpu) : Gpu :=
  { g with cur := { g.cur with members := g.cur.members.filter fun t => !((g.thread? t).any fun th => th.status == .stopped) } }

/-- `hlt.wg` (R361). -/
def execHltWg (p : Pfx) (s : State) : Out :=
  s.device fun g => g.sysWord p g.inTrap fun g => g.laneWord p [] fun g t _ _ => ((g.fenceWg t.wg stHALTED).shedStopped, .done)

/-- `hlt.ctx` (R361). -/
def execHltCtx (p : Pfx) (s : State) : Out :=
  s.device fun g => g.sysWord p g.inTrap fun g => g.laneWord p [] fun g _ e _ => (g.fenceCtx e.ctx stHALTED, .done)

end Sys2Proof.Machine
end

