-- ==== Sys2Proof/Machine/Dispatch.lean ====
section
/-! DEFINITION. One arm for each row of the opcode table: the meaning of an instruction word for the bundle that issues it, or
of an event for the agent that performs it. -/

namespace Sys2Proof.Machine

open Sys2Proof

/-- The meaning of every row of the opcode table. -/
def exec (i : Instr) (s : State) : Host.Outcome State Fault Refusal :=
  match i with
  | .iadd p ty sat d a b => Sys2Proof.Machine.execIadd p ty sat d a b s
  | .isub p ty sat d a b => Sys2Proof.Machine.execIsub p ty sat d a b s
  | .imul p ty sat d a b => Sys2Proof.Machine.execImul p ty sat d a b s
  | .imulh p ty d a b => Sys2Proof.Machine.execImulh p ty d a b s
  | .imad p ty sat d a b c => Sys2Proof.Machine.execImad p ty sat d a b c s
  | .iaddc p d a b pc => Sys2Proof.Machine.execIaddc p d a b pc s
  | .isubb p d a b pc => Sys2Proof.Machine.execIsubb p d a b pc s
  | .imin p ty d a b => Sys2Proof.Machine.execImin p ty d a b s
  | .imax p ty d a b => Sys2Proof.Machine.execImax p ty d a b s
  | .iabs p ty sat d a => Sys2Proof.Machine.execIabs p ty sat d a s
  | .ineg p ty sat d a => Sys2Proof.Machine.execIneg p ty sat d a s
  | .sel p wide d a b pc => Sys2Proof.Machine.execSel p wide d a b pc s
  | .icmp p cc ty pd a b => Sys2Proof.Machine.execIcmp p cc ty pd a b s
  | .mov p wide d a => Sys2Proof.Machine.execMov p wide d a s
  | .movi p wide d v => Sys2Proof.Machine.execMovi p wide d v s
  | .pset p op na nb pd pa pb => Sys2Proof.Machine.execPset p op na nb pd pa pb s
  | .pmov p d => Sys2Proof.Machine.execPmov p d s
  | .pmovSet p a mask => Sys2Proof.Machine.execPmovSet p a mask s
  | .lea p ty d a b sh => Sys2Proof.Machine.execLea p ty d a b sh s
  | .ladd p d a b => Sys2Proof.Machine.execLadd p d a b s
  | .lsub p d a b => Sys2Proof.Machine.execLsub p d a b s
  | .lcmp p cc sgn pd a b => Sys2Proof.Machine.execLcmp p cc sgn pd a b s
  | .bAnd p wide d a b => Sys2Proof.Machine.execBAnd p wide d a b s
  | .bOr p wide d a b => Sys2Proof.Machine.execBOr p wide d a b s
  | .bXor p wide d a b => Sys2Proof.Machine.execBXor p wide d a b s
  | .bNot p wide d a => Sys2Proof.Machine.execBNot p wide d a s
  | .shl p d a b => Sys2Proof.Machine.execShl p d a b s
  | .shr p d a b => Sys2Proof.Machine.execShr p d a b s
  | .sar p d a b => Sys2Proof.Machine.execSar p d a b s
  | .rotl p d a b => Sys2Proof.Machine.execRotl p d a b s
  | .bfx p ty d a b => Sys2Proof.Machine.execBfx p ty d a b s
  | .bfi p d a b c => Sys2Proof.Machine.execBfi p d a b c s
  | .popc p d a => Sys2Proof.Machine.execPopc p d a s
  | .clz p d a => Sys2Proof.Machine.execClz p d a s
  | .brev p d a => Sys2Proof.Machine.execBrev p d a s
  | .fadd p rm d a b => Sys2Proof.Machine.execFadd p rm d a b s
  | .fsub p rm d a b => Sys2Proof.Machine.execFsub p rm d a b s
  | .fmul p rm d a b => Sys2Proof.Machine.execFmul p rm d a b s
  | .ffma p rm d a b c => Sys2Proof.Machine.execFfma p rm d a b c s
  | .fmin p d a b => Sys2Proof.Machine.execFmin p d a b s
  | .fmax p d a b => Sys2Proof.Machine.execFmax p d a b s
  | .fcmp p cc pd a b => Sys2Proof.Machine.execFcmp p cc pd a b s
  | .fsel p cc d a b c => Sys2Proof.Machine.execFsel p cc d a b c s
  | .fclass p d a => Sys2Proof.Machine.execFclass p d a s
  | .frnd p rm d a => Sys2Proof.Machine.execFrnd p rm d a s
  | .ffrac p d a => Sys2Proof.Machine.execFfrac p d a s
  | .fscl p d a b => Sys2Proof.Machine.execFscl p d a b s
  | .frcp p rm d a => Sys2Proof.Machine.execFrcp p rm d a s
  | .frsq p d a => Sys2Proof.Machine.execFrsq p d a s
  | .fsqrt p rm d a => Sys2Proof.Machine.execFsqrt p rm d a s
  | .fexp2 p d a => Sys2Proof.Machine.execFexp2 p d a s
  | .flog2 p d a => Sys2Proof.Machine.execFlog2 p d a s
  | .fsin p d a => Sys2Proof.Machine.execFsin p d a s
  | .fcos p d a => Sys2Proof.Machine.execFcos p d a s
  | .hadd2 p ty rm d a b => Sys2Proof.Machine.execHadd2 p ty rm d a b s
  | .hmul2 p ty rm d a b => Sys2Proof.Machine.execHmul2 p ty rm d a b s
  | .hfma2 p rm d a b c => Sys2Proof.Machine.execHfma2 p rm d a b c s
  | .efma2 p rm d a b c => Sys2Proof.Machine.execEfma2 p rm d a b c s
  | .ivadd p d a b => Sys2Proof.Machine.execIvadd p d a b s
  | .ivsub p d a b => Sys2Proof.Machine.execIvsub p d a b s
  | .ivmul p d a b => Sys2Proof.Machine.execIvmul p d a b s
  | .ivsqr p d a => Sys2Proof.Machine.execIvsqr p d a s
  | .ivsqrt p d a => Sys2Proof.Machine.execIvsqrt p d a s
  | .ivmin p d a b => Sys2Proof.Machine.execIvmin p d a b s
  | .ivmax p d a b => Sys2Proof.Machine.execIvmax p d a b s
  | .ivabs p d a => Sys2Proof.Machine.execIvabs p d a s
  | .ivhull p d a b => Sys2Proof.Machine.execIvhull p d a b s
  | .ivsplit p d c a => Sys2Proof.Machine.execIvsplit p d c a s
  | .cvt p dt st rm sat d a => Sys2Proof.Machine.execCvt p dt st rm sat d a s
  | .cvef p dt d a c => Sys2Proof.Machine.execCvef p dt d a c s
  | .pack p ty idx d a => Sys2Proof.Machine.execPack p ty idx d a s
  | .unpack p ty idx d a => Sys2Proof.Machine.execUnpack p ty idx d a s
  | .prm p d a b c => Sys2Proof.Machine.execPrm p d a b c s
  | .dot2 p ty d a b c => Sys2Proof.Machine.execDot2 p ty d a b c s
  | .dot4 p ty d a b c => Sys2Proof.Machine.execDot4 p ty d a b c s
  | .dot8 p ty d a b c => Sys2Proof.Machine.execDot8 p ty d a b c s
  | .rdfl p wide d a => Sys2Proof.Machine.execRdfl p wide d a s
  | .bcast p wide d a lane => Sys2Proof.Machine.execBcast p wide d a lane s
  | .shfl p mode wide d a b => Sys2Proof.Machine.execShfl p mode wide d a b s
  | .vote p mode d a => Sys2Proof.Machine.execVote p mode d a s
  | .redu p op ty d a => Sys2Proof.Machine.execRedu p op ty d a s
  | .scan p op excl ty d a => Sys2Proof.Machine.execScan p op excl ty d a s
  | .matchL p wide d a => Sys2Proof.Machine.execMatchL p wide d a s
  | .hist p d a sh => Sys2Proof.Machine.execHist p d a sh s
  | .hmerge p ty runlog desc d a c => Sys2Proof.Machine.execHmerge p ty runlog desc d a c s
  | .ld p ch ty vec ord sc d a disp => Sys2Proof.Machine.execLd p ch ty vec ord sc d a disp s
  | .st p ch ty vec ord sc d a disp => Sys2Proof.Machine.execSt p ch ty vec ord sc d a disp s
  | .ldu p ch ty vec d a disp => Sys2Proof.Machine.execLdu p ch ty vec d a disp s
  | .atom p ch op ty nr sgn ord sc d a b => Sys2Proof.Machine.execAtom p ch op ty nr sgn ord sc d a b s
  | .lr p ch wide acq sc d a => Sys2Proof.Machine.execLr p ch wide acq sc d a s
  | .sc p ch wide rel scp d a b => Sys2Proof.Machine.execSc p ch wide rel scp d a b s
  | .fence p ch ord sc => Sys2Proof.Machine.execFence p ch ord sc s
  | .gth p ch wide vec sx rel sc sh d a b => Sys2Proof.Machine.execGth p ch wide vec sx rel sc sh d a b s
  | .sct p ch wide vec sx rel sc sh d a b => Sys2Proof.Machine.execSct p ch wide vec sx rel sc sh d a b s
  | .pfch p ch l2 a disp => Sys2Proof.Machine.execPfch p ch l2 a disp s
  | .icinv p ch sc => Sys2Proof.Machine.execIcinv p ch sc s
  | .acp p ch tb rwg rel sc d a b c => Sys2Proof.Machine.execAcp p ch tb rwg rel sc d a b c s
  | .acps p ch tb rwg rel sc d a b c => Sys2Proof.Machine.execAcps p ch tb rwg rel sc d a b c s
  | .acpw p ch tb rwg rel sc d a b c => Sys2Proof.Machine.execAcpw p ch tb rwg rel sc d a b c s
  | .acpx p ch tb rel d a b c => Sys2Proof.Machine.execAcpx p ch tb rel d a b c s
  | .wcnt p cls n => Sys2Proof.Machine.execWcnt p cls n s
  | .tbinit p a b => Sys2Proof.Machine.execTbinit p a b s
  | .tbarv p d a => Sys2Proof.Machine.execTbarv p d a s
  | .tbexp p a b => Sys2Proof.Machine.execTbexp p a b s
  | .tbwt p a b => Sys2Proof.Machine.execTbwt p a b s
  | .barinit p bar b => Sys2Proof.Machine.execBarinit p bar b s
  | .bar p bar => Sys2Proof.Machine.execBar p bar s
  | .bararv p bar => Sys2Proof.Machine.execBararv p bar s
  | .barwt p bar => Sys2Proof.Machine.execBarwt p bar s
  | .gbar p b => Sys2Proof.Machine.execGbar p b s
  | .bra p off => Sys2Proof.Machine.execBra p off s
  | .brx p a => Sys2Proof.Machine.execBrx p a s
  | .call p d off => Sys2Proof.Machine.execCall p d off s
  | .callx p d a => Sys2Proof.Machine.execCallx p d a s
  | .ret p a => Sys2Proof.Machine.execRet p a s
  | .exit p => Sys2Proof.Machine.execExit p s
  | .yield p => Sys2Proof.Machine.execYield p s
  | .nop p => Sys2Proof.Machine.execNop p s
  | .rjset p k b => Sys2Proof.Machine.execRjset p k b s
  | .rjoin p k => Sys2Proof.Machine.execRjoin p k s
  | .spawn p b a len => Sys2Proof.Machine.execSpawn p b a len s
  | .prbOn p => Sys2Proof.Machine.execPrbOn p s
  | .prbOff p => Sys2Proof.Machine.execPrbOff p s
  | .trap p code => Sys2Proof.Machine.execTrap p code s
  | .brk p code => Sys2Proof.Machine.execBrk p code s
  | .aalloc p d b => Sys2Proof.Machine.execAalloc p d b s
  | .agrow p d b => Sys2Proof.Machine.execAgrow p d b s
  | .afree p d b => Sys2Proof.Machine.execAfree p d b s
  | .azero p t => Sys2Proof.Machine.execAzero p t s
  | .ald p ty sc t a => Sys2Proof.Machine.execAld p ty sc t a s
  | .ast p ty rm sat sc t a => Sys2Proof.Machine.execAst p ty rm sat sc t a s
  | .amma p pair tall reuse clr t a b f => Sys2Proof.Machine.execAmma p pair tall reuse clr t a b f s
  | .amms p pair tall reuse clr t a b f => Sys2Proof.Machine.execAmms p pair tall reuse clr t a b f s
  | .adrain p max hi w ncol d t => Sys2Proof.Machine.execAdrain p max hi w ncol d t s
  | .atopk p max hi w ncol kk d t => Sys2Proof.Machine.execAtopk p max hi w ncol kk d t s
  | .cupd p t a b f => Sys2Proof.Machine.execCupd p t a b f s
  | .cfin p ty ncent t a => Sys2Proof.Machine.execCfin p ty ncent t a s
  | .vacc p kind t a f col => Sys2Proof.Machine.execVacc p kind t a f col s
  | .vtop p t a f col => Sys2Proof.Machine.execVtop p t a f col s
  | .vset p max kk a => Sys2Proof.Machine.execVset p max kk a s
  | .vsetRd p d => Sys2Proof.Machine.execVsetRd p d s
  | .vchk p kind pd a pc => Sys2Proof.Machine.execVchk p kind pd a pc s
  | .fork p na nc a b c => Sys2Proof.Machine.execFork p na nc a b c s
  | .rdv p => Sys2Proof.Machine.execRdv p s
  | .leave p d cls b => Sys2Proof.Machine.execLeave p d cls b s
  | .lvfree p => Sys2Proof.Machine.execLvfree p s
  | .march p aff d a b => Sys2Proof.Machine.execMarch p aff d a b s
  | .mres p d a b => Sys2Proof.Machine.execMres p d a b s
  | .mresAbort p d a => Sys2Proof.Machine.execMresAbort p d a s
  | .mqry p ray d a => Sys2Proof.Machine.execMqry p ray d a s
  | .prep p d a b => Sys2Proof.Machine.execPrep p d a b s
  | .veval p iv d a b => Sys2Proof.Machine.execVeval p iv d a b s
  | .bfetch p d a b => Sys2Proof.Machine.execBfetch p d a b s
  | .zts p le d a b => Sys2Proof.Machine.execZts p le d a b s
  | .rsub p d a => Sys2Proof.Machine.execRsub p d a s
  | .cmeta p d a => Sys2Proof.Machine.execCmeta p d a s
  | .rdsr p d sr => Sys2Proof.Machine.execRdsr p d sr s
  | .wrsr p sr b => Sys2Proof.Machine.execWrsr p sr b s
  | .sysc p code => Sys2Proof.Machine.execSysc p code s
  | .tret p => Sys2Proof.Machine.execTret p s
  | .tlbinv p sc a => Sys2Proof.Machine.execTlbinv p sc a s
  | .tlbinvAll p sc => Sys2Proof.Machine.execTlbinvAll p sc s
  | .ctxsv p a => Sys2Proof.Machine.execCtxsv p a s
  | .ctxld p a => Sys2Proof.Machine.execCtxld p a s
  | .hltWg p => Sys2Proof.Machine.execHltWg p s
  | .hltCtx p => Sys2Proof.Machine.execHltCtx p s
  | .dualWord sw h1 h2 => Sys2Proof.Machine.execDualWord sw h1 h2 s
  | .bundleFormation core => Sys2Proof.Machine.execBundleFormation core s
  | .activeSetFill core => Sys2Proof.Machine.execActiveSetFill core s
  | .fairnessRotation core slot => Sys2Proof.Machine.execFairnessRotation core slot s
  | .resultReturn t id => Sys2Proof.Machine.execResultReturn t id s
  | .tokenWrite op => Sys2Proof.Machine.execTokenWrite op s
  | .asyncRetire t cls => Sys2Proof.Machine.execAsyncRetire t cls s
  | .copyRetire op => Sys2Proof.Machine.execCopyRetire op s
  | .arrayOpRetire core => Sys2Proof.Machine.execArrayOpRetire core s
  | .engineStateStep core seq => Sys2Proof.Machine.execEngineStateStep core seq s
  | .marchComplete op => Sys2Proof.Machine.execMarchComplete op s
  | .rasterFragment op => Sys2Proof.Machine.execRasterFragment op s
  | .leaveGrant req => Sys2Proof.Machine.execLeaveGrant req s
  | .grantExpiry wg team => Sys2Proof.Machine.execGrantExpiry wg team s
  | .reservationTimeout t => Sys2Proof.Machine.execReservationTimeout t s
  | .l1LineExpiry core line => Sys2Proof.Machine.execL1LineExpiry core line s
  | .l1Writeback core line => Sys2Proof.Machine.execL1Writeback core line s
  | .exitCount t => Sys2Proof.Machine.execExitCount t s
  | .batchTimeout launch node => Sys2Proof.Machine.execBatchTimeout launch node s
  | .gangReportWrite launch => Sys2Proof.Machine.execGangReportWrite launch s
  | .budgetOverrun wg => Sys2Proof.Machine.execBudgetOverrun wg s
  | .workgroupPlace launch src core => Sys2Proof.Machine.execWorkgroupPlace launch src core s
  | .reservationStart launch => Sys2Proof.Machine.execReservationStart launch s
  | .migration wg core => Sys2Proof.Machine.execMigration wg core s
  | .preemption launch wg => Sys2Proof.Machine.execPreemption launch wg s
  | .lineWritebackCompressed part ridx line => Sys2Proof.Machine.execLineWritebackCompressed part ridx line s
  | .pinWriteback part => Sys2Proof.Machine.execPinWriteback part s
  | .submissionEntry part => Sys2Proof.Machine.execSubmissionEntry part s
  | .launch part hseq => Sys2Proof.Machine.execLaunch part hseq s
  | .ctxCreate part hseq => Sys2Proof.Machine.execCtxCreate part hseq s
  | .ctxFence part hseq => Sys2Proof.Machine.execCtxFence part hseq s
  | .ctxRearm part hseq => Sys2Proof.Machine.execCtxRearm part hseq s
  | .ctxSave part hseq => Sys2Proof.Machine.execCtxSave part hseq s
  | .ctxRestore part hseq => Sys2Proof.Machine.execCtxRestore part hseq s
  | .ctxLift part hseq => Sys2Proof.Machine.execCtxLift part hseq s
  | .ctxDestroy part hseq => Sys2Proof.Machine.execCtxDestroy part hseq s
  | .faultAns part hseq => Sys2Proof.Machine.execFaultAns part hseq s
  | .pageRel part hseq => Sys2Proof.Machine.execPageRel part hseq s
  | .compInst part hseq => Sys2Proof.Machine.execCompInst part hseq s
  | .partReset part hseq => Sys2Proof.Machine.execPartReset part hseq s
  | .release part hseq => Sys2Proof.Machine.execRelease part hseq s
  | .frameSend rel => Sys2Proof.Machine.execFrameSend rel s
  | .completionWrite part => Sys2Proof.Machine.execCompletionWrite part s
  | .faultRecordWrite part => Sys2Proof.Machine.execFaultRecordWrite part s
  | .resync part expect => Sys2Proof.Machine.execResync part expect s
  | .bar0RegisterWrite part off val => Sys2Proof.Machine.execBar0RegisterWrite part off val s
  | .fabricPacketReceive k => Sys2Proof.Machine.execFabricPacketReceive k s
  | .fabricResend conn => Sys2Proof.Machine.execFabricResend conn s
  | .fabricPortDown port => Sys2Proof.Machine.execFabricPortDown port s
  | .fabricPortUp port => Sys2Proof.Machine.execFabricPortUp port s
  | .ptpMessage offset => Sys2Proof.Machine.execPtpMessage offset s
  | .ptpHoldover => Sys2Proof.Machine.execPtpHoldover s
  | .ident part => Sys2Proof.Machine.execIdent part s
  | .attest part nonce => Sys2Proof.Machine.execAttest part nonce s
  | .status part => Sys2Proof.Machine.execStatus part s
  | .log part index => Sys2Proof.Machine.execLog part index s
  | .fwStage part slot off bytes => Sys2Proof.Machine.execFwStage part slot off bytes s
  | .fwCommit part slot => Sys2Proof.Machine.execFwCommit part slot s
  | .cfgStage part table sig => Sys2Proof.Machine.execCfgStage part table sig s
  | .powerOn => Sys2Proof.Machine.execPowerOn s
  | .deviceReset => Sys2Proof.Machine.execDeviceReset s
  | .portReset port => Sys2Proof.Machine.execPortReset port s
  | .functionLevelReset part => Sys2Proof.Machine.execFunctionLevelReset part s
  | .thermalHot die temp => Sys2Proof.Machine.execThermalHot die temp s
  | .thermalTrip die temp => Sys2Proof.Machine.execThermalTrip die temp s
  | .uncorrectableError site => Sys2Proof.Machine.execUncorrectableError site s
  | .correctableError part unit => Sys2Proof.Machine.execCorrectableError part unit s
  | .storeFifoDrain t => Sys2Proof.Machine.execStoreFifoDrain t s
  | .invalidationComplete t => Sys2Proof.Machine.execInvalidationComplete t s
  | .thermalHotClear => Sys2Proof.Machine.execThermalHotClear s
  | .liftTimeout ctx => Sys2Proof.Machine.execLiftTimeout ctx s
  | .releaseCutoff rel => Sys2Proof.Machine.execReleaseCutoff rel s

end Sys2Proof.Machine
end

