-- ==== Sys2Proof/Machine/Load.lean ====
section
/-! DEFINITION. The device with one workgroup of one thread about to issue the word at an address: what system software and the
dispatch complex bring about through CTXCREATE, LAUNCH, WORKGROUP_PLACE, BUNDLE_FORMATION and ACTIVE_SET_FILL (log 3). -/

namespace Sys2Proof.Machine

open Sys2Proof

/-- Where the loaded program starts. -/
def loadPc : DWord := 0x1000

/-- The context of a loaded program: slot 0, ASID 0, no trap enabled. -/
def loadCtx : Ctx where
  slot := 0
  part := 0
  asid := 0
  desc := 0
  ftz := false
  te := 0
  shadow := 0
  ptroot := 0
  tvec := 0x2000
  save := 0
  savelen := 0
  tring := 0
  tringn := 64
  eptab := 0
  nept := 0
  status := .live
  lift := none
  drops := 0

/-- Its launch: one workgroup of one thread, 256 registers, 64 KiB of scratchpad, 64 tiles, best-effort. -/
def loadLaunch : Launch where
  id := 0
  ctx := 0
  part := 0
  hseq := 0
  desc := { wgcount := 1, wgsize := 1, regs := 256, split := 1, brick := 0, tiles := 64, power := 7, scratch := 65536, prio := 0,
            tiers := [⟨loadPc, 0xFFFFFFFF⟩], deadline := none, pooln := 0, pool := 0, greport := 0, args := 0, rootsucc := 0 }
  nodes := []
  gangs := []
  tier := 0
  status := .running
  accepted := 0
  alloc := none
  waiting := []
  queue := []
  packs := []
  general := []
  reserve := []
  parked := []
  nextSeq := 0
  fences := []
  charged := 0
  fin := none

/-- Its workgroup, on core 0. -/
def loadWg (now : Nat) : Wg where
  id := 0
  launch := 0
  ctx := 0
  node := none
  index := 0
  size := 1
  regs := 256
  place := .core 0
  scratchLen := 65536
  scratch := []
  tbars := []
  tilesDecl := 64
  tmap := List.range 64
  tiles := []
  bars := List.replicate 16 (.start 1)
  teams := [.start]
  time := { budget := 0xFFFFFFFF, placed := now, since := some now, used := 0, tier := 0 }
  recs := []
  seqs := []
  endSt := none

/-- The page that holds the program: 1 GiB of device memory at virtual address 0, all accesses permitted. -/
def loadLeaf : Leaf where
  base := ⟨.dev, 0⟩
  log := 30
  x := true
  rpl := false
  w := true
  cache := 0
  wpol := 0
  evp := 0
  hsnoop := false
  home := false

/-- Its thread, ACTIVE in user mode at the program's first word. -/
def loadThread : Thread := { Thread.start loadPc 0 with status := .active }

/-- Its core: the bundle in the active set, the page's translation in the L1 TLB. -/
def loadCore : CoreSt :=
  { CoreSt.empty with
    split := 1,
    active := [{ members := [⟨0, 0⟩], launch := 0, mode := .user, pc := loadPc, entry := false, order := 0, issued := 0, timer := 0 }],
    tlb := [{ asid := 0, vpn := 0, leaf := loadLeaf }] }

/-- A word and the word after it in device memory, and the program that starts there loaded. -/
def Gpu.load (g : Gpu) (w l : DWord) (now : Nat) : Gpu :=
  let m := g.mem.setDevBytes loadPc.toNat (bytesOfNat 8 w.toNat ++ bytesOfNat 8 l.toNat)
  { g with
    cur := .none
    threads := [(⟨0, 0⟩, loadThread)]
    wgs := [loadWg now]
    launches := [loadLaunch]
    ctxs := [loadCtx]
    ops := []
    rays := []
    cores := [(0, loadCore)]
    nextId := g.nextId + 1
    mem := { m with poison := [] } }

end Sys2Proof.Machine
end

