-- ==== Sys2Proof/Machine/Quiet.lean ====
section
/-! DEFINITION. Moves of the agenda that no program sees, and those of the outside world: caches that drop clean entries (04 R100;
01 R20; 16 R395), L2 lines written back (04 R102), stores of a host to its own memory (04 R121), and peers that connect (17 R420). -/

namespace Sys2Proof.Machine

open Sys2Proof

/-- Bytes a host stores to the memory behind a port (04 R121): reservations there are lost (R122). -/
def Gpu.hostStore (g : Gpu) (port addr : Nat) (bs : List Byte) : Gpu :=
  g.homeStore false false ((bs.zipIdx).map fun x => (⟨.host port, addr + x.2⟩, x.1))

/-- A valid endpoint connects, the remote context's table naming this one (R420); a connection that has failed starts anew, and so does
one of an entry that names another endpoint by now, where what is outstanding ends as at a failure. -/
def Gpu.connect (g : Gpu) (ctx ep : Nat) : Gpu :=
  match (g.ctx? ctx).bind fun c => g.endpoint c ep with
  | none => ((g.ctx? ctx).map fun c => g.logEnd c ep).getD g
  | some b =>
    let same := fun (c : Conn) => c.ctx == ctx && c.ep == ep
    if g.fabric.conns.any fun c => same c && c.names b && !(c.failed && c.unacked.isEmpty) then g
    else
      let g := (g.fabric.conns.filter fun c => same c && !c.names b).foldl Gpu.failConn g
      let c : Conn :=
        { ctx := ctx, ep := ep, peer := field b 0 2, rpart := field b 4 1 % 4, rasid := field b 2 2, next := 0, unacked := [], expect := 0,
          resends := 0, failed := false, refused := false }
      { g with fabric := { g.fabric with conns := (g.fabric.conns.filter fun c => !same c) ++ [c] } }

/-- A move that is no row of the opcode table. Words of clean caches are dropped, dirty L2 bytes of a device-memory line
reach memory, a copy writes its next 128 bytes (R383), a register of a pending result comes (R147), a word of a frame is read (R428), a host stores, or negotiates AtomicOps on a partition's port (R409). -/
def Gpu.quietMove (g : Gpu) (m : Move) : Gpu :=
  match m with
  | .l1Drop core line => g.modCore core fun c => { c with l1 := c.l1.filter fun l => !(l.key.idx == line && l.dirty == 0) }
  | .tlbDrop tlb i => g.dropTlbEntry tlb i
  | .icDrop core i => g.modCore core fun c => { c with icache := c.icache.eraseIdx i }
  | .copyStep op => g.stepCopy op
  | .landPart t id i => (g.showDrain id).modThread t fun th => th.landPart id i
  | .frameStep rel => g.frameStep rel
  | .l2Evict line =>
    let step := fun (m : MemSt) (i : Nat) =>
      let a := 128 * line + i
      { m with dev := m.dev.setByte a (m.devByte a), l2dev := Store.set none m.l2dev a none }
    { g with mem := (List.range 128).foldl step g.mem }
  | .hostStore port addr bs => g.hostStore port addr bs
  | .connect ctx ep => g.connect ctx ep
  | .hostAtomics part on => g.modPart part fun p => { p with atomics := on }
  | _ => g

end Sys2Proof.Machine
end

