-- ==== Sys2Proof/Machine/Sched.lean ====
section
/-! DEFINITION. Which agents move when the agenda names none (log 1): whatever has something to do does it, one event at a time;
then every core with an active bundle issues one word, and a core cycle passes. -/

namespace Sys2Proof.Machine

open Sys2Proof

/-- Whether a package whose clocks are removed (R437) keeps a move from having any effect. -/
def State.frozen (s : State) (m : Move) : Bool :=
  s.sec.held && match m with
    | .event .powerOn | .event (.thermalTrip _ _) | .hostStore _ _ _ | .hostAtomics _ _ | .sensor _ _ => false
    | _ => true

/-- Events of threads and their operations. -/
def Gpu.threadEvents (g : Gpu) : List Instr :=
  let back := fun (x : TRef × Thread) => (x.2.pend.filter fun q => q.vals.isSome).map fun q => Instr.resultReturn x.1 q.id
  let ret := fun (x : TRef × Thread) => (x.2.outst.map Outst.cls).dedup.map fun c => Instr.asyncRetire x.1 c
  let other := fun (x : TRef × Thread) => match x.2.status with
    | .exiting => [Instr.exitCount x.1]
    | .parked (.inval _ _ _) => [Instr.invalidationComplete x.1]
    | _ => []
  let op := fun (o : Op) => [Instr.tokenWrite o.id, .copyRetire o.id, .marchComplete o.id, .rasterFragment o.id]
  g.threads.flatMap back ++ g.ops.flatMap op ++ g.threads.flatMap ret ++ g.threads.flatMap other

/-- Events of the cores. -/
def Gpu.coreEvents (g : Gpu) : List Instr :=
  let one := fun (x : Nat × CoreSt) =>
    [.arrayOpRetire x.1, .engineStateStep x.1 .array, .engineStateStep x.1 .copy] ++
    ((x.2.fifo.map FifoEntry.t).dedup.map Instr.storeFifoDrain) ++
    ((x.2.l1.filter fun l => l.filled + lineLife ≤ g.now).map fun l => Instr.l1LineExpiry x.1 l.key.idx) ++
    ((List.range x.2.active.length).map fun i => Instr.fairnessRotation x.1 i) ++ [.bundleFormation x.1, .activeSetFill x.1]
  (g.gov.reqs.map fun r => Instr.leaveGrant r.id) ++ g.cores.flatMap one

/-- Events of launches, workgroups and time limits. -/
def Gpu.launchEvents (g : Gpu) : List Instr :=
  let wg := fun (w : Wg) => if w.core?.isSome then
      Instr.budgetOverrun w.id :: ((List.range w.teams.length).map fun j => Instr.grantExpiry w.id j) else []
  let one := fun (l : Launch) =>
    if l.status = .finished then (if l.fin.isSome then [Instr.gangReportWrite l.id] else [])
    else
      [Instr.gangReportWrite l.id, .reservationStart l.id] ++ ((List.range l.nodes.length).map fun n => Instr.batchTimeout l.id n) ++
      (((g.autoSpot l).map fun x => Instr.workgroupPlace l.id x.1 x.2).toList)
  let resv := fun (x : TRef × Thread) => if x.2.resv.isSome then some (Instr.reservationTimeout x.1) else none
  g.wgs.flatMap wg ++ g.threads.filterMap resv ++ g.launches.flatMap one

/-- The row that performs an accepted command (Table 17.4). -/
def commandRow (part : Nat) (c : Cmd) : Option Instr :=
  match c.cmd with
  | 1 => some (.launch part c.hseq)
  | 2 => some (.ctxCreate part c.hseq)
  | 3 => some (.ctxFence part c.hseq)
  | 4 => some (.ctxRearm part c.hseq)
  | 5 => some (.ctxSave part c.hseq)
  | 6 => some (.ctxRestore part c.hseq)
  | 7 => some (.ctxLift part c.hseq)
  | 8 => some (.ctxDestroy part c.hseq)
  | 9 => some (.faultAns part c.hseq)
  | 10 => some (.pageRel part c.hseq)
  | 11 => some (.compInst part c.hseq)
  | 12 => some (.partReset part c.hseq)
  | 13 => some (.release part c.hseq)
  | _ => none

/-- Events of the ports, the fabric and the release unit. -/
def Gpu.portEvents (g : Gpu) : List Instr :=
  let one := fun (p : Part) =>
    [.submissionEntry p.id] ++ p.cmds.filterMap (commandRow p.id) ++ [.completionWrite p.id, .faultRecordWrite p.id, .pinWriteback p.id]
  g.parts.flatMap one ++ ((List.range g.fabric.conns.length).map Instr.fabricResend) ++
  (g.fabric.rels.flatMap fun r => [Instr.frameSend r.id, .releaseCutoff r.id]) ++
  g.ctxs.filterMap fun c => if c.lift.isSome then some (Instr.liftTimeout c.slot) else none

/-- Whether an event does anything. -/
def State.matters (s : State) (i : Instr) : Bool :=
  match exec i s with
  | .next t => t.gpu != ({ s.gpu with now := s.clk.cyc, ptp := s.clk.ptp } : Gpu) || t.sec != s.sec
  | _ => true

/-- The moves made when the agenda is empty. -/
def State.autoPlan (s : State) : List Move :=
  let g : Gpu := { s.gpu with now := s.clk.cyc, ptp := s.clk.ptp }
  if s.sec.held then [.tick 1]
  else
    let es := g.threadEvents ++ g.coreEvents ++ g.launchEvents ++ g.portEvents ++ (if s.sec.toReset then [.deviceReset] else [])
    match es.find? s.matters with
    | some i => [.event i]
    | none => ((g.cores.filter fun x => !x.2.active.isEmpty).map fun x => Move.issue x.1) ++ [.tick 1]

end Sys2Proof.Machine
end

