-- ==== Sys2Proof/Machine/Step.lean ====
section
/-! DEFINITION. One step of the device: the next move of the agenda, or the model's own choice when it names none (log 1). -/

namespace Sys2Proof.Machine

open Sys2Proof

/-- One move performed. A row of the opcode table that is an instruction word is not an event: only a core's issue executes
one. -/
def State.play (s : State) (m : Move) : Host.Outcome State Fault Refusal :=
  if s.frozen m then .next s
  else match m with
    | .event i => if i.isWord then .next s else exec i s
    | .issue core =>
      match ({ s.gpu with now := s.clk.cyc, ptp := s.clk.ptp } : Gpu).issue core with
      | .idle => .next s
      | .stopped g => .next { s with gpu := g }
      | .word g i => exec i { s with gpu := g }
    | .tick n => .next (s.tick n)
    | .sensor die temp => .next (s.sense die temp)
    | .otherRequest part type => .next (s.otherRequest part type)
    | m => .next (s.onGpu fun g => g.quietMove m)

/-- One step: the agenda's next move. -/
def step (s : State) : Host.Outcome State Fault Refusal :=
  match s.agenda with
  | m :: ms => State.play { s with agenda := ms } m
  | [] =>
    match s.autoPlan with
    | m :: ms => State.play { s with agenda := ms } m
    | [] => .next s

/-- The device with the instruction of the given bits in memory at the PC of the only active bundle of core 0, which issues it
at the next step: bits 63..0 are the word, bits 127..64 the word after it (log 3). -/
def State.withFetchWord (s : State) (_nbits w : Nat) : State :=
  { s with
    gpu := s.gpu.load (BitVec.ofNat 64 w) (BitVec.ofNat 64 (w / 2 ^ 64)) s.clk.cyc
    sec := { s.sec with held := false }
    agenda := [.issue 0] }

end Sys2Proof.Machine
end

