-- ==== Sys2Proof/Machine/View.lean ====
section
/-! DEFINITION. What the statements look at: a thread without the way it is scheduled, the device without the bookkeeping of
issue, the conditions under which a word issues without obstacle, and the forms of result that words share. -/

namespace Sys2Proof.Machine

open Sys2Proof

/-- A thread without its scheduling: the park or set it is in (R26), the park it owes (R147) and its seal (R227). -/
def Thread.data (th : Thread) : Thread := { th with status := .ready, owes := false, rdfl := none }

/-- The device without its threads and without the bookkeeping of issue: the latch of the issuing word, the active sets, the
model's counter of numbers and the clocks latched for the step. -/
def Gpu.rest (g : Gpu) : Gpu :=
  { g with
    cur := .none
    threads := []
    nextId := 0
    now := 0
    ptp := 0
    cores := g.cores.map fun x => (x.1, { x.2 with active := [] }) }

/-- The state without threads and the bookkeeping of issue. -/
def State.rest (s : State) : State := { s with gpu := s.gpu.rest }

/-- The members of the issuing bundle. -/
def State.members (s : State) : List TRef := s.gpu.cur.members

/-- A thread without a deferred trap that a park would deliver (R352), or for which it would fence the context (R345, R354). -/
def Thread.still (th : Thread) : Prop := (th.mode = .user → th.due = [] ∧ th.deferred = []) ∧ th.trapDue = false

/-- The bundle of the issuing word: on a core that is in use, and, if the word has S = 1, without a deferred trap to
deliver (R352). -/
def Settled (s : State) (sw : Bool) : Prop :=
  (s.gpu.cores.any fun x => x.1 == s.gpu.cur.core) = true ∧
  ∀ t ∈ s.members, ∀ th, s.gpu.thread? t = some th → sw = true → th.still

/-- A word with these register operands issues without obstacle: every register lies below REGS (R138), and a member whose
guards hold names no pending token (R128). -/
def Issuing (s : State) (p : Pfx) (used : List Reg) : Prop :=
  Settled s p.sw ∧
  (∀ t ∈ s.members, overRange (s.gpu.env t).regs used = false) ∧
  ∀ t ∈ s.members, ∀ th, s.gpu.thread? t = some th → th.guards p = true → th.pendingAmong used = none

/-- The word whose bit i is `f i`. -/
def wordOfBits (f : Nat → Bool) : Word := BitVec.ofNat 32 (((List.range 32).map fun i => if f i then 2 ^ i else 0).sum)

/-- A word ends in a next state in which each member is `f` of itself, no other thread has changed, and the rest of the device
is as the effect `d` leaves it. -/
def Result (s : State) (out : Out) (f : TRef → Thread → Thread) (d : Gpu → Gpu) : Prop :=
  ∃ t, out = .next t ∧ t.rest = (s.onGpu d).rest ∧
    (∀ u, s.gpu.thread? u = none → t.gpu.thread? u = none) ∧
    ∀ u th, s.gpu.thread? u = some th → ∃ th', t.gpu.thread? u = some th' ∧
      if u ∈ s.members then th'.data = (f u th).data else th' = th

/-- A member after a per-thread word: its PC at the next word, and the effect where its guards hold (R135). -/
def after (s : State) (p : Pfx) (f : TRef → Thread → Thread) (u : TRef) (th : Thread) : Thread :=
  let n := { th with pc := th.pc + BitVec.ofNat 64 s.gpu.cur.len }
  if th.guards p then f u n else n

/-- A per-thread word has the effect `f` in every member whose guards hold, and changes nothing else. -/
def Effect (s : State) (p : Pfx) (out : Out) (f : TRef → Thread → Thread) : Prop := Result s out (after s p f) id

/-- One thread issues a word whose guards hold: the bundle is that thread alone, ACTIVE, and the word issues without
obstacle. -/
def Solo (s : State) (u : TRef) (th : Thread) (p : Pfx) (used : List Reg) : Prop :=
  s.members = [u] ∧ s.gpu.thread? u = some th ∧ th.status = .active ∧ th.guards p = true ∧ Issuing s p used

/-- The word ends with the one member as `th'`, its PC at the next word, and the device as `d` leaves it. -/
def Does (s : State) (out : Out) (th' : Thread) (d : Gpu → Gpu) : Prop :=
  Result s out (fun _ _ => { th' with pc := th'.pc + BitVec.ofNat 64 s.gpu.cur.len }) d

/-- The word ends with the one member exactly `th'`, no other thread changed, and the device as `d` leaves it. -/
def Leaves (s : State) (u : TRef) (out : Out) (th' : Thread) (d : Gpu → Gpu) : Prop :=
  ∃ t, out = .next t ∧ t.rest = (s.onGpu d).rest ∧ t.gpu.thread? u = some th' ∧ ∀ v, v ≠ u → t.gpu.thread? v = s.gpu.thread? v

/-- The one member has executed the word, its PC at the next one, and is parked; it owes the park that S = 1 asks for (R147). -/
def Parks (s : State) (u : TRef) (sw : Bool) (out : Out) (th' : Thread) (w : Wait) (d : Gpu → Gpu) : Prop :=
  Leaves s u out { th' with pc := th'.pc + BitVec.ofNat 64 s.gpu.cur.len, status := .parked w, owes := sw, rdfl := none } d

/-- The one member is parked before the word, which it will issue again. -/
def Waits (s : State) (u : TRef) (th : Thread) (out : Out) (w : Wait) : Prop :=
  Leaves s u out { th with status := .parked w, rdfl := none } id

/-- The word does not issue yet (log 97): no thread changes, so that the bundle issues it again at a later turn, and the device is as `d`
leaves it. -/
def Stays (s : State) (out : Out) (d : Gpu → Gpu) : Prop :=
  ∃ t, out = .next t ∧ t.rest = (s.onGpu d).rest ∧ ∀ v, t.gpu.thread? v = s.gpu.thread? v

/-- The one member takes a precise trap (R351), and nothing else changes. -/
def Traps (s : State) (u : TRef) (th : Thread) (k : Trap) (out : Out) (d : Gpu → Gpu) : Prop :=
  Leaves s u out (th.takeTrap (s.gpu.env u).tvec k s.gpu.cur.pc s.gpu.cur.word s.gpu.cur.len ((1 : Word) <<< u.lane)) d

/-- Every member takes the same precise trap, whatever its guards (R235, R351), and nothing else changes but what `d` does. -/
def AllTrap (s : State) (k : Trap) (out : Out) (d : Gpu → Gpu) : Prop :=
  ∃ t, out = .next t ∧ t.rest = (s.onGpu d).rest ∧ ∀ u th, s.gpu.thread? u = some th → t.gpu.thread? u = some (if u ∈ s.members then
    th.takeTrap (s.gpu.env u).tvec k s.gpu.cur.pc s.gpu.cur.word s.gpu.cur.len (wordOfBits fun l => s.members.any fun m => m.lane == l)
    else th)

/-- The threads of the issuing bundle in ascending lane order, each with its state. -/
def State.lanes (s : State) : List (TRef × Thread) :=
  (sortLanes s.members).filterMap fun t => (s.gpu.thread? t).map fun th => (t, th)

/-- Those whose guards hold. -/
def State.on (s : State) (p : Pfx) : List (TRef × Thread) := s.lanes.filter fun x => x.2.guards p

/-- The issuing bundle is the whole live set of one team (R39), and the word issues without obstacle; `readAll`: it reads its
registers in every lane of the team. -/
def TeamIssuing (s : State) (wg team : Nat) (p : Pfx) (used : List Reg) (readAll : Bool) : Prop :=
  Issuing s p used ∧ s.members ≠ [] ∧
  (∀ t ∈ s.members, t.wg = wg ∧ t.team = team ∧ ∃ th, s.gpu.thread? t = some th ∧ (readAll = true → th.pendingAmong used = none)) ∧
  sameSet (sortLanes s.members) (s.gpu.liveSet wg team) = true


/-! ### Registers that a word names (R138) -/

/-- The registers that a word names, runs and pairs in full (R137, R138); none for a word that is privileged in user mode, which takes that trap
first (R151), and for events. -/
def named : Instr → List Reg
  | .iadd _ _ _ d a b | .isub _ _ _ d a b | .imul _ _ _ d a b | .imulh _ _ d a b | .imin _ _ d a b | .imax _ _ d a b
  | .iaddc _ d a b _ | .isubb _ d a b _ | .shl _ d a b | .shr _ d a b | .sar _ d a b | .rotl _ d a b | .bfx _ _ d a b
  | .fadd _ _ d a b | .fsub _ _ d a b | .fmul _ _ d a b | .fmin _ d a b | .fmax _ d a b | .fscl _ d a b | .hadd2 _ _ _ d a b
  | .hmul2 _ _ _ d a b => d :: a :: b.span false
  | .imad _ _ _ d a b c | .bfi _ d a b c | .ffma _ _ d a b c | .fsel _ _ d a b c | .hfma2 _ _ d a b c | .efma2 _ _ d a b c
  | .prm _ d a b c | .dot2 _ _ d a b c | .dot4 _ _ d a b c | .dot8 _ _ d a b c => d :: a :: c :: b.span false
  | .iabs _ _ _ d a | .ineg _ _ _ d a | .popc _ d a | .clz _ d a | .brev _ d a | .fclass _ d a | .frnd _ _ d a | .ffrac _ d a
  | .frcp _ _ d a | .frsq _ d a | .fsqrt _ _ d a | .fexp2 _ d a | .flog2 _ d a | .fsin _ d a | .fcos _ d a | .cvt _ _ _ _ _ d a
  | .pack _ _ _ d a | .unpack _ _ _ d a | .redu _ _ _ d a | .scan _ _ _ _ d a | .hist _ d a _ => [d, a]
  | .cvef _ _ d a c | .hmerge _ _ _ _ d a c => [d, a, c]
  | .sel _ wide d a b _ | .bAnd _ wide d a b | .bOr _ wide d a b | .bXor _ wide d a b =>
    d.span wide ++ a.span wide ++ b.span wide
  | .icmp _ _ _ _ a b | .fcmp _ _ _ a b => a :: b.span false
  | .mov _ wide d a | .bNot _ wide d a | .rdfl _ wide d a | .bcast _ wide d a _ => d.span wide ++ a.span wide
  | .shfl _ _ wide d a b => d.span wide ++ a.span wide ++ b.span false
  | .matchL _ wide d a => d :: a.span wide
  | .vote _ mode d a => match mode with | .uni => [a] | .ballot => [d] | _ => []
  | .movi _ wide d _ => d.span wide
  | .pmov _ d => [d]
  | .pmovSet _ a _ => [a]
  | .lea _ _ d a b _ => d.span true ++ a.span true ++ b.span false
  | .ladd _ d a b | .lsub _ d a b | .ivadd _ d a b | .ivsub _ d a b | .ivmul _ d a b | .ivmin _ d a b | .ivmax _ d a b
  | .ivhull _ d a b => d.span true ++ a.span true ++ b.span true
  | .lcmp _ _ _ _ a b => a.span true ++ b.span true
  | .ivsqr _ d a | .ivsqrt _ d a | .ivabs _ d a => d.span true ++ a.span true
  | .ivsplit _ d c a => d.span true ++ c.span true ++ a.span true
  | .ld _ _ ty vec _ _ d a _ | .st _ _ ty vec _ _ d a _ | .ldu _ _ ty vec d a _ => dataRegs d (accSize ty vec) ++ a.run 2
  | .atom _ _ _ ty nr _ _ _ d a b => (if nr then [] else d.span (ty == .b64)) ++ a.run 2 ++ b.span (ty == .b64)
  | .lr _ _ wide _ _ d a => d.span wide ++ a.run 2
  | .sc _ _ wide _ _ d a b => d :: a.run 2 ++ b.span wide
  | .gth _ _ wide vec _ _ _ _ d a b | .sct _ _ wide vec _ _ _ _ d a b =>
    dataRegs d (vecCount vec * (if wide then 8 else 4)) ++ a.run 2 ++ b.run (vecCount vec)
  | .pfch _ _ _ a _ | .brx _ a | .ret _ a | .ald _ _ _ _ a | .ast _ _ _ _ _ _ a => a.run 2
  | .acp _ _ tb _ _ _ d a b c | .acpw _ _ tb _ _ _ d a b c => copyRegs tb d a c ++ b.span false
  | .acps _ _ tb _ _ _ d a b c => copyRegs tb d a c ++ b.run 4
  | .acpx _ _ _ _ d a b c => d.run 2 ++ a.run 2 ++ [c] ++ b.span false
  | .tbinit _ a b | .tbexp _ a b | .tbwt _ a b => a.run 2 ++ b.span false
  | .tbarv _ d a | .rsub _ d a | .cmeta _ d a => d :: a.run 2
  | .barinit _ _ b | .gbar _ b | .rjset _ _ b => b.span false
  | .call _ d _ | .adrain _ _ _ _ _ d _ | .vsetRd _ d => d.run 2
  | .callx _ d a => d.run 2 ++ a.run 2
  | .spawn _ b a len => a.run ((len.toNat + 3) / 4) ++ b.span false
  | .aalloc _ d b | .agrow _ d b | .afree _ d b | .leave _ d _ b => d :: b.span false
  | .amma _ _ tall _ _ _ a b f | .amms _ _ tall _ _ _ a b f => a.run (if tall then 16 else 8) ++ b.span false ++ [f]
  | .atopk _ _ _ _ _ _ d _ => d.run 8
  | .cupd _ _ a b f => a.run 8 ++ [b, f]
  | .cfin _ _ _ _ a | .vset _ _ _ a | .vchk _ _ _ a _ => [a]
  | .vacc _ _ _ a f _ | .vtop _ _ a f _ => [a, f]
  | .fork _ _ _ a b c => a.run 2 ++ b.run 2 ++ c.run 8
  | .march _ _ d a b => d.run 4 ++ a.run 8 ++ b.span true
  | .mres _ d a b => d.run 4 ++ [a] ++ b.span true
  | .mresAbort _ d a => d.run 4 ++ [a]
  | .mqry _ _ d a => d.run 8 ++ [a]
  | .prep _ d a b => d :: a.run 2 ++ b.run 8
  | .veval _ iv d a b => d.run 4 ++ a.run 2 ++ b.run (if iv then 6 else 3)
  | .bfetch _ d a b => d.run 4 ++ a.run 2 ++ b.run 3
  | .zts _ _ d a b => d.run 2 ++ a.run 2 ++ b.span false
  | .rdsr _ d sr => if sr.trapOnly then [] else d.span sr.wide
  | .wrsr _ sr b => if sr.trapOnly || !sr.writable then [] else b.span sr.wide
  | _ => []

/-! ### Values, said by bits and integers -/

/-- Element `j` of a word of packed integers (R65, R66). -/
def elemInt (ty : Ty) (w : Word) (j : Nat) : Int :=
  let x := w.extractLsb' (widthOf ty * j) (widthOf ty)
  if signedInt ty then x.toInt else x.toNat

/-- An exact integer brought to an element's width: clamped first under `.sat` (R172). -/
def narrow (ty : Ty) (sat : Bool) (x : Int) : Nat :=
  ((if sat then min (max x (intMin ty)) (intMax ty) else x) % 2 ^ widthOf ty).toNat

/-- The word whose element `j` is `e j`. -/
def packed (ty : Ty) (e : Nat → Nat) : Word :=
  BitVec.ofNat 32 (((List.range (32 / widthOf ty)).map fun j => e j * 2 ^ (widthOf ty * j)).sum)

/-- Bit i of a word. -/
def bit (w : Word) (i : Nat) : Bool := w.toNat / 2 ^ i % 2 == 1

/-- No member that executes the word reads an abandoned encoding among the operands `ops` (R87), and none of the flags `fl` that
the word sets there is one whose trap is enabled (R77). -/
def FpReady (s : State) (p : Pfx) (ops : Thread → List Word) (fl : Env → Thread → BitVec 5) : Prop :=
  ∀ t ∈ s.members, ∀ th, s.gpu.thread? t = some th → th.guards p = true →
    (∀ w ∈ ops th, isAbandoned w = false) ∧ fpeTraps (s.gpu.env t) th (fl (s.gpu.env t) th) = false

/-- A result and its sticky flags written (R75, R77). -/
def Thread.putFp (th : Thread) (d : Reg) (r : Word × BitVec 5) : Thread :=
  { th with regs := Store.set 0 th.regs d.toNat r.1, flags := th.flags ||| r.2 }

/-- A point lies in the interval that a pair of words is read as (R81). -/
def inPair (x : Rat) (w : Word × Word) : Prop :=
  match ivRead w.1 w.2 with
  | none => False
  | some (l, h) => l.le (.fin x) = true ∧ (EB.fin x).le h = true

/-! ### Results that come later -/

/-- A result made pending under a number, its value known: until it returns the registers keep their values or take the new
ones (R147). `xch`: it is counted in XCH (R125). -/
def Thread.owed (th : Thread) (s : State) (rs : List Reg) (vs : List Word) (fl : BitVec 5) (xch : Bool) : Thread :=
  { th with
    pend := th.pend ++ [{ id := s.gpu.nextId, regs := rs, vals := some vs, flags := fl, token := false, xch := xch,
                          pc := s.gpu.cur.pc, word := s.gpu.cur.word }]
    outst := if xch then th.outst ++ [{ cls := .xch, id := s.gpu.nextId, done := false }] else th.outst }

/-- An operation counted in a class, with the registers that it will write as pending tokens (R125, R128). -/
def Thread.counts (th : Thread) (s : State) (cls : Cls) (token : List Reg) : Thread :=
  { th with
    outst := th.outst ++ [{ cls := cls, id := s.gpu.nextId, done := false }]
    pend := if token = [] then th.pend
      else th.pend ++ [{ id := s.gpu.nextId, regs := token, vals := none, flags := 0, token := true, xch := false,
                         pc := s.gpu.cur.pc, word := s.gpu.cur.word }] }

/-- The operation that a word of one thread starts. -/
def opStarted (s : State) (u : TRef) (cls : Cls) (kind : OpKind) (pages : List (Nat × Leaf)) : Op :=
  { id := s.gpu.nextId, owner := u, owners := [u], core := s.gpu.coreOf u, cls := some cls, kind := kind, bySeq := none, result := none,
    done := false, refused := false, pages := pages, asks := [], got := [], sent := false, pc := s.gpu.cur.pc, word := s.gpu.cur.word,
    at_ := s.clk.cyc, inst := s.gpu.cur.no, ch := 0, acq := false, moved := 0, flags := 0 }

/-- A word of one thread starts an asynchronous operation: it is counted, its destinations are pending tokens, and it is among
the operations in flight of the device that `d` leaves; a word with a cache hint marks it so (R96, R136). -/
def Starts (s : State) (u : TRef) (th : Thread) (out : Out) (cls : Cls) (kind : OpKind) (pages : List (Nat × Leaf)) (token : List Reg)
    (d : Gpu → Gpu) (hint : Option (BitVec 2) := none) : Prop :=
  Does s out (th.counts s cls token) fun g =>
    let g := d g
    let g := { g with ops := g.ops ++ [opStarted s u cls kind pages] }
    match hint with
    | some ch => g.modOp s.gpu.nextId fun o => { o with ch := ch }
    | none => g

/-- Two words as the low and the high half of a pair, or one word. -/
def wordsOfWide (wide : Bool) (v : DWord) : List Word := if wide then [v.setWidth 32, (v >>> 32).setWidth 32] else [v.setWidth 32]

/-- A register of the thread on a lane of the issuing bundle; 0 where the lane holds none (R192). -/
def State.laneValue (s : State) (wide : Bool) (a : Reg) (lane : Nat) : DWord :=
  ((s.lanes.find? fun x => x.1.lane == lane).map fun x => x.2.wideReg wide a).getD 0

/-- The mask of the lanes of threads that meet a condition. -/
def State.laneMask (s : State) (p : Pfx) (f : Thread → Bool) : Word :=
  wordOfBits fun l => (s.on p).any fun x => x.1.lane == l && f x.2

/-! ### Memory -/

/-- Where one access of a thread lies in its scratchpad: `size` bytes at an offset aligned to `al`, within SCRATCHWG (R94, R199). -/
def InScratch (s : State) (u : TRef) (a : DWord) (off size al : Nat) : Prop :=
  a = BitVec.ofNat 64 (0xFF0000000000 + off) ∧ off % al = 0 ∧ (s.gpu.ctx? (s.gpu.env u).ctx).isSome = true ∧
  ∃ w, s.gpu.wg? u.wg = some w ∧ off + size ≤ w.scratchLen ∧ w.scratchLen ≤ 2 ^ 24

/-- No byte of the access belongs to a transaction barrier (R129). -/
def NoBarrier (s : State) (u : TRef) (off size : Nat) : Prop :=
  ∀ w ∈ s.gpu.wgs, w.id = u.wg → ∀ i, i < size → w.tbars.contains ((off + i) / 16) = false

/-- A byte of the scratchpad of a thread's workgroup. -/
def State.scratchAt (s : State) (u : TRef) (o : Nat) : Byte := ((s.gpu.wg? u.wg).map fun w => w.scratch.byte o).getD 0

/-- Bytes written to the scratchpad of a workgroup. -/
def Gpu.putScratch (g : Gpu) (wg off : Nat) (bs : List Byte) : Gpu :=
  g.modWg wg fun w => { w with scratch := w.scratch.setBytes off bs }

/-- The device after a thread has looked up the translation of an address (R395, R396). -/
def Gpu.looked (g : Gpu) (u : TRef) (acc : Access) (va : Nat) : Gpu :=
  match g.ctx? (g.env u).ctx with
  | some c => (g.translate (g.env u).core c acc va).1
  | none => g

/-- The locations of `size` bytes from an address in a leaf's page. -/
def Leaf.span (l : Leaf) (va size : Nat) : List Phys := (List.range size).map fun i => l.phys (va + i)

/-- One access of a thread lies in memory, within the page of one leaf that permits it, and not at a peer; nothing holds it back: no
earlier remote read or fence of the thread (R114, R209), no line without a way in L2 (R406). -/
def Lies (s : State) (u : TRef) (acc : Access) (va size : Nat) (l : Leaf) : Prop :=
  (s.gpu.wg? u.wg).isSome = true ∧ 0 < size ∧ va + size ≤ 0xFF0000000000 ∧ va % 2 ^ l.log + size ≤ 2 ^ l.log ∧
  (∀ c e, l.base.sp ≠ .peer c e) ∧
  (s.gpu.looked u acc va).holds u (s.gpu.env u).core acc (l.span va size) = none ∧
  ∃ c, s.gpu.ctx? (s.gpu.env u).ctx = some c ∧ (s.gpu.translate (s.gpu.env u).core c acc va).2 = .ok l

/-- As `Lies`, whatever may hold the access back. -/
def Fits (s : State) (u : TRef) (acc : Access) (va size : Nat) (l : Leaf) : Prop :=
  (s.gpu.wg? u.wg).isSome = true ∧ 0 < size ∧ va + size ≤ 0xFF0000000000 ∧ va % 2 ^ l.log + size ≤ 2 ^ l.log ∧
  (∀ c e, l.base.sp ≠ .peer c e) ∧
  ∃ c, s.gpu.ctx? (s.gpu.env u).ctx = some c ∧ (s.gpu.translate (s.gpu.env u).core c acc va).2 = .ok l

/-- A word that releases finds ways in L2 for what it releases (R406), and at system scope every store of the thread to a peer
acknowledged, once they have left its FIFO (R117, R421); `d` is what the word has done before. -/
def Acked (s : State) (u : TRef) (on : Bool) (sc : Scope) (d : Gpu → Gpu) : Prop :=
  on = true → (s.onGpu d).gpu.releaseWait (s.gpu.env u).core u sc = none ∧
    (sc = .sys → ((s.onGpu d).gpu.release (s.gpu.env u).core u sc).owesAck u = false)

/-- None of the lines is poisoned (R107). -/
def Clean (s : State) (ps : List Phys) : Prop := ∀ p ∈ ps, s.gpu.poisoned p.line = false

/-- The registers' words of a load, from its bytes (R203). -/
def loaded (ty : Ty) (size : Nat) (b : Nat → Byte) : List Word :=
  match ty with
  | .s8 => [(b 0).signExtend 32]
  | .n8 => [(b 0).setWidth 32]
  | .s16 => [(b 1 ++ b 0).signExtend 32]
  | .n16 => [(b 1 ++ b 0).setWidth 32]
  | _ => (List.range (size / 4)).map fun j => b (4 * j + 3) ++ b (4 * j + 2) ++ b (4 * j + 1) ++ b (4 * j)

/-- Byte i that a store of registers from `d` sends (R203). -/
def Thread.sent (th : Thread) (d : Reg) (i : Nat) : Byte := ((th.reg (d + BitVec.ofNat 8 (i / 4))) >>> (8 * (i % 4))).setWidth 8

/-- A number's bytes, lowest first. -/
def bytesAt (v : DWord) (n : Nat) : List Byte := (List.range n).map fun i => (v >>> (8 * i)).setWidth 8

/-- The number that bytes hold, lowest first, in 64 bits. -/
def leWord (bs : List Byte) : DWord := BitVec.ofNat 64 ((bs.zipIdx.map fun x => x.1.toNat * 256 ^ x.2).sum)

/-- One access of a thread that a word checks at issue: in the scratchpad, or in memory under one leaf that the core's TLB
holds; `ps` are the pages that it captures (R397). -/
def Held (s : State) (u : TRef) (acc : Access) (al : Nat) (x : DWord × Nat) (ps : List (Nat × Leaf)) : Prop :=
  (∃ off, InScratch s u x.1 off x.2 al ∧ ps = []) ∨
  ∃ va l c, x.1 = BitVec.ofNat 64 va ∧ va % al = 0 ∧ Lies s u acc va x.2 l ∧ s.gpu.ctx? (s.gpu.env u).ctx = some c ∧
    tlbHit (s.gpu.core (s.gpu.env u).core).tlb c.asid va = some l ∧ ps = [(va / 2 ^ l.log * 2 ^ l.log, l)]

/-- A list of accesses, and the pages that they capture in order. -/
def AllHeld (s : State) (u : TRef) (acc : Access) (al : Nat) (xs : List (DWord × Nat)) (ps : List (Nat × Leaf)) : Prop :=
  ∃ ls, List.Forall₂ (Held s u acc al) xs ls ∧ ps = ls.flatten

/-- One access of a thread, wherever its translation comes from: the pages that it captures, and what the look-up does. -/
def Placed (s : State) (u : TRef) (acc : Access) (al : Nat) (a : DWord) (size : Nat) (ps : List (Nat × Leaf)) (d : Gpu → Gpu) : Prop :=
  (∃ off, InScratch s u a off size al ∧ ps = [] ∧ d = id) ∨
  ∃ va l, a = BitVec.ofNat 64 va ∧ va % al = 0 ∧ Lies s u acc va size l ∧ ps = [(va / 2 ^ l.log * 2 ^ l.log, l)] ∧
    d = fun g => g.looked u acc va

/-! ### The array -/

/-- The operation that a team's array instruction starts: issued by its elected lane, counted by its active lanes (R232). -/
def arrayStarted (s : State) (p : Pfx) (counts : Bool) (kind : ArrOp) (pages : List (Nat × Leaf)) : Op :=
  let u := ((s.on p).head?.map (·.1)).getD ⟨0, 0⟩
  { opStarted s u .arr (.arr kind) pages with owners := (s.on p).map (·.1), cls := if counts then some .arr else none }

/-- A team's array instruction is issued: its operation takes its place in the array's order (R234), each active lane counts it
and owes the registers that it will write. -/
def ArrayStarts (s : State) (p : Pfx) (out : Out) (core : Nat) (pair counts : Bool) (kind : ArrOp) (pages : List (Nat × Leaf))
    (regs : List Reg) (d : Gpu → Gpu) : Prop :=
  let push := fun (c : CoreSt) => { c with arrq := c.arrq ++ [s.gpu.nextId] }
  let owe : Pending := { id := s.gpu.nextId, regs := regs, vals := none, flags := 0, token := false, xch := false,
                         pc := s.gpu.cur.pc, word := s.gpu.cur.word }
  let count : Outst := { cls := .arr, id := s.gpu.nextId, done := false }
  Result s out
    (after s p fun _ th =>
      if counts then { th with outst := th.outst ++ [count], pend := if regs = [] then th.pend else th.pend ++ [owe] } else th)
    fun g =>
      let g := d g
      let g := ({ g with ops := g.ops ++ [arrayStarted s p counts kind pages] }).modCore core push
      if pair then g.modCore (core / 2 * 2 + 1) push else g

/-- Nothing in the array's order holds the instruction back (R234, R237): no operation of the pair's other core, none that may yet
abandon an element that is read; and none of those elements is an abandoned encoding. -/
def ArrayFree (s : State) (w : Wg) (core : Nat) (reads : List (Nat × Nat × Nat)) : Prop :=
  (∀ x ∈ s.gpu.arrOps core, x.1.core = core ∧
    (x.1.owner.wg = w.id → x.2.mayAbandon = true → ∀ t ∈ x.2.tiles, ∀ e ∈ reads, e.1 ≠ t)) ∧
  ∀ e ∈ reads, isAbandoned (w.elem e.1 e.2.1 e.2.2) = false

/-- A format word that R236 calls valid: codes of one width class of Table 5.5, a metric, zeros in bits 15..10, scales above −128. -/
def ValidFormat (v : Word) : Prop :=
  let n := v.toNat
  let width := fun (c : Nat) =>
    if c = 4 then 32 else if c = 5 ∨ c = 6 then 16 else if c = 7 ∨ c = 8 ∨ c = 10 ∨ c = 11 then 8 else if c = 9 ∨ c = 12 ∨ c = 13 then 4 else 0
  width (n % 16) ≠ 0 ∧ width (n % 16) = width (n / 16 % 16) ∧ n / 256 % 4 ≠ 3 ∧ n / 1024 % 64 = 0 ∧ n / 65536 % 256 ≠ 128 ∧
  n / 16777216 ≠ 128

/-- The launch declares the demand class and the team holds a grant of it that has not expired (R261). -/
def Granted (s : State) (w : Wg) (team demand : Nat) : Prop :=
  (∃ l, s.gpu.launch? w.launch = some l ∧ demand ≤ l.desc.power) ∧
  ∃ x g, w.teams[team]? = some x ∧ x.grant = some g ∧ demand ≤ g.cls ∧ s.clk.cyc < g.till

/-- The team's word issues, its workgroup is resident on the core, some lane is active, and no counter of the class is full. -/
def ArrayIssuing (s : State) (wg team : Nat) (p : Pfx) (used : List Reg) (w : Wg) (core : Nat) : Prop :=
  TeamIssuing s wg team p used false ∧ s.gpu.wg? wg = some w ∧ w.place = .core core ∧ s.on p ≠ [] ∧ ∀ x ∈ s.on p, x.2.count .arr < 63

/-- The elements of a tile. -/
def wholeTile (t : Nat) : List (Nat × Nat × Nat) := (List.range 256).map fun e => (t, e / 16, e % 16)

/-- No thread holds a reservation, so none is lost when stores are performed (R122). -/
def Unreserved (s : State) : Prop := ∀ v x, s.gpu.thread? v = some x → x.resv = none

/-! ### Events -/

/-- The device as a step reads it: with the clocks latched. -/
def State.dev (s : State) : Gpu := { s.gpu with now := s.clk.cyc, ptp := s.clk.ptp }

/-- A completion entry as it is queued, with the PTP time (R413, R414, R418). -/
def complAt (s : State) (hseq : Word) (status detail kind ctx tier : Nat) (value : DWord) : Compl :=
  { hseq := hseq, status := status, detail := detail, kind := kind, ctx := ctx, tier := tier, value := value, time := s.clk.ptp }

/-- A partition queues this entry next, behind those that it had queued. -/
def Posts (s t : State) (part : Nat) (e : Compl) : Prop :=
  ∃ p q, s.gpu.part? part = some p ∧ t.gpu.part? part = some q ∧ (p.outbox ++ [e]) <+: q.outbox

/-- A command is answered (R414). -/
def Answers (s t : State) (part : Nat) (c : Cmd) (status detail tier : Nat) (value : DWord) : Prop :=
  Posts s t part (complAt s (BitVec.ofNat 32 c.hseq) status detail 0 c.ctx tier value)

/-- A command's finish is queued (R414). -/
def Finishes (s t : State) (part hseq status detail ctx : Nat) (value : DWord) : Prop :=
  ∃ q, t.gpu.part? part = some q ∧ complAt s (BitVec.ofNat 32 hseq) status detail 1 ctx 0 value ∈ q.outbox

/-- An event entry is queued in every partition (R418). -/
def AllTold (s t : State) (detail : Nat) (value : DWord) : Prop :=
  ∀ p ∈ s.gpu.parts, ∃ q, t.gpu.part? p.id = some q ∧ complAt s 0 0 detail 2 0 0 value ∈ q.outbox

/-- A command of a partition that is to be answered next, of a context of that partition. -/
def OnTurn (s : State) (part hseq cmd : Nat) (c : Cmd) (x : Ctx) : Prop :=
  s.gpu.command part hseq cmd = some c ∧ s.gpu.cmdCtx part c = some x

/-! ### What every step keeps -/

/-- The clock counts its fraction below 1 ns and slews by at most 1 ms, unless a larger negative offset holds it (R424, R425);
SERVO has one of its four values (Table 17.1); three dies are measured (R437); recovery mode has no booted slot and no active
table (R432), and what has booted is no older than MINSVN (R432); a stored table has burned the owner key's hash (R436). -/
def State.TimeAndSecurity (s : State) : Prop :=
  s.clk.frac < 8000 ∧ s.clk.servo ≤ 3 ∧ (s.clk.hold = true → s.clk.corr < 0) ∧
  (s.clk.hold = false → s.clk.corr.natAbs ≤ 8000 * 1000000) ∧
  s.sec.temps.length = 3 ∧ (s.sec.booted = 2 ↔ s.sec.recov = true) ∧ s.sec.booted ≤ 2 ∧ (s.sec.recov = true → s.sec.active = none) ∧
  s.sec.svn ≤ s.sec.minsvn ∧ (s.sec.table.isSome = true → s.sec.okh.isSome = true)

end Sys2Proof.Machine
end

