-- ==== Sys2Proof/Certificates/Slice0/Obligations.lean ====
section
/-! DEFINITION. The statements of this model, for the provers. -/

open Sys2Proof Sys2Proof.Machine

/-! ### Integer, predicate, address and bit instructions -/

/-- 06 R172, R173: the arithmetic entries of Table 6.2 act per element, on exact values, clamped under `.sat` and taken modulo 2^w;
`imulh` writes the high half of the exact product; `iaddc` and `isubb` carry through a predicate that they read and write, and p7 adds
or subtracts 1 and takes no carry out. Nothing else changes.
That a packed form takes all 32 bits of a literal as its register is the model's choice (log 107). -/
def Obligations.IntegerArithmetic : Prop :=
  (
    ∀ (s : State) (p : Pfx) (ty : Ty) (sat : Bool) (d a : Reg) (b : SrcB) (c : Reg),
      let two := fun (f : Int → Int → Int) (k : Bool) (_ : TRef) (th : Thread) =>
        th.setReg d (packed ty fun j => narrow ty k (f (elemInt ty (th.reg a) j) (elemInt ty (th.srcW b) j)))
      let one := fun (f : Int → Int) (_ : TRef) (th : Thread) =>
        th.setReg d (packed ty fun j => narrow ty sat (f (elemInt ty (th.reg a) j)))
      (Issuing s p (d :: a :: b.span false) →
        (ty.isPackInt = true →
          Effect s p (exec (.iadd p ty sat d a b) s) (two (· + ·) sat) ∧
          Effect s p (exec (.isub p ty sat d a b) s) (two (· - ·) sat) ∧
          Effect s p (exec (.imin p ty d a b) s) (two min false) ∧
          Effect s p (exec (.imax p ty d a b) s) (two max false)) ∧
        (ty.isInt32 = true →
          Effect s p (exec (.imul p ty sat d a b) s) (two (· * ·) sat) ∧
          Effect s p (exec (.imulh p ty d a b) s) (two (fun x y => x * y / 2 ^ 32) false))) ∧
      (Issuing s p [d, a] → ty.isSigned = true →
        Effect s p (exec (.iabs p ty sat d a) s) (one fun x => |x|) ∧
        Effect s p (exec (.ineg p ty sat d a) s) (one fun x => -x)) ∧
      (Issuing s p (d :: a :: c :: b.span false) → ty.isInt32 = true →
        Effect s p (exec (.imad p ty sat d a b c) s) fun _ th =>
          th.setReg d (packed ty fun j =>
            narrow ty sat (elemInt ty (th.reg a) j * elemInt ty (th.srcW b) j + elemInt ty (th.reg c) j)))) ∧
  ∀ (s : State) (p : Pfx) (d a : Reg) (b : SrcB) (pc : PredNo), Issuing s p (d :: a :: b.span false) →
    (Effect s p (exec (.iaddc p d a b pc) s) fun _ th =>
      let x : Nat := (th.reg a).toNat + (th.srcW b).toNat + (if pc = 7 ∨ th.pred pc then 1 else 0)
      let r := th.setReg d (BitVec.ofNat 32 (x % 2 ^ 32))
      if pc = 7 then r else r.setPred pc (decide (2 ^ 32 ≤ x))) ∧
    (Effect s p (exec (.isubb p d a b pc) s) fun _ th =>
      let x : Int := (th.reg a).toNat - (th.srcW b).toNat - (if pc = 7 ∨ th.pred pc then 1 else 0)
      let r := th.setReg d (BitVec.ofInt 32 x)
      if pc = 7 then r else r.setPred pc (decide (x < 0)))

/-- 06 Table 6.2, R174, R175 and Table 6.1: selects, moves and integer compares write their one destination; predicates are
written bit by bit and p7 keeps reading true. -/
def Obligations.MovesComparesAndPredicates : Prop :=
  ∀ (s : State) (p : Pfx) (w : Bool) (d a : Reg) (b : SrcB) (pc pd pa pb : PredNo) (v : MoviImm) (op : LOp) (na nb : Bool)
    (mask : BitVec 7) (cc : CC) (ty : Ty),
    (Issuing s p (d.span w ++ a.span w ++ b.span w) →
      Effect s p (exec (.sel p w d a b pc) s) fun _ th =>
        if w then th.setPair d (if pc = 7 ∨ th.pred pc then th.pair a else th.srcD b)
        else th.setReg d (if pc = 7 ∨ th.pred pc then th.reg a else th.srcW b)) ∧
    (Issuing s p (d.span w ++ a.span w) →
      Effect s p (exec (.mov p w d a) s) fun _ th => if w then th.setPair d (th.pair a) else th.setReg d (th.reg a)) ∧
    (Issuing s p (d.span w) →
      Effect s p (exec (.movi p w d v) s) fun _ th =>
        match v with
        | .short k => if w then th.setPair d (k.signExtend 64) else th.setReg d (k.signExtend 32)
        | .lit l => if w then th.setPair d l else th.setReg d (l.setWidth 32)) ∧
    (Issuing s p (a :: b.span false) → ty.isInt32 = true → cc.isInt = true →
      Effect s p (exec (.icmp p cc ty pd a b) s) fun _ th =>
        let x := elemInt ty (th.reg a) 0
        let y := elemInt ty (th.srcW b) 0
        th.setPred pd (match cc with
          | .eq => decide (x = y)
          | .ne => decide (x ≠ y)
          | .lt => decide (x < y)
          | .le => decide (x ≤ y)
          | .gt => decide (x > y)
          | _ => decide (x ≥ y))) ∧
    (Issuing s p [] →
      Effect s p (exec (.pset p op na nb pd pa pb) s) fun _ th =>
        let x := xor (th.pred pa) na
        let y := xor (th.pred pb) nb
        th.setPred pd (match op with | .and => x && y | .or => x || y | .xor => xor x y)) ∧
    (Issuing s p [d] →
      Effect s p (exec (.pmov p d) s) fun _ th =>
        th.setReg d (wordOfBits fun i => i == 7 || (decide (i < 7) && th.pred (BitVec.ofNat 3 i)))) ∧
    (Issuing s p [a] →
      Effect s p (exec (.pmovSet p a mask) s) fun _ th =>
        { th with preds := BitVec.ofFnLE fun i : Fin 7 => if mask.getLsbD i then bit (th.reg a) i else th.preds.getLsbD i }) ∧
    ∀ (th : Thread) (x : Bool) (q : PredNo),
      (th.setPred pd x).pred q = if pd ≠ 7 ∧ q = pd then x else th.pred q

/-- 06 R176: address instructions work on pairs, modulo 2^64; `lcmp` compares signed or unsigned. -/
def Obligations.AddressInstructions : Prop :=
  ∀ (s : State) (p : Pfx) (ty : Ty) (d a : Reg) (b : SrcB) (sh : BitVec 3) (cc : CC) (sgn : Bool) (pd : PredNo),
    (Issuing s p (d.span true ++ a.span true ++ b.span false) → ty.isInt32 = true →
      Effect s p (exec (.lea p ty d a b sh) s) fun _ th =>
        th.setPair d (BitVec.ofInt 64 ((th.pair a).toNat + elemInt ty (th.srcW b) 0 * 2 ^ sh.toNat))) ∧
    (Issuing s p (d.span true ++ a.span true ++ b.span true) →
      (Effect s p (exec (.ladd p d a b) s) fun _ th => th.setPair d (BitVec.ofNat 64 ((th.pair a).toNat + (th.srcD b).toNat))) ∧
      Effect s p (exec (.lsub p d a b) s) fun _ th => th.setPair d (BitVec.ofInt 64 ((th.pair a).toNat - (th.srcD b).toNat))) ∧
    (Issuing s p (a.span true ++ b.span true) → cc.isInt = true →
      Effect s p (exec (.lcmp p cc sgn pd a b) s) fun _ th =>
        let x : Int := if sgn then (th.pair a).toInt else (th.pair a).toNat
        let y : Int := if sgn then (th.srcD b).toInt else (th.srcD b).toNat
        th.setPred pd (match cc with
          | .eq => decide (x = y)
          | .ne => decide (x ≠ y)
          | .lt => decide (x < y)
          | .le => decide (x ≤ y)
          | .gt => decide (x > y)
          | _ => decide (x ≥ y)))

/-- 06 R177: bitwise operations, shifts and counts, bit by bit. -/
def Obligations.BitInstructions : Prop :=
  ∀ (s : State) (p : Pfx) (w : Bool) (d a : Reg) (b : SrcB),
    (Issuing s p (d.span w ++ a.span w ++ b.span w) →
      let put := fun (f : Bool → Bool → Bool) (_ : TRef) (th : Thread) =>
        if w then th.setPair d (BitVec.ofFnLE fun i : Fin 64 => f ((th.pair a).getLsbD i) ((th.srcD b).getLsbD i))
        else th.setReg d (wordOfBits fun i => f (bit (th.reg a) i) (bit (th.srcW b) i))
      Effect s p (exec (.bAnd p w d a b) s) (put (· && ·)) ∧
      Effect s p (exec (.bOr p w d a b) s) (put (· || ·)) ∧
      Effect s p (exec (.bXor p w d a b) s) (put xor)) ∧
    (Issuing s p (d.span w ++ a.span w) →
      Effect s p (exec (.bNot p w d a) s) fun _ th =>
        if w then th.setPair d (BitVec.ofFnLE fun i : Fin 64 => !(th.pair a).getLsbD i)
        else th.setReg d (wordOfBits fun i => !bit (th.reg a) i)) ∧
    (Issuing s p (d :: a :: b.span false) →
      let put := fun (f : Word → Nat → Word) (_ : TRef) (th : Thread) => th.setReg d (f (th.reg a) ((th.srcW b).toNat % 256))
      Effect s p (exec (.shl p d a b) s) (put fun x n => if 32 ≤ n then 0 else BitVec.ofNat 32 (x.toNat * 2 ^ n)) ∧
      Effect s p (exec (.shr p d a b) s) (put fun x n => if 32 ≤ n then 0 else BitVec.ofNat 32 (x.toNat / 2 ^ n)) ∧
      Effect s p (exec (.sar p d a b) s) (put fun x n => BitVec.ofInt 32 (x.toInt / 2 ^ (min n 31))) ∧
      Effect s p (exec (.rotl p d a b) s) (put fun x n => wordOfBits fun i => bit x ((i + 32 - n % 32) % 32))) ∧
    (Issuing s p [d, a] →
      let put := fun (f : Word → Word) (_ : TRef) (th : Thread) => th.setReg d (f (th.reg a))
      Effect s p (exec (.popc p d a) s) (put fun x => BitVec.ofNat 32 ((List.range 32).countP (bit x))) ∧
      Effect s p (exec (.clz p d a) s) (put fun x => BitVec.ofNat 32 ((List.range 32).takeWhile fun i => !bit x (31 - i)).length) ∧
      Effect s p (exec (.brev p d a) s) (put fun x => wordOfBits fun i => bit x (31 - i)))

/-- 06 R178: `bfx` and `bfi` take a field from b, with n = min(LEN, 32 − POS). -/
def Obligations.FieldExtractAndInsert : Prop :=
  ∀ (s : State) (p : Pfx) (ty : Ty) (d a : Reg) (b : SrcB) (c : Reg),
    let field := fun (th : Thread) =>
      let pos := (th.srcW b).toNat % 32
      (pos, min ((th.srcW b).toNat / 2 ^ 8 % 64) (32 - pos))
    (Issuing s p (d :: a :: b.span false) → ty.isInt32 = true →
      Effect s p (exec (.bfx p ty d a b) s) fun _ th =>
        let (pos, n) := field th
        th.setReg d (wordOfBits fun i =>
          if n = 0 then false else if i < n then bit (th.reg a) (pos + i) else ty == .s32 && bit (th.reg a) (pos + n - 1))) ∧
    (Issuing s p (d :: a :: c :: b.span false) →
      Effect s p (exec (.bfi p d a b c) s) fun _ th =>
        let (pos, n) := field th
        th.setReg d (wordOfBits fun i => if pos ≤ i ∧ i < pos + n then bit (th.reg a) (i - pos) else bit (th.reg c) i))

/-! ### Floating point, intervals and conversion -/

/-- 06 R179 to R184, 03 R75, R77: an F32 or packed 16-bit instruction whose flags raise no enabled trap writes its result, sets
its sticky flags, and changes nothing else.
That a packed form takes all 32 bits of a literal as its register is the model's choice (log 107). -/
def Obligations.FloatingPointResultsAndFlags : Prop :=
  ∀ (s : State) (p : Pfx) (rm : RM) (ty : Ty) (cc : CC) (pd : PredNo) (d a : Reg) (b : SrcB) (c : Reg),
    let ok := fun (i : Instr) (ops : Thread → List Word) (v : Env → Thread → Word × BitVec 5) =>
      FpReady s p ops (fun e th => (v e th).2) → Effect s p (exec i s) fun u th => th.putFp d (v (s.gpu.env u) th)
    let ab := fun (th : Thread) => [th.reg a, th.srcW b]
    let abc := fun (th : Thread) => [th.reg a, th.srcW b, th.reg c]
    (Issuing s p (d :: a :: b.span false) →
      ok (.fadd p rm d a b) ab (fun e th => arith32 rm e.ftz (addX rm (fv (th.reg a)) (fv (th.srcW b)))) ∧
      ok (.fsub p rm d a b) ab (fun e th => arith32 rm e.ftz (addX rm (fv (th.reg a)) (fv (th.srcW b)).negate)) ∧
      ok (.fmul p rm d a b) ab (fun e th => arith32 rm e.ftz (mulX (fv (th.reg a)) (fv (th.srcW b)))) ∧
      ok (.fmin p d a b) ab (fun _ th => minmaxW false (th.reg a) (th.srcW b)) ∧
      ok (.fmax p d a b) ab (fun _ th => minmaxW true (th.reg a) (th.srcW b)) ∧
      ok (.fscl p d a b) (fun th => [th.reg a]) (fun e th => fsclX (th.reg a) (th.srcW b).toInt e.ftz) ∧
      ok (.hadd2 p ty rm d a b) (fun _ => []) (fun e th => hadd2V ty rm e.ftz (th.reg a) (th.srcW b)) ∧
      ok (.hmul2 p ty rm d a b) (fun _ => []) (fun e th => hmul2V ty rm e.ftz (th.reg a) (th.srcW b))) ∧
    (Issuing s p [d, a] →
      ok (.fclass p d a) (fun th => [th.reg a]) (fun _ th => (classBit (th.reg a), 0)) ∧
      ok (.frnd p rm d a) (fun th => [th.reg a]) (fun _ th => frndX rm (th.reg a)) ∧
      ok (.ffrac p d a) (fun th => [th.reg a]) (fun e th => ffracX (th.reg a) e.ftz)) ∧
    (Issuing s p (d :: a :: c :: b.span false) →
      ok (.ffma p rm d a b c) abc (fun e th => arith32 rm e.ftz (fmaX rm (fv (th.reg a)) (fv (th.srcW b)) (fv (th.reg c)))) ∧
      ok (.fsel p cc d a b c) abc (fun _ th =>
        (if ccF cc (fv (th.reg c)) (.fin false 0) then th.reg a else th.srcW b, if (fv (th.reg c)).isSig then flNV else 0)) ∧
      ok (.hfma2 p rm d a b c) (fun _ => []) (fun e th => packed16 .f16 rm e.ftz (fma2X rm) [th.reg a, th.srcW b, th.reg c]) ∧
      ok (.efma2 p rm d a b c) (fun _ => []) (fun e th => packed16 .e16 rm e.ftz (fma2X rm) [th.reg a, th.srcW b, th.reg c])) ∧
    (Issuing s p (a :: b.span false) →
      FpReady s p ab (fun _ th => sigFlag [fv (th.reg a), fv (th.srcW b)]) →
      Effect s p (exec (.fcmp p cc pd a b) s) fun _ th =>
        (th.setPred pd (ccF cc (fv (th.reg a)) (fv (th.srcW b)))).raise (sigFlag [fv (th.reg a), fv (th.srcW b)]))

/-- 03 R67, R68, R76, 06 R179, R184: sums, products and fused products of finite words are the exact real rounded once; of other words the
IEEE 754 special value, with NV for a signalling NaN, for ∞ − ∞ and for 0 × ∞; the packed 16-bit forms do so per element, with both
elements' flags.
That the sum of two zeros of one sign keeps it under every rounding mode is the model's choice (log 106). -/
def Obligations.FloatingPointValues : Prop :=
  ∀ (rm : RM) (a b c : Word),
    let x := fv a
    let y := fv b
    let z := fv c
    let nan := fun (f : BitVec 5) => ((0x7FC00000 : Word), f)
    let inf := fun (n : Bool) => ((if n then 0xFF800000 else 0x7F800000 : Word), (0 : BitVec 5))
    let round := fun (q : Rat) (zero : Bool) =>
      let r := roundX .f32 rm false (.val q zero)
      (BitVec.ofNat 32 r.1, r.2)
    (x.isNan ∨ y.isNan → faddV rm false a b = nan (sigFlag [x, y]) ∧ fmulV rm false a b = nan (sigFlag [x, y])) ∧
    (x.isFin → y.isFin →
      faddV rm false a b = round (x.rat + y.rat) (if x.rat = 0 ∧ y.rat = 0 ∧ x.neg = y.neg then x.neg else rm == .rd) ∧
      fmulV rm false a b = round (x.rat * y.rat) (x.neg != y.neg) ∧
      (z.isFin → (x.rat * y.rat ≠ 0 ∨ z.rat ≠ 0) →
        ffmaV rm false a b c = round (x.rat * y.rat + z.rat) (rm == .rd))) ∧
    (x = .inf true → y = .inf false → faddV rm false a b = nan flNV) ∧
    (∀ n, x = .inf n → y.isFin → faddV rm false a b = inf n ∧ faddV rm false b a = inf n) ∧
    (∀ n, x = .inf n → y.isZero → fmulV rm false a b = nan flNV ∧ ffmaV rm false a b c = nan flNV) ∧
    (∀ n, x = .inf n → !y.isNan → !y.isZero → fmulV rm false a b = inf (n != y.neg)) ∧
    fsubV rm false a b = faddV rm false a (b ^^^ 0x80000000) ∧
    ∀ ty : Ty, ty = .f16 ∨ ty = .e16 →
      let el := fun (w : Word) (i : Nat) => valueOf ty (w.toNat / 2 ^ (16 * i) % 2 ^ 16)
      let both := fun (r : Nat → Nat × BitVec 5) => (BitVec.ofNat 32 ((r 0).1 + 2 ^ 16 * (r 1).1), (r 0).2 ||| (r 1).2)
      let one := fun (q : Rat) (zero : Bool) => roundX ty rm false (.val q zero)
      (∀ i, i < 2 → ((el a i).isNan ∨ (el b i).isNan) →
        let nan := if ty = .f16 then 0x7E00 else 0x7FC0
        (hadd2V ty rm false a b).1.toNat / 2 ^ (16 * i) % 2 ^ 16 = nan ∧ (hmul2V ty rm false a b).1.toNat / 2 ^ (16 * i) % 2 ^ 16 = nan) ∧
      ((∀ i, i < 2 → (el a i).isFin ∧ (el b i).isFin) →
        hadd2V ty rm false a b = both (fun i => one ((el a i).rat + (el b i).rat)
          (if (el a i).rat = 0 ∧ (el b i).rat = 0 ∧ (el a i).neg = (el b i).neg then (el a i).neg else rm == .rd)) ∧
        hmul2V ty rm false a b = both (fun i => one ((el a i).rat * (el b i).rat) ((el a i).neg != (el b i).neg)) ∧
        ((∀ i, i < 2 → (el c i).isFin ∧ ((el a i).rat * (el b i).rat ≠ 0 ∨ (el c i).rat ≠ 0)) →
          packed16 ty rm false (fma2X rm) [a, b, c] = both fun i => one ((el a i).rat * (el b i).rat + (el c i).rat) (rm == .rd)))

/-- 03 R68 to R73, 06 R180 to R182, R187: a value of a format rounds to itself; a rounded one lies on the side, or nearest, as its mode
says, and beyond the format's range it is R69's; `frnd`, `ffrac` and `fscl` give the integral value, the exact fraction and the scaled
value; conversions round to the integer or the format, clamped with NV beyond an integer's range, and the residue of `cvef` is exact unless
the narrowing saturates; `fmin` and `fmax` take a NaN as an identity, −0 as less than +0, set NV for a signalling operand alone, and are
commutative.
That two zeros of one sign keep it in the sum of `cvef` is the model's choice (log 106). -/
def Obligations.RoundingAndMinMax : Prop :=
  let near := fun (rm : RM) (q : Rat) (k : Int) =>
    match rm with
    | .rn => |(k : Rat) - q| ≤ 1 / 2 ∧ (|(k : Rat) - q| = 1 / 2 → k % 2 = 0)
    | .rz => |(k : Rat)| ≤ |q| ∧ |q| < |(k : Rat)| + 1 ∧ 0 ≤ k * q
    | .rd => (k : Rat) ≤ q ∧ q < k + 1
    | .ru => q ≤ (k : Rat) ∧ (k : Rat) - 1 < q
  (
    (∀ (ty : Ty) (rm : RM) (sat : Bool) (c : Nat), ty.isFloat = true → c < 2 ^ widthOf ty → (valueOf ty c).isFin = true →
      roundX ty rm sat (.val (valueOf ty c).rat (valueOf ty c).neg) = (c, 0)) ∧
    (∀ (ty : Ty) (q : Rat), ty.isFloat = true → |q| ≤ (fmtOf ty).mag (fmtOf ty).max →
      let got := fun (m : RM) => valueOf ty (roundX ty m false (.val q false)).1
      (∀ m, (got m).isFin = true) ∧ (got .rd).rat ≤ q ∧ q ≤ (got .ru).rat ∧ |(got .rz).rat| ≤ |q| ∧
      ∀ (c : Nat), c < 2 ^ widthOf ty → (valueOf ty c).isFin = true →
        let w := (valueOf ty c).rat
        (w ≤ q → w ≤ (got .rd).rat) ∧ (q ≤ w → (got .ru).rat ≤ w) ∧ (|w| ≤ |q| → |w| ≤ |(got .rz).rat|) ∧ |(got .rn).rat - q| ≤ |w - q|) ∧
    ∀ (ty : Ty) (rm : RM) (sat z : Bool) (q : Rat), ty.isFloat = true → (sat = true → ty = .f8b) →
      let top := (fmtOf ty).mag (fmtOf ty).max
      2 * top < |q| →
      let r := roundX ty rm sat (.val q z)
      r.2 = flOF ||| flNX ∧
      valueOf ty r.1 =
        if ty = .f8a ∨ ty = .f4 ∨ sat = true ∨ rm = .rz ∨ (rm = .rd ∧ 0 < q) ∨ (rm = .ru ∧ q < 0) then .fin (decide (q < 0)) top
        else .inf (decide (q < 0))) ∧
  (∀ (rm : RM) (a : Word),
    let x := fv a
    let nan := ((0x7FC00000 : Word), sigFlag [x])
    (x.isNan → frndX rm a = nan ∧ ffracX a false = nan) ∧
    (∀ n, x = .inf n → frndX rm a = (a, 0) ∧ ffracX a false = (0x7FC00000, flNV)) ∧
    (x.isFin →
      (∃ k : Int, near rm (ratW a) k ∧ (fv (frndX rm a).1).isFin ∧ ratW (frndX rm a).1 = k ∧ (fv (frndX rm a).1).neg = x.neg ∧
        (frndX rm a).2 = 0) ∧
      ∃ k : Int, near .rz (ratW a) k ∧ (fv (ffracX a false).1).isFin ∧ ratW (ffracX a false).1 = ratW a - k ∧
        (fv (ffracX a false).1).neg = x.neg ∧ (ffracX a false).2 = 0)) ∧
  (∀ (a : Word) (e : Int),
    let x := fv a
    let q := ratW a * (2 : Rat) ^ e
    (e < -127 ∨ 127 < e → fsclX a e false = (0x7FC00000, flNV)) ∧
    (-127 ≤ e → e ≤ 127 →
      (x.isNan → fsclX a e false = (0x7FC00000, sigFlag [x])) ∧
      ((∃ n, x = .inf n) ∨ x.isZero → fsclX a e false = (a, 0)) ∧
      (x.isFin → !x.isZero → fsclX a e false =
        if ratW 0x7F7FFFFF < |q| then (if x.neg then 0xFF7FFFFF else 0x7F7FFFFF, flOF ||| flNX)
        else (roundW .rn q, (roundX .f32 .rn false (.val q false)).2)))) ∧
  (∀ (dt st : Ty) (rm : RM) (sat : Bool) (c : Nat), c < 2 ^ widthOf st →
    let r := cvtX dt st rm sat false c
    let v := valueOf st c
    (st.isFloat = true → dt.isFloat = false →
      (v.isNan → r = (0, flNV)) ∧
      (∀ n, v = .inf n → intOf dt r.1 = (if n then intMin dt else intMax dt) ∧ r.2 = flNV) ∧
      (v.isFin → ∃ k : Int, near rm v.rat k ∧ intOf dt r.1 = min (max k (intMin dt)) (intMax dt) ∧
        r.2 = if k < intMin dt ∨ intMax dt < k then flNV else if (k : Rat) = v.rat then 0 else flNX)) ∧
    (st.isFloat = false → dt.isFloat = true → r = roundX dt rm sat (.val (intOf st c : Rat) false)) ∧
    (st.isFloat = false → dt.isFloat = false → r = (narrow dt sat (intOf st c), 0)) ∧
    (st.isFloat = true → dt.isFloat = true → (sat = true → dt = .f8b) →
      (v.isFin → r = roundX dt rm sat (.val v.rat v.neg)) ∧
      (v.isNan → r = if dt = .f4 then (0, flNV) else (nanCode dt, sigFlag [v])) ∧
      (∀ n, v = .inf n → (valueOf dt r.1, r.2) =
        if dt = .f8a ∨ dt = .f4 then (.fin n ((fmtOf dt).mag (fmtOf dt).max), flNV)
        else if sat then (.fin n ((fmtOf dt).mag (fmtOf dt).max), flOF ||| flNX)
        else (.inf n, 0)))) ∧
  (∀ (ty : Ty) (v c : Word), ty.isFloat = true → (fv v).isFin → (fv c).isFin →
    let t := roundX .f32 .rn false (.val (ratW v + ratW c) (decide (v = 0x80000000 ∧ c = 0x80000000)))
    let tv := valueOf .f32 t.1
    let y := roundX ty .rn false (.val tv.rat tv.neg)
    let yv := valueOf ty y.1
    tv.isFin →
      cvefX ty v c = (y.1, if yv.isFin then roundW .rn (tv.rat - yv.rat) else 0, t.2 ||| y.2) ∧
      (|tv.rat| ≤ (fmtOf ty).mag (fmtOf ty).max → ratW (cvefX ty v c).2.1 = tv.rat - yv.rat)) ∧
  ∀ (mx : Bool) (a b : Word),
    let x := fv a
    let y := fv b
    (minmaxW mx a b).2 = (if x.isSig ∨ y.isSig then flNV else 0) ∧
    (x.isNan → y.isNan → (minmaxW mx a b).1 = 0x7FC00000) ∧
    (x.isNan → !y.isNan → (minmaxW mx a b).1 = b ∧ (minmaxW mx b a).1 = b) ∧
    (!x.isNan → !y.isNan →
      ((minmaxW mx a b).1 = a ∨ (minmaxW mx a b).1 = b) ∧
      (minmaxW mx a b).1 = (minmaxW mx b a).1 ∧
      (x.lt y = true → (minmaxW mx a b).1 = if mx then b else a)) ∧
    minmaxW false 0x80000000 0 = (0x80000000, 0) ∧ minmaxW true 0x80000000 0 = (0, 0)

/-- 06 R183, 05 R147, 03 R77: a special function makes its rounded result pending, with its flags; nothing else changes until it
returns.
That the rational which `sfuX` rounds stands for the exact value is the model's reading (log 20); StepIsExactSumRoundedOnce says what the
result is. -/
def Obligations.SpecialFunctionsReturnLater : Prop :=
  ∀ (s : State) (p : Pfx) (rm : RM) (d a : Reg), Issuing s p [d, a] →
    FpReady s p (fun th => [th.reg a]) (fun _ _ => 0) →
    let ok := fun (i : Instr) (m : RM) (f : Sfu) =>
      Effect s p (exec i s) fun u th =>
        let r := arith32 m (s.gpu.env u).ftz (sfuX f (fv (th.reg a)))
        { th with pend := th.pend ++
            [{ id := s.gpu.nextId, regs := [d], vals := some [r.1], flags := r.2, token := false, xch := false,
               pc := s.gpu.cur.pc, word := s.gpu.cur.word }] }
    ok (.frcp p rm d a) rm .rcp ∧ ok (.fsqrt p rm d a) rm .sqrt ∧ ok (.frsq p d a) .rn .rsq ∧ ok (.fexp2 p d a) .rn .exp2 ∧
    ok (.flog2 p d a) .rn .log2 ∧ ok (.fsin p d a) .rn .sin ∧ ok (.fcos p d a) .rn .cos

/-- 03 R77, R87: a fixed-latency floating-point, conversion, dot or interval instruction that would set an enabled flag takes the precise trap
in user mode, names the flags and writes nothing; one that reads an abandoned encoding takes the verdict-consume trap first, and so do the
special functions, whose flags come later.
That a literal operand is checked too is the model's reading (log 38), and its 32 bits as a packed register are its choice (log 107). -/
def Obligations.FloatingPointTrapsArePrecise : Prop :=
  ∀ (s : State) (u : TRef) (th : Thread) (p : Pfx) (rm : RM) (cc : CC) (ty dt st : Ty) (sat : Bool) (pd : PredNo) (d a c : Reg) (b : SrcB),
    th.mode = .user →
    let ftz := (s.gpu.env u).ftz
    let x := th.reg a
    let y := th.srcW b
    let z := th.reg c
    let ab := d :: a :: b.span false
    let abc := d :: a :: c :: b.span false
    let words := fun (w : DWord) => [w.setWidth 32, (w >>> 32).setWidth 32]
    let go := fun (i : Instr) (used : List Reg) (ops : List Word) (fl : BitVec 5) => Solo s u th p used →
      ((∃ w ∈ ops, isAbandoned w = true) → Traps s u th ⟨.verdict, 0, 0, false⟩ (exec i s) id) ∧
      ((∀ w ∈ ops, isAbandoned w = false) → fl &&& (s.gpu.env u).te ≠ 0 → Traps s u th ⟨.fpe, fl.setWidth 16, 0, false⟩ (exec i s) id)
    (go (.fadd p rm d a b) ab [x, y] (faddV rm ftz x y).2 ∧ go (.fsub p rm d a b) ab [x, y] (fsubV rm ftz x y).2 ∧
      go (.fmul p rm d a b) ab [x, y] (fmulV rm ftz x y).2 ∧ go (.ffma p rm d a b c) abc [x, y, z] (ffmaV rm ftz x y z).2 ∧
      go (.fmin p d a b) ab [x, y] (sigFlag [fv x, fv y]) ∧ go (.fmax p d a b) ab [x, y] (sigFlag [fv x, fv y]) ∧
      go (.fcmp p cc pd a b) (a :: b.span false) [x, y] (sigFlag [fv x, fv y]) ∧ go (.fsel p cc d a b c) abc [x, y, z] (sigFlag [fv z]) ∧
      go (.fclass p d a) [d, a] [x] 0 ∧ go (.frnd p rm d a) [d, a] [x] (frndX rm x).2 ∧ go (.ffrac p d a) [d, a] [x] (ffracX x ftz).2 ∧
      go (.fscl p d a b) ab [x] (fsclX x y.toInt ftz).2) ∧
    (go (.hadd2 p ty rm d a b) ab [] (hadd2V ty rm ftz x y).2 ∧ go (.hmul2 p ty rm d a b) ab [] (hmul2V ty rm ftz x y).2 ∧
      go (.hfma2 p rm d a b c) abc [] (packed16 .f16 rm ftz (fma2X rm) [x, y, z]).2 ∧
      go (.efma2 p rm d a b c) abc [] (packed16 .e16 rm ftz (fma2X rm) [x, y, z]).2) ∧
    (go (.cvt p dt st rm sat d a) [d, a] (if st = .f32 then [x] else []) (cvtX dt st rm sat ftz (x.toNat % 2 ^ widthOf st)).2 ∧
      go (.cvef p dt d a c) [d, a, c] [x, z] (cvefX dt x z).2.2 ∧
      let es := fun (w : Word) => (List.range (32 / widthOf ty)).map fun j => elemOf ty (w.toNat / 2 ^ (widthOf ty * j) % 2 ^ widthOf ty)
      let fl := (step79 0 0 ftz z ((es x).zip (es y))).2
      go (.dot2 p ty d a b c) abc [z] fl ∧ go (.dot4 p ty d a b c) abc [z] fl ∧ go (.dot8 p ty d a b c) abc [z] fl) ∧
    (
      let two := fun (i : Instr) => go i (d.span true ++ a.span true ++ b.span true) (words (th.pair a) ++ words (th.srcD b)) 0
      let one := fun (i : Instr) => go i (d.span true ++ a.span true) (words (th.pair a))
      two (.ivadd p d a b) ∧ two (.ivsub p d a b) ∧ two (.ivmul p d a b) ∧ two (.ivmin p d a b) ∧ two (.ivmax p d a b) ∧
      two (.ivhull p d a b) ∧ one (.ivsqr p d a) 0 ∧ one (.ivabs p d a) 0 ∧
      one (.ivsqrt p d a) (if (ivOf (th.pair a)).isSome ∧ (ivSqrt (ivOf (th.pair a))).isNone then flNV else 0) ∧
      go (.ivsplit p d c a) (d.span true ++ c.span true ++ a.span true) (words (th.pair a)) 0) ∧
    go (.frcp p rm d a) [d, a] [x] 0 ∧ go (.fsqrt p rm d a) [d, a] [x] 0 ∧ go (.frsq p d a) [d, a] [x] 0 ∧
    go (.fexp2 p d a) [d, a] [x] 0 ∧ go (.flog2 p d a) [d, a] [x] 0 ∧ go (.fsin p d a) [d, a] [x] 0 ∧ go (.fcos p d a) [d, a] [x] 0

/-- 06 R185, R186, 03 R81 to R83: interval instructions write the pair of the exact image's outward-rounded bounds; only `ivsqrt` can
set a flag. -/
def Obligations.IntervalInstructions : Prop :=
  ∀ (s : State) (p : Pfx) (d c a : Reg) (b : SrcB),
    let words := fun (w : DWord) => [w.setWidth 32, (w >>> 32).setWidth 32]
    let put := fun (th : Thread) (r : Reg) (x : Word × Word) => th.setPair r (x.2 ++ x.1)
    (Issuing s p (d.span true ++ a.span true ++ b.span true) →
      FpReady s p (fun th => words (th.pair a) ++ words (th.srcD b)) (fun _ _ => 0) →
      let two := fun (f : Iv → Iv → Iv) (_ : TRef) (th : Thread) => put th d (ivWrite (f (ivOf (th.pair a)) (ivOf (th.srcD b))))
      Effect s p (exec (.ivadd p d a b) s) (two ivAdd) ∧ Effect s p (exec (.ivsub p d a b) s) (two ivSub) ∧
      Effect s p (exec (.ivmul p d a b) s) (two ivMul) ∧ Effect s p (exec (.ivmin p d a b) s) (two ivMin) ∧
      Effect s p (exec (.ivmax p d a b) s) (two ivMax) ∧ Effect s p (exec (.ivhull p d a b) s) (two ivHull)) ∧
    (Issuing s p (d.span true ++ a.span true) →
      let one := fun (f : Iv → Iv) (_ : TRef) (th : Thread) => put th d (ivWrite (f (ivOf (th.pair a))))
      let nv := fun (th : Thread) => if (ivOf (th.pair a)).isSome ∧ (ivSqrt (ivOf (th.pair a))).isNone then flNV else 0
      (FpReady s p (fun th => words (th.pair a)) (fun _ _ => 0) →
        Effect s p (exec (.ivsqr p d a) s) (one ivSqr) ∧ Effect s p (exec (.ivabs p d a) s) (one ivAbs)) ∧
      (FpReady s p (fun th => words (th.pair a)) (fun _ th => nv th) →
        Effect s p (exec (.ivsqrt p d a) s) fun u th => (one ivSqrt u th).raise (nv th))) ∧
    (Issuing s p (d.span true ++ c.span true ++ a.span true) →
      FpReady s p (fun th => words (th.pair a)) (fun _ _ => 0) →
      Effect s p (exec (.ivsplit p d c a) s) fun _ th =>
        let h := ivSplitX (ivOf (th.pair a))
        put (put th d h.1) c h.2)

/-- 03 R81, R82: how a pair of words reads as an interval; and every interval instruction encloses: the result of points of the operands is
a point of the result; `ivsqrt` encloses the square root of a point at or above 0, and `ivhull` the points of both operands. -/
def Obligations.IntervalsReadAndEnclose : Prop :=
  (
    (∀ (lo hi : Word), (fv lo).isNan ∨ (fv hi).isNan → ivRead lo hi = some (.ninf, .pinf)) ∧
    (∀ (lo hi : Word), !(fv lo).isNan → !(fv hi).isNan → ((fv hi).lt (fv lo) ∨ fv lo = .inf false ∨ fv hi = .inf true) → ivRead lo hi = none) ∧
    (∀ (lo hi : Word) (x : Rat), (fv lo).isFin → (fv hi).isFin → ratW lo ≤ ratW hi →
      (inPair x (lo, hi) ↔ ratW lo ≤ x ∧ x ≤ ratW hi)) ∧
    (∀ (hi : Word) (x : Rat), (fv hi).isFin → (inPair x (0xFF800000, hi) ↔ x ≤ ratW hi)) ∧
    (∀ (lo : Word) (x : Rat), (fv lo).isFin → (inPair x (lo, 0x7F800000) ↔ ratW lo ≤ x)) ∧
    (∀ (x : Rat), inPair x (0xFF800000, 0x7F800000)) ∧
    ivWrite none = (0x7F800000, 0xFF800000)) ∧
  ∀ (a b : Word × Word) (x y : Rat), inPair x a → inPair y b →
    inPair (x + y) (ivWrite (ivAdd (ivRead a.1 a.2) (ivRead b.1 b.2))) ∧
    inPair (x - y) (ivWrite (ivSub (ivRead a.1 a.2) (ivRead b.1 b.2))) ∧
    inPair (x * y) (ivWrite (ivMul (ivRead a.1 a.2) (ivRead b.1 b.2))) ∧
    inPair (min x y) (ivWrite (ivMin (ivRead a.1 a.2) (ivRead b.1 b.2))) ∧
    inPair (max x y) (ivWrite (ivMax (ivRead a.1 a.2) (ivRead b.1 b.2))) ∧
    (∀ c : Word × Word, inPair x (ivWrite (ivHull (ivRead a.1 a.2) (ivRead c.1 c.2))) ∧
      inPair x (ivWrite (ivHull (ivRead c.1 c.2) (ivRead a.1 a.2)))) ∧
    (0 ≤ x →
      let r := ivWrite (ivSqrt (ivRead a.1 a.2))
      !(fv r.1).isNan ∧ !(fv r.2).isNan ∧ fv r.1 ≠ .inf false ∧ fv r.2 ≠ .inf true ∧
      ((fv r.1).isFin → ((ratW r.1 : Rat) : ℝ) ≤ Real.sqrt x) ∧ ((fv r.2).isFin → Real.sqrt x ≤ ((ratW r.2 : Rat) : ℝ))) ∧
    inPair (x * x) (ivWrite (ivSqr (ivRead a.1 a.2))) ∧
    inPair |x| (ivWrite (ivAbs (ivRead a.1 a.2))) ∧
    (inPair x (ivSplitX (ivRead a.1 a.2)).1 ∨ inPair x (ivSplitX (ivRead a.1 a.2)).2)

/-- 06 R187 to R190: conversions, packed moves, the byte permute and the dot steps; nothing but the destinations and the flags
changes.
That a dot step takes all 32 bits of a literal as its register is the model's choice (log 107). -/
def Obligations.ConversionsAndPackedResults : Prop :=
  ∀ (s : State) (p : Pfx) (ty dt st : Ty) (rm : RM) (sat : Bool) (idx : BitVec 3) (d a : Reg) (b : SrcB) (c : Reg),
    (Issuing s p [d, a] →
      let v := fun (e : Env) (th : Thread) => cvtX dt st rm sat e.ftz ((th.reg a).toNat % 2 ^ widthOf st)
      (FpReady s p (fun th => if st = .f32 then [th.reg a] else []) (fun e th => (v e th).2) →
        Effect s p (exec (.cvt p dt st rm sat d a) s) fun u th =>
          th.putFp d (BitVec.ofNat 32 (v (s.gpu.env u) th).1, (v (s.gpu.env u) th).2)) ∧
      (packOk ty idx = true →
        let w := widthOf ty
        let k := idx.toNat
        (Effect s p (exec (.pack p ty idx d a) s) fun _ th =>
          th.setReg d (wordOfBits fun i => if w * k ≤ i ∧ i < w * k + w then bit (th.reg a) (i - w * k) else bit (th.reg d) i)) ∧
        Effect s p (exec (.unpack p ty idx d a) s) fun _ th =>
          th.setReg d (wordOfBits fun i =>
            if i < w then bit (th.reg a) (w * k + i)
            else (ty == .s16 || ty == .s8 || ty == .s4) && bit (th.reg a) (w * k + w - 1)))) ∧
    (Issuing s p [d, a, c] →
      FpReady s p (fun th => [th.reg a, th.reg c]) (fun _ th => (cvefX dt (th.reg a) (th.reg c)).2.2) →
      Effect s p (exec (.cvef p dt d a c) s) fun _ th =>
        let r := cvefX dt (th.reg a) (th.reg c)
        ((th.setReg d (BitVec.ofNat 32 r.1)).setReg c r.2.1).raise r.2.2) ∧
    (Issuing s p (d :: a :: c :: b.span false) →
      (Effect s p (exec (.prm p d a b c) s) fun _ th =>
        let src := fun (n : Nat) (i : Nat) => if n < 4 then bit (th.reg a) (8 * n + i) else bit (th.srcW b) (8 * (n - 4) + i)
        th.setReg d (wordOfBits fun i =>
          let n := (th.reg c).toNat / 16 ^ (i / 8) % 16
          if n < 8 then src n (i % 8) else src (n - 8) 7)) ∧
      let dot := fun (i : Instr) =>
        let v := fun (e : Env) (th : Thread) =>
          let es := fun (w : Word) => (List.range (32 / widthOf ty)).map fun j => elemOf ty (w.toNat / 2 ^ (widthOf ty * j) % 2 ^ widthOf ty)
          step79 0 0 e.ftz (th.reg c) ((es (th.reg a)).zip (es (th.srcW b)))
        FpReady s p (fun th => [th.reg c]) (fun e th => (v e th).2) → Effect s p (exec i s) fun u th => th.putFp d (v (s.gpu.env u) th)
      dot (.dot2 p ty d a b c) ∧ dot (.dot4 p ty d a b c) ∧ dot (.dot8 p ty d a b c))

/-- 03 R76, R78, R79, 06 R183, R190, Table 6.7: a PROD step over finite words and elements is the exact sum rounded once under RN; a product
with a zero factor adds nothing, whatever the other factor is; so is a special function its exact value rounded once: `frcp`
of 1 ÷ a; `fsqrt` and `frsq` the nearest value, or that on the side of the mode, and inexact exactly when it differs; the others within half
a unit of the last place of the exact value, and exact where that is a power of two or its exponent; and the special operands.
That the rational which stands for an exact value rounds as it does is the model's reading (log 20). -/
def Obligations.StepIsExactSumRoundedOnce : Prop :=
  (∀ (acc : Word) (ts : List (FV × FV)), (fv acc).isFin →
    (∀ x ∈ ts, x.1.isZero ∨ x.2.isZero ∨ (x.1.isFin ∧ x.2.isFin)) →
    (step79 0 0 false acc ts).1 =
      roundW .rn (ratW acc + (ts.map fun x => if x.1.isZero ∨ x.2.isZero then 0 else x.1.rat * x.2.rat).sum)) ∧
  ∀ (a : Word),
    let v := fv a
    let x := ratW a
    let r := fun (f : Sfu) (m : RM) => arith32 m false (sfuX f v)
    let nan := fun (f : BitVec 5) => ((0x7FC00000 : Word), f)
    let real := fun (w : Word) => ((ratW w : Rat) : ℝ)
    let within := fun (w : Word) (y : ℝ) => (fv w).isFin ∧ |real w - y| ≤ |y| * (2 : ℝ) ^ (-24 : Int) + (2 : ℝ) ^ (-149 : Int)
    (v.isNan → ∀ f m, r f m = nan (sigFlag [v])) ∧
    (∀ n, v = .inf n →
      (∀ m, r .rcp m = (if n then 0x80000000 else 0, 0) ∧ r .sqrt m = if n then nan flNV else (a, 0)) ∧
      (r .rsq .rn = if n then nan flNV else (0, 0)) ∧ r .exp2 .rn = (if n then 0 else a, 0) ∧ (r .log2 .rn = if n then nan flNV else (a, 0)) ∧
      r .sin .rn = nan flNV ∧ r .cos .rn = nan flNV) ∧
    (∀ n, v = .fin n 0 →
      let inf := ((if n then 0xFF800000 else 0x7F800000 : Word), flDZ)
      (∀ m, r .rcp m = inf ∧ r .sqrt m = (a, 0)) ∧ r .rsq .rn = inf ∧ r .exp2 .rn = (0x3F800000, 0) ∧ r .log2 .rn = (0xFF800000, flDZ) ∧
      r .sin .rn = (a, 0) ∧ r .cos .rn = (0x3F800000, 0)) ∧
    (v.isFin → x < 0 → (∀ m, r .sqrt m = nan flNV) ∧ r .rsq .rn = nan flNV ∧ r .log2 .rn = nan flNV) ∧
    (v.isFin → x ≠ 0 →
      (∀ m, r .rcp m = (roundW m (1 / x), (roundX .f32 m false (.val (1 / x) false)).2)) ∧
      within (r .sin .rn).1 (Real.sin (real a)) ∧ within (r .cos .rn).1 (Real.cos (real a)) ∧
      (x < 128 → within (r .exp2 .rn).1 ((2 : ℝ) ^ real a)) ∧ (128 ≤ x → r .exp2 .rn = (0x7F800000, flOF ||| flNX)) ∧
      ∀ k : Int, x = k → -149 ≤ k → k ≤ 127 → ratW (r .exp2 .rn).1 = (2 : Rat) ^ k ∧ (r .exp2 .rn).2 = 0) ∧
    (v.isFin → 0 < x →
      let y := Real.sqrt (real a)
      let finite := fun (w : Word) => (fv w).isFin = true
      (∀ m,
        let q := (r .sqrt m).1
        finite q ∧ (r .sqrt m).2 = (if ratW q * ratW q = x then 0 else flNX) ∧
        ∀ w, finite w → match m with
          | .rn => |real q - y| ≤ |real w - y|
          | .ru => y ≤ real q ∧ (y ≤ real w → real q ≤ real w)
          | _ => real q ≤ y ∧ (real w ≤ y → real w ≤ real q)) ∧
      (
        let q := (r .rsq .rn).1
        finite q ∧ (r .rsq .rn).2 = (if ratW q * ratW q * x = 1 then 0 else flNX) ∧ ∀ w, finite w → |real q - 1 / y| ≤ |real w - 1 / y|) ∧
      within (r .log2 .rn).1 (Real.logb 2 (real a)) ∧
      ∀ k : Int, x = (2 : Rat) ^ k → ratW (r .log2 .rn).1 = k ∧ (r .log2 .rn).2 = 0)

/-! ### Lane and team instructions -/

/-- 06 R191, R193, R194: `rdfl` over the bundle, `bcast` and `vote` over a team, in every member whose guards hold. -/
def Obligations.LaneReadsAndVotes : Prop :=
  ∀ (s : State) (wg team : Nat) (p : Pfx) (w : Bool) (d a : Reg) (lane : BitVec 5),
    (Issuing s p (d.span w ++ a.span w) →
      Effect s p (exec (.rdfl p w d a) s) fun _ th =>
        match (s.on p).head? with
        | some x => if w then th.setPair d (x.2.pair a) else th.setReg d (x.2.reg a)
        | none => th) ∧
    (TeamIssuing s wg team p (d.span w ++ a.span w) true →
      Effect s p (exec (.bcast p w d a lane) s) fun _ th => th.setWide w d (s.laneValue w a lane.toNat)) ∧
    (TeamIssuing s wg team p [] false →
      (Effect s p (exec (.vote p .all d a) s) fun _ th =>
        th.setPred (d.setWidth 3) ((s.on p).all fun x => x.2.pred (a.setWidth 3))) ∧
      (Effect s p (exec (.vote p .any d a) s) fun _ th =>
        th.setPred (d.setWidth 3) ((s.on p).any fun x => x.2.pred (a.setWidth 3)))) ∧
    (TeamIssuing s wg team p [a] false →
      Effect s p (exec (.vote p .uni d a) s) fun _ th =>
        th.setPred (d.setWidth 3) ((s.on p).all fun x => (s.on p).all fun y => x.2.reg a == y.2.reg a)) ∧
    (TeamIssuing s wg team p [d] false →
      Effect s p (exec (.vote p .ballot d a) s) fun _ th =>
        th.setReg d (s.laneMask p fun x => x.pred (a.setWidth 3)))

/-- 06 R193, R195, R197, R198, R167: team exchanges make each active lane's result pending, counted in XCH: the source lane's value, the fold
over the lanes whose guards hold (or over those at or below the lane), the mask of equal lanes, the bin count, or the lane's place in the
merge.
Results stay pending until the event that returns them (log 1). -/
def Obligations.TeamExchanges : Prop :=
  ∀ (s : State) (wg team : Nat) (p : Pfx) (w : Bool) (mode : ShflMode) (op : FoldOp) (ty : Ty) (excl desc : Bool) (runlog : BitVec 3)
    (sh : BitVec 5) (d a c : Reg) (b : SrcB),
    (∀ x ∈ s.on p, x.2.count .xch < 63) →
    let val := fun (l : Nat) (th : Thread) =>
      let n := (th.srcW b).toNat
      match mode with
      | .idx => s.laneValue w a (n % 32)
      | .up => if n > l then th.wideReg w a else s.laneValue w a (l - n)
      | .down => if l + n > 31 then th.wideReg w a else s.laneValue w a (l + n)
      | .xor => s.laneValue w a (l ^^^ (n % 32))
    (TeamIssuing s wg team p (d.span w ++ a.span w ++ b.span false) true →
      Effect s p (exec (.shfl p mode w d a b) s) fun u th => th.owed s (d.span w) (wordsOfWide w (val u.lane th)) 0 true) ∧
    (TeamIssuing s wg team p [d, a] false → (ty = .f32 → ∀ x ∈ s.on p, isAbandoned (x.2.reg a) = false) →
      (Effect s p (exec (.redu p op ty d a) s) fun u th =>
        let r := foldV op ty (s.gpu.env u).ftz ((s.on p).map fun x => x.2.reg a)
        th.owed s [d] [r.1] r.2 true) ∧
      Effect s p (exec (.scan p op excl ty d a) s) fun u th =>
        let r := foldV op ty (s.gpu.env u).ftz
          (((s.on p).filter fun x => x.1.lane < u.lane || (!excl && x.1.lane == u.lane)).map fun x => x.2.reg a)
        th.owed s [d] [r.1] r.2 true) ∧
    (TeamIssuing s wg team p (d :: a.span w) false →
      Effect s p (exec (.matchL p w d a) s) fun _ th =>
        th.owed s [d] [s.laneMask p fun x => x.wideReg w a == th.wideReg w a] 0 true) ∧
    (TeamIssuing s wg team p [d, a] false →
      Effect s p (exec (.hist p d a sh) s) fun u th =>
        th.owed s [d] [th.reg d + BitVec.ofNat 32 ((s.on p).countP fun x => (x.2.reg a).toNat / 2 ^ sh.toNat == u.lane)] 0 true) ∧
    (TeamIssuing s wg team p [d, a, c] false → (ty = .f32 → ∀ x ∈ s.on p, isAbandoned (x.2.reg a) = false) →
      Effect s p (exec (.hmerge p ty runlog desc d a c) s) fun u th =>
        let q := fun (l : Nat) => l / (2 * 2 ^ runlog.toNat)
        let blk := (s.on p).filter fun x => q x.1.lane == q u.lane
        let half := fun (x : TRef × Thread) => x.1.lane / 2 ^ runlog.toNat % 2 == 0
        let kv := fun (x : TRef × Thread) => (x.2.reg a, x.2.reg c)
        let z := mergeRuns ty desc 64 ((blk.filter half).map kv) ((blk.filter fun x => !half x).map kv)
        let r := z.getD (blk.countP fun x => x.1.lane < u.lane) (0, 0)
        th.owed s [d, c] [r.1, r.2] 0 true)

/-- 06 R79, R196, R198, Table 6.12: folds of lists of words, whatever their order for sums of F32; a merge keeps every key with its payload,
and of two sorted runs it makes a sorted one. -/
def Obligations.FoldsAndMerges : Prop :=
  (
    ∀ (ws : List Word), ws ≠ [] →
      (∀ ty, ty.isInt32 = true →
        foldV .add ty false ws = (BitVec.ofInt 32 (ws.map fun w => elemInt ty w 0).sum, 0) ∧
        ((foldV .min ty false ws).1 ∈ ws ∧ ∀ w ∈ ws, elemInt ty (foldV .min ty false ws).1 0 ≤ elemInt ty w 0) ∧
        ((foldV .max ty false ws).1 ∈ ws ∧ ∀ w ∈ ws, elemInt ty w 0 ≤ elemInt ty (foldV .max ty false ws).1 0) ∧
        foldV .min ty false [] = (if ty = .s32 then 0x7FFFFFFF else 0xFFFFFFFF, 0) ∧
        foldV .max ty false [] = (if ty = .s32 then 0x80000000 else 0, 0) ∧ foldV .add ty false [] = (0, 0)) ∧
      (∀ i, i < 32 →
        (bit (foldV .and .b32 false ws).1 i = true ↔ ∀ w ∈ ws, bit w i = true) ∧
        (bit (foldV .or .b32 false ws).1 i = true ↔ ∃ w ∈ ws, bit w i = true) ∧
        (bit (foldV .xor .b32 false ws).1 i = true ↔ (ws.countP fun w => bit w i) % 2 = 1)) ∧
      (∀ vs : List Word, vs.Perm ws → foldV .add .f32 false vs = foldV .add .f32 false ws) ∧
      ((∀ w ∈ ws, (fv w).isFin) → (∃ w ∈ ws, w ≠ 0x80000000) →
        (foldV .add .f32 false ws).1 = roundW .rn ((ws.map ratW).sum)) ∧
      ((∃ w ∈ ws, (fv w).isNan) → (foldV .add .f32 false ws).1 = 0x7FC00000)) ∧
  ∀ (ty : Ty) (desc : Bool) (n : Nat) (xs ys : List (Word × Word)), xs.length + ys.length ≤ n → (ty = .f32 ∨ ty.isInt32) →
    (mergeRuns ty desc n xs ys).Perm (xs ++ ys) ∧
    let before := fun (x y : Word × Word) => keyBefore ty desc y.1 x.1 = false
    (xs.Pairwise before → ys.Pairwise before → (mergeRuns ty desc n xs ys).Pairwise before)

/-! ### Control -/

/-- 07 R224 to R226: branches, calls and returns set the PC of the members whose guards hold; calls write the link pair PC + 8 after the
target is read; nothing else changes; a target that is no multiple of 8 takes the alignment fault, and targets that differ in one bundle
the divergent-target trap. -/
def Obligations.BranchesCallsAndReturns : Prop :=
  (∀ (s : State) (u : TRef) (th : Thread) (p : Pfx) (d a : Reg), th.mode = .user → (th.pair a).toNat % 8 ≠ 0 →
    let misaligned := fun (i : Instr) => Traps s u th (.at .alignment (th.pair a)) (exec i s) id
    (Solo s u th p (a.run 2) → misaligned (.brx p a) ∧ misaligned (.ret p a)) ∧
    (Solo s u th p (d.run 2 ++ a.run 2) → misaligned (.callx p d a))) ∧
  (∀ (s : State) (p : Pfx) (d a : Reg) (v w : TRef) (x y : Thread),
    (∀ m ∈ s.members, ∃ z, s.gpu.thread? m = some z ∧ z.mode = .user ∧ z.guards p = true ∧ (z.pair a).toNat % 8 = 0) →
    v ∈ s.members → w ∈ s.members → s.gpu.thread? v = some x → s.gpu.thread? w = some y → x.pair a ≠ y.pair a →
    let diverges := fun (i : Instr) => AllTrap s (.of .divergent) (exec i s) id
    (Issuing s p (a.run 2) → diverges (.brx p a)) ∧ (Issuing s p (d.run 2 ++ a.run 2) → diverges (.callx p d a))) ∧
  ∀ (s : State) (p : Pfx) (off : BitVec 24) (d a : Reg) (target : DWord), s.gpu.cur.pc.toNat % 8 = 0 →
    (Issuing s p [] →
      Effect s p (exec (.bra p off) s) fun _ th => { th with pc := s.gpu.cur.pc + BitVec.ofInt 64 (8 * off.toInt) }) ∧
    (Issuing s p (d.run 2) →
      Effect s p (exec (.call p d off) s) fun _ th =>
        { th.setPair d (s.gpu.cur.pc + 8) with pc := s.gpu.cur.pc + BitVec.ofInt 64 (8 * off.toInt) }) ∧
    (Issuing s p (a.run 2) → (∀ x ∈ s.on p, x.2.pair a = target) → target.toNat % 8 = 0 →
      Effect s p (exec (.brx p a) s) fun _ th => { th with pc := target }) ∧
    (Issuing s p (d.run 2 ++ a.run 2) → (∀ x ∈ s.on p, x.2.pair a = target) → target.toNat % 8 = 0 →
      Effect s p (exec (.callx p d a) s) fun _ th => { th.setPair d (s.gpu.cur.pc + 8) with pc := target }) ∧
    (Issuing s p (a.run 2) → (∀ x ∈ s.on p, (x.2.pair a).toNat % 8 = 0) →
      Effect s p (exec (.ret p a) s) fun _ th => { th with pc := th.pair a })

/-- 07 R228, R231, 02 R28, R37: `nop` changes nothing; `prb` sets or clears PMODE; `exit` stops the thread at its own word; `yield` moves its
bundle whole to the tail of the pending order, its thread READY at the next word.
That `yield` does so in trap mode too is the model's reading (log 25). -/
def Obligations.NopProbeYieldAndExit : Prop :=
  (
    ∀ (s : State) (p : Pfx), Issuing s p [] →
      (Effect s p (exec (.nop p) s) fun _ th => th) ∧
      (Effect s p (exec (.prbOn p) s) fun _ th => { th with pmode := true }) ∧
      (Effect s p (exec (.prbOff p) s) fun _ th => { th with pmode := false }) ∧
      (Effect s p (exec (.exit p) s) fun _ th => { th with pc := s.gpu.cur.pc }) ∧
      ∃ t, exec (.exit p) s = .next t ∧
        ∀ u ∈ s.members, ∀ th, s.gpu.thread? u = some th → th.guards p = true →
          ∃ th', t.gpu.thread? u = some th' ∧ th'.status = .exiting) ∧
  ∀ (s : State) (u : TRef) (th : Thread) (p : Pfx) (b : Bundle), Solo s u th p [] → p.sw = false →
    (s.gpu.core s.gpu.cur.core).active.filter (fun x => x.members.contains u) = [b] → b.members = [u] → b.mode = th.mode →
    ∃ t q, exec (.yield p) s = .next t ∧
      t.gpu.thread? u = some { th with pc := th.pc + BitVec.ofNat 64 s.gpu.cur.len, status := .ready } ∧
      (∀ v, v ≠ u → t.gpu.thread? v = s.gpu.thread? v) ∧
      (t.gpu.core s.gpu.cur.core).pending = (s.gpu.core s.gpu.cur.core).pending ++ [q] ∧
      q.members = [u] ∧ q.launch = b.launch ∧ q.mode = th.mode ∧ q.pc = th.pc + BitVec.ofNat 64 s.gpu.cur.len ∧ q.timer = 0 ∧
      ∀ x ∈ (t.gpu.core s.gpu.cur.core).active, u ∉ x.members

/-- 07 R231, 14 R350, R351, R358: `trap`, `brk` and `sysc` take their traps, INFO the code, in user mode. -/
def Obligations.SoftwareTraps : Prop :=
  ∀ (s : State) (u : TRef) (th : Thread) (p : Pfx) (code : BitVec 9), Solo s u th p [] → th.mode = .user →
    Traps s u th ⟨.software, code.setWidth 16, 0, false⟩ (exec (.trap p code) s) id ∧
    Traps s u th ⟨.breakpoint, code.setWidth 16, 0, false⟩ (exec (.brk p code) s) id ∧
    Traps s u th ⟨.syscall, code.setWidth 16, 0, false⟩ (exec (.sysc p code) s) id

/-- 02 R41, 07 R229: `rjset` writes a team's mask and clears its arrivals, and traps while a thread waits on it; `rjoin` outside the mask does
nothing, and inside it the lane arrives and waits while the mask is not complete.
That a waiting thread parks with its PC advanced is the model's reading (log 24). -/
def Obligations.RejoinMasks : Prop :=
  ∀ (s : State) (u : TRef) (th : Thread) (p : Pfx) (k : BitVec 3) (b : SrcB) (w : Wg), s.gpu.wg? u.wg = some w →
    (Solo s u th p (b.span false) → (∀ v x, s.gpu.thread? v = some x → x.status ≠ .parked (.rejoin k.toNat)) →
      Does s (exec (.rjset p k b) s) th fun g => g.modWg u.wg fun w => w.setMask u.team k.toNat ⟨th.srcW b, 0⟩) ∧
    (∀ v x, Solo s u th p (b.span false) → th.mode = .user → s.gpu.thread? v = some x → v.wg = u.wg → v.team = u.team →
      x.status = .parked (.rejoin k.toNat) → Traps s u th (.of .rejoinBusy) (exec (.rjset p k b) s) id) ∧
    (Solo s u th p [] → k.toNat < ((w.teams[u.team]?.map Team.masks).getD []).length →
      let m := w.mask u.team k.toNat
      (m.mask.getLsbD u.lane = false → m.arrived = 0 → Does s (exec (.rjoin p k) s) th id) ∧
      (m.mask.getLsbD u.lane = true →
        (∃ v y, s.gpu.thread? v = some y ∧ v.wg = u.wg ∧ v.team = u.team ∧ y.status ≠ .exited ∧ y.status ≠ .stopped ∧ v.lane ≠ u.lane ∧
          m.mask.getLsbD v.lane = true ∧ m.arrived.getLsbD v.lane = false) →
        Parks s u p.sw (exec (.rjoin p k) s) th (.rejoin k.toNat) fun g =>
          g.modWg u.wg fun w => w.setMask u.team k.toNat ⟨m.mask, m.arrived ||| ((1 : Word) <<< u.lane)⟩))

/-! ### Barriers -/

/-- 02 R43 to R46, 07 R223: a workgroup barrier's initialisation, arrival and wait, and the gang barrier's arrival: the counts, the
phase, the park, the phase that an arrival completes, one at a barrier whose E is zero among them; the arriving thread's stores leave its
FIFO first; an initialisation with a count out of range, or of a barrier in use, traps.
That an arrival does not issue while a remote read or a fence holds the thread back is the model's choice (log 97); that a waiting thread parks
with its PC advanced, and what an arrival at a barrier whose E is zero completes, are its readings (log 24). -/
def Obligations.BarrierArrivalsAndWaits : Prop :=
  ∀ (s : State) (u : TRef) (th : Thread) (p : Pfx) (k : BitVec 4) (b : SrcB) (w : Wg) (x : Bar),
    s.gpu.wg? u.wg = some w → w.bars[k.toNat]? = some x → Unreserved s →
    let put := fun (y : Bar) (g : Gpu) => g.modWg u.wg fun w => { w with bars := w.bars.set k.toNat y }
    let drained := fun (g : Gpu) => g.drain (s.gpu.env u).core u
    let one : BitVec 1024 := 1 <<< u.tid
    let came : Bar := { x with a := x.a + 1, arr := x.arr ||| one, parts := x.parts ||| one,
                               last := (u.tid, x.phase) :: x.last.filter fun l => l.1 != u.tid }
    (Solo s u th p (b.span false) → 0 < (th.srcW b).toNat → (th.srcW b).toNat ≤ w.size → x.a = 0 →
      (∀ v y, s.gpu.thread? v = some y → v.wg = u.wg → y.status ≠ .parked (.barrier k.toNat)) →
      Does s (exec (.barinit p k b) s) th (put { e := (th.srcW b).toNat, a := 0, phase := false, arr := 0, parts := 0, last := [] })) ∧
    (Solo s u th p (b.span false) → th.mode = .user →
      ((th.srcW b).toNat = 0 ∨ w.size < (th.srcW b).toNat → Traps s u th (.of .barCount) (exec (.barinit p k b) s) id) ∧
      (0 < (th.srcW b).toNat → (th.srcW b).toNat ≤ w.size →
        x.a ≠ 0 ∨ (∃ v y, s.gpu.thread? v = some y ∧ v.wg = u.wg ∧ y.status = .parked (.barrier k.toNat)) →
        Traps s u th (.of .barBusy) (exec (.barinit p k b) s) id)) ∧
    (Solo s u th p [] →
      let free := s.gpu.heldBack u = false ∧ s.gpu.releaseWait (s.gpu.env u).core u .core = none
      (x.arr.getLsbD u.tid = false → free → x.a + 1 < x.e →
        Does s (exec (.bararv p k) s) th (fun g => put came (drained g)) ∧
        Parks s u p.sw (exec (.bar p k) s) th (.barrier k.toNat) (fun g => put came (drained g))) ∧
      (x.arr.getLsbD u.tid = false → s.gpu.heldBack u = true → Stays s (exec (.bararv p k) s) id ∧ Stays s (exec (.bar p k) s) id) ∧
      (x.arr.getLsbD u.tid = false → free → x.e ≤ x.a + 1 →
        (∀ v y, s.gpu.thread? v = some y → v.wg = u.wg → y.status ≠ .parked (.barrier k.toNat)) →
        let turned := put { came with phase := !x.phase, a := 0, arr := 0 }
        Does s (exec (.bararv p k) s) th (fun g => turned (drained g)) ∧ Does s (exec (.bar p k) s) th (fun g => turned (drained g))) ∧
      ((x.e ≠ 0 ∧ (u.tid, x.phase) ∈ x.last) → Parks s u p.sw (exec (.barwt p k) s) th (.barrier k.toNat) id) ∧
      ((x.e = 0 ∨ ∀ l ∈ x.last, l.1 = u.tid → l.2 ≠ x.phase) → Does s (exec (.barwt p k) s) th id) ∧
      (x.arr.getLsbD u.tid = true → th.mode = .user → Traps s u th ⟨.barRearrival, 0, 0, false⟩ (exec (.bar p k) s) id)) ∧
    ∀ (l : Launch) (y : Gang), Solo s u th p (b.span false) → s.gpu.launch? w.launch = some l → l.gangs.find? (fun z => z.idx == (th.srcW b).toNat) = some y →
      w.node = none → w.index ∈ y.members → s.gpu.heldBack u = false → s.gpu.releaseWait (s.gpu.env u).core u .dev = none →
      y.arr.length + 1 < y.e →
      Parks s u p.sw (exec (.gbar p b) s) th (.gang (th.srcW b).toNat) fun g =>
        (g.release (s.gpu.env u).core u .dev).modGang w.launch (th.srcW b).toNat fun z => { z with arr := z.arr ++ [u] }

/-- 04 R129 to R132, 07 R222: the events of a transaction barrier that a thread brings about: the fields, the phase returned or waited
for, the completion of a phase.
That an arrival does not issue while a remote read or a fence holds the thread back is the model's choice (log 97); that a waiting thread parks
with its PC advanced is its reading (log 24). -/
def Obligations.TransactionBarrierEvents : Prop :=
  ∀ (s : State) (u : TRef) (th : Thread) (p : Pfx) (d a : Reg) (b : SrcB) (w : Wg) (k : Nat),
    s.gpu.wg? u.wg = some w → th.pair a = BitVec.ofNat 64 (0xFF0000000000 + 16 * k) → 16 * k + 16 ≤ w.scratchLen → w.scratchLen ≤ 2 ^ 24 →
    (∀ x ∈ s.gpu.wgs, x.id = u.wg → x.tbars.contains k = true) →
    (∀ v y, s.gpu.thread? v = some y → ∀ o pc wd, v.wg = u.wg → y.status ≠ .parked (.tbar o pc wd)) →
    let x := w.tbar k
    let n := (th.srcW b).toNat
    let put := fun (y : TBar) (g : Gpu) => g.modWg u.wg fun w => w.setTbar k y
    (Solo s u th p (a.run 2 ++ b.span false) →
      (0 < n → n ≤ 65535 → Does s (exec (.tbinit p a b) s) th (put ⟨0, false, n, n, 0⟩)) ∧
      (x.poison = false → x.sect + n ≤ 0xFFFFFF → Does s (exec (.tbexp p a b) s) th (put { x with sect := x.sect + n })) ∧
      (x.poison = false → x.phase ≠ n % 16 → Does s (exec (.tbwt p a b) s) th id) ∧
      (x.poison = false → x.phase = n % 16 →
        Parks s u p.sw (exec (.tbwt p a b) s) th (.tbar (16 * k) s.gpu.cur.pc s.gpu.cur.word) id) ∧
      (x.poison = true → th.mode = .user → Traps s u th ⟨.barPoison, 0, 0, false⟩ (exec (.tbwt p a b) s) id)) ∧
    (Solo s u th p (d :: a.run 2) → s.gpu.heldBack u = true → Stays s (exec (.tbarv p d a) s) id) ∧
    (Solo s u th p (d :: a.run 2) → x.poison = false → 0 < x.pend → s.gpu.heldBack u = false →
      (s.gpu.core (s.gpu.env u).core).fifo.any (fun e => e.t == u) = false →
      Does s (exec (.tbarv p d a) s) (th.setReg d (BitVec.ofNat 32 x.phase)) (put
        (if x.pend = 1 ∧ x.sect = 0 then { x with phase := (x.phase + 1) % 16, pend := x.init } else { x with pend := x.pend - 1 })))

/-! ### Memory -/

/-- 07 R199, R203, R204, 04 R94, R99: loads and stores of the scratchpad: the bytes at the offset, little-endian, extended to 32 bits, made
pending; a store writes its bytes at once, and every other byte of the scratchpad keeps its value. -/
def Obligations.ScratchpadLoadsAndStores : Prop :=
  ∀ (s : State) (u : TRef) (th : Thread) (p : Pfx) (ch : BitVec 2) (ty : Ty) (vec : Vec) (ord : Ord4) (sc : Scope) (d a : Reg)
    (disp : Disp) (off : Nat),
    let size := accSize ty vec
    let rs := dataRegs d size
    Solo s u th p (rs ++ a.run 2) → (elemSize ty < 4 → vec = .x1) →
    InScratch s u (th.address a disp) off size size → NoBarrier s u off size →
    let got := th.owed s rs (loaded ty size fun i => s.scratchAt u (off + i)) 0 false
    let data := (List.range size).map (th.sent d)
    Does s (exec (.ld p ch ty vec ord sc d a disp) s) got id ∧
    Does s (exec (.ldu p ch ty vec d a disp) s) got id ∧
    Does s (exec (.st p ch ty vec ord sc d a disp) s) th (fun g => g.putScratch u.wg off data) ∧
    ∀ (w : Wg) (i : Nat), Memory.wf w.scratch = true →
      (w.scratch.setBytes off data).byte i = if off ≤ i ∧ i < off + size then th.sent d (i - off) else w.scratch.byte i

/-- 07 R203, R204, 04 R96, R100, R109, R112, R118: loads and stores of memory: a load takes each byte from the thread's own FIFO, else
its core's L1, else the home, and fills L1 where the page's CACHE is 0; a store goes to the thread's FIFO, whole when aligned, byte by
byte otherwise, after the release that it asks for.
That `.ar` only acquires on a load and only releases on a store, that a release beyond the core goes past L1, and the ascending order of
bytes are the model's readings (logs 11, 12, 96). -/
def Obligations.MemoryLoadsAndStores : Prop :=
  ∀ (s : State) (u : TRef) (th : Thread) (p : Pfx) (ch : BitVec 2) (ty : Ty) (vec : Vec) (ord : Ord4) (sc : Scope) (d a : Reg)
    (disp : Disp) (va : Nat) (l : Leaf),
    let size := accSize ty vec
    let rs := dataRegs d size
    let core := (s.gpu.env u).core
    let ps := l.span va size
    Solo s u th p (rs ++ a.run 2) → (elemSize ty < 4 → vec = .x1) → th.address a disp = BitVec.ofNat 64 va → Unreserved s →
    (Lies s u .read va size l → Clean s ps →
      let ready := fun (acq : Bool) (g : Gpu) =>
        let g := g.looked u .read va
        if acq then g.acquire core sc else g
      let byte := fun (x : Gpu × List Byte) (q : Phys) =>
        let g := if l.cache = 0 ∧ ch ≠ 3 then x.1.fillL1 core (l.attr.hinted ch).rank q.line else x.1
        let b := g.seeByte core u (ch == 3) q
        let newer := (g.core core).l1.any fun y => y.key == q.line && y.dirty.getLsbD (q.addr % 128)
        (if ch = 3 then g.pokeL1 core false false (if newer then [] else [(q, b)]) else g, x.2 ++ [b])
      let done := fun (acq : Bool) (g : Gpu) => ps.foldl byte (ready acq g, [])
      let got := fun (acq : Bool) => th.owed s rs (loaded ty size fun i => (done acq (s.onGpu id).gpu).2.getD i 0) 0 false
      Does s (exec (.ld p ch ty vec ord sc d a disp) s) (got ord.acquires) (fun g => (done ord.acquires g).1) ∧
      Does s (exec (.ldu p ch ty vec d a disp) s) (got false) (fun g => (done false g).1)) ∧
    (Lies s u .write va size l → Acked s u ord.releases sc (fun g => g.looked u .write va) →
      let entry := fun (i n : Nat) =>
        ({ t := u, pc := s.gpu.cur.pc, word := s.gpu.cur.word, inst := s.gpu.cur.no, attr := l.attr.hinted ch,
           cells := (List.range n).map fun j => (l.phys (va + i + j), th.sent d (i + j)),
           bypass := ch == 3 || (ord.releases && sc.beyondCore), res := s.gpu.deadlineWg u.wg } : FifoEntry)
      let es := if va % size = 0 then [entry 0 size] else (List.range size).map fun i => entry i 1
      Does s (exec (.st p ch ty vec ord sc d a disp) s) th fun g =>
        let g := g.looked u .write va
        let g := if ord.releases then g.release core u sc else g
        g.modCore core fun c => { c with fifo := c.fifo ++ es })

/-- 04 R96, R109, R110, 07 R206, Table 7.3: a thread's load sees its own stores first, then L1's copy, then the home's; and the value that an
atomic stores, from the value in memory, the operand and, for `cas`, the compare value. -/
def Obligations.LoadedAndAtomicValues : Prop :=
  (
    ∀ (g : Gpu) (core : Nat) (u : TRef) (bypass : Bool) (q : Phys),
      (∀ (es fs : List FifoEntry) (e : FifoEntry) (b : Byte), (g.core core).fifo = es ++ e :: fs → e.t = u → (q, b) ∈ e.cells →
        (e.cells.map Prod.fst).Nodup → (∀ f ∈ fs, f.t = u → ∀ x ∈ f.cells, x.1 ≠ q) → g.seeByte core u bypass q = b) ∧
      ((∀ e ∈ (g.core core).fifo, e.t = u → ∀ x ∈ e.cells, x.1 ≠ q) →
        ((∀ x ∈ (g.core core).l1, x.key ≠ q.line) → g.seeByte core u bypass q = g.homeByte q) ∧
        ∀ x, (g.core core).l1 = [x] → x.key = q.line →
          g.seeByte core u false q = lineByte x.data (q.addr % 128) ∧
          (x.dirty.getLsbD (q.addr % 128) = false → g.seeByte core u true q = g.homeByte q))) ∧
  ∀ (sgn ftz : Bool) (v b d : DWord),
    let lo := fun (x : DWord) => (x.setWidth 32 : Word)
    let low := fun (r : DWord × BitVec 5) => (lo r.1, r.2)
    (∀ ty, ty = .s32 ∨ ty = .n32 → low (atomV .add ty sgn ftz v b d) = (BitVec.ofNat 32 ((lo v).toNat + (lo b).toNat), 0)) ∧
    atomV .add .b64 sgn ftz v b d = (BitVec.ofNat 64 (v.toNat + b.toNat), 0) ∧
    (∀ mx : Bool,
      let op : AOp := if mx then .max else .min
      let pick := fun (x y : Int) => if mx then max x y else min x y
      ((lo (atomV op .s32 sgn ftz v b d).1).toInt = pick (lo v).toInt (lo b).toInt) ∧
      (((lo (atomV op .n32 sgn ftz v b d).1).toNat : Int) = pick (lo v).toNat (lo b).toNat) ∧
      ((atomV op .b64 true ftz v b d).1.toInt = pick v.toInt b.toInt) ∧
      (((atomV op .b64 false ftz v b d).1.toNat : Int) = pick v.toNat b.toNat) ∧
      (isAbandoned (lo v) = false → low (atomV op .f32 sgn ftz v b d) = minmaxW mx (lo v) (lo b))) ∧
    (∀ ty, atomV .and ty sgn ftz v b d = (v &&& b, 0) ∧ atomV .or ty sgn ftz v b d = (v ||| b, 0) ∧
      atomV .xor ty sgn ftz v b d = (v ^^^ b, 0) ∧ atomV .exch ty sgn ftz v b d = (b, 0) ∧
      atomV .cas ty sgn ftz v b d = (if v = d then b else v, 0)) ∧
    (isAbandoned (lo v) = false → low (atomV .add .f32 sgn ftz v b d) = faddV .rn ftz (lo v) (lo b)) ∧
    (isAbandoned (lo v) = true → atomV .add .f32 sgn ftz v b d = (v, flNV) ∧ atomV .min .f32 sgn ftz v b d = (v, flNV) ∧
      atomV .max .f32 sgn ftz v b d = (v, flNV))

/-- 07 R206 to R208, 04 R120 to R122: atomics and reservations, performed at the scratchpad or at the home slice: the old value pending
(none under `.nr`), the new value stored; `lr` takes the reservation, `sc` stores when it is held and answers 0 or 1. -/
def Obligations.AtomicsAndReservations : Prop :=
  ∀ (s : State) (u : TRef) (th : Thread) (p : Pfx) (ch : BitVec 2) (op : AOp) (ty : Ty) (nr sgn wide q : Bool) (ord : Ord4) (sc : Scope)
    (d a : Reg) (b : SrcB) (off va : Nat) (l : Leaf), th.count .xch < 63 → Unreserved s →
    let core := (s.gpu.env u).core
    let words := fun (n : Nat) (bs : List Byte) => if n = 8 then [(leWord bs).setWidth 32, (leWord bs >>> 32).setWidth 32]
      else [(leWord bs).setWidth 32]
    (Solo s u th p ((if nr then [] else d.span (ty == .b64)) ++ a.run 2 ++ b.span (ty == .b64)) →
      (ty = .f32 → isAbandoned (th.srcW b) = false) →
      let w := ty == .b64
      let n := if w then 8 else 4
      let go := fun (old : List Byte) => atomV op ty sgn (s.gpu.env u).ftz (leWord old) (th.wideSrc w b) (th.wideReg w d)
      let done := fun (old : List Byte) => if nr then th.raise (go old).2 else th.owed s (d.span w) (words n old) (go old).2 true
      let quiet := fun (old : List Byte) => nr = true → fpeTraps (s.gpu.env u) th (go old).2 = false
      (InScratch s u (th.pair a) off n n → NoBarrier s u off n →
        let old := (List.range n).map fun i => s.scratchAt u (off + i)
        quiet old →
        Does s (exec (.atom p ch op ty nr sgn ord sc d a b) s) (done old) fun g => g.putScratch u.wg off (bytesAt (go old).1 n)) ∧
      (th.pair a = BitVec.ofNat 64 va → Lies s u .atomic va n l → va % n = 0 →
        let ps := l.span va n
        (Clean s ps → (∀ k, l.base.sp ≠ .host k) → Acked s u ord.releases sc (fun g => g.looked u .atomic va) →
          let ready := fun (g : Gpu) =>
            let g := g.looked u .atomic va
            (if ord.releases then g.release core u sc else g).atHome core u ps
          let old := ps.map (s.onGpu ready).gpu.homeByte
          quiet old →
          Does s (exec (.atom p ch op ty nr sgn ord sc d a b) s) (done old) fun g =>
            let cells := ps.zip (bytesAt (go old).1 n)
            let g := if l.cache = 2 then (ready g).ctrlStore cells else (ready g).homeStore false (s.gpu.deadlineWg u.wg) cells
            if ord.acquires then g.acquire core sc else g) ∧
        (th.mode = .user → (∃ k, l.base.sp = .host k) → (op = .min ∨ op = .max ∨ op = .and ∨ op = .or ∨ op = .xor) →
          Traps s u th (.at .hostAtomic (th.pair a)) (exec (.atom p ch op ty nr sgn ord sc d a b) s) fun g => g.looked u .atomic va))) ∧
    let n := if wide then 8 else 4
    let ps := l.span va n
    th.pair a = BitVec.ofNat 64 va → va % n = 0 → (∀ k, l.base.sp ≠ .host k) →
    (Solo s u th p (d.span wide ++ a.run 2) → Lies s u .read va n l → Clean s ps → (s.gpu.looked u .read va).homeWait core u ps = none →
      let ready := fun (g : Gpu) => (g.looked u .read va).atHome core u ps
      let old := ps.map (s.onGpu ready).gpu.homeByte
      Does s (exec (.lr p ch wide q sc d a) s)
        ({ th with resv := some { key := (l.phys va).line, at_ := s.clk.cyc } }.owed s (d.span wide) (words n old) 0 false)
        fun g => if q then (ready g).acquire core sc else ready g) ∧
    (Solo s u th p (d :: a.run 2 ++ b.span wide) → Lies s u .atomic va n l → Acked s u q sc (fun g => g.looked u .atomic va) →
      Does s (exec (.sc p ch wide q sc d a b) s) (th.owed s [d] [1] 0 true) fun g =>
        let g := g.looked u .atomic va
        (if q then g.release core u sc else g).drain core u)

/-- 04 R122, 07 R208: a store-conditional whose reservation is held stores at the home slice, clears the reservation and answers 0; the
reservation holds for 4,096 cycles. -/
def Obligations.StoreConditionalSucceeds : Prop :=
  ∀ (s : State) (u : TRef) (th : Thread) (p : Pfx) (ch : BitVec 2) (wide q : Bool) (sc : Scope) (d a : Reg) (b : SrcB) (va : Nat) (l : Leaf)
    (r : Resv),
    let n := if wide then 8 else 4
    let core := (s.gpu.env u).core
    Solo s u th p (d :: a.run 2 ++ b.span wide) → th.count .xch < 63 → th.pair a = BitVec.ofNat 64 va → va % n = 0 →
    Lies s u .atomic va n l → (∀ k, l.base.sp ≠ .host k) → l.cache ≠ 2 → q = false → (s.gpu.core core).fifo = [] →
    (∀ x ∈ (s.gpu.core core).l1, x.dirty = 0) →
    th.resv = some r → r.key = (l.phys va).line → s.clk.cyc < r.at_ + 4096 → (∀ v x, v ≠ u → s.gpu.thread? v = some x → x.resv = none) →
    Does s (exec (.sc p ch wide q sc d a b) s) ({ th with resv := none }.owed s [d] [0] 0 true) fun g =>
      ((g.looked u .atomic va).atHome core u (l.span va n)).homeStore false (s.gpu.deadlineWg u.wg)
        ((l.span va n).zip (bytesAt (th.wideSrc wide b) n))

/-- 04 R112, R114, R115, R117, R127, 07 R209 to R211, R221, 14 R359: a fence parks nothing: it drains and cleans what it releases, drops what
it acquires, and holds the thread's later accesses back while a remote read of the thread, or at system scope a peer's acknowledgement of its
stores, is still to come; prefetch fills a line and never traps; a counter wait ends at or below N; and the invalidations drop what lies in
their scope and park until they complete.
How accesses are held back (they change nothing and issue again at a later turn), that a late acquire is performed when the remote read's
value comes, and that a fence waits for a way in L2, are the model's choices (log 97); that `tlbinv` fences as `icinv` does is its reading
(log 34). -/
def Obligations.FencesPrefetchAndInvalidation : Prop :=
  ∀ (s : State) (u : TRef) (th : Thread) (p : Pfx) (ch : BitVec 2) (ord : Ord4) (sc : Scope) (a : Reg) (disp : Disp) (cls : Cls)
    (n : BitVec 6) (va : Nat), Unreserved s →
    let core := (s.gpu.env u).core
    let beyond : Bool := sc != .thr && sc != .core
    let rel := fun (g : Gpu) => if beyond then (g.drain core u).cleanL1 core else g.drain core u
    let acq := fun (g : Gpu) => if beyond then g.flushL1 core else g
    let late := fun (g : Gpu) => { g with ops := if beyond then g.ops.map fun o => if o.readsFor u then { o with acq := true } else o else g.ops }
    let free := s.gpu.heldBack u = false
    let far := sc = .dev ∨ sc = .sys
    let parked := fun (w : Wait) => { th with pc := th.pc + BitVec.ofNat 64 s.gpu.cur.len, status := .parked w, owes := true, rdfl := none }
    (Solo s u th p [] →
      (
        let owing : Bool := ord.releases && sc == .sys && (s.onGpu rel).gpu.owesAck u
        let th' := if owing then { th with sysrel := true } else th
        let fenced := fun (g : Gpu) =>
          let g := if ord.releases then rel g else g
          if ord.acquires then late (acq g) else g
        ((ord.releases = true → s.gpu.releaseWait core u sc = none) →
          Does s (exec (.fence p ch ord sc) s) th' fenced ∧
          (p.sw = false → Leaves s u (exec (.fence p ch ord sc) s) { th' with pc := th.pc + BitVec.ofNat 64 s.gpu.cur.len } fenced) ∧
          ∀ t, exec (.fence p ch ord sc) s = .next t → owing = true ∨ (s.gpu.remoteRead u).isSome = true → t.gpu.heldBack u = true) ∧
        ∀ k, ord.releases = true → s.gpu.releaseWait core u sc = some k →
          Stays s (exec (.fence p ch ord sc) s) fun g => g.wantFill (g.deadlineWg u.wg) k) ∧
      (th.count cls ≤ n.toNat → Does s (exec (.wcnt p cls n) s) th id) ∧
      (n.toNat < th.count cls → Waits s u th (exec (.wcnt p cls n) s) (.counter cls n.toNat)) ∧
      (free → Acked s u true sc id →
        Leaves s u (exec (.icinv p ch sc) s) (parked (.inval sc none none)) (fun g =>
          let g := (acq (rel g)).cleanL1 core
          let fetch := fun (o : Op) => o.owners.isEmpty && inScope sc core o.core && match o.kind with | .rread _ _ => true | _ => false
          let g := { g with ops := g.ops.filter fun o => !fetch o }
          g.mapCores fun k c => if inScope sc core k then { c with icache := [], bricks := [] } else c) ∧
        (th.mode = .trap → ∀ c, s.gpu.ctx? (s.gpu.env u).ctx = some c →
          Leaves s u (exec (.tlbinvAll p sc) s) (parked (.inval sc (some c.asid) none))
            (fun g => ((acq (rel g)).release core u .dev).dropTlb c.asid none (inScope sc core)
              (if far then [0, 1] else [dieOf core]) (decide far))))) ∧
    (Solo s u th p (a.run 2) → th.mode = .trap → th.pair a = BitVec.ofNat 64 va → free → Acked s u true sc id →
      (va < 0xFF0000000000 → ∀ c, s.gpu.ctx? (s.gpu.env u).ctx = some c →
        Leaves s u (exec (.tlbinv p sc a) s) (parked (.inval sc (some c.asid) (some va)))
          (fun g => ((acq (rel g)).release core u .dev).dropTlb c.asid (some va) (inScope sc core)
            (if far then [0, 1] else [dieOf core]) (decide far))) ∧
      (0xFF0000000000 ≤ va → va < 0xFF0001000000 →
        Leaves s u (exec (.tlbinv p sc a) s) (parked (.inval sc none none)) fun g => (acq (rel g)).release core u .dev)) ∧
    (∀ (ty : Ty) (vec : Vec) (d : Reg) (l : Leaf), Solo s u th p (dataRegs d (accSize ty vec) ++ a.run 2) → s.gpu.heldBack u = true →
      th.address a disp = BitVec.ofNat 64 va →
      (Fits s u .read va (accSize ty vec) l → Stays s (exec (.ld p ch ty vec ord sc d a disp) s) id) ∧
      (Fits s u .write va (accSize ty vec) l → Stays s (exec (.st p ch ty vec ord sc d a disp) s) id)) ∧
    (Solo s u th p (a.run 2) →
      ∀ l2 : Bool,
      let n := (th.address a disp).toNat
      (0xFF0000000000 ≤ n → Does s (exec (.pfch p ch l2 a disp) s) th id) ∧
      ∀ c, s.gpu.ctx? (s.gpu.env u).ctx = some c → n < 0xFF0000000000 →
        match (s.gpu.translate core c .read n).2 with
        | .error _ => Does s (exec (.pfch p ch l2 a disp) s) th fun g => g.looked u .read n
        | .ok l =>
            let full := (s.gpu.looked u .read n).fillWait core false [l.phys n]
            ((∀ e k, l.base.sp ≠ .peer e k) → l.cache = 0 → ch ≠ 3 → l2 = false → full = none →
              Does s (exec (.pfch p ch l2 a disp) s) th fun g =>
                (g.looked u .read n).fillL1 core (l.attr.hinted ch).rank (l.phys n).line) ∧
            ((∃ e k, l.base.sp = .peer e k) ∨ l.cache ≠ 0 ∨ ch = 3 ∨ l2 = true ∨ full.isSome = true →
              Does s (exec (.pfch p ch l2 a disp) s) th fun g => g.looked u .read n))

/-- 07 R213 to R220: gathers, scatters and copies are checked at issue, capture their translations, are counted and start; a copy with `.rwg`
writes the scratchpad of the workgroup of the gang that its destination names.
The bounds of `.tb` and `.rwg` offsets are the model's reading (log 23). -/
def Obligations.GathersScattersAndCopiesStart : Prop :=
  (
    ∀ (s : State) (u : TRef) (th : Thread) (p : Pfx) (ch : BitVec 2) (wide tb sx rel : Bool) (vec : Vec) (sc : Scope) (sh : BitVec 3)
      (d a c : Reg) (b : SrcB) (ix : Reg) (pages dests : List (Nat × Leaf)), Unreserved s →
      let core := (s.gpu.env u).core
      let first := fun (g : Gpu) => if rel then g.release core u sc else g
      let n := vecCount vec
      let size := if wide then 8 else 4
      let elems := (List.range n).map fun i =>
        let x := th.reg (ix + BitVec.ofNat 8 i)
        th.pair a + BitVec.ofInt 64 ((if sx then x.toInt else (x.toNat : Int)) * 2 ^ sh.toNat)
      (Solo s u th p (dataRegs d (n * size) ++ a.run 2 ++ ix.run n) → th.count .gath < 63 → Acked s u rel sc id →
        (AllHeld s u .read size (elems.map fun e => (e, size)) pages →
          Starts s u th (exec (.gth p ch wide vec sx rel sc sh d a ix) s) .gath (.gth wide elems d) pages (dataRegs d (n * size)) first
            (hint := some ch)) ∧
        (AllHeld s u .write size (elems.map fun e => (e, size)) pages →
          Starts s u th (exec (.sct p ch wide vec sx rel sc sh d a ix) s) .gath
            (.sct wide (elems.zipIdx.map fun e => (e.1, (List.range size).map fun j => th.sent d (e.2 * size + j))) sc) pages [] first
            (hint := some ch))) ∧
      (th.count .copy < 63 → Acked s u rel sc id →
        let boff := (th.reg c).toNat
        let copies := fun (i : Instr) (strided : Bool) (shape : Shape) =>
          shape.ok strided = true → AllHeld s u .read 4 (shape.sources (th.pair a)) pages →
          AllHeld s u .write 4 (shape.dests (th.pair d)) dests →
          (tb = true → InScratch s u (BitVec.ofNat 64 (0xFF0000000000 + boff)) boff 16 16) →
          Starts s u th (exec i s) .copy
            (.copy { src := th.pair a, dst := th.pair d, dwg := u.wg, shape := shape, tb := if tb then some boff else none, sc := sc })
            (pages ++ dests) [] first (hint := some ch)
        let used := d.run 2 ++ a.run 2 ++ (if tb then [c] else [])
        let v := (th.srcW b).toNat
        (Solo s u th p (used ++ b.span false) →
          copies (.acp p ch tb false rel sc d a b c) false (.rows v 1 0 0) ∧
          (v / 2 ^ 24 = 0 → copies (.acpw p ch tb false rel sc d a b c) false (.widen (v % 2 ^ 20) (v / 2 ^ 20 % 16)))) ∧
        (Solo s u th p (used ++ ix.run 4) →
          copies (.acps p ch tb false rel sc d a ix c) true
            (.rows (th.reg ix).toNat (th.reg (ix + 1)).toNat (th.reg (ix + 2)).toInt (th.reg (ix + 3)).toInt)) ∧
        (Solo s u th p (d.run 2 ++ a.run 2 ++ [c] ++ b.span false) →
          ∀ cx, s.gpu.ctx? (s.gpu.env u).ctx = some cx → (Shape.rows v 1 0 0).ok false = true → AllHeld s u .read 4 [(th.pair a, v)] pages →
          Acked s u rel .sys id →
          (th.pair d).toNat % 4 = 0 → (tb = false → boff / 2 ^ 16 = 0) → s.gpu.connected cx (boff % 2 ^ 16) = true →
          Starts s u th (exec (.acpx p ch tb rel d a b c) s) .copy
            (.acpx { src := th.pair a, dst := th.pair d, dwg := u.wg, shape := .rows v 1 0 0,
                     tb := if tb then some (16 * (boff / 2 ^ 16)) else none, sc := .sys } (boff % 2 ^ 16) (boff / 2 ^ 16))
            pages [] (fun g => if rel then g.release core u .sys else g) (hint := some ch)))) ∧
  ∀ (s : State) (u : TRef) (th : Thread) (p : Pfx) (ch : BitVec 2) (sc : Scope) (d a c : Reg) (b : SrcB) (pages : List (Nat × Leaf))
    (w v : Wg) (l : Launch) (x : Gang) (core : Nat),
    Solo s u th p (d.run 2 ++ a.run 2 ++ b.span false) → th.count .copy < 63 →
    let n := (th.srcW b).toNat
    let idx := (th.reg (d + 1)).toNat
    let off := (th.reg d).toNat
    s.gpu.wg? u.wg = some w → w.node = none → s.gpu.launch? w.launch = some l → x ∈ l.gangs → w.index ∈ x.members → idx ∈ x.members →
    s.gpu.wgs.find? (fun y => y.launch == w.launch && y.node.isNone && y.index == idx && y.core?.isSome) = some v → v.place = .core core →
    (Shape.rows n 1 0 0).ok false = true → AllHeld s u .read 4 [(th.pair a, n)] pages → off % 4 = 0 → off + n ≤ v.scratchLen →
    v.scratchLen ≤ 2 ^ 24 →
    Starts s u th (exec (.acp p ch false true false sc d a b c) s) .copy
      (.copy { src := th.pair a, dst := BitVec.ofNat 64 (0xFF0000000000 + off), dwg := v.id, shape := .rows n 1 0 0, tb := none, sc := sc })
      pages [] id (hint := some ch)

/-- 02 R53 to R55, 07 R230: a spawn that finds a record, in the general part or, from a node thread, in the node's reserve, takes it, writes
it and advances the batch; one that finds none parks until a record comes back; a node that is no successor, or a length that is none of a
record's, takes the spawn-target trap.
Which free record is taken is a free choice (log 30); the park's PC is the model's reading (log 24), and what holds a spawn back is its choice
(log 97). -/
def Obligations.SpawnsTakeRecordsOrPark : Prop :=
  ∀ (s : State) (u : TRef) (th : Thread) (p : Pfx) (b : SrcB) (a : Reg) (len : BitVec 7) (w : Wg) (l : Launch),
    let n := (th.srcW b).toNat
    let succ : BitVec 64 := match w.node with
      | none => l.desc.rootsucc
      | some m => (l.nodes[m]?.map Node.succ).getD 0
    s.gpu.wg? u.wg = some w → s.gpu.launch? w.launch = some l →
    (Solo s u th p (a.run ((len.toNat + 3) / 4) ++ b.span false) → a.toNat + (len.toNat + 3) / 4 ≤ 256 → th.mode = .user →
      64 ≤ n ∨ succ.getLsbD n = false ∨ 64 < len.toNat ∨ len.toNat % 4 ≠ 0 → Traps s u th (.of .spawnTarget) (exec (.spawn p b a len) s) id) ∧
    (Solo s u th p (a.run (len.toNat / 4) ++ b.span false) → Unreserved s → s.gpu.heldBack u = false →
    s.gpu.releaseWait (s.gpu.env u).core u .dev = none → len.toNat ≤ 64 → len.toNat % 4 = 0 →
    a.toNat + len.toNat / 4 ≤ 256 → n < 64 → succ.getLsbD n = true →
    let data := (List.range len.toNat).map (th.sent a)
    let spawn : PSpawn := { t := u, op := none, node := n, len := len.toNat, data := data }
    let g := (s.onGpu id).gpu
    let c := g.choose (l.offer w.node.isNone n)
    let reserve := ((l.reserve.find? fun x => x.1 == n).map (·.2)).getD []
    let free := if l.general = [] then (if w.node = none then [] else reserve) else l.general
    (free ≠ [] → ∃ l' i part, l.draw w.node.isNone n c.2 = some (l', i, part) ∧ i ∈ free ∧
      part = (if l.general = [] then some n else none) ∧
      Does s (exec (.spawn p b a len) s) th fun _ => c.1.acceptSpawn l' w spawn i part) ∧
    (free = [] →
      Parks s u p.sw (exec (.spawn p b a len) s) th .pool fun g =>
        g.modLaunch l.id fun l => { l with parked := l.parked ++ [spawn] }.packRules) ∧
    recordBytes n len.toNat l.nextSeq w.index u.tid w.nodeNo data =
      bytesAt (BitVec.ofNat 64 n) 2 ++ bytesAt (len.setWidth 64) 2 ++ bytesAt (BitVec.ofNat 64 l.nextSeq) 4 ++
      bytesAt (BitVec.ofNat 64 w.index) 4 ++ bytesAt (BitVec.ofNat 64 u.tid) 2 ++ bytesAt (BitVec.ofNat 64 (w.node.getD 0x7F)) 1 ++ [0] ++
      data ++ List.replicate (64 - len.toNat) 0)

/-- 05 R143, R145, R146: the two halves of a dual word read before either writes; each writes where its own guard holds; the flags of
both are set. -/
def Obligations.DualWordsReadThenWrite : Prop :=
  ∀ (s : State) (sw : Bool) (h1 h2 : Half), Settled s sw →
    let runs := fun (th : Thread) => [h1, h2].filter fun h => h.op == .nop || th.guard h.g
    let val := fun (u : TRef) (th : Thread) (h : Half) => halfValue h (s.gpu.env u).ftz (th.reg h.hd) (th.reg h.ha)
    (∀ u ∈ s.members, overRange (s.gpu.env u).regs (h1.regs ++ h2.regs) = false) →
    (∀ u ∈ s.members, ∀ th, s.gpu.thread? u = some th → ∀ h ∈ runs th,
      th.pendingAmong h.regs = none ∧ (∀ w ∈ halfF32 h (th.reg h.hd) (th.reg h.ha), isAbandoned w = false) ∧
      fpeTraps (s.gpu.env u) th (val u th h).2 = false) →
    (Result s (exec (.dualWord sw h1 h2) s) (fun u th =>
      let put := fun (t : Thread) (h : Half) => if h.writes then t.setReg h.hd (val u th h).1 else t
      let t := (runs th).foldl put th
      { t with pc := th.pc + BitVec.ofNat 64 s.gpu.cur.len, flags := (runs th).foldl (fun f h => f ||| (val u th h).2) th.flags }) id) ∧
    ∀ (ftz : Bool) (g : Guard) (hd ha : Reg) (hx : BitVec 4) (x y : Word),
      let v := fun (op : HalfOp) => halfValue ⟨op, g, hd, ha, hx⟩ ftz x y
      v .iadd = (x + y, 0) ∧ v .isub = (x - y, 0) ∧ v .and = (x &&& y, 0) ∧ v .or = (x ||| y, 0) ∧ v .xor = (x ^^^ y, 0) ∧
      v .iaddI = (x + hx.setWidth 32, 0) ∧ v .isubI = (x - hx.setWidth 32, 0) ∧ v .andI = (x &&& hx.setWidth 32, 0) ∧
      v .mov = (y, 0) ∧ v .not = (~~~y, 0) ∧ v .ineg = (-y, 0) ∧ v .movi = (hx.signExtend 32, 0) ∧
      v .shlI = (x <<< hx.toNat, 0) ∧ v .shrI = (x >>> hx.toNat, 0)

/-! ### Array, verdict and engines -/

/-- 08 R238, R239: requests for tiles: a request in bounds and met by free tiles sets C, keeps the lower tiles and answers C; any other
leaves C and answers it with bit 31 set. -/
def Obligations.TileRequests : Prop :=
  ∀ (s : State) (wg team : Nat) (p : Pfx) (d : Reg) (b : SrcB) (w : Wg) (core : Nat),
    ArrayIssuing s wg team p (d :: b.span false) w core →
    let n := (((s.on p).head?.map fun (x : TRef × Thread) => x.2.srcW b).getD 0).toNat
    let c := w.tmap.length
    c ≤ 64 →
    let answer := fun (i : Instr) (ok : Prop) (m : Nat) =>
      (ok → m ≤ c ∨ m - c ≤ s.gpu.freeTiles core →
        Result s (exec i s) (after s p fun _ th => th.setReg d (BitVec.ofNat 32 m)) fun g => g.setTiles core wg m) ∧
      (¬ (ok ∧ (m ≤ c ∨ m - c ≤ s.gpu.freeTiles core)) →
        Effect s p (exec i s) fun _ th => th.setReg d (BitVec.ofNat 32 (2 ^ 31 + c)))
    answer (.aalloc p d b) (w.tilesDecl ≤ n ∧ n ≤ 64) n ∧
    answer (.agrow p d b) (c + n ≤ 64) (c + n) ∧
    answer (.afree p d b) (n + w.tilesDecl ≤ c) (c - n) ∧
    ∀ (g : Gpu) (m : Nat), g.wg? wg = some w → Store.wf 0 w.tiles = true → ∃ v, (g.setTiles core wg m).wg? wg = some v ∧ v.tmap.length = m ∧
      ∀ i, i < m → i < c → v.tmap[i]? = w.tmap[i]? ∧
        ∀ k, k < 256 → ∀ t, w.tmap[i]? = some t → v.elem t (k / 16) (k % 16) = w.elem t (k / 16) (k % 16)

/-- 08 R232 to R238, R240 to R251, R261, 05 R138: an array instruction whose tiles, operands and grant are in order is issued with its operands
captured, in the array's order, counted by its active lanes; otherwise every member of the team takes the first trap of R235 that applies: the
pair role, a tile at or above C, lanes that disagree on the format word, an invalid format word, sparse index or verdict descriptor, the
leave class, the place of an operand, an abandoned element that is read as a number. A `cupd` whose run of registers would pass g255 takes
the register-range trap.
What cfin reads, and that azero is not counted, are the model's readings (log 26), and so is an absent lane that the latch gives (log 103);
that the check sees the tile as it stands, and checks every sum while a product is outstanding, is its choice (log 114). -/
def Obligations.ArrayInstructionsIssue : Prop :=
  (∀ (s : State) (wg team : Nat) (p : Pfx) (w : Wg) (core : Nat) (ty : Ty) (rm : RM) (sat pair tall clr max hi wd : Bool) (sc : Scope)
    (t : TileNo) (n n2 : Nat) (a b f d : Reg) (bs : SrcB) (ncol : BitVec 5) (kk : BitVec 3) (u : TRef) (el : Thread)
    (pages : List (Nat × Leaf)) (look : Gpu → Gpu) (fw : Fmw),
    w.tmap[t.toNat]? = some n → (s.on p).head? = some (u, el) →
    let placed := fun (acc : Access) => Placed s u acc 64 (el.pair a) (256 * widthOf ty / 8) pages look
    (ArrayIssuing s wg team p [] w core → ArrayFree s w core [] →
      ArrayStarts s p (exec (.azero p t) s) core false false (.zero n) [] [] id) ∧
    (ArrayIssuing s wg team p (a.run 2) w core →
      (ArrayFree s w core [] → placed .read →
        ArrayStarts s p (exec (.ald p ty sc t a) s) core false true (.ld ty n (el.pair a) sc) pages [] look) ∧
      (ArrayFree s w core (if ty = .f32 then [] else wholeTile n) → placed .write →
        ArrayStarts s p (exec (.ast p ty rm sat sc t a) s) core false true (.st ty rm sat n (el.pair a) sc) pages [] look)) ∧
    (ArrayFree s w core [] → (if wd then w.tmap[t.toNat + 1]? = some n2 else n2 = n) →
      (ArrayIssuing s wg team p (d.run 2) w core →
        ArrayStarts s p (exec (.adrain p max hi wd ncol d t) s) core false true (.drain max hi wd (ncol.toNat + 1) n n2 d) [] (d.run 2) id) ∧
      (ArrayIssuing s wg team p (d.run 8) w core →
        ArrayStarts s p (exec (.atopk p max hi wd ncol kk d t) s) core false true
          (.topk max hi wd (ncol.toNat + 1) (kk.toNat + 1) n n2 d) [] (d.run 8) id)) ∧
    (fmwOf fw.word = some fw → (∀ x ∈ s.on p, x.2.reg f = fw.word) →
      (ArrayIssuing s wg team p (a.run (if tall then 16 else 8) ++ bs.span false ++ [f]) w core →
        (if pair then core % 2 = 0 ∧ w.tmap[t.toNat + 1]? = some n2 ∧ (s.gpu.core (core + 1)).arrq = [] else n2 = n) →
        ArrayFree s w core (if clr then [] else (if pair then [n, n2] else [n]).flatMap wholeTile) →
        Granted s w team (fw.demand pair) →
        let off := (el.srcW bs).toNat
        off % 64 = 0 → off + (if pair && !tall then 2048 else 1024) ≤ w.scratchLen →
        let rows := (List.range 32).map fun l =>
          (((s.on p).find? fun x => x.1.lane == l).map fun x => x.2.regsFrom a (if tall then 16 else 8)).getD []
        let go := fun (sparse : Bool) (i : Instr) (rows : List (List Word)) (latch : Option Latch) =>
          (sparse = true → ∀ r ∈ rows, badGroups fw.depth (r.take 8) = false ∧ (tall = true → badGroups fw.depth (r.drop 8) = false)) →
          ArrayStarts s p (exec i s) core pair true (.mma pair tall clr sparse n n2 rows off fw.word) [] []
            fun g => g.modWg wg fun w => w.modTeam team fun t => { t with latch := latch }
        go false (.amma p pair tall false clr t a bs f) rows none ∧ go true (.amms p pair tall false clr t a bs f) rows none ∧
        ∀ x, w.teams[team]? = some x →
          match x.latch with
          | some l =>
            if l.tall = tall then
              go false (.amma p pair tall true clr t a bs f) l.rows (some l) ∧ go true (.amms p pair tall true clr t a bs f) l.rows (some l)
            else go false (.amma p pair tall true clr t a bs f) rows (some ⟨tall, rows⟩) ∧
              go true (.amms p pair tall true clr t a bs f) rows (some ⟨tall, rows⟩)
          | none => go false (.amma p pair tall true clr t a bs f) rows (some ⟨tall, rows⟩) ∧
              go true (.amms p pair tall true clr t a bs f) rows (some ⟨tall, rows⟩)) ∧
      (∀ v th, Solo s v th p [] → th.mode = .user → 256 < a.toNat + 8 → Traps s v th (.of .regRange) (exec (.cupd p t a b f) s) id) ∧
      (ArrayIssuing s wg team p (a.run 8 ++ [b, f]) w core → a.toNat + 8 ≤ 256 → w.tmap[t.toNat + 1]? = some n2 → Granted s w team 1 →
        let idx := (List.range 32).map fun l => ((s.on p).find? fun x => x.1.lane == l).map fun x => (x.2.reg b).setWidth 16
        ArrayFree s w core (((idx.take 16).filterMap fun c => c.bind fun v => if v.toNat ≤ 15 then some v.toNat else none).dedup.flatMap
          fun c => (n2, c, 0) :: (List.range 16).map fun j => (n, c, j)) →
        ArrayStarts s p (exec (.cupd p t a b f) s) core false true
          (.cupd n n2 ((List.range 32).map fun l =>
            (((s.on p).find? fun x => x.1.lane == l).map fun x => x.2.regsFrom a 8).getD []) idx fw.word) [] [] id)) ∧
    (ArrayIssuing s wg team p [a] w core → w.tmap[t.toNat + 1]? = some n2 → Granted s w team 1 →
      let k := ncol.toNat + 1
      let off := (el.reg a).toNat
      off % 64 = 0 → off + 64 * k ≤ w.scratchLen →
      (∀ x ∈ s.gpu.arrOps core, x.1.owner.wg = w.id → x.2.mayAbandon = true → n ∉ x.2.tiles) →
      ArrayFree s w core ((List.range k).map (fun c => (n2, c, 0)) ++
        ((List.range k).filter fun c => s.gpu.mayCount core w.id n2 || !(fv (w.elem n2 c 0)).isZero).flatMap fun c =>
          (List.range 16).map fun j => (n, c, j)) →
      ArrayStarts s p (exec (.cfin p ty ncol t a) s) core false true (.cfin ty k n n2 off) [] [] id)) ∧
  ∀ (s : State) (wg team : Nat) (p : Pfx) (w : Wg) (core : Nat) (ty : Ty) (rm : RM) (sat pair tall reuse clr max hi wd : Bool) (sc : Scope)
    (t : TileNo) (a b f d : Reg) (bs : SrcB) (ncol : BitVec 5) (kk : BitVec 3) (kind : VKind) (col : BitVec 4) (u : TRef) (el : Thread)
    (l : Launch) (c : Ctx),
    s.gpu.wg? wg = some w → w.place = .core core → (s.on p).head? = some (u, el) → s.gpu.launch? w.launch = some l →
    s.gpu.ctx? w.ctx = some c → (∀ m ∈ s.members, ∃ z, s.gpu.thread? m = some z ∧ z.mode = .user) →
    let team_ := fun (used : List Reg) => TeamIssuing s wg team p used false
    let trap := fun (i : Instr) (k : Trap) => AllTrap s k (exec i s) id
    let short := fun (two : Bool) => w.tmap.length ≤ t.toNat + (if two then 1 else 0)
    let place := fun (i : Instr) (off al size : Nat) =>
      (off % al ≠ 0 → trap i (.at .alignment (BitVec.ofNat 64 (0xFF0000000000 + off)))) ∧
      (off % al = 0 → w.scratchLen < off + size → trap i (.at .scratchRange (BitVec.ofNat 64 (0xFF0000000000 + off))))
    let settled := fun (tiles : List Nat) =>
      ∀ x ∈ s.gpu.arrOps core, x.1.owner.wg = w.id → x.2.mayAbandon = true → ∀ t ∈ tiles, t ∉ x.2.tiles
    let bad := fun (n r q : Nat) => isAbandoned (w.elem n r q) = true
    let format := fun (i : Instr) =>
      ((∃ x ∈ s.on p, ∃ y ∈ s.on p, x.2.reg f ≠ y.2.reg f) → trap i (.of .fmtDivergence)) ∧
      ∀ v, (∀ x ∈ s.on p, x.2.reg f = v) → ¬ ValidFormat v → trap i (.of .arrayFormat)
    (team_ [] → short false → trap (.azero p t) (.of .accRange)) ∧
    (team_ (a.run 2) →
      let addr := el.pair a
      let size := 256 * widthOf ty / 8
      let ald := Instr.ald p ty sc t a
      let ast := Instr.ast p ty rm sat sc t a
      (short false → trap ald (.of .accRange) ∧ trap ast (.of .accRange)) ∧
      (¬ short false →
        (0xFF0001000000 ≤ addr.toNat → trap ald (.at .address addr) ∧ trap ast (.at .address addr)) ∧
        (∀ off, addr = BitVec.ofNat 64 (0xFF0000000000 + off) → off < 2 ^ 24 → place ald off 64 size ∧ place ast off 64 size) ∧
        ∀ va, addr = BitVec.ofNat 64 va → va < 0xFF0000000000 →
          (va % 64 ≠ 0 → va + size ≤ 0xFF0000000000 → trap ald (.at .alignment addr) ∧ trap ast (.at .alignment addr)) ∧
          (va % 64 = 0 → va + size ≤ 0xFF0000000000 → ∀ e, e.rpl = false →
            ((s.gpu.translate core c .read va).2 = .error e →
              AllTrap s ⟨.translation, if e.perm then 4 else 0, addr, false⟩ (exec ald s) fun g => g.looked u .read va) ∧
            ((s.gpu.translate core c .write va).2 = .error e →
              AllTrap s ⟨.translation, if e.perm then 5 else 1, addr, false⟩ (exec ast s) fun g => g.looked u .write va))) ∧
      ∀ n, w.tmap[t.toNat]? = some n → (∀ off, InScratch s u addr off size 64 → ty ≠ .f32 → settled [n] →
        (∃ r q, r < 16 ∧ q < 16 ∧ bad n r q) → trap ast (.of .verdict))) ∧
    (short wd →
      (team_ (d.run 2) → trap (.adrain p max hi wd ncol d t) (.of .accRange)) ∧
      (team_ (d.run 8) → trap (.atopk p max hi wd ncol kk d t) (.of .accRange))) ∧
    (team_ (a.run (if tall then 16 else 8) ++ bs.span false ++ [f]) →
      let amma := Instr.amma p pair tall reuse clr t a bs f
      let amms := Instr.amms p pair tall reuse clr t a bs f
      (pair = true → core % 2 = 1 → trap amma (.of .pairRole) ∧ trap amms (.of .pairRole)) ∧
      ((pair = true → core % 2 = 0) →
        (short pair → trap amma (.of .accRange) ∧ trap amms (.of .accRange)) ∧
        (¬ short pair → format amma ∧ format amms ∧
          ∀ fw, fmwOf fw.word = some fw → (∀ x ∈ s.on p, x.2.reg f = fw.word) →
            let wrong := fun (x : TRef × Thread) =>
              badGroups fw.depth (x.2.regsFrom a 8) || (tall && badGroups fw.depth (x.2.regsFrom (a + 8) 8))
            (reuse = false → (∃ x ∈ s.on p, wrong x = true) → trap amms (.of .arrayFormat)) ∧
            let off := (el.srcW bs).toNat
            let size := if pair && !tall then 2048 else 1024
            ∀ i, (i = amma ∨ (i = amms ∧ reuse = false ∧ ∀ x ∈ s.on p, wrong x = false)) →
              (l.desc.power < fw.demand pair → trap i (.of .leaveClass)) ∧
              (fw.demand pair ≤ l.desc.power → place i off 64 size ∧
                ∀ n n2, w.tmap[t.toNat]? = some n → (if pair then w.tmap[t.toNat + 1]? = some n2 else n2 = n) →
                  off % 64 = 0 → off + size ≤ w.scratchLen → clr = false → settled [n, n2] →
                  (∃ r q, r < 16 ∧ q < 16 ∧ (bad n r q ∨ bad n2 r q)) → trap i (.of .verdict))))) ∧
    (team_ (a.run 8 ++ [b, f]) → a.toNat + 8 ≤ 256 →
      let cupd := Instr.cupd p t a b f
      (short true → trap cupd (.of .accRange)) ∧
      (¬ short true → format cupd ∧
        ∀ v, (∀ x ∈ s.on p, x.2.reg f = v) → ValidFormat v →
          (l.desc.power = 0 → trap cupd (.of .leaveClass)) ∧
          (0 < l.desc.power → ∀ n n2, w.tmap[t.toNat]? = some n → w.tmap[t.toNat + 1]? = some n2 → settled [n, n2] →
            (∃ x ∈ s.on p, x.1.lane < 16 ∧ let c := (x.2.reg b).toNat % 65536
              c < 16 ∧ (bad n2 c 0 ∨ ∃ j, j < 16 ∧ bad n c j)) → trap cupd (.of .verdict)))) ∧
    (team_ [a] →
      let cfin := Instr.cfin p ty ncol t a
      let off := (el.reg a).toNat
      let k := ncol.toNat + 1
      (short true → trap cfin (.of .accRange)) ∧
      (¬ short true →
        (l.desc.power = 0 → trap cfin (.of .leaveClass)) ∧
        (0 < l.desc.power → place cfin off 64 (64 * k) ∧
          ∀ n n2, w.tmap[t.toNat]? = some n → w.tmap[t.toNat + 1]? = some n2 → off % 64 = 0 → off + 64 * k ≤ w.scratchLen → settled [n, n2] →
            (∃ c, c < k ∧ (bad n2 c 0 ∨ ((fv (w.elem n2 c 0)).isZero = false ∧ ∃ j, j < 16 ∧ bad n c j))) → trap cfin (.of .verdict)))) ∧
    (team_ [a, f] → ∀ i, (i = Instr.vacc p kind t a f col ∨ i = Instr.vtop p t a f col) →
      (short false → trap i (.of .accRange)) ∧
      (¬ short false → format i ∧
        ∀ fw, fmwOf fw.word = some fw → (∀ x ∈ s.on p, x.2.reg f = fw.word) →
          let off := (el.reg a).toNat
          place i off 32 32 ∧
          (off % 32 = 0 → off + 32 ≤ w.scratchLen →
            (vdescOf (w.scratchBytes off 32) = none → trap i (.of .arrayFormat)) ∧
            ∀ desc, vdescOf (w.scratchBytes off 32) = some desc →
              (l.desc.power < fw.demand false → trap i (.of .leaveClass)) ∧
              (fw.demand false ≤ l.desc.power →
                (∀ xs y ys, desc.spans (widthOf fw.aty) = xs ++ y :: ys → (∀ z ∈ xs, z.1 + z.2.2 ≤ w.scratchLen) →
                  w.scratchLen < y.1 + y.2.2 → trap i (.at .scratchRange (BitVec.ofNat 64 (0xFF0000000000 + y.1)))) ∧
                ((∀ y ∈ desc.spans (widthOf fw.aty), y.1 + y.2.2 ≤ w.scratchLen) →
                  ∀ n, w.tmap[t.toNat]? = some n → settled [n] → (∃ r, r < desc.rows ∧ bad n r col.toNat) → trap i (.of .verdict))))))

/-- 08 R251, R253, R256, R258: verdict operations are issued with their descriptor and headers captured; `vset` sets the team's verdict
state, `vset.rd` reads it, and `vchk` compares.
That vset waits for outstanding verdict operations is the model's reading (log 26). -/
def Obligations.VerdictInstructions : Prop :=
  ∀ (s : State) (wg team : Nat) (p : Pfx) (w : Wg) (x : Team) (core : Nat) (kind : VKind) (t : TileNo) (n : Nat) (a f d : Reg)
    (col : BitVec 4) (mx : Bool) (kk : BitVec 3) (u : TRef) (el : Thread) (fw : Fmw) (desc : VDesc),
    s.gpu.wg? wg = some w → w.place = .core core → w.teams[team]? = some x → (s.on p).head? = some (u, el) →
    (ArrayIssuing s wg team p [a, f] w core → w.tmap[t.toNat]? = some n → fmwOf fw.word = some fw → (∀ y ∈ s.on p, y.2.reg f = fw.word) →
      let off := (el.reg a).toNat
      off % 32 = 0 → off + 32 ≤ w.scratchLen → vdescOf (w.scratchBytes off 32) = some desc →
      (∀ y ∈ desc.spans (widthOf fw.aty), y.1 + y.2.2 ≤ w.scratchLen) → Granted s w team (fw.demand false) →
      ArrayFree s w core ((List.range desc.rows).map fun r => (n, r, col.toNat)) →
      let hdrs := w.scratchBytes desc.qhdr (4 * desc.nb) ++ w.scratchBytes desc.rhdr (4 * desc.nb * desc.rows)
      let op := fun (k : VKind) => ArrOp.verd k n col.toNat off fw.word (w.scratchBytes off 32) hdrs
      ArrayStarts s p (exec (.vacc p kind t a f col) s) core false true (op kind) [] [] id ∧
      ArrayStarts s p (exec (.vtop p t a f col) s) core false true (op .topk) [] [] id) ∧
    (s.gpu.verdBusy core wg team = false →
      (TeamIssuing s wg team p [a] false → isAbandoned (el.reg a) = false →
        Result s (exec (.vset p mx kk a) s) (after s p fun _ th => th) fun g =>
          g.modWg wg fun w => w.modTeam team fun t =>
            { t with verdict := { vt := el.reg a, k := kk.toNat + 1, max := mx, list := [] } }) ∧
      (TeamIssuing s wg team p (d.run 2) false →
        Effect s p (exec (.vsetRd p d) s) fun v th =>
          let y : Word × Word := if v.lane < 8 then
              match x.verdict.list[v.lane]? with
              | some e => (e.1, e.2.setWidth 32)
              | none => (if x.verdict.max then 0xFF800000 else 0x7F800000, 0xFFFF)
            else (x.verdict.topT, BitVec.ofNat 32 x.verdict.list.length)
          (th.setReg d y.1).setReg (d + 1) y.2)) ∧
    ∀ (v : TRef) (th : Thread) (q : Pfx) (pd pc : PredNo), Solo s v th q [a] → v.wg = wg → v.team = team → (s.gpu.env v).core = core →
      s.gpu.topBusy core wg team = false →
      let y := th.reg a
      let no : Nat := match kind with | .sign => 1 | .thresh => 2 | .topk => 3
      let r : Bool × Bool :=
        if isAbandoned y then (y.toNat / 2 % 128 == no && y.toNat % 2 == 1, true)
        else (match kind with
          | .sign => (fv y).lt (.fin false 0)
          | .thresh => (fv x.verdict.vt).lt (fv y)
          | .topk => if x.verdict.max then (fv x.verdict.topT).lt (fv y) else (fv y).lt (fv x.verdict.topT), false)
      Does s (exec (.vchk q kind pd a pc) s) ((th.setPred pc r.2).setPred pd r.1) id

/-- 08 R254, R255, R247, R248: a window that decides gives the verdict of every value in it; ranked candidates are the columns without NaN,
in order, equal values in the index order that is asked for. -/
def Obligations.WindowsAndRankedRows : Prop :=
  (
    ∀ (kind : VKind) (mx v : Bool) (t lo hi r : Word), (fv lo).isFin → (fv hi).isFin → (fv r).isFin → (fv t).isNan = false →
      ratW lo ≤ ratW r → ratW r ≤ ratW hi → windowVerdict kind mx t lo hi = some v →
      v = (match kind with
        | .sign => (fv r).lt (.fin false 0)
        | .thresh => (fv t).lt (fv r)
        | .topk => if mx then (fv t).lt (fv r) else (fv r).lt (fv t))) ∧
  ∀ (w : Wg) (mx hi : Bool) (n t t2 i : Nat),
    let el := fun (c : Nat) => if c < 16 then w.elem t i c else w.elem t2 i (c - 16)
    let l := rankedRow w mx hi n t t2 i
    (l.map (·.2)).Perm ((List.range n).filter fun c => !(fv (el c)).isNan) ∧ (∀ x ∈ l, x.1 = el x.2) ∧
    l.Pairwise fun x y => ((fv x.1).eqv (fv y.1) = true ∧ (if hi then y.2 < x.2 else x.2 < y.2)) ∨
      (if mx then (fv y.1).lt (fv x.1) else (fv x.1).lt (fv y.1)) = true

/-- 08 R259 to R266, 14 Table 14.4: a fork whose tables are valid starts its sequencers; a state whose check fails stops its sequencer and
leaves an engine fault, which names the sequencer, the state and the trap; `rdv` waits for the sequencers, takes the engine fault of a fork that
has one, or ends the fork; `leave` is refused with its reason or waits for the governor; `lvfree` drops the grant.
The tables' missing alignment rule, and that a fork with a fault stays outstanding after its trap, are the model's readings (log 27). -/
def Obligations.ForksRendezvousAndLeave : Prop :=
  ∀ (s : State) (wg team : Nat) (p : Pfx) (w : Wg) (x : Team) (core : Nat) (na : BitVec 8) (nc : BitVec 6) (a b c d : Reg) (cls : BitVec 3)
    (bs : SrcB) (u : TRef) (el : Thread), s.gpu.wg? wg = some w → w.place = .core core → w.teams[team]? = some x →
    (TeamIssuing s wg team p (a.run 2 ++ b.run 2 ++ c.run 8) false → (s.on p).head? = some (u, el) →
      (∀ y ∈ s.on p, y.2.reg (c + 6) = el.reg (c + 6) ∧ y.2.count .arr < 63 ∧ y.2.count .copy < 63) →
      (fmwOf (el.reg (c + 6))).isSome → x.fork = none → (s.gpu.core core).seqA = none → (s.gpu.core core).seqC = none →
      ∀ (oa ob : Nat) (at_ ct : List EState), InScratch s u (el.pair a) oa (16 * na.toNat) 1 → InScratch s u (el.pair b) ob (16 * nc.toNat) 1 →
      forkTables na.toNat nc.toNat (el.reg (c + 7)) (w.scratchBytes oa (16 * na.toNat)) (w.scratchBytes ob (16 * nc.toNat)) = some (at_, ct) →
      0 < na.toNat → 0 < nc.toNat →
      let id0 := s.gpu.nextId
      let seq := fun (k id : Nat) (tab : List EState) (credit : Nat) =>
        ({ fork := id, wg := w.id, team := team, lanes := (s.on p).map (·.1), elected := u, tab := tab, idx := 0, ctrs := [0, 0, 0, 0],
           limits := el.regsFrom c 4, post := 0, other := 0, take := -(credit : Int), src := el.pair (c + BitVec.ofNat 8 k),
           fmt := el.reg (c + 6), ops := [], posts := [], ended := false, pc := s.gpu.cur.pc, word := s.gpu.cur.word } : Seq)
      Result s (exec (.fork p na nc a b c) s)
        (after s p fun _ th => { th with outst := th.outst ++ [⟨.arr, id0, false, 0⟩, ⟨.copy, id0 + 1, false, 0⟩] })
        fun g =>
          let op := fun (id : Nat) (k : SeqKind) (cl : Cls) =>
            { opStarted s u cl (.seq k) [] with id := id, owners := (s.on p).map (·.1) }
          let g := { g with ops := g.ops ++ [op id0 .array .arr, op (id0 + 1) .copy .copy] }
          let g := g.modCore core fun k =>
            { k with seqA := some (seq 4 id0 at_ ((el.reg (c + 7)).toNat / 256 % 256)), seqC := some (seq 4 (id0 + 1) ct ((el.reg (c + 7)).toNat % 256)) }
          g.modWg wg fun w => w.modTeam team fun t => { t with fork := some ⟨[id0, id0 + 1], true, true, none⟩ }) ∧
    (TeamIssuing s wg team p [] false → s.on p ≠ [] →
      (x.fork = none → Effect s p (exec (.rdv p) s) fun _ th => th) ∧
      (∀ fs, x.fork = some fs →
        (fs.arr = false → fs.copy = false → (∀ v ∈ s.members, ∀ th, s.gpu.thread? v = some th → ∀ o ∈ th.outst, o.id ∉ fs.ids) → fs.fault = none →
          Result s (exec (.rdv p) s) (after s p fun _ th => th) fun g => g.modWg wg fun w => w.modTeam team fun t => { t with fork := none }) ∧
        (∀ i, fs.arr = false → fs.copy = false → (∀ v ∈ s.members, ∀ th, s.gpu.thread? v = some th → ∀ o ∈ th.outst, o.id ∉ fs.ids) →
          fs.fault = some i → (∀ v ∈ s.members, ∀ th, s.gpu.thread? v = some th → th.mode = .user) →
          AllTrap s ⟨.engineFault, i, 0, false⟩ (exec (.rdv p) s) id) ∧
        (fs.arr = true ∨ fs.copy = true → ∃ t, exec (.rdv p) s = .next t ∧
          ∀ v ∈ s.members, ∀ th, s.gpu.thread? v = some th →
            t.gpu.thread? v = some { th with status := .parked (.rendezvous fs.ids), rdfl := none })) ∧
      Result s (exec (.lvfree p) s) (after s p fun _ th => th) fun g => g.modWg wg fun w => w.modTeam team fun t => { t with grant := none }) ∧
    (∀ q e fs, (s.gpu.core core).seq .array = some q → q.wg = wg → q.team = team → q.tab[q.idx]? = some e → q.idx < 32 → q.ended = false →
      s.gpu.faulted q.fork = false → x.fork = some fs → fs.fault = none → e.wait = false → e.op = 4 → w.tmap[e.tile]? = none →
      ∃ t y z f i, exec (.engineStateStep core .array) s = .next t ∧ t.gpu.wg? wg = some y ∧ y.teams[team]? = some z ∧ z.fork = some f ∧
        f.fault = some i ∧ i = engineInfo .array q.idx 0x29) ∧
    (∀ k j kind, j < 32 →
      let c := causeWord (engineInfo k j kind) false false TrapKind.engineFault.code
      c.getLsbD 31 = (k == .copy) ∧ c.extractLsb' 29 2 = 0 ∧ c.extractLsb' 24 5 = BitVec.ofNat 5 j ∧ c.extractLsb' 16 8 = kind ∧
      c.extractLsb' 0 8 = 0x2F) ∧
    (TeamIssuing s wg team p (d :: bs.span false) false → (s.on p).head? = some (u, el) →
      ∀ l, s.gpu.launch? w.launch = some l →
      let us := (el.srcW bs).toNat
      let word := fun (reason : Nat) => BitVec.ofNat 32 (cls.toNat * 2 ^ 28 + reason * 2 ^ 24)
      (l.desc.power < cls.toNat → Effect s p (exec (.leave p d cls bs) s) fun _ th => th.setReg d (word 1)) ∧
      (cls.toNat ≤ l.desc.power → us = 0 ∨ 65535 < us → Effect s p (exec (.leave p d cls bs) s) fun _ th => th.setReg d (word 2)) ∧
      (cls.toNat ≤ l.desc.power → 0 < us → us ≤ 65535 →
        Result s (exec (.leave p d cls bs) s)
          (after s p fun _ th => { th with pend := th.pend ++
            [{ id := s.gpu.nextId, regs := [d], vals := none, flags := 0, token := true, xch := false, pc := s.gpu.cur.pc, word := s.gpu.cur.word }] })
          fun g => { g with
            ops := g.ops ++ [{ opStarted s u .arr (.leave cls.toNat us) [] with owners := (s.on p).map (·.1), cls := none }]
            gov := { g.gov with reqs := g.gov.reqs ++ [⟨s.gpu.nextId, wg, team, cls.toNat, us, some s.gpu.nextId⟩] } }))

/-! ### Surfaces -/

/-- 09 R285, R289 to R299, R304 to R306: surface instructions start their operations, counted in MARCH, with their registers as pending tokens.
That mqry captures its words at issue is the model's reading (log 37), and that only registers are checked is log 38's. -/
def Obligations.SurfaceOperationsStart : Prop :=
  ∀ (s : State) (u : TRef) (th : Thread) (p : Pfx) (q : Bool) (d a b : Reg) (bs : SrcB) (pages : List (Nat × Leaf)) (look : Gpu → Gpu),
    th.count .march < 63 →
    let core := (s.gpu.env u).core
    let clean := fun (rs : List Reg) => ∀ r ∈ rs, isAbandoned (th.reg r) = false
    (Solo s u th p (d.run 4 ++ a.run 8 ++ bs.span true) → clean (a.run 8) → Placed s u .read 64 (th.srcD bs) 64 pages look →
      (∀ r ∈ s.gpu.rays, r.owner = u → r.susp = none) → ∀ slot, s.gpu.freeSlot core u = some slot →
      Starts s u th (exec (.march p q d a bs) s) .march (.march q (th.regsFrom a 8) (th.srcD bs) slot) pages (d.run 4) fun g =>
        let g := look g
        { g with rays := g.rays ++ [{ core := core, slot := slot, owner := u, susp := none }] }) ∧
    (∀ slot m, s.gpu.suspended core u (th.reg a) = some (slot, m) →
      (Solo s u th p (d.run 4 ++ [a] ++ bs.span true) → clean (bs.run 2) →
        Starts s u th (exec (.mres p d a bs) s) .march (.mres slot m (some ((th.srcD bs).setWidth 32, (th.srcD bs >>> 32).setWidth 32))) [] (d.run 4)
          fun g => g.setRay u slot none) ∧
      (Solo s u th p (d.run 4 ++ [a]) →
        Starts s u th (exec (.mresAbort p d a) s) .march (.mres slot m none) [] (d.run 4) fun g => g.setRay u slot none) ∧
      (Solo s u th p (d.run 8 ++ [a]) →
        Does s (exec (.mqry p q d a) s) (th.counts s .march (d.run 8)) fun g =>
          ({ g with ops := g.ops ++ [opStarted s u .march (.mqry q slot) []] } : Gpu).modOp s.gpu.nextId fun o =>
            { o with result := some [(u, m.query q)] })) ∧
    (s.gpu.suspended core u (th.reg a) = none → th.mode = .user → Solo s u th p (d.run 4 ++ [a]) →
      Traps s u th (.of .marchSlot) (exec (.mresAbort p d a) s) id) ∧
    (Solo s u th p (d.run 4 ++ a.run 2 ++ b.run (if q then 6 else 3)) → clean (b.run (if q then 6 else 3)) →
      Placed s u .read 64 (th.pair a) 16 pages look →
      Starts s u th (exec (.veval p q d a b) s) .march (.veval q (th.pair a) (th.regsFrom b (if q then 6 else 3))) pages (d.run 4) look) ∧
    (Solo s u th p (d.run 4 ++ a.run 2 ++ b.run 3) → clean (b.run 3) → Placed s u .read 64 (th.pair a) 64 pages look →
      Starts s u th (exec (.bfetch p d a b) s) .march (.bfetch (th.pair a) (th.regsFrom b 3)) pages (d.run 4) look) ∧
    (Solo s u th p (d :: a.run 2 ++ b.run 8) → clean (b.run 6) → Placed s u .read 64 (th.pair a) 16 pages look →
      let out := (th.reg (b + 6)).toNat
      let cap := (th.reg (b + 7)).toNat
      out % 64 = 0 → (∀ w, s.gpu.wg? u.wg = some w → out + cap ≤ w.scratchLen) →
      Starts s u th (exec (.prep p d a b) s) .march (.prep (th.pair a) (th.regsFrom b 6) out cap) pages [d] look) ∧
    (Solo s u th p (d.run 2 ++ a.run 2 ++ bs.span false) → clean (bs.run 1) → Placed s u .atomic 4 (th.pair a) 4 pages look →
      (∀ x ∈ pages, ∀ k, x.2.base.sp ≠ .host k) →
      Starts s u th (exec (.zts p q d a bs) s) .march (.zts q (th.pair a) (th.srcW bs)) pages (d.run 2) look) ∧
    (Solo s u th p (d :: a.run 2) →
      (∀ off w l x, InScratch s u (th.pair a) off 64 64 → s.gpu.wg? u.wg = some w → s.gpu.launch? w.launch = some l →
        rdescOf (w.scratchBytes off 64) = some x → l.permits w x.node = true →
        Starts s u th (exec (.rsub p d a) s) .march (.rsub x 0 x.y0 x.x0 0) [] [d] id) ∧
      ∀ va l, th.pair a = BitVec.ofNat 64 va → Lies s u .read va 1 l → Clean s [l.phys va] →
        (l.base.sp = .dev → Does s (exec (.cmeta p d a) s) (th.owed s [d] [0x80] 0 false) fun g => g.looked u .read va) ∧
        (∀ k, l.base.sp = .host k → Does s (exec (.cmeta p d a) s) (th.owed s [d] [0x480] 0 false) fun g => g.looked u .read va))

/-! ### System instructions and traps -/

/-- 14 R345, R348, R349, R356, R357, 02 Table 2.1: `rdsr` gives each special register's value, sr.cnt and sr.time as results that return
later; `wrsr` writes field by field. -/
def Obligations.SpecialRegisters : Prop :=
  ∀ (s : State) (u : TRef) (th : Thread) (p : Pfx) (d : Reg) (sr : SReg) (b : SrcB) (w : Wg) (l : Launch) (c : Ctx) (core : Nat),
    s.gpu.wg? u.wg = some w → s.gpu.launch? w.launch = some l → s.gpu.ctx? w.ctx = some c → w.place = .core core →
    (sr.trapOnly = true → th.mode = .trap) →
    let num := fun (n : Nat) => BitVec.ofNat 64 n
    let low := fun (x : Word) => (x.setWidth 64 : DWord)
    let cnt := fun (k : Cls) (i : Nat) => th.count k % 64 * 2 ^ i
    let v : DWord := match sr with
      | .lane => num (u.tid % 32)
      | .tid => num (u.tid % 1024)
      | .team => num (u.tid / 32)
      | .wg => num (w.index % 2 ^ 24)
      | .wgsize => num w.size
      | .node => num (w.node.getD 0x7F)
      | .tier => num w.time.tier
      | .core => num core
      | .pair => num (core / 2)
      | .ctx => num ((if th.mode = .trap then 2 ^ 31 else 0) + c.asid % 2 ^ 10 * 2 ^ 16 + c.part % 4 * 2 ^ 8 + c.slot % 64)
      | .args => l.desc.args
      | .recAddr => th.recAddr
      | .flags => num (c.te.toNat * 2 ^ 16 + (if c.ftz then 2 ^ 8 else 0) + th.flags.toNat)
      | .prb => num ((if th.pmode then 2 else 0) + if th.prb then 1 else 0)
      | .cnt => num (cnt .copy 0 + cnt .gath 6 + cnt .arr 12 + cnt .march 18 + cnt .xch 24)
      | .time => num s.clk.ptp
      | .tcause => low th.trap.cause
      | .tpc => th.trap.tpc
      | .tsrc => th.trap.tsrc
      | .tword => th.trap.tword
      | .taddr => th.trap.taddr
      | .tmask => low th.trap.tmask
      | .tstat => num (if th.trap.spmode then 1 else 0)
      | .ts0 => th.trap.ts0
      | .ts1 => th.trap.ts1
      | .ts2 => th.trap.ts2
      | .ts3 => th.trap.ts3
    (Solo s u th p (d.span sr.wide) →
      if sr = .cnt ∨ sr = .time then Does s (exec (.rdsr p d sr) s) (th.owed s (d.span sr.wide) (wordsOfWide sr.wide v) 0 false) id
      else Does s (exec (.rdsr p d sr) s) (if sr.wide then th.setPair d v else th.setReg d (v.setWidth 32)) id) ∧
    (Solo s u th p (b.span sr.wide) →
      let x : DWord := if sr.wide then th.srcD b else (th.srcW b).setWidth 64
      match sr with
      | .flags => Does s (exec (.wrsr p sr b) s)
          { th with flags := th.flags &&& ~~~(x.setWidth 5), pend := th.pend.map fun q => { q with drop := q.drop ||| x.setWidth 5 } } id
      | .prb => Does s (exec (.wrsr p sr b) s) { th with prb := th.prb && !x.getLsbD 0 } id
      | .tpc => Does s (exec (.wrsr p sr b) s) { th with trap := { th.trap with tpc := num (x.toNat / 8 * 8) } } id
      | .tstat => Does s (exec (.wrsr p sr b) s) { th with trap := { th.trap with spmode := x.getLsbD 0 } } id
      | .ts0 => Does s (exec (.wrsr p sr b) s) { th with trap := { th.trap with ts0 := x } } id
      | .ts1 => Does s (exec (.wrsr p sr b) s) { th with trap := { th.trap with ts1 := x } } id
      | .ts2 => Does s (exec (.wrsr p sr b) s) { th with trap := { th.trap with ts2 := x } } id
      | .ts3 => Does s (exec (.wrsr p sr b) s) { th with trap := { th.trap with ts3 := x } } id
      | _ => True)

/-- 14 R350 to R352, R358: trap entry writes the trap registers, ends probe mode and the reservation and goes to TVEC in trap mode, with registers,
predicates, flags, results and counts untouched; `tret` restores probe mode and user mode at sr.tpc, and delivers the next deferred trap there.
That a thread stays in its bundle at `tret` is the model's reading (log 25); the statement says only that no other thread changes. -/
def Obligations.TrapEntryAndReturn : Prop :=
  (∀ (th : Thread) (tvec pc word : DWord) (k : Trap) (len : Nat) (mask : Word),
    let t := th.takeTrap tvec k pc word len mask
    t.trap.cause.toNat = k.info.toNat * 2 ^ 16 + (if k.half then 2 ^ 9 else 0) + k.kind.code.toNat ∧
    t.trap.tpc = (if k.kind = .software ∨ k.kind = .breakpoint ∨ k.kind = .syscall then pc + BitVec.ofNat 64 len else pc) ∧
    t.trap.tsrc = pc ∧ t.trap.tword = word ∧ t.trap.taddr = k.addr ∧ t.trap.tmask = mask ∧ t.trap.spmode = th.pmode ∧
    t.pmode = false ∧ t.resv = none ∧ t.mode = .trap ∧ t.pc = tvec ∧
    t.regs = th.regs ∧ t.preds = th.preds ∧ t.flags = th.flags ∧ t.prb = th.prb ∧ t.pend = th.pend ∧ t.outst = th.outst ∧
    t.deferred = th.deferred ∧ t.due = th.due ∧ t.trap.ts0 = th.trap.ts0 ∧ t.trap.ts1 = th.trap.ts1 ∧ t.trap.ts2 = th.trap.ts2 ∧
    t.trap.ts3 = th.trap.ts3 ∧ t.recAddr = th.recAddr) ∧
  ∀ (s : State) (u : TRef) (th : Thread) (p : Pfx), Solo s u th p [] → th.mode = .trap → p.sw = false →
    (th.due = [] →
      Leaves s u (exec (.tret p) s) { th with pmode := th.trap.spmode, mode := .user, pc := th.trap.tpc } id) ∧
    ∀ q qs, th.due = q :: qs →
      Leaves s u (exec (.tret p) s)
        { th with
          due := qs, pmode := false, mode := .trap, pc := (s.gpu.env u).tvec, resv := none, owes := false, rdfl := none,
          trap := { th.trap with
            cause := BitVec.ofNat 32 (q.info.toNat * 2 ^ 16 + 2 ^ 8 + q.kind.toNat), tpc := th.trap.tpc, tsrc := q.pc, tword := q.word,
            taddr := q.addr, tmask := (1 : Word) <<< u.lane, spmode := th.trap.spmode } } id

/-- 14 R345, R348, R349, R351, R354, R363, 04 R128, 05 R138, R151, R152: a privileged or illegal word, and every word that names a register at or
above REGS, alone or in a run, whatever its guard, trap before any effect; a pending token parks the thread; a trap raised in trap mode fences the context with TRAPFAULT, and every thread of it stops. -/
def Obligations.TrapsBeforeAnyEffect : Prop :=
  (
    ∀ (s : State) (u : TRef) (th : Thread) (p : Pfx), s.members = [u] → s.gpu.thread? u = some th → th.status = .active → Settled s p.sw →
      (th.mode = .user → ∀ (sc : Scope) (d a : Reg) (b : SrcB) (sr : SReg),
        let priv := fun (i : Instr) => Traps s u th (.of .privileged) (exec i s) id
        priv (.tret p) ∧ priv (.tlbinv p sc a) ∧ priv (.tlbinvAll p sc) ∧ priv (.ctxsv p a) ∧ priv (.ctxld p a) ∧ priv (.hltWg p) ∧
        priv (.hltCtx p) ∧ (sr.trapOnly = true → priv (.rdsr p d sr) ∧ priv (.wrsr p sr b)) ∧ (sr.writable = false → priv (.wrsr p sr b))) ∧
      (th.mode = .user →
        (∀ i, overRange (s.gpu.env u).regs (named i) = true → Traps s u th (.of .regRange) (exec i s) id) ∧
        (∀ (b : SrcB) (a : Reg) (len : BitVec 7), 256 < a.toNat + (len.toNat + 3) / 4 →
          Traps s u th (.of .regRange) (exec (.spawn p b a len) s) id) ∧
        ∀ (sw : Bool) (h1 h2 : Half),
          (overRange (s.gpu.env u).regs h1.regs = true → Traps s u th (.of .regRange) (exec (.dualWord sw h1 h2) s) id) ∧
          (overRange (s.gpu.env u).regs h1.regs = false → overRange (s.gpu.env u).regs h2.regs = true →
            Traps s u th ⟨.regRange, 0, 0, true⟩ (exec (.dualWord sw h1 h2) s) id)) ∧
      (∀ (ty : Ty) (sat : Bool) (d a : Reg) (b : SrcB) (r : Reg),
        let used := d :: a :: b.span false
        overRange (s.gpu.env u).regs used = false → th.guards p = true → th.pendingAmong used = some r →
          Waits s u th (exec (.iadd p ty sat d a b) s) (.token r)) ∧
      (p.sw = false → s.gpu.cur.word.getLsbD 63 = false →
        let t : State := s.onGpu Gpu.illegalWord
        (th.mode = .user → th.pmode = false → Traps s u th (.of .illegal) (.next t) id) ∧
        (th.pmode = true → Does s (.next t) { th with prb := true } id))) ∧
  ∀ (s : State) (u : TRef) (th : Thread) (p : Pfx) (code : BitVec 9) (w : Wg) (c : Ctx), Solo s u th p [] → th.mode = .trap →
    s.gpu.wg? u.wg = some w → s.gpu.ctx? w.ctx = some c → (∀ k, c.status ≠ .fenced k) →
    ∀ i, i = Instr.trap p code ∨ i = .brk p code ∨ i = .sysc p code →
      ∃ t, exec i s = .next t ∧ (∃ c', t.gpu.ctx? w.ctx = some c' ∧ c'.status = .fenced 6) ∧
        ∀ v x y, s.gpu.thread? v = some x → s.gpu.wg? v.wg = some y → y.ctx = w.ctx → x.status ≠ .exited →
          ∃ x', t.gpu.thread? v = some x' ∧ x'.status = .stopped

/-- 07 R200, R201, R206, R208, Table 7.1, 04 R93, R107, R121: loads, stores, atomics and reservations take the address, alignment, range,
translation, host-atomic and poison traps of Table 7.1, with their addresses and nothing else changed but the translation looked up.
That an access from memory into the window takes the address fault is the model's reading (log 22). -/
def Obligations.AccessChecksOfTable71 : Prop :=
  (∀ (s : State) (u : TRef) (th : Thread) (p : Pfx) (ch : BitVec 2) (ty : Ty) (vec : Vec) (ord : Ord4) (sc : Scope) (d a : Reg)
    (disp : Disp) (w : Wg) (c : Ctx),
    let size := accSize ty vec
    let addr := th.address a disp
    Solo s u th p (dataRegs d size ++ a.run 2) → th.mode = .user → s.gpu.wg? u.wg = some w → s.gpu.ctx? (s.gpu.env u).ctx = some c →
    let all := fun (k : Trap) =>
      Traps s u th k (exec (.ld p ch ty vec ord sc d a disp) s) id ∧ Traps s u th k (exec (.ldu p ch ty vec d a disp) s) id ∧
      Traps s u th k (exec (.st p ch ty vec ord sc d a disp) s) id
    (0xFF0001000000 ≤ addr.toNat → all (.at .address addr)) ∧
    (addr.toNat < 0xFF0000000000 → 0xFF0000000000 < addr.toNat + size → all (.at .address addr)) ∧
    (∀ off, addr = BitVec.ofNat 64 (0xFF0000000000 + off) → off < 2 ^ 24 →
      (off % size ≠ 0 → all (.at .alignment addr)) ∧ (off % size = 0 → w.scratchLen < off + size → all (.at .scratchRange addr))) ∧
    ∀ va, addr = BitVec.ofNat 64 va → va + size ≤ 0xFF0000000000 →
      (∀ f, (s.gpu.translate (s.gpu.env u).core c .write va).2 = .error f → f.rpl = false →
        Traps s u th ⟨.translation, if f.perm then 5 else 1, addr, false⟩ (exec (.st p ch ty vec ord sc d a disp) s)
          fun g => g.looked u .write va) ∧
      (∀ f, (s.gpu.translate (s.gpu.env u).core c .read va).2 = .error f → f.rpl = false →
        Traps s u th ⟨.translation, if f.perm then 4 else 0, addr, false⟩ (exec (.ld p ch ty vec ord sc d a disp) s)
          fun g => g.looked u .read va) ∧
      ∀ l, Lies s u .read va size l →
        (∀ i, i < size → s.gpu.poisoned (l.phys (va + i)).line = true →
          (∀ j, j < i → s.gpu.poisoned (l.phys (va + j)).line = false) →
          Traps s u th (.at .poison (addr + BitVec.ofNat 64 i)) (exec (.ld p ch ty vec ord sc d a disp) s) fun g => g.looked u .read va)) ∧
  ∀ (s : State) (u : TRef) (th : Thread) (p : Pfx) (ch : BitVec 2) (op : AOp) (ty : Ty) (nr sgn wide q : Bool) (ord : Ord4) (sc : Scope)
    (d a : Reg) (b : SrcB) (w : Wg) (c : Ctx), th.mode = .user → s.gpu.wg? u.wg = some w → s.gpu.ctx? (s.gpu.env u).ctx = some c →
    let addr := th.pair a
    let atom := Instr.atom p ch op ty nr sgn ord sc d a b
    let lr := Instr.lr p ch wide q sc d a
    let cond := Instr.sc p ch wide q sc d a b
    ∀ (i : Instr) (n : Nat), ((i = atom ∧ n = (if ty = .b64 then 8 else 4)) ∨ ((i = lr ∨ i = cond) ∧ n = (if wide then 8 else 4))) →
      (i = atom → ty = .f32 → isAbandoned (th.srcW b) = false) → Solo s u th p (named i) →
      let acc := if i = lr then Access.read else .atomic
      let trap := fun (k : Trap) => Traps s u th k (exec i s) id
      (0xFF0001000000 ≤ addr.toNat → trap (.at .address addr)) ∧
      (∀ off, addr = BitVec.ofNat 64 (0xFF0000000000 + off) → off < 2 ^ 24 →
        (i ≠ atom → trap (.at .address addr)) ∧
        (i = atom → off % n ≠ 0 → trap (.at .alignment addr)) ∧
        (i = atom → off % n = 0 → w.scratchLen < off + n → trap (.at .scratchRange addr))) ∧
      ∀ va, addr = BitVec.ofNat 64 va → va < 0xFF0000000000 →
        (0xFF0000000000 < va + n → trap (.at .address addr)) ∧
        (va + n ≤ 0xFF0000000000 → va % n ≠ 0 → trap (.at .alignment addr)) ∧
        (va + n ≤ 0xFF0000000000 → va % n = 0 →
          let looked := fun (k : Trap) => Traps s u th k (exec i s) fun g => g.looked u acc va
          (∀ f, (s.gpu.translate (s.gpu.env u).core c acc va).2 = .error f → f.rpl = false →
            looked ⟨.translation, (if i = lr then 0 else 2) + (if f.perm then 4 else 0), addr, false⟩) ∧
          ∀ l, Lies s u acc va n l →
            ((∃ k, l.base.sp = .host k) → i ≠ atom → looked (.at .hostAtomic addr)) ∧
            ((∀ k, l.base.sp ≠ .host k) → i ≠ cond → (∃ x ∈ l.span va n, s.gpu.poisoned x.line = true) → looked (.at .poison addr)))

/-- 14 R360, R361, R363: `ctxsv` stores the thread's record and `ctxld` takes a valid one in; what was saved comes back; `hlt` fences the workgroup or
the context with HALTED. -/
def Obligations.StateRecordsAndHalts : Prop :=
  (∀ (s : State) (u : TRef) (th : Thread) (p : Pfx) (a : Reg) (w : Wg) (off : Nat), th.mode = .trap → s.gpu.wg? u.wg = some w →
    let n := (s.gpu.env u).regs
    (Solo s u th p (a.run 2) → th.quiet = true → InScratch s u (th.pair a) off (64 + 4 * n) 64 → NoBarrier s u off (64 + 4 * n) →
      Does s (exec (.ctxsv p a) s) th (fun g => g.putScratch u.wg off (th.record n)) ∧
      let bs := (List.range (64 + 4 * n)).map fun i => s.scratchAt u (off + i)
      (recordOk n bs = true → Does s (exec (.ctxld p a) s) (th.ofRecord n bs) id)) ∧
    (Solo s u th p (a.run 2) → th.quiet = false →
      Waits s u th (exec (.ctxsv p a) s) .quiet ∧ Waits s u th (exec (.ctxld p a) s) .quiet) ∧
    (Solo s u th p [] → w.place ≠ .gone → w.node = none →
      (∃ t v, exec (.hltWg p) s = .next t ∧ t.gpu.wg? u.wg = some v ∧ v.place = .gone ∧ v.endSt = some (7, s.clk.ptp)) ∧
      ∀ c, s.gpu.ctx? w.ctx = some c → (∀ k, c.status ≠ .fenced k) →
        ∃ t c', exec (.hltCtx p) s = .next t ∧ t.gpu.ctx? w.ctx = some c' ∧ c'.status = .fenced 7)) ∧
  ∀ (th x : Thread) (n : Nat), n ≤ 256 → Store.wf 0 x.regs = true →
    recordOk n (th.record n) = true ∧ (th.record n).length = 64 + 4 * n ∧
    let y := x.ofRecord n (th.record n)
    (∀ r : Reg, r.toNat < n → y.reg r = th.reg r) ∧ (∀ r : Reg, n ≤ r.toNat → y.reg r = x.reg r) ∧ y.preds = th.preds ∧ y.prb = th.prb ∧
    y.flags = th.flags ∧ y.trap.spmode = th.trap.spmode ∧ (th.trap.tpc.toNat % 8 = 0 → y.trap.tpc = th.trap.tpc)

/-! ### Events: bundles, results, lines, exits -/

/-- 02 R29, R30, R33, R36: READY threads of one key on different lanes form one bundle, others a bundle each; the active set takes
the first pending bundle, trap mode first, up to 8; a bundle whose timer has reached the bound goes to the tail.
An event as an entry of the agenda is the model's choice (log 1). -/
def Obligations.BundlesFormFillAndRotate : Prop :=
  ∀ (s : State) (core slot : Nat) (u v : TRef) (th th' : Thread) (b : Bundle),
    let made := fun (t : TRef) (x : Thread) (ms : List TRef) (order : Nat) =>
      ({ members := ms, launch := s.gpu.launchOf t, mode := x.mode, pc := x.pc, entry := true, order := order, issued := 0, timer := 0 } : Bundle)
    let here := fun (t : TRef) => s.gpu.coreOf t = core ∧ s.gpu.started t.wg = true
    let status := fun (t : State) (w : TStatus) => ∀ m x, s.gpu.thread? m = some x →
      t.gpu.thread? m = some (if m ∈ b.members then { x with status := w } else x)
    (s.clk.cyc % 4 = 0 → (s.gpu.core core).pending = [] →
      (s.gpu.threads = [(u, th), (v, th')] → th.status = .ready → th'.status = .ready → u.lane < v.lane → here u → here v →
        ∃ t, exec (.bundleFormation core) s = .next t ∧ t.gpu.threads = s.gpu.threads ∧
          (t.gpu.core core).pending =
            if s.gpu.bundleKey u th = s.gpu.bundleKey v th' then [made u th [u, v] s.gpu.nextId]
            else [made u th [u] s.gpu.nextId, made v th' [v] (s.gpu.nextId + 1)]) ∧
      (s.gpu.threads = [(u, th)] → th.status = .parked .clear → th.owes = false → here u →
        ∃ t, exec (.bundleFormation core) s = .next t ∧ t.gpu.threads = [(u, { th with status := .ready })] ∧
          (t.gpu.core core).pending = [made u th [u] s.gpu.nextId])) ∧
    (b ∈ (s.gpu.core core).pending →
      (∀ x ∈ (s.gpu.core core).pending, x ≠ b →
        x.order ≠ b.order ∧ ((b.mode = .trap ∧ x.mode = .user) ∨ (b.mode = x.mode ∧ b.order < x.order))) →
      ∃ t, exec (.activeSetFill core) s = .next t ∧
        if (s.gpu.core core).active.length < 8 then
          (t.gpu.core core).active = (s.gpu.core core).active ++ [{ b with entry := false, timer := 0 }] ∧
          (t.gpu.core core).pending = (s.gpu.core core).pending.filter (fun x => x ≠ b) ∧ status t .active
        else t.gpu.core core = s.gpu.core core ∧ t.gpu.threads = s.gpu.threads) ∧
    ((s.gpu.core core).active[slot]? = some b →
      ∃ t, exec (.fairnessRotation core slot) s = .next t ∧
        if 2048 ≤ b.timer then
          (t.gpu.core core).active = (s.gpu.core core).active.erase b ∧
          (t.gpu.core core).pending = (s.gpu.core core).pending ++ [{ b with entry := false, order := s.gpu.nextId, timer := 0 }] ∧
          status t .ready
        else t.gpu.core core = s.gpu.core core ∧ t.gpu.threads = s.gpu.threads)

/-- 05 R147, 04 R125, R128, 07 R219, 08 R234, R264, 09 R289, R304: a result whose value is known is written with its flags; the
oldest operation of a class retires when it is done; tokens are written in the registers that wait for them; a copy, an array
operation and a state of an engine program complete; a march ends, or suspends its ray, with its words; a submission goes on pixel by pixel,
spawns or parks each fragment that is covered, and ends after its triangles.
Events as entries of the agenda, and when a copy writes its bytes, are the model's choices (logs 1, 15); that a state of opcode 1 counts nothing
but its counter is its reading (log 27). -/
def Obligations.ResultsReturnAndOperationsRetire : Prop :=
  ∀ (s : State) (u : TRef) (th : Thread) (id core : Nat) (o : Op) (w : Wg),
    let others := fun (t : State) => ∀ v, v ≠ u → t.gpu.thread? v = s.gpu.thread? v
    let landed := fun (q : Pending) (vs : List Word) => ({ th with pend := th.pend.filter fun x => x.id != id } : Thread).putRegs q.regs vs
    let done := th.outst.map fun x => if x.id = id then { x with done := true } else x
    let at_ := fun (off : Nat) => BitVec.ofNat 64 (0xFF0000000000 + off)
    s.gpu.thread? u = some th → (∀ x ∈ s.gpu.threads, x.1 = u → ∀ p, x.2.status ≠ .parked p) →
    (∀ x ∈ s.gpu.threads, ∀ ids, x.2.status ≠ .parked (.rendezvous ids)) →
    (∀ q vs, th.pend.find? (fun q => q.id == id) = some q → q.vals = some vs → q.xch = false → fpeTraps (s.gpu.env u) th q.flags = false →
      ∃ t, exec (.resultReturn u id) s = .next t ∧ others t ∧
        t.gpu.thread? u = some { landed q vs with flags := th.flags ||| (q.flags &&& ~~~q.drop) }) ∧
    (∀ c h, th.outst.find? (fun o => o.cls == c) = some h → h.done = true → s.gpu.faulted h.id = false → s.gpu.unacked h.id = false →
      (∀ p, s.gpu.op? h.id = some p → ∃ k es d, p.kind = .gth k es d) →
      ∃ t, exec (.asyncRetire u c) s = .next t ∧ others t ∧ t.gpu.thread? u = some { th with outst := th.outst.eraseP fun o => o.cls == c }) ∧
    (s.gpu.op? id = some o → o.owner = u → o.owners = [u] → o.core = core → o.done = false → o.sent = false → s.gpu.faulted id = false →
      s.gpu.unacked id = false → (s.gpu.core core).seqA = none → (s.gpu.core core).seqC = none → s.gpu.wg? u.wg = some w → w.tbars = [] →
      (∀ q, th.pend.find? (fun q => q.id == id) = some q → q.xch = false → q.flags = 0 →
        (∀ (d : Reg) (offs : List Nat), o.kind = .gth false (offs.map at_) d → (∀ off ∈ offs, off < 2 ^ 24) →
          (∀ q ∈ s.gpu.ops, q.inst = o.inst → o.id ≤ q.id) →
          ∃ t, exec (.tokenWrite id) s = .next t ∧
            t.gpu.thread? u = some { landed q (offs.flatMap fun off => loaded .b32 4 fun i => w.scratch.byte (off + i)) with outst := done }) ∧
        (∀ r k ws, o.kind = .mqry r k → o.result = some [(u, ws)] →
          ∃ t, exec (.tokenWrite id) s = .next t ∧ t.gpu.thread? u = some { landed q ws with outst := done }) ∧
        (∀ k m, o.kind = .mres k m none → o.cls = some .march →
          ∃ t, exec (.marchComplete id) s = .next t ∧ t.gpu.op? id = none ∧
            t.gpu.thread? u = some ((landed q [6, 0, 0, 0xFFFFFFFF]).finishOp .march id) ∧
            ∀ r ∈ t.gpu.rays, ¬(r.owner = u ∧ r.slot = k)) ∧
        (o.cls = some .march →
          let freed := fun (k : Nat) (t : State) => ∀ r ∈ t.gpu.rays, ¬(r.owner = u ∧ r.slot = k)
          let ends := fun (ws : List Word) (ray : State → Prop) => ∃ t, exec (.marchComplete id) s = .next t ∧ t.gpu.op? id = none ∧
            t.gpu.thread? u = some ((landed q ws).finishOp .march id) ∧ ray t
          let ran := fun (k : Nat) (m : RD MEnd) => ∀ g r l, s.dev.runRd o m = .out g r l → l.poison = none →
            match r with
            | .ok (.ended ws) => ends ws (freed k)
            | .ok (.susp node a b ident m) => ends [BitVec.ofNat 32 (3 + 16 * k + 65536 * node), a, b, ident] fun t =>
                ∀ r ∈ t.gpu.rays, r.owner = u → r.slot = k → r.susp = some m
            | .error n => ends [BitVec.ofNat 32 (5 + 65536 * n), 0, 0, 0xFFFFFFFF] (freed k)
          (∀ aff ray desc k, o.kind = .march aff ray desc k →
            ((∃ x ∈ ray, (fv x).isNan = true) ∨ (fv (ray.getD 7 0)).lt (fv (ray.getD 6 0)) = true →
              ends [0, ray.getD 7 0, 0, 0xFFFFFFFF] (freed k)) ∧
            ran k (marchFrom (s.dev.reader o) aff ray desc)) ∧
          ∀ k m v, o.kind = .mres k m (some v) → ran k (m.resume (s.dev.reader o) v.1 v.2)) ∧
        (∀ d tri y x n, o.kind = .rsub d tri y x n → o.cls = some .march → d.ntri ≤ tri → s.gpu.behind o = false →
          (∀ l ∈ s.gpu.launches, ∀ k ∈ l.parked, k.op ≠ some id) →
          ∃ t, exec (.rasterFragment id) s = .next t ∧ t.gpu.op? id = none ∧
            t.gpu.thread? u = some ((landed q [BitVec.ofNat 32 (min n (2 ^ 28 - 1))]).finishOp .march id))) ∧
      (∀ d tri y x n off, o.kind = .rsub d tri y x n → tri < d.ntri → s.gpu.behind o = false →
        (∀ l ∈ s.gpu.launches, ∀ k ∈ l.parked, k.op ≠ some id) → (s.gpu.launch? w.launch).isSome = true → (s.gpu.ctx? w.ctx).isSome = true →
        d.vert = at_ off → off % 16 = 0 → off + 48 * d.ntri ≤ w.scratchLen → w.scratchLen ≤ 2 ^ 24 →
        let word := fun (k : Nat) => (leWord ((List.range 4).map fun i => w.scratch.byte (off + 48 * tri + k + i))).setWidth 32
        let vs : List (Word × Word × Word) := (List.range 3).map fun i => (word (16 * i), word (16 * i + 4), word (16 * i + 8))
        let at' := fun (py px : Nat) => px < d.x1 ∧ py < d.y1 ∧ ((y < py ∧ d.x0 ≤ px) ∨ (y = py ∧ x ≤ px))
        let onto := fun (t : State) (tri y x n : Nat) => ∃ p, t.gpu.op? id = some p ∧ p.kind = .rsub d tri y x n
        ((∀ a ps, triArea d vs = some (a, ps) → ∀ py px, at' py px → covers a ps px py = false) →
          ∃ t, exec (.rasterFragment id) s = .next t ∧ onto t (tri + 1) d.y0 d.x0 n ∧ t.gpu.threads = s.gpu.threads) ∧
        ∀ a ps py px, triArea d vs = some (a, ps) → at' py px → covers a ps px py = true →
          (∀ j i, at' j i → (j < py ∨ (j = py ∧ i < px)) → covers a ps i j = false) → d.dmode = 0 →
          let b := baryAt a ps px py
          let spawn : PSpawn := { t := u, op := some id, node := d.node, len := 24,
                                  data := fragPayload px py (fragZ b (word 8) (word 24) (word 40)) tri b d.tag }
          let g := s.dev.rasterAt id tri py (px + 1)
          (∀ h, g.trySpawn spawn = some h →
            exec (.rasterFragment id) s = .next { s with gpu := h.spawnServed spawn } ∧
            onto { s with gpu := h.spawnServed spawn } tri py (px + 1) (n + 1)) ∧
          (g.trySpawn spawn = none → ∃ t l, exec (.rasterFragment id) s = .next t ∧ onto t tri py (px + 1) n ∧
            t.gpu.launch? w.launch = some l ∧ spawn ∈ l.parked)) ∧
      (∀ c n src dst v, o.kind = .copy c → o.cls = some .copy → c.shape = .rows n 1 0 0 → c.tb = none → c.src = at_ src → c.dst = at_ dst →
        src < 2 ^ 24 → dst < 2 ^ 24 → s.gpu.wg? c.dwg = some v → v.tbars = [] → o.moved = 0 →
        ∃ t, exec (.copyRetire id) s = .next t ∧ t.gpu.op? id = none ∧ t.gpu.thread? u = some (th.finishOp .copy id) ∧
          t.gpu.wg? c.dwg = some { v with scratch := v.scratch.setBytes dst ((List.range n).map fun i => w.scratch.byte (src + i)) }) ∧
      (∀ tile rest, o.kind = .arr (.zero tile) → (s.gpu.core core).arrq = id :: rest → Store.wf 0 w.tiles = true →
        ∃ t v, exec (.arrayOpRetire core) s = .next t ∧ t.gpu.op? id = none ∧ (t.gpu.core core).arrq = rest ∧ t.gpu.wg? u.wg = some v ∧
          ∀ i j, i < 16 → j < 16 → v.elem tile i j = 0) ∧
      (∀ tall clr sparse tile t2 rows off fmt f, o.kind = .arr (.mma false tall clr sparse tile t2 rows off fmt) → fmwOf fmt = some f →
        (s.gpu.core core).arrq.head? = some id → Store.wf 0 w.tiles = true → tile ∈ w.tmap →
        ∃ t v, exec (.arrayOpRetire core) s = .next t ∧ t.gpu.op? id = none ∧ t.gpu.wg? u.wg = some v ∧
          ∀ i j, i < 16 → j < 16 →
            some (v.elem tile i j) = ((mmaTile f (s.gpu.env u).ftz clr sparse false w tile rows off)[16 * i + j]?).map CellRes.res)) ∧
    (∀ k q e, (s.gpu.core core).seq k = some q → s.gpu.wg? q.wg = some w → q.tab[q.idx]? = some e → q.ended = false → q.ops = [] →
      s.gpu.faulted q.fork = false → ((w.teams[q.team]?.bind Team.fork).bind ForkSt.fault) = none → e.wait = false → e.post = false →
      (e.op = 0 → ∃ t, exec (.engineStateStep core k) s = .next t ∧ (t.gpu.core core).seq k = none ∧ t.gpu.op? q.fork = none) ∧
      (e.op = 1 →
        let c := if e.inc then q.ctrs.set e.incC ((q.ctrs.getD e.incC 0 + 1) % 2 ^ 32) else q.ctrs
        ∃ t, exec (.engineStateStep core k) s = .next t ∧ (t.gpu.core core).seq k =
          some { q with ctrs := c, idx := if e.loop = true ∧ c.getD e.loopC 0 < (q.limits.getD e.loopC 0).toNat then e.jmp else e.next }))

/-- 04 R100, R106, R109, R122, 07 R211, 14 R359, 16 R404 to R406: reservations end, L1 lines are dropped or written back,
a FIFO's oldest store is performed, an invalidation ends, and compressed lines leave L2 by a write-back that loses nothing.
Events as entries of the agenda are the model's choice (log 1); the spec lets lines age at any time up to its bounds (log 17). -/
def Obligations.LinesStoresAndReservationsAge : Prop :=
  ∀ (s : State) (u : TRef) (th : Thread) (core line part ridx a : Nat) (l : L1Line) (e : FifoEntry) (x : L2Line) (g : Gpu),
    (∀ r, s.gpu.thread? u = some th → th.resv = some r →
      ∃ t, exec (.reservationTimeout u) s = .next t ∧
        t.gpu.thread? u = some (if r.at_ + 4096 ≤ s.clk.cyc then { th with resv := none } else th)) ∧
    (∃ t, exec (.l1LineExpiry core line) s = .next t ∧ (∀ k ∈ (t.gpu.core core).l1, k.key.idx ≠ line) ∧
      (∀ k ∈ (s.gpu.core core).l1, k.key.idx ≠ line → k ∈ (t.gpu.core core).l1) ∧
      ((∀ k ∈ (s.gpu.core core).l1, k.key.idx = line → k.dirty = 0) → t.gpu.mem = s.gpu.mem)) ∧
    ((s.gpu.core core).l1 = [l] → l.key = ⟨.dev, line⟩ → l.dirty ≠ 0 → l.bad = false → s.gpu.poisoned l.key = false →
      s.gpu.noWay l.key = false → Store.wf none s.gpu.mem.l2dev = true →
      ∃ t, exec (.l1Writeback core line) s = .next t ∧ (t.gpu.core core).l1 = [{ l with dirty := 0, res := false }] ∧
        ∀ i, i < 128 → t.gpu.mem.devByte (128 * line + i) =
          if l.dirty.getLsbD i then lineByte l.data i else s.gpu.mem.devByte (128 * line + i)) ∧
    (s.gpu.cores.find? (fun c => c.2.fifo.any fun k => k.t == u) = some (core, s.gpu.core core) →
      (s.gpu.core core).fifo.find? (fun k => k.t == u) = some e →
      (∀ k ∈ (s.gpu.core core).fifo, ∀ y ∈ k.cells, s.gpu.noWay y.1.line = false) →
      ∃ t, exec (.storeFifoDrain u) s = .next t ∧
        ((∀ k ∈ (s.gpu.core core).fifo, k.t ≠ u → k.inst ≠ e.inst) →
          (t.gpu.core core).fifo = (s.gpu.core core).fifo.eraseP (fun k => k.t == u) ∧
          ∀ b, e.cells = [(⟨.dev, a⟩, b)] → e.attr.cache = 1 → s.gpu.poisoned ⟨.dev, a / 128⟩ = false →
            Store.wf none s.gpu.mem.l2dev = true →
            ∀ k, t.gpu.mem.devByte k = if k = a then b else s.gpu.mem.devByte k) ∧
        ∀ k, (s.gpu.core core).fifo = [k, e] → k.inst = e.inst → (t.gpu.core core).fifo = []) ∧
    (∀ sc asid page, s.gpu.thread? u = some th → th.status = .parked (.inval sc asid page) →
      ∃ t r, exec (.invalidationComplete u) s = .next t ∧
        t.gpu.thread? u = some (
          if (asid.any fun k => s.gpu.ops.any fun o => inScope sc (s.gpu.coreOf u) o.core && s.gpu.holdsPage o k page) = true then th
          else { th with status := .parked .clear, resv := r })) ∧
    (s.gpu.mem.l2.find? (fun k => k.part == part && k.pin.isNone && k.key == ⟨.comp part, 512 * ridx + line⟩) = some x →
      (∀ l ∈ s.gpu.launches, l.fin = none) → s.dev.nextPin part = none → s.dev.tryWriteback x = some g →
      ∃ t, exec (.lineWritebackCompressed part ridx line) s = .next t ∧ t.gpu.mem = { g.mem with fills := t.gpu.mem.fills } ∧
        ∀ k ∈ t.gpu.mem.l2, k.key ≠ x.key) ∧
    ((∀ l ∈ s.gpu.launches, l.fin = none) → s.dev.nextPin part = some x →
      ∃ t, exec (.pinWriteback part) s = .next t ∧ t.gpu.mem.l2 = s.gpu.mem.l2.filter (fun k => k.key != x.key)) ∧
    ∀ d : Line, decodeLine (chooseTag (lineBytes d)) (encodeLine (lineBytes d) (chooseTag (lineBytes d))) = lineBytes d

/-- 02 R28, R51, R56, R62, 08 R260, R261: an exit is counted, a deferred trap first, and the last one finishes the workgroup; a
partial batch launches when its time is up; a gang's report is written; a workgroup over its budget is fenced OVERRUN; a deadline
launch's request is granted from now on, and a grant ends at its time.
Events as entries of the agenda are the model's choice (log 1); that a deadline launch's request can always be granted (log 28), and that a
deferred trap other than the floating-point one fences the context at an exit in trap mode (log 21), are read from the rules. -/
def Obligations.ExitsBatchesBudgetsAndGrants : Prop :=
  ∀ (s : State) (u : TRef) (th : Thread) (w : Wg) (l : Launch) (n : Nat) (r : LeaveReq),
    (s.gpu.thread? u = some th → th.status = .exiting → s.gpu.started u.wg = true → th.pend = [] → th.outst = [] → s.gpu.fifoEmpty (s.gpu.coreOf u) u = true →
      (∀ l ∈ s.gpu.launches, ∀ k ∈ l.parked, k.t ≠ u) →
      (th.due = [] → th.deferred = [] →
        ∃ t th', exec (.exitCount u) s = .next t ∧ t.gpu.thread? u = some th' ∧ th'.status = .exited ∧
          ((∀ x ∈ s.gpu.threads, x.1.wg = u.wg → x.1 ≠ u → x.2.status = .exited) → s.gpu.wg? u.wg = some w → w.place ≠ .gone →
            ∃ w', t.gpu.wg? u.wg = some w' ∧ w'.place = .gone ∧ w'.endSt = some (0, s.clk.ptp))) ∧
      (th.due ++ th.deferred ≠ [] → th.mode = .user →
        ∃ t, exec (.exitCount u) s = .next t ∧ t.gpu.thread? u = some (th.deliver (s.gpu.env u).tvec u.lane)) ∧
      (∀ c, th.mode = .trap → (∃ d ∈ th.due ++ th.deferred, d.kind ≠ TrapKind.fpe.code) → s.gpu.wg? u.wg = some w →
        s.gpu.ctx? w.ctx = some c → (∀ k, c.status ≠ .fenced k) →
        ∃ t c', exec (.exitCount u) s = .next t ∧ t.gpu.ctx? w.ctx = some c' ∧ c'.status = .fenced 6)) ∧
    (∀ nd, s.gpu.launch? l.id = some l → s.gpu.launchSaved l = false → l.nodes[n]? = some nd → nd.timeout ≠ 0 →
      (l.pack n).recs ≠ [] → (l.pack n).since + 256 * nd.timeout ≤ s.clk.cyc →
      ∃ t l', exec (.batchTimeout l.id n) s = .next t ∧ t.gpu.launch? l.id = some l' ∧ (l'.pack n).recs = [] ∧
        (l.queue ++ [(n, (l.pack n).nextNo, (l.pack n).recs)]) <+: l'.queue) ∧
    (∀ x, s.gpu.launch? l.id = some l → l.nextReport = some x → s.gpu.dirtyWait = false →
      ∃ t l', exec (.gangReportWrite l.id) s = .next t ∧ t.gpu.launch? l.id = some l' ∧ ∀ y ∈ l'.gangs, y.idx = x.idx → y.written = true) ∧
    (∀ since, s.gpu.wg? w.id = some w → w.core?.isSome = true → w.time.since = some since →
      w.time.budget ≤ w.time.used + (s.clk.cyc - since) →
      ∃ t w', exec (.budgetOverrun w.id) s = .next t ∧ t.gpu.wg? w.id = some w' ∧ w'.place = .gone ∧ w'.endSt = some (4, s.clk.ptp) ∧
        ∀ v x, t.gpu.thread? v = some x → v.wg = w.id → x.status = .exited ∨ x.status = .stopped) ∧
    (s.gpu.gov.reqs.find? (fun x => x.id == r.id) = some r → s.gpu.wg? r.wg = some w → w.core?.isSome = true →
      s.gpu.launch? w.launch = some l → l.desc.deadline.isSome = true →
      ∃ t, exec (.leaveGrant r.id) s = .next t ∧ (∀ x ∈ t.gpu.gov.reqs, x.id ≠ r.id) ∧
        t.gpu.wg? r.wg = some (w.modTeam r.team fun x =>
          { x with grant := some { cls := r.cls, till := s.clk.cyc + 4000 * r.dur, id := s.gpu.nextId } }) ∧
        ∀ id o q, r.op = some id → s.gpu.op? id = some o → o.owners = [u] → s.gpu.thread? u = some th →
          th.pend.find? (fun x => x.id == id) = some q →
          ∃ th', t.gpu.thread? u = some th' ∧ (∀ x ∈ th'.pend, x.id ≠ id) ∧
            th'.regs = (th.putRegs q.regs [BitVec.ofNat 32 (2 ^ 31 + r.cls % 8 * 2 ^ 28 + r.dur % 2 ^ 16)]).regs) ∧
    (∀ team tm k, s.gpu.wg? w.id = some w → w.teams[team]? = some tm → tm.grant = some k →
      ∃ t w', exec (.grantExpiry w.id team) s = .next t ∧ t.gpu.wg? w.id = some w' ∧
        w'.teams[team]? = some (if k.till ≤ s.clk.cyc then { tm with grant := none } else tm))

/-! ### Events: placement -/

/-- 02 R26, R27, R49, 15 R374, R379 to R383: a root workgroup starts on a core that it fits, with all its threads READY at the tier's
ENTRY; a reservation whose window has come runs, and best-effort work leaves its cores; a workgroup that may move goes to the new core,
which the old one remembers, with those that a PAIRADJ gang binds to its pair; and a pre-empted one leaves its core.
Events as entries of the agenda are the model's choice (log 1), and so is the core of a best-effort workgroup (log 42); which workgroups move
together, each to its side of a pair, and when reservations start, are read from the rules (log 105). -/
def Obligations.WorkgroupsArePlacedAndMoved : Prop :=
  ∀ (s : State) (l : Launch) (w : Wg) (core idx : Nat), s.gpu.launch? l.id = some l →
    let idle := fun (v : Wg) => (∀ o ∈ s.gpu.ops, o.owner.wg ≠ v.id) ∧
      (∀ x ∈ s.gpu.threads, x.1.wg = v.id → s.gpu.owesAck x.1 = false ∧ s.gpu.releaseWait (s.gpu.coreOf x.1) x.1 .sys = none) ∧
      ∀ c ∈ s.gpu.cores, ∀ e ∈ c.2.fifo, e.t.wg = v.id → ∀ y ∈ e.cells, ∀ k ep, y.1.sp ≠ .peer k ep
    let seen := fun (x : TRef × Thread) => (x.1, { x.2.data with resv := none })
    let start := Thread.start (l.desc.tiers.getD l.tier ⟨0, 1⟩).entry 0
    (l.gangs = [] → l.queue = [] → s.gpu.savedWg l = none → l.waiting.head? = some idx → s.dev.fitsItem l (.root idx) core = true →
      (∀ k ∈ s.gpu.launches, k.before l = true → s.dev.autoSpot k = none) →
      let e := l.desc.tiers.getD l.tier ⟨0, 1⟩
      ∃ t x l', exec (.workgroupPlace l.id (.root idx) core) s = .next t ∧
        t.gpu.threads.map seen = s.gpu.threads.map seen ++ (List.range l.desc.wgsize).map (fun i => seen (⟨s.gpu.nextId, i⟩, start)) ∧
        ((∀ y ∈ s.gpu.threads, y.1.wg ≠ s.gpu.nextId) → ∀ i, i < l.desc.wgsize → t.gpu.thread? ⟨s.gpu.nextId, i⟩ = some start) ∧
        t.gpu.launch? l.id = some l' ∧ l'.waiting = l.waiting.erase idx ∧ l'.status = .running ∧
        x ∈ t.gpu.wgs ∧ x.id = s.gpu.nextId ∧ x.launch = l.id ∧ x.ctx = l.ctx ∧ x.node = none ∧ x.index = idx ∧ x.size = l.desc.wgsize ∧
        x.regs = l.desc.regs ∧ x.place = .core core ∧ x.scratchLen = l.desc.scratch ∧ x.scratch = [] ∧ x.tiles = [] ∧
        x.tmap = List.range l.desc.tiles ∧ x.time.since = some s.clk.cyc ∧ (l.desc.deadline = none → x.time.budget = e.budget) ∧
        (∀ b ∈ x.bars, b.e = l.desc.wgsize ∧ b.a = 0 ∧ b.phase = false) ∧
        (t.gpu.core core).split = l.desc.split ∧ (t.gpu.core core).brick = l.desc.brick) ∧
    (∀ a, l.status = .reserved → l.desc.deadline.isSome = true → l.alloc = some a → a.start ≤ s.clk.cyc →
      (∀ k ∈ s.gpu.launches, k.id ≠ l.id → k.status = .running → ∀ b, k.alloc = some b → ∀ c ∈ a.cores, c ∉ b.cores) →
      (l.queue = [] → s.gpu.savedWg l = none → (∀ v ∈ s.gpu.wgs, ∀ c, v.place = .core c → c ∉ a.cores) →
        ∃ t l', exec (.reservationStart l.id) s = .next t ∧ t.gpu.launch? l.id = some l' ∧ l'.status = .running) ∧
      ∀ k c, s.gpu.wg? w.id = some w → w.node.isSome = true → w.place = .core c → c ∈ a.cores → s.gpu.launch? w.launch = some k →
        k.desc.deadline = none → s.gpu.ops = [] → idle w →
        ∃ t x, exec (.reservationStart l.id) s = .next t ∧ t.gpu.wg? w.id = some x ∧ x.core? = none) ∧
    (∀ old, s.gpu.wg? w.id = some w → w.launch = l.id → w.place = .core old →
      let ms := s.dev.movers l w
      let dest := fun (v : Wg) => if l.paired w then core / 2 * 2 + (v.core?.getD 0) % 2 else core
      (if l.paired w = true then core / 2 ≠ old / 2 ∧ core % 2 = old % 2 else core ≠ old) → (∀ v ∈ ms, idle v ∧ s.gpu.wg? v.id = some v) →
      s.dev.mayMigrate l ms dest = true → (s.dev.without (ms.map Wg.id)).allTake l (ms.map fun v => (v, dest v)) = true →
      s.dev.fwdFree ms = true →
      ∃ t, exec (.migration w.id core) s = .next t ∧ (ms = [w] → (w.id, s.gpu.nextId) ∈ (t.gpu.core old).fwd) ∧
        ∀ v ∈ ms, (∃ x, t.gpu.wg? v.id = some x ∧ x.place = .core (dest v)) ∧
          ∀ u th, s.gpu.thread? u = some th → u.wg = v.id → th.pend = [] →
            ∃ th', t.gpu.thread? u = some th' ∧ th'.regs = th.regs ∧ th'.preds = th.preds ∧ th'.pc = th.pc) ∧
    (s.gpu.wg? w.id = some w → w.node.isSome = true → l.desc.deadline = none → s.dev.mayPlace l = true → (s.dev.nextItem l).isSome = true →
      s.dev.autoSpot l = none → w ∈ s.dev.victims l → (∀ v ∈ s.dev.victims l, v.time.placed ≤ w.time.placed) → idle w →
      ∃ t x, exec (.preemption l.id w.id) s = .next t ∧ t.gpu.wg? w.id = some x ∧ x.core? = none)

/-! ### Events: the host -/

/-- 17 R408, R410 to R413, R417, Table 17.1: what a write to BAR 0 does, and what a read gives; an entry with the expected HSEQ is accepted, one with another
stops the ring with an event; the oldest completion entry and the oldest unwritten fault record go into free slots.
Events as entries of the agenda are the model's choice (log 1); that a base is used as written, aligned or not, is its reading (log 43). -/
def Obligations.RingsAndRegisters : Prop :=
  ∀ (s : State) (part off : Nat) (v : Word) (p : Part), s.gpu.part? part = some p →
    let b := p.bar
    let n := 2 ^ (b.sqcfg.toNat % 32)
    let m := 2 ^ (b.cqcfg.toNat % 32)
    let f := 2 ^ (b.fqcfg.toNat % 32)
    let hp : Nat → Phys := fun a => ⟨.host p.entry.port, a⟩
    let healthy := fun (a k : Nat) => Store.wf (0 : Byte) s.gpu.mem.host0 = true ∧ Store.wf (0 : Byte) s.gpu.mem.host1 = true ∧
      ∀ i, i < k → s.gpu.poisoned (hp (a + i)).line = false
    (∃ t, exec (.resync part v) s = .next t ∧ t.gpu.part? part = some { p with expect := v, bar := { b with stopped := false } }) ∧
    (∃ t q, exec (.bar0RegisterWrite part off v) s = .next t ∧ t.gpu.part? part = some q ∧
      let cfg := fun (old : Word) =>
        if old.getLsbD 31 then old
        else BitVec.ofNat 32 (v.toNat % 32 + (if v.getLsbD 31 = true ∧ 6 ≤ v.toNat % 32 ∧ v.toNat % 32 ≤ 16 then 2 ^ 31 else 0))
      q.bar.sqbase = (if b.sqcfg.getLsbD 31 then b.sqbase
        else if off = 0 then b.sqbase.extractLsb' 32 32 ++ v else if off = 4 then v ++ b.sqbase.extractLsb' 0 32 else b.sqbase) ∧
      q.bar.cqbase = (if b.cqcfg.getLsbD 31 then b.cqbase
        else if off = 0x18 then b.cqbase.extractLsb' 32 32 ++ v else if off = 0x1C then v ++ b.cqbase.extractLsb' 0 32 else b.cqbase) ∧
      q.bar.fqbase = (if b.fqcfg.getLsbD 31 then b.fqbase
        else if off = 0x30 then b.fqbase.extractLsb' 32 32 ++ v else if off = 0x34 then v ++ b.fqbase.extractLsb' 0 32 else b.fqbase) ∧
      q.bar.sqcfg = (if off = 8 then cfg b.sqcfg else b.sqcfg) ∧ q.bar.cqcfg = (if off = 0x20 then cfg b.cqcfg else b.cqcfg) ∧
      q.bar.fqcfg = (if off = 0x38 then cfg b.fqcfg else b.fqcfg) ∧
      q.bar.sqtail = (if off = 0x10 then v else b.sqtail) ∧ q.bar.cqhead = (if off = 0x28 then v else b.cqhead) ∧
      q.bar.fqhead = (if off = 0x3C then v else b.fqhead) ∧
      q.expect = (if off = 0x54 then v
        else if off = 8 ∧ (cfg b.sqcfg).getLsbD 31 = true ∧ b.sqcfg.getLsbD 31 = false then 0 else p.expect) ∧
      q.bar.sqhead = b.sqhead ∧ q.bar.cqtail = b.cqtail ∧ q.bar.fqtail = b.fqtail ∧ q.bar.acchseq = b.acchseq ∧
      q.bar.openhseq = b.openhseq ∧ q.bar.lastdseq = b.lastdseq ∧ q.bar.stopped = (if off = 0x54 then false else b.stopped) ∧
      (off = 0x10 ∨ off = 0x28 ∨ off = 0x3C → t.readBar part off = v) ∧ t.readBar part 0x54 = 0) ∧
    (s.readBar part 4 ++ s.readBar part 0 = b.sqbase ∧ s.readBar part 8 = b.sqcfg ∧ s.readBar part 0x14 = b.sqhead ∧
      s.readBar part 0x1C ++ s.readBar part 0x18 = b.cqbase ∧ s.readBar part 0x2C = b.cqtail ∧
      s.readBar part 0x34 ++ s.readBar part 0x30 = b.fqbase ∧ s.readBar part 0x40 = b.fqtail ∧ s.readBar part 0x48 = b.acchseq ∧
      s.readBar part 0x4C = b.openhseq ∧ s.readBar part 0x50 = b.lastdseq ∧
      (s.readBar part 0x58).toNat = 2 * (s.clk.servo % 4) + (if b.stopped then 1 else 0) ∧ (0x58 < off → s.readBar part off = 0)) ∧
    (b.sqcfg.getLsbD 31 = true → b.stopped = false → b.sqhead.toNat % n ≠ b.sqtail.toNat % n →
      let h := s.gpu.hostBytes p.entry.port (b.sqbase.toNat + 64 * (b.sqhead.toNat % n)) 64
      (field h 0 4 ≠ p.expect.toNat →
        ∃ t q, exec (.submissionEntry part) s = .next t ∧ t.gpu.part? part = some q ∧ q.bar.stopped = true ∧ q.cmds = p.cmds ∧
          q.expect = p.expect ∧ q.outbox = p.outbox ++ [complAt s 0 0 1 2 0 0 (BitVec.ofNat 64 (p.expect.toNat + 2 ^ 32 * field h 0 4))]) ∧
      (field h 0 4 = p.expect.toNat → s.gpu.deadlineEntry part h = false → badEntry h = false →
        (∀ y ∈ p.cmds, y.hseq ≠ p.expect.toNat) →
        ∃ t q c, exec (.submissionEntry part) s = .next t ∧ t.gpu.part? part = some q ∧ q.expect = p.expect + 1 ∧
          q.bar.acchseq = p.expect ∧ q.bar.sqhead = BitVec.ofNat 32 ((b.sqhead.toNat + 1) % n) ∧
          c ∈ q.cmds ∧ c.hseq = p.expect.toNat ∧ c.cmd = field h 4 2 ∧ c.ctx = field h 6 1 ∧ c.args = h.drop 16 ∧ c.answered = false)) ∧
    (∀ c cs, p.outbox = c :: cs → b.cqcfg.getLsbD 31 = true → (b.cqtail.toNat + 1) % m ≠ b.cqhead.toNat % m →
      let a := b.cqbase.toNat + 32 * (b.cqtail.toNat % m)
      ∃ t q, exec (.completionWrite part) s = .next t ∧ t.gpu.part? part = some q ∧ q.outbox = cs ∧ q.dseq = p.dseq + 1 ∧
        q.bar.lastdseq = p.dseq ∧ q.bar.cqtail = BitVec.ofNat 32 ((b.cqtail.toNat + 1) % m) ∧
        (healthy a 32 → ∀ i, i < 32 → some (t.gpu.homeByte (hp (a + i))) = (c.bytes p.dseq)[i]?)) ∧
    (∀ r, p.faults.find? (fun r => !r.written) = some r → b.fqcfg.getLsbD 31 = true → (b.fqtail.toNat + 1) % f ≠ b.fqhead.toNat % f →
      let a := b.fqbase.toNat + 32 * (b.fqtail.toNat % f)
      ∃ t q, exec (.faultRecordWrite part) s = .next t ∧ t.gpu.part? part = some q ∧
        q.bar.fqtail = BitVec.ofNat 32 ((b.fqtail.toNat + 1) % f) ∧ (∀ x ∈ q.faults, x.seq = r.seq → x.written = true) ∧
        (healthy a 32 → ∀ i, i < 32 → some (t.gpu.homeByte (hp (a + i))) = (r.bytes s.clk.ptp)[i]?))

/-- 15 R369 to R372, Table 15.1, 17 R416, R447: LAUNCH is answered FENCED for a fenced context, FORM, SHAPE, NOFIT with its DETAIL, or
OK; a best-effort launch is queued, and a deadline launch holds the allotment and the tier that the admission test found.
Which DETAIL a refusal carries is the model's reading (log 41). -/
def Obligations.LaunchIsAdmittedOrRefused : Prop :=
  ∀ (s : State) (part hseq : Nat) (c : Cmd) (x : Ctx) (p : Part), OnTurn s part hseq 1 c x → s.gpu.part? part = some p →
    let row := Instr.launch part hseq
    (∀ st, x.status = .fenced st → ∃ t, exec row s = .next t ∧ Answers s t part c 5 0 0 0) ∧
    ((∀ st, x.status ≠ .fenced st) →
      (s.dev.readLaunch x c = none →
        ∃ t, exec row s = .next t ∧ Answers (s.onGpu fun g => g.logLaunch x c) t part c 3 0 0 0 ∧ t.gpu.launches = s.gpu.launches) ∧
      ∀ l, s.dev.readLaunch x c = some l →
        (l.shapeOk p.entry.cores = false →
          ∃ t, exec row s = .next t ∧ Answers s t part c 2 0 0 0 ∧ t.gpu.launches = s.gpu.launches) ∧
        (l.shapeOk p.entry.cores = true →
          (l.desc.deadline = none →
            ∃ t, exec row s = .next t ∧ Answers s t part c 0 0 0 0 ∧ t.gpu.launches = s.gpu.launches ++ [l] ∧ l.status = .queued ∧
              l.waiting = List.range l.desc.wgcount) ∧
          (l.desc.deadline.isSome = true →
            (∀ d, s.dev.placeLaunch l x p = .error d →
              ∃ t, exec row s = .next t ∧ Answers (s.onGpu fun g => g.logTables p) t part c 1 d 0 0 ∧ t.gpu.launches = s.gpu.launches) ∧
            (∀ i k, s.dev.placeLaunch l x p = .ok (i, k) →
              ∃ t, exec row s = .next t ∧ Answers (s.onGpu fun g => g.logTables p) t part c 0 0 i (BitVec.ofNat 64 (s.clk.ptp + k.start / 4)) ∧
                t.gpu.launches = s.gpu.launches ++ [{ l with tier := i, status := .reserved, alloc := some k.alloc }]))))

/-- 14 R346, R347, R363, R366, 15 R382, R388, 16 R397, R400, R401, R407, 17 R416: the host commands on contexts, faults, compressed
pages and the partition, each answered in its turn, and each with its effect.
The saved bytes are opaque (log 40); the status of some refusals is the model's reading (logs 43 to 45). -/
def Obligations.HostCommandsActOnContexts : Prop :=
  ∀ (s : State) (part hseq : Nat) (c : Cmd) (x : Ctx) (p : Part), s.gpu.part? part = some p →
    let live := x.status = .live
    let fenced := fun (t : State) (st : Nat) => ∃ y, t.gpu.ctx? x.slot = some y ∧ y.status = .fenced st
    let only := c.owes = true ∧ ∀ y ∈ p.cmds, y.hseq = hseq → y = c
    let gone := ∀ w ∈ s.gpu.wgs, w.ctx = x.slot → w.place = .gone
    let finished := fun (t : State) => ∃ q e, t.gpu.part? part = some q ∧ e ∈ q.outbox ∧ e.hseq = BitVec.ofNat 32 hseq ∧ e.kind = 1 ∧ e.status = 0
    (s.gpu.command part hseq 2 = some c →
      ((∀ i, i < 64 → (s.gpu.ctx? i).isSome = true) → ∃ t, exec (.ctxCreate part hseq) s = .next t ∧ Answers s t part c 11 0 0 0) ∧
      (∀ i, i < 64 → s.gpu.ctx? i = none → s.gpu.readCtx p 0 (field c.args 0 8) = some x → (∀ k ∈ s.gpu.ctxs, k.asid ≠ x.asid) →
        ∃ t slot, exec (.ctxCreate part hseq) s = .next t ∧ Answers s t part c 0 0 0 (BitVec.ofNat 64 slot) ∧ slot < 64 ∧
          s.gpu.ctx? slot = none ∧ t.gpu.ctx? slot = some { x with slot := slot } ∧ ∀ e ∈ t.gpu.mem.hubtlb, e.asid ≠ x.asid)) ∧
    (OnTurn s part hseq 3 c x → live →
      ∃ t, exec (.ctxFence part hseq) s = .next t ∧ Answers s t part c 0 0 0 0 ∧ fenced t 5 ∧ Finishes s t part hseq 0 0 x.slot 0 ∧
        ∀ w ∈ t.gpu.wgs, w.ctx = x.slot → w.place = .gone) ∧
    (OnTurn s part hseq 4 c x →
      ∃ t, exec (.ctxRearm part hseq) s = .next t ∧
        ((∃ st, x.status = .fenced st) → Answers s t part c 0 0 0 0 ∧ t.gpu.ctx? x.slot = some { x with status := .live }) ∧
        ((∀ st, x.status ≠ .fenced st) → Answers s t part c 3 0 0 0 ∧ t.gpu.ctxs = s.gpu.ctxs)) ∧
    (OnTurn s part hseq 5 c x → live → x.lift = none → s.gpu.heldByDeadline x.slot = false → only → gone →
      s.dev.saveSize x.slot ≤ x.savelen → p.entry.holds x.save = true → p.entry.holds (x.save + s.dev.saveSize x.slot - 1) = true →
      ∃ t, exec (.ctxSave part hseq) s = .next t ∧ Answers s t part c 0 0 0 0 ∧ t.gpu.ctx? x.slot = some { x with status := .saved } ∧
        finished t) ∧
    (OnTurn s part hseq 6 c x → (x.status = .saved ∨ x.status = .lifted) → only → gone → ∀ y, s.gpu.readCtx p x.slot x.desc = some y → s.gpu.saveIntact y = true →
      (∀ k ∈ s.gpu.ctxs, k.slot ≠ x.slot → k.asid ≠ y.asid) →
      ∃ t, exec (.ctxRestore part hseq) s = .next t ∧ Answers s t part c 0 0 0 0 ∧
        t.gpu.ctx? x.slot = some { y with slot := x.slot, drops := x.drops } ∧ finished t) ∧
    (OnTurn s part hseq 7 c x → live → x.lift = none → s.gpu.heldByDeadline x.slot = false → only →
      ∃ t, exec (.ctxLift part hseq) s = .next t ∧ Answers s t part c 0 0 0 0 ∧ t.gpu.ctx? x.slot = some { x with lift := some hseq }) ∧
    (s.gpu.ctx? x.slot = some x → x.part = part → x.lift = some hseq → p.cmds.find? (fun y => y.hseq == hseq) = some c →
      c.at_ + 4000000 ≤ s.clk.cyc → s.gpu.allLifted x.slot = false →
      ∃ t, exec (.liftTimeout x.slot) s = .next t ∧ t.gpu.ctx? x.slot = some { x with lift := none } ∧ Finishes s t part hseq 10 0 x.slot 0) ∧
    (OnTurn s part hseq 8 c x →
      ∃ t, exec (.ctxDestroy part hseq) s = .next t ∧
        if s.gpu.holdsLaunch x.slot = true then Answers s t part c 3 0 0 0 ∧ t.gpu.ctxs = s.gpu.ctxs
        else Answers s t part c 0 0 0 0 ∧ t.gpu.ctx? x.slot = none ∧ ∀ k ∈ t.gpu.fabric.conns, k.ctx ≠ x.slot) ∧
    (s.gpu.command part hseq 9 = some c → ∀ r, p.faults.find? (fun r => r.seq == field c.args 0 4) = some r →
      (field c.args 4 4 = 0 →
        ∃ t, exec (.faultAns part hseq) s = .next t ∧ Answers s t part c 0 0 0 0 ∧
          ∀ u th pc va, s.gpu.thread? u = some th → th.status = .parked (.fault part r.seq pc va) →
            t.gpu.thread? u = some { th with status := .parked .clear }) ∧
      (field c.args 4 4 = 1 → ∀ u th word va w core, s.gpu.faultWaiters part r.seq = [u] → s.gpu.thread? u = some th → th.mode = .user →
        th.status = .parked (.fault part r.seq word va) → s.gpu.wg? u.wg = some w → w.place = .core core → s.gpu.started u.wg = true →
        ∃ t, exec (.faultAns part hseq) s = .next t ∧ Answers s t part c 0 0 0 0 ∧
          t.gpu.thread? u = some (th.takeTrap (s.gpu.env u).tvec ⟨.translation, BitVec.ofNat 16 (r.access + 4 * (r.cause % 2)), va, false⟩
            th.pc word 8 ((1 : Word) <<< u.lane)))) ∧
    (s.gpu.command part hseq 10 = some c → (∀ l ∈ s.gpu.launches, l.fin = none) → ∀ blk, p.comp = some blk → field c.args 0 4 < (s.gpu.mem.cblk blk).nrec → field c.args 4 4 ≤ 1 →
      ∃ t, exec (.pageRel part hseq) s = .next t ∧ Answers s t part c 0 0 0 0 ∧ Finishes s t part hseq 0 0 c.ctx 0 ∧
        ∀ l ∈ t.gpu.mem.l2, ¬(l.part = part ∧ l.key.sp = .comp part ∧ l.key.idx / 512 = field c.args 0 4)) ∧
    (s.gpu.command part hseq 11 = some c →
      ∃ t, exec (.compInst part hseq) s = .next t ∧
        if s.gpu.blockOk p.entry (field c.args 0 8) = true then
          Answers s t part c 0 0 0 0 ∧ ∃ q, t.gpu.part? part = some q ∧ q.comp = some (field c.args 0 8)
        else Answers s t part c 3 0 0 0 ∧ t.gpu.mem = s.gpu.mem) ∧
    (s.gpu.command part hseq 12 = some c →
      ∃ t, exec (.partReset part hseq) s = .next t ∧ Answers s t part c 0 0 0 0 ∧ Finishes s t part hseq 0 0 c.ctx 0 ∧
        (s.gpu.ctx? x.slot = some x → x.part = part → live → fenced t 9) ∧
        (∀ n, n ∈ p.entry.cores → t.gpu.core n = .empty) ∧
        ((∀ y ∈ s.gpu.cores, ∀ k ∈ y.2.l1, k.key.sp = .comp part → y.1 ∈ p.entry.cores) → ∀ l ∈ t.gpu.mem.l2, l.part ≠ part))

/-- 17 R426 to R428: RELEASE takes a descriptor into the release unit; at its time a release formed by T − 20 µs sends its frame, unless the
stream's previous one is still leaving; at T − 20 µs one that is not formed repeats that frame or is refused; the packets of a frame
carry its bytes in order, in IP packets of at most 1,500 bytes, the last one marked.
The time a frame's last packet leaves is free (log 49), how rows are parted into packets is the model's choice (log 84), and the pgroup table
that a descriptor's form and its packets rest on is taken from ST 2110-20 (log 87). -/
def Obligations.FramesAreReleased : Prop :=
  ∀ (s : State) (part hseq : Nat) (c : Cmd) (x : Ctx) (b : List Byte) (r : Release),
    let d := relOf r.desc
    let found := s.gpu.fabric.rels.find? (fun k => k.id == r.id) = some r ∧ (s.gpu.part? r.part).isSome = true
    let left := fun (t : State) => ∀ k ∈ t.gpu.fabric.rels, k.id ≠ r.id
    (OnTurn s part hseq 13 c x → s.gpu.part? part ≠ none →
      (field c.args 0 8 % 64 = 0 → s.gpu.hubRead x (field c.args 0 8) 64 = some b → relOk b = true →
        ∃ t k, exec (.release part hseq) s = .next t ∧ Answers s t part c 0 0 0 0 ∧ t.gpu.fabric.rels = s.gpu.fabric.rels ++ [k] ∧
          k.desc = b ∧ k.part = part ∧ k.hseq = hseq ∧ k.ctx = x.slot) ∧
      (field c.args 0 8 % 64 ≠ 0 ∨ (s.gpu.hubRead x (field c.args 0 8) 64 = some b ∧ relOk b = false) →
        ∃ t, exec (.release part hseq) s = .next t ∧ Answers s t part c 3 0 0 0 ∧ t.gpu.fabric = s.gpu.fabric) ∧
      (field c.args 0 8 % 64 = 0 → s.gpu.hubRead x (field c.args 0 8) 64 = none →
        ∃ t, exec (.release part hseq) s = .next t ∧
          Answers (s.onGpu fun g => g.logWalk x 0xFFFF (field c.args 0 8) 64) t part c 3 0 0 0 ∧ t.gpu.fabric = s.gpu.fabric)) ∧
    (found → r.formed = true → r.formedAt + 20000 ≤ d.t → d.t + d.tro ≤ s.clk.ptp → s.gpu.ctx? r.ctx = some x →
      ∃ t, exec (.frameSend r.id) s = .next t ∧ left t ∧
        if (s.gpu.fabric.stream? d).any (fun y => d.t + d.tro < y.last) = true then
          Finishes s t r.part r.hseq 1 4 r.ctx 0 ∧ t.gpu.fabric.tx = s.gpu.fabric.tx
        else Finishes s t r.part r.hseq 0 0 r.ctx (BitVec.ofNat 64 (d.t + d.tro)) ∧
          ∃ data first, t.gpu.fabric.tx = s.gpu.fabric.tx ++
              [.frame d.port (d.t + d.tro) (BitVec.ofNat 32 (d.t * 90000 / 1000000000)) r.desc data (framePackets d first data)] ∧
            data = (s.dev.frameBytes x d r.got).2 ∧ ∀ y, s.gpu.fabric.stream? d = some y → first = y.seq) ∧
    (∀ first data, relOk r.desc = true → data.length = d.line * d.height →
      let ps := framePackets d first data
      (ps.flatMap fun k => k.rows.flatMap fun z => z.2.2) = data ∧
      (∀ k ∈ ps, k.rows.length ≤ 2 ∧ rtpHead + (k.rows.map fun z => z.2.2.length).sum ≤ 1500) ∧
      ∀ i k, ps[i]? = some k → k.seq = first + BitVec.ofNat 32 i ∧ (k.marker = true ↔ i + 1 = ps.length)) ∧
    (found → (r.formed = false ∨ d.t < r.formedAt + 20000) → d.t ≤ s.clk.ptp + 20000 →
      ∃ t, exec (.releaseCutoff r.id) s = .next t ∧ left t ∧
        (∀ y, s.gpu.fabric.stream? d = some y → d.rep = true →
          if d.t + d.tro < y.last then Finishes s t r.part r.hseq 1 4 r.ctx 0 ∧ t.gpu.fabric.tx = s.gpu.fabric.tx
          else Finishes s t r.part r.hseq 0 0 r.ctx (BitVec.ofNat 64 d.t) ∧
            t.gpu.fabric.tx = s.gpu.fabric.tx ++ [.frame d.port d.t (BitVec.ofNat 32 (d.t * 90000 / 1000000000)) r.desc y.data
              (framePackets (relOf y.desc) y.seq y.data)]) ∧
        (s.gpu.fabric.stream? d = none ∨ d.rep = false →
          Finishes s t r.part r.hseq 1 16 r.ctx 0 ∧ t.gpu.fabric.tx = s.gpu.fabric.tx))

/-! ### Events: fabric, time, management, resets, sensors -/

/-- 17 R418, R419, R421, R422, R424, R425: packets are performed in turn and acknowledged, or the last one is acknowledged again; what
is not acknowledged is sent again up to 16 times; a write whose lines find no way in L2 is not accepted yet; ports and SERVO report their changes; small offsets are slewed, larger ones
stepped or held.
The form of packets and the 50 ns at which SERVO shows lock are the model's choices (logs 84, 39). -/
def Obligations.FabricAndTime : Prop :=
  ∀ (s : State) (k : Pkt) (c : Conn) (x : Ctx) (i port : Nat) (off : Int),
    let conn := fun (t : State) => t.gpu.fabric.conns.find? fun y => y.ctx == c.ctx && y.ep == c.ep
    let ack := fun (n : BitVec 24) => TxItem.ack c.peer c.rpart c.rasid n
    (s.gpu.connOf k = some c → conn s = some c →
      (∀ n, k.body = .ack n → (∀ y ∈ c.unacked, y.seq ≠ n) → ∃ t, exec (.fabricPacketReceive k) s = .next t ∧ conn t = some c) ∧
      (∀ n y rest, k.body = .ack n → c.unacked = y :: rest → y.seq = n →
        ∃ t, exec (.fabricPacketReceive k) s = .next t ∧ conn t = some { c with unacked := rest, resends := 0 }) ∧
      ((∀ n, k.body ≠ .ack n) → c.failed = false → (∀ y ∈ c.unacked, ∀ n, y.body ≠ .failed n) →
        (k.seq ≠ c.expect →
          ∃ t, exec (.fabricPacketReceive k) s = .next t ∧ t.gpu.fabric.tx = s.gpu.fabric.tx ++ [ack (c.expect - 1)] ∧ conn t = some c ∧
            t.gpu.mem = s.gpu.mem) ∧
        (k.seq = c.expect → s.gpu.ctx? c.ctx = some x → x.status = .live →
          (∀ va bs ps, k.body = .write va bs → s.dev.fabricPhys x .write va bs.length = .ok ps →
            let g := s.dev.noteHomes x .write va bs.length
            (g.lineWait (ps.map Phys.line) = none →
              ∃ t, exec (.fabricPacketReceive k) s = .next t ∧ t.gpu.mem = (g.homeStore false false (ps.zip bs)).mem ∧
                t.gpu.fabric.tx = s.gpu.fabric.tx ++ [ack k.seq] ∧ conn t = some { c with expect := c.expect + 1, refused := false }) ∧
            ((g.lineWait (ps.map Phys.line)).isSome = true →
              ∃ t, exec (.fabricPacketReceive k) s = .next t ∧ t.gpu.fabric = s.gpu.fabric ∧ conn t = some c)) ∧
          (∀ va n tag ps, k.body = .read va n tag → s.dev.fabricPhys x .read va n = .ok ps → s.gpu.firstPoison ps = none →
            ∃ t, exec (.fabricPacketReceive k) s = .next t ∧ t.gpu.mem = s.gpu.mem ∧
              ∃ y, conn t = some y ∧ y.expect = c.expect + 1 ∧ y.next = c.next + 1 ∧
                ∃ z, y.unacked = c.unacked ++ [z] ∧ z.seq = c.next ∧ z.body = .answer tag (ps.map s.gpu.homeByte))))) ∧
    (s.gpu.fabric.conns[i]? = some c → c.unacked ≠ [] →
      ∃ t y, exec (.fabricResend i) s = .next t ∧ t.gpu.fabric.conns[i]? = some y ∧
        (c.failed = false → c.resends < 16 → (∀ z, c.unacked.head? = some z → z.at_ + 80000 ≤ s.clk.cyc) →
          t.gpu.fabric.tx = s.gpu.fabric.tx ++ c.unacked.map (fun z => .pkt c.peer c.rpart c.rasid z.seq z.body) ∧
          y.resends = c.resends + 1 ∧ y.unacked.map Sent.seq = c.unacked.map Sent.seq ∧ y.failed = false) ∧
        (c.failed = false → 16 ≤ c.resends → (∀ z, c.unacked.head? = some z → z.at_ + 80000 ≤ s.clk.cyc) →
          y.failed = true ∧ y.unacked = []) ∧
        (c.failed = false → (∀ z, c.unacked.head? = some z → s.clk.cyc < z.at_ + 80000) → t.gpu.fabric = s.gpu.fabric)) ∧
    (∀ up, s.gpu.fabric.up[port]? = some up →
      (∃ t, exec (.fabricPortDown port) s = .next t ∧ t.gpu.fabric.up = s.gpu.fabric.up.set port false ∧
        (up = true → AllTold s t 5 (BitVec.ofNat 64 port)) ∧ (up = false → t.gpu.parts = s.gpu.parts)) ∧
      (∃ t, exec (.fabricPortUp port) s = .next t ∧ t.gpu.fabric.up = s.gpu.fabric.up.set port true ∧
        (up = false → AllTold s t 6 (BitVec.ofNat 64 port)) ∧ (up = true → t.gpu.parts = s.gpu.parts))) ∧
    (∃ t, exec (.ptpMessage off) s = .next t ∧ t.clk.cyc = s.clk.cyc ∧ t.clk.frac = s.clk.frac ∧
      (|off| ≤ 1000000 → t.clk.ptp = s.clk.ptp ∧ t.clk.corr = 8000 * off ∧ t.clk.hold = false) ∧
      (1000000 < off → (t.clk.ptp : Int) = s.clk.ptp + off ∧ t.clk.corr = 0 ∧ t.clk.hold = false) ∧
      (off < -1000000 → t.clk.ptp = s.clk.ptp ∧ t.clk.corr = 8000 * off ∧ t.clk.hold = true) ∧
      t.clk.servo = (if |off| ≤ 50 then 2 else 1) ∧ (t.clk.servo ≠ s.clk.servo → AllTold { s with clk := t.clk } t 4 (BitVec.ofNat 64 t.clk.servo))) ∧
    (∃ t, exec .ptpHoldover s = .next t ∧ t.clk = { s.clk with servo := 3 } ∧ (s.clk.servo ≠ 3 → AllTold s t 4 3))

/-- 18 R433 to R436, R438, R439: mailbox commands answer the function that sent them, with the bytes that the tables give, and the
commands that change the device come from the management port only; an accepted FWCOMMIT resets the package, an accepted table is
stored and active.
The hashes and signatures are opaque functions (log 89), and a requester in recovery mode is named by its port (log 88). -/
def Obligations.MailboxCommands : Prop :=
  ∀ (s : State) (part slot off : Nat) (nonce bytes table sig : List Byte) (index : Word) (p : Part),
    let c := s.sec
    let serial := bytesOfNat 8 c.serial.toNat
    let told := fun (t : State) (status : Nat) (b : List Byte) =>
      t.sec.replies = c.replies ++ [{ part := part, status := status, bytes := b }]
    let same := fun (t : State) => t.sec = { c with replies := t.sec.replies }
    let mgmt := ((s.gpu.part? part).map fun q => q.entry.port).getD part = (c.active.map fun t => field t 6 1).getD 0
    let rep := bytesOfNat 2 1 ++ bytesOfNat 2 part ++ bytesOfNat 4 c.svn ++ serial ++ bytesOfNat 8 s.clk.ptp ++ nonce ++ c.fwmeas ++
      Config.shake256x32 (c.active.getD Config.defaultTable) ++ List.replicate 8 0
    let seeds := Config.shake256x96 (c.secret ++ [1])
    let okStage := slot ≤ 1 ∧ slot ≠ c.booted ∧ bytes.length ≤ 4096 ∧ off + bytes.length ≤ 128 + 2 ^ 25 + 29792
    let stored := if slot = 0 then c.slot0.bytes else c.slot1.bytes
    (∃ t, exec (.ident part) s = .next t ∧ same t ∧
      told t 0 (if c.recov then serial else serial ++ bytesOfNat 4 c.svn ++ Config.slhPublic seeds ++ c.fwmeas)) ∧
    (c.recov = false → nonce.length = 32 →
      ∃ t, exec (.attest part nonce) s = .next t ∧ same t ∧ told t 0 (rep ++ Config.slhSign seeds rep)) ∧
    (∃ t b, exec (.status part) s = .next t ∧ same t ∧ told t 0 b ∧ b.length = 16 ∧
      b[5]? = some (BitVec.ofNat 8 (c.temps.getD 0 0)) ∧ b[6]? = some (BitVec.ofNat 8 (c.temps.getD 1 0)) ∧
      b[7]? = some (BitVec.ofNat 8 (c.temps.getD 2 0)) ∧ (s.gpu.part? part = some p → field b 8 2 = p.entry.powerw % 2 ^ 16) ∧
      field b 12 4 = (if c.recov then 1 else 0) + (if ∃ x ∈ c.temps, 100 ≤ x then 2 else 0) + (if c.tripped then 4 else 0)) ∧
    (c.recov = false → s.gpu.part? part = some p →
      (∀ e, p.log.find? (fun e => e.index == index.toNat) = some e →
        ∃ t, exec (.log part index) s = .next t ∧ same t ∧
          told t 0 (bytesOfNat 8 e.time ++ bytesOfNat 2 e.kind ++ bytesOfNat 2 e.asid ++ bytesOfNat 2 e.core ++ bytesOfNat 2 e.unit ++
            bytesOfNat 8 e.addr ++ bytesOfNat 4 e.index ++ bytesOfNat 4 0)) ∧
      (p.log.find? (fun e => e.index == index.toNat) = none → ∃ t, exec (.log part index) s = .next t ∧ same t ∧ told t 5 [])) ∧
    (∀ type, s.sec.held = false → type = 0 ∨ 7 < type →
      ∃ t, State.play s (.otherRequest part type) = .next t ∧ same t ∧ told t 6 [] ∧ t.gpu = s.gpu ∧ t.clk = s.clk) ∧
    (∃ t, exec (.fwStage part slot off bytes) s = .next t ∧
      (¬mgmt → same t ∧ told t 6 []) ∧ (mgmt → ¬okStage → same t ∧ told t 3 []) ∧
      (mgmt → okStage → told t 0 [] ∧
        let new := if slot = 0 then t.sec.slot0.bytes else t.sec.slot1.bytes
        (∀ i, i < bytes.length → new[off + i]? = bytes[i]?) ∧
        (∀ i, i < off ∨ off + bytes.length ≤ i → i < stored.length → new[i]? = stored[i]?) ∧
        (if slot = 0 then t.sec.slot1 = c.slot1 else t.sec.slot0 = c.slot0))) ∧
    (∃ t, exec (.fwCommit part slot) s = .next t ∧
      (¬mgmt → same t ∧ told t 6 []) ∧ (mgmt → 1 < slot ∨ slot = c.booted → same t ∧ told t 3 []) ∧
      (mgmt → slot ≤ 1 → slot ≠ c.booted →
        told t (c.imageStatus stored) [] ∧ t.sec.toReset = (if c.imageStatus stored = 0 then true else c.toReset))) ∧
    (c.recov = false →
      ∃ t, exec (.cfgStage part table sig) s = .next t ∧
        (¬mgmt → same t ∧ told t 6 []) ∧ (mgmt → tableForm table = false → same t ∧ told t 3 []) ∧
        (mgmt → tableForm table = true → c.tableSigned table sig = false → same t ∧ told t 1 []) ∧
        (mgmt → tableForm table = true → c.tableSigned table sig = true →
          ((∃ a, c.active = some a ∧ field table 8 8 ≤ field a 8 8) → same t ∧ told t 2 []) ∧
          ((∀ a, c.active = some a → field a 8 8 < field table 8 8) →
            (s.gpu.tableBusy table = true → same t ∧ told t 4 []) ∧
            (s.gpu.tableBusy table = false → told t 0 [] ∧ t.sec.table = some (table, sig) ∧ t.sec.active = some table ∧
              t.sec.okh = some (c.okh.getD (Config.shake256x32 ((table.drop 0x140).take 64))) ∧
              t.gpu.parts.map (fun q => (q.id, q.entry)) = tableParts table))))

/-- 14 R364 to R366, 18 R429, R430, R433, R437, R439: a boot leaves no context, launch or thread and memory of zeros, under the stored
table when it is valid, or recovery mode; a port or function reset fences its partitions and resets their registers; heat ends
best-effort grants and trips the package; storage errors poison, fence, drop or count as Table 14.9 gives.
What a boot keeps, and the fence of every partition at a hub error, are the model's readings (logs 4, 92); so are the outbox that a function
reset empties (log 48), the temperatures drawn below 60 °C and 95 °C (log 90) and a device that does nothing while it is held (log 93). -/
def Obligations.ResetsHeatAndErrors : Prop :=
  ∀ (s : State) (port part die temp line core unit : Nat) (p : Part) (x : Ctx) (l : L1Line),
    let booted := fun (t : State) => t.gpu.threads = [] ∧ t.gpu.wgs = [] ∧ t.gpu.launches = [] ∧ t.gpu.ctxs = [] ∧ t.gpu.ops = [] ∧
      t.gpu.cores = [] ∧ (∀ a, t.gpu.mem.devByte a = 0) ∧ t.gpu.fabric.conns = [] ∧ t.clk.servo = 0 ∧ t.sec.held = false ∧
      t.sec.toReset = false ∧
      (t.sec.recov = true → t.gpu.parts = []) ∧
      (t.sec.recov = false → s.sec.table = none → t.gpu.parts = [.fresh 0 .all]) ∧
      (t.sec.recov = false ↔ s.sec.imageStatus s.sec.slot0.bytes = 0 ∨ s.sec.imageStatus s.sec.slot1.bytes = 0)
    let fresh := fun (t : State) (n : Nat) => ∃ q, t.gpu.part? n = some q ∧ q.bar = .reset ∧ q.expect = 0 ∧ q.cmds = [] ∧ q.faults = []
    let stopped := fun (t : State) => x.status = .live → s.gpu.ctx? x.slot = some x → ∃ y, t.gpu.ctx? x.slot = some y ∧ y.status = .fenced 9
    (∃ t, exec .powerOn s = .next t ∧ booted t ∧ t.sec.tripped = s.sec.held ∧ (s.sec.held = true → ∀ n ∈ t.sec.temps, n < 60)) ∧
    (∃ t, exec .deviceReset s = .next t ∧ (s.sec.toReset = true → s.sec.held = false → booted t) ∧ (s.sec.toReset = false → t = s)) ∧
    (p ∈ s.gpu.parts → p.entry.port = port →
      ∃ t, exec (.portReset port) s = .next t ∧ fresh t p.id ∧ (x.part = p.id → stopped t)) ∧
    (s.gpu.part? part = some p →
      ∃ t, exec (.functionLevelReset part) s = .next t ∧ fresh t part ∧ (x.part = part → stopped t) ∧
        ∀ q, t.gpu.part? part = some q → q.outbox = []) ∧
    (die ≤ 2 → 100 ≤ temp →
      ∃ t, exec (.thermalHot die temp) s = .next t ∧ t.sec.temps = s.sec.temps.set die temp ∧ t.gpu.gov.hot = true ∧
        (t.sec.held = true ↔ s.sec.held = true ∨ 110 ≤ temp) ∧
        ∀ w ∈ t.gpu.wgs, ∀ k, t.gpu.launch? w.launch = some k → k.desc.deadline = none → ∀ tm ∈ w.teams, tm.grant = none) ∧
    (s.gpu.gov.hot = true →
      ∃ t, exec .thermalHotClear s = .next t ∧ t.gpu.gov.hot = false ∧ ∀ n ∈ t.sec.temps, n < 95) ∧
    (die ≤ 2 → 110 ≤ temp →
      ∃ t, exec (.thermalTrip die temp) s = .next t ∧ t.sec.held = true ∧ t.sec.temps = s.sec.temps.set die temp ∧
        ∀ m, (∀ q a b, m ≠ .hostStore q a b) → (∀ q a, m ≠ .hostAtomics q a) → (∀ a b, m ≠ .sensor a b) → m ≠ .event .powerOn →
          (∀ a b, m ≠ .event (.thermalTrip a b)) →
          State.play t m = .next t) ∧
    (die ≤ 2 → temp < 100 →
      ∃ t, State.play s (.sensor die temp) = .next t ∧ t.sec.temps = s.sec.temps.set die temp ∧ t.gpu = s.gpu ∧ t.clk = s.clk) ∧
    (∃ t, exec (.uncorrectableError (.mem line)) s = .next t ∧ t.gpu.poisoned ⟨.dev, line⟩ = true) ∧
    (∃ t, exec (.uncorrectableError (.tlb core unit)) s = .next t ∧
      (core < 192 → (t.gpu.core core).tlb = (s.gpu.core core).tlb.eraseIdx unit) ∧
      (core = 192 → t.gpu.mem.lltlb0 = s.gpu.mem.lltlb0.eraseIdx unit) ∧ (core = 193 → t.gpu.mem.lltlb1 = s.gpu.mem.lltlb1.eraseIdx unit)) ∧
    (∃ t, exec (.uncorrectableError .hub) s = .next t ∧ t.gpu.devErr = [true, true] ∧ (p ∈ s.gpu.parts → x.part = p.id → stopped t)) ∧
    ((s.gpu.core core).l1 = [l] →
      ∃ t, exec (.uncorrectableError (.l1 core line)) s = .next t ∧ (t.gpu.core core).l1 =
        if l.key.idx = line then (if l.dirty = 0 then [] else [{ l with bad := true }]) else [l]) ∧
    (∀ w ∈ s.gpu.wgs, w.place = .core core → x.slot = w.ctx → s.gpu.ctx? x.slot = some x → x.status = .live →
      ∃ t y, exec (.uncorrectableError (.coreStorage core unit)) s = .next t ∧ t.gpu.ctx? x.slot = some y ∧ y.status = .fenced 8) ∧
    (∃ t, exec (.uncorrectableError (.coreDroppable core)) s = .next t ∧ (t.gpu.core core).icache = [] ∧ (t.gpu.core core).tlb = [] ∧
      (t.gpu.core core).bricks = [] ∧ (t.gpu.core core).l1 = (s.gpu.core core).l1) ∧
    (s.gpu.part? part = some p →
      (∃ t, exec (.uncorrectableError (.l2tags part)) s = .next t ∧ (x.part = part → stopped t) ∧
        ((∀ y ∈ s.gpu.cores, ∀ k ∈ y.2.l1, k.key.sp = .comp part → y.1 ∈ p.entry.cores) → ∀ k ∈ t.gpu.mem.l2, k.part ≠ part)) ∧
      (Store.wf 0 p.corr = true →
        let at_ := if unit = 0 ∨ unit = 1 ∨ 7 ≤ unit then 0xFFFF else core
        let key := 65536 * unit + at_
        ∃ t q, exec (.correctableError part ⟨unit, core⟩) s = .next t ∧ t.gpu.part? part = some q ∧
          (∀ u, Store.get 0 q.corr u = Store.get 0 p.corr u + (if u = key then 1 else 0)) ∧
          ((Store.get 0 p.corr key + 1) % 65536 ≠ 0 → q.log = p.log ∧ q.outbox = p.outbox) ∧
          ((Store.get 0 p.corr key + 1) % 65536 = 0 →
            ∃ e, q.log.getLast? = some e ∧ e.kind = 5 ∧ e.unit = unit ∧ e.core = at_ ∧ e.index = p.logNext ∧
              q.outbox = p.outbox ++ [complAt s 0 0 7 2 0 0 (BitVec.ofNat 64 p.logNext)])))

/-! ### Reset, decoding, the step, and what every step keeps -/

/-- 18 R429, R430, R436, 17 Table 17.1: right after a power-on reset with no partition table stored.
Values the spec does not give, such as the clock's 0, are the model's choice (log 4); the clause on TimeAndSecurity rests on them. -/
def Obligations.ResetState : Prop :=
  let s := State.reset
  s.gpu.threads = [] ∧ s.gpu.wgs = [] ∧ s.gpu.launches = [] ∧ s.gpu.ctxs = [] ∧ s.gpu.ops = [] ∧ s.gpu.cores = [] ∧
  s.gpu.mem.dev = [] ∧ s.gpu.mem.l2dev = [] ∧ s.clk.servo = 0 ∧ s.sec.recov = false ∧ s.sec.active = none ∧
  (∃ p, s.gpu.parts = [p] ∧ p.entry.valid = true ∧ p.entry.groups = 0x0FFF ∧ p.entry.powerw = 1230 ∧ p.cmds = [] ∧ p.outbox = [] ∧
    p.expect = 0 ∧ p.bar.sqcfg = 0 ∧ p.bar.cqcfg = 0 ∧ p.bar.fqcfg = 0 ∧ p.bar.sqhead = 0 ∧ p.bar.cqtail = 0 ∧ p.bar.fqtail = 0 ∧
    p.bar.acchseq = 0xFFFFFFFF ∧ p.bar.openhseq = 0 ∧ p.bar.lastdseq = 0xFFFFFFFF ∧ p.bar.stopped = false) ∧
  s.TimeAndSecurity

/-- 05 R133 to R146: worked words of the encoding, one or more of each family, name the instructions that the manual prints beside
them. -/
def Obligations.DecodedWords : Prop :=
  let t : Guard := ⟨7, false⟩
  let p0 : Pfx := ⟨false, t, t⟩
  let sw : Pfx := ⟨true, t, t⟩
  decode 0x0012500C10140000 0 = some (.iadd ⟨false, ⟨1, false⟩, ⟨2, true⟩⟩ .s32 false 3 4 (.reg 5)) ∧
  decode 0x00DEE00810000208 0x64 = some (.icmp p0 .lt .s32 2 4 (.lit 0x64)) ∧
  decode 0x083EE0282C303488 0 = some (.ffma p0 .rd 10 11 (.reg 12) 13) ∧
  decode 0x980EE018210001C0 0 = some (.ld sw 0 .b32 .x1 .none .thr 6 8 (.short 0x40)) ∧
  decode 0x183EE008200003F4 1 = some (.atom p0 0 .add .b64 false false .none .sys 2 8 (.lit 1)) ∧
  decode 0x204EE00000000000 0 = some (.wcnt p0 .copy 0) ∧
  decode 0x28AEE0280C000002 0 = some (.adrain p0 false false false 2 10 3) ∧
  decode 0x29AEE05000000203 0x32 = some (.leave p0 20 3 (.lit 0x32)) ∧
  decode 0x300EE0A020080000 0 = some (.march p0 false 40 8 (.reg 2)) ∧
  decode 0x340EE00900000000 0 = some (.rdsr p0 2 .tcause) ∧
  decode 0x342EE00000000007 0 = some (.sysc p0 7) ∧
  decode 0x24DEE00000000005 0 = some (.trap p0 5) ∧
  decode 0xC0F0204832E060D1 0 = some (.dualWord true ⟨.iadd, t, 4, 9, 0⟩ ⟨.fmul, t, 6, 13, 1⟩) ∧
  decode 0 0 = none

/-- 02 R33, 05 R139, R151, 07 R212: a step of an issue runs the instruction that the word at the PC of the bundle whose turn it is
decodes to, with the literal word behind it; an event runs as its row.
The agenda that names whose turn it is, is the model's choice (log 1). -/
def Obligations.StepRunsDecodedInstruction : Prop :=
  ∀ (s : State) (ms : List Move) (i j : Instr) (core : Nat) (b : Bundle) (c : Ctx) (w l : DWord) (g g' : Gpu), s.sec.held = false →
    (s.agenda = .event i :: ms → i.isWord = false → step s = exec i { s with agenda := ms }) ∧
    (s.agenda = .issue core :: ms → (s.gpu.core core).pick = some b →
      ((sortLanes b.members).head?.bind fun t => s.gpu.wg? t.wg).bind (fun v => s.gpu.ctx? v.ctx) = some c →
      s.gpu.liftable c b = [] → s.dev.fetch8 core c (sortLanes b.members) b.pc = (g, .ok w) →
      (decode w 0 = some i → Sys2Proof.sizeOf i = 8 →
        step s = exec i { s with
          agenda := ms, gpu := { g with cur := { core := core, members := b.members, pc := b.pc, word := w, lit := 0, len := 8, no := g.nextId } } }) ∧
      (decode w 0 = some j → Sys2Proof.sizeOf j = 16 → g.fetch8 core c (sortLanes b.members) (b.pc + 8) = (g', .ok l) → decode w l = some i →
        step s = exec i { s with
          agenda := ms,
          gpu := { g' with cur := { core := core, members := b.members, pc := b.pc, word := w, lit := l, len := 16, no := g'.nextId } } })) ∧
    (∀ f, b.pc.toNat < 0xFF0000000000 → tlbHit (s.gpu.core core).tlb c.asid b.pc.toNat = some f → f.x = true → f.base.sp = .dev →
      s.gpu.poisoned (f.phys b.pc.toNat).line = false → (s.gpu.core core).icache.find? (fun x => x.1 == f.phys b.pc.toNat) = none →
      s.gpu.lineWait [(f.phys b.pc.toNat).line] = none →
      (s.dev.fetch8 core c (sortLanes b.members) b.pc).2 =
        .ok (leWord ((List.range 8).map fun k => s.gpu.mem.devByte ((f.phys b.pc.toNat).addr + k))))

/-- 05 R133 to R148: every well-formed instruction word is read back from its encoding with every operand, whatever follows it in
memory. -/
def Obligations.EncodeDecodeRoundTrip : Prop :=
  ∀ (i : Instr) (l : DWord), i.isWord = true → i.wf = true →
    ∃ w rest, encode i = w :: rest ∧ decode w (rest.headD l) = some i ∧ Sys2Proof.sizeOf i = 8 * (encode i).length

/-- 00 R6, 17 R424, R425, 18 R429, R432, R434, R436: every step of the device, from any state, keeps the clock's and the security
core's invariant; core cycles and PTP time never go back, the least accepted SVN never falls, and what is fused never changes.
The step's agenda is the model's choice (log 1), and so are a clock that slews at the bound and its 50 ns threshold (log 39). -/
def Obligations.EveryStepKeepsTimeAndSecurity : Prop :=
  ∀ (s t : State), s.TimeAndSecurity → step s = .next t →
    t.TimeAndSecurity ∧ s.clk.cyc ≤ t.clk.cyc ∧ s.clk.ptp ≤ t.clk.ptp ∧ s.sec.minsvn ≤ t.sec.minsvn ∧
    t.sec.serial = s.sec.serial ∧ t.sec.secret = s.sec.secret ∧ t.sec.vendor = s.sec.vendor ∧
    (∀ h, s.sec.okh = some h → t.sec.okh = some h)
end

