-- ==== Sys2Proof/Laws/State.lean ====
section
/-! SUPPORT. What each named update of a record leaves of each of its fields. -/

namespace Sys2Proof.Machine

open Sys2Proof

/-! ### Threads -/

@[simp] theorem Thread.setReg_preds (th : Thread) (r : Reg) (v : Word) : (th.setReg r v).preds = th.preds := rfl
@[simp] theorem Thread.setReg_flags (th : Thread) (r : Reg) (v : Word) : (th.setReg r v).flags = th.flags := rfl
@[simp] theorem Thread.setReg_prb (th : Thread) (r : Reg) (v : Word) : (th.setReg r v).prb = th.prb := rfl
@[simp] theorem Thread.setReg_pmode (th : Thread) (r : Reg) (v : Word) : (th.setReg r v).pmode = th.pmode := rfl
@[simp] theorem Thread.setReg_mode (th : Thread) (r : Reg) (v : Word) : (th.setReg r v).mode = th.mode := rfl
@[simp] theorem Thread.setReg_pc (th : Thread) (r : Reg) (v : Word) : (th.setReg r v).pc = th.pc := rfl
@[simp] theorem Thread.setReg_status (th : Thread) (r : Reg) (v : Word) : (th.setReg r v).status = th.status := rfl
@[simp] theorem Thread.setReg_pend (th : Thread) (r : Reg) (v : Word) : (th.setReg r v).pend = th.pend := rfl
@[simp] theorem Thread.setReg_outst (th : Thread) (r : Reg) (v : Word) : (th.setReg r v).outst = th.outst := rfl
@[simp] theorem Thread.setReg_resv (th : Thread) (r : Reg) (v : Word) : (th.setReg r v).resv = th.resv := rfl
@[simp] theorem Thread.setReg_deferred (th : Thread) (r : Reg) (v : Word) : (th.setReg r v).deferred = th.deferred := rfl
@[simp] theorem Thread.setReg_due (th : Thread) (r : Reg) (v : Word) : (th.setReg r v).due = th.due := rfl
@[simp] theorem Thread.setReg_trap (th : Thread) (r : Reg) (v : Word) : (th.setReg r v).trap = th.trap := rfl
@[simp] theorem Thread.setReg_owes (th : Thread) (r : Reg) (v : Word) : (th.setReg r v).owes = th.owes := rfl
@[simp] theorem Thread.setReg_rdfl (th : Thread) (r : Reg) (v : Word) : (th.setReg r v).rdfl = th.rdfl := rfl
@[simp] theorem Thread.setReg_recAddr (th : Thread) (r : Reg) (v : Word) : (th.setReg r v).recAddr = th.recAddr := rfl
@[simp] theorem Thread.setReg_sysrel (th : Thread) (r : Reg) (v : Word) : (th.setReg r v).sysrel = th.sysrel := rfl
@[simp] theorem Thread.setReg_lifted (th : Thread) (r : Reg) (v : Word) : (th.setReg r v).lifted = th.lifted := rfl
@[simp] theorem Thread.setPair_preds (th : Thread) (r : Reg) (v : DWord) : (th.setPair r v).preds = th.preds := rfl
@[simp] theorem Thread.setPair_flags (th : Thread) (r : Reg) (v : DWord) : (th.setPair r v).flags = th.flags := rfl
@[simp] theorem Thread.setPair_prb (th : Thread) (r : Reg) (v : DWord) : (th.setPair r v).prb = th.prb := rfl
@[simp] theorem Thread.setPair_pmode (th : Thread) (r : Reg) (v : DWord) : (th.setPair r v).pmode = th.pmode := rfl
@[simp] theorem Thread.setPair_mode (th : Thread) (r : Reg) (v : DWord) : (th.setPair r v).mode = th.mode := rfl
@[simp] theorem Thread.setPair_pc (th : Thread) (r : Reg) (v : DWord) : (th.setPair r v).pc = th.pc := rfl
@[simp] theorem Thread.setPair_status (th : Thread) (r : Reg) (v : DWord) : (th.setPair r v).status = th.status := rfl
@[simp] theorem Thread.setPair_pend (th : Thread) (r : Reg) (v : DWord) : (th.setPair r v).pend = th.pend := rfl
@[simp] theorem Thread.setPair_outst (th : Thread) (r : Reg) (v : DWord) : (th.setPair r v).outst = th.outst := rfl
@[simp] theorem Thread.setPair_resv (th : Thread) (r : Reg) (v : DWord) : (th.setPair r v).resv = th.resv := rfl
@[simp] theorem Thread.setPair_deferred (th : Thread) (r : Reg) (v : DWord) : (th.setPair r v).deferred = th.deferred := rfl
@[simp] theorem Thread.setPair_due (th : Thread) (r : Reg) (v : DWord) : (th.setPair r v).due = th.due := rfl
@[simp] theorem Thread.setPair_trap (th : Thread) (r : Reg) (v : DWord) : (th.setPair r v).trap = th.trap := rfl
@[simp] theorem Thread.setPair_owes (th : Thread) (r : Reg) (v : DWord) : (th.setPair r v).owes = th.owes := rfl
@[simp] theorem Thread.setPair_rdfl (th : Thread) (r : Reg) (v : DWord) : (th.setPair r v).rdfl = th.rdfl := rfl
@[simp] theorem Thread.setPair_recAddr (th : Thread) (r : Reg) (v : DWord) : (th.setPair r v).recAddr = th.recAddr := rfl
@[simp] theorem Thread.setPair_sysrel (th : Thread) (r : Reg) (v : DWord) : (th.setPair r v).sysrel = th.sysrel := rfl
@[simp] theorem Thread.setPair_lifted (th : Thread) (r : Reg) (v : DWord) : (th.setPair r v).lifted = th.lifted := rfl
@[simp] theorem Thread.raise_regs (th : Thread) (f : BitVec 5) : (th.raise f).regs = th.regs := rfl
@[simp] theorem Thread.raise_preds (th : Thread) (f : BitVec 5) : (th.raise f).preds = th.preds := rfl
@[simp] theorem Thread.raise_prb (th : Thread) (f : BitVec 5) : (th.raise f).prb = th.prb := rfl
@[simp] theorem Thread.raise_pmode (th : Thread) (f : BitVec 5) : (th.raise f).pmode = th.pmode := rfl
@[simp] theorem Thread.raise_mode (th : Thread) (f : BitVec 5) : (th.raise f).mode = th.mode := rfl
@[simp] theorem Thread.raise_pc (th : Thread) (f : BitVec 5) : (th.raise f).pc = th.pc := rfl
@[simp] theorem Thread.raise_status (th : Thread) (f : BitVec 5) : (th.raise f).status = th.status := rfl
@[simp] theorem Thread.raise_pend (th : Thread) (f : BitVec 5) : (th.raise f).pend = th.pend := rfl
@[simp] theorem Thread.raise_outst (th : Thread) (f : BitVec 5) : (th.raise f).outst = th.outst := rfl
@[simp] theorem Thread.raise_resv (th : Thread) (f : BitVec 5) : (th.raise f).resv = th.resv := rfl
@[simp] theorem Thread.raise_deferred (th : Thread) (f : BitVec 5) : (th.raise f).deferred = th.deferred := rfl
@[simp] theorem Thread.raise_due (th : Thread) (f : BitVec 5) : (th.raise f).due = th.due := rfl
@[simp] theorem Thread.raise_trap (th : Thread) (f : BitVec 5) : (th.raise f).trap = th.trap := rfl
@[simp] theorem Thread.raise_owes (th : Thread) (f : BitVec 5) : (th.raise f).owes = th.owes := rfl
@[simp] theorem Thread.raise_rdfl (th : Thread) (f : BitVec 5) : (th.raise f).rdfl = th.rdfl := rfl
@[simp] theorem Thread.raise_recAddr (th : Thread) (f : BitVec 5) : (th.raise f).recAddr = th.recAddr := rfl
@[simp] theorem Thread.raise_sysrel (th : Thread) (f : BitVec 5) : (th.raise f).sysrel = th.sysrel := rfl
@[simp] theorem Thread.raise_lifted (th : Thread) (f : BitVec 5) : (th.raise f).lifted = th.lifted := rfl
@[simp] theorem Thread.setPred_regs (th : Thread) (p : PredNo) (b : Bool) : (th.setPred p b).regs = th.regs := by unfold Thread.setPred; split <;> rfl
@[simp] theorem Thread.setPred_flags (th : Thread) (p : PredNo) (b : Bool) : (th.setPred p b).flags = th.flags := by unfold Thread.setPred; split <;> rfl
@[simp] theorem Thread.setPred_prb (th : Thread) (p : PredNo) (b : Bool) : (th.setPred p b).prb = th.prb := by unfold Thread.setPred; split <;> rfl
@[simp] theorem Thread.setPred_pmode (th : Thread) (p : PredNo) (b : Bool) : (th.setPred p b).pmode = th.pmode := by unfold Thread.setPred; split <;> rfl
@[simp] theorem Thread.setPred_mode (th : Thread) (p : PredNo) (b : Bool) : (th.setPred p b).mode = th.mode := by unfold Thread.setPred; split <;> rfl
@[simp] theorem Thread.setPred_pc (th : Thread) (p : PredNo) (b : Bool) : (th.setPred p b).pc = th.pc := by unfold Thread.setPred; split <;> rfl
@[simp] theorem Thread.setPred_status (th : Thread) (p : PredNo) (b : Bool) : (th.setPred p b).status = th.status := by unfold Thread.setPred; split <;> rfl
@[simp] theorem Thread.setPred_pend (th : Thread) (p : PredNo) (b : Bool) : (th.setPred p b).pend = th.pend := by unfold Thread.setPred; split <;> rfl
@[simp] theorem Thread.setPred_outst (th : Thread) (p : PredNo) (b : Bool) : (th.setPred p b).outst = th.outst := by unfold Thread.setPred; split <;> rfl
@[simp] theorem Thread.setPred_resv (th : Thread) (p : PredNo) (b : Bool) : (th.setPred p b).resv = th.resv := by unfold Thread.setPred; split <;> rfl
@[simp] theorem Thread.setPred_deferred (th : Thread) (p : PredNo) (b : Bool) : (th.setPred p b).deferred = th.deferred := by unfold Thread.setPred; split <;> rfl
@[simp] theorem Thread.setPred_due (th : Thread) (p : PredNo) (b : Bool) : (th.setPred p b).due = th.due := by unfold Thread.setPred; split <;> rfl
@[simp] theorem Thread.setPred_trap (th : Thread) (p : PredNo) (b : Bool) : (th.setPred p b).trap = th.trap := by unfold Thread.setPred; split <;> rfl
@[simp] theorem Thread.setPred_owes (th : Thread) (p : PredNo) (b : Bool) : (th.setPred p b).owes = th.owes := by unfold Thread.setPred; split <;> rfl
@[simp] theorem Thread.setPred_rdfl (th : Thread) (p : PredNo) (b : Bool) : (th.setPred p b).rdfl = th.rdfl := by unfold Thread.setPred; split <;> rfl
@[simp] theorem Thread.setPred_recAddr (th : Thread) (p : PredNo) (b : Bool) : (th.setPred p b).recAddr = th.recAddr := by unfold Thread.setPred; split <;> rfl
@[simp] theorem Thread.setPred_sysrel (th : Thread) (p : PredNo) (b : Bool) : (th.setPred p b).sysrel = th.sysrel := by unfold Thread.setPred; split <;> rfl
@[simp] theorem Thread.setPred_lifted (th : Thread) (p : PredNo) (b : Bool) : (th.setPred p b).lifted = th.lifted := by unfold Thread.setPred; split <;> rfl
@[simp] theorem Thread.addPend_regs (th : Thread) (q : Pending) : (th.addPend q).regs = th.regs := rfl
@[simp] theorem Thread.addPend_preds (th : Thread) (q : Pending) : (th.addPend q).preds = th.preds := rfl
@[simp] theorem Thread.addPend_flags (th : Thread) (q : Pending) : (th.addPend q).flags = th.flags := rfl
@[simp] theorem Thread.addPend_prb (th : Thread) (q : Pending) : (th.addPend q).prb = th.prb := rfl
@[simp] theorem Thread.addPend_pmode (th : Thread) (q : Pending) : (th.addPend q).pmode = th.pmode := rfl
@[simp] theorem Thread.addPend_mode (th : Thread) (q : Pending) : (th.addPend q).mode = th.mode := rfl
@[simp] theorem Thread.addPend_pc (th : Thread) (q : Pending) : (th.addPend q).pc = th.pc := rfl
@[simp] theorem Thread.addPend_status (th : Thread) (q : Pending) : (th.addPend q).status = th.status := rfl
@[simp] theorem Thread.addPend_outst (th : Thread) (q : Pending) : (th.addPend q).outst = th.outst := rfl
@[simp] theorem Thread.addPend_resv (th : Thread) (q : Pending) : (th.addPend q).resv = th.resv := rfl
@[simp] theorem Thread.addPend_deferred (th : Thread) (q : Pending) : (th.addPend q).deferred = th.deferred := rfl
@[simp] theorem Thread.addPend_due (th : Thread) (q : Pending) : (th.addPend q).due = th.due := rfl
@[simp] theorem Thread.addPend_trap (th : Thread) (q : Pending) : (th.addPend q).trap = th.trap := rfl
@[simp] theorem Thread.addPend_owes (th : Thread) (q : Pending) : (th.addPend q).owes = th.owes := rfl
@[simp] theorem Thread.addPend_rdfl (th : Thread) (q : Pending) : (th.addPend q).rdfl = th.rdfl := rfl
@[simp] theorem Thread.addPend_recAddr (th : Thread) (q : Pending) : (th.addPend q).recAddr = th.recAddr := rfl
@[simp] theorem Thread.addPend_sysrel (th : Thread) (q : Pending) : (th.addPend q).sysrel = th.sysrel := rfl
@[simp] theorem Thread.addPend_lifted (th : Thread) (q : Pending) : (th.addPend q).lifted = th.lifted := rfl
@[simp] theorem Thread.addOutst_regs (th : Thread) (c : Cls) (i : Nat) : (th.addOutst c i).regs = th.regs := rfl
@[simp] theorem Thread.addOutst_preds (th : Thread) (c : Cls) (i : Nat) : (th.addOutst c i).preds = th.preds := rfl
@[simp] theorem Thread.addOutst_flags (th : Thread) (c : Cls) (i : Nat) : (th.addOutst c i).flags = th.flags := rfl
@[simp] theorem Thread.addOutst_prb (th : Thread) (c : Cls) (i : Nat) : (th.addOutst c i).prb = th.prb := rfl
@[simp] theorem Thread.addOutst_pmode (th : Thread) (c : Cls) (i : Nat) : (th.addOutst c i).pmode = th.pmode := rfl
@[simp] theorem Thread.addOutst_mode (th : Thread) (c : Cls) (i : Nat) : (th.addOutst c i).mode = th.mode := rfl
@[simp] theorem Thread.addOutst_pc (th : Thread) (c : Cls) (i : Nat) : (th.addOutst c i).pc = th.pc := rfl
@[simp] theorem Thread.addOutst_status (th : Thread) (c : Cls) (i : Nat) : (th.addOutst c i).status = th.status := rfl
@[simp] theorem Thread.addOutst_pend (th : Thread) (c : Cls) (i : Nat) : (th.addOutst c i).pend = th.pend := rfl
@[simp] theorem Thread.addOutst_resv (th : Thread) (c : Cls) (i : Nat) : (th.addOutst c i).resv = th.resv := rfl
@[simp] theorem Thread.addOutst_deferred (th : Thread) (c : Cls) (i : Nat) : (th.addOutst c i).deferred = th.deferred := rfl
@[simp] theorem Thread.addOutst_due (th : Thread) (c : Cls) (i : Nat) : (th.addOutst c i).due = th.due := rfl
@[simp] theorem Thread.addOutst_trap (th : Thread) (c : Cls) (i : Nat) : (th.addOutst c i).trap = th.trap := rfl
@[simp] theorem Thread.addOutst_owes (th : Thread) (c : Cls) (i : Nat) : (th.addOutst c i).owes = th.owes := rfl
@[simp] theorem Thread.addOutst_rdfl (th : Thread) (c : Cls) (i : Nat) : (th.addOutst c i).rdfl = th.rdfl := rfl
@[simp] theorem Thread.addOutst_recAddr (th : Thread) (c : Cls) (i : Nat) : (th.addOutst c i).recAddr = th.recAddr := rfl
@[simp] theorem Thread.addOutst_sysrel (th : Thread) (c : Cls) (i : Nat) : (th.addOutst c i).sysrel = th.sysrel := rfl
@[simp] theorem Thread.addOutst_lifted (th : Thread) (c : Cls) (i : Nat) : (th.addOutst c i).lifted = th.lifted := rfl
@[simp] theorem Thread.defer_regs (th : Thread) (d : Deferred) : (th.defer d).regs = th.regs := rfl
@[simp] theorem Thread.defer_preds (th : Thread) (d : Deferred) : (th.defer d).preds = th.preds := rfl
@[simp] theorem Thread.defer_flags (th : Thread) (d : Deferred) : (th.defer d).flags = th.flags := rfl
@[simp] theorem Thread.defer_prb (th : Thread) (d : Deferred) : (th.defer d).prb = th.prb := rfl
@[simp] theorem Thread.defer_pmode (th : Thread) (d : Deferred) : (th.defer d).pmode = th.pmode := rfl
@[simp] theorem Thread.defer_mode (th : Thread) (d : Deferred) : (th.defer d).mode = th.mode := rfl
@[simp] theorem Thread.defer_pc (th : Thread) (d : Deferred) : (th.defer d).pc = th.pc := rfl
@[simp] theorem Thread.defer_status (th : Thread) (d : Deferred) : (th.defer d).status = th.status := rfl
@[simp] theorem Thread.defer_pend (th : Thread) (d : Deferred) : (th.defer d).pend = th.pend := rfl
@[simp] theorem Thread.defer_outst (th : Thread) (d : Deferred) : (th.defer d).outst = th.outst := rfl
@[simp] theorem Thread.defer_resv (th : Thread) (d : Deferred) : (th.defer d).resv = th.resv := rfl
@[simp] theorem Thread.defer_due (th : Thread) (d : Deferred) : (th.defer d).due = th.due := rfl
@[simp] theorem Thread.defer_trap (th : Thread) (d : Deferred) : (th.defer d).trap = th.trap := rfl
@[simp] theorem Thread.defer_owes (th : Thread) (d : Deferred) : (th.defer d).owes = th.owes := rfl
@[simp] theorem Thread.defer_rdfl (th : Thread) (d : Deferred) : (th.defer d).rdfl = th.rdfl := rfl
@[simp] theorem Thread.defer_recAddr (th : Thread) (d : Deferred) : (th.defer d).recAddr = th.recAddr := rfl
@[simp] theorem Thread.defer_sysrel (th : Thread) (d : Deferred) : (th.defer d).sysrel = th.sysrel := rfl
@[simp] theorem Thread.defer_lifted (th : Thread) (d : Deferred) : (th.defer d).lifted = th.lifted := rfl

/-! ### The device -/

@[simp] theorem Gpu.mapThreads_cur (g : Gpu) (f : TRef → Thread → Thread) : (g.mapThreads f).cur = g.cur := rfl
@[simp] theorem Gpu.mapThreads_wgs (g : Gpu) (f : TRef → Thread → Thread) : (g.mapThreads f).wgs = g.wgs := rfl
@[simp] theorem Gpu.mapThreads_launches (g : Gpu) (f : TRef → Thread → Thread) : (g.mapThreads f).launches = g.launches := rfl
@[simp] theorem Gpu.mapThreads_ctxs (g : Gpu) (f : TRef → Thread → Thread) : (g.mapThreads f).ctxs = g.ctxs := rfl
@[simp] theorem Gpu.mapThreads_ops (g : Gpu) (f : TRef → Thread → Thread) : (g.mapThreads f).ops = g.ops := rfl
@[simp] theorem Gpu.mapThreads_rays (g : Gpu) (f : TRef → Thread → Thread) : (g.mapThreads f).rays = g.rays := rfl
@[simp] theorem Gpu.mapThreads_cores (g : Gpu) (f : TRef → Thread → Thread) : (g.mapThreads f).cores = g.cores := rfl
@[simp] theorem Gpu.mapThreads_mem (g : Gpu) (f : TRef → Thread → Thread) : (g.mapThreads f).mem = g.mem := rfl
@[simp] theorem Gpu.mapThreads_parts (g : Gpu) (f : TRef → Thread → Thread) : (g.mapThreads f).parts = g.parts := rfl
@[simp] theorem Gpu.mapThreads_fabric (g : Gpu) (f : TRef → Thread → Thread) : (g.mapThreads f).fabric = g.fabric := rfl
@[simp] theorem Gpu.mapThreads_gov (g : Gpu) (f : TRef → Thread → Thread) : (g.mapThreads f).gov = g.gov := rfl
@[simp] theorem Gpu.mapThreads_now (g : Gpu) (f : TRef → Thread → Thread) : (g.mapThreads f).now = g.now := rfl
@[simp] theorem Gpu.mapThreads_ptp (g : Gpu) (f : TRef → Thread → Thread) : (g.mapThreads f).ptp = g.ptp := rfl
@[simp] theorem Gpu.mapThreads_free (g : Gpu) (f : TRef → Thread → Thread) : (g.mapThreads f).free = g.free := rfl
@[simp] theorem Gpu.mapThreads_devErr (g : Gpu) (f : TRef → Thread → Thread) : (g.mapThreads f).devErr = g.devErr := rfl
@[simp] theorem Gpu.mapThreads_nextId (g : Gpu) (f : TRef → Thread → Thread) : (g.mapThreads f).nextId = g.nextId := rfl
@[simp] theorem Gpu.modThread_cur (g : Gpu) (t : TRef) (f : Thread → Thread) : (g.modThread t f).cur = g.cur := rfl
@[simp] theorem Gpu.modThread_wgs (g : Gpu) (t : TRef) (f : Thread → Thread) : (g.modThread t f).wgs = g.wgs := rfl
@[simp] theorem Gpu.modThread_launches (g : Gpu) (t : TRef) (f : Thread → Thread) : (g.modThread t f).launches = g.launches := rfl
@[simp] theorem Gpu.modThread_ctxs (g : Gpu) (t : TRef) (f : Thread → Thread) : (g.modThread t f).ctxs = g.ctxs := rfl
@[simp] theorem Gpu.modThread_ops (g : Gpu) (t : TRef) (f : Thread → Thread) : (g.modThread t f).ops = g.ops := rfl
@[simp] theorem Gpu.modThread_rays (g : Gpu) (t : TRef) (f : Thread → Thread) : (g.modThread t f).rays = g.rays := rfl
@[simp] theorem Gpu.modThread_cores (g : Gpu) (t : TRef) (f : Thread → Thread) : (g.modThread t f).cores = g.cores := rfl
@[simp] theorem Gpu.modThread_mem (g : Gpu) (t : TRef) (f : Thread → Thread) : (g.modThread t f).mem = g.mem := rfl
@[simp] theorem Gpu.modThread_parts (g : Gpu) (t : TRef) (f : Thread → Thread) : (g.modThread t f).parts = g.parts := rfl
@[simp] theorem Gpu.modThread_fabric (g : Gpu) (t : TRef) (f : Thread → Thread) : (g.modThread t f).fabric = g.fabric := rfl
@[simp] theorem Gpu.modThread_gov (g : Gpu) (t : TRef) (f : Thread → Thread) : (g.modThread t f).gov = g.gov := rfl
@[simp] theorem Gpu.modThread_now (g : Gpu) (t : TRef) (f : Thread → Thread) : (g.modThread t f).now = g.now := rfl
@[simp] theorem Gpu.modThread_ptp (g : Gpu) (t : TRef) (f : Thread → Thread) : (g.modThread t f).ptp = g.ptp := rfl
@[simp] theorem Gpu.modThread_free (g : Gpu) (t : TRef) (f : Thread → Thread) : (g.modThread t f).free = g.free := rfl
@[simp] theorem Gpu.modThread_devErr (g : Gpu) (t : TRef) (f : Thread → Thread) : (g.modThread t f).devErr = g.devErr := rfl
@[simp] theorem Gpu.modThread_nextId (g : Gpu) (t : TRef) (f : Thread → Thread) : (g.modThread t f).nextId = g.nextId := rfl
@[simp] theorem Gpu.setThread_cur (g : Gpu) (t : TRef) (th : Thread) : (g.setThread t th).cur = g.cur := rfl
@[simp] theorem Gpu.setThread_wgs (g : Gpu) (t : TRef) (th : Thread) : (g.setThread t th).wgs = g.wgs := rfl
@[simp] theorem Gpu.setThread_launches (g : Gpu) (t : TRef) (th : Thread) : (g.setThread t th).launches = g.launches := rfl
@[simp] theorem Gpu.setThread_ctxs (g : Gpu) (t : TRef) (th : Thread) : (g.setThread t th).ctxs = g.ctxs := rfl
@[simp] theorem Gpu.setThread_ops (g : Gpu) (t : TRef) (th : Thread) : (g.setThread t th).ops = g.ops := rfl
@[simp] theorem Gpu.setThread_rays (g : Gpu) (t : TRef) (th : Thread) : (g.setThread t th).rays = g.rays := rfl
@[simp] theorem Gpu.setThread_cores (g : Gpu) (t : TRef) (th : Thread) : (g.setThread t th).cores = g.cores := rfl
@[simp] theorem Gpu.setThread_mem (g : Gpu) (t : TRef) (th : Thread) : (g.setThread t th).mem = g.mem := rfl
@[simp] theorem Gpu.setThread_parts (g : Gpu) (t : TRef) (th : Thread) : (g.setThread t th).parts = g.parts := rfl
@[simp] theorem Gpu.setThread_fabric (g : Gpu) (t : TRef) (th : Thread) : (g.setThread t th).fabric = g.fabric := rfl
@[simp] theorem Gpu.setThread_gov (g : Gpu) (t : TRef) (th : Thread) : (g.setThread t th).gov = g.gov := rfl
@[simp] theorem Gpu.setThread_now (g : Gpu) (t : TRef) (th : Thread) : (g.setThread t th).now = g.now := rfl
@[simp] theorem Gpu.setThread_ptp (g : Gpu) (t : TRef) (th : Thread) : (g.setThread t th).ptp = g.ptp := rfl
@[simp] theorem Gpu.setThread_free (g : Gpu) (t : TRef) (th : Thread) : (g.setThread t th).free = g.free := rfl
@[simp] theorem Gpu.setThread_devErr (g : Gpu) (t : TRef) (th : Thread) : (g.setThread t th).devErr = g.devErr := rfl
@[simp] theorem Gpu.setThread_nextId (g : Gpu) (t : TRef) (th : Thread) : (g.setThread t th).nextId = g.nextId := rfl
@[simp] theorem Gpu.modWg_cur (g : Gpu) (i : Nat) (f : Wg → Wg) : (g.modWg i f).cur = g.cur := rfl
@[simp] theorem Gpu.modWg_threads (g : Gpu) (i : Nat) (f : Wg → Wg) : (g.modWg i f).threads = g.threads := rfl
@[simp] theorem Gpu.modWg_launches (g : Gpu) (i : Nat) (f : Wg → Wg) : (g.modWg i f).launches = g.launches := rfl
@[simp] theorem Gpu.modWg_ctxs (g : Gpu) (i : Nat) (f : Wg → Wg) : (g.modWg i f).ctxs = g.ctxs := rfl
@[simp] theorem Gpu.modWg_ops (g : Gpu) (i : Nat) (f : Wg → Wg) : (g.modWg i f).ops = g.ops := rfl
@[simp] theorem Gpu.modWg_rays (g : Gpu) (i : Nat) (f : Wg → Wg) : (g.modWg i f).rays = g.rays := rfl
@[simp] theorem Gpu.modWg_cores (g : Gpu) (i : Nat) (f : Wg → Wg) : (g.modWg i f).cores = g.cores := rfl
@[simp] theorem Gpu.modWg_mem (g : Gpu) (i : Nat) (f : Wg → Wg) : (g.modWg i f).mem = g.mem := rfl
@[simp] theorem Gpu.modWg_parts (g : Gpu) (i : Nat) (f : Wg → Wg) : (g.modWg i f).parts = g.parts := rfl
@[simp] theorem Gpu.modWg_fabric (g : Gpu) (i : Nat) (f : Wg → Wg) : (g.modWg i f).fabric = g.fabric := rfl
@[simp] theorem Gpu.modWg_gov (g : Gpu) (i : Nat) (f : Wg → Wg) : (g.modWg i f).gov = g.gov := rfl
@[simp] theorem Gpu.modWg_now (g : Gpu) (i : Nat) (f : Wg → Wg) : (g.modWg i f).now = g.now := rfl
@[simp] theorem Gpu.modWg_ptp (g : Gpu) (i : Nat) (f : Wg → Wg) : (g.modWg i f).ptp = g.ptp := rfl
@[simp] theorem Gpu.modWg_free (g : Gpu) (i : Nat) (f : Wg → Wg) : (g.modWg i f).free = g.free := rfl
@[simp] theorem Gpu.modWg_devErr (g : Gpu) (i : Nat) (f : Wg → Wg) : (g.modWg i f).devErr = g.devErr := rfl
@[simp] theorem Gpu.modWg_nextId (g : Gpu) (i : Nat) (f : Wg → Wg) : (g.modWg i f).nextId = g.nextId := rfl
@[simp] theorem Gpu.modLaunch_cur (g : Gpu) (i : Nat) (f : Launch → Launch) : (g.modLaunch i f).cur = g.cur := rfl
@[simp] theorem Gpu.modLaunch_threads (g : Gpu) (i : Nat) (f : Launch → Launch) : (g.modLaunch i f).threads = g.threads := rfl
@[simp] theorem Gpu.modLaunch_wgs (g : Gpu) (i : Nat) (f : Launch → Launch) : (g.modLaunch i f).wgs = g.wgs := rfl
@[simp] theorem Gpu.modLaunch_ctxs (g : Gpu) (i : Nat) (f : Launch → Launch) : (g.modLaunch i f).ctxs = g.ctxs := rfl
@[simp] theorem Gpu.modLaunch_ops (g : Gpu) (i : Nat) (f : Launch → Launch) : (g.modLaunch i f).ops = g.ops := rfl
@[simp] theorem Gpu.modLaunch_rays (g : Gpu) (i : Nat) (f : Launch → Launch) : (g.modLaunch i f).rays = g.rays := rfl
@[simp] theorem Gpu.modLaunch_cores (g : Gpu) (i : Nat) (f : Launch → Launch) : (g.modLaunch i f).cores = g.cores := rfl
@[simp] theorem Gpu.modLaunch_mem (g : Gpu) (i : Nat) (f : Launch → Launch) : (g.modLaunch i f).mem = g.mem := rfl
@[simp] theorem Gpu.modLaunch_parts (g : Gpu) (i : Nat) (f : Launch → Launch) : (g.modLaunch i f).parts = g.parts := rfl
@[simp] theorem Gpu.modLaunch_fabric (g : Gpu) (i : Nat) (f : Launch → Launch) : (g.modLaunch i f).fabric = g.fabric := rfl
@[simp] theorem Gpu.modLaunch_gov (g : Gpu) (i : Nat) (f : Launch → Launch) : (g.modLaunch i f).gov = g.gov := rfl
@[simp] theorem Gpu.modLaunch_now (g : Gpu) (i : Nat) (f : Launch → Launch) : (g.modLaunch i f).now = g.now := rfl
@[simp] theorem Gpu.modLaunch_ptp (g : Gpu) (i : Nat) (f : Launch → Launch) : (g.modLaunch i f).ptp = g.ptp := rfl
@[simp] theorem Gpu.modLaunch_free (g : Gpu) (i : Nat) (f : Launch → Launch) : (g.modLaunch i f).free = g.free := rfl
@[simp] theorem Gpu.modLaunch_devErr (g : Gpu) (i : Nat) (f : Launch → Launch) : (g.modLaunch i f).devErr = g.devErr := rfl
@[simp] theorem Gpu.modLaunch_nextId (g : Gpu) (i : Nat) (f : Launch → Launch) : (g.modLaunch i f).nextId = g.nextId := rfl
@[simp] theorem Gpu.modCtx_cur (g : Gpu) (i : Nat) (f : Ctx → Ctx) : (g.modCtx i f).cur = g.cur := rfl
@[simp] theorem Gpu.modCtx_threads (g : Gpu) (i : Nat) (f : Ctx → Ctx) : (g.modCtx i f).threads = g.threads := rfl
@[simp] theorem Gpu.modCtx_wgs (g : Gpu) (i : Nat) (f : Ctx → Ctx) : (g.modCtx i f).wgs = g.wgs := rfl
@[simp] theorem Gpu.modCtx_launches (g : Gpu) (i : Nat) (f : Ctx → Ctx) : (g.modCtx i f).launches = g.launches := rfl
@[simp] theorem Gpu.modCtx_ops (g : Gpu) (i : Nat) (f : Ctx → Ctx) : (g.modCtx i f).ops = g.ops := rfl
@[simp] theorem Gpu.modCtx_rays (g : Gpu) (i : Nat) (f : Ctx → Ctx) : (g.modCtx i f).rays = g.rays := rfl
@[simp] theorem Gpu.modCtx_cores (g : Gpu) (i : Nat) (f : Ctx → Ctx) : (g.modCtx i f).cores = g.cores := rfl
@[simp] theorem Gpu.modCtx_mem (g : Gpu) (i : Nat) (f : Ctx → Ctx) : (g.modCtx i f).mem = g.mem := rfl
@[simp] theorem Gpu.modCtx_parts (g : Gpu) (i : Nat) (f : Ctx → Ctx) : (g.modCtx i f).parts = g.parts := rfl
@[simp] theorem Gpu.modCtx_fabric (g : Gpu) (i : Nat) (f : Ctx → Ctx) : (g.modCtx i f).fabric = g.fabric := rfl
@[simp] theorem Gpu.modCtx_gov (g : Gpu) (i : Nat) (f : Ctx → Ctx) : (g.modCtx i f).gov = g.gov := rfl
@[simp] theorem Gpu.modCtx_now (g : Gpu) (i : Nat) (f : Ctx → Ctx) : (g.modCtx i f).now = g.now := rfl
@[simp] theorem Gpu.modCtx_ptp (g : Gpu) (i : Nat) (f : Ctx → Ctx) : (g.modCtx i f).ptp = g.ptp := rfl
@[simp] theorem Gpu.modCtx_free (g : Gpu) (i : Nat) (f : Ctx → Ctx) : (g.modCtx i f).free = g.free := rfl
@[simp] theorem Gpu.modCtx_devErr (g : Gpu) (i : Nat) (f : Ctx → Ctx) : (g.modCtx i f).devErr = g.devErr := rfl
@[simp] theorem Gpu.modCtx_nextId (g : Gpu) (i : Nat) (f : Ctx → Ctx) : (g.modCtx i f).nextId = g.nextId := rfl
@[simp] theorem Gpu.modPart_cur (g : Gpu) (i : Nat) (f : Part → Part) : (g.modPart i f).cur = g.cur := rfl
@[simp] theorem Gpu.modPart_threads (g : Gpu) (i : Nat) (f : Part → Part) : (g.modPart i f).threads = g.threads := rfl
@[simp] theorem Gpu.modPart_wgs (g : Gpu) (i : Nat) (f : Part → Part) : (g.modPart i f).wgs = g.wgs := rfl
@[simp] theorem Gpu.modPart_launches (g : Gpu) (i : Nat) (f : Part → Part) : (g.modPart i f).launches = g.launches := rfl
@[simp] theorem Gpu.modPart_ctxs (g : Gpu) (i : Nat) (f : Part → Part) : (g.modPart i f).ctxs = g.ctxs := rfl
@[simp] theorem Gpu.modPart_ops (g : Gpu) (i : Nat) (f : Part → Part) : (g.modPart i f).ops = g.ops := rfl
@[simp] theorem Gpu.modPart_rays (g : Gpu) (i : Nat) (f : Part → Part) : (g.modPart i f).rays = g.rays := rfl
@[simp] theorem Gpu.modPart_cores (g : Gpu) (i : Nat) (f : Part → Part) : (g.modPart i f).cores = g.cores := rfl
@[simp] theorem Gpu.modPart_mem (g : Gpu) (i : Nat) (f : Part → Part) : (g.modPart i f).mem = g.mem := rfl
@[simp] theorem Gpu.modPart_fabric (g : Gpu) (i : Nat) (f : Part → Part) : (g.modPart i f).fabric = g.fabric := rfl
@[simp] theorem Gpu.modPart_gov (g : Gpu) (i : Nat) (f : Part → Part) : (g.modPart i f).gov = g.gov := rfl
@[simp] theorem Gpu.modPart_now (g : Gpu) (i : Nat) (f : Part → Part) : (g.modPart i f).now = g.now := rfl
@[simp] theorem Gpu.modPart_ptp (g : Gpu) (i : Nat) (f : Part → Part) : (g.modPart i f).ptp = g.ptp := rfl
@[simp] theorem Gpu.modPart_free (g : Gpu) (i : Nat) (f : Part → Part) : (g.modPart i f).free = g.free := rfl
@[simp] theorem Gpu.modPart_devErr (g : Gpu) (i : Nat) (f : Part → Part) : (g.modPart i f).devErr = g.devErr := rfl
@[simp] theorem Gpu.modPart_nextId (g : Gpu) (i : Nat) (f : Part → Part) : (g.modPart i f).nextId = g.nextId := rfl
@[simp] theorem Gpu.modOp_cur (g : Gpu) (i : Nat) (f : Op → Op) : (g.modOp i f).cur = g.cur := rfl
@[simp] theorem Gpu.modOp_threads (g : Gpu) (i : Nat) (f : Op → Op) : (g.modOp i f).threads = g.threads := rfl
@[simp] theorem Gpu.modOp_wgs (g : Gpu) (i : Nat) (f : Op → Op) : (g.modOp i f).wgs = g.wgs := rfl
@[simp] theorem Gpu.modOp_launches (g : Gpu) (i : Nat) (f : Op → Op) : (g.modOp i f).launches = g.launches := rfl
@[simp] theorem Gpu.modOp_ctxs (g : Gpu) (i : Nat) (f : Op → Op) : (g.modOp i f).ctxs = g.ctxs := rfl
@[simp] theorem Gpu.modOp_rays (g : Gpu) (i : Nat) (f : Op → Op) : (g.modOp i f).rays = g.rays := rfl
@[simp] theorem Gpu.modOp_cores (g : Gpu) (i : Nat) (f : Op → Op) : (g.modOp i f).cores = g.cores := rfl
@[simp] theorem Gpu.modOp_mem (g : Gpu) (i : Nat) (f : Op → Op) : (g.modOp i f).mem = g.mem := rfl
@[simp] theorem Gpu.modOp_parts (g : Gpu) (i : Nat) (f : Op → Op) : (g.modOp i f).parts = g.parts := rfl
@[simp] theorem Gpu.modOp_fabric (g : Gpu) (i : Nat) (f : Op → Op) : (g.modOp i f).fabric = g.fabric := rfl
@[simp] theorem Gpu.modOp_gov (g : Gpu) (i : Nat) (f : Op → Op) : (g.modOp i f).gov = g.gov := rfl
@[simp] theorem Gpu.modOp_now (g : Gpu) (i : Nat) (f : Op → Op) : (g.modOp i f).now = g.now := rfl
@[simp] theorem Gpu.modOp_ptp (g : Gpu) (i : Nat) (f : Op → Op) : (g.modOp i f).ptp = g.ptp := rfl
@[simp] theorem Gpu.modOp_free (g : Gpu) (i : Nat) (f : Op → Op) : (g.modOp i f).free = g.free := rfl
@[simp] theorem Gpu.modOp_devErr (g : Gpu) (i : Nat) (f : Op → Op) : (g.modOp i f).devErr = g.devErr := rfl
@[simp] theorem Gpu.modOp_nextId (g : Gpu) (i : Nat) (f : Op → Op) : (g.modOp i f).nextId = g.nextId := rfl
@[simp] theorem Gpu.dropOp_cur (g : Gpu) (i : Nat) : (g.dropOp i).cur = g.cur := rfl
@[simp] theorem Gpu.dropOp_threads (g : Gpu) (i : Nat) : (g.dropOp i).threads = g.threads := rfl
@[simp] theorem Gpu.dropOp_wgs (g : Gpu) (i : Nat) : (g.dropOp i).wgs = g.wgs := rfl
@[simp] theorem Gpu.dropOp_launches (g : Gpu) (i : Nat) : (g.dropOp i).launches = g.launches := rfl
@[simp] theorem Gpu.dropOp_ctxs (g : Gpu) (i : Nat) : (g.dropOp i).ctxs = g.ctxs := rfl
@[simp] theorem Gpu.dropOp_rays (g : Gpu) (i : Nat) : (g.dropOp i).rays = g.rays := rfl
@[simp] theorem Gpu.dropOp_cores (g : Gpu) (i : Nat) : (g.dropOp i).cores = g.cores := rfl
@[simp] theorem Gpu.dropOp_mem (g : Gpu) (i : Nat) : (g.dropOp i).mem = g.mem := rfl
@[simp] theorem Gpu.dropOp_parts (g : Gpu) (i : Nat) : (g.dropOp i).parts = g.parts := rfl
@[simp] theorem Gpu.dropOp_fabric (g : Gpu) (i : Nat) : (g.dropOp i).fabric = g.fabric := rfl
@[simp] theorem Gpu.dropOp_gov (g : Gpu) (i : Nat) : (g.dropOp i).gov = g.gov := rfl
@[simp] theorem Gpu.dropOp_now (g : Gpu) (i : Nat) : (g.dropOp i).now = g.now := rfl
@[simp] theorem Gpu.dropOp_ptp (g : Gpu) (i : Nat) : (g.dropOp i).ptp = g.ptp := rfl
@[simp] theorem Gpu.dropOp_free (g : Gpu) (i : Nat) : (g.dropOp i).free = g.free := rfl
@[simp] theorem Gpu.dropOp_devErr (g : Gpu) (i : Nat) : (g.dropOp i).devErr = g.devErr := rfl
@[simp] theorem Gpu.dropOp_nextId (g : Gpu) (i : Nat) : (g.dropOp i).nextId = g.nextId := rfl
@[simp] theorem Gpu.mapCores_cur (g : Gpu) (f : Nat → CoreSt → CoreSt) : (g.mapCores f).cur = g.cur := rfl
@[simp] theorem Gpu.mapCores_threads (g : Gpu) (f : Nat → CoreSt → CoreSt) : (g.mapCores f).threads = g.threads := rfl
@[simp] theorem Gpu.mapCores_wgs (g : Gpu) (f : Nat → CoreSt → CoreSt) : (g.mapCores f).wgs = g.wgs := rfl
@[simp] theorem Gpu.mapCores_launches (g : Gpu) (f : Nat → CoreSt → CoreSt) : (g.mapCores f).launches = g.launches := rfl
@[simp] theorem Gpu.mapCores_ctxs (g : Gpu) (f : Nat → CoreSt → CoreSt) : (g.mapCores f).ctxs = g.ctxs := rfl
@[simp] theorem Gpu.mapCores_ops (g : Gpu) (f : Nat → CoreSt → CoreSt) : (g.mapCores f).ops = g.ops := rfl
@[simp] theorem Gpu.mapCores_rays (g : Gpu) (f : Nat → CoreSt → CoreSt) : (g.mapCores f).rays = g.rays := rfl
@[simp] theorem Gpu.mapCores_mem (g : Gpu) (f : Nat → CoreSt → CoreSt) : (g.mapCores f).mem = g.mem := rfl
@[simp] theorem Gpu.mapCores_parts (g : Gpu) (f : Nat → CoreSt → CoreSt) : (g.mapCores f).parts = g.parts := rfl
@[simp] theorem Gpu.mapCores_fabric (g : Gpu) (f : Nat → CoreSt → CoreSt) : (g.mapCores f).fabric = g.fabric := rfl
@[simp] theorem Gpu.mapCores_gov (g : Gpu) (f : Nat → CoreSt → CoreSt) : (g.mapCores f).gov = g.gov := rfl
@[simp] theorem Gpu.mapCores_now (g : Gpu) (f : Nat → CoreSt → CoreSt) : (g.mapCores f).now = g.now := rfl
@[simp] theorem Gpu.mapCores_ptp (g : Gpu) (f : Nat → CoreSt → CoreSt) : (g.mapCores f).ptp = g.ptp := rfl
@[simp] theorem Gpu.mapCores_free (g : Gpu) (f : Nat → CoreSt → CoreSt) : (g.mapCores f).free = g.free := rfl
@[simp] theorem Gpu.mapCores_devErr (g : Gpu) (f : Nat → CoreSt → CoreSt) : (g.mapCores f).devErr = g.devErr := rfl
@[simp] theorem Gpu.mapCores_nextId (g : Gpu) (f : Nat → CoreSt → CoreSt) : (g.mapCores f).nextId = g.nextId := rfl
@[simp] theorem Gpu.modCore_cur (g : Gpu) (n : Nat) (f : CoreSt → CoreSt) : (g.modCore n f).cur = g.cur := by unfold Gpu.modCore; split <;> rfl
@[simp] theorem Gpu.modCore_threads (g : Gpu) (n : Nat) (f : CoreSt → CoreSt) : (g.modCore n f).threads = g.threads := by unfold Gpu.modCore; split <;> rfl
@[simp] theorem Gpu.modCore_wgs (g : Gpu) (n : Nat) (f : CoreSt → CoreSt) : (g.modCore n f).wgs = g.wgs := by unfold Gpu.modCore; split <;> rfl
@[simp] theorem Gpu.modCore_launches (g : Gpu) (n : Nat) (f : CoreSt → CoreSt) : (g.modCore n f).launches = g.launches := by unfold Gpu.modCore; split <;> rfl
@[simp] theorem Gpu.modCore_ctxs (g : Gpu) (n : Nat) (f : CoreSt → CoreSt) : (g.modCore n f).ctxs = g.ctxs := by unfold Gpu.modCore; split <;> rfl
@[simp] theorem Gpu.modCore_ops (g : Gpu) (n : Nat) (f : CoreSt → CoreSt) : (g.modCore n f).ops = g.ops := by unfold Gpu.modCore; split <;> rfl
@[simp] theorem Gpu.modCore_rays (g : Gpu) (n : Nat) (f : CoreSt → CoreSt) : (g.modCore n f).rays = g.rays := by unfold Gpu.modCore; split <;> rfl
@[simp] theorem Gpu.modCore_mem (g : Gpu) (n : Nat) (f : CoreSt → CoreSt) : (g.modCore n f).mem = g.mem := by unfold Gpu.modCore; split <;> rfl
@[simp] theorem Gpu.modCore_parts (g : Gpu) (n : Nat) (f : CoreSt → CoreSt) : (g.modCore n f).parts = g.parts := by unfold Gpu.modCore; split <;> rfl
@[simp] theorem Gpu.modCore_fabric (g : Gpu) (n : Nat) (f : CoreSt → CoreSt) : (g.modCore n f).fabric = g.fabric := by unfold Gpu.modCore; split <;> rfl
@[simp] theorem Gpu.modCore_gov (g : Gpu) (n : Nat) (f : CoreSt → CoreSt) : (g.modCore n f).gov = g.gov := by unfold Gpu.modCore; split <;> rfl
@[simp] theorem Gpu.modCore_now (g : Gpu) (n : Nat) (f : CoreSt → CoreSt) : (g.modCore n f).now = g.now := by unfold Gpu.modCore; split <;> rfl
@[simp] theorem Gpu.modCore_ptp (g : Gpu) (n : Nat) (f : CoreSt → CoreSt) : (g.modCore n f).ptp = g.ptp := by unfold Gpu.modCore; split <;> rfl
@[simp] theorem Gpu.modCore_free (g : Gpu) (n : Nat) (f : CoreSt → CoreSt) : (g.modCore n f).free = g.free := by unfold Gpu.modCore; split <;> rfl
@[simp] theorem Gpu.modCore_devErr (g : Gpu) (n : Nat) (f : CoreSt → CoreSt) : (g.modCore n f).devErr = g.devErr := by unfold Gpu.modCore; split <;> rfl
@[simp] theorem Gpu.modCore_nextId (g : Gpu) (n : Nat) (f : CoreSt → CoreSt) : (g.modCore n f).nextId = g.nextId := by unfold Gpu.modCore; split <;> rfl
@[simp] theorem Gpu.fresh_cur (g : Gpu) : (g.fresh).cur = g.cur := rfl
@[simp] theorem Gpu.fresh_threads (g : Gpu) : (g.fresh).threads = g.threads := rfl
@[simp] theorem Gpu.fresh_wgs (g : Gpu) : (g.fresh).wgs = g.wgs := rfl
@[simp] theorem Gpu.fresh_launches (g : Gpu) : (g.fresh).launches = g.launches := rfl
@[simp] theorem Gpu.fresh_ctxs (g : Gpu) : (g.fresh).ctxs = g.ctxs := rfl
@[simp] theorem Gpu.fresh_ops (g : Gpu) : (g.fresh).ops = g.ops := rfl
@[simp] theorem Gpu.fresh_rays (g : Gpu) : (g.fresh).rays = g.rays := rfl
@[simp] theorem Gpu.fresh_cores (g : Gpu) : (g.fresh).cores = g.cores := rfl
@[simp] theorem Gpu.fresh_mem (g : Gpu) : (g.fresh).mem = g.mem := rfl
@[simp] theorem Gpu.fresh_parts (g : Gpu) : (g.fresh).parts = g.parts := rfl
@[simp] theorem Gpu.fresh_fabric (g : Gpu) : (g.fresh).fabric = g.fabric := rfl
@[simp] theorem Gpu.fresh_gov (g : Gpu) : (g.fresh).gov = g.gov := rfl
@[simp] theorem Gpu.fresh_now (g : Gpu) : (g.fresh).now = g.now := rfl
@[simp] theorem Gpu.fresh_ptp (g : Gpu) : (g.fresh).ptp = g.ptp := rfl
@[simp] theorem Gpu.fresh_free (g : Gpu) : (g.fresh).free = g.free := rfl
@[simp] theorem Gpu.fresh_devErr (g : Gpu) : (g.fresh).devErr = g.devErr := rfl

/-! ### The state -/

@[simp] theorem State.onGpu_clk (s : State) (f : Gpu → Gpu) : (s.onGpu f).clk = s.clk := rfl
@[simp] theorem State.onGpu_sec (s : State) (f : Gpu → Gpu) : (s.onGpu f).sec = s.sec := rfl
@[simp] theorem State.onGpu_agenda (s : State) (f : Gpu → Gpu) : (s.onGpu f).agenda = s.agenda := rfl
theorem State.onGpu_gpu (s : State) (f : Gpu → Gpu) : (s.onGpu f).gpu = f { s.gpu with now := s.clk.cyc, ptp := s.clk.ptp } := rfl
theorem State.device_eq (s : State) (f : Gpu → Gpu) : s.device f = .next (s.onGpu f) := rfl

end Sys2Proof.Machine
end

