-- ==== Sys2Proof/Laws/Issue.lean ====
section
/-! SUPPORT. What the shared frames of instruction words do: looking threads up after an update, the end of a word, and the
per-thread word. -/

namespace Sys2Proof.Machine

open Sys2Proof

/-! ### Threads after an update -/

theorem find?_mapThreads (l : List (TRef × Thread)) (f : TRef → Thread → Thread) (u : TRef) :
    ((l.map fun x => (x.1, f x.1 x.2)).find? fun x => x.1 == u).map (·.2) = ((l.find? fun x => x.1 == u).map (·.2)).map (f u) := by
  induction l with
  | nil => rfl
  | cons x l ih =>
    simp only [List.map_cons, List.find?_cons]
    by_cases h : x.1 = u
    · simp [h]
    · simp only [beq_eq_false_iff_ne.mpr h]; exact ih

@[simp] theorem Gpu.thread?_mapThreads (g : Gpu) (f : TRef → Thread → Thread) (u : TRef) :
    (g.mapThreads f).thread? u = (g.thread? u).map (f u) := find?_mapThreads g.threads f u

@[simp] theorem Gpu.thread?_modThread_same (g : Gpu) (f : Thread → Thread) (u : TRef) :
    (g.modThread u f).thread? u = (g.thread? u).map f := by simp [Gpu.modThread]

theorem Gpu.thread?_modThread_other (g : Gpu) (f : Thread → Thread) {t u : TRef} (h : u ≠ t) :
    (g.modThread t f).thread? u = g.thread? u := by simp [Gpu.modThread, h]

@[simp] theorem Gpu.rest_mapThreads (g : Gpu) (f : TRef → Thread → Thread) : (g.mapThreads f).rest = g.rest := rfl

@[simp] theorem Gpu.rest_modThread (g : Gpu) (t : TRef) (f : Thread → Thread) : (g.modThread t f).rest = g.rest := rfl

@[simp] theorem Gpu.env_mapThreads (g : Gpu) (f : TRef → Thread → Thread) (t : TRef) : (g.mapThreads f).env t = g.env t := rfl

@[simp] theorem Gpu.env_modThread (g : Gpu) (u : TRef) (f : Thread → Thread) (t : TRef) : (g.modThread u f).env t = g.env t := rfl

@[simp] theorem Thread.data_data (th : Thread) : th.data.data = th.data := rfl

/-- Changes to the active set of a core in use are bookkeeping. -/
theorem Gpu.rest_modActive (g : Gpu) (n : Nat) (f : CoreSt → CoreSt) (hf : ∀ c, { f c with active := [] } = { c with active := [] })
    (h : (g.cores.any fun x => x.1 == n) = true) : (g.modCore n f).rest = g.rest := by
  have hc : (g.cores.map fun x => if x.1 = n then (n, f x.2) else x).map (fun x => (x.1, { x.2 with active := [] })) =
      g.cores.map fun x => (x.1, { x.2 with active := [] }) := by
    rw [List.map_map]
    apply List.map_congr_left
    intro x _
    simp only [Function.comp]
    split
    · rename_i hx; rw [hf, hx]
    · rfl
  simp only [Gpu.modCore, h, if_true, Gpu.rest]
  exact congrArg (fun cs => ({ g with cur := .none, threads := [], nextId := 0, now := 0, ptp := 0, cores := cs } : Gpu)) hc

/-! ### Lanes in order -/

theorem mem_insertLane (t u : TRef) (l : List TRef) : u ∈ insertLane t l ↔ u = t ∨ u ∈ l := by
  induction l with
  | nil => simp [insertLane]
  | cons x l ih =>
    simp only [insertLane]
    split
    · simp
    · simp only [List.mem_cons, ih]; tauto

/-- Sorting keeps the members. -/
theorem mem_sortLanes (u : TRef) (l : List TRef) : u ∈ sortLanes l ↔ u ∈ l := by
  induction l with
  | nil => simp [sortLanes]
  | cons x l ih =>
    have : sortLanes (x :: l) = insertLane x (sortLanes l) := rfl
    rw [this, mem_insertLane, ih, List.mem_cons]

/-! ### The bundle after a word -/

/-- `regroup` changes no thread but for its scheduling. -/
theorem Gpu.thread?_regroup (g : Gpu) (iss : Issue) (m : Mode) (u : TRef) :
    ∃ f : Thread → Thread, (g.regroup iss m).thread? u = (g.thread? u).map f ∧ (∀ th, (f th).data = th.data) ∧
      (u ∉ iss.members → f = id) ∧ (∀ th, g.thread? u = some th → m = .user → th.mode = .trap → f th = th) := by
  let live := (sortLanes iss.members).filterMap fun t => (g.thread? t).map fun th => (t, th)
  let act := live.filter fun x => x.2.status == .active
  let same := act.filter fun x => x.2.mode == m
  let pc := (same.head?.map fun x => x.2.pc).getD 0
  let keep := (same.filter fun x => x.2.pc == pc).map (·.1)
  let ready := (act.filter fun x => !keep.contains x.1 && !(x.2.mode == .trap && m == .user)).map (·.1)
  refine ⟨fun th => if ready.contains u then { th with status := .ready } else th, ?_, ?_, ?_, ?_⟩
  · have : (g.regroup iss m).thread? u = (g.mapThreads fun t th => if ready.contains t then { th with status := .ready } else th).thread? u := by
      simp only [Gpu.regroup, Gpu.modCore]
      split <;> rfl
    rw [this, Gpu.thread?_mapThreads]
  · intro th; dsimp only; split <;> rfl
  · intro hu
    have hr : ready.contains u = false := by
      rw [Bool.eq_false_iff]
      intro hc
      simp only [List.contains_iff_mem, ready, act, live, List.mem_map, List.mem_filter, List.mem_filterMap] at hc
      obtain ⟨x, ⟨⟨⟨t, ht, hx⟩, _⟩, _⟩, rfl⟩ := hc
      have : t = x.1 := by
        cases hg : g.thread? t with
        | none => simp [hg] at hx
        | some th => simp [hg] at hx; rw [← hx]
      subst this
      exact hu ((mem_sortLanes _ _).mp ht)
    funext th; simp only [hr, Bool.false_eq_true, if_false, id]
  · intro th hth hm htr
    have hr : ready.contains u = false := by
      rw [Bool.eq_false_iff]
      intro hc
      simp only [List.contains_iff_mem, ready, act, live, List.mem_map, List.mem_filter, List.mem_filterMap] at hc
      obtain ⟨x, ⟨⟨⟨t, ht, hx⟩, _⟩, hn⟩, rfl⟩ := hc
      cases hg : g.thread? t with
      | none => simp [hg] at hx
      | some th' =>
        simp [hg] at hx
        subst hx
        rw [hg] at hth
        cases hth
        simp [htr, hm] at hn
    simp only [hr, Bool.false_eq_true, if_false]

/-- `regroup` changes threads and bookkeeping alone. -/
theorem Gpu.rest_regroup (g : Gpu) (iss : Issue) (m : Mode) (h : (g.cores.any fun x => x.1 == iss.core) = true) :
    (g.regroup iss m).rest = g.rest := by
  simp only [Gpu.regroup]
  have key : ∀ (g' : Gpu) (n : Nat) (c : Issue), ({ g' with nextId := n, cur := c } : Gpu).rest = g'.rest := fun _ _ _ => rfl
  rw [key]
  refine (Gpu.rest_modActive _ _ _ ?_ ?_).trans (Gpu.rest_mapThreads g _)
  · intro c; rfl
  · exact h

/-! ### The end of a word -/

/-- A member that is done keeps its data when no deferred trap is delivered. -/
theorem finishMember_done_data (sw : Bool) (iss : Issue) (tvec : DWord) (mask : TrapKind → Word) (lane : Nat) (th : Thread)
    (h : sw = true → th.still) :
    (finishMember sw iss tvec mask lane .done th).data = th.data := by
  simp only [finishMember]
  split
  · rename_i hs
    split
    · rfl
    · split
      · rename_i hm
        have := (h (by simp_all)).1 (by simpa using hm)
        simp [Thread.deliver, this.1, this.2]
      · rfl
  · split <;> rfl

/-- A member that neither parks nor traps fences no context, when nothing is deferred. -/
theorem Thread.faultsAt_still (sw : Bool) (f : Fate) (th : Thread) (h : sw = true → th.still) : th.faultsAt sw f = false := by
  unfold Thread.faultsAt
  cases sw
  · rfl
  · rw [(h rfl).2, Bool.and_false]

/-- A thread that is not ACTIVE fences no context. -/
theorem Thread.faultsAt_inactive (sw : Bool) (f : Fate) (th : Thread) (h : th.status ≠ .active) : th.faultsAt sw f = false := by
  unfold Thread.faultsAt
  rw [beq_eq_false_iff_ne.mpr h, Bool.and_false, Bool.false_and, Bool.false_and]

/-- A fate not listed is `done`. -/
theorem Fates.of_eq_done {fs : Fates} (h : ∀ x ∈ fs, x.2 = .done) (t : TRef) : fs.of t = .done := by
  simp only [Fates.of]
  cases hf : fs.find? fun x => x.1 == t with
  | none => rfl
  | some x => simp [h x (List.mem_of_find?_eq_some hf)]

/-- The end of a word in which no trap is raised, and none that is deferred is due: no context is fenced. -/
theorem Gpu.finishWord_eq (g : Gpu) (sw : Bool) (fs : Fates) (hd : ∀ x ∈ fs, ∀ k, x.2 ≠ .trap k)
    (hq : ∀ x ∈ fs, ∀ th, g.thread? x.1 = some th → th.faultsAt sw x.2 = false) :
    g.finishWord sw fs = (g.mapThreads fun t th =>
      if g.cur.members.contains t then finishMember sw g.cur (g.env t).tvec fs.mask t.lane (fs.of t) th else th).regroup g.cur
        (((g.cur.members.head?.bind g.thread?).map Thread.mode).getD .user) := by
  simp only [Gpu.finishWord]
  rw [List.filter_eq_nil_iff.mpr]
  · rfl
  · intro x hx
    cases hth : g.thread? x.1 with
    | none => simp
    | some th =>
      simp only [Option.any_some]
      split
      · rename_i k hk; exact absurd hk (hd x hx k)
      · rw [hq x hx th hth]; exact Bool.false_ne_true

/-- A word after which every member is done: the data of every thread stays, no other thread and nothing else changes. -/
theorem Gpu.finishWord_done (g : Gpu) (sw : Bool) (fs : Fates) (hd : ∀ x ∈ fs, x.2 = .done)
    (hk : (g.cores.any fun x => x.1 == g.cur.core) = true)
    (hm : ∀ x ∈ fs, x.1 ∈ g.cur.members)
    (hq : ∀ t ∈ g.cur.members, ∀ th, g.thread? t = some th → sw = true → th.still) :
    (g.finishWord sw fs).rest = g.rest ∧
    ∀ u, ∃ f : Thread → Thread, (g.finishWord sw fs).thread? u = (g.thread? u).map f ∧
      ∀ th, g.thread? u = some th → if u ∈ g.cur.members then (f th).data = th.data else f th = th := by
  rw [Gpu.finishWord_eq g sw fs (fun x hx k => by rw [hd x hx]; exact Fate.noConfusion)
    fun x hx th hth => th.faultsAt_still sw x.2 (hq x.1 (hm x hx) th hth)]
  constructor
  · exact (Gpu.rest_regroup (g.mapThreads _) _ _ hk).trans (Gpu.rest_mapThreads g _)
  · intro u
    obtain ⟨f, h1, h2, h3, _⟩ := Gpu.thread?_regroup
      (g.mapThreads fun t th => if g.cur.members.contains t then finishMember sw g.cur (g.env t).tvec fs.mask t.lane (fs.of t) th else th)
      g.cur (((g.cur.members.head?.bind g.thread?).map Thread.mode).getD .user) u
    refine ⟨fun th => f (if g.cur.members.contains u then finishMember sw g.cur (g.env u).tvec fs.mask u.lane (fs.of u) th else th), ?_, ?_⟩
    · rw [h1, Gpu.thread?_mapThreads, Option.map_map]; rfl
    · intro th hth
      by_cases hu : u ∈ g.cur.members
      · simp only [hu, if_true, List.contains_iff_mem]
        rw [h2, Fates.of_eq_done hd]
        exact finishMember_done_data _ _ _ _ _ _ (hq u hu th hth)
      · simp [hu, h3 hu]

/-! ### The per-thread word -/

/-- The PC does not make a deferred trap due. -/
theorem Thread.still_pc {th : Thread} (n : DWord) (h : th.still) : ({ th with pc := n } : Thread).still := h

/-- A member without a due trap has none after the word, when the effect brings none. -/
theorem after_still {s : State} {p : Pfx} {f : TRef → Thread → Thread} {u : TRef} {th : Thread} (h : th.still)
    (hf : ∀ x, x.still → (f u x).still) : (after s p f u th).still := by
  unfold after
  split
  · exact hf _ (Thread.still_pc _ h)
  · exact Thread.still_pc _ h

/-- A per-thread word that issues without obstacle and takes no trap: its effect in each member whose guards hold, and
nothing else. -/
theorem State.aluWord_effect (s : State) (p : Pfx) (used : List Reg) (f : Gpu → Env → Thread → Except Trap Thread)
    (h : TRef → Thread → Thread) (hi : Issuing s p used)
    (hf : ∀ t ∈ s.members, ∀ th, s.gpu.thread? t = some th → th.guards p = true →
      f { s.gpu with now := s.clk.cyc, ptp := s.clk.ptp } (s.gpu.env t) { th with pc := th.pc + BitVec.ofNat 64 s.gpu.cur.len } =
        .ok (h t { th with pc := th.pc + BitVec.ofNat 64 s.gpu.cur.len }))
    (hq : ∀ t ∈ s.members, ∀ th, p.sw = true → th.still → (h t th).still) :
    Effect s p (s.device fun g => g.aluWord p used (f g)) h := by
  obtain ⟨⟨hk, hs⟩, hr, ht⟩ := hi
  let g : Gpu := { s.gpu with now := s.clk.cyc, ptp := s.clk.ptp }
  have hth : ∀ u, g.thread? u = s.gpu.thread? u := fun _ => rfl
  have henv : ∀ u, g.env u = s.gpu.env u := fun _ => rfl
  have hstep : ∀ t ∈ s.members, ∀ th, s.gpu.thread? t = some th →
      memberStep p used g.cur.len (f g) (g.env t) th = (after s p h t th, .done) := by
    intro t hm th hgt
    simp only [memberStep, henv, hr t hm, Bool.false_eq_true, if_false, after]
    by_cases hg : th.guards p = true
    · have := hf t hm th hgt hg
      simp only [hg, Bool.not_true, Bool.false_eq_true, if_false, ht t hm th hgt hg, if_true]
      show (match f g (s.gpu.env t) _ with | .error k => _ | .ok th' => _) = _
      rw [this]
    · simp only [Bool.not_eq_true] at hg
      simp only [hg, Bool.not_false, if_true, Bool.false_eq_true, if_false]
      rfl
  let step := fun (t : TRef) (th : Thread) => memberStep p used g.cur.len (f g) (g.env t) th
  let fs : Fates := g.cur.members.filterMap fun t => (g.thread? t).map fun th => (t, (step t th).2)
  let g' := g.mapThreads fun t th => if g.cur.members.contains t then (step t th).1 else th
  have hd : ∀ x ∈ fs, x.2 = .done := by
    intro x hx
    simp only [fs, List.mem_filterMap] at hx
    obtain ⟨t, htm, hx⟩ := hx
    cases hgt : g.thread? t with
    | none => simp [hgt] at hx
    | some th =>
      simp only [hgt, Option.map_some, Option.some.injEq] at hx
      rw [← hx]
      exact congrArg Prod.snd (hstep t htm th hgt)
  have hg' : ∀ t th', t ∈ s.members → g'.thread? t = some th' → ∃ th, s.gpu.thread? t = some th ∧ th' = after s p h t th := by
    intro t th' hm h'
    rw [Gpu.thread?_mapThreads, hth] at h'
    cases hgt : s.gpu.thread? t with
    | none => simp [hgt] at h'
    | some th =>
      simp only [hgt, Option.map_some, Option.some.injEq] at h'
      refine ⟨th, rfl, ?_⟩
      have hc : g.cur.members.contains t = true := List.contains_iff_mem.mpr hm
      rw [if_pos hc] at h'
      rw [← h']
      exact congrArg Prod.fst (hstep t hm th hgt)
  have hfm : ∀ x ∈ fs, x.1 ∈ s.members := by
    intro x hx
    simp only [fs, List.mem_filterMap] at hx
    obtain ⟨t, htm, hx⟩ := hx
    obtain ⟨th, _, rfl⟩ := Option.map_eq_some_iff.mp hx
    exact htm
  have hfin := Gpu.finishWord_done g' p.sw fs hd hk hfm (by
    intro t hm th' h' hsw
    obtain ⟨th, hgt, rfl⟩ := hg' t th' hm h'
    exact after_still (hs t hm th hgt hsw) fun x hx => hq t hm x hsw hx)
  refine ⟨_, rfl, ?_, ?_, ?_⟩
  · show ({ s with gpu := (g'.finishWord p.sw fs).rest } : State) = _
    rw [hfin.1]; rfl
  · intro u hu
    obtain ⟨k, hk1, _⟩ := hfin.2 u
    show (g'.finishWord p.sw fs).thread? u = none
    rw [hk1, Gpu.thread?_mapThreads, hth, hu]; rfl
  · intro u th hu
    obtain ⟨k, hk1, hk2⟩ := hfin.2 u
    have hu' : g'.thread? u = some (if g.cur.members.contains u then (step u th).1 else th) := by
      rw [Gpu.thread?_mapThreads, hth, hu]; rfl
    refine ⟨_, by show (g'.finishWord p.sw fs).thread? u = _; rw [hk1, hu']; rfl, ?_⟩
    have := hk2 _ hu'
    by_cases hm : u ∈ s.members
    · have hc : g.cur.members.contains u = true := List.contains_iff_mem.mpr hm
      rw [if_pos hm]
      have hm' : u ∈ g'.cur.members := hm
      rw [if_pos hm', if_pos hc] at this
      rw [if_pos hc, this]
      exact congrArg (fun x => x.1.data) (hstep u hm th hu)
    · have hc : ¬ g.cur.members.contains u = true := fun h => hm (List.contains_iff_mem.mp h)
      rw [if_neg hm]
      have hm' : u ∉ g'.cur.members := hm
      rw [if_neg hm', if_neg hc] at this
      rw [if_neg hc]; exact this

/-! ### The end of a word of one thread -/

/-- `regroup` of a bundle of one thread in a mode. -/
theorem Gpu.thread?_regroup_other (g : Gpu) (iss : Issue) (m : Mode) {u v : TRef} (hm : iss.members = [u]) (hv : v ≠ u) :
    (g.regroup iss m).thread? v = g.thread? v := by
  obtain ⟨f, h1, _, h3, _⟩ := Gpu.thread?_regroup g iss m v
  rw [h1, h3 (by simp [hm, hv])]; simp

/-- `regroup` leaves a thread that is not ACTIVE. -/
theorem Gpu.thread?_regroup_inactive (g : Gpu) (iss : Issue) (m : Mode) {u : TRef} {th : Thread} (hu : g.thread? u = some th)
    (hs : th.status ≠ .active) : (g.regroup iss m).thread? u = some th := by
  let live := (sortLanes iss.members).filterMap fun t => (g.thread? t).map fun th => (t, th)
  let act := live.filter fun x => x.2.status == .active
  let same := act.filter fun x => x.2.mode == m
  let pc := (same.head?.map fun x => x.2.pc).getD 0
  let keep := (same.filter fun x => x.2.pc == pc).map (·.1)
  let ready := (act.filter fun x => !keep.contains x.1 && !(x.2.mode == .trap && m == .user)).map (·.1)
  have : (g.regroup iss m).thread? u = (g.mapThreads fun t th => if ready.contains t then { th with status := .ready } else th).thread? u := by
    simp only [Gpu.regroup, Gpu.modCore]
    split <;> rfl
  rw [this, Gpu.thread?_mapThreads, hu]
  have hr : ready.contains u = false := by
    rw [Bool.eq_false_iff]
    intro hc
    simp only [List.contains_iff_mem, ready, act, live, List.mem_map, List.mem_filter, List.mem_filterMap] at hc
    obtain ⟨x, ⟨⟨⟨t, ht, hx⟩, ha⟩, _⟩, rfl⟩ := hc
    cases hg : g.thread? t with
    | none => simp [hg] at hx
    | some th' =>
      simp only [hg, Option.map_some, Option.some.injEq] at hx
      subst hx
      rw [hg] at hu
      cases hu
      simp at ha
      exact hs ha
  simp only [Option.map_some, hr, Bool.false_eq_true, if_false]

/-- The thread of a bundle of one after the consequences of its word. -/
theorem Gpu.thread?_finish_solo (g : Gpu) (sw : Bool) (fs : Fates) {u v : TRef} {th : Thread} (hm : g.cur.members = [u])
    (hu : g.thread? u = some th) :
    (g.mapThreads fun t th => if g.cur.members.contains t then finishMember sw g.cur (g.env t).tvec fs.mask t.lane (fs.of t) th else th).thread? v =
      if v = u then some (finishMember sw g.cur (g.env u).tvec fs.mask u.lane (fs.of u) th) else g.thread? v := by
  rw [Gpu.thread?_mapThreads, hm]
  by_cases h : v = u
  · subst h; simp [hu]
  · simp [h]

/-- A word of one thread in user mode that ends in a trap. -/
theorem Gpu.finishWord_trap (g : Gpu) (sw : Bool) {u : TRef} {th : Thread} (k : Trap) (hm : g.cur.members = [u])
    (hu : g.thread? u = some th) (huser : th.mode = .user) (hk : (g.cores.any fun x => x.1 == g.cur.core) = true) :
    (g.finishWord sw [(u, .trap k)]).rest = g.rest ∧
    (g.finishWord sw [(u, .trap k)]).thread? u =
      some (th.takeTrap (g.env u).tvec k g.cur.pc g.cur.word g.cur.len ((1 : Word) <<< u.lane)) ∧
    ∀ v, v ≠ u → (g.finishWord sw [(u, .trap k)]).thread? v = g.thread? v := by
  have he : g.finishWord sw [(u, .trap k)] = (g.mapThreads fun t th =>
      if g.cur.members.contains t then
        finishMember sw g.cur (g.env t).tvec (Fates.mask [(u, .trap k)]) t.lane (Fates.of [(u, .trap k)] t) th
      else th).regroup g.cur .user := by
    simp only [Gpu.finishWord]
    rw [List.filter_eq_nil_iff.mpr]
    · simp only [hm, List.head?_cons, Option.bind_some, hu, Option.map_some, huser, Option.getD_some]
      rfl
    · intro x hx
      simp only [List.mem_singleton] at hx
      subst hx
      simp [hu, huser]
  have hf : ∀ v, _ := fun v => Gpu.thread?_finish_solo g sw [(u, .trap k)] (v := v) hm hu
  have hmask : Fates.mask [(u, .trap k)] k.kind = (1 : Word) <<< u.lane := by
    simp [Fates.mask, lanesMask]
  have hfin : finishMember sw g.cur (g.env u).tvec (Fates.mask [(u, .trap k)]) u.lane (Fates.of [(u, .trap k)] u) th =
      th.takeTrap (g.env u).tvec k g.cur.pc g.cur.word g.cur.len ((1 : Word) <<< u.lane) := by
    simp [finishMember, Fates.of, huser, hmask]
  rw [he]
  refine ⟨(Gpu.rest_regroup (g.mapThreads _) _ _ hk).trans (Gpu.rest_mapThreads g _), ?_, ?_⟩
  · obtain ⟨f, h1, _, _, h4⟩ := Gpu.thread?_regroup (g.mapThreads fun t th =>
      if g.cur.members.contains t then
        finishMember sw g.cur (g.env t).tvec (Fates.mask [(u, .trap k)]) t.lane (Fates.of [(u, .trap k)] t) th
      else th) g.cur .user u
    have hu' := hf u
    rw [if_pos rfl, hfin] at hu'
    rw [h1, hu']
    exact congrArg some (h4 _ hu' rfl rfl)
  · intro v hv
    rw [Gpu.thread?_regroup_other _ _ _ hm hv, hf v, if_neg hv]

/-- A word of one thread that parks before it. -/
theorem Gpu.finishWord_wait (g : Gpu) (sw : Bool) {u : TRef} {th : Thread} (w : Wait) (hm : g.cur.members = [u])
    (hu : g.thread? u = some th) (hk : (g.cores.any fun x => x.1 == g.cur.core) = true) :
    (g.finishWord sw [(u, .wait w)]).rest = g.rest ∧
    (g.finishWord sw [(u, .wait w)]).thread? u = some { th with status := .parked w, rdfl := none } ∧
    ∀ v, v ≠ u → (g.finishWord sw [(u, .wait w)]).thread? v = g.thread? v := by
  rw [Gpu.finishWord_eq _ _ _ (by simp) (by simp [Thread.faultsAt])]
  have hf : ∀ v, _ := fun v => Gpu.thread?_finish_solo g sw [(u, .wait w)] (v := v) hm hu
  refine ⟨(Gpu.rest_regroup (g.mapThreads _) _ _ hk).trans (Gpu.rest_mapThreads g _), ?_, ?_⟩
  · apply Gpu.thread?_regroup_inactive
    · rw [hf u, if_pos rfl]; simp [finishMember, Fates.of]
    · simp
  · intro v hv
    rw [Gpu.thread?_regroup_other _ _ _ hm hv, hf v, if_neg hv]

/-- A word of one thread that itself parks the thread. -/
theorem Gpu.finishWord_park (g : Gpu) (sw : Bool) {u : TRef} {th : Thread} (w : Wait) (hm : g.cur.members = [u])
    (hu : g.thread? u = some th) (hw : th.status = .parked w) (hi : ∀ a b c, w ≠ .inval a b c)
    (hk : (g.cores.any fun x => x.1 == g.cur.core) = true) :
    (g.finishWord sw [(u, .done)]).rest = g.rest ∧
    (g.finishWord sw [(u, .done)]).thread? u = some { th with owes := sw, rdfl := none } ∧
    ∀ v, v ≠ u → (g.finishWord sw [(u, .done)]).thread? v = g.thread? v := by
  rw [Gpu.finishWord_eq _ _ _ (by simp) (by
    intro x hx y hy
    rw [List.mem_singleton.mp hx] at hy ⊢
    rw [hu] at hy
    cases hy
    exact th.faultsAt_inactive sw _ (by rw [hw]; exact TStatus.noConfusion))]
  have hf : ∀ v, _ := fun v => Gpu.thread?_finish_solo g sw [(u, .done)] (v := v) hm hu
  refine ⟨(Gpu.rest_regroup (g.mapThreads _) _ _ hk).trans (Gpu.rest_mapThreads g _), ?_, ?_⟩
  · have hfm : finishMember sw g.cur (g.env u).tvec (Fates.mask [(u, .done)]) u.lane (Fates.of [(u, .done)] u) th =
        { th with owes := sw, rdfl := none } := by
      simp only [finishMember, Fates.of, List.find?_cons_of_pos, BEq.rfl, Option.map_some, Option.getD_some]
      rw [if_neg (by simp [hw])]
      split
      · rename_i h; rw [hw] at h; simp only [TStatus.parked.injEq] at h; exact absurd h (hi _ _ _)
      · rfl
      · rename_i h; exact absurd hw (h w)
    apply Gpu.thread?_regroup_inactive
    · rw [hf u, if_pos rfl, hfm]
    · simp [hw]
  · intro v hv
    rw [Gpu.thread?_regroup_other _ _ _ hm hv, hf v, if_neg hv]

/-! ### Lane-by-lane words of one thread -/

/-- The device as a word reads it: the clocks latched. -/
def State.now (s : State) : Gpu := { s.gpu with now := s.clk.cyc, ptp := s.clk.ptp }

/-- A word that no member holds back ends as its lanes left the device. -/
theorem Gpu.endWord_eq (g g' : Gpu) (sw : Bool) {fs : Fates} (h : ∀ x ∈ fs, ∀ k, x.2 ≠ .hold k) : g.endWord g' sw fs = g'.finishWord sw fs := by
  unfold Gpu.endWord
  rw [if_neg]
  simp only [Fates.held, List.any_eq_true, not_exists, not_and]
  intro x hx
  split
  · rename_i k hk; exact absurd hk (h x hx k)
  · exact Bool.false_ne_true

/-- The turn of a bundle passes: bookkeeping alone. -/
theorem Gpu.rest_passTurn (g : Gpu) (h : (g.cores.any fun x => x.1 == g.cur.core) = true) : g.passTurn.rest = g.rest := by
  unfold Gpu.passTurn
  exact Gpu.rest_modActive g.fresh _ _ (fun _ => rfl) h

theorem Gpu.thread?_passTurn (g : Gpu) (v : TRef) : g.passTurn.thread? v = g.thread? v := by
  simp only [Gpu.passTurn, Gpu.modCore]
  split <;> rfl

/-- A lane-by-lane word of one thread is that lane's step and the end of the word, or, held back, its turn passed. -/
theorem Gpu.laneWord_solo (g : Gpu) (p : Pfx) (used : List Reg) (f : Gpu → TRef → Env → Thread → Gpu × Fate) {u : TRef} {th : Thread}
    (hm : g.cur.members = [u]) (hu : g.thread? u = some th) (hg : th.guards p = true) (hr : overRange (g.env u).regs used = false)
    (ht : th.pendingAmong used = none) :
    g.laneWord p used f = match f g u (g.env u) th with
      | (g', .done) => (g'.modThread u fun th => { th with pc := th.pc + BitVec.ofNat 64 g'.cur.len }).finishWord p.sw [(u, .done)]
      | (_, .hold k) => g.holdWord [(u, .hold k)]
      | (g', x) => g'.finishWord p.sw [(u, x)] := by
  have hs : sortLanes g.cur.members = [u] := by rw [hm]; rfl
  simp only [Gpu.laneWord, hs, List.foldl_cons, List.foldl_nil, Gpu.laneStep, hu, hr, hg, ht, Bool.not_true, Bool.false_eq_true, if_false]
  cases hF : f g u (g.env u) th with
  | mk g' x => cases x <;> simp [Gpu.endWord, Fates.held]

/-- A lane's step that its thread's own order holds back: the word does not issue yet. -/
theorem State.laneWord_held {s : State} {u : TRef} {th : Thread} {p : Pfx} {used : List Reg}
    {f : Gpu → TRef → Env → Thread → Gpu × Fate} {g' : Gpu} (hs : Solo s u th p used)
    (hf : f s.now u (s.gpu.env u) th = (g', .hold .order)) : Stays s (s.device fun g => g.laneWord p used f) id := by
  obtain ⟨hm, hth, _, hg, ⟨hk, _⟩, hr, ht⟩ := hs
  have hsolo := Gpu.laneWord_solo s.now p used f hm hth hg (hr u (by simp [hm])) (ht u (by simp [hm]) th hth hg)
  rw [show s.now.env u = s.gpu.env u from rfl, hf] at hsolo
  have hsolo : s.now.laneWord p used f = s.now.passTurn := hsolo
  refine ⟨_, rfl, ?_, fun v => ?_⟩
  · show ({ s with gpu := (s.now.laneWord p used f).rest } : State) = { s with gpu := s.now.rest }
    rw [hsolo, Gpu.rest_passTurn s.now hk]
  · show (s.now.laneWord p used f).thread? v = _
    rw [hsolo, Gpu.thread?_passTurn]; rfl

/-- A lane's step that is done and leaves its thread unparked. -/
theorem State.laneWord_does {s : State} {u : TRef} {th : Thread} {p : Pfx} {used : List Reg}
    {f : Gpu → TRef → Env → Thread → Gpu × Fate} {g' : Gpu} {th' : Thread} {d : Gpu → Gpu} (hs : Solo s u th p used)
    (hf : f s.now u (s.gpu.env u) th = (g', .done)) (hc : g'.cur = s.gpu.cur)
    (hk : (g'.cores.any fun x => x.1 == s.gpu.cur.core) = true) (hu : g'.thread? u = some th')
    (ho : ∀ v, v ≠ u → g'.thread? v = s.gpu.thread? v)
    (hq : p.sw = true → th'.still)
    (hd : g'.rest = (d s.now).rest) : Does s (s.device fun g => g.laneWord p used f) th' d := by
  obtain ⟨hm, hth, _, hg, ⟨_, _⟩, hr, ht⟩ := hs
  have hsolo := Gpu.laneWord_solo s.now p used f hm hth hg (hr u (by simp [hm])) (ht u (by simp [hm]) th hth hg)
  rw [show s.now.env u = s.gpu.env u from rfl, hf] at hsolo
  let g2 := g'.modThread u fun th => { th with pc := th.pc + BitVec.ofNat 64 g'.cur.len }
  have hsolo : s.now.laneWord p used f = g2.finishWord p.sw [(u, .done)] := hsolo
  have hm2 : g2.cur.members = [u] := by show g'.cur.members = _; rw [hc]; exact hm
  have hu2 : g2.thread? u = some { th' with pc := th'.pc + BitVec.ofNat 64 g'.cur.len } := by
    show (g'.modThread u _).thread? u = _
    rw [Gpu.thread?_modThread_same, hu]; rfl
  have hfin := Gpu.finishWord_done g2 p.sw [(u, .done)] (by simp) (by show (g'.cores.any _) = true; rw [show g2.cur = s.gpu.cur from hc]; exact hk)
    (by simp [hm2]) (by
    intro t htm x hx hsw
    have htm' : t = u := by rw [hm2] at htm; simpa using htm
    subst htm'
    rw [hu2] at hx
    cases hx
    exact hq hsw)
  refine ⟨_, rfl, ?_, ?_, ?_⟩
  · show ({ s with gpu := (s.now.laneWord p used f).rest } : State) = { s with gpu := (d s.now).rest }
    rw [hsolo, hfin.1, ← hd]; rfl
  · intro v hv
    have hne : v ≠ u := by rintro rfl; rw [hth] at hv; cases hv
    obtain ⟨k, hk1, _⟩ := hfin.2 v
    show (s.now.laneWord p used f).thread? v = none
    rw [hsolo, hk1]
    show Option.map k ((g'.modThread u _).thread? v) = none
    rw [Gpu.thread?_modThread_other _ _ hne, ho v hne, hv]; rfl
  · intro v x hv
    obtain ⟨k, hk1, hk2⟩ := hfin.2 v
    by_cases hne : v = u
    · subst hne
      refine ⟨k { th' with pc := th'.pc + BitVec.ofNat 64 g'.cur.len }, ?_, ?_⟩
      · show (s.now.laneWord p used f).thread? v = _
        rw [hsolo, hk1, hu2]; rfl
      · have := hk2 _ hu2
        rw [if_pos (by rw [hm2]; simp)] at this
        rw [if_pos (by show v ∈ s.gpu.cur.members; rw [show s.gpu.cur.members = [v] from hm]; simp), this, hc]
    · refine ⟨x, ?_, ?_⟩
      · have h2 : g2.thread? v = some x := by
          show (g'.modThread u _).thread? v = _
          rw [Gpu.thread?_modThread_other _ _ hne, ho v hne, hv]
        have := hk2 _ h2
        rw [if_neg (by rw [hm2]; simpa using hne)] at this
        show (s.now.laneWord p used f).thread? v = _
        rw [hsolo, hk1, h2, Option.map_some, this]
      · rw [if_neg (by show v ∉ s.gpu.cur.members; rw [show s.gpu.cur.members = [u] from hm]; simpa using hne)]

/-- A lane's step that is done and parks its thread. -/
theorem State.laneWord_parks {s : State} {u : TRef} {th : Thread} {p : Pfx} {used : List Reg}
    {f : Gpu → TRef → Env → Thread → Gpu × Fate} {g' : Gpu} {th' : Thread} {w : Wait} {d : Gpu → Gpu} (hs : Solo s u th p used)
    (hf : f s.now u (s.gpu.env u) th = (g', .done)) (hc : g'.cur = s.gpu.cur)
    (hk : (g'.cores.any fun x => x.1 == s.gpu.cur.core) = true) (hu : g'.thread? u = some { th' with status := .parked w })
    (hw : ∀ a b c, w ≠ .inval a b c) (ho : ∀ v, v ≠ u → g'.thread? v = s.gpu.thread? v) (hd : g'.rest = (d s.now).rest) :
    Parks s u p.sw (s.device fun g => g.laneWord p used f) th' w d := by
  obtain ⟨hm, hth, _, hg, ⟨_, _⟩, hr, ht⟩ := hs
  have hsolo := Gpu.laneWord_solo s.now p used f hm hth hg (hr u (by simp [hm])) (ht u (by simp [hm]) th hth hg)
  rw [show s.now.env u = s.gpu.env u from rfl, hf] at hsolo
  let g2 := g'.modThread u fun th => { th with pc := th.pc + BitVec.ofNat 64 g'.cur.len }
  have hsolo : s.now.laneWord p used f = g2.finishWord p.sw [(u, .done)] := hsolo
  have hm2 : g2.cur.members = [u] := by show g'.cur.members = _; rw [hc]; exact hm
  have hu2 : g2.thread? u = some { th' with pc := th'.pc + BitVec.ofNat 64 g'.cur.len, status := .parked w } := by
    show (g'.modThread u _).thread? u = _
    rw [Gpu.thread?_modThread_same, hu]; rfl
  obtain ⟨h1, h2, h3⟩ := Gpu.finishWord_park g2 p.sw w hm2 hu2 rfl hw
    (by show (g'.cores.any _) = true; rw [show g2.cur = s.gpu.cur from hc]; exact hk)
  refine ⟨_, rfl, ?_, ?_, ?_⟩
  · show ({ s with gpu := (s.now.laneWord p used f).rest } : State) = { s with gpu := (d s.now).rest }
    rw [hsolo, h1, ← hd]; rfl
  · show (s.now.laneWord p used f).thread? u = _
    rw [hsolo, h2, hc]
  · intro v hv
    show (s.now.laneWord p used f).thread? v = _
    rw [hsolo, h3 v hv]
    show (g'.modThread u _).thread? v = _
    rw [Gpu.thread?_modThread_other _ _ hv, ho v hv]

/-- A lane's step that raises a precise trap in user mode. -/
theorem State.laneWord_traps {s : State} {u : TRef} {th : Thread} {p : Pfx} {used : List Reg}
    {f : Gpu → TRef → Env → Thread → Gpu × Fate} {g' : Gpu} {k : Trap} {d : Gpu → Gpu} (hs : Solo s u th p used)
    (huser : th.mode = .user) (hf : f s.now u (s.gpu.env u) th = (g', .trap k)) (hc : g'.cur = s.gpu.cur)
    (hk : (g'.cores.any fun x => x.1 == s.gpu.cur.core) = true) (he : g'.env u = s.gpu.env u)
    (ho : ∀ v, g'.thread? v = s.gpu.thread? v) (hd : g'.rest = (d s.now).rest) :
    Traps s u th k (s.device fun g => g.laneWord p used f) d := by
  obtain ⟨hm, hth, _, hg, ⟨_, _⟩, hr, ht⟩ := hs
  have hsolo := Gpu.laneWord_solo s.now p used f hm hth hg (hr u (by simp [hm])) (ht u (by simp [hm]) th hth hg)
  rw [show s.now.env u = s.gpu.env u from rfl, hf] at hsolo
  obtain ⟨h1, h2, h3⟩ := Gpu.finishWord_trap g' p.sw k (by rw [hc]; exact hm) (by rw [ho]; exact hth) huser (by rw [hc]; exact hk)
  have hsolo : s.now.laneWord p used f = g'.finishWord p.sw [(u, .trap k)] := hsolo
  refine ⟨_, rfl, ?_, ?_, ?_⟩
  · show ({ s with gpu := (s.now.laneWord p used f).rest } : State) = { s with gpu := (d s.now).rest }
    rw [hsolo, h1, ← hd]
  · show (s.now.laneWord p used f).thread? u = _
    rw [hsolo, h2, hc, he]
  · intro v hv
    show (s.now.laneWord p used f).thread? v = _
    rw [hsolo, h3 v hv, ho]

/-! ### Seals of the members whose guards fail -/

/-- `sealSkipped` changes no thread but for its seal. -/
theorem Gpu.thread?_sealSkipped (g : Gpu) (p : Pfx) (v : Option Nat) (g' : Gpu) (u : TRef) :
    ∃ f : Thread → Thread, (g.sealSkipped p v g').thread? u = (g'.thread? u).map f ∧ ∀ th, (f th).data = th.data := by
  refine ⟨_, Gpu.thread?_mapThreads g' _ u, fun th => ?_⟩
  dsimp only
  split <;> rfl

@[simp] theorem Gpu.rest_sealSkipped (g : Gpu) (p : Pfx) (v : Option Nat) (g' : Gpu) : (g.sealSkipped p v g').rest = g'.rest := rfl

/-! ### Team words of one team -/

/-- An element without repeats is one of the list's. -/
theorem mem_firstOf (l : List (Nat × Nat)) (x : Nat × Nat) (h : x ∈ firstOf l) : x ∈ l := by
  induction l with
  | nil => exact h
  | cons y l ih =>
    rcases List.mem_cons.mp h with h | h
    · exact h ▸ List.mem_cons_self
    · exact List.mem_cons_of_mem _ (ih (List.mem_filter.mp h).1)

/-- Registers among those that name no pending token name none. -/
theorem Thread.pendingAmong_sub {th : Thread} {rs used : List Reg} (hs : ∀ r ∈ rs, r ∈ used) (h : th.pendingAmong used = none) :
    th.pendingAmong rs = none := by
  simp only [Thread.pendingAmong, List.find?_eq_none] at h ⊢
  exact fun r hr => h r (hs r hr)

/-- What a team word reads lies among the registers it names, and nothing of the lanes whose guards fail unless `readAll`. -/
def Reads.within (reads : Reads) (used : List Reg) (readAll : Bool) : Prop :=
  ∀ g wg team act t, (∀ r ∈ reads g wg team act t, r ∈ used) ∧ (readAll = false → t ∉ act → reads g wg team act t = [])

theorem laneReads_within {vec sca used : List Reg} {readAll : Bool} (h : ∀ r ∈ vec ++ sca, r ∈ used) :
    (laneReads vec sca).within used readAll := by
  intro g wg team act t
  unfold laneReads
  constructor
  · intro r hr
    apply h
    split at hr
    · rcases List.mem_append.mp hr with hr | hr
      · exact List.mem_append_left _ hr
      · split at hr
        · exact List.mem_append_right _ hr
        · exact absurd hr List.not_mem_nil
    · exact absurd hr List.not_mem_nil
  · intro _ ht
    rw [if_neg (by rwa [List.contains_iff_mem])]

theorem sourceReads_within {vec src used : List Reg} {from_ : TRef → Thread → Nat} (h : ∀ r ∈ vec ++ src, r ∈ used) :
    (sourceReads vec src from_).within used true := by
  intro g wg team act t
  unfold sourceReads
  refine ⟨fun r hr => h r ?_, fun hf => absurd hf (by decide)⟩
  split at hr
  · exact List.mem_append_left _ hr
  · split at hr
    · exact List.mem_append_right _ hr
    · exact absurd hr List.not_mem_nil

theorem bundleTeams_one {ms : List TRef} {wg team : Nat} (hne : ms ≠ []) (h : ∀ t ∈ ms, t.wg = wg ∧ t.team = team) :
    bundleTeams ms = [(wg, team)] := by
  have h1 : ∀ x ∈ (sortLanes ms).map fun t => (t.wg, t.team), x = (wg, team) := by
    intro x hx
    obtain ⟨t, ht, rfl⟩ := List.mem_map.mp hx
    have := h t ((mem_sortLanes t ms).mp ht)
    simp [this.1, this.2]
  have h2 : (sortLanes ms).map (fun t => (t.wg, t.team)) ≠ [] := by
    obtain ⟨t, ht⟩ := List.exists_mem_of_ne_nil ms hne
    intro hn
    have : t ∈ sortLanes ms := (mem_sortLanes t ms).mpr ht
    simp only [List.map_eq_nil_iff] at hn
    rw [hn] at this
    exact absurd this List.not_mem_nil
  have h3 : ∀ l : List (Nat × Nat), l ≠ [] → (∀ x ∈ l, x = (wg, team)) → firstOf l = [(wg, team)] := by
    intro l hl hx
    cases l with
    | nil => exact absurd rfl hl
    | cons x l =>
      have : x = (wg, team) := hx x (by simp)
      subst this
      have hnil : (firstOf l).filter (· != (wg, team)) = [] := by
        rw [List.filter_eq_nil_iff]
        intro y hy
        simp [hx y (List.mem_cons_of_mem _ (mem_firstOf l y hy))]
      rw [firstOf, hnil]
  exact h3 _ h2 h1

/-- A team word whose bundle is the whole live set of one team: the effect `f` where some guard holds, and the end of the word. -/
theorem Gpu.teamWord_one {s : State} {wg team : Nat} {p : Pfx} {used : List Reg} {readAll : Bool} {reads : Reads}
    (hi : TeamIssuing s wg team p used readAll) (hrd : reads.within used readAll) (f : Gpu → Nat → Nat → List TRef → List TRef → Gpu × (TRef → Fate)) :
    s.now.teamWord p used reads f =
      (let ms := sortLanes s.members
       let act := ms.filter fun t => (s.now.thread? t).any fun th => th.guards p
       let r := if act.isEmpty then (s.now, fun _ => Fate.done) else f s.now wg team ms act
       let done := ms.filter fun t => r.2 t == .done
       s.now.endWord (r.1.mapThreads fun t th => if done.contains t then { th with pc := th.pc + BitVec.ofNat 64 r.1.cur.len } else th) p.sw
        (ms.map fun t => (t, r.2 t))) := by
  obtain ⟨⟨_, hr, ht⟩, hne, hall, hsame⟩ := hi
  have hb := bundleTeams_one (ms := s.members) hne fun t h => ⟨(hall t h).1, (hall t h).2.1⟩
  have hms : ((sortLanes s.now.cur.members).filter fun t => t.wg == wg && t.team == team) = sortLanes s.members := by
    apply List.filter_eq_self.mpr
    intro t h
    have := hall t ((mem_sortLanes t _).mp h)
    simp [this.1, this.2.1]
  have hover : overRange (((s.now.wg? wg).map Wg.regs).getD 256) used = false := by
    obtain ⟨t, h⟩ := List.exists_mem_of_ne_nil _ hne
    have := hr t h
    have hw := (hall t h).1
    subst hw
    have he : (s.gpu.env t).regs = ((s.now.wg? t.wg).map Wg.regs).getD 256 := by
      simp only [Gpu.env]
      show _ = ((s.gpu.wg? t.wg).map Wg.regs).getD 256
      cases s.gpu.wg? t.wg with
      | none => rfl
      | some w => simp only [Option.map_some, Option.getD_some]; cases s.gpu.ctx? w.ctx <;> rfl
    rw [← he]; exact this
  let act := (sortLanes s.members).filter fun t => (s.now.thread? t).any fun th => th.guards p
  have htok : ∀ t ∈ sortLanes s.members, ((s.now.thread? t).bind fun th => th.pendingAmong (reads s.now wg team act t)) = none := by
    intro t h
    have hm := (mem_sortLanes t _).mp h
    obtain ⟨_, _, th, hth, hall'⟩ := hall t hm
    have hth' : s.now.thread? t = some th := hth
    rw [hth', Option.bind_some]
    obtain ⟨hsub, hidle⟩ := hrd s.now wg team act t
    by_cases hg : th.guards p = true
    · exact Thread.pendingAmong_sub hsub (ht t hm th hth hg)
    · cases hra : readAll with
      | true => exact Thread.pendingAmong_sub hsub (hall' hra)
      | false =>
        rw [hidle hra (by simp only [act, List.mem_filter, hth', Option.any_some]; exact fun h => hg h.2)]
        rfl
  show (let r := (bundleTeams s.members).foldl (Gpu.teamStep p used reads f) (s.now, []); s.now.endWord r.1 p.sw r.2) = _
  rw [hb]
  simp only [List.foldl_cons, List.foldl_nil, Gpu.teamStep, hms, hover, Bool.false_eq_true, if_false]
  have hp : ((sortLanes s.members).filter fun t => ((s.now.thread? t).bind fun th => th.pendingAmong (reads s.now wg team act t)).isSome) = [] := by
    rw [List.filter_eq_nil_iff]; intro t h; rw [htok t h]; decide
  have hrest : ((sortLanes s.members).filter fun t => ((s.now.thread? t).bind fun th => th.pendingAmong (reads s.now wg team act t)).isNone) = sortLanes s.members := by
    rw [List.filter_eq_self]; intro t h; rw [htok t h]; rfl
  have hl : s.now.liveSet wg team = s.gpu.liveSet wg team := rfl
  simp only [act] at hp hrest
  simp only [hp, hrest, hl, hsame, List.isEmpty_nil, Bool.not_true, Bool.or_self, Bool.false_eq_true, if_false, List.nil_append]

/-- A team word of one team whose effect takes no trap: its effect `h` in each member whose guards hold, and `d` on the rest
of the device. -/
theorem State.teamWord_result {s : State} {wg team : Nat} {p : Pfx} {used : List Reg} {readAll : Bool} {reads : Reads}
    {f : Gpu → Nat → Nat → List TRef → List TRef → Gpu × (TRef → Fate)} {g' : Gpu} {h : TRef → Thread → Thread} {d : Gpu → Gpu}
    (hi : TeamIssuing s wg team p used readAll) (hrd : reads.within used readAll) (hon : s.on p ≠ [])
    (hf : f s.now wg team (sortLanes s.members) ((s.on p).map (·.1)) = (g', fun _ => .done)) (hc : g'.cur = s.gpu.cur)
    (hk : (g'.cores.any fun x => x.1 == s.gpu.cur.core) = true)
    (hth : ∀ u, g'.thread? u = (s.gpu.thread? u).map fun th => if u ∈ s.members ∧ th.guards p = true then h u th else th)
    (hpc : ∀ u th n, ({ h u th with pc := n } : Thread) = h u { th with pc := n })
    (hhpc : ∀ u th, (h u th).pc = th.pc)
    (hq : ∀ u th, p.sw = true → th.still → (h u th).still)
    (hd : g'.rest = (d s.now).rest) : Result s (s.device fun g => g.teamWord p used reads f) (after s p h) d := by
  have hact : ((sortLanes s.members).filter fun t => (s.now.thread? t).any fun th => th.guards p) = (s.on p).map (·.1) := by
    have : ∀ l : List TRef, (∀ t ∈ l, ∃ th, s.gpu.thread? t = some th) →
        (l.filter fun t => (s.now.thread? t).any fun th => th.guards p) =
          ((l.filterMap fun t => (s.gpu.thread? t).map fun th => (t, th)).filter fun x => x.2.guards p).map (·.1) := by
      intro l
      induction l with
      | nil => intro _; rfl
      | cons t l ih =>
        intro hl
        obtain ⟨th, hgt⟩ := hl t (by simp)
        have hn : s.now.thread? t = some th := hgt
        simp only [List.filter_cons, hn, Option.any_some, List.filterMap_cons, hgt, Option.map_some]
        rw [ih fun t ht => hl t (by simp [ht])]
        split <;> simp
    exact this _ fun t ht => (hi.2.2.1 t ((mem_sortLanes t _).mp ht)).2.2.elim fun th h => ⟨th, h.1⟩
  have hemp : ((s.on p).map (·.1)).isEmpty = false := by simpa using hon
  have hw := Gpu.teamWord_one hi hrd f
  simp only [hact, hemp, Bool.false_eq_true, if_false, hf, BEq.rfl, List.filter_true, hc] at hw
  let g2 := g'.mapThreads fun t th => if (sortLanes s.members).contains t then { th with pc := th.pc + BitVec.ofNat 64 s.gpu.cur.len } else th
  have hw : s.now.teamWord p used reads f = g2.finishWord p.sw ((sortLanes s.members).map fun t => (t, .done)) :=
    hw.trans (Gpu.endWord_eq _ g2 _ (by simp))
  have hmem : ∀ u, (sortLanes s.members).contains u = true ↔ u ∈ s.members := fun u => by
    rw [List.contains_iff_mem, mem_sortLanes]
  have hg2 : ∀ u th, s.gpu.thread? u = some th → g2.thread? u = some (if u ∈ s.members then after s p h u th else th) := by
    intro u th hu
    rw [Gpu.thread?_mapThreads, hth, hu]
    by_cases hm : u ∈ s.members
    · simp only [Option.map_some, (hmem u).mpr hm, if_true, hm, true_and, after]
      by_cases hg : th.guards p = true
      · simp only [hg, if_true, hhpc, hpc]
      · simp [hg]
    · have : ¬ (sortLanes s.members).contains u = true := fun h => hm ((hmem u).mp h)
      simp only [Option.map_some, if_neg this, hm, false_and, if_false]
  have hm2 : g2.cur.members = s.members := by show g'.cur.members = _; rw [hc]; rfl
  have hfin := Gpu.finishWord_done g2 p.sw ((sortLanes s.members).map fun t => (t, .done)) (by simp)
    (by show (g'.cores.any _) = true; rw [show g2.cur = s.gpu.cur from hc]; exact hk)
    (by simp [hm2, mem_sortLanes]) (by
    intro t htm x hx hsw
    rw [hm2] at htm
    obtain ⟨_, _, th, hgt, _⟩ := hi.2.2.1 t htm
    rw [hg2 t th hgt, if_pos htm] at hx
    cases hx
    exact after_still (hi.1.1.2 t htm th hgt hsw) fun x hx => hq t x hsw hx)
  refine ⟨_, rfl, ?_, ?_, ?_⟩
  · show ({ s with gpu := (s.now.teamWord p used reads f).rest } : State) = { s with gpu := (d s.now).rest }
    rw [hw, hfin.1, ← hd]; rfl
  · intro u hu
    obtain ⟨k, hk1, _⟩ := hfin.2 u
    show (s.now.teamWord p used reads f).thread? u = none
    rw [hw, hk1, Gpu.thread?_mapThreads, hth, hu]; rfl
  · intro u th hu
    obtain ⟨k, hk1, hk2⟩ := hfin.2 u
    refine ⟨_, by show (s.now.teamWord p used reads f).thread? u = _; rw [hw, hk1, hg2 u th hu]; rfl, ?_⟩
    have := hk2 _ (hg2 u th hu)
    rw [hm2] at this
    by_cases hm : u ∈ s.members
    · simpa [hm] using this
    · simpa [hm] using this

end Sys2Proof.Machine
end

