-- ==== Sys2Proof/Laws/Store.lean ====
section
/-! SUPPORT. Stores in canonical form: what a read gives after a write, and that every write keeps the form (log 6). -/

namespace Sys2Proof.Machine

open Sys2Proof

variable {β : Type} [DecidableEq β]

theorem Store.wfFrom_mono {d : β} {a b : Nat} (hab : a ≤ b) {m : Store β} (h : Store.wfFrom d b m = true) : Store.wfFrom d a m = true := by
  cases m with
  | nil => rfl
  | cons c m =>
    simp only [Store.wfFrom, Bool.and_eq_true, decide_eq_true_eq] at h ⊢
    exact ⟨⟨by omega, h.1.2⟩, h.2⟩

/-- A key below every listed one reads as the default. -/
theorem Store.get_below {d : β} {m : Store β} {lo k : Nat} (h : Store.wfFrom d lo m = true) (hk : k < lo) : Store.get d m k = d := by
  cases m with
  | nil => rfl
  | cons c m =>
    simp only [Store.wfFrom, Bool.and_eq_true, decide_eq_true_eq] at h
    have h1 : k ≠ c.1 := by omega
    have h2 : k < c.1 := by omega
    simp only [Store.get, if_neg h1, if_pos h2]

/-- What a write leaves at its key. -/
theorem Store.get_set_same {d : β} {m : Store β} {lo k : Nat} {v : β} (h : Store.wfFrom d lo m = true) : Store.get d (Store.set d m k v) k = v := by
  induction m generalizing lo with
  | nil => simp only [Store.set]; split <;> simp_all [Store.get]
  | cons c m ih =>
    simp only [Store.wfFrom, Bool.and_eq_true, decide_eq_true_eq] at h
    obtain ⟨⟨_, _⟩, ht⟩ := h
    simp only [Store.set]
    split
    · rename_i hlt
      split
      · rename_i hv
        have h1 : k ≠ c.1 := by omega
        rw [Store.get, if_neg h1, if_pos hlt, hv]
      · simp [Store.get]
    · split
      · rename_i heq
        split
        · rename_i hv
          rw [hv]; exact Store.get_below ht (by omega)
        · simp [Store.get]
      · rename_i hge hne
        rw [Store.get, if_neg hne, if_neg hge]
        exact ih ht

/-- What a write leaves at every other key. -/
theorem Store.get_set_other {d : β} {m : Store β} {lo k j : Nat} {v : β} (h : Store.wfFrom d lo m = true) (hj : j ≠ k) :
    Store.get d (Store.set d m k v) j = Store.get d m j := by
  induction m generalizing lo with
  | nil => simp only [Store.set]; split <;> simp [Store.get, hj]
  | cons c m ih =>
    simp only [Store.wfFrom, Bool.and_eq_true, decide_eq_true_eq] at h
    obtain ⟨⟨_, _⟩, ht⟩ := h
    simp only [Store.set]
    split
    · rename_i hlt
      split
      · rfl
      · by_cases hjk : j < k
        · have h1 : j ≠ c.1 := by omega
          have h2 : j < c.1 := by omega
          simp only [Store.get, if_neg hj, if_pos hjk, if_neg h1, if_pos h2]
        · rw [Store.get, if_neg hj, if_neg hjk]
    · split
      · rename_i heq
        have hjc : j ≠ c.1 := by omega
        split
        · by_cases hjl : j < c.1
          · rw [Store.get_below ht (by omega)]; simp only [Store.get, if_neg hjc, if_pos hjl]
          · simp only [Store.get, if_neg hjc, if_neg hjl]
        · simp only [Store.get, heq, if_neg hjc]
      · simp only [Store.get, ih ht]

/-- A write keeps the canonical form. -/
theorem Store.wfFrom_set {d : β} {m : Store β} {lo k : Nat} {v : β} (h : Store.wfFrom d lo m = true) (hk : lo ≤ k) :
    Store.wfFrom d lo (Store.set d m k v) = true := by
  induction m generalizing lo with
  | nil => simp only [Store.set]; split <;> simp_all [Store.wfFrom]
  | cons c m ih =>
    have h0 := h
    simp only [Store.wfFrom, Bool.and_eq_true, decide_eq_true_eq] at h
    obtain ⟨⟨h1, h2⟩, ht⟩ := h
    simp only [Store.set]
    split
    · split
      · exact h0
      · rename_i hv
        simp only [Store.wfFrom, Bool.and_eq_true, decide_eq_true_eq]
        exact ⟨⟨hk, hv⟩, ⟨by omega, h2⟩, ht⟩
    · split
      · split
        · exact Store.wfFrom_mono (by omega) ht
        · rename_i heq hv
          simp only [Store.wfFrom, Bool.and_eq_true, decide_eq_true_eq]
          exact ⟨⟨hk, hv⟩, by rw [heq]; exact ht⟩
      · simp only [Store.wfFrom, Bool.and_eq_true, decide_eq_true_eq]
        exact ⟨⟨h1, h2⟩, ih ht (by omega)⟩

/-- A byte written keeps a memory's canonical form. -/
theorem Memory.wf_setByte {m : Memory} (h : m.wf = true) (a : Nat) (b : Byte) : (m.setByte a b).wf = true :=
  Store.wfFrom_set h (Nat.zero_le a)

/-- A byte written is the byte read. -/
theorem Memory.byte_setByte_same {m : Memory} (h : m.wf = true) (a : Nat) (b : Byte) : (m.setByte a b).byte a = b := Store.get_set_same h

/-- A byte written leaves every other one. -/
theorem Memory.byte_setByte_other {m : Memory} (h : m.wf = true) {a x : Nat} (b : Byte) (hx : x ≠ a) : (m.setByte a b).byte x = m.byte x :=
  Store.get_set_other h hx

/-- Bytes written keep a memory's canonical form. -/
theorem Memory.wf_setBytes {m : Memory} (h : m.wf = true) (a : Nat) (bs : List Byte) : (m.setBytes a bs).wf = true := by
  induction bs generalizing m a with
  | nil => exact h
  | cons b bs ih => exact ih (Memory.wf_setByte h a b) (a + 1)

/-- Bytes written leave every byte outside them. -/
theorem Memory.byte_setBytes_outside {m : Memory} (h : m.wf = true) (a : Nat) (bs : List Byte) {x : Nat} (hx : x < a ∨ a + bs.length ≤ x) :
    (m.setBytes a bs).byte x = m.byte x := by
  induction bs generalizing m a with
  | nil => rfl
  | cons b bs ih =>
    simp only [List.length_cons] at hx
    rw [Memory.setBytes, ih (Memory.wf_setByte h a b) (a + 1) (by omega), Memory.byte_setByte_other h b (by omega)]

/-! ### Registers -/

/-- A thread's registers are in canonical form. -/
def Thread.regsWf (th : Thread) : Bool := Store.wf (0 : Word) th.regs

theorem Thread.reg_setReg_same {th : Thread} (h : th.regsWf = true) (r : Reg) (v : Word) : (th.setReg r v).reg r = v := Store.get_set_same h

theorem Thread.reg_setReg_other {th : Thread} (h : th.regsWf = true) {r q : Reg} (v : Word) (hq : q ≠ r) : (th.setReg r v).reg q = th.reg q :=
  Store.get_set_other h fun e => hq (BitVec.eq_of_toNat_eq e)

theorem Thread.regsWf_setReg {th : Thread} (h : th.regsWf = true) (r : Reg) (v : Word) : (th.setReg r v).regsWf = true :=
  Store.wfFrom_set h (Nat.zero_le _)

end Sys2Proof.Machine
end

