-- ==== Sys2Proof/Laws/Memory.lean ====
section
/-! SUPPORT. The canonical form of memory (log 6): State.reset has it, and every operation on memory and scratchpads keeps it. -/

namespace Sys2Proof.Machine

open Sys2Proof

/-- The canonical form of everything that stores bytes beyond the cores. -/
def MemSt.wf (m : MemSt) : Bool := m.dev.wf && Store.wf none m.l2dev && m.host0.wf && m.host1.wf

theorem State.reset_memory_wf : State.reset.gpu.mem.wf = true := by decide

/-- Entries taken out keep the canonical form. -/
theorem Store.wfFrom_filter {β : Type} [DecidableEq β] {d : β} {m : Store β} {lo : Nat} (q : Nat × β → Bool) (h : Store.wfFrom d lo m = true) :
    Store.wfFrom d lo (m.filter q) = true := by
  induction m generalizing lo with
  | nil => rfl
  | cons c m ih =>
    simp only [Store.wfFrom, Bool.and_eq_true, decide_eq_true_eq] at h
    by_cases hq : q c = true
    · rw [List.filter_cons_of_pos hq]
      simp only [Store.wfFrom, Bool.and_eq_true, decide_eq_true_eq]
      exact ⟨h.1, ih h.2⟩
    · rw [List.filter_cons_of_neg hq]
      exact Store.wfFrom_mono (by omega) (ih h.2)

theorem MemSt.wf_iff (m : MemSt) :
    m.wf = true ↔ m.dev.wf = true ∧ Store.wf none m.l2dev = true ∧ m.host0.wf = true ∧ m.host1.wf = true := by
  simp only [MemSt.wf, Bool.and_eq_true]; tauto

/-! ### Device memory -/

theorem MemSt.wf_setDevByte {m : MemSt} (h : m.wf = true) (a : Nat) (b : Byte) : (m.setDevByte a b).wf = true := by
  rw [MemSt.wf_iff] at h ⊢
  exact ⟨h.1, Store.wfFrom_set h.2.1 (Nat.zero_le a), h.2.2⟩

theorem MemSt.wf_setDevBytes {m : MemSt} (h : m.wf = true) (a : Nat) (bs : List Byte) : (m.setDevBytes a bs).wf = true := by
  induction bs generalizing m a with
  | nil => exact h
  | cons b bs ih => exact ih (MemSt.wf_setDevByte h a b) (a + 1)

theorem MemSt.wf_keepByte {m : MemSt} (h : m.wf = true) (a : Nat) (b : Byte) : (m.keepByte a b).wf = true := by
  rw [MemSt.wf_iff] at h ⊢
  exact ⟨Memory.wf_setByte h.1 a b, Store.wfFrom_set h.2.1 (Nat.zero_le a), h.2.2⟩

theorem MemSt.wf_keepBytes {m : MemSt} (h : m.wf = true) (a : Nat) (bs : List Byte) : (m.keepBytes a bs).wf = true := by
  induction bs generalizing m a with
  | nil => exact h
  | cons b bs ih => exact ih (MemSt.wf_keepByte h a b) (a + 1)

theorem MemSt.wf_setDev32 {m : MemSt} (h : m.wf = true) (a v : Nat) : (m.setDev32 a v).wf = true := MemSt.wf_keepBytes h a _

theorem MemSt.wf_markOcc {m : MemSt} (h : m.wf = true) (c : CBlk) (ridx slot : Nat) (on : Bool) (ss : List Nat) :
    (m.markOcc c ridx slot on ss).wf = true := by
  induction ss generalizing m with
  | nil => exact h
  | cons s ss ih => exact ih (MemSt.wf_keepByte h _ _)

theorem MemSt.wf_foldl {α : Type} {f : MemSt → α → MemSt} (hf : ∀ m a, m.wf = true → (f m a).wf = true) {m : MemSt} (h : m.wf = true)
    (l : List α) : (l.foldl f m).wf = true := by
  induction l generalizing m with
  | nil => exact h
  | cons a l ih => exact ih (hf m a h)

/-- A byte written at its home slice is read there, and no other byte of device memory changes. -/
theorem MemSt.devByte_setDevByte {m : MemSt} (h : m.wf = true) (a x : Nat) (b : Byte) :
    (m.setDevByte a b).devByte x = if x = a then b else m.devByte x := by
  have hl := (MemSt.wf_iff m).1 h |>.2.1
  unfold MemSt.devByte MemSt.setDevByte
  split
  · rename_i e; subst e; simp only [Store.get_set_same hl, Option.getD]
  · rename_i e; simp only [Store.get_set_other hl e]

/-- A byte that the part keeps is read there, and no other byte of device memory changes. -/
theorem MemSt.devByte_keepByte {m : MemSt} (h : m.wf = true) (a x : Nat) (b : Byte) :
    (m.keepByte a b).devByte x = if x = a then b else m.devByte x := by
  have hm := (MemSt.wf_iff m).1 h
  unfold MemSt.devByte MemSt.keepByte
  split
  · rename_i e; subst e; simp only [Store.get_set_same hm.2.1, Option.getD, Memory.byte_setByte_same hm.1]
  · rename_i e; simp only [Store.get_set_other hm.2.1 e, Memory.byte_setByte_other hm.1 b e]

/-! ### The device -/

@[simp] theorem Gpu.mem_mapThreads (g : Gpu) (f : TRef → Thread → Thread) : (g.mapThreads f).mem = g.mem := rfl

@[simp] theorem Gpu.mem_modCore (g : Gpu) (n : Nat) (f : CoreSt → CoreSt) : (g.modCore n f).mem = g.mem := by unfold Gpu.modCore; split <;> rfl

@[simp] theorem Gpu.mem_loseResv (g : Gpu) (k : LineKey) : (g.loseResv k).mem = g.mem := rfl

@[simp] theorem Gpu.mem_logError (g : Gpu) (part kind asid core unit addr : Nat) : (g.logError part kind asid core unit addr).mem = g.mem := by
  unfold Gpu.logError; split <;> rfl

@[simp] theorem Gpu.mem_pokeL1 (g : Gpu) (core : Nat) (mark res : Bool) (cells : List (Phys × Byte)) :
    (g.pokeL1 core mark res cells).mem = g.mem := Gpu.mem_modCore ..

@[simp] theorem Gpu.mem_tear (g : Gpu) (a : Nat) : (g.tear a).mem = g.mem := by unfold Gpu.tear; simp only; split <;> rfl

@[simp] theorem Gpu.mem_drawWord (g : Gpu) : g.drawWord.1.mem = g.mem := rfl

@[simp] theorem Gpu.mem_choose (g : Gpu) (n : Nat) : (g.choose n).1.mem = g.mem := by unfold Gpu.choose; split <;> rfl

@[simp] theorem Gpu.mem_logWalk (g : Gpu) (c : Ctx) (core va n : Nat) : (g.logWalk c core va n).mem = g.mem := by
  unfold Gpu.logWalk; simp only; split
  · exact Gpu.mem_logError ..
  · rfl

theorem Gpu.wf_putHome {g : Gpu} (h : g.mem.wf = true) (res : Bool) (p : Phys) (b : Byte) : (g.putHome res p b).mem.wf = true := by
  have h' := (MemSt.wf_iff g.mem).1 h
  unfold Gpu.putHome
  split
  · exact MemSt.wf_setDevByte (by rw [Gpu.mem_tear]; exact h) _ _
  · split
    · exact (MemSt.wf_iff _).2 ⟨h'.1, h'.2.1, Memory.wf_setByte h'.2.2.1 _ _, h'.2.2.2⟩
    · exact (MemSt.wf_iff _).2 ⟨h'.1, h'.2.1, h'.2.2.1, Memory.wf_setByte h'.2.2.2 _ _⟩
  · exact h
  · exact h

theorem Gpu.wf_homeStore {g : Gpu} (h : g.mem.wf = true) (whole res : Bool) (cs : List (Phys × Byte)) : (g.homeStore whole res cs).mem.wf = true := by
  induction cs generalizing g with
  | nil => exact h
  | cons c cs ih =>
    simp only [Gpu.homeStore]
    split
    · refine ih (Gpu.wf_putHome ?_ _ _ _); exact h
    · split
      · exact ih h
      · refine ih (Gpu.wf_putHome ?_ _ _ _); exact h

theorem Gpu.wf_ctrlStore {g : Gpu} (h : g.mem.wf = true) (cs : List (Phys × Byte)) : (g.ctrlStore cs).mem.wf = true := by
  induction cs generalizing g with
  | nil => exact h
  | cons c cs ih =>
    simp only [Gpu.ctrlStore]
    split
    · split
      · exact ih h
      · exact ih (MemSt.wf_keepByte (by rw [Gpu.mem_tear]; exact h) _ _)
    · exact ih (Gpu.wf_homeStore h ..)

theorem Gpu.wf_foldl {α : Type} {f : Gpu → α → Gpu} (hf : ∀ g a, g.mem.wf = true → (f g a).mem.wf = true) {g : Gpu} (h : g.mem.wf = true)
    (l : List α) : (l.foldl f g).mem.wf = true := by
  induction l generalizing g with
  | nil => exact h
  | cons a l ih => exact ih (hf g a h)

theorem Gpu.wf_writeL1 {g : Gpu} (h : g.mem.wf = true) (core : Nat) (l : L1Line) : (Gpu.writeL1 core g l).mem.wf = true := by
  unfold Gpu.writeL1
  split
  · split
    · exact h
    · rw [Gpu.mem_logError]; exact h
  · exact Gpu.wf_homeStore h ..

theorem Gpu.wf_cleanLines {g : Gpu} (h : g.mem.wf = true) (core : Nat) (f : L1Line → Bool) : (g.cleanLines core f).mem.wf = true := by
  unfold Gpu.cleanLines; rw [Gpu.mem_modCore]; exact Gpu.wf_foldl (fun _ l h => Gpu.wf_writeL1 h core l) h _

theorem Gpu.wf_cleanL1 {g : Gpu} (h : g.mem.wf = true) (core : Nat) : (g.cleanL1 core).mem.wf = true :=
  Gpu.wf_cleanLines h core _

theorem Gpu.wf_flushL1 {g : Gpu} (h : g.mem.wf = true) (core : Nat) : (g.flushL1 core).mem.wf = true := by
  unfold Gpu.flushL1; rw [Gpu.mem_modCore]; exact Gpu.wf_cleanL1 h core

theorem Gpu.wf_evictL1 {g : Gpu} (h : g.mem.wf = true) (core : Nat) (k : LineKey) : (g.evictL1 core k).mem.wf = true := by
  unfold Gpu.evictL1; rw [Gpu.mem_modCore]; exact Gpu.wf_foldl (fun _ l h => Gpu.wf_writeL1 h core l) h _

theorem Gpu.wf_makeRoom {g : Gpu} (h : g.mem.wf = true) (core : Nat) : (g.makeRoom core).mem.wf = true := by
  unfold Gpu.makeRoom
  simp only
  split
  · exact h
  · split
    · exact Gpu.wf_evictL1 (by rw [Gpu.mem_choose]; exact h) core _
    · exact h

theorem Gpu.wf_fillL1 {g : Gpu} (h : g.mem.wf = true) (core rank : Nat) (k : LineKey) : (g.fillL1 core rank k).mem.wf = true := by
  unfold Gpu.fillL1
  split
  · exact h
  · split
    · split
      · rw [Gpu.mem_modCore]; exact h
      · exact h
    · rw [Gpu.mem_modCore]; exact Gpu.wf_makeRoom (Gpu.wf_evictL1 h core k) core

theorem Gpu.mem_sendOn (g : Gpu) (ctx ep : Nat) (body : PktBody) (op : Option Nat) (by_ : Option (TRef × DWord × DWord)) :
    (g.sendOn ctx ep body op by_).mem = g.mem := rfl

theorem Gpu.wf_peerStore {g : Gpu} (h : g.mem.wf = true) (cells : List (Phys × Byte)) (op : Option Nat) (by_ : Option (TRef × DWord × DWord)) :
    (g.peerStore cells op by_).mem.wf = true := by
  unfold Gpu.peerStore
  simp only
  generalize List.map (fun x => x.2) (List.filter _ cells) = bs
  generalize runsOf _ = rs
  induction rs generalizing g bs with
  | nil => exact h
  | cons r rs ih =>
    rw [List.foldl_cons]
    split
    · exact ih (by rw [Gpu.mem_sendOn]; exact h) _
    · exact ih h _

theorem Gpu.wf_perform {g : Gpu} (h : g.mem.wf = true) (core : Nat) (e : FifoEntry) : (g.perform core e).mem.wf = true := by
  have lose := fun (g : Gpu) (x : Phys × Byte) (h : g.mem.wf = true) =>
    Gpu.wf_fillL1 (show (g.loseResv x.1.line).mem.wf = true from h) core e.attr.rank x.1.line
  unfold Gpu.perform
  split
  · exact h
  · split
    · exact Gpu.wf_peerStore h ..
    · split
      · exact h
      · split
        · exact Gpu.wf_ctrlStore h _
        · split
          · rw [Gpu.mem_pokeL1]; exact Gpu.wf_homeStore h ..
          · split
            · exact Gpu.wf_homeStore h ..
            · simp only
              split
              · rw [Gpu.mem_pokeL1]; exact Gpu.wf_homeStore (Gpu.wf_foldl lose h _) ..
              · rw [Gpu.mem_pokeL1]; exact Gpu.wf_foldl lose h _

theorem Gpu.wf_leaveFifo {g : Gpu} (h : g.mem.wf = true) (core : Nat) (r : List FifoEntry × List FifoEntry) :
    (g.leaveFifo core r).mem.wf = true :=
  Gpu.wf_foldl (fun _ e h => Gpu.wf_perform h core e) (by rw [Gpu.mem_modCore]; exact h) _

theorem Gpu.wf_drainOne {g : Gpu} (h : g.mem.wf = true) (core : Nat) (t : TRef) : (g.drainOne core t).mem.wf = true := by
  unfold Gpu.drainOne
  simp only
  split
  · exact h
  · split
    · exact h
    · exact Gpu.wf_leaveFifo h core _

theorem Gpu.wf_drain {g : Gpu} (h : g.mem.wf = true) (core : Nat) (t : TRef) : (g.drain core t).mem.wf = true := Gpu.wf_leaveFifo h core _

theorem Gpu.wf_drainCore {g : Gpu} (h : g.mem.wf = true) (core : Nat) : (g.drainCore core).mem.wf = true := Gpu.wf_leaveFifo h core _

theorem Gpu.wf_atHome {g : Gpu} (h : g.mem.wf = true) (core : Nat) (t : TRef) (ps : List Phys) : (g.atHome core t ps).mem.wf = true := by
  unfold Gpu.atHome
  have ev := fun (g : Gpu) (p : Phys) (h : g.mem.wf = true) => Gpu.wf_evictL1 h core p.line
  have hd := Gpu.wf_drain h core t
  generalize g.drain core t = g' at hd
  induction ps generalizing g' with
  | nil => exact hd
  | cons p ps ih => exact ih (g'.evictL1 core p.line) (ev g' p hd)

theorem Gpu.wf_release {g : Gpu} (h : g.mem.wf = true) (core : Nat) (t : TRef) (sc : Scope) : (g.release core t sc).mem.wf = true := by
  unfold Gpu.release
  split
  · exact Gpu.wf_cleanL1 (Gpu.wf_drain h core t) core
  · exact Gpu.wf_drain h core t

theorem Gpu.wf_acquire {g : Gpu} (h : g.mem.wf = true) (core : Nat) (sc : Scope) : (g.acquire core sc).mem.wf = true := by
  unfold Gpu.acquire
  split
  · exact Gpu.wf_flushL1 h core
  · exact h

theorem Gpu.wf_fence {g : Gpu} (h : g.mem.wf = true) (core : Nat) (t : TRef) (o : Ord4) (sc : Scope) : (g.fence core t o sc).mem.wf = true := by
  unfold Gpu.fence
  have h1 : (if o.releases then g.release core t sc else g).mem.wf = true := by
    split
    · exact Gpu.wf_release h core t sc
    · exact h
  generalize (if o.releases then g.release core t sc else g) = g1 at h1
  have h2 : (if (o.releases && sc == .sys && g1.owesAck t) = true then g1.modThread t fun th => { th with sysrel := true } else g1).mem.wf = true := by
    split
    · exact h1
    · exact h1
  by_cases ha : (o.acquires && sc.beyondCore) = true
  · simp only [if_pos ha]; exact Gpu.wf_flushL1 h2 core
  · simp only [if_neg ha]; exact h2

theorem MemSt.wf_evictByte {m : MemSt} (h : m.wf = true) (line : Nat) (is : List Nat) :
    (is.foldl (fun (m : MemSt) (i : Nat) =>
      { m with dev := m.dev.setByte (128 * line + i) (m.devByte (128 * line + i)), l2dev := Store.set none m.l2dev (128 * line + i) none })
      m).wf = true := by
  refine MemSt.wf_foldl (fun m i h => ?_) h is
  have h' := (MemSt.wf_iff m).1 h
  exact (MemSt.wf_iff _).2 ⟨Memory.wf_setByte h'.1 _ _, Store.wfFrom_set h'.2.1 (Nat.zero_le _), h'.2.2⟩

/-! ### Copies -/

@[simp] theorem Gpu.mem_modWg (g : Gpu) (wg : Nat) (f : Wg → Wg) : (g.modWg wg f).mem = g.mem := rfl

@[simp] theorem Gpu.mem_modOp (g : Gpu) (id : Nat) (f : Op → Op) : (g.modOp id f).mem = g.mem := rfl

@[simp] theorem Gpu.mem_deferPoison (g : Gpu) (o : Op) (p : Option Nat) : (g.deferPoison o p).mem = g.mem := by
  unfold Gpu.deferPoison; split <;> rfl

@[simp] theorem Gpu.mem_runAlone (g : Gpu) (core launch : Nat) (t : TRef) (pc : DWord) : (g.runAlone core launch t pc).mem = g.mem := by
  unfold Gpu.runAlone
  split
  · exact Gpu.mem_modCore ..
  · rfl

@[simp] theorem Gpu.mem_trapWaiter (g : Gpu) (t : TRef) : (g.trapWaiter t).mem = g.mem := by
  unfold Gpu.trapWaiter
  split
  · split
    · split
      · rfl
      · simp only [Gpu.mem_runAlone]; rfl
    · rfl
  · rfl

theorem Gpu.mem_foldl {α : Type} {f : Gpu → α → Gpu} (hf : ∀ g a, (f g a).mem = g.mem) (g : Gpu) (l : List α) : (l.foldl f g).mem = g.mem := by
  induction l generalizing g with
  | nil => rfl
  | cons a l ih => rw [List.foldl_cons, ih, hf]

/-- A store to the scratchpad leaves memory. -/
theorem Gpu.mem_scratchStore (g : Gpu) (wg o : Nat) (bs : List Byte) : (g.scratchStore wg o bs).mem = g.mem := by
  unfold Gpu.scratchStore
  simp only
  split
  · rfl
  · refine (Gpu.mem_foldl (fun g k => ?_) _ _).trans rfl
    split
    · rfl
    · exact Gpu.mem_foldl Gpu.mem_trapWaiter _ _

/-- The line fills of a load keep the form. -/
theorem Gpu.wf_fillLines {g : Gpu} (h : g.mem.wf = true) (fill : Bool) (core rank : Nat) (ps : List Phys) :
    (if fill = true then ps.foldl (fun g p => g.fillL1 core rank p.line) g else g).mem.wf = true := by
  rcases Bool.eq_false_or_eq_true fill with hf | hf
  · rw [if_pos hf]
    exact Gpu.wf_foldl (fun _ (p : Phys) h => Gpu.wf_fillL1 h core rank p.line) h ps
  · rw [if_neg (by rw [hf]; exact Bool.false_ne_true)]
    exact h

theorem Gpu.wf_loadCells {g : Gpu} (h : g.mem.wf = true) (core : Nat) (t : TRef) (a : Attr) (bypass : Bool) (ps : List Phys) :
    (g.loadCells core t a bypass ps).1.mem.wf = true := by
  have hg := Gpu.wf_fillLines h (a.inL1 && !bypass) core a.rank ps
  unfold Gpu.loadCells
  revert hg
  generalize (if (a.inL1 && !bypass) = true then ps.foldl (fun g p => g.fillL1 core a.rank p.line) g else g) = g'
  intro hg
  cases bypass
  · exact hg
  · exact (congrArg MemSt.wf (Gpu.mem_pokeL1 ..)).trans hg

/-- A fold whose every step keeps the form of memory keeps it. -/
theorem Gpu.wf_foldlPair {α β : Type} {f : Gpu × α → β → Gpu × α} (hf : ∀ s b, s.1.mem.wf = true → (f s b).1.mem.wf = true)
    (bs : List β) (s : Gpu × α) (h : s.1.mem.wf = true) : (bs.foldl f s).1.mem.wf = true := by
  induction bs generalizing s with
  | nil => exact h
  | cons b bs ih => exact ih _ (hf s b h)

theorem Gpu.wf_loadPages {g : Gpu} (h : g.mem.wf = true) (core : Nat) (t : TRef) (ch : BitVec 2) (ls : List (Nat × Leaf))
    (got : List (Phys × Byte)) (va n : Nat) : (g.loadPages core t ch ls got va n).1.mem.wf = true := by
  unfold Gpu.loadPages
  refine Gpu.wf_foldlPair (fun s i hs => ?_) _ _ h
  split
  · exact hs
  · simp only
    split
    · exact hs
    · exact Gpu.wf_loadCells hs ..

theorem Gpu.wf_opBytes {g : Gpu} (h : g.mem.wf = true) (o : Op) (a : DWord) (n : Nat) : (g.opBytes o a n).1.mem.wf = true := by
  unfold Gpu.opBytes
  split
  · exact h
  · simp only
    split
    · exact h
    · exact Gpu.wf_loadPages h ..
  · exact h

theorem Gpu.wf_opStore {g : Gpu} (h : g.mem.wf = true) (o : Op) (a : DWord) (bs : List Byte) : (g.opStore o a bs).mem.wf = true := by
  unfold Gpu.opStore
  split
  · rw [Gpu.mem_scratchStore]; exact h
  · unfold Gpu.storePages
    simp only [Gpu.mem_pokeL1]
    exact Gpu.wf_homeStore (Gpu.wf_ctrlStore (Gpu.wf_peerStore h ..) _) ..
  · exact h

theorem Gpu.wf_copySource (o : Op) (xs : List (DWord × Nat)) {g : Gpu} (h : g.mem.wf = true) : (Gpu.copySource o g xs).1.mem.wf = true := by
  induction xs generalizing g with
  | nil => exact h
  | cons x xs ih =>
    have hb := Gpu.wf_opBytes h o x.1 x.2
    simp only [Gpu.copySource]
    split
    · rename_i e; rw [e] at hb; exact hb
    · rename_i e
      rw [e] at hb
      have hs := ih hb
      split
      · rename_i e'; rw [e'] at hs; exact hs
      · rename_i e'; rw [e'] at hs; exact hs

theorem Gpu.wf_copyDest (o : Op) (dwg : Nat) (xs : List (DWord × Nat)) {g : Gpu} (h : g.mem.wf = true) (bs : List Byte) :
    (Gpu.copyDest o dwg g xs bs).mem.wf = true := by
  induction xs generalizing g bs with
  | nil => exact h
  | cons x xs ih =>
    simp only [Gpu.copyDest]
    refine ih ?_ _
    split
    · rw [Gpu.mem_scratchStore]; exact h
    · exact Gpu.wf_opStore h ..

theorem Gpu.mem_ask (g : Gpu) (id : Nat) (ps : List Phys) : (g.ask id ps).mem = g.mem := by
  unfold Gpu.ask
  refine Gpu.mem_foldl (fun g r => ?_) _ _
  split
  · rfl
  · rfl

theorem Gpu.mem_logEnds (g : Gpu) (ps : List Phys) : (g.logEnds ps).mem = g.mem := by
  unfold Gpu.logEnds
  refine Gpu.mem_foldl (fun g sp => ?_) _ _
  split
  · cases g.ctx? _ with
    | none => rfl
    | some c =>
      simp only [Option.map_some, Option.getD_some, Gpu.logEnd]
      split
      · exact Gpu.mem_logWalk ..
      · rfl
  · rfl

/-- What an operation still asks for leaves memory. -/
theorem Gpu.mem_askFor (g : Gpu) (o : Op) (ps : List Phys) : (g.askFor o ps).mem = g.mem := by
  unfold Gpu.askFor
  simp only
  split
  · rw [Gpu.mem_modOp, Gpu.mem_logEnds]
    split <;> rfl
  · exact Gpu.mem_ask ..

/-- A copy that moves part of its bytes keeps the form. -/
theorem Gpu.wf_stepCopy {g : Gpu} (h : g.mem.wf = true) (id : Nat) : (g.stepCopy id).mem.wf = true := by
  unfold Gpu.stepCopy
  split
  · split
    · simp only
      split
      · exact h
      · unfold Gpu.movePart
        simp only
        split
        · rw [Gpu.mem_askFor]; exact h
        · rename_i g' bs p e
          have hs := congrArg (fun r => r.1.mem.wf) e
          simp only [Gpu.wf_copySource _ _ h] at hs
          simp only [Gpu.mem_modOp, Gpu.mem_deferPoison]
          exact Gpu.wf_copyDest _ _ _ hs.symm _
    · exact h
  · exact h

/-- A word of a frame read leaves memory. -/
theorem Gpu.mem_frameStep (g : Gpu) (rel : Nat) : (g.frameStep rel).mem = g.mem := by
  unfold Gpu.frameStep
  split
  · rfl
  · simp only
    split
    · rfl
    · split
      · rfl
      · unfold Gpu.frameRead
        split
        · rfl
        · exact Gpu.mem_logWalk ..

theorem Gpu.wf_dropTlbEntry {g : Gpu} (h : g.mem.wf = true) (tlb i : Nat) : (g.dropTlbEntry tlb i).mem.wf = true := by
  unfold Gpu.dropTlbEntry
  split
  · exact h
  · split
    · exact h
    · split
      · exact h
      · rw [Gpu.mem_modCore]; exact h

/-! ### Connections that fail -/

@[simp] theorem Gpu.mem_modConn (g : Gpu) (ctx ep : Nat) (f : Conn → Conn) : (g.modConn ctx ep f).mem = g.mem := rfl

@[simp] theorem Gpu.mem_loseOp (g : Gpu) (id : Nat) : (g.loseOp id).mem = g.mem := by
  unfold Gpu.loseOp
  split
  · rfl
  · split
    · rfl
    · simp only [Gpu.mem_modOp]
      exact (Gpu.mem_foldl (fun g _ => show (Gpu.deferOp g _ _ _).mem = g.mem from rfl) _ _).trans rfl

theorem Gpu.wf_readDone {g : Gpu} (h : g.mem.wf = true) (id : Nat) : (g.readDone id).mem.wf = true := by
  unfold Gpu.readDone
  split
  · exact h
  · split
    · split
      · exact h
      · simp only
        split
        · exact (congrArg MemSt.wf (Gpu.mem_modCore ..)).trans h
        · split
          · split
            · exact Gpu.wf_flushL1 h _
            · exact h
          · exact h
    · exact h

theorem Gpu.wf_readAnswer {g : Gpu} (h : g.mem.wf = true) (tag : Nat) (bs : List Byte) : (g.readAnswer tag bs).mem.wf = true := by
  unfold Gpu.readAnswer
  split
  · exact h
  · split
    · exact h
    · exact Gpu.wf_readDone (g := g.modOp _ _) h _

theorem Gpu.wf_loseSent {g : Gpu} (h : g.mem.wf = true) (x : Sent) : (g.loseSent x).mem.wf = true := by
  have h1 : (match x.by_ with
      | some (t, pc, word) => g.modThread t fun th => th.defer ⟨TrapKind.fabricLoss.code, 0, pc, word, 0⟩
      | none => g).mem.wf = true := by split <;> exact h
  unfold Gpu.loseSent
  extract_lets g1 g2
  have h2 : g2.mem.wf = true := by
    show (match x.op with | some id => g1.loseOp id | none => g1).mem.wf = true
    split
    · rw [Gpu.mem_loseOp]; exact h1
    · exact h1
  split
  · exact Gpu.wf_readAnswer h2 ..
  · exact h2

@[simp] theorem Gpu.mem_postFinish (g : Gpu) (part hseq status ctx : Nat) (v : DWord) : (g.postFinish part hseq status ctx v).mem = g.mem := rfl

theorem Gpu.wf_formFinish {g : Gpu} (h : g.mem.wf = true) (launch : Nat) : (g.formFinish launch).mem.wf = true := by
  unfold Gpu.formFinish
  split
  · exact h
  · split
    · exact h
    · split
      · exact h
      · exact Gpu.wf_foldl (fun _ (x : Nat × CoreSt) h => Gpu.wf_cleanL1 h x.1) h g.cores

/-- A connection that fails keeps the form. -/
theorem Gpu.wf_failConn {g : Gpu} (h : g.mem.wf = true) (c : Conn) : (g.failConn c).mem.wf = true := by
  unfold Gpu.failConn Gpu.formFinishes
  refine Gpu.wf_foldl (fun _ l h => Gpu.wf_formFinish h l) ?_ _
  unfold Gpu.freeAcks
  rw [Gpu.mem_mapThreads]
  refine Gpu.wf_foldl (fun g o h => ?_) (Gpu.wf_foldl (fun _ x h => Gpu.wf_loseSent h x) (g := g.modConn c.ctx c.ep _) h _) _
  split
  · exact h
  · exact Gpu.wf_foldl (fun _ t h => Gpu.wf_readAnswer h t []) (by rw [Gpu.mem_loseOp]; exact h) _

theorem Gpu.wf_connect {g : Gpu} (h : g.mem.wf = true) (ctx ep : Nat) : (g.connect ctx ep).mem.wf = true := by
  unfold Gpu.connect
  split
  · cases g.ctx? ctx with
    | none => exact h
    | some c =>
      refine (congrArg MemSt.wf ?_).trans h
      simp only [Option.map_some, Option.getD_some, Gpu.logEnd]
      split
      · exact Gpu.mem_logWalk ..
      · rfl
  · simp only
    split
    · exact h
    · exact Gpu.wf_foldl (fun _ c h => Gpu.wf_failConn h c) h _

theorem Gpu.mem_showDrain (g : Gpu) (id : Nat) : (g.showDrain id).mem = g.mem := by
  unfold Gpu.showDrain
  split
  · split
    · split <;> rfl
    · split <;> rfl
    · rfl
  · rfl

/-- Every move that is no row of the opcode table keeps the form. -/
theorem Gpu.wf_quietMove {g : Gpu} (h : g.mem.wf = true) (m : Move) : (g.quietMove m).mem.wf = true := by
  cases m with
  | l2Evict line =>
    unfold Gpu.quietMove
    generalize List.range 128 = is
    exact MemSt.wf_evictByte h line is
  | hostStore port addr bs => exact Gpu.wf_homeStore h ..
  | connect ctx ep => exact Gpu.wf_connect h ctx ep
  | l1Drop | icDrop => simp only [Gpu.quietMove, Gpu.mem_modCore]; exact h
  | tlbDrop tlb i => exact Gpu.wf_dropTlbEntry h tlb i
  | copyStep op => exact Gpu.wf_stepCopy h op
  | frameStep rel => simp only [Gpu.quietMove, Gpu.mem_frameStep]; exact h
  | landPart t id i => exact (congrArg MemSt.wf (Gpu.mem_showDrain g id)).trans h
  | event | tick | issue | hostAtomics | sensor | otherRequest => exact h

/-! ### Scratchpads -/

theorem Wg.wf_pokeScratch {w : Wg} (h : w.scratch.wf = true) (o : Nat) (b : Byte) : (w.pokeScratch o b).scratch.wf = true := by
  unfold Wg.pokeScratch
  split
  · split
    · exact h
    · exact Memory.wf_setByte h _ _
  · exact Memory.wf_setByte h _ _

theorem Wg.wf_poisonBar {w : Wg} (h : w.scratch.wf = true) (k : Nat) : (w.poisonBar k).scratch.wf = true := Memory.wf_setByte h _ _

theorem Wg.wf_setTbar {w : Wg} (h : w.scratch.wf = true) (k : Nat) (b : TBar) : (w.setTbar k b).scratch.wf = true := Memory.wf_setBytes h _ _

/-- A byte stored to the scratchpad changes no other byte. -/
theorem Wg.pokeScratch_other {w : Wg} (h : w.scratch.wf = true) {o x : Nat} (b : Byte) (hx : x ≠ o) :
    (w.pokeScratch o b).scratch.byte x = w.scratch.byte x := by
  unfold Wg.pokeScratch
  split
  · split
    · rfl
    · exact Memory.byte_setByte_other h _ hx
  · exact Memory.byte_setByte_other h _ hx

end Sys2Proof.Machine
end

