-- ==== Sys2Proof/Laws/PerInstr.lean ====
section
/-! SUPPORT. One law for every row of the opcode table: an instruction has words exactly when it is an instruction word, and an
event, which has none, is always legal. -/

open Sys2Proof

/-- What holds of every instruction as syntax. -/
def Sys2Proof.Laws.F.Statement (i : Sys2Proof.Instr) : Prop :=
  (Sys2Proof.encode i).isEmpty = !i.isWord ∧ (i.isWord = false → i.wf = true)

theorem Sys2Proof.Laws.F.iadd (p : Pfx) (ty : Ty) (sat : Bool) (d a : Reg) (b : SrcB) : Sys2Proof.Laws.F.Statement (.iadd p ty sat d a b) := ⟨rfl, nofun⟩
theorem Sys2Proof.Laws.F.isub (p : Pfx) (ty : Ty) (sat : Bool) (d a : Reg) (b : SrcB) : Sys2Proof.Laws.F.Statement (.isub p ty sat d a b) := ⟨rfl, nofun⟩
theorem Sys2Proof.Laws.F.imul (p : Pfx) (ty : Ty) (sat : Bool) (d a : Reg) (b : SrcB) : Sys2Proof.Laws.F.Statement (.imul p ty sat d a b) := ⟨rfl, nofun⟩
theorem Sys2Proof.Laws.F.imulh (p : Pfx) (ty : Ty) (d a : Reg) (b : SrcB) : Sys2Proof.Laws.F.Statement (.imulh p ty d a b) := ⟨rfl, nofun⟩
theorem Sys2Proof.Laws.F.imad (p : Pfx) (ty : Ty) (sat : Bool) (d a : Reg) (b : SrcB) (c : Reg) : Sys2Proof.Laws.F.Statement (.imad p ty sat d a b c) := ⟨rfl, nofun⟩
theorem Sys2Proof.Laws.F.iaddc (p : Pfx) (d a : Reg) (b : SrcB) (pc : PredNo) : Sys2Proof.Laws.F.Statement (.iaddc p d a b pc) := ⟨rfl, nofun⟩
theorem Sys2Proof.Laws.F.isubb (p : Pfx) (d a : Reg) (b : SrcB) (pc : PredNo) : Sys2Proof.Laws.F.Statement (.isubb p d a b pc) := ⟨rfl, nofun⟩
theorem Sys2Proof.Laws.F.imin (p : Pfx) (ty : Ty) (d a : Reg) (b : SrcB) : Sys2Proof.Laws.F.Statement (.imin p ty d a b) := ⟨rfl, nofun⟩
theorem Sys2Proof.Laws.F.imax (p : Pfx) (ty : Ty) (d a : Reg) (b : SrcB) : Sys2Proof.Laws.F.Statement (.imax p ty d a b) := ⟨rfl, nofun⟩
theorem Sys2Proof.Laws.F.iabs (p : Pfx) (ty : Ty) (sat : Bool) (d a : Reg) : Sys2Proof.Laws.F.Statement (.iabs p ty sat d a) := ⟨rfl, nofun⟩
theorem Sys2Proof.Laws.F.ineg (p : Pfx) (ty : Ty) (sat : Bool) (d a : Reg) : Sys2Proof.Laws.F.Statement (.ineg p ty sat d a) := ⟨rfl, nofun⟩
theorem Sys2Proof.Laws.F.sel (p : Pfx) (wide : Bool) (d a : Reg) (b : SrcB) (pc : PredNo) : Sys2Proof.Laws.F.Statement (.sel p wide d a b pc) := ⟨rfl, nofun⟩
theorem Sys2Proof.Laws.F.icmp (p : Pfx) (cc : CC) (ty : Ty) (pd : PredNo) (a : Reg) (b : SrcB) : Sys2Proof.Laws.F.Statement (.icmp p cc ty pd a b) := ⟨rfl, nofun⟩
theorem Sys2Proof.Laws.F.mov (p : Pfx) (wide : Bool) (d a : Reg) : Sys2Proof.Laws.F.Statement (.mov p wide d a) := ⟨rfl, nofun⟩
theorem Sys2Proof.Laws.F.movi (p : Pfx) (wide : Bool) (d : Reg) (v : MoviImm) : Sys2Proof.Laws.F.Statement (.movi p wide d v) := by cases v <;> exact ⟨rfl, nofun⟩
theorem Sys2Proof.Laws.F.pset (p : Pfx) (op : LOp) (na nb : Bool) (pd pa pb : PredNo) : Sys2Proof.Laws.F.Statement (.pset p op na nb pd pa pb) := ⟨rfl, nofun⟩
theorem Sys2Proof.Laws.F.pmov (p : Pfx) (d : Reg) : Sys2Proof.Laws.F.Statement (.pmov p d) := ⟨rfl, nofun⟩
theorem Sys2Proof.Laws.F.pmovSet (p : Pfx) (a : Reg) (mask : BitVec 7) : Sys2Proof.Laws.F.Statement (.pmovSet p a mask) := ⟨rfl, nofun⟩
theorem Sys2Proof.Laws.F.lea (p : Pfx) (ty : Ty) (d a : Reg) (b : SrcB) (sh : BitVec 3) : Sys2Proof.Laws.F.Statement (.lea p ty d a b sh) := ⟨rfl, nofun⟩
theorem Sys2Proof.Laws.F.ladd (p : Pfx) (d a : Reg) (b : SrcB) : Sys2Proof.Laws.F.Statement (.ladd p d a b) := ⟨rfl, nofun⟩
theorem Sys2Proof.Laws.F.lsub (p : Pfx) (d a : Reg) (b : SrcB) : Sys2Proof.Laws.F.Statement (.lsub p d a b) := ⟨rfl, nofun⟩
theorem Sys2Proof.Laws.F.lcmp (p : Pfx) (cc : CC) (sgn : Bool) (pd : PredNo) (a : Reg) (b : SrcB) : Sys2Proof.Laws.F.Statement (.lcmp p cc sgn pd a b) := ⟨rfl, nofun⟩
theorem Sys2Proof.Laws.F.bAnd (p : Pfx) (wide : Bool) (d a : Reg) (b : SrcB) : Sys2Proof.Laws.F.Statement (.bAnd p wide d a b) := ⟨rfl, nofun⟩
theorem Sys2Proof.Laws.F.bOr (p : Pfx) (wide : Bool) (d a : Reg) (b : SrcB) : Sys2Proof.Laws.F.Statement (.bOr p wide d a b) := ⟨rfl, nofun⟩
theorem Sys2Proof.Laws.F.bXor (p : Pfx) (wide : Bool) (d a : Reg) (b : SrcB) : Sys2Proof.Laws.F.Statement (.bXor p wide d a b) := ⟨rfl, nofun⟩
theorem Sys2Proof.Laws.F.bNot (p : Pfx) (wide : Bool) (d a : Reg) : Sys2Proof.Laws.F.Statement (.bNot p wide d a) := ⟨rfl, nofun⟩
theorem Sys2Proof.Laws.F.shl (p : Pfx) (d a : Reg) (b : SrcB) : Sys2Proof.Laws.F.Statement (.shl p d a b) := ⟨rfl, nofun⟩
theorem Sys2Proof.Laws.F.shr (p : Pfx) (d a : Reg) (b : SrcB) : Sys2Proof.Laws.F.Statement (.shr p d a b) := ⟨rfl, nofun⟩
theorem Sys2Proof.Laws.F.sar (p : Pfx) (d a : Reg) (b : SrcB) : Sys2Proof.Laws.F.Statement (.sar p d a b) := ⟨rfl, nofun⟩
theorem Sys2Proof.Laws.F.rotl (p : Pfx) (d a : Reg) (b : SrcB) : Sys2Proof.Laws.F.Statement (.rotl p d a b) := ⟨rfl, nofun⟩
theorem Sys2Proof.Laws.F.bfx (p : Pfx) (ty : Ty) (d a : Reg) (b : SrcB) : Sys2Proof.Laws.F.Statement (.bfx p ty d a b) := ⟨rfl, nofun⟩
theorem Sys2Proof.Laws.F.bfi (p : Pfx) (d a : Reg) (b : SrcB) (c : Reg) : Sys2Proof.Laws.F.Statement (.bfi p d a b c) := ⟨rfl, nofun⟩
theorem Sys2Proof.Laws.F.popc (p : Pfx) (d a : Reg) : Sys2Proof.Laws.F.Statement (.popc p d a) := ⟨rfl, nofun⟩
theorem Sys2Proof.Laws.F.clz (p : Pfx) (d a : Reg) : Sys2Proof.Laws.F.Statement (.clz p d a) := ⟨rfl, nofun⟩
theorem Sys2Proof.Laws.F.brev (p : Pfx) (d a : Reg) : Sys2Proof.Laws.F.Statement (.brev p d a) := ⟨rfl, nofun⟩
theorem Sys2Proof.Laws.F.fadd (p : Pfx) (rm : RM) (d a : Reg) (b : SrcB) : Sys2Proof.Laws.F.Statement (.fadd p rm d a b) := ⟨rfl, nofun⟩
theorem Sys2Proof.Laws.F.fsub (p : Pfx) (rm : RM) (d a : Reg) (b : SrcB) : Sys2Proof.Laws.F.Statement (.fsub p rm d a b) := ⟨rfl, nofun⟩
theorem Sys2Proof.Laws.F.fmul (p : Pfx) (rm : RM) (d a : Reg) (b : SrcB) : Sys2Proof.Laws.F.Statement (.fmul p rm d a b) := ⟨rfl, nofun⟩
theorem Sys2Proof.Laws.F.ffma (p : Pfx) (rm : RM) (d a : Reg) (b : SrcB) (c : Reg) : Sys2Proof.Laws.F.Statement (.ffma p rm d a b c) := ⟨rfl, nofun⟩
theorem Sys2Proof.Laws.F.fmin (p : Pfx) (d a : Reg) (b : SrcB) : Sys2Proof.Laws.F.Statement (.fmin p d a b) := ⟨rfl, nofun⟩
theorem Sys2Proof.Laws.F.fmax (p : Pfx) (d a : Reg) (b : SrcB) : Sys2Proof.Laws.F.Statement (.fmax p d a b) := ⟨rfl, nofun⟩
theorem Sys2Proof.Laws.F.fcmp (p : Pfx) (cc : CC) (pd : PredNo) (a : Reg) (b : SrcB) : Sys2Proof.Laws.F.Statement (.fcmp p cc pd a b) := ⟨rfl, nofun⟩
theorem Sys2Proof.Laws.F.fsel (p : Pfx) (cc : CC) (d a : Reg) (b : SrcB) (c : Reg) : Sys2Proof.Laws.F.Statement (.fsel p cc d a b c) := ⟨rfl, nofun⟩
theorem Sys2Proof.Laws.F.fclass (p : Pfx) (d a : Reg) : Sys2Proof.Laws.F.Statement (.fclass p d a) := ⟨rfl, nofun⟩
theorem Sys2Proof.Laws.F.frnd (p : Pfx) (rm : RM) (d a : Reg) : Sys2Proof.Laws.F.Statement (.frnd p rm d a) := ⟨rfl, nofun⟩
theorem Sys2Proof.Laws.F.ffrac (p : Pfx) (d a : Reg) : Sys2Proof.Laws.F.Statement (.ffrac p d a) := ⟨rfl, nofun⟩
theorem Sys2Proof.Laws.F.fscl (p : Pfx) (d a : Reg) (b : SrcB) : Sys2Proof.Laws.F.Statement (.fscl p d a b) := ⟨rfl, nofun⟩
theorem Sys2Proof.Laws.F.frcp (p : Pfx) (rm : RM) (d a : Reg) : Sys2Proof.Laws.F.Statement (.frcp p rm d a) := ⟨rfl, nofun⟩
theorem Sys2Proof.Laws.F.frsq (p : Pfx) (d a : Reg) : Sys2Proof.Laws.F.Statement (.frsq p d a) := ⟨rfl, nofun⟩
theorem Sys2Proof.Laws.F.fsqrt (p : Pfx) (rm : RM) (d a : Reg) : Sys2Proof.Laws.F.Statement (.fsqrt p rm d a) := ⟨rfl, nofun⟩
theorem Sys2Proof.Laws.F.fexp2 (p : Pfx) (d a : Reg) : Sys2Proof.Laws.F.Statement (.fexp2 p d a) := ⟨rfl, nofun⟩
theorem Sys2Proof.Laws.F.flog2 (p : Pfx) (d a : Reg) : Sys2Proof.Laws.F.Statement (.flog2 p d a) := ⟨rfl, nofun⟩
theorem Sys2Proof.Laws.F.fsin (p : Pfx) (d a : Reg) : Sys2Proof.Laws.F.Statement (.fsin p d a) := ⟨rfl, nofun⟩
theorem Sys2Proof.Laws.F.fcos (p : Pfx) (d a : Reg) : Sys2Proof.Laws.F.Statement (.fcos p d a) := ⟨rfl, nofun⟩
theorem Sys2Proof.Laws.F.hadd2 (p : Pfx) (ty : Ty) (rm : RM) (d a : Reg) (b : SrcB) : Sys2Proof.Laws.F.Statement (.hadd2 p ty rm d a b) := ⟨rfl, nofun⟩
theorem Sys2Proof.Laws.F.hmul2 (p : Pfx) (ty : Ty) (rm : RM) (d a : Reg) (b : SrcB) : Sys2Proof.Laws.F.Statement (.hmul2 p ty rm d a b) := ⟨rfl, nofun⟩
theorem Sys2Proof.Laws.F.hfma2 (p : Pfx) (rm : RM) (d a : Reg) (b : SrcB) (c : Reg) : Sys2Proof.Laws.F.Statement (.hfma2 p rm d a b c) := ⟨rfl, nofun⟩
theorem Sys2Proof.Laws.F.efma2 (p : Pfx) (rm : RM) (d a : Reg) (b : SrcB) (c : Reg) : Sys2Proof.Laws.F.Statement (.efma2 p rm d a b c) := ⟨rfl, nofun⟩
theorem Sys2Proof.Laws.F.ivadd (p : Pfx) (d a : Reg) (b : SrcB) : Sys2Proof.Laws.F.Statement (.ivadd p d a b) := ⟨rfl, nofun⟩
theorem Sys2Proof.Laws.F.ivsub (p : Pfx) (d a : Reg) (b : SrcB) : Sys2Proof.Laws.F.Statement (.ivsub p d a b) := ⟨rfl, nofun⟩
theorem Sys2Proof.Laws.F.ivmul (p : Pfx) (d a : Reg) (b : SrcB) : Sys2Proof.Laws.F.Statement (.ivmul p d a b) := ⟨rfl, nofun⟩
theorem Sys2Proof.Laws.F.ivsqr (p : Pfx) (d a : Reg) : Sys2Proof.Laws.F.Statement (.ivsqr p d a) := ⟨rfl, nofun⟩
theorem Sys2Proof.Laws.F.ivsqrt (p : Pfx) (d a : Reg) : Sys2Proof.Laws.F.Statement (.ivsqrt p d a) := ⟨rfl, nofun⟩
theorem Sys2Proof.Laws.F.ivmin (p : Pfx) (d a : Reg) (b : SrcB) : Sys2Proof.Laws.F.Statement (.ivmin p d a b) := ⟨rfl, nofun⟩
theorem Sys2Proof.Laws.F.ivmax (p : Pfx) (d a : Reg) (b : SrcB) : Sys2Proof.Laws.F.Statement (.ivmax p d a b) := ⟨rfl, nofun⟩
theorem Sys2Proof.Laws.F.ivabs (p : Pfx) (d a : Reg) : Sys2Proof.Laws.F.Statement (.ivabs p d a) := ⟨rfl, nofun⟩
theorem Sys2Proof.Laws.F.ivhull (p : Pfx) (d a : Reg) (b : SrcB) : Sys2Proof.Laws.F.Statement (.ivhull p d a b) := ⟨rfl, nofun⟩
theorem Sys2Proof.Laws.F.ivsplit (p : Pfx) (d c a : Reg) : Sys2Proof.Laws.F.Statement (.ivsplit p d c a) := ⟨rfl, nofun⟩
theorem Sys2Proof.Laws.F.cvt (p : Pfx) (dt st : Ty) (rm : RM) (sat : Bool) (d a : Reg) : Sys2Proof.Laws.F.Statement (.cvt p dt st rm sat d a) := ⟨rfl, nofun⟩
theorem Sys2Proof.Laws.F.cvef (p : Pfx) (dt : Ty) (d a c : Reg) : Sys2Proof.Laws.F.Statement (.cvef p dt d a c) := ⟨rfl, nofun⟩
theorem Sys2Proof.Laws.F.pack (p : Pfx) (ty : Ty) (idx : BitVec 3) (d a : Reg) : Sys2Proof.Laws.F.Statement (.pack p ty idx d a) := ⟨rfl, nofun⟩
theorem Sys2Proof.Laws.F.unpack (p : Pfx) (ty : Ty) (idx : BitVec 3) (d a : Reg) : Sys2Proof.Laws.F.Statement (.unpack p ty idx d a) := ⟨rfl, nofun⟩
theorem Sys2Proof.Laws.F.prm (p : Pfx) (d a : Reg) (b : SrcB) (c : Reg) : Sys2Proof.Laws.F.Statement (.prm p d a b c) := ⟨rfl, nofun⟩
theorem Sys2Proof.Laws.F.dot2 (p : Pfx) (ty : Ty) (d a : Reg) (b : SrcB) (c : Reg) : Sys2Proof.Laws.F.Statement (.dot2 p ty d a b c) := ⟨rfl, nofun⟩
theorem Sys2Proof.Laws.F.dot4 (p : Pfx) (ty : Ty) (d a : Reg) (b : SrcB) (c : Reg) : Sys2Proof.Laws.F.Statement (.dot4 p ty d a b c) := ⟨rfl, nofun⟩
theorem Sys2Proof.Laws.F.dot8 (p : Pfx) (ty : Ty) (d a : Reg) (b : SrcB) (c : Reg) : Sys2Proof.Laws.F.Statement (.dot8 p ty d a b c) := ⟨rfl, nofun⟩
theorem Sys2Proof.Laws.F.rdfl (p : Pfx) (wide : Bool) (d a : Reg) : Sys2Proof.Laws.F.Statement (.rdfl p wide d a) := ⟨rfl, nofun⟩
theorem Sys2Proof.Laws.F.bcast (p : Pfx) (wide : Bool) (d a : Reg) (lane : BitVec 5) : Sys2Proof.Laws.F.Statement (.bcast p wide d a lane) := ⟨rfl, nofun⟩
theorem Sys2Proof.Laws.F.shfl (p : Pfx) (mode : ShflMode) (wide : Bool) (d a : Reg) (b : SrcB) : Sys2Proof.Laws.F.Statement (.shfl p mode wide d a b) := ⟨rfl, nofun⟩
theorem Sys2Proof.Laws.F.vote (p : Pfx) (mode : VoteMode) (d a : Reg) : Sys2Proof.Laws.F.Statement (.vote p mode d a) := ⟨rfl, nofun⟩
theorem Sys2Proof.Laws.F.redu (p : Pfx) (op : FoldOp) (ty : Ty) (d a : Reg) : Sys2Proof.Laws.F.Statement (.redu p op ty d a) := ⟨rfl, nofun⟩
theorem Sys2Proof.Laws.F.scan (p : Pfx) (op : FoldOp) (excl : Bool) (ty : Ty) (d a : Reg) : Sys2Proof.Laws.F.Statement (.scan p op excl ty d a) := ⟨rfl, nofun⟩
theorem Sys2Proof.Laws.F.matchL (p : Pfx) (wide : Bool) (d a : Reg) : Sys2Proof.Laws.F.Statement (.matchL p wide d a) := ⟨rfl, nofun⟩
theorem Sys2Proof.Laws.F.hist (p : Pfx) (d a : Reg) (sh : BitVec 5) : Sys2Proof.Laws.F.Statement (.hist p d a sh) := ⟨rfl, nofun⟩
theorem Sys2Proof.Laws.F.hmerge (p : Pfx) (ty : Ty) (runlog : BitVec 3) (desc : Bool) (d a c : Reg) : Sys2Proof.Laws.F.Statement (.hmerge p ty runlog desc d a c) := ⟨rfl, nofun⟩
theorem Sys2Proof.Laws.F.ld (p : Pfx) (ch : BitVec 2) (ty : Ty) (vec : Vec) (ord : Ord4) (sc : Scope) (d a : Reg) (disp : Disp) : Sys2Proof.Laws.F.Statement (.ld p ch ty vec ord sc d a disp) := ⟨rfl, nofun⟩
theorem Sys2Proof.Laws.F.st (p : Pfx) (ch : BitVec 2) (ty : Ty) (vec : Vec) (ord : Ord4) (sc : Scope) (d a : Reg) (disp : Disp) : Sys2Proof.Laws.F.Statement (.st p ch ty vec ord sc d a disp) := ⟨rfl, nofun⟩
theorem Sys2Proof.Laws.F.ldu (p : Pfx) (ch : BitVec 2) (ty : Ty) (vec : Vec) (d a : Reg) (disp : Disp) : Sys2Proof.Laws.F.Statement (.ldu p ch ty vec d a disp) := ⟨rfl, nofun⟩
theorem Sys2Proof.Laws.F.atom (p : Pfx) (ch : BitVec 2) (op : AOp) (ty : Ty) (nr sgn : Bool) (ord : Ord4) (sc : Scope) (d a : Reg) (b : SrcB) : Sys2Proof.Laws.F.Statement (.atom p ch op ty nr sgn ord sc d a b) := ⟨rfl, nofun⟩
theorem Sys2Proof.Laws.F.lr (p : Pfx) (ch : BitVec 2) (wide acq : Bool) (sc : Scope) (d a : Reg) : Sys2Proof.Laws.F.Statement (.lr p ch wide acq sc d a) := ⟨rfl, nofun⟩
theorem Sys2Proof.Laws.F.sc (p : Pfx) (ch : BitVec 2) (wide rel : Bool) (scp : Scope) (d a : Reg) (b : SrcB) : Sys2Proof.Laws.F.Statement (.sc p ch wide rel scp d a b) := ⟨rfl, nofun⟩
theorem Sys2Proof.Laws.F.fence (p : Pfx) (ch : BitVec 2) (ord : Ord4) (sc : Scope) : Sys2Proof.Laws.F.Statement (.fence p ch ord sc) := ⟨rfl, nofun⟩
theorem Sys2Proof.Laws.F.gth (p : Pfx) (ch : BitVec 2) (wide : Bool) (vec : Vec) (sx rel : Bool) (sc : Scope) (sh : BitVec 3) (d a b : Reg) : Sys2Proof.Laws.F.Statement (.gth p ch wide vec sx rel sc sh d a b) := ⟨rfl, nofun⟩
theorem Sys2Proof.Laws.F.sct (p : Pfx) (ch : BitVec 2) (wide : Bool) (vec : Vec) (sx rel : Bool) (sc : Scope) (sh : BitVec 3) (d a b : Reg) : Sys2Proof.Laws.F.Statement (.sct p ch wide vec sx rel sc sh d a b) := ⟨rfl, nofun⟩
theorem Sys2Proof.Laws.F.pfch (p : Pfx) (ch : BitVec 2) (l2 : Bool) (a : Reg) (disp : Disp) : Sys2Proof.Laws.F.Statement (.pfch p ch l2 a disp) := ⟨rfl, nofun⟩
theorem Sys2Proof.Laws.F.icinv (p : Pfx) (ch : BitVec 2) (sc : Scope) : Sys2Proof.Laws.F.Statement (.icinv p ch sc) := ⟨rfl, nofun⟩
theorem Sys2Proof.Laws.F.acp (p : Pfx) (ch : BitVec 2) (tb rwg rel : Bool) (sc : Scope) (d a : Reg) (b : SrcB) (c : Reg) : Sys2Proof.Laws.F.Statement (.acp p ch tb rwg rel sc d a b c) := ⟨rfl, nofun⟩
theorem Sys2Proof.Laws.F.acps (p : Pfx) (ch : BitVec 2) (tb rwg rel : Bool) (sc : Scope) (d a b c : Reg) : Sys2Proof.Laws.F.Statement (.acps p ch tb rwg rel sc d a b c) := ⟨rfl, nofun⟩
theorem Sys2Proof.Laws.F.acpw (p : Pfx) (ch : BitVec 2) (tb rwg rel : Bool) (sc : Scope) (d a : Reg) (b : SrcB) (c : Reg) : Sys2Proof.Laws.F.Statement (.acpw p ch tb rwg rel sc d a b c) := ⟨rfl, nofun⟩
theorem Sys2Proof.Laws.F.acpx (p : Pfx) (ch : BitVec 2) (tb rel : Bool) (d a : Reg) (b : SrcB) (c : Reg) : Sys2Proof.Laws.F.Statement (.acpx p ch tb rel d a b c) := ⟨rfl, nofun⟩
theorem Sys2Proof.Laws.F.wcnt (p : Pfx) (cls : Cls) (n : BitVec 6) : Sys2Proof.Laws.F.Statement (.wcnt p cls n) := ⟨rfl, nofun⟩
theorem Sys2Proof.Laws.F.tbinit (p : Pfx) (a : Reg) (b : SrcB) : Sys2Proof.Laws.F.Statement (.tbinit p a b) := ⟨rfl, nofun⟩
theorem Sys2Proof.Laws.F.tbarv (p : Pfx) (d a : Reg) : Sys2Proof.Laws.F.Statement (.tbarv p d a) := ⟨rfl, nofun⟩
theorem Sys2Proof.Laws.F.tbexp (p : Pfx) (a : Reg) (b : SrcB) : Sys2Proof.Laws.F.Statement (.tbexp p a b) := ⟨rfl, nofun⟩
theorem Sys2Proof.Laws.F.tbwt (p : Pfx) (a : Reg) (b : SrcB) : Sys2Proof.Laws.F.Statement (.tbwt p a b) := ⟨rfl, nofun⟩
theorem Sys2Proof.Laws.F.barinit (p : Pfx) (bar : BitVec 4) (b : SrcB) : Sys2Proof.Laws.F.Statement (.barinit p bar b) := ⟨rfl, nofun⟩
theorem Sys2Proof.Laws.F.bar (p : Pfx) (bar : BitVec 4) : Sys2Proof.Laws.F.Statement (.bar p bar) := ⟨rfl, nofun⟩
theorem Sys2Proof.Laws.F.bararv (p : Pfx) (bar : BitVec 4) : Sys2Proof.Laws.F.Statement (.bararv p bar) := ⟨rfl, nofun⟩
theorem Sys2Proof.Laws.F.barwt (p : Pfx) (bar : BitVec 4) : Sys2Proof.Laws.F.Statement (.barwt p bar) := ⟨rfl, nofun⟩
theorem Sys2Proof.Laws.F.gbar (p : Pfx) (b : SrcB) : Sys2Proof.Laws.F.Statement (.gbar p b) := ⟨rfl, nofun⟩
theorem Sys2Proof.Laws.F.bra (p : Pfx) (off : BitVec 24) : Sys2Proof.Laws.F.Statement (.bra p off) := ⟨rfl, nofun⟩
theorem Sys2Proof.Laws.F.brx (p : Pfx) (a : Reg) : Sys2Proof.Laws.F.Statement (.brx p a) := ⟨rfl, nofun⟩
theorem Sys2Proof.Laws.F.call (p : Pfx) (d : Reg) (off : BitVec 24) : Sys2Proof.Laws.F.Statement (.call p d off) := ⟨rfl, nofun⟩
theorem Sys2Proof.Laws.F.callx (p : Pfx) (d a : Reg) : Sys2Proof.Laws.F.Statement (.callx p d a) := ⟨rfl, nofun⟩
theorem Sys2Proof.Laws.F.ret (p : Pfx) (a : Reg) : Sys2Proof.Laws.F.Statement (.ret p a) := ⟨rfl, nofun⟩
theorem Sys2Proof.Laws.F.exit (p : Pfx) : Sys2Proof.Laws.F.Statement (.exit p) := ⟨rfl, nofun⟩
theorem Sys2Proof.Laws.F.yield (p : Pfx) : Sys2Proof.Laws.F.Statement (.yield p) := ⟨rfl, nofun⟩
theorem Sys2Proof.Laws.F.nop (p : Pfx) : Sys2Proof.Laws.F.Statement (.nop p) := ⟨rfl, nofun⟩
theorem Sys2Proof.Laws.F.rjset (p : Pfx) (k : BitVec 3) (b : SrcB) : Sys2Proof.Laws.F.Statement (.rjset p k b) := ⟨rfl, nofun⟩
theorem Sys2Proof.Laws.F.rjoin (p : Pfx) (k : BitVec 3) : Sys2Proof.Laws.F.Statement (.rjoin p k) := ⟨rfl, nofun⟩
theorem Sys2Proof.Laws.F.spawn (p : Pfx) (b : SrcB) (a : Reg) (len : BitVec 7) : Sys2Proof.Laws.F.Statement (.spawn p b a len) := ⟨rfl, nofun⟩
theorem Sys2Proof.Laws.F.prbOn (p : Pfx) : Sys2Proof.Laws.F.Statement (.prbOn p) := ⟨rfl, nofun⟩
theorem Sys2Proof.Laws.F.prbOff (p : Pfx) : Sys2Proof.Laws.F.Statement (.prbOff p) := ⟨rfl, nofun⟩
theorem Sys2Proof.Laws.F.trap (p : Pfx) (code : BitVec 9) : Sys2Proof.Laws.F.Statement (.trap p code) := ⟨rfl, nofun⟩
theorem Sys2Proof.Laws.F.brk (p : Pfx) (code : BitVec 9) : Sys2Proof.Laws.F.Statement (.brk p code) := ⟨rfl, nofun⟩
theorem Sys2Proof.Laws.F.aalloc (p : Pfx) (d : Reg) (b : SrcB) : Sys2Proof.Laws.F.Statement (.aalloc p d b) := ⟨rfl, nofun⟩
theorem Sys2Proof.Laws.F.agrow (p : Pfx) (d : Reg) (b : SrcB) : Sys2Proof.Laws.F.Statement (.agrow p d b) := ⟨rfl, nofun⟩
theorem Sys2Proof.Laws.F.afree (p : Pfx) (d : Reg) (b : SrcB) : Sys2Proof.Laws.F.Statement (.afree p d b) := ⟨rfl, nofun⟩
theorem Sys2Proof.Laws.F.azero (p : Pfx) (t : TileNo) : Sys2Proof.Laws.F.Statement (.azero p t) := ⟨rfl, nofun⟩
theorem Sys2Proof.Laws.F.ald (p : Pfx) (ty : Ty) (sc : Scope) (t : TileNo) (a : Reg) : Sys2Proof.Laws.F.Statement (.ald p ty sc t a) := ⟨rfl, nofun⟩
theorem Sys2Proof.Laws.F.ast (p : Pfx) (ty : Ty) (rm : RM) (sat : Bool) (sc : Scope) (t : TileNo) (a : Reg) : Sys2Proof.Laws.F.Statement (.ast p ty rm sat sc t a) := ⟨rfl, nofun⟩
theorem Sys2Proof.Laws.F.amma (p : Pfx) (pair tall reuse clr : Bool) (t : TileNo) (a : Reg) (b : SrcB) (f : Reg) : Sys2Proof.Laws.F.Statement (.amma p pair tall reuse clr t a b f) := ⟨rfl, nofun⟩
theorem Sys2Proof.Laws.F.amms (p : Pfx) (pair tall reuse clr : Bool) (t : TileNo) (a : Reg) (b : SrcB) (f : Reg) : Sys2Proof.Laws.F.Statement (.amms p pair tall reuse clr t a b f) := ⟨rfl, nofun⟩
theorem Sys2Proof.Laws.F.adrain (p : Pfx) (max hi w : Bool) (ncol : BitVec 5) (d : Reg) (t : TileNo) : Sys2Proof.Laws.F.Statement (.adrain p max hi w ncol d t) := ⟨rfl, nofun⟩
theorem Sys2Proof.Laws.F.atopk (p : Pfx) (max hi w : Bool) (ncol : BitVec 5) (kk : BitVec 3) (d : Reg) (t : TileNo) : Sys2Proof.Laws.F.Statement (.atopk p max hi w ncol kk d t) := ⟨rfl, nofun⟩
theorem Sys2Proof.Laws.F.cupd (p : Pfx) (t : TileNo) (a b f : Reg) : Sys2Proof.Laws.F.Statement (.cupd p t a b f) := ⟨rfl, nofun⟩
theorem Sys2Proof.Laws.F.cfin (p : Pfx) (ty : Ty) (ncent : BitVec 5) (t : TileNo) (a : Reg) : Sys2Proof.Laws.F.Statement (.cfin p ty ncent t a) := ⟨rfl, nofun⟩
theorem Sys2Proof.Laws.F.vacc (p : Pfx) (kind : VKind) (t : TileNo) (a f : Reg) (col : BitVec 4) : Sys2Proof.Laws.F.Statement (.vacc p kind t a f col) := ⟨rfl, nofun⟩
theorem Sys2Proof.Laws.F.vtop (p : Pfx) (t : TileNo) (a f : Reg) (col : BitVec 4) : Sys2Proof.Laws.F.Statement (.vtop p t a f col) := ⟨rfl, nofun⟩
theorem Sys2Proof.Laws.F.vset (p : Pfx) (max : Bool) (kk : BitVec 3) (a : Reg) : Sys2Proof.Laws.F.Statement (.vset p max kk a) := ⟨rfl, nofun⟩
theorem Sys2Proof.Laws.F.vsetRd (p : Pfx) (d : Reg) : Sys2Proof.Laws.F.Statement (.vsetRd p d) := ⟨rfl, nofun⟩
theorem Sys2Proof.Laws.F.vchk (p : Pfx) (kind : VKind) (pd : PredNo) (a : Reg) (pc : PredNo) : Sys2Proof.Laws.F.Statement (.vchk p kind pd a pc) := ⟨rfl, nofun⟩
theorem Sys2Proof.Laws.F.fork (p : Pfx) (na : BitVec 8) (nc : BitVec 6) (a b c : Reg) : Sys2Proof.Laws.F.Statement (.fork p na nc a b c) := ⟨rfl, nofun⟩
theorem Sys2Proof.Laws.F.rdv (p : Pfx) : Sys2Proof.Laws.F.Statement (.rdv p) := ⟨rfl, nofun⟩
theorem Sys2Proof.Laws.F.leave (p : Pfx) (d : Reg) (cls : BitVec 3) (b : SrcB) : Sys2Proof.Laws.F.Statement (.leave p d cls b) := ⟨rfl, nofun⟩
theorem Sys2Proof.Laws.F.lvfree (p : Pfx) : Sys2Proof.Laws.F.Statement (.lvfree p) := ⟨rfl, nofun⟩
theorem Sys2Proof.Laws.F.march (p : Pfx) (aff : Bool) (d a : Reg) (b : SrcB) : Sys2Proof.Laws.F.Statement (.march p aff d a b) := ⟨rfl, nofun⟩
theorem Sys2Proof.Laws.F.mres (p : Pfx) (d a : Reg) (b : SrcB) : Sys2Proof.Laws.F.Statement (.mres p d a b) := ⟨rfl, nofun⟩
theorem Sys2Proof.Laws.F.mresAbort (p : Pfx) (d a : Reg) : Sys2Proof.Laws.F.Statement (.mresAbort p d a) := ⟨rfl, nofun⟩
theorem Sys2Proof.Laws.F.mqry (p : Pfx) (ray : Bool) (d a : Reg) : Sys2Proof.Laws.F.Statement (.mqry p ray d a) := ⟨rfl, nofun⟩
theorem Sys2Proof.Laws.F.prep (p : Pfx) (d a b : Reg) : Sys2Proof.Laws.F.Statement (.prep p d a b) := ⟨rfl, nofun⟩
theorem Sys2Proof.Laws.F.veval (p : Pfx) (iv : Bool) (d a b : Reg) : Sys2Proof.Laws.F.Statement (.veval p iv d a b) := ⟨rfl, nofun⟩
theorem Sys2Proof.Laws.F.bfetch (p : Pfx) (d a b : Reg) : Sys2Proof.Laws.F.Statement (.bfetch p d a b) := ⟨rfl, nofun⟩
theorem Sys2Proof.Laws.F.zts (p : Pfx) (le : Bool) (d a : Reg) (b : SrcB) : Sys2Proof.Laws.F.Statement (.zts p le d a b) := ⟨rfl, nofun⟩
theorem Sys2Proof.Laws.F.rsub (p : Pfx) (d a : Reg) : Sys2Proof.Laws.F.Statement (.rsub p d a) := ⟨rfl, nofun⟩
theorem Sys2Proof.Laws.F.cmeta (p : Pfx) (d a : Reg) : Sys2Proof.Laws.F.Statement (.cmeta p d a) := ⟨rfl, nofun⟩
theorem Sys2Proof.Laws.F.rdsr (p : Pfx) (d : Reg) (sr : SReg) : Sys2Proof.Laws.F.Statement (.rdsr p d sr) := ⟨rfl, nofun⟩
theorem Sys2Proof.Laws.F.wrsr (p : Pfx) (sr : SReg) (b : SrcB) : Sys2Proof.Laws.F.Statement (.wrsr p sr b) := ⟨rfl, nofun⟩
theorem Sys2Proof.Laws.F.sysc (p : Pfx) (code : BitVec 9) : Sys2Proof.Laws.F.Statement (.sysc p code) := ⟨rfl, nofun⟩
theorem Sys2Proof.Laws.F.tret (p : Pfx) : Sys2Proof.Laws.F.Statement (.tret p) := ⟨rfl, nofun⟩
theorem Sys2Proof.Laws.F.tlbinv (p : Pfx) (sc : Scope) (a : Reg) : Sys2Proof.Laws.F.Statement (.tlbinv p sc a) := ⟨rfl, nofun⟩
theorem Sys2Proof.Laws.F.tlbinvAll (p : Pfx) (sc : Scope) : Sys2Proof.Laws.F.Statement (.tlbinvAll p sc) := ⟨rfl, nofun⟩
theorem Sys2Proof.Laws.F.ctxsv (p : Pfx) (a : Reg) : Sys2Proof.Laws.F.Statement (.ctxsv p a) := ⟨rfl, nofun⟩
theorem Sys2Proof.Laws.F.ctxld (p : Pfx) (a : Reg) : Sys2Proof.Laws.F.Statement (.ctxld p a) := ⟨rfl, nofun⟩
theorem Sys2Proof.Laws.F.hltWg (p : Pfx) : Sys2Proof.Laws.F.Statement (.hltWg p) := ⟨rfl, nofun⟩
theorem Sys2Proof.Laws.F.hltCtx (p : Pfx) : Sys2Proof.Laws.F.Statement (.hltCtx p) := ⟨rfl, nofun⟩
theorem Sys2Proof.Laws.F.dualWord (sw : Bool) (h1 h2 : Half) : Sys2Proof.Laws.F.Statement (.dualWord sw h1 h2) := ⟨rfl, nofun⟩
theorem Sys2Proof.Laws.F.bundleFormation (core : Nat) : Sys2Proof.Laws.F.Statement (.bundleFormation core) := ⟨rfl, fun _ => rfl⟩
theorem Sys2Proof.Laws.F.activeSetFill (core : Nat) : Sys2Proof.Laws.F.Statement (.activeSetFill core) := ⟨rfl, fun _ => rfl⟩
theorem Sys2Proof.Laws.F.fairnessRotation (core slot : Nat) : Sys2Proof.Laws.F.Statement (.fairnessRotation core slot) := ⟨rfl, fun _ => rfl⟩
theorem Sys2Proof.Laws.F.resultReturn (t : TRef) (id : Nat) : Sys2Proof.Laws.F.Statement (.resultReturn t id) := ⟨rfl, fun _ => rfl⟩
theorem Sys2Proof.Laws.F.tokenWrite (op : Nat) : Sys2Proof.Laws.F.Statement (.tokenWrite op) := ⟨rfl, fun _ => rfl⟩
theorem Sys2Proof.Laws.F.asyncRetire (t : TRef) (cls : Cls) : Sys2Proof.Laws.F.Statement (.asyncRetire t cls) := ⟨rfl, fun _ => rfl⟩
theorem Sys2Proof.Laws.F.copyRetire (op : Nat) : Sys2Proof.Laws.F.Statement (.copyRetire op) := ⟨rfl, fun _ => rfl⟩
theorem Sys2Proof.Laws.F.arrayOpRetire (core : Nat) : Sys2Proof.Laws.F.Statement (.arrayOpRetire core) := ⟨rfl, fun _ => rfl⟩
theorem Sys2Proof.Laws.F.engineStateStep (core : Nat) (seq : SeqKind) : Sys2Proof.Laws.F.Statement (.engineStateStep core seq) := ⟨rfl, fun _ => rfl⟩
theorem Sys2Proof.Laws.F.marchComplete (op : Nat) : Sys2Proof.Laws.F.Statement (.marchComplete op) := ⟨rfl, fun _ => rfl⟩
theorem Sys2Proof.Laws.F.rasterFragment (op : Nat) : Sys2Proof.Laws.F.Statement (.rasterFragment op) := ⟨rfl, fun _ => rfl⟩
theorem Sys2Proof.Laws.F.leaveGrant (req : Nat) : Sys2Proof.Laws.F.Statement (.leaveGrant req) := ⟨rfl, fun _ => rfl⟩
theorem Sys2Proof.Laws.F.grantExpiry (wg team : Nat) : Sys2Proof.Laws.F.Statement (.grantExpiry wg team) := ⟨rfl, fun _ => rfl⟩
theorem Sys2Proof.Laws.F.reservationTimeout (t : TRef) : Sys2Proof.Laws.F.Statement (.reservationTimeout t) := ⟨rfl, fun _ => rfl⟩
theorem Sys2Proof.Laws.F.l1LineExpiry (core line : Nat) : Sys2Proof.Laws.F.Statement (.l1LineExpiry core line) := ⟨rfl, fun _ => rfl⟩
theorem Sys2Proof.Laws.F.l1Writeback (core line : Nat) : Sys2Proof.Laws.F.Statement (.l1Writeback core line) := ⟨rfl, fun _ => rfl⟩
theorem Sys2Proof.Laws.F.exitCount (t : TRef) : Sys2Proof.Laws.F.Statement (.exitCount t) := ⟨rfl, fun _ => rfl⟩
theorem Sys2Proof.Laws.F.batchTimeout (launch node : Nat) : Sys2Proof.Laws.F.Statement (.batchTimeout launch node) := ⟨rfl, fun _ => rfl⟩
theorem Sys2Proof.Laws.F.gangReportWrite (launch : Nat) : Sys2Proof.Laws.F.Statement (.gangReportWrite launch) := ⟨rfl, fun _ => rfl⟩
theorem Sys2Proof.Laws.F.budgetOverrun (wg : Nat) : Sys2Proof.Laws.F.Statement (.budgetOverrun wg) := ⟨rfl, fun _ => rfl⟩
theorem Sys2Proof.Laws.F.workgroupPlace (launch : Nat) (src : PlaceSrc) (core : Nat) : Sys2Proof.Laws.F.Statement (.workgroupPlace launch src core) := ⟨rfl, fun _ => rfl⟩
theorem Sys2Proof.Laws.F.reservationStart (launch : Nat) : Sys2Proof.Laws.F.Statement (.reservationStart launch) := ⟨rfl, fun _ => rfl⟩
theorem Sys2Proof.Laws.F.migration (wg core : Nat) : Sys2Proof.Laws.F.Statement (.migration wg core) := ⟨rfl, fun _ => rfl⟩
theorem Sys2Proof.Laws.F.preemption (launch wg : Nat) : Sys2Proof.Laws.F.Statement (.preemption launch wg) := ⟨rfl, fun _ => rfl⟩
theorem Sys2Proof.Laws.F.lineWritebackCompressed (part ridx line : Nat) : Sys2Proof.Laws.F.Statement (.lineWritebackCompressed part ridx line) := ⟨rfl, fun _ => rfl⟩
theorem Sys2Proof.Laws.F.pinWriteback (part : Nat) : Sys2Proof.Laws.F.Statement (.pinWriteback part) := ⟨rfl, fun _ => rfl⟩
theorem Sys2Proof.Laws.F.submissionEntry (part : Nat) : Sys2Proof.Laws.F.Statement (.submissionEntry part) := ⟨rfl, fun _ => rfl⟩
theorem Sys2Proof.Laws.F.launch (part hseq : Nat) : Sys2Proof.Laws.F.Statement (.launch part hseq) := ⟨rfl, fun _ => rfl⟩
theorem Sys2Proof.Laws.F.ctxCreate (part hseq : Nat) : Sys2Proof.Laws.F.Statement (.ctxCreate part hseq) := ⟨rfl, fun _ => rfl⟩
theorem Sys2Proof.Laws.F.ctxFence (part hseq : Nat) : Sys2Proof.Laws.F.Statement (.ctxFence part hseq) := ⟨rfl, fun _ => rfl⟩
theorem Sys2Proof.Laws.F.ctxRearm (part hseq : Nat) : Sys2Proof.Laws.F.Statement (.ctxRearm part hseq) := ⟨rfl, fun _ => rfl⟩
theorem Sys2Proof.Laws.F.ctxSave (part hseq : Nat) : Sys2Proof.Laws.F.Statement (.ctxSave part hseq) := ⟨rfl, fun _ => rfl⟩
theorem Sys2Proof.Laws.F.ctxRestore (part hseq : Nat) : Sys2Proof.Laws.F.Statement (.ctxRestore part hseq) := ⟨rfl, fun _ => rfl⟩
theorem Sys2Proof.Laws.F.ctxLift (part hseq : Nat) : Sys2Proof.Laws.F.Statement (.ctxLift part hseq) := ⟨rfl, fun _ => rfl⟩
theorem Sys2Proof.Laws.F.ctxDestroy (part hseq : Nat) : Sys2Proof.Laws.F.Statement (.ctxDestroy part hseq) := ⟨rfl, fun _ => rfl⟩
theorem Sys2Proof.Laws.F.faultAns (part hseq : Nat) : Sys2Proof.Laws.F.Statement (.faultAns part hseq) := ⟨rfl, fun _ => rfl⟩
theorem Sys2Proof.Laws.F.pageRel (part hseq : Nat) : Sys2Proof.Laws.F.Statement (.pageRel part hseq) := ⟨rfl, fun _ => rfl⟩
theorem Sys2Proof.Laws.F.compInst (part hseq : Nat) : Sys2Proof.Laws.F.Statement (.compInst part hseq) := ⟨rfl, fun _ => rfl⟩
theorem Sys2Proof.Laws.F.partReset (part hseq : Nat) : Sys2Proof.Laws.F.Statement (.partReset part hseq) := ⟨rfl, fun _ => rfl⟩
theorem Sys2Proof.Laws.F.release (part hseq : Nat) : Sys2Proof.Laws.F.Statement (.release part hseq) := ⟨rfl, fun _ => rfl⟩
theorem Sys2Proof.Laws.F.frameSend (rel : Nat) : Sys2Proof.Laws.F.Statement (.frameSend rel) := ⟨rfl, fun _ => rfl⟩
theorem Sys2Proof.Laws.F.completionWrite (part : Nat) : Sys2Proof.Laws.F.Statement (.completionWrite part) := ⟨rfl, fun _ => rfl⟩
theorem Sys2Proof.Laws.F.faultRecordWrite (part : Nat) : Sys2Proof.Laws.F.Statement (.faultRecordWrite part) := ⟨rfl, fun _ => rfl⟩
theorem Sys2Proof.Laws.F.resync (part : Nat) (expect : Word) : Sys2Proof.Laws.F.Statement (.resync part expect) := ⟨rfl, fun _ => rfl⟩
theorem Sys2Proof.Laws.F.bar0RegisterWrite (part off : Nat) (val : Word) : Sys2Proof.Laws.F.Statement (.bar0RegisterWrite part off val) := ⟨rfl, fun _ => rfl⟩
theorem Sys2Proof.Laws.F.fabricPacketReceive (k : Pkt) : Sys2Proof.Laws.F.Statement (.fabricPacketReceive k) := ⟨rfl, fun _ => rfl⟩
theorem Sys2Proof.Laws.F.fabricResend (conn : Nat) : Sys2Proof.Laws.F.Statement (.fabricResend conn) := ⟨rfl, fun _ => rfl⟩
theorem Sys2Proof.Laws.F.fabricPortDown (port : Nat) : Sys2Proof.Laws.F.Statement (.fabricPortDown port) := ⟨rfl, fun _ => rfl⟩
theorem Sys2Proof.Laws.F.fabricPortUp (port : Nat) : Sys2Proof.Laws.F.Statement (.fabricPortUp port) := ⟨rfl, fun _ => rfl⟩
theorem Sys2Proof.Laws.F.ptpMessage (offset : Int) : Sys2Proof.Laws.F.Statement (.ptpMessage offset) := ⟨rfl, fun _ => rfl⟩
theorem Sys2Proof.Laws.F.ptpHoldover : Sys2Proof.Laws.F.Statement .ptpHoldover := ⟨rfl, fun _ => rfl⟩
theorem Sys2Proof.Laws.F.ident (part : Nat) : Sys2Proof.Laws.F.Statement (.ident part) := ⟨rfl, fun _ => rfl⟩
theorem Sys2Proof.Laws.F.attest (part : Nat) (nonce : List Byte) : Sys2Proof.Laws.F.Statement (.attest part nonce) := ⟨rfl, fun _ => rfl⟩
theorem Sys2Proof.Laws.F.status (part : Nat) : Sys2Proof.Laws.F.Statement (.status part) := ⟨rfl, fun _ => rfl⟩
theorem Sys2Proof.Laws.F.log (part : Nat) (index : Word) : Sys2Proof.Laws.F.Statement (.log part index) := ⟨rfl, fun _ => rfl⟩
theorem Sys2Proof.Laws.F.fwStage (part slot : Nat) (off : Nat) (bytes : List Byte) : Sys2Proof.Laws.F.Statement (.fwStage part slot off bytes) := ⟨rfl, fun _ => rfl⟩
theorem Sys2Proof.Laws.F.fwCommit (part slot : Nat) : Sys2Proof.Laws.F.Statement (.fwCommit part slot) := ⟨rfl, fun _ => rfl⟩
theorem Sys2Proof.Laws.F.cfgStage (part : Nat) (table sig : List Byte) : Sys2Proof.Laws.F.Statement (.cfgStage part table sig) := ⟨rfl, fun _ => rfl⟩
theorem Sys2Proof.Laws.F.powerOn : Sys2Proof.Laws.F.Statement .powerOn := ⟨rfl, fun _ => rfl⟩
theorem Sys2Proof.Laws.F.deviceReset : Sys2Proof.Laws.F.Statement .deviceReset := ⟨rfl, fun _ => rfl⟩
theorem Sys2Proof.Laws.F.portReset (port : Nat) : Sys2Proof.Laws.F.Statement (.portReset port) := ⟨rfl, fun _ => rfl⟩
theorem Sys2Proof.Laws.F.functionLevelReset (part : Nat) : Sys2Proof.Laws.F.Statement (.functionLevelReset part) := ⟨rfl, fun _ => rfl⟩
theorem Sys2Proof.Laws.F.thermalHot (die temp : Nat) : Sys2Proof.Laws.F.Statement (.thermalHot die temp) := ⟨rfl, fun _ => rfl⟩
theorem Sys2Proof.Laws.F.thermalTrip (die temp : Nat) : Sys2Proof.Laws.F.Statement (.thermalTrip die temp) := ⟨rfl, fun _ => rfl⟩
theorem Sys2Proof.Laws.F.uncorrectableError (site : ErrSite) : Sys2Proof.Laws.F.Statement (.uncorrectableError site) := ⟨rfl, fun _ => rfl⟩
theorem Sys2Proof.Laws.F.correctableError (part : Nat) (unit : ErrUnit) : Sys2Proof.Laws.F.Statement (.correctableError part unit) := ⟨rfl, fun _ => rfl⟩
theorem Sys2Proof.Laws.F.storeFifoDrain (t : TRef) : Sys2Proof.Laws.F.Statement (.storeFifoDrain t) := ⟨rfl, fun _ => rfl⟩
theorem Sys2Proof.Laws.F.invalidationComplete (t : TRef) : Sys2Proof.Laws.F.Statement (.invalidationComplete t) := ⟨rfl, fun _ => rfl⟩
theorem Sys2Proof.Laws.F.thermalHotClear : Sys2Proof.Laws.F.Statement .thermalHotClear := ⟨rfl, fun _ => rfl⟩
theorem Sys2Proof.Laws.F.liftTimeout (ctx : Nat) : Sys2Proof.Laws.F.Statement (.liftTimeout ctx) := ⟨rfl, fun _ => rfl⟩
theorem Sys2Proof.Laws.F.releaseCutoff (rel : Nat) : Sys2Proof.Laws.F.Statement (.releaseCutoff rel) := ⟨rfl, fun _ => rfl⟩
end

