-- ==== Sys2Proof/Safety.lean ====
section
/-! DEFINITION. What counts as a safe run: one in which no step faults and none is refused. -/

namespace Sys2Proof.Safety

open Sys2Proof.Machine

/-- A step from this state has a next state. -/
def Steps (s : State) : Prop := ∃ t, step s = .next t

/-- The states that a run reaches. -/
inductive Reaches : State → State → Prop
  | refl (s : State) : Reaches s s
  | tail {s t u : State} : Reaches s t → step t = .next u → Reaches s u

/-- A run from this state never stops. -/
def Safe (s : State) : Prop := ∀ t, Reaches s t → Steps t

end Sys2Proof.Safety
end

