-- ==== Sys2Proof/Tests/Slice0.lean ====
section
/-! SUPPORT. The model's own tests: words written out from the encoding tables and what they decode to, ill-formed instructions,
the manual's worked values, and for each statement with hypotheses concrete states and operands that meet them. -/

namespace Sys2Proof.Tests
open Sys2Proof Sys2Proof.Machine

/-! ### Decoding: words written out from Tables 5.2 to 5.9 and the opcode tables -/

def p : Pfx := ⟨false, ⟨7, false⟩, ⟨7, false⟩⟩
def t7 : Guard := ⟨7, false⟩
def refused (l : List Instr) : Bool := l.all fun i => !i.wf
def decodesTo (x : DWord × DWord × Instr) : Bool := decode x.1 x.2.1 == some x.2.2

theorem test_decodeInteger : ([
    (0x001EE00C10140042, 0, .iadd p .s16 true 3 4 (.reg 5)),
    (0x002EE00C10000360, 0x1122334455667788, .isub p .n8 false 3 4 (.lit 0x1122334455667788)),
    (0x003EE00C10140002, 0, .imul p .s32 true 3 4 (.reg 5)),
    (0x004EE00C10140020, 0, .imulh p .n32 3 4 (.reg 5)),
    (0x005EE00C10141C20, 0, .imad p .n32 false 3 4 (.reg 5) 7),
    (0x006EE00C10140820, 0, .iaddc p 3 4 (.reg 5) 2),
    (0x007EE00C10141820, 0, .isubb p 3 4 (.reg 5) 6),
    (0x008EE00C10140140, 0, .imin p .s8 3 4 (.reg 5)),
    (0x009EE00C10140060, 0, .imax p .n16 3 4 (.reg 5)),
    (0x00AEE00C10000002, 0, .iabs p .s32 true 3 4),
    (0x00BEE00C10000140, 0, .ineg p .s8 false 3 4),
    (0x00CEE018102015E0, 0, .sel p true 6 4 (.reg 8) 5),
    (0x00DEE00810140014, 0, .icmp p .ge .s32 2 4 (.reg 5)),
    (0x00EEE00C140001C0, 0, .mov p false 3 5),
    (0x00FEE01800000185, 0, .movi p true 6 (.short 0x85)),
    (0x010EE004080C000A, 0, .pset p .xor true false 1 2 3),
    (0x011EE02400000000, 0, .pmov p 9),
    (0x011EE000240000AB, 0, .pmovSet p 9 0x55) ] : List (DWord × DWord × Instr)).all decodesTo = true := by decide

theorem test_decodeAddressAndBit : ([
    (0x040EE01810240014, 0, .lea p .s32 6 4 (.reg 9) 5),
    (0x041EE018102001E0, 0, .ladd p 6 4 (.reg 8)),
    (0x042EE018100003E0, 0x1122334455667788, .lsub p 6 4 (.lit 0x1122334455667788)),
    (0x043EE00C102001F1, 0, .lcmp p .gt true 3 4 (.reg 8)),
    (0x048EE018102001E0, 0, .bAnd p true 6 4 (.reg 8)),
    (0x049EE00C101401C0, 0, .bOr p false 3 4 (.reg 5)),
    (0x04AEE00C101401C0, 0, .bXor p false 3 4 (.reg 5)),
    (0x04BEE018100001E0, 0, .bNot p true 6 4),
    (0x04CEE00C101401C0, 0, .shl p 3 4 (.reg 5)),
    (0x04DEE00C101401C0, 0, .shr p 3 4 (.reg 5)),
    (0x04EEE00C101401C0, 0, .sar p 3 4 (.reg 5)),
    (0x04FEE00C101401C0, 0, .rotl p 3 4 (.reg 5)),
    (0x050EE00C10140000, 0, .bfx p .s32 3 4 (.reg 5)),
    (0x051EE00C10141DC0, 0, .bfi p 3 4 (.reg 5) 7),
    (0x052EE00C100001C0, 0, .popc p 3 4),
    (0x053EE00C100001C0, 0, .clz p 3 4),
    (0x054EE00C100001C0, 0, .brev p 3 4) ] : List (DWord × DWord × Instr)).all decodesTo = true := by decide

theorem test_decodeFloat : ([
    (0x080EE00C1014008C, 0, .fadd p .ru 3 4 (.reg 5)),
    (0x081EE00C10140084, 0, .fsub p .rz 3 4 (.reg 5)),
    (0x082EE00C10000288, 0x1122334455667788, .fmul p .rd 3 4 (.lit 0x1122334455667788)),
    (0x083EE00C10141C80, 0, .ffma p .rn 3 4 (.reg 5) 7),
    (0x084EE00C10140080, 0, .fmin p 3 4 (.reg 5)),
    (0x085EE00C10140080, 0, .fmax p 3 4 (.reg 5)),
    (0x086EE00C1014009C, 0, .fcmp p .nan 3 4 (.reg 5)),
    (0x087EE00C10141C8C, 0, .fsel p .le 3 4 (.reg 5) 7),
    (0x088EE00C10000080, 0, .fclass p 3 4),
    (0x089EE00C10000084, 0, .frnd p .rz 3 4),
    (0x08AEE00C10000080, 0, .ffrac p 3 4),
    (0x08BEE00C10140080, 0, .fscl p 3 4 (.reg 5)),
    (0x090EE00C10000088, 0, .frcp p .rd 3 4),
    (0x091EE00C10000080, 0, .frsq p 3 4),
    (0x092EE00C1000008C, 0, .fsqrt p .ru 3 4),
    (0x093EE00C10000080, 0, .fexp2 p 3 4),
    (0x094EE00C10000080, 0, .flog2 p 3 4),
    (0x095EE00C10000080, 0, .fsin p 3 4),
    (0x096EE00C10000080, 0, .fcos p 3 4) ] : List (DWord × DWord × Instr)).all decodesTo = true := by decide

theorem test_decodePackedAndInterval : ([
    (0x098EE00C101400C8, 0, .hadd2 p .e16 .rd 3 4 (.reg 5)),
    (0x099EE00C101400AC, 0, .hmul2 p .f16 .ru 3 4 (.reg 5)),
    (0x09AEE00C10141CA4, 0, .hfma2 p .rz 3 4 (.reg 5) 7),
    (0x09BEE00C10141CC0, 0, .efma2 p .rn 3 4 (.reg 5) 7),
    (0x0C0EE01810200000, 0, .ivadd p 6 4 (.reg 8)),
    (0x0C1EE01810200000, 0, .ivsub p 6 4 (.reg 8)),
    (0x0C2EE01810200000, 0, .ivmul p 6 4 (.reg 8)),
    (0x0C3EE01810000000, 0, .ivsqr p 6 4),
    (0x0C4EE01810000000, 0, .ivsqrt p 6 4),
    (0x0C5EE01810200000, 0, .ivmin p 6 4 (.reg 8)),
    (0x0C6EE01810200000, 0, .ivmax p 6 4 (.reg 8)),
    (0x0C7EE01810000000, 0, .ivabs p 6 4),
    (0x0C8EE01810200000, 0, .ivhull p 6 4 (.reg 8)),
    (0x0C9EE01810002800, 0, .ivsplit p 6 10 4) ] : List (DWord × DWord × Instr)).all decodesTo = true := by decide

theorem test_decodeConversion : ([
    (0x100EE00C10002862, 0, .cvt p .n16 .s8 .rn true 3 4),
    (0x101EE00C10001CF0, 0, .cvef p .f8a 3 4 7),
    (0x102EE00C1000016C, 0, .pack p .n8 3 3 4),
    (0x103EE00C1000019C, 0, .unpack p .s4 7 3 4),
    (0x104EE00C10141DC0, 0, .prm p 3 4 (.reg 5) 7),
    (0x105EE00C10141CC0, 0, .dot2 p .e16 3 4 (.reg 5) 7),
    (0x106EE00C10141D00, 0, .dot4 p .f8b 3 4 (.reg 5) 7),
    (0x107EE00C10001FA0, 0x1122334455667788, .dot8 p .n4 3 4 (.lit 0x1122334455667788) 7) ] : List (DWord × DWord × Instr)).all decodesTo = true := by decide

theorem test_decodeLane : ([
    (0x140EE018100001E0, 0, .rdfl p true 6 4),
    (0x141EE00C100001D3, 0, .bcast p false 3 4 19),
    (0x142EE00C101401C2, 0, .shfl p .down false 3 4 (.reg 5)),
    (0x143EE02414000003, 0, .vote p .ballot 9 5),
    (0x144EE00C10000028, 0, .redu p .max .n32 3 4),
    (0x145EE00C100001D5, 0, .scan p .xor true .b32 3 4),
    (0x146EE00C100001E0, 0, .matchL p true 3 4),
    (0x147EE00C1000003B, 0, .hist p 3 4 27),
    (0x148EE00C10001C11, 0, .hmerge p .s32 4 true 3 4 7) ] : List (DWord × DWord × Instr)).all decodesTo = true := by decide

theorem test_decodeMemory : ([
    (0x180EE820124009C9, 0, .ld p 2 .b32 .x4 .acq .pair 8 4 (.short 0x90)),
    (0x181EE020100007F7, 0x1122334455667788, .st p 0 .b64 .x2 .ar .sys 8 4 (.lit 0x1122334455667788)),
    (0x182EE40C10400040, 0, .ldu p 1 .s16 .x1 3 4 (.short 0x10)),
    (0x183EE00010144812, 0, .atom p 0 .max .s32 true false .rel .dev 0 4 (.reg 5)),
    (0x184EE018100001E5, 0, .lr p 0 true true .core 6 4),
    (0x185EE00C102001EE, 0, .sc p 0 true true .die 3 4 (.reg 8)),
    (0x186EE00000000013, 0, .fence p 0 .ar .dev),
    (0x188EE0201028D5CE, 0, .gth p 0 false .x2 true true .die 5 8 4 10),
    (0x189EEC20102831F4, 0, .sct p 3 true .x1 false false .sys 3 8 4 10),
    (0x18AEE00011FC0001, 0, .pfch p 0 true 4 (.short 0x7F)),
    (0x18BEE00000000010, 0, .icinv p 0 .dev) ] : List (DWord × DWord × Instr)).all decodesTo = true := by decide

theorem test_decodeCopy : ([
    (0x200EE01810141D8E, 0, .acp p 0 true true true .die 6 4 (.reg 5) 7),
    (0x201EE01810300000, 0, .acps p 0 false false false .thr 6 4 12 0),
    (0x202EE01810000214, 0x1122334455667788, .acpw p 0 false false false .sys 6 4 (.lit 0x1122334455667788) 0),
    (0x203EE01810141D16, 0, .acpx p 0 true true 6 4 (.reg 5) 7),
    (0x204EE0000000010C, 0, .wcnt p .xch 33) ] : List (DWord × DWord × Instr)).all decodesTo = true := by decide

theorem test_decodeBarrier : ([
    (0x208EE00010140000, 0, .tbinit p 4 (.reg 5)),
    (0x209EE00C10000000, 0, .tbarv p 3 4),
    (0x20AEE00010000200, 0x1122334455667788, .tbexp p 4 (.lit 0x1122334455667788)),
    (0x20BEE00010140000, 0, .tbwt p 4 (.reg 5)),
    (0x210EE02C00140000, 0, .barinit p 11 (.reg 5)),
    (0x211EE03C00000000, 0, .bar p 15),
    (0x212EE02400000000, 0, .bararv p 9),
    (0x213EE00C00000000, 0, .barwt p 3),
    (0x214EE00000140000, 0, .gbar p (.reg 5)) ] : List (DWord × DWord × Instr)).all decodesTo = true := by decide

theorem test_decodeControl : ([
    (0x240EE002AF37BC00, 0, .bra p 0xABCDEF),
    (0x241EE00010000000, 0, .brx p 4),
    (0x242EE01800000C00, 0, .call p 6 3),
    (0x243EE01810000000, 0, .callx p 6 4),
    (0x244EE00010000000, 0, .ret p 4),
    (0x245EE00000000000, 0, .exit p),
    (0x246EE00000000000, 0, .yield p),
    (0x247EE00000000000, 0, .nop p),
    (0x248EE01400240000, 0, .rjset p 5 (.reg 9)),
    (0x249EE01800000000, 0, .rjoin p 6),
    (0x24AEE00050140024, 0, .spawn p (.reg 5) 20 36),
    (0x24CEE00000000001, 0, .prbOn p),
    (0x24CEE00000000000, 0, .prbOff p),
    (0x24DEE000000001A5, 0, .trap p 0x1A5),
    (0x24EEE000000000F3, 0, .brk p 0x0F3) ] : List (DWord × DWord × Instr)).all decodesTo = true := by decide

theorem test_decodeArray : ([
    (0x280EE00C00140000, 0, .aalloc p 3 (.reg 5)),
    (0x281EE00C00140000, 0, .agrow p 3 (.reg 5)),
    (0x282EE00C00000200, 0x1122334455667788, .afree p 3 (.lit 0x1122334455667788)),
    (0x283EE08400000000, 0, .azero p 33),
    (0x284EE084100010C0, 0, .ald p .e16 .dev 33 4),
    (0x285EE0841000150E, 0, .ast p .f8b .ru true .sys 33 4),
    (0x288EE08840141C0E, 0, .amma p true true false true 34 16 (.reg 5) 7),
    (0x289EE08420141C01, 0, .amms p false false true false 33 8 (.reg 5) 7),
    (0x28AEE018880000FD, 0, .adrain p true true true 29 6 34),
    (0x28BEE0208400148D, 0, .atopk p false true false 13 5 8 33),
    (0x28CEE08820141C00, 0, .cupd p 34 8 5 7),
    (0x28DEE0881400012E, 0, .cfin p .f4 14 34 5) ] : List (DWord × DWord × Instr)).all decodesTo = true := by decide

theorem test_decodeVerdict : ([
    (0x290EE08414001C2B, 0, .vacc p .thresh 33 5 7 11),
    (0x291EE08414001C0C, 0, .vtop p 33 5 7 12),
    (0x292EE0001400000B, 0, .vset p true 5 5),
    (0x292EE01800000010, 0, .vsetRd p 6),
    (0x293EE00814001803, 0, .vchk p .topk 2 5 6),
    (0x298EE07C10184015, 0, .fork p 31 21 4 6 16),
    (0x299EE00000000000, 0, .rdv p),
    (0x29AEE00C00140006, 0, .leave p 3 6 (.reg 5)),
    (0x29BEE00000000000, 0, .lvfree p) ] : List (DWord × DWord × Instr)).all decodesTo = true := by decide

theorem test_decodeSurface : ([
    (0x300EE0A020180001, 0, .march p true 40 8 (.reg 6)),
    (0x301EE0A024180000, 0, .mres p 40 9 (.reg 6)),
    (0x301EE0A024000001, 0, .mresAbort p 40 9),
    (0x302EE0A024000001, 0, .mqry p true 40 9),
    (0x303EE02438600000, 0, .prep p 9 14 24),
    (0x304EE0A038600001, 0, .veval p true 40 14 24),
    (0x305EE0A038500000, 0, .bfetch p 40 14 20),
    (0x306EE01828000200, 0x1122334455667788, .zts p false 6 10 (.lit 0x1122334455667788)),
    (0x307EE00C28000000, 0, .rsub p 3 10),
    (0x308EE01420000000, 0, .cmeta p 5 8) ] : List (DWord × DWord × Instr)).all decodesTo = true := by decide

theorem test_decodeSystem : ([
    (0x340EE00D18000000, 0, .rdsr p 3 .tstat),
    (0x341EE12800180000, 0, .wrsr p .ts2 (.reg 6)),
    (0x342EE00000000155, 0, .sysc p 0x155),
    (0x343EE00000000000, 0, .tret p),
    (0x344EE0002000000C, 0, .tlbinv p .die 8),
    (0x344EE00000000009, 0, .tlbinvAll p .pair),
    (0x345EE00020000000, 0, .ctxsv p 8),
    (0x346EE00020000000, 0, .ctxld p 8),
    (0x347EE00000000000, 0, .hltWg p),
    (0x347EE00000000001, 0, .hltCtx p) ] : List (DWord × DWord × Instr)).all decodesTo = true := by decide

/-- 05's worked dual word (line with S = 1 and D = 1). -/
theorem test_decodeDual : decode 0xC0F0204832E060D1 0 = some (.dualWord true ⟨.iadd, t7, 4, 9, 0⟩ ⟨.fmul, t7, 6, 13, 1⟩) := by decide

/-! ### Ill-formed instructions: one for each check, refused (R137, R141, R145, R151) -/

theorem test_refusesTypesAndConditions : refused
  [.iadd p .f32 false 1 2 (.reg 3), .isub p .b32 false 1 2 (.reg 3), .imul p .s16 false 1 2 (.reg 3), .imulh p .n8 1 2 (.reg 3),
   .imad p .f16 false 1 2 (.reg 3) 4, .imin p .b64 1 2 (.reg 3), .imax p .s4 1 2 (.reg 3), .iabs p .n32 false 1 2, .ineg p .n8 false 1 2,
   .icmp p .num .s32 1 2 (.reg 3), .icmp p .eq .s16 1 2 (.reg 3), .lcmp p .nan true 1 2 (.reg 4), .lea p .b32 2 4 (.reg 3) 0,
   .bfx p .s16 1 2 (.reg 3), .fsel p .nan 1 2 (.reg 3) 4, .hadd2 p .f32 .rn 1 2 (.reg 3), .hmul2 p .s16 .rn 1 2 (.reg 3)] = true := by decide

theorem test_refusesOddPairs : refused
  [.sel p true 1 2 (.reg 4) 0, .mov p true 2 3, .movi p true 3 (.short 0), .lea p .s32 3 4 (.reg 5) 0, .ladd p 2 4 (.reg 5),
   .lsub p 2 5 (.reg 4), .bAnd p true 2 3 (.reg 4), .bOr p true 3 2 (.reg 4), .bXor p true 2 4 (.reg 5), .bNot p true 3 2,
   .ivadd p 3 2 (.reg 4), .ivsub p 2 3 (.reg 4), .ivmul p 2 4 (.reg 3), .ivmin p 3 2 (.reg 4), .ivmax p 2 3 (.reg 4),
   .ivhull p 2 4 (.reg 5), .ivsqr p 3 2, .ivsqrt p 2 3, .ivabs p 3 2, .ivsplit p 2 2 4, .ivsplit p 2 4 5] = true := by decide

theorem test_refusesConversionsAndLanes : refused
  [.cvt p .b32 .s32 .rn false 1 2, .cvt p .s32 .b64 .rn false 1 2, .cvt p .f16 .f32 .rn true 1 2, .cvt p .s32 .s16 .rz false 1 2,
   .cvef p .f32 1 2 3, .cvef p .f16 1 2 1, .pack p .n16 2 1 2, .pack p .s32 0 1 2, .unpack p .f8a 4 1 2, .dot2 p .s16 1 2 (.reg 3) 4,
   .dot4 p .f16 1 2 (.reg 3) 4, .dot8 p .s8 1 2 (.reg 3) 4, .rdfl p true 3 2, .bcast p true 2 3 0, .shfl p .idx true 3 2 (.reg 4),
   .vote p .all 8 1, .vote p .any 1 8, .vote p .uni 8 1, .vote p .ballot 1 8, .redu p .add .b32 1 2, .scan p .and false .s32 1 2,
   .matchL p true 1 3, .hmerge p .f16 0 false 1 2 3, .hmerge p .f32 5 false 1 2 3, .hmerge p .f32 0 false 1 2 1] = true := by decide

theorem test_refusesMemoryForms : refused
  [.ld p 0 .f32 .x1 .none .thr 1 2 (.short 0), .ld p 0 .s16 .x2 .none .thr 2 2 (.short 0), .ld p 0 .b64 .x1 .none .thr 3 2 (.short 0),
   .ld p 0 .b32 .x4 .none .thr 6 2 (.short 0), .ld p 0 .b32 .x1 .none .thr 1 3 (.short 0), .ld p 0 .b32 .x1 .rel .thr 1 2 (.short 0),
   .st p 0 .b32 .x1 .acq .thr 1 2 (.short 0), .ldu p 0 .b64 .x4 4 2 (.short 0), .atom p 0 .and .s32 false false .none .thr 1 2 (.reg 3),
   .atom p 0 .add .s32 false true .none .thr 1 2 (.reg 3), .atom p 0 .cas .b32 true false .none .thr 0 2 (.reg 3),
   .atom p 0 .add .s32 true false .none .thr 1 2 (.reg 3), .atom p 0 .add .b64 false false .none .thr 1 2 (.reg 4),
   .lr p 0 true false .thr 3 2, .sc p 0 true false .thr 1 2 (.reg 3), .fence p 0 .none .dev, .gth p 0 false .x2 false false .thr 0 2 4 5,
   .sct p 0 true .x4 false false .thr 0 4 4 4, .pfch p 0 false 3 (.short 0), .icinv p 0 .thr, .acp p 0 false false false .thr 2 4 (.reg 6) 1,
   .acps p 0 false false false .thr 2 4 6 0, .acpw p 0 true false false .thr 3 4 (.reg 6) 1, .acpx p 0 false false 2 5 (.reg 6) 0,
   .tbinit p 3 (.reg 2), .tbarv p 1 3, .tbexp p 3 (.reg 2), .tbwt p 3 (.reg 2), .brx p 3, .ret p 3, .call p 3 0, .callx p 2 3] = true := by decide

theorem test_refusesArraySurfaceSystem : refused
  [.ald p .f4 .thr 0 2, .ald p .f32 .thr 0 3, .ast p .f16 .rn true .thr 0 2, .amma p true false false false 1 8 (.reg 2) 3,
   .amma p false true false false 2 16 (.reg 2) 3, .amms p true true false false 2 8 (.reg 2) 3, .amms p false false false false 2 4 (.reg 2) 3,
   .adrain p false false false 16 2 0, .adrain p false false true 16 2 1, .atopk p false false false 3 0 4 0, .cupd p 1 8 2 3,
   .cfin p .s8 3 2 5, .cfin p .f16 16 2 5, .cfin p .f16 3 3 5, .vacc p .topk 0 1 2 3, .vsetRd p 3, .fork p 33 0 2 4 8, .fork p 0 33 2 4 8,
   .fork p 1 1 2 4 4, .march p false 2 8 (.reg 2), .march p false 4 4 (.reg 2), .mres p 4 9 (.reg 3), .mresAbort p 6 9, .mqry p false 4 9,
   .prep p 1 2 4, .veval p true 4 2 4, .bfetch p 4 2 2, .zts p false 3 2 (.reg 1), .rsub p 1 3, .cmeta p 1 3, .rdsr p 3 .args,
   .wrsr p .ts0 (.reg 3), .tlbinv p .thr 2, .tlbinv p .dev 3, .tlbinvAll p .thr, .ctxsv p 3, .ctxld p 5,
   .dualWord false ⟨.nop, t7, 1, 0, 0⟩ ⟨.nop, ⟨0, false⟩, 0, 0, 0⟩, .dualWord false ⟨.fadd, t7, 1, 2, 4⟩ ⟨.nop, ⟨0, false⟩, 0, 0, 0⟩,
   .dualWord false ⟨.iadd, t7, 4, 9, 0⟩ ⟨.fmul, t7, 5, 13, 0⟩, .dualWord false ⟨.iadd, t7, 4, 9, 0⟩ ⟨.fmul, t7, 8, 13, 0⟩] = true := by decide

/-- 05 R149, R151: reserved opcodes, reserved fields, a reserved half opcode and a scope that `acpx` does not take name nothing. -/
theorem test_decodeRejects : ([0, 0x001EE00C10140001, 0x0FFEE00C10140000, 0x00FEE018000004FF, 0x203EE01810141D02, 0xFFFFFFFFFFFFFFFF] : List DWord).all
    (fun w => (decode w 0).isNone) = true := by decide

/-- 03 R70, Table 3.4: half-way cases and range limits of the narrow formats, with their flags. -/
theorem test_halfWayCases :
    (roundX .f4 .rn false (.val (1/4) true) = (0x0, flUF ||| flNX) ∧ roundX .f4 .rn false (.val (3/4) false) = (0x2, flUF ||| flNX) ∧
     roundX .f4 .rn false (.val (5/2) false) = (0x4, flNX) ∧ roundX .f4 .rn false (.val 7 false) = (0x7, flOF ||| flNX)) ∧
    (roundX .f8a .rn false (.val 17 false) = (0x58, flNX) ∧ roundX .f8a .rn false (.val 470 false) = (0x7E, flOF ||| flNX) ∧
     roundX .f8b .rn false (.val (9/8) false) = (0x3C, flNX) ∧ roundX .f8b .rn false (.val 61440 false) = (0x7C, flOF ||| flNX) ∧
     roundX .f8b .rn true (.val 61440 false) = (0x7B, flOF ||| flNX)) := by decide +kernel

/-! ### The bench: the loaded device with chosen threads, about to execute a word -/

/-- The loaded device (log 3) with these threads in one workgroup; those of `ms` issue the word at 0x1000. -/
def benchG (ths : List (TRef × Thread)) (ms : List TRef) : Gpu :=
  let g := State.reset.gpu.load 0 0 0
  { g with
    cur := { core := 0, members := ms, pc := 0x1000, word := 0x55, lit := 0, len := 8, no := 0 }
    threads := ths
    wgs := [{ loadWg 0 with size := ths.length, bars := List.replicate 16 (.start ths.length) }] }

/-- That device as a state. -/
def bench (ths : List (TRef × Thread)) (ms : List TRef) : State := { State.reset with gpu := benchG ths ms }

/-- The thread of lane 0, and the only one of it. -/
def u0 : TRef := ⟨0, 0⟩

/-- One thread issues, in user mode. -/
def one (th : Thread) : State := bench [(u0, th)] [u0]

/-- A thread with these registers. -/
def regsTh (rs : Regs) : Thread := { loadThread with regs := rs }

/-- A change of the device. -/
def tweak (s : State) (f : Gpu → Gpu) : State := { s with gpu := f s.gpu }

/-- The word issues without obstacle whatever registers it names: the bundle's core is in use, every member has 256 registers, and no
result or deferred trap is outstanding. -/
def calm (s : State) : Bool :=
  (s.gpu.cores.any fun x => x.1 == s.gpu.cur.core) &&
  s.members.all fun t => (s.gpu.env t).regs == 256 &&
    (s.gpu.thread? t).all fun th => th.pend.isEmpty && th.due.isEmpty && th.deferred.isEmpty

theorem calm_member {s : State} (h : calm s = true) {t : TRef} (ht : t ∈ s.members) :
    (s.gpu.env t).regs = 256 ∧ ∀ th, s.gpu.thread? t = some th → th.pend = [] ∧ th.due = [] ∧ th.deferred = [] := by
  have h := List.all_eq_true.1 (Bool.and_eq_true_iff.1 h).2 t ht
  obtain ⟨h1, h2⟩ := Bool.and_eq_true_iff.1 h
  refine ⟨by simpa using h1, fun th e => ?_⟩
  rw [e] at h2
  simpa [and_assoc] using h2

theorem settled_of {s : State} (h : calm s = true) (sw : Bool) : Settled s sw :=
  ⟨(Bool.and_eq_true_iff.1 h).1, fun _ ht th e _ => by
    obtain ⟨_, h1, h2⟩ := (calm_member h ht).2 th e
    exact ⟨fun _ => ⟨h1, h2⟩, by simp [Thread.trapDue, h2]⟩⟩

theorem issuing_of {s : State} (h : calm s = true) (p : Pfx) (used : List Reg) : Issuing s p used := by
  refine ⟨settled_of h p.sw, fun t ht => ?_, fun t ht th e _ => ?_⟩
  · rw [overRange, (calm_member h ht).1]
    exact List.any_eq_false.2 fun r _ => by have := r.isLt; simp only [decide_eq_true_eq]; omega
  · rw [Thread.pendingAmong]
    exact List.find?_eq_none.2 fun r _ => by simp [Thread.tokenPending, ((calm_member h ht).2 th e).1]

theorem solo_of {th : Thread} {s : State} {p : Pfx} (h : calm s = true) (hs : s.members = [u0]) (ht : s.gpu.thread? u0 = some th)
    (ha : th.status = .active) (hg : th.guards p = true) (used : List Reg) : Solo s u0 th p used :=
  ⟨hs, ht, ha, hg, issuing_of h p used⟩

theorem team_of {s : State} {p : Pfx} (h : calm s = true) (hne : s.members ≠ [])
    (hm : (s.members.all fun t => t.wg == 0 && t.team == 0 && (s.gpu.thread? t).isSome) = true)
    (hl : sameSet (sortLanes s.members) (s.gpu.liveSet 0 0) = true) (used : List Reg) (all : Bool) : TeamIssuing s 0 0 p used all := by
  refine ⟨issuing_of h p used, hne, fun t ht => ?_, hl⟩
  have k := List.all_eq_true.1 hm t ht
  simp only [Bool.and_eq_true, beq_iff_eq] at k
  obtain ⟨th, e⟩ := Option.isSome_iff_exists.1 k.2
  refine ⟨k.1.1, k.1.2, th, e, fun _ => ?_⟩
  rw [Thread.pendingAmong]
  exact List.find?_eq_none.2 fun r _ => by simp [Thread.tokenPending, ((calm_member h ht).2 th e).1]

theorem fpReady_of {s : State} {th : Thread} {p : Pfx} {ops : Thread → List Word} {fl : Env → Thread → BitVec 5} (hs : s.members = [u0])
    (ht : s.gpu.thread? u0 = some th) (ho : ((ops th).all fun w => !isAbandoned w) = true)
    (hf : fpeTraps (s.gpu.env u0) th (fl (s.gpu.env u0) th) = false) : FpReady s p ops fl := by
  intro t m x e _
  obtain rfl : t = u0 := by simpa [hs] using m
  obtain rfl : th = x := by simpa [ht] using e
  exact ⟨fun w hw => by simpa using List.all_eq_true.1 ho w hw, hf⟩

/-- A thread of three floating-point registers and an interval pair, alone. -/
def th1 : Thread := regsTh [(2, 0x3F800000), (3, 0x40000000), (4, 0xBF800000), (5, 0x3F800000)]
def s1 : State := one th1
/-- Four lanes of a team. -/
def s4 : State := bench ((List.range 4).map fun i => (⟨0, i⟩, regsTh [(2, BitVec.ofNat 32 (5 * i))])) [⟨0, 0⟩, ⟨0, 1⟩, ⟨0, 2⟩, ⟨0, 3⟩]

theorem calm_s1 : calm s1 = true := by decide +kernel
theorem calm_s4 : calm s4 = true := by decide +kernel
theorem solo_s1 (used : List Reg) : Solo s1 u0 th1 p used := solo_of calm_s1 rfl rfl rfl rfl used
theorem team_s4 (used : List Reg) (all : Bool) : TeamIssuing s4 0 0 p used all :=
  team_of calm_s4 (by decide) (by decide +kernel) (by decide +kernel) used all
theorem fpReady_s1 {ops : Thread → List Word} {fl : Env → Thread → BitVec 5} (ho : ((ops th1).all fun w => !isAbandoned w) = true)
    (hf : fpeTraps (s1.gpu.env u0) th1 (fl (s1.gpu.env u0) th1) = false) : FpReady s1 p ops fl := fpReady_of rfl rfl ho hf

/-! ### Witnesses: concrete states and operands that meet the hypotheses of each statement, clause by clause -/

theorem witness_IntegerArithmetic :
    (Issuing s1 p (6 :: 2 :: (SrcB.reg 3).span false) ∧ Ty.isPackInt .s8 = true ∧ Ty.isInt32 .n32 = true) ∧
    (Issuing s1 p [6, 2] ∧ Ty.isSigned .s16 = true) ∧
    (Issuing s1 p (6 :: 2 :: 4 :: (SrcB.lit 0xFFFFFFFF).span false) ∧ Ty.isInt32 .s32 = true) :=
  ⟨⟨issuing_of calm_s1 _ _, rfl, rfl⟩, ⟨issuing_of calm_s1 _ _, rfl⟩, issuing_of calm_s1 _ _, rfl⟩

theorem witness_MovesComparesAndPredicates :
    Issuing s1 p (Reg.span 6 true ++ Reg.span 2 true ++ (SrcB.reg 4).span true) ∧ Issuing s1 p (Reg.span 6 true ++ Reg.span 2 true) ∧
    Issuing s1 p (Reg.span 6 true) ∧ (Issuing s1 p (2 :: (SrcB.reg 3).span false) ∧ Ty.isInt32 .s32 = true ∧ CC.isInt .ge = true) ∧
    Issuing s1 p [] ∧ Issuing s1 p [6] ∧ Issuing s1 p [255] :=
  ⟨issuing_of calm_s1 _ _, issuing_of calm_s1 _ _, issuing_of calm_s1 _ _, ⟨issuing_of calm_s1 _ _, rfl, rfl⟩, issuing_of calm_s1 _ _,
   issuing_of calm_s1 _ _, issuing_of calm_s1 _ _⟩

theorem witness_AddressInstructions :
    (Issuing s1 p (Reg.span 6 true ++ Reg.span 2 true ++ (SrcB.reg 4).span false) ∧ Ty.isInt32 .n32 = true) ∧
    Issuing s1 p (Reg.span 6 true ++ Reg.span 2 true ++ (SrcB.reg 4).span true) ∧
    (Issuing s1 p (Reg.span 2 true ++ (SrcB.lit 1).span true) ∧ CC.isInt .lt = true) :=
  ⟨⟨issuing_of calm_s1 _ _, rfl⟩, issuing_of calm_s1 _ _, issuing_of calm_s1 _ _, rfl⟩

theorem witness_BitInstructions :
    Issuing s1 p (Reg.span 254 true ++ Reg.span 2 true ++ (SrcB.reg 4).span true) ∧ Issuing s1 p (Reg.span 6 false ++ Reg.span 2 false) ∧
    Issuing s1 p (6 :: 2 :: (SrcB.lit 32).span false) ∧ Issuing s1 p [6, 2] :=
  ⟨issuing_of calm_s1 _ _, issuing_of calm_s1 _ _, issuing_of calm_s1 _ _, issuing_of calm_s1 _ _⟩

theorem witness_FieldExtractAndInsert :
    (Issuing s1 p (6 :: 2 :: (SrcB.reg 3).span false) ∧ Ty.isInt32 .s32 = true) ∧ Issuing s1 p (6 :: 2 :: 4 :: (SrcB.lit 0x201F).span false) :=
  ⟨⟨issuing_of calm_s1 _ _, rfl⟩, issuing_of calm_s1 _ _⟩

theorem witness_FloatingPointResultsAndFlags :
    (Issuing s1 p (6 :: 2 :: (SrcB.reg 3).span false) ∧
      FpReady s1 p (fun th => [th.reg 2, th.srcW (.reg 3)]) (fun e th => (arith32 .rn e.ftz (addX .rn (fv (th.reg 2)) (fv (th.srcW (.reg 3))))).2) ∧
      FpReady s1 p (fun th => [th.reg 2]) (fun e th => (fsclX (th.reg 2) (th.srcW (.reg 3)).toInt e.ftz).2) ∧
      FpReady s1 p (fun _ => []) (fun e th => (hadd2V .f16 .rn e.ftz (th.reg 2) (th.srcW (.reg 3))).2)) ∧
    (Issuing s1 p [6, 2] ∧ FpReady s1 p (fun th => [th.reg 2]) (fun e th => (ffracX (th.reg 2) e.ftz).2)) ∧
    (Issuing s1 p (6 :: 2 :: 4 :: (SrcB.reg 3).span false) ∧
      FpReady s1 p (fun th => [th.reg 2, th.srcW (.reg 3), th.reg 4])
        (fun e th => (arith32 .rz e.ftz (fmaX .rz (fv (th.reg 2)) (fv (th.srcW (.reg 3))) (fv (th.reg 4)))).2)) ∧
    (Issuing s1 p (2 :: (SrcB.reg 3).span false) ∧
      FpReady s1 p (fun th => [th.reg 2, th.srcW (.reg 3)]) (fun _ th => sigFlag [fv (th.reg 2), fv (th.srcW (.reg 3))])) :=
  ⟨⟨issuing_of calm_s1 _ _, fpReady_s1 (by decide +kernel) (by decide +kernel), fpReady_s1 (by decide +kernel) (by decide +kernel),
    fpReady_s1 rfl (by decide +kernel)⟩, ⟨issuing_of calm_s1 _ _, fpReady_s1 (by decide +kernel) (by decide +kernel)⟩,
   ⟨issuing_of calm_s1 _ _, fpReady_s1 (by decide +kernel) (by decide +kernel)⟩, issuing_of calm_s1 _ _,
   fpReady_s1 (by decide +kernel) (by decide +kernel)⟩

theorem witness_FloatingPointValues :
    (fv 0x7F800001).isNan = true ∧ ((fv 0x3F800000).isFin = true ∧ (fv 0x80000001).isFin = true) ∧
    ((fv 0x40000000).isFin = true ∧ (fv 0x3F800000).rat * (fv 0x40000000).rat ≠ 0) ∧ (fv 0xFF800000 = .inf true ∧ fv 0x7F800000 = .inf false) ∧
    (fv 0xFF800000 = .inf true ∧ (fv 0).isFin = true ∧ (fv 0x80000000).isZero = true ∧ (fv 0x7F800000).isNan = false ∧
      (fv 0x7F800000).isZero = false) ∧
    (∀ ty ∈ [Ty.f16, Ty.e16],
      let el := fun (w : Word) (i : Nat) => valueOf ty (w.toNat / 2 ^ (16 * i) % 2 ^ 16)
      (el 0x7FC10000 1).isNan = true ∧ (el 0x7FC10000 0).isNan = false ∧
      ∀ i ∈ [0, 1], (el 0x3C004000 i).isFin = true ∧ (el 0xBC00 i).isFin = true ∧ (el 0x40003C00 i).isFin = true ∧
        ((el 0x3C004000 i).rat * (el 0xBC00 i).rat ≠ 0 ∨ (el 0x40003C00 i).rat ≠ 0)) := by decide +kernel

theorem witness_RoundingAndMinMax :
    (Ty.isFloat .f16 = true ∧ 0x7BFF < 2 ^ widthOf .f16 ∧ (valueOf .f16 0x7BFF).isFin = true) ∧ |(1 / 3 : Rat)| ≤ ratW 0x7F7FFFFF ∧
    ((fv 0xFF7FFFFF).isFin = true ∧ ratW 0xFF7FFFFF ≤ 1 / 3) ∧ ((fv 0x7F7FFFFF).isFin = true ∧ 1 / 3 ≤ ratW 0x7F7FFFFF) ∧
    ((fv 0x7FC00000).isNan = true ∧ (fv 0xFFC00001).isNan = true ∧ (fv 0).isNan = false) ∧
    ((fv 0x80000000).isNan = false ∧ (fv 1).isNan = false ∧ (fv 0x80000000).lt (fv 1) = true) ∧
    (|(1 / 3 : Rat)| ≤ (fmtOf .f4).mag (fmtOf .f4).max ∧ 3 < 2 ^ widthOf .f4 ∧ (valueOf .f4 3).isFin = true) ∧
    (2 * (fmtOf .f8b).mag (fmtOf .f8b).max < |(-1000000 : Rat)|) ∧
    (fv 0xFF800000 = .inf true ∧ (fv 0x80000001).isFin = true ∧ ((127 : Int) < 128 ∧ -127 ≤ (-127 : Int) ∧ (-127 : Int) ≤ 127) ∧
      (fv 0x3FFFFFFF).isZero = false ∧ (fv 0x3FFFFFFF).isFin = true) ∧
    (Ty.isFloat .f8a = true ∧ Ty.isFloat .n16 = false ∧ 0x7F < 2 ^ widthOf .f8a ∧ (valueOf .f8a 0x7F).isNan = true ∧
      valueOf .e16 0xFF80 = .inf true ∧ (valueOf .e16 0x4F80).isFin = true ∧ Ty.isFloat .s8 = false) ∧
    (let t := roundX .f32 .rn false (.val (ratW 0x40000000 + ratW 0x33800000) (decide ((0x40000000 : Word) = 0x80000000 ∧ (0x33800000 : Word) = 0x80000000)))
     (fv 0x33800000).isFin = true ∧ (valueOf .f32 t.1).isFin = true ∧ |(valueOf .f32 t.1).rat| ≤ (fmtOf .f8b).mag (fmtOf .f8b).max) := by
  decide +kernel

theorem witness_SpecialFunctionsReturnLater : Issuing s1 p [6, 2] ∧ FpReady s1 p (fun th => [th.reg 2]) (fun _ _ => 0) :=
  ⟨issuing_of calm_s1 _ _, fpReady_s1 (by decide +kernel) (by decide +kernel)⟩

/-- 0x7F7FFFFF + 0x7F7FFFFF overflows; r4 is an abandoned encoding; r5 a signalling NaN. -/
def thF : Thread := regsTh [(2, 0x7F7FFFFF), (3, 0x7F7FFFFF), (4, 0x7FA00011), (5, 0x7F800001), (6, 0x7FA000FF)]
def sF : State := tweak (one thF) fun g => { g with ctxs := [{ loadCtx with te := 0x1F }] }
theorem calm_sF : calm sF = true := by decide +kernel

theorem witness_FloatingPointTrapsArePrecise :
    (Solo sF u0 thF p (7 :: 2 :: (SrcB.reg 4).span false) ∧ thF.mode = .user ∧ isAbandoned (thF.srcW (.reg 4)) = true ∧
      isAbandoned (thF.reg 6) = true) ∧
    (Solo sF u0 thF p (7 :: 2 :: (SrcB.reg 3).span false) ∧ ¬isAbandoned (thF.reg 2) ∧ ¬isAbandoned (thF.srcW (.reg 3)) ∧
      (faddV .rn (sF.gpu.env u0).ftz (thF.reg 2) (thF.srcW (.reg 3))).2 &&& (sF.gpu.env u0).te ≠ 0 ∧
      (fmulV .rn (sF.gpu.env u0).ftz (thF.reg 2) (thF.srcW (.reg 3))).2 &&& (sF.gpu.env u0).te ≠ 0 ∧
      (fsubV .rn (sF.gpu.env u0).ftz (thF.reg 2) (thF.srcW (.reg 5))).2 &&& (sF.gpu.env u0).te ≠ 0 ∧
      (minmaxW false (thF.reg 2) (thF.srcW (.reg 5))).2 &&& (sF.gpu.env u0).te ≠ 0 ∧
      (minmaxW true (thF.reg 5) (thF.srcW (.reg 2))).2 &&& (sF.gpu.env u0).te ≠ 0) :=
  ⟨⟨solo_of calm_sF rfl rfl rfl rfl _, by decide +kernel⟩, solo_of calm_sF rfl rfl rfl rfl _, by decide +kernel⟩

theorem witness_IntervalInstructions :
    let words := fun (w : DWord) => [w.setWidth 32, (w >>> 32).setWidth 32]
    (Issuing s1 p (Reg.span 6 true ++ Reg.span 2 true ++ (SrcB.reg 4).span true) ∧
      FpReady s1 p (fun th => words (th.pair 2) ++ words (th.srcD (.reg 4))) (fun _ _ => 0)) ∧
    (Issuing s1 p (Reg.span 6 true ++ Reg.span 4 true) ∧ FpReady s1 p (fun th => words (th.pair 4)) (fun _ _ => 0) ∧
      FpReady s1 p (fun th => words (th.pair 4))
        (fun _ th => if (ivOf (th.pair 4)).isSome ∧ (ivSqrt (ivOf (th.pair 4))).isNone then flNV else 0)) ∧
    (Issuing s1 p (Reg.span 6 true ++ Reg.span 8 true ++ Reg.span 2 true) ∧ FpReady s1 p (fun th => words (th.pair 2)) (fun _ _ => 0)) :=
  ⟨⟨issuing_of calm_s1 _ _, fpReady_s1 (by decide +kernel) (by decide +kernel)⟩,
   ⟨issuing_of calm_s1 _ _, fpReady_s1 (by decide +kernel) (by decide +kernel), fpReady_s1 (by decide +kernel) (by decide +kernel)⟩,
   issuing_of calm_s1 _ _, fpReady_s1 (by decide +kernel) (by decide +kernel)⟩

theorem witness_IntervalsReadAndEnclose :
    ((fv 0x7FC00000).isNan = true ∧ ((fv 0x40000000).isNan = false ∧ (fv 0x3F800000).lt (fv 0x40000000) = true) ∧
      ((fv 0x3F800000).isFin = true ∧ ratW 0x3F800000 ≤ ratW 0x40000000) ∧ (fv 0x7F800000 = .inf false ∧ fv 0xFF800000 = .inf true)) ∧
    inPair 1 (0x3F800000, 0x40000000) ∧ inPair 2 (0xFF800000, 0x40000000) ∧ (0 : Rat) ≤ 1 := by
  refine ⟨by decide +kernel, ?_, ?_, by decide +kernel⟩
  · rw [inPair, show ivRead _ _ = some (.fin 1, .fin 2) by decide +kernel]
    decide +kernel
  · rw [inPair, show ivRead _ _ = some (.ninf, .fin 2) by decide +kernel]
    decide +kernel

theorem witness_ConversionsAndPackedResults :
    (Issuing s1 p [6, 2] ∧
      FpReady s1 p (fun th => if Ty.f32 = .f32 then [th.reg 2] else []) (fun e th => (cvtX .s8 .f32 .rn true e.ftz ((th.reg 2).toNat % 2 ^ widthOf .f32)).2) ∧
      packOk .n8 3 = true) ∧
    (Issuing s1 p [6, 2, 3] ∧ FpReady s1 p (fun th => [th.reg 2, th.reg 3]) (fun _ th => (cvefX .f8a (th.reg 2) (th.reg 3)).2.2)) ∧
    (Issuing s1 p (6 :: 2 :: 4 :: (SrcB.reg 3).span false) ∧ FpReady s1 p (fun th => [th.reg 4]) (fun e th =>
      let es := fun (w : Word) => (List.range (32 / widthOf .f16)).map fun j => elemOf .f16 (w.toNat / 2 ^ (widthOf .f16 * j) % 2 ^ widthOf .f16)
      (step79 0 0 e.ftz (th.reg 4) ((es (th.reg 2)).zip (es (th.srcW (.reg 3))))).2)) :=
  ⟨⟨issuing_of calm_s1 _ _, fpReady_s1 (by decide +kernel) (by decide +kernel), rfl⟩,
   ⟨issuing_of calm_s1 _ _, fpReady_s1 (by decide +kernel) (by decide +kernel)⟩, issuing_of calm_s1 _ _,
   fpReady_s1 (by decide +kernel) (by decide +kernel)⟩

theorem witness_StepIsExactSumRoundedOnce :
    (fv 0x3F800000).isFin = true ∧
    (∀ x ∈ [(fv 0x40000000, fv 0xBF800000), (fv 0, fv 0x7F800000)], x.1.isZero ∨ x.2.isZero ∨ (x.1.isFin ∧ x.2.isFin)) ∧
    ((fv 0x7F800001).isNan = true ∧ fv 0xFF800000 = .inf true ∧ fv 0x7F800000 = .inf false ∧ fv 0x80000000 = .fin true 0) ∧
    ((fv 0x80000001).isFin = true ∧ ratW 0x80000001 < 0 ∧ ratW 0x80000001 ≠ 0 ∧ ratW 0x80000001 < 128) ∧
    ((fv 0x43000000).isFin = true ∧ 128 ≤ ratW 0x43000000 ∧ ratW 0x42FE0000 = (127 : Int) ∧ ratW 0xC3150000 = (-149 : Int)) ∧
    (0 < ratW 0x3F000000 ∧ ratW 0x3F000000 = (2 : Rat) ^ (-1 : Int)) := by
  refine ⟨by decide +kernel, by decide +kernel, by decide +kernel, by decide +kernel, by decide +kernel, by decide +kernel, ?_⟩
  rw [show ratW 0x3F000000 = 1 / 2 by decide +kernel]
  norm_num

theorem witness_LaneReadsAndVotes :
    Issuing s4 p (Reg.span 6 true ++ Reg.span 2 true) ∧ TeamIssuing s4 0 0 p (Reg.span 6 false ++ Reg.span 2 false) true ∧
    TeamIssuing s4 0 0 p [] false ∧ TeamIssuing s4 0 0 p [2] false ∧ TeamIssuing s4 0 0 p [6] false :=
  ⟨issuing_of calm_s4 _ _, team_s4 _ _, team_s4 _ _, team_s4 _ _, team_s4 _ _⟩

theorem witness_TeamExchanges :
    (∀ x ∈ s4.on p, x.2.count .xch < 63) ∧ TeamIssuing s4 0 0 p (Reg.span 6 true ++ Reg.span 2 true ++ (SrcB.lit 31).span false) true ∧
    (TeamIssuing s4 0 0 p [6, 2] false ∧ ∀ x ∈ s4.on p, isAbandoned (x.2.reg 2) = false) ∧ TeamIssuing s4 0 0 p (6 :: Reg.span 2 true) false ∧
    TeamIssuing s4 0 0 p [6, 2, 4] false :=
  ⟨by decide +kernel, team_s4 _ _, ⟨team_s4 _ _, by decide +kernel⟩, team_s4 _ _, team_s4 _ _⟩

theorem witness_FoldsAndMerges :
    ([0x3F800000, 0x80000000] : List Word) ≠ [] ∧ Ty.isInt32 .s32 = true ∧ (31 : Nat) < 32 ∧
    (∀ w ∈ ([0x3F800000, 0x80000000] : List Word), (fv w).isFin = true) ∧ (∃ w ∈ ([0x3F800000, 0x80000000] : List Word), w ≠ 0x80000000) ∧
    (∃ w ∈ ([0x7FC00000] : List Word), (fv w).isNan = true) ∧
    (([(1, 0), (3, 1)] : List (Word × Word)).length + ([(2, 4)] : List (Word × Word)).length ≤ 3 ∧
      ([(1, 0), (3, 1)] : List (Word × Word)).Pairwise fun x y => keyBefore .s32 false y.1 x.1 = false) :=
  ⟨by simp, rfl, by decide, List.all_eq_true.1 (by decide +kernel), ⟨0x3F800000, by simp, by decide⟩,
   ⟨0x7FC00000, by simp, by decide +kernel⟩, by decide, by simp [keyBefore]; decide +kernel⟩

/-- Targets: r2:r3 = 0x2000 in every lane. -/
def sB : State := one (regsTh [(2, 0x2000), (3, 0)])
theorem calm_sB : calm sB = true := by decide +kernel
/-- A misaligned target; and two lanes with different ones. -/
def thMis : Thread := regsTh [(2, 0x2004), (3, 0)]
def sMis : State := one thMis
def lanes2 : List TRef := [⟨0, 0⟩, ⟨0, 1⟩]
def sDiv : State := bench [(⟨0, 0⟩, regsTh [(2, 0x2000), (3, 0)]), (⟨0, 1⟩, regsTh [(2, 0x3000), (3, 0)])] lanes2

theorem witness_BranchesCallsAndReturns :
    sB.gpu.cur.pc.toNat % 8 = 0 ∧ Issuing sB p [] ∧ Issuing sB p (Reg.run 6 2) ∧
    (Issuing sB p (Reg.run 2 2) ∧ (∀ x ∈ sB.on p, x.2.pair 2 = 0x2000) ∧ (0x2000 : DWord).toNat % 8 = 0) ∧
    Issuing sB p (Reg.run 6 2 ++ Reg.run 2 2) ∧ (∀ x ∈ sB.on p, (x.2.pair 2).toNat % 8 = 0) ∧
    (Solo sMis u0 thMis p (Reg.run 6 2 ++ Reg.run 2 2) ∧ Solo sMis u0 thMis p (Reg.run 2 2) ∧ thMis.mode = .user ∧ (thMis.pair 2).toNat % 8 ≠ 0) ∧
    (Issuing sDiv p (Reg.run 2 2) ∧ Issuing sDiv p (Reg.run 6 2 ++ Reg.run 2 2) ∧ sDiv.members = lanes2 ∧
      (∀ m ∈ lanes2, ∃ z, sDiv.gpu.thread? m = some z ∧ z.mode = .user ∧ z.guards p = true ∧ (z.pair 2).toNat % 8 = 0) ∧
      ∃ x y, sDiv.gpu.thread? ⟨0, 0⟩ = some x ∧ sDiv.gpu.thread? ⟨0, 1⟩ = some y ∧ x.pair 2 ≠ y.pair 2) :=
  ⟨by decide +kernel, issuing_of calm_sB _ _, issuing_of calm_sB _ _, ⟨issuing_of calm_sB _ _, by decide +kernel, rfl⟩,
   issuing_of calm_sB _ _, by decide +kernel,
   ⟨solo_of (by decide +kernel) rfl rfl rfl rfl _, solo_of (by decide +kernel) rfl rfl rfl rfl _, rfl, by decide +kernel⟩,
   issuing_of (by decide +kernel) _ _, issuing_of (by decide +kernel) _ _, rfl, fun m hm => by
    obtain rfl | rfl : m = ⟨0, 0⟩ ∨ m = ⟨0, 1⟩ := by simpa [lanes2] using hm
    exacts [⟨regsTh [(2, 0x2000), (3, 0)], by decide +kernel⟩, ⟨regsTh [(2, 0x3000), (3, 0)], by decide +kernel⟩],
   regsTh [(2, 0x2000), (3, 0)], regsTh [(2, 0x3000), (3, 0)], by decide +kernel⟩

/-- The thread and its bundle in trap mode. -/
def sYield : State := tweak (one { th1 with mode := .trap }) fun g =>
  g.modCore 0 fun c => { c with active := c.active.map fun b => { b with mode := .trap } }

theorem witness_NopProbeYieldAndExit :
    Issuing s1 p [] ∧ Solo s1 u0 th1 p [] ∧ p.sw = false ∧ th1.mode = .user ∧
    (∃ b, (s1.gpu.core s1.gpu.cur.core).active.filter (fun x => x.members.contains u0) = [b] ∧ b.members = [u0] ∧ b.mode = th1.mode) ∧
    (Solo sYield u0 { th1 with mode := .trap } p [] ∧
      ∃ b, (sYield.gpu.core sYield.gpu.cur.core).active.filter (fun x => x.members.contains u0) = [b] ∧ b.members = [u0] ∧ b.mode = .trap) :=
  ⟨issuing_of calm_s1 _ _, solo_s1 _, rfl, rfl,
   ⟨{ members := [u0], launch := 0, mode := .user, pc := 0x1000, entry := false, order := 0, issued := 0, timer := 0 }, by decide +kernel⟩,
   solo_of (by decide +kernel) rfl rfl rfl rfl _,
   { members := [u0], launch := 0, mode := .trap, pc := 0x1000, entry := false, order := 0, issued := 0, timer := 0 }, by decide +kernel⟩

theorem witness_SoftwareTraps : Solo s1 u0 th1 p [] ∧ th1.mode = .user := ⟨solo_s1 _, rfl⟩

/-- Lane 0 of three, in rejoin mask 3 = lanes 0 to 2. -/
def thR : Thread := regsTh [(2, 7)]
def sR (m : RMask) : State := tweak (bench [(u0, thR), (⟨0, 1⟩, thR), (⟨0, 2⟩, thR)] [u0]) fun g => g.modWg 0 fun w => w.setMask 0 3 m
def wR (m : RMask) : Wg := (((sR m).gpu.wg? 0).getD (loadWg 0))
theorem calm_sR (m : RMask) : calm (sR m) = true := by revert m; intro ⟨a, b⟩; rfl

theorem witness_RejoinMasks :
    ((sR ⟨7, 0⟩).gpu.wg? u0.wg = some (wR ⟨7, 0⟩) ∧ Solo (sR ⟨7, 0⟩) u0 thR p ((SrcB.reg 2).span false) ∧
      (wR ⟨7, 0⟩).mask 0 3 = ⟨7, 0⟩ ∧ (∀ x ∈ (sR ⟨7, 0⟩).gpu.threads, x.2.status ≠ .parked (.rejoin 3))) ∧
    (Solo (sR ⟨7, 0⟩) u0 thR p [] ∧ 3 < (((wR ⟨7, 0⟩).teams[u0.team]?.map Team.masks).getD []).length) ∧
    ((wR ⟨6, 0⟩).mask 0 3).mask.getLsbD 0 = false ∧
    (((wR ⟨7, 4⟩).mask 0 3).mask.getLsbD 0 = true ∧ ∃ v y, (sR ⟨7, 4⟩).gpu.thread? v = some y ∧ v.wg = u0.wg ∧ v.team = u0.team ∧
      y.status ≠ .exited ∧ y.status ≠ .stopped ∧ v.lane ≠ u0.lane ∧ ((wR ⟨7, 4⟩).mask 0 3).mask.getLsbD v.lane = true ∧
      ((wR ⟨7, 4⟩).mask 0 3).arrived.getLsbD v.lane = false) ∧
    (let y := { thR with status := .parked (.rejoin 3) }
     let s := tweak (sR ⟨7, 2⟩) fun g => { g with threads := [(u0, thR), (⟨0, 1⟩, y), (⟨0, 2⟩, thR)] }
     Solo s u0 thR p ((SrcB.reg 2).span false) ∧ thR.mode = .user ∧ s.gpu.thread? ⟨0, 1⟩ = some y) :=
  ⟨⟨by decide +kernel, solo_of (calm_sR _) rfl rfl rfl rfl _, by decide +kernel⟩, ⟨solo_of (calm_sR _) rfl rfl rfl rfl _, by decide +kernel⟩,
   by decide +kernel, ⟨by decide +kernel, ⟨0, 1⟩, thR, by decide +kernel⟩, solo_of (by decide +kernel) rfl rfl rfl rfl _, rfl, by decide +kernel⟩

/-! ### What holds of every thread, and where an access lies, checked on the state -/

theorem of_threads {s : State} {P : TRef → Thread → Prop} [∀ v y, Decidable (P v y)] (h : (s.gpu.threads.all fun x => decide (P x.1 x.2)) = true)
    (v : TRef) (y : Thread) (e : s.gpu.thread? v = some y) : P v y := by
  obtain ⟨x, hx, rfl⟩ := Option.map_eq_some_iff.1 e
  have h1 := List.find?_some hx
  have h2 := List.all_eq_true.1 h x (List.mem_of_find?_eq_some hx)
  rw [← beq_iff_eq.1 h1]
  exact of_decide_eq_true h2

theorem unreserved_of {s : State} (h : (s.gpu.threads.all fun x => decide (x.2.resv = none)) = true) : Unreserved s :=
  fun v x e => of_threads (P := fun _ y => y.resv = none) h v x e

def scratchB (s : State) (u : TRef) (a : DWord) (off size al : Nat) : Bool :=
  a == BitVec.ofNat 64 (0xFF0000000000 + off) && off % al == 0 && (s.gpu.ctx? (s.gpu.env u).ctx).isSome &&
  (s.gpu.wg? u.wg).any fun w => decide (off + size ≤ w.scratchLen) && decide (w.scratchLen ≤ 2 ^ 24)

theorem inScratch_of {s : State} {u : TRef} {a : DWord} {off size al : Nat} (h : scratchB s u a off size al = true) :
    InScratch s u a off size al := by
  simp only [scratchB, Bool.and_eq_true, beq_iff_eq, Option.any_eq_true, decide_eq_true_eq] at h
  obtain ⟨⟨⟨h1, h2⟩, h3⟩, w, h4, h5⟩ := h
  exact ⟨h1, h2, h3, w, h4, h5⟩

def fitsB (s : State) (u : TRef) (acc : Access) (va size : Nat) (l : Leaf) : Bool :=
  (s.gpu.wg? u.wg).isSome && decide (0 < size) && decide (va + size ≤ 0xFF0000000000) && decide (va % 2 ^ l.log + size ≤ 2 ^ l.log) &&
  (match l.base.sp with | .peer _ _ => false | _ => true) &&
  (s.gpu.ctx? (s.gpu.env u).ctx).any fun c => match (s.gpu.translate (s.gpu.env u).core c acc va).2 with | .ok k => decide (k = l) | .error _ => false

theorem fits_of {s : State} {u : TRef} {acc : Access} {va size : Nat} {l : Leaf} (h : fitsB s u acc va size l = true) :
    Fits s u acc va size l := by
  simp only [fitsB, Bool.and_eq_true, decide_eq_true_eq, Option.any_eq_true] at h
  obtain ⟨⟨⟨⟨⟨h1, h2⟩, h3⟩, h4⟩, h5⟩, c, h6, h7⟩ := h
  refine ⟨h1, h2, h3, h4, fun k e hk => ?_, c, h6, ?_⟩
  · rw [hk] at h5; exact absurd h5 (by simp)
  · split at h7
    · rename_i k hk; rw [hk, of_decide_eq_true h7]
    · exact absurd h7 (by simp)

def liesB (s : State) (u : TRef) (acc : Access) (va size : Nat) (l : Leaf) : Bool :=
  fitsB s u acc va size l && decide ((s.gpu.looked u acc va).holds u (s.gpu.env u).core acc (l.span va size) = none)

theorem lies_of {s : State} {u : TRef} {acc : Access} {va size : Nat} {l : Leaf} (h : liesB s u acc va size l = true) :
    Lies s u acc va size l := by
  simp only [liesB, Bool.and_eq_true, decide_eq_true_eq] at h
  obtain ⟨h1, h2, h3, h4, h5, c, h6⟩ := fits_of h.1
  exact ⟨h1, h2, h3, h4, h5, h.2, c, h6⟩

/-- Lane 0 of three, at a barrier. -/
def sBar (x : Bar) : State := tweak (bench [(u0, thR), (⟨0, 1⟩, thR), (⟨0, 2⟩, thR)] [u0]) fun g => g.modWg 0 fun w => { w with bars := w.bars.set 15 x }
def wBar (x : Bar) : Wg := ((sBar x).gpu.wg? 0).getD (loadWg 0)
/-- One arrival short of a phase; one more than that; a barrier that waits for none; the thread has arrived. -/
def barLast : Bar := { e := 3, a := 2, phase := true, arr := 6, parts := 6, last := [(1, true), (2, true)] }
def barEarly : Bar := { e := 3, a := 1, phase := true, arr := 2, parts := 7, last := [(1, true), (0, false)] }
def barEmpty : Bar := { e := 0, a := 0, phase := true, arr := 0, parts := 0, last := [] }
def barCame : Bar := { e := 3, a := 2, phase := true, arr := 3, parts := 7, last := [(0, true), (1, true)] }
def gang0 : Gang := { idx := 0, pairadj := false, report := false, members := [0], e := 3, phase := false, arr := [⟨0, 1⟩], ends := [], written := false }
/-- Number 7: a remote read of the thread that the peer has not answered. -/
def rread7 : Op :=
  { id := 7, owner := u0, owners := [u0], core := 0, cls := none, kind := .rread .b32 [⟨.peer 0 0, 0x40⟩], bySeq := none, result := none, done := false,
    refused := false, pages := [], asks := [(1, ⟨.peer 0 0, 0x40⟩, 4)], got := [], sent := true, pc := 0, word := 0, at_ := 0, inst := 0, ch := 0, acq := false,
    moved := 0, flags := 0 }
def asking (s : State) : State := tweak s fun g => { g with ops := [rread7] }
/-- Nothing holds the thread's arrival back. -/
abbrev FreeOf (s : State) (sc : Scope) : Prop := s.gpu.heldBack u0 = false ∧ s.gpu.releaseWait (s.gpu.env u0).core u0 sc = none
/-- Another thread waits at the barrier. -/
def sBusy : State := tweak (sBar (.start 3)) fun g => { g with threads := [(u0, thR), (⟨0, 1⟩, { thR with status := .parked (.barrier 15) }), (⟨0, 2⟩, thR)] }
def sGang : State := tweak (one (regsTh [])) fun g => { g with launches := [{ loadLaunch with gangs := [gang0] }] }

theorem witness_BarrierArrivalsAndWaits :
    ((sBar (.start 3)).gpu.wg? u0.wg = some (wBar (.start 3)) ∧ (wBar (.start 3)).bars[15]? = some (.start 3) ∧ Unreserved (sBar (.start 3)) ∧
      Solo (sBar (.start 3)) u0 thR p ((SrcB.lit 3).span false) ∧ 0 < (thR.srcW (.lit 3)).toNat ∧ (thR.srcW (.lit 3)).toNat ≤ (wBar (.start 3)).size ∧
      (Bar.start 3).a = 0 ∧ ∀ v y, (sBar (.start 3)).gpu.thread? v = some y → v.wg = u0.wg → y.status ≠ .parked (.barrier 15)) ∧
    (Solo (asking (sBar barLast)) u0 thR p [] ∧ (wBar barLast).bars[15]? = some barLast ∧ barLast.arr.getLsbD u0.tid = false ∧
      (asking (sBar barLast)).gpu.heldBack u0 = true) ∧
    (Solo (sBar barEmpty) u0 thR p [] ∧ (wBar barEmpty).bars[15]? = some barEmpty ∧ barEmpty.arr.getLsbD u0.tid = false ∧
      FreeOf (sBar barEmpty) .core ∧ barEmpty.e ≤ barEmpty.a + 1 ∧ barEmpty.e = 0) ∧
    (Solo (sBar barEarly) u0 thR p [] ∧ (wBar barEarly).bars[15]? = some barEarly ∧ barEarly.arr.getLsbD u0.tid = false ∧
      FreeOf (sBar barEarly) .core ∧ barEarly.a + 1 < barEarly.e ∧
      ∀ l ∈ barEarly.last, l.1 = u0.tid → l.2 ≠ barEarly.phase) ∧
    (Solo (sBar barLast) u0 thR p [] ∧ (wBar barLast).bars[15]? = some barLast ∧ barLast.arr.getLsbD u0.tid = false ∧
      FreeOf (sBar barLast) .core ∧ barLast.e ≤ barLast.a + 1 ∧
      ∀ v y, (sBar barLast).gpu.thread? v = some y → v.wg = u0.wg → y.status ≠ .parked (.barrier 15)) ∧
    (Solo (sBar barCame) u0 thR p [] ∧ (wBar barCame).bars[15]? = some barCame ∧ barCame.e ≠ 0 ∧ (u0.tid, barCame.phase) ∈ barCame.last ∧
      barCame.arr.getLsbD u0.tid = true ∧ thR.mode = .user) ∧
    (Solo sGang u0 (regsTh []) p ((SrcB.lit 0).span false) ∧ ∃ w l, sGang.gpu.wg? 0 = some w ∧ sGang.gpu.launch? w.launch = some l ∧
      l.gangs.find? (fun z => z.idx == ((regsTh []).srcW (.lit 0)).toNat) = some gang0 ∧ w.node = none ∧ w.index ∈ gang0.members ∧
      FreeOf sGang .dev ∧ gang0.arr.length + 1 < gang0.e) ∧
    (Solo (sBar (.start 3)) u0 thR p ((SrcB.lit 4).span false) ∧ thR.mode = .user ∧ (wBar (.start 3)).size < (thR.srcW (.lit 4)).toNat ∧
      (thR.srcW (.lit 0)).toNat = 0) ∧
    (Solo (sBar barCame) u0 thR p ((SrcB.lit 3).span false) ∧ (wBar barCame).bars[15]? = some barCame ∧ barCame.a ≠ 0 ∧ Unreserved (sBar barCame)) ∧
    (Solo sBusy u0 thR p ((SrcB.lit 3).span false) ∧ sBusy.gpu.wg? u0.wg = some (wBar (.start 3)) ∧ (Bar.start 3).a = 0 ∧
      sBusy.gpu.thread? ⟨0, 1⟩ = some { thR with status := .parked (.barrier 15) }) :=
  ⟨⟨by decide +kernel, by decide +kernel, unreserved_of (by decide +kernel), solo_of (by decide +kernel) rfl rfl rfl rfl _, by decide,
    by decide +kernel, rfl, of_threads (by decide +kernel)⟩,
   ⟨solo_of (by decide +kernel) rfl rfl rfl rfl _, by decide +kernel⟩, ⟨solo_of (by decide +kernel) rfl rfl rfl rfl _, by decide +kernel⟩,
   ⟨solo_of (by decide +kernel) rfl rfl rfl rfl _, by decide +kernel⟩,
   ⟨solo_of (by decide +kernel) rfl rfl rfl rfl _, by decide +kernel, by decide +kernel, by decide +kernel, by decide +kernel, of_threads (by decide +kernel)⟩,
   ⟨solo_of (by decide +kernel) rfl rfl rfl rfl _, by decide +kernel⟩,
   ⟨solo_of (by decide +kernel) rfl rfl rfl rfl _, (sGang.gpu.wg? 0).getD (loadWg 0), { loadLaunch with gangs := [gang0] }, by decide +kernel⟩,
   ⟨solo_of (by decide +kernel) rfl rfl rfl rfl _, by decide +kernel⟩,
   ⟨solo_of (by decide +kernel) rfl rfl rfl rfl _, by decide +kernel, by decide +kernel, unreserved_of (by decide +kernel)⟩,
   solo_of (by decide +kernel) rfl rfl rfl rfl _, by decide +kernel⟩

/-- r2:r3 is offset 64 of the scratchpad, which holds a transaction barrier. -/
def thT : Thread := regsTh [(2, 64), (3, 0xFF00)]
def sT (x : TBar) : State := tweak (one thT) fun g => g.modWg 0 fun w => Wg.setTbar { w with tbars := [4] } 4 x
def wT (x : TBar) : Wg := ((sT x).gpu.wg? 0).getD (loadWg 0)
theorem solo_sT (x : TBar) (h : calm (sT x) = true) (used : List Reg) : Solo (sT x) u0 thT p used := solo_of h rfl rfl rfl rfl used

/-- What the clauses share, for a barrier of these fields. -/
def AtTbar (x : TBar) : Prop :=
  (sT x).gpu.wg? u0.wg = some (wT x) ∧ thT.pair 2 = BitVec.ofNat 64 (0xFF0000000000 + 16 * 4) ∧ 16 * 4 + 16 ≤ (wT x).scratchLen ∧
  (wT x).scratchLen ≤ 2 ^ 24 ∧ (∀ y ∈ (sT x).gpu.wgs, y.id = u0.wg → y.tbars.contains 4 = true) ∧
  (∀ v y, (sT x).gpu.thread? v = some y → ∀ o pc wd, v.wg = u0.wg → y.status ≠ .parked (.tbar o pc wd)) ∧
  Solo (sT x) u0 thT p (Reg.run 2 2 ++ (SrcB.lit 65535).span false) ∧ Solo (sT x) u0 thT p (6 :: Reg.run 2 2) ∧ (wT x).tbar 4 = x

theorem atTbar_of {x : TBar} (h : calm (sT x) = true) (h2 : decide ((sT x).gpu.wgs.all fun y => y.id != 0 || y.tbars.contains 4) = true)
    (h3 : decide ((wT x).tbar 4 = x) = true) : AtTbar x := by
  refine ⟨rfl, rfl, ?_, ?_, fun y hy e => ?_, fun v y e o pc wd _ => ?_, solo_sT x h _, solo_sT x h _, of_decide_eq_true h3⟩
  · exact (by decide : 16 * 4 + 16 ≤ 65536)
  · exact (by decide : 65536 ≤ 2 ^ 24)
  · have := List.all_eq_true.1 (of_decide_eq_true h2) y hy
    rw [show y.id = 0 from e] at this
    simpa using this
  · have h : y.status = .active := of_threads (P := fun _ y => y.status = .active) rfl v y e
    rw [h]
    exact nofun

theorem witness_TransactionBarrierEvents :
    (AtTbar ⟨15, false, 1, 2, 0⟩ ∧ 0 < (thT.srcW (.lit 65535)).toNat ∧ (thT.srcW (.lit 65535)).toNat ≤ 65535 ∧
      0 + (thT.srcW (.lit 65535)).toNat ≤ 0xFFFFFF ∧ 15 = (thT.srcW (.lit 65535)).toNat % 16 ∧ 15 ≠ (thT.srcW (.lit 0)).toNat % 16 ∧
      (sT ⟨15, false, 1, 2, 0⟩).gpu.heldBack u0 = false ∧
      ((sT ⟨15, false, 1, 2, 0⟩).gpu.core ((sT ⟨15, false, 1, 2, 0⟩).gpu.env u0).core).fifo.any (fun e => e.t == u0) = false) ∧
    (AtTbar ⟨3, true, 2, 2, 7⟩ ∧ thT.mode = .user) ∧
    (Solo (asking (sT ⟨15, false, 1, 2, 0⟩)) u0 thT p (6 :: Reg.run 2 2) ∧ (asking (sT ⟨15, false, 1, 2, 0⟩)).gpu.heldBack u0 = true) :=
  ⟨⟨atTbar_of (by decide +kernel) (by decide +kernel) (by decide +kernel), by decide +kernel⟩,
   ⟨atTbar_of (by decide +kernel) (by decide +kernel) (by decide +kernel), rfl⟩, solo_of (by decide +kernel) rfl rfl rfl rfl _, by decide +kernel⟩

/-- r2:r3 is offset 0x100 of the scratchpad; the last four bytes of the scratchpad are reached with a displacement. -/
def thS : Thread := regsTh [(2, 0x100), (3, 0xFF00)]
def sS : State := one thS
theorem calm_sS : calm sS = true := by decide +kernel
theorem solo_sS (used : List Reg) : Solo sS u0 thS p used := solo_of calm_sS rfl rfl rfl rfl used

theorem witness_ScratchpadLoadsAndStores :
    (Solo sS u0 thS p (dataRegs 8 (accSize .b32 .x4) ++ Reg.run 2 2) ∧ InScratch sS u0 (thS.address 2 (.short 0)) 0x100 16 16 ∧
      NoBarrier sS u0 0x100 16) ∧
    (elemSize .s8 < 4 → Vec.x1 = .x1) ∧
    (InScratch sS u0 (thS.address 2 (.lit 0xFEFC)) 0xFFFC 4 4 ∧ NoBarrier sS u0 0xFFFC 4) ∧ Memory.wf ([] : Memory) = true :=
  ⟨⟨solo_sS _, inScratch_of (by decide +kernel), by unfold NoBarrier; decide +kernel⟩, fun _ => rfl, ⟨inScratch_of (by decide +kernel), by unfold NoBarrier; decide +kernel⟩, rfl⟩

/-- r2:r3 = 0x4010 in memory, mapped by the loaded page. -/
def thM : Thread := regsTh [(2, 0x4010), (3, 0)]
def sM : State := one thM
theorem calm_sM : calm sM = true := by decide +kernel
theorem solo_sM (used : List Reg) : Solo sM u0 thM p used := solo_of calm_sM rfl rfl rfl rfl used
theorem unreserved_sM : Unreserved sM := unreserved_of (by decide +kernel)

theorem witness_MemoryLoadsAndStores :
    Solo sM u0 thM p (dataRegs 8 (accSize .b32 .x4) ++ Reg.run 2 2) ∧ thM.address 2 (.short 0) = BitVec.ofNat 64 0x4010 ∧ Unreserved sM ∧
    Lies sM u0 .read 0x4010 16 loadLeaf ∧ Clean sM (loadLeaf.span 0x4010 16) ∧ Lies sM u0 .write 0x4010 16 loadLeaf ∧
    Acked sM u0 true .sys (fun g => g.looked u0 .write 0x4010) ∧
    (thM.address 2 (.lit 0x3FFFBFEE) = BitVec.ofNat 64 0x3FFFFFFE ∧ Lies sM u0 .write 0x3FFFFFFE 2 loadLeaf) :=
  ⟨solo_sM _, by decide, unreserved_sM, lies_of (by decide +kernel), by unfold Clean; decide +kernel, lies_of (by decide +kernel),
   by unfold Acked; decide +kernel, by decide, lies_of (by decide +kernel)⟩

/-- Two stores in the FIFO, and a line in L1. -/
def fifoE (b : Nat) (v : Byte) : FifoEntry :=
  { t := u0, pc := 0, word := 0, inst := 0, cells := [(⟨.dev, b⟩, v)], attr := loadLeaf.attr, bypass := false, res := false }
def gV : Gpu := (benchG [(u0, thM)] [u0]).modCore 0 fun c =>
  { c with fifo := [fifoE 0x4010 1, fifoE 0x4011 2], l1 := [{ key := ⟨.dev, 0x80⟩, data := 0, dirty := 0, filled := 0, dirtied := 0, bad := false, res := false, rank := 0 }] }

theorem witness_LoadedAndAtomicValues :
    ((gV.core 0).fifo = [] ++ fifoE 0x4010 1 :: [fifoE 0x4011 2] ∧ (fifoE 0x4010 1).t = u0 ∧ ((⟨.dev, 0x4010⟩ : Phys), (1 : Byte)) ∈ (fifoE 0x4010 1).cells ∧
      ((fifoE 0x4010 1).cells.map Prod.fst).Nodup ∧ ∀ f ∈ [fifoE 0x4011 2], f.t = u0 → ∀ x ∈ f.cells, x.1 ≠ ⟨.dev, 0x4010⟩) ∧
    ((∀ e ∈ (gV.core 0).fifo, e.t = u0 → ∀ x ∈ e.cells, x.1 ≠ ⟨.dev, 0x8000⟩) ∧ ∀ x ∈ (gV.core 0).l1, x.key ≠ Phys.line ⟨.dev, 0x8000⟩) ∧
    ((∀ e ∈ (gV.core 0).fifo, e.t = u0 → ∀ x ∈ e.cells, x.1 ≠ ⟨.dev, 0x4012⟩) ∧ ∃ x, (gV.core 0).l1 = [x] ∧ x.key = Phys.line ⟨.dev, 0x4012⟩ ∧
      x.dirty.getLsbD (0x4012 % 128) = false) ∧
    isAbandoned ((0x3F800000 : DWord).setWidth 32) = false ∧ isAbandoned ((0x7FA00011 : DWord).setWidth 32) = true :=
  ⟨by decide +kernel, by decide +kernel, ⟨by decide +kernel, _, rfl, by decide +kernel⟩, by decide, by decide⟩

theorem witness_AtomicsAndReservations :
    (thS.count .xch < 63 ∧ Unreserved sS ∧ Solo sS u0 thS p (Reg.span 8 true ++ Reg.run 2 2 ++ (SrcB.reg 6).span true) ∧
      isAbandoned (thS.srcW (.reg 6)) = false ∧ InScratch sS u0 (thS.pair 2) 0x100 8 8 ∧ NoBarrier sS u0 0x100 8 ∧
      fpeTraps (sS.gpu.env u0) thS (atomV .add .f32 false false (leWord ((List.range 4).map fun i => sS.scratchAt u0 (0x100 + i))) 0 0).2 = false) ∧
    (thM.count .xch < 63 ∧ Unreserved sM ∧ Solo sM u0 thM p (Reg.run 2 2 ++ (SrcB.reg 6).span true) ∧ thM.pair 2 = BitVec.ofNat 64 0x4010 ∧
      Lies sM u0 .atomic 0x4010 8 loadLeaf ∧ 0x4010 % 8 = 0 ∧ Clean sM (loadLeaf.span 0x4010 8) ∧
      (∀ k, loadLeaf.base.sp ≠ .host k) ∧ Acked sM u0 true .sys (fun g => g.looked u0 .atomic 0x4010)) ∧
    (thM.mode = .user ∧ ∃ s, Solo s u0 thM p (Reg.run 2 2 ++ (SrcB.reg 6).span false) ∧
      Lies s u0 .atomic 0x4010 4 { loadLeaf with base := ⟨.host 0, 0⟩ }) ∧
    (Solo sM u0 thM p (Reg.span 8 true ++ Reg.run 2 2) ∧ Lies sM u0 .read 0x4010 8 loadLeaf ∧
      (sM.gpu.looked u0 .read 0x4010).homeWait (sM.gpu.env u0).core u0 (loadLeaf.span 0x4010 8) = none) ∧ Solo sM u0 thM p (8 :: Reg.run 2 2 ++ (SrcB.reg 6).span true) :=
  ⟨⟨by decide, unreserved_of (by decide +kernel), solo_sS _, by decide, inScratch_of (by decide +kernel), by unfold NoBarrier; decide +kernel, by decide +kernel⟩,
   ⟨by decide, unreserved_sM, solo_sM _, by decide, lies_of (by decide +kernel), rfl, by unfold Clean; decide +kernel, nofun,
    by unfold Acked; decide +kernel⟩,
   ⟨rfl, tweak sM fun g => g.modCore 0 fun c => { c with tlb := [{ asid := 0, vpn := 0, leaf := { loadLeaf with base := ⟨.host 0, 0⟩ } }] },
    solo_of (by decide +kernel) rfl rfl rfl rfl _, lies_of (by decide +kernel)⟩,
   ⟨solo_sM _, lies_of (by decide +kernel), by decide +kernel⟩, solo_sM _⟩

/-- The thread holds a reservation of the line of 0x4010, at its last cycle. -/
def thL : Thread := { thM with resv := some ⟨⟨.dev, 0x80⟩, 0⟩ }
def sL : State := { one thL with clk := { State.reset.clk with cyc := 4095 } }

theorem witness_StoreConditionalSucceeds :
    Solo sL u0 thL p (8 :: Reg.run 2 2 ++ (SrcB.reg 6).span true) ∧ thL.count .xch < 63 ∧ thL.pair 2 = BitVec.ofNat 64 0x4010 ∧ 0x4010 % 8 = 0 ∧
    Lies sL u0 .atomic 0x4010 8 loadLeaf ∧ (∀ k, loadLeaf.base.sp ≠ .host k) ∧ loadLeaf.cache ≠ 2 ∧
    (sL.gpu.core (sL.gpu.env u0).core).fifo = [] ∧ (∀ x ∈ (sL.gpu.core (sL.gpu.env u0).core).l1, x.dirty = 0) ∧
    thL.resv = some ⟨⟨.dev, 0x80⟩, 0⟩ ∧ (⟨.dev, 0x80⟩ : LineKey) = (loadLeaf.phys 0x4010).line ∧ sL.clk.cyc < 0 + 4096 ∧
    ∀ v x, v ≠ u0 → sL.gpu.thread? v = some x → x.resv = none :=
  ⟨solo_of (by decide +kernel) rfl rfl rfl rfl _, by decide, by decide, rfl, lies_of (by decide +kernel), nofun, by decide, rfl,
   by decide +kernel, rfl, by decide, by decide,
   fun v x hv e => of_threads (P := fun v x => v ≠ u0 → x.resv = none) (by decide +kernel) v x e hv⟩

/-- A thread in trap mode. -/
def thX : Thread := { thM with mode := .trap }

theorem except_ok {ε α : Type} [DecidableEq α] {x : Except ε α} {a : α} (h : decide (x.toOption = some a) = true) : x = .ok a := by
  have h := of_decide_eq_true h
  obtain e | y := x
  · exact absurd h (by simp [Except.toOption])
  · exact congrArg _ (by simpa [Except.toOption] using h)
theorem except_error {ε α : Type} {x : Except ε α} (h : x.toOption.isNone = true) : ∃ e, x = .error e := by
  obtain e | y := x
  · exact ⟨e, rfl⟩
  · exact absurd h (by simp [Except.toOption])

/-- No release of the thread waits for a way in L2. -/
abbrev FreeWays (s : State) : Prop := ∀ sc, s.gpu.releaseWait (s.gpu.env u0).core u0 sc = none
/-- A store of the thread to a peer is not acknowledged. -/
def sOwes : State := tweak sM fun g =>
  { g with fabric := { g.fabric with conns := [⟨0, 0, 9, 0, 3, 0, [⟨0, .write 0x100 [1], none, some (u0, 0, 0), 0⟩], 0, 0, false, false⟩] } }

/-- The thread's FIFO holds a store to a line whose home set has one way, which a dirty line of a compressed page holds. -/
def fullLine : L2Line := { key := ⟨.comp 0, 0x80⟩, part := 0, data := 0, res := false, pin := some 0 }
def fifoM : FifoEntry :=
  { t := u0, pc := 0, word := 0, inst := 0, cells := [(⟨.dev, 0x4010⟩, 1)], attr := loadLeaf.attr, bypass := false, res := false }
def fill (s : State) : State := tweak s fun g =>
  { (g.modPart 0 fun p => { p with entry := { p.entry with ways := 1 } }) with mem := { g.mem with l2 := [fullLine] } }
def sFull : State := tweak (fill sM) fun g => g.modCore 0 fun c => { c with fifo := [fifoM] }
theorem noWay_of {g : Gpu} (h1 : (g.mem.l2.filter fun l => l.part == g.lineOwner ⟨.dev, 0x80⟩ && g.homeOf l.key == g.homeOf ⟨.dev, 0x80⟩) = [fullLine])
    (h2 : ((g.part? (g.lineOwner ⟨.dev, 0x80⟩)).map fun p => p.entry.wayCount).getD 16 = 1) (h3 : g.mem.l2 = [fullLine]) : g.noWay ⟨.dev, 0x80⟩ = true := by
  rw [Gpu.noWay, h1, h2, h3]
  simp [fullLine]
theorem lineWait_of {g : Gpu} (h1 : g.mem.l2.isEmpty = false) (h2 : g.noWay ⟨.dev, 0x80⟩ = true) {ks : List LineKey} :
    g.lineWait (⟨.dev, 0x80⟩ :: ks) = some ⟨.dev, 0x80⟩ := by simp [Gpu.lineWait, h1, h2]
theorem full_sFull : sFull.gpu.releaseWait (sFull.gpu.env u0).core u0 .core = some ⟨.dev, 0x80⟩ :=
  lineWait_of (ks := []) rfl (noWay_of (by decide +kernel) (by decide +kernel) rfl)

theorem witness_FencesPrefetchAndInvalidation :
    (Unreserved sM ∧ Solo sM u0 thM p [] ∧ thM.count .gath ≤ (0 : BitVec 6).toNat ∧ sM.gpu.heldBack u0 = false ∧ Acked sM u0 true .sys id ∧ p.sw = false) ∧
    (Unreserved (asking sM) ∧ Solo (asking sM) u0 thM p [] ∧ ((asking sM).gpu.remoteRead u0).isSome = true ∧ FreeWays (asking sM) ∧
      Solo (asking sM) u0 thM p (dataRegs 8 (accSize .b32 .x4) ++ Reg.run 2 2) ∧ (asking sM).gpu.heldBack u0 = true ∧
      thM.address 2 (.short 0) = BitVec.ofNat 64 0x4010 ∧ Fits (asking sM) u0 .read 0x4010 (accSize .b32 .x4) loadLeaf ∧
      Fits (asking sM) u0 .write 0x4010 (accSize .b32 .x4) loadLeaf) ∧
    (Unreserved sOwes ∧ Solo sOwes u0 thM p [] ∧ FreeWays sOwes ∧
      (sOwes.onGpu fun g => (g.drain (sOwes.gpu.env u0).core u0).cleanL1 (sOwes.gpu.env u0).core).gpu.owesAck u0 = true) ∧
    (Unreserved sFull ∧ Solo sFull u0 thM p [] ∧ sFull.gpu.releaseWait (sFull.gpu.env u0).core u0 .core = some ⟨.dev, 0x80⟩) ∧
    (∃ th, Solo (one th) u0 th p [] ∧ (63 : BitVec 6).toNat < th.count .gath) ∧
    (Solo (one thX) u0 thX p (Reg.run 2 2) ∧ thX.mode = .trap ∧ thX.pair 2 = BitVec.ofNat 64 0x4010 ∧
      (one thX).gpu.ctx? ((one thX).gpu.env u0).ctx = some loadCtx ∧ (one thX).gpu.heldBack u0 = false ∧ Acked (one thX) u0 true .sys id) ∧
    (let th := { thS with mode := .trap }
     Unreserved (one th) ∧ Solo (one th) u0 th p (Reg.run 2 2) ∧ th.pair 2 = BitVec.ofNat 64 0xFF0000000100 ∧ (one th).gpu.heldBack u0 = false ∧
      Acked (one th) u0 true .sys id) ∧
    (Unreserved sS ∧ Solo sS u0 thS p (Reg.run 2 2) ∧ 0xFF0000000000 ≤ (thS.address 2 (.short 0)).toNat) ∧ Solo sM u0 thM p (Reg.run 2 2) ∧
    ((thM.address 2 (.short 0)).toNat < 0xFF0000000000 ∧ sM.gpu.ctx? (sM.gpu.env u0).ctx = some loadCtx ∧
      (sM.gpu.translate (sM.gpu.env u0).core loadCtx .read (thM.address 2 (.short 0)).toNat).2 = .ok loadLeaf ∧ (∀ e k, loadLeaf.base.sp ≠ .peer e k) ∧
      loadLeaf.cache = 0 ∧ (sM.gpu.looked u0 .read 0x4010).fillWait (sM.gpu.env u0).core false [loadLeaf.phys 0x4010] = none) ∧
    ∃ th, Solo (one th) u0 th p (Reg.run 2 2) ∧ ∃ f, ((one th).gpu.translate ((one th).gpu.env u0).core loadCtx .read (th.address 2 (.short 0)).toNat).2 = .error f :=
  ⟨⟨unreserved_sM, solo_sM _, by decide, by decide +kernel, by unfold Acked; decide +kernel, rfl⟩,
   ⟨unreserved_of (by decide +kernel), solo_of (by decide +kernel) rfl rfl rfl rfl _, by decide +kernel, fun sc => by cases sc <;> decide +kernel,
    solo_of (by decide +kernel) rfl rfl rfl rfl _, by decide +kernel, by decide, fits_of (by decide +kernel), fits_of (by decide +kernel)⟩,
   ⟨unreserved_of (by decide +kernel), solo_of (by decide +kernel) rfl rfl rfl rfl _, fun sc => by cases sc <;> decide +kernel, by decide +kernel⟩,
   ⟨unreserved_of (by decide +kernel), solo_of (by decide +kernel) rfl rfl rfl rfl _, full_sFull⟩,
   ⟨{ thM with outst := List.replicate 64 ⟨.gath, 5, false, 0⟩ }, solo_of (by decide +kernel) rfl rfl rfl rfl _, by decide +kernel⟩,
   ⟨solo_of (by decide +kernel) rfl rfl rfl rfl _, rfl, by decide +kernel, by decide +kernel, by decide +kernel, by unfold Acked; decide +kernel⟩,
   ⟨unreserved_of (by decide +kernel), solo_of (by decide +kernel) rfl rfl rfl rfl _, by decide +kernel, by decide +kernel, by unfold Acked; decide +kernel⟩,
   ⟨unreserved_of (by decide +kernel), solo_sS _, by decide⟩, solo_sM _,
   ⟨by decide, by decide +kernel, except_ok (by decide +kernel), nofun, rfl, by decide +kernel⟩, regsTh [(2, 0x4010), (3, 5)], solo_of (by decide +kernel) rfl rfl rfl rfl _, except_error (by decide +kernel)⟩

theorem held_mem {s : State} {u : TRef} {acc : Access} {al va size : Nat} {l : Leaf} {c : Ctx} (h1 : va % al = 0) (h2 : Lies s u acc va size l)
    (h3 : s.gpu.ctx? (s.gpu.env u).ctx = some c) (h4 : tlbHit (s.gpu.core (s.gpu.env u).core).tlb c.asid va = some l) {a : DWord}
    (h5 : a = BitVec.ofNat 64 va) : AllHeld s u acc al [(a, size)] [(va / 2 ^ l.log * 2 ^ l.log, l)] :=
  ⟨[[(va / 2 ^ l.log * 2 ^ l.log, l)]], .cons (.inr ⟨va, l, c, h5, h1, h2, h3, h4, rfl⟩) .nil, rfl⟩

theorem held_scratch {s : State} {u : TRef} {acc : Access} {al off size : Nat} {a : DWord} (h : InScratch s u a off size al) :
    AllHeld s u acc al [(a, size)] [] := ⟨[[]], .cons (.inl ⟨off, h, rfl⟩) .nil, rfl⟩

/-- r2:r3 is in memory, r4:r5 in the scratchpad; r6 = 64 bytes; r8 to r11 are one row; r12 is the barrier's offset, then the endpoint. -/
def thC : Thread := regsTh [(2, 0x4000), (3, 0), (4, 0x200), (5, 0xFF00), (6, 64), (8, 64), (9, 1), (12, 0x100), (14, 0), (16, 0x200)]
/-- A connection to endpoint 0, whose entry stands at 0x6000; a gang of the one workgroup. -/
def sC : State := tweak (one thC) fun g =>
  { g with
    ctxs := [{ loadCtx with eptab := 0x6000, nept := 1 }]
    launches := [{ loadLaunch with gangs := [gang0] }]
    fabric := { g.fabric with conns := [⟨0, 0, 9, 0, 3, 0, [], 0, 0, false, false⟩] }
    mem := { g.mem.setDevBytes 0x6000 [9, 0, 3, 0, 0x80, 0, 0, 0, 3] with hubtlb := [{ asid := 0, vpn := 0, leaf := loadLeaf }] } }
theorem calm_sC : calm sC = true := by decide +kernel
theorem solo_sC (used : List Reg) : Solo sC u0 thC p used := solo_of calm_sC rfl rfl rfl rfl used
theorem read_sC : AllHeld sC u0 .read 4 [(thC.pair 2, 64)] [(0, loadLeaf)] :=
  held_mem (va := 0x4000) (l := loadLeaf) (c := { loadCtx with eptab := 0x6000, nept := 1 }) rfl (lies_of (by decide +kernel)) rfl (by decide +kernel) (by decide)

theorem witness_GathersScattersAndCopiesStart :
    (Unreserved sC ∧ Solo sC u0 thC p (dataRegs 20 (1 * 4) ++ Reg.run 2 2 ++ Reg.run 14 1) ∧ thC.count .gath < 63 ∧ Acked sC u0 true .sys id ∧
      AllHeld sC u0 .read 4 [(thC.pair 2 + BitVec.ofInt 64 (((thC.reg 14).toNat : Int) * 2 ^ 2), 4)] [(0, loadLeaf)] ∧
      AllHeld sC u0 .write 4 [(thC.pair 2 + BitVec.ofInt 64 ((thC.reg 14).toInt * 2 ^ 2), 4)] [(0, loadLeaf)]) ∧
    (thC.count .copy < 63 ∧ Solo sC u0 thC p (Reg.run 4 2 ++ Reg.run 2 2 ++ [12] ++ (SrcB.reg 6).span false) ∧
      (Shape.rows 64 1 0 0).ok false = true ∧ AllHeld sC u0 .read 4 ((Shape.rows 64 1 0 0).sources (thC.pair 2)) [(0, loadLeaf)] ∧
      AllHeld sC u0 .write 4 ((Shape.rows 64 1 0 0).dests (thC.pair 4)) [] ∧
      InScratch sC u0 (BitVec.ofNat 64 (0xFF0000000000 + 0x100)) 0x100 16 16) ∧
    ((thC.srcW (.lit 16)).toNat / 2 ^ 24 = 0 ∧ (Shape.widen 16 0).ok false = true) ∧
    (Solo sC u0 thC p (Reg.run 4 2 ++ Reg.run 2 2 ++ [] ++ Reg.run 8 4) ∧ (Shape.rows 64 1 0 0).ok true = true) ∧
    (∃ cx, sC.gpu.ctx? (sC.gpu.env u0).ctx = some cx ∧ (thC.pair 4).toNat % 4 = 0 ∧ (thC.reg 14).toNat / 2 ^ 16 = 0 ∧
      sC.gpu.connected cx ((thC.reg 14).toNat % 2 ^ 16) = true) ∧
    (Solo sC u0 thC p (Reg.run 16 2 ++ Reg.run 2 2 ++ (SrcB.reg 6).span false) ∧ ∃ w l v, sC.gpu.wg? u0.wg = some w ∧ w.node = none ∧
      sC.gpu.launch? w.launch = some l ∧ gang0 ∈ l.gangs ∧ w.index ∈ gang0.members ∧ (thC.reg 17).toNat ∈ gang0.members ∧
      sC.gpu.wgs.find? (fun y => y.launch == w.launch && y.node.isNone && y.index == (thC.reg 17).toNat && y.core?.isSome) = some v ∧
      v.place = .core 0 ∧ (thC.reg 16).toNat % 4 = 0 ∧ (thC.reg 16).toNat + 64 ≤ v.scratchLen ∧ v.scratchLen ≤ 2 ^ 24) :=
  ⟨⟨unreserved_of (by decide +kernel), solo_sC _, by decide, by unfold Acked; decide +kernel,
    held_mem (va := 0x4000) (l := loadLeaf) (c := { loadCtx with eptab := 0x6000, nept := 1 }) rfl (lies_of (by decide +kernel)) rfl (by decide +kernel) (by decide),
    held_mem (va := 0x4000) (l := loadLeaf) (c := { loadCtx with eptab := 0x6000, nept := 1 }) rfl (lies_of (by decide +kernel)) rfl (by decide +kernel) (by decide)⟩,
   ⟨by decide, solo_sC _, by decide, by rw [show Shape.sources _ _ = [(thC.pair 2, 64)] by decide +kernel]; exact read_sC,
    by rw [show Shape.dests _ _ = [(thC.pair 4, 64)] by decide +kernel]; exact held_scratch (off := 0x200) (inScratch_of (by decide +kernel)),
    inScratch_of (by decide +kernel)⟩,
   by decide, ⟨solo_sC _, by decide⟩, ⟨_, rfl, by decide +kernel⟩,
   solo_sC _, (sC.gpu.wg? 0).getD (loadWg 0), { loadLaunch with gangs := [gang0] }, (sC.gpu.wg? 0).getD (loadWg 0), by decide +kernel⟩

/-- r6 names node 1, which the root grid and node 0 may spawn; the general part of the pool has three records, or none, and the reserve one. -/
def thP : Thread := regsTh [(6, 1)]
def sP (free : List Nat) : State := tweak (one thP) fun g =>
  { g with launches := [{ loadLaunch with
      desc := { loadLaunch.desc with pooln := 4, rootsucc := 2 }, general := free, reserve := [(1, [1])], nodes := [⟨0, 2, 32, 0, 0, 0, 1, 2⟩, ⟨0x4000, 2, 32, 0, 0, 0, 1, 0⟩],
      packs := [⟨[], 0, 0, 0⟩, ⟨[], 0, 0, 0⟩] }] }
def lP (free : List Nat) : Launch := (sP free).gpu.launches.headD loadLaunch

theorem witness_SpawnsTakeRecordsOrPark :
    (Solo (sP [0, 2, 3]) u0 thP p (Reg.run 8 16 ++ (SrcB.reg 6).span false) ∧ Unreserved (sP [0, 2, 3]) ∧ (64 : BitVec 7).toNat ≤ 64 ∧
      (8 : Reg).toNat + 16 ≤ 256 ∧ (∃ w, (sP [0, 2, 3]).gpu.wg? u0.wg = some w ∧ (sP [0, 2, 3]).gpu.launch? w.launch = some (lP [0, 2, 3]) ∧ w.node = none) ∧
      (thP.srcW (.reg 6)).toNat < 64 ∧ (lP [0, 2, 3]).desc.rootsucc.getLsbD 1 = true ∧ FreeOf (sP [0, 2, 3]) .dev ∧
      (lP [0, 2, 3]).general ≠ []) ∧
    (let s := tweak (sP []) fun g => g.modWg 0 fun w => { w with node := some 0 }
     Solo s u0 thP p (Reg.run 8 16 ++ (SrcB.reg 6).span false) ∧ Unreserved s ∧ FreeOf s .dev ∧
      (∃ w, s.gpu.wg? u0.wg = some w ∧ s.gpu.launch? w.launch = some (lP []) ∧ w.node = some 0) ∧
      (((lP []).nodes[0]?.map Node.succ).getD 0).getLsbD 1 = true ∧ ((lP []).reserve.find? fun x => x.1 == 1).map (·.2) = some [1]) ∧
    (Solo (sP []) u0 thP p (Reg.run 8 16 ++ (SrcB.reg 6).span false) ∧ Unreserved (sP []) ∧
      (∃ w, (sP []).gpu.wg? u0.wg = some w ∧ (sP []).gpu.launch? w.launch = some (lP []) ∧ w.node = none) ∧
      FreeOf (sP []) .dev ∧ (lP []).desc.rootsucc.getLsbD 1 = true ∧ (lP []).general = []) ∧
    (Solo (sP []) u0 thP p (Reg.run 240 16 ++ (SrcB.lit 2).span false) ∧ (240 : Reg).toNat + 16 ≤ 256 ∧ thP.mode = .user ∧
      64 ≤ (thP.srcW (.lit 64)).toNat ∧ (lP []).desc.rootsucc.getLsbD (thP.srcW (.lit 2)).toNat = false ∧ 64 < (65 : BitVec 7).toNat ∧
      (62 : BitVec 7).toNat % 4 ≠ 0) :=
  ⟨⟨solo_of (by decide +kernel) rfl rfl rfl rfl _, unreserved_of (by decide +kernel), by decide, by decide, ⟨_, rfl, rfl, rfl⟩, by decide +kernel⟩,
   ⟨solo_of (by decide +kernel) rfl rfl rfl rfl _, unreserved_of (by decide +kernel), by decide +kernel, ⟨_, rfl, rfl, rfl⟩, by decide +kernel⟩,
   ⟨solo_of (by decide +kernel) rfl rfl rfl rfl _, unreserved_of (by decide +kernel), ⟨_, rfl, rfl, rfl⟩, by decide +kernel, by decide +kernel, rfl⟩,
   solo_of (by decide +kernel) rfl rfl rfl rfl _, by decide +kernel⟩

theorem witness_DualWordsReadThenWrite :
    let h1 : Half := ⟨.iadd, ⟨7, false⟩, 4, 9, 0⟩
    let h2 : Half := ⟨.fmul, ⟨7, false⟩, 2, 3, 0⟩
    Settled s1 true ∧ (∀ u ∈ s1.members, overRange (s1.gpu.env u).regs (h1.regs ++ h2.regs) = false) ∧
    ∀ u ∈ s1.members, ∀ th, s1.gpu.thread? u = some th → ∀ h ∈ [h1, h2].filter (fun h => h.op == .nop || th.guard h.g),
      th.pendingAmong h.regs = none ∧ (∀ w ∈ halfF32 h (th.reg h.hd) (th.reg h.ha), isAbandoned w = false) ∧
      fpeTraps (s1.gpu.env u) th (halfValue h (s1.gpu.env u).ftz (th.reg h.hd) (th.reg h.ha)).2 = false := by
  refine ⟨settled_of calm_s1 _, by decide +kernel, fun u hu th ht h hh => ?_⟩
  obtain rfl : u = u0 := by simpa using (show u ∈ [u0] from hu)
  obtain rfl : th1 = th := Option.some.inj ht
  have k : ∀ h ∈ ([⟨.iadd, ⟨7, false⟩, 4, 9, 0⟩, ⟨.fmul, ⟨7, false⟩, 2, 3, 0⟩] : List Half), th1.pendingAmong h.regs = none ∧
      ((halfF32 h (th1.reg h.hd) (th1.reg h.ha)).all fun w => !isAbandoned w) = true ∧
      fpeTraps (s1.gpu.env u0) th1 (halfValue h (s1.gpu.env u0).ftz (th1.reg h.hd) (th1.reg h.ha)).2 = false := by
    intro h hh
    fin_cases hh <;> decide +kernel
  have := k h (List.mem_of_mem_filter hh)
  exact ⟨this.1, fun w hw => by simpa using List.all_eq_true.1 this.2.1 w hw, this.2.2⟩

/-! ### A team about to issue an array, verdict or engine word -/

def lanes4 : List TRef := [⟨0, 0⟩, ⟨0, 1⟩, ⟨0, 2⟩, ⟨0, 3⟩]
/-- Four lanes of these registers, in a workgroup that `f` changes. -/
def sArr (rs : Regs) (f : Wg → Wg) : State := tweak (bench (lanes4.map fun t => (t, regsTh rs)) lanes4) fun g => g.modWg 0 f
def wArr (rs : Regs) (f : Wg → Wg) : Wg := ((sArr rs f).gpu.wg? 0).getD (loadWg 0)

def teamB (s : State) : Bool :=
  calm s && !s.members.isEmpty && (s.members.all fun t => t.wg == 0 && t.team == 0 && (s.gpu.thread? t).isSome) &&
  sameSet (sortLanes s.members) (s.gpu.liveSet 0 0)
theorem teamB_of {s : State} {p : Pfx} (h : teamB s = true) (used : List Reg) (all : Bool) : TeamIssuing s 0 0 p used all := by
  simp only [teamB, Bool.and_eq_true, Bool.not_eq_true'] at h
  exact team_of h.1.1.1 (by simpa using h.1.1.2) h.1.2 h.2 used all

def arrB (s : State) (p : Pfx) (w : Wg) (core : Nat) : Bool :=
  teamB s && decide (s.gpu.wg? 0 = some w) && decide (w.place = .core core) && !(s.on p).isEmpty && (s.on p).all fun x => decide (x.2.count .arr < 63)
theorem array_of {s : State} {p : Pfx} {w : Wg} {core : Nat} (h : arrB s p w core = true) (used : List Reg) : ArrayIssuing s 0 0 p used w core := by
  simp only [arrB, Bool.and_eq_true, decide_eq_true_eq, Bool.not_eq_true'] at h
  exact ⟨teamB_of h.1.1.1.1 _ _, h.1.1.1.2, h.1.1.2, by simpa using h.1.2, fun x hx => of_decide_eq_true (List.all_eq_true.1 h.2 x hx)⟩

def freeB (s : State) (w : Wg) (core : Nat) (reads : List (Nat × Nat × Nat)) : Bool :=
  (s.gpu.arrOps core).isEmpty && reads.all fun e => !isAbandoned (w.elem e.1 e.2.1 e.2.2)
theorem free_of {s : State} {w : Wg} {core : Nat} {reads : List (Nat × Nat × Nat)} (h : freeB s w core reads = true) : ArrayFree s w core reads := by
  simp only [freeB, Bool.and_eq_true, List.isEmpty_iff] at h
  refine ⟨fun x hx => ?_, fun e he => by simpa using List.all_eq_true.1 h.2 e he⟩
  rw [h.1] at hx
  exact absurd hx (by simp)

def grantB (s : State) (w : Wg) (demand : Nat) : Bool :=
  ((s.gpu.launch? w.launch).any fun l => decide (demand ≤ l.desc.power)) &&
  (w.teams[0]?).any fun x => x.grant.any fun g => decide (demand ≤ g.cls) && decide (s.clk.cyc < g.till)
theorem granted_of {s : State} {w : Wg} {demand : Nat} (h : grantB s w demand = true) : Granted s w 0 demand := by
  simp only [grantB, Bool.and_eq_true, Option.any_eq_true, decide_eq_true_eq] at h
  obtain ⟨⟨l, h1, h2⟩, x, h3, g, h4, h5, h6⟩ := h
  exact ⟨⟨l, h1, h2⟩, x, g, h3, h4, h5, h6⟩

theorem placed_mem {s : State} {u : TRef} {acc : Access} {al va size : Nat} {l : Leaf} (h1 : va % al = 0) (h2 : liesB s u acc va size l = true)
    {a : DWord} (h3 : a = BitVec.ofNat 64 va) :
    Placed s u acc al a size [(va / 2 ^ l.log * 2 ^ l.log, l)] (fun g => g.looked u acc va) :=
  .inr ⟨va, l, h3, h1, lies_of h2, rfl, rfl⟩
theorem placed_scratch {s : State} {u : TRef} {acc : Access} {al off size : Nat} {a : DWord} (h : scratchB s u a off size al = true) :
    Placed s u acc al a size [] id := .inl ⟨off, inScratch_of h, rfl, rfl⟩

/-- Tiles 2, 5 and 7 as a0 to a2 of a workgroup that declares two; its team holds a grant of class 7. -/
def held3 (w : Wg) : Wg :=
  { w with tilesDecl := 2, tmap := [2, 5, 7], teams := w.teams.map fun t => { t with grant := some ⟨7, 100000, 1⟩ } }
def rsA : Regs := [(2, 0x4000), (4, 0x400), (5, 0xFF00), (6, 0x55), (7, 0xFFFFFFFF), (8, 4), (9, 60), (10, 62)] ++ (List.range 16).map fun i => (16 + i, 0x44444444)
def sA : State := sArr rsA held3
def wA : Wg := wArr rsA held3
theorem arr_sA (used : List Reg) : ArrayIssuing sA 0 0 p used wA 0 := array_of (by decide +kernel) used
def elA : Thread := regsTh rsA
theorem el_sA : (sA.on p).head? = some (u0, elA) := by decide +kernel

theorem witness_TileRequests :
    (ArrayIssuing sA 0 0 p (20 :: (SrcB.lit 2).span false) wA 0 ∧ ArrayIssuing sA 0 0 p (20 :: (SrcB.lit 64).span false) wA 0 ∧ wA.tmap.length ≤ 64) ∧
    ((wA.tilesDecl ≤ 2 ∧ 2 ≤ 64) ∧ 2 ≤ wA.tmap.length) ∧ ((wA.tilesDecl ≤ 64 ∧ 64 ≤ 64) ∧ 64 - wA.tmap.length ≤ sA.gpu.freeTiles 0) ∧
    ¬ (wA.tilesDecl ≤ 65 ∧ 65 ≤ 64) ∧ ¬ (wA.tilesDecl ≤ 1 ∧ 1 ≤ 64) ∧
    wA.tmap.length + 61 ≤ 64 ∧ ¬ wA.tmap.length + 62 ≤ 64 ∧ 1 + wA.tilesDecl ≤ wA.tmap.length ∧ ¬ 2 + wA.tilesDecl ≤ wA.tmap.length ∧
    (∃ g : Gpu, g.wg? 0 = some wA ∧ Store.wf 0 wA.tiles = true ∧ 2 < 64 ∧ 2 < wA.tmap.length ∧ 255 < 256 ∧ wA.tmap[2]? = some 7) :=
  ⟨⟨arr_sA _, arr_sA _, by decide⟩, by decide +kernel, by decide +kernel, by decide +kernel, by decide +kernel, by decide +kernel,
   by decide +kernel, by decide +kernel, by decide +kernel, sA.gpu, by decide +kernel⟩

/-- The f16 format word 0x55 of rsA. -/
def fwH : Fmw := ⟨0, 0, 0, .f16, .f16, 0x55⟩
/-- A team that holds a latch of this height. -/
def latched (tall : Bool) (w : Wg) : Wg := { held3 w with teams := (held3 w).teams.map fun t => { t with latch := some ⟨tall, [[1]]⟩ } }
theorem witness_ArrayInstructionsIssue :
    (wA.tmap[(0 : TileNo).toNat]? = some 2 ∧ (sA.on p).head? = some (u0, elA) ∧ ArrayIssuing sA 0 0 p [] wA 0 ∧ ArrayFree sA wA 0 []) ∧
    (ArrayIssuing sA 0 0 p (Reg.run 2 2) wA 0 ∧
      Placed sA u0 .read 64 (elA.pair 2) (256 * widthOf .f32 / 8) [(0, loadLeaf)] (fun g => g.looked u0 .read 0x4000) ∧
      Placed sA u0 .write 64 (elA.pair 2) (256 * widthOf .f32 / 8) [(0, loadLeaf)] (fun g => g.looked u0 .write 0x4000) ∧
      Placed sA u0 .write 64 (elA.pair 4) (256 * widthOf .f16 / 8) [] id ∧ ArrayFree sA wA 0 (wholeTile 2)) ∧
    (wA.tmap[(0 : TileNo).toNat + 1]? = some 5 ∧ ArrayIssuing sA 0 0 p (Reg.run 254 2) wA 0 ∧ ArrayIssuing sA 0 0 p (Reg.run 20 8) wA 0) ∧
    (fmwOf fwH.word = some fwH ∧ (∀ x ∈ sA.on p, x.2.reg 6 = fwH.word) ∧
      ArrayIssuing sA 0 0 p (Reg.run 16 8 ++ (SrcB.reg 4).span false ++ [6]) wA 0 ∧ ArrayIssuing sA 0 0 p (Reg.run 16 16 ++ (SrcB.reg 4).span false ++ [6]) wA 0 ∧
      (0 % 2 = 0 ∧ (sA.gpu.core (0 + 1)).arrq = []) ∧ ArrayFree sA wA 0 ([2, 5].flatMap wholeTile) ∧ Granted sA wA 0 (fwH.demand true) ∧
      (elA.srcW (.reg 4)).toNat % 64 = 0 ∧ (elA.srcW (.reg 4)).toNat + 2048 ≤ wA.scratchLen ∧
      (let rows := (List.range 32).map fun l => (((sA.on p).find? fun x => x.1.lane == l).map fun x => x.2.regsFrom 16 16).getD []
       ∀ r ∈ rows, badGroups fwH.depth (r.take 8) = false ∧ badGroups fwH.depth (r.drop 8) = false)) ∧
    ((∃ x, wA.teams[0]? = some x ∧ x.latch = none) ∧ (∃ x l, (wArr rsA (latched true)).teams[0]? = some x ∧ x.latch = some l ∧ l.tall = true) ∧
      ArrayIssuing (sArr rsA (latched true)) 0 0 p (Reg.run 16 16 ++ (SrcB.reg 4).span false ++ [6]) (wArr rsA (latched true)) 0) ∧
    (Solo (one loadThread) u0 loadThread p [] ∧ loadThread.mode = .user ∧ (one loadThread).gpu.wg? 0 = some (loadWg 0) ∧
      (loadWg 0).tmap[(0 : TileNo).toNat]? = some 0 ∧ ((one loadThread).on p).head? = some (u0, loadThread) ∧ 256 < (249 : Reg).toNat + 8) ∧
    (ArrayIssuing sA 0 0 p (Reg.run 248 8 ++ [8, 6]) wA 0 ∧ (248 : Reg).toNat + 8 ≤ 256 ∧ Granted sA wA 0 1 ∧
      (let idx := (List.range 32).map fun l => ((sA.on p).find? fun x => x.1.lane == l).map fun x => (x.2.reg 8).setWidth 16
       ArrayFree sA wA 0 (((idx.take 16).filterMap fun c => c.bind fun v : BitVec 16 => if v.toNat ≤ 15 then some v.toNat else none).dedup.flatMap
          fun c => (5, c, 0) :: (List.range 16).map fun j => (2, c, j)))) ∧
    (ArrayIssuing sA 0 0 p [4] wA 0 ∧ (elA.reg 4).toNat % 64 = 0 ∧ (elA.reg 4).toNat + 64 * ((15 : BitVec 5).toNat + 1) ≤ wA.scratchLen ∧
      (∀ x ∈ sA.gpu.arrOps 0, x.1.owner.wg = wA.id → x.2.mayAbandon = true → 2 ∉ x.2.tiles) ∧
      ArrayFree sA wA 0 ((List.range 16).map (fun c => (5, c, 0)) ++
        ((List.range 16).filter fun c => sA.gpu.mayCount 0 wA.id 5 || !(fv (wA.elem 5 c 0)).isZero).flatMap fun c => (List.range 16).map fun j => (2, c, j))) :=
  ⟨⟨by decide +kernel, el_sA, arr_sA _, free_of (by decide +kernel)⟩,
   ⟨arr_sA _, placed_mem (va := 0x4000) (l := loadLeaf) (by decide) (by decide +kernel) (by decide), placed_mem (va := 0x4000) (l := loadLeaf) (by decide) (by decide +kernel) (by decide),
    placed_scratch (off := 0x400) (by decide +kernel), free_of (by decide +kernel)⟩,
   ⟨by decide +kernel, arr_sA _, arr_sA _⟩,
   ⟨by decide +kernel, fun x hx => of_decide_eq_true (List.all_eq_true.1 (by decide +kernel : (sA.on p).all (fun x => decide (x.2.reg 6 = fwH.word)) = true) x hx),
    arr_sA _, arr_sA _, by decide +kernel, free_of (by decide +kernel), granted_of (by decide +kernel), by decide +kernel, by decide +kernel,
    fun r hr => by
      have := List.all_eq_true.1 (by decide +kernel : ((List.range 32).map fun l => (((sA.on p).find? fun x => x.1.lane == l).map fun x =>
        x.2.regsFrom 16 16).getD []).all (fun r => !badGroups fwH.depth (r.take 8) && !badGroups fwH.depth (r.drop 8)) = true) r hr
      simpa using this⟩,
   ⟨⟨_, rfl, rfl⟩, ⟨_, _, rfl, rfl, rfl⟩, array_of (by decide +kernel) _⟩,
   ⟨solo_of (by decide +kernel) rfl rfl rfl rfl _, rfl, by decide +kernel⟩,
   ⟨arr_sA _, by decide, granted_of (by decide +kernel), free_of (by decide +kernel)⟩,
   arr_sA _, by decide +kernel, by decide +kernel,
   fun x hx => absurd hx (by rw [List.isEmpty_iff.1 (by decide +kernel : (sA.gpu.arrOps 0).isEmpty = true)]; simp), free_of (by decide +kernel)⟩

/-- A verdict descriptor (08 Table 8.5) at 0x420 (two blocks, three rows), in r2 of a team with a list of two. -/
def vset0 : Verdict := { vt := 0x40000000, k := 3, max := true, list := [(0x40400000, 5), (0x3F800000, 2)] }
def vWg (w : Wg) : Wg :=
  { held3 w with
    teams := (held3 w).teams.map fun t => { t with verdict := vset0 }
    scratch := w.scratch.setBytes 0x420
      ([0, 5, 0, 0, 0x80, 4, 0, 0, 0, 6, 0, 0, 64, 0, 0, 0, 0xA0, 4, 0, 0, 2, 0, 3, 0, 7, 0, 0, 0, 0, 0, 0, 0] : List Byte) }
def rsV : Regs := [(2, 0x420), (6, 0x55), (7, 0x7FA00003), (8, 0x40800000)]
def sV : State := sArr rsV vWg
def wV : Wg := wArr rsV vWg
def elV : Thread := regsTh rsV
def vd0 : VDesc := ⟨0x500, 0x480, 0x600, 64, 0x4A0, 2, 3, 16, 7⟩
/-- One thread with these registers and this workgroup. -/
def sV1 : State := tweak (one elV) fun g => g.modWg 0 vWg
def wV1 : Wg := (sV1.gpu.wg? 0).getD (loadWg 0)

theorem witness_VerdictInstructions :
    (sV.gpu.wg? 0 = some wV ∧ wV.place = .core 0 ∧ wV.teams[0]? = some { Team.start with grant := some ⟨7, 100000, 1⟩, verdict := vset0 } ∧
      (sV.on p).head? = some (u0, elV)) ∧
    (ArrayIssuing sV 0 0 p [2, 6] wV 0 ∧ wV.tmap[(1 : TileNo).toNat]? = some 5 ∧ fmwOf fwH.word = some fwH ∧ (∀ y ∈ sV.on p, y.2.reg 6 = fwH.word) ∧
      (elV.reg 2).toNat % 32 = 0 ∧ (elV.reg 2).toNat + 32 ≤ wV.scratchLen ∧ vdescOf (wV.scratchBytes (elV.reg 2).toNat 32) = some vd0 ∧
      (∀ y ∈ vd0.spans (widthOf fwH.aty), y.1 + y.2.2 ≤ wV.scratchLen) ∧ Granted sV wV 0 (fwH.demand false) ∧
      ArrayFree sV wV 0 ((List.range vd0.rows).map fun r => (5, r, (15 : BitVec 4).toNat))) ∧
    (sV.gpu.verdBusy 0 0 0 = false ∧ TeamIssuing sV 0 0 p [8] false ∧ isAbandoned (elV.reg 8) = false ∧ TeamIssuing sV 0 0 p (Reg.run 254 2) false) ∧
    (sV1.gpu.wg? 0 = some wV1 ∧ wV1.place = .core 0 ∧ wV1.teams[0]? = some { Team.start with grant := some ⟨7, 100000, 1⟩, verdict := vset0 } ∧
      (sV1.on p).head? = some (u0, elV) ∧ Solo sV1 u0 elV p [7] ∧ Solo sV1 u0 elV p [8] ∧ u0.wg = 0 ∧ u0.team = 0 ∧ (sV1.gpu.env u0).core = 0 ∧
      sV1.gpu.topBusy 0 0 0 = false ∧ isAbandoned (elV.reg 7) = true ∧ isAbandoned (elV.reg 8) = false) :=
  ⟨by decide +kernel,
   ⟨array_of (by decide +kernel) _, by decide +kernel, by decide +kernel,
    fun x hx => of_decide_eq_true (List.all_eq_true.1 (by decide +kernel : (sV.on p).all (fun x => decide (x.2.reg 6 = fwH.word)) = true) x hx),
    by decide +kernel, by decide +kernel, by decide +kernel, by decide +kernel, granted_of (by decide +kernel), free_of (by decide +kernel)⟩,
   ⟨by decide +kernel, teamB_of (by decide +kernel) _ _, by decide +kernel, teamB_of (by decide +kernel) _ _⟩,
   by decide +kernel, by decide +kernel, by decide +kernel, by decide +kernel, solo_of (by decide +kernel) rfl rfl rfl rfl _,
   solo_of (by decide +kernel) rfl rfl rfl rfl _, by decide +kernel⟩

/-- Lanes whose registers hold the operands of R235's traps, good and bad: addresses (r2, r4, r10, r12, r14, r16, r18), format words (r6, r7, r8),
a column (r9), sparse indices (r20, r28) and verdict descriptors (r36 to r40). -/
def rsQ (lane : Nat) : Regs :=
  [(2, 0x4000), (4, 0x400), (5, 0xFF00), (6, 0x55), (7, 0xFFFFFFFF)] ++ (if lane = 0 then [] else [(8, BitVec.ofNat 32 lane)]) ++
  [(9, 2), (10, 0xFFC0), (11, 0xFF00), (12, 0x404), (13, 0xFF00), (14, 0x4004), (16, 0x01000000), (17, 0xFF00), (18, 0x4000), (19, 5)] ++
  ((List.range 8).map fun i => (20 + i, 0x44444444)) ++ [(36, 0x420), (37, 0x440), (38, 0x460), (39, 0x10000), (40, 0x424)]
/-- Their workgroup holds tiles 2, 5 and 7, and element (2, 0) of tile 7 is abandoned; the descriptor at 0x460 names bytes past the scratchpad. -/
def wgQ (w : Wg) : Wg :=
  let w := (vWg w).setElem 7 2 0 0x7FA00003
  { w with scratch := w.scratch.setBytes 0x460 [0xF8, 0xFF, 0, 0, 0x80, 4, 0, 0, 0, 6, 0, 0, 64, 0, 0, 0, 0xA0, 4, 0, 0, 2, 0, 3] }
def sQ : State := tweak (bench (lanes4.map fun t => (t, regsTh (rsQ t.lane))) lanes4) fun g => g.modWg 0 wgQ
def wQ : Wg := (sQ.gpu.wg? 0).getD (loadWg 0)
def elQ : Thread := regsTh (rsQ 0)
/-- On core 1, the follower of its pair; and a launch that declares no power. -/
def sOdd : State := tweak sQ fun g =>
  { g with cur := { g.cur with core := 1 }, cores := g.cores.map fun c => (1, c.2), wgs := g.wgs.map fun w => { w with place := .core 1 } }
def noPower (s : State) : State := tweak s fun g => { g with launches := g.launches.map fun l => { l with desc := { l.desc with power := 0 } } }

def AtTeam (s : State) (w : Wg) (core power : Nat) : Prop :=
  s.gpu.wg? 0 = some w ∧ w.place = .core core ∧ (s.on p).head? = some (u0, elQ) ∧
  (∃ l, s.gpu.launch? w.launch = some l ∧ l.desc.power = power) ∧ (∃ c, s.gpu.ctx? w.ctx = some c) ∧
  (∀ m ∈ s.members, ∃ z, s.gpu.thread? m = some z ∧ z.mode = .user) ∧ ∀ used, TeamIssuing s 0 0 p used false
def atTeamB (s : State) (w : Wg) (core power : Nat) : Bool :=
  decide (s.gpu.wg? 0 = some w ∧ w.place = .core core ∧ (s.on p).head? = some (u0, elQ)) &&
  ((s.gpu.launch? w.launch).any fun l => decide (l.desc.power = power)) && (s.gpu.ctx? w.ctx).isSome &&
  (s.members.all fun m => (s.gpu.thread? m).any fun z => decide (z.mode = .user)) && teamB s
theorem atTeam_of {s : State} {w : Wg} {core power : Nat} (h : atTeamB s w core power = true) : AtTeam s w core power := by
  simp only [atTeamB, Bool.and_eq_true, decide_eq_true_eq, Option.any_eq_true, List.all_eq_true] at h
  obtain ⟨⟨⟨⟨⟨h1, h2, h3⟩, l, h4, h5⟩, h6⟩, h7⟩, h8⟩ := h
  exact ⟨h1, h2, h3, ⟨l, h4, h5⟩, Option.isSome_iff_exists.1 h6, h7, fun used => teamB_of h8 _ _⟩

/-- The premises of R235's traps, in their order. -/
theorem witness_ArrayTraps :
    (AtTeam sQ wQ 0 7 ∧ wQ.tmap = [2, 5, 7] ∧ wQ.scratchLen = 65536 ∧ (sQ.gpu.arrOps 0).isEmpty = true) ∧ AtTeam sOdd { wQ with place := .core 1 } 1 7 ∧
    (wQ.tmap.length ≤ 3 ∧ wQ.tmap.length ≤ 2 + 1 ∧ ¬ wQ.tmap.length ≤ 2 ∧ ¬ wQ.tmap.length ≤ 1 + 1) ∧
    ((∃ x ∈ sQ.on p, ∃ y ∈ sQ.on p, x.2.reg 8 ≠ y.2.reg 8) ∧ (∀ x ∈ sQ.on p, x.2.reg 7 = 0xFFFFFFFF) ∧ ¬ ValidFormat 0xFFFFFFFF ∧
      (∀ x ∈ sQ.on p, x.2.reg 6 = fwH.word) ∧ fmwOf fwH.word = some fwH ∧ ValidFormat fwH.word) ∧
    ((∃ x ∈ sQ.on p, badGroups fwH.depth (x.2.regsFrom 28 8) = true) ∧ (∀ x ∈ sQ.on p, badGroups fwH.depth (x.2.regsFrom 20 8) = false)) ∧
    (AtTeam (noPower sQ) wQ 0 0 ∧ 0 < fwH.demand true ∧ 0 < fwH.demand false ∧ fwH.demand true ≤ 7 ∧ fwH.demand false ≤ 7) ∧
    (0xFF0001000000 ≤ (elQ.pair 16).toNat ∧ elQ.pair 12 = BitVec.ofNat 64 (0xFF0000000000 + 0x404) ∧ 0x404 % 64 ≠ 0 ∧
      elQ.pair 10 = BitVec.ofNat 64 (0xFF0000000000 + 0xFFC0) ∧ 0xFFC0 % 64 = 0 ∧ wQ.scratchLen < 0xFFC0 + 256 * widthOf .f16 / 8 ∧
      elQ.pair 14 = BitVec.ofNat 64 0x4004 ∧ 0x4004 % 64 ≠ 0 ∧ elQ.pair 18 = BitVec.ofNat 64 0x500004000 ∧ 0x500004000 % 64 = 0) ∧
    (∀ acc ∈ [Access.read, .write], ∃ e, (sQ.gpu.translate 0 loadCtx acc 0x500004000).2 = .error e ∧ e.rpl = false) ∧
    (InScratch sQ u0 (elQ.pair 4) 0x400 (256 * widthOf .f16 / 8) 64 ∧ Ty.f16 ≠ .f32 ∧ isAbandoned (wQ.elem 7 2 0) = true) ∧
    ((elQ.srcW (.lit 0x404)).toNat % 64 ≠ 0 ∧ (elQ.srcW (.lit 0xFFC0)).toNat % 64 = 0 ∧ wQ.scratchLen < (elQ.srcW (.lit 0xFFC0)).toNat + 1024 ∧
      (elQ.srcW (.lit 0x400)).toNat % 64 = 0 ∧ (elQ.srcW (.lit 0x400)).toNat + 2048 ≤ wQ.scratchLen) ∧
    (∃ x ∈ sQ.on p, x.1.lane < 16 ∧ (x.2.reg 9).toNat % 65536 = 2) ∧
    ((elQ.reg 12).toNat % 64 ≠ 0 ∧ (elQ.reg 10).toNat % 64 = 0 ∧ wQ.scratchLen < (elQ.reg 10).toNat + 64 * ((15 : BitVec 5).toNat + 1) ∧
      (elQ.reg 4).toNat % 64 = 0 ∧ (elQ.reg 4).toNat + 64 * ((15 : BitVec 5).toNat + 1) ≤ wQ.scratchLen) ∧
    ((elQ.reg 40).toNat % 32 ≠ 0 ∧ (elQ.reg 39).toNat % 32 = 0 ∧ wQ.scratchLen < (elQ.reg 39).toNat + 32 ∧
      vdescOf (wQ.scratchBytes (elQ.reg 37).toNat 32) = none ∧ (elQ.reg 37).toNat % 32 = 0 ∧
      (∃ desc, vdescOf (wQ.scratchBytes (elQ.reg 38).toNat 32) = some desc ∧
        ∃ y ys, desc.spans (widthOf fwH.aty) = [] ++ y :: ys ∧ wQ.scratchLen < y.1 + y.2.2) ∧
      vdescOf (wQ.scratchBytes (elQ.reg 36).toNat 32) = some vd0 ∧ (∀ y ∈ vd0.spans (widthOf fwH.aty), y.1 + y.2.2 ≤ wQ.scratchLen) ∧
      2 < vd0.rows ∧ isAbandoned (wQ.elem 7 2 (0 : BitVec 4).toNat) = true) :=
  ⟨⟨atTeam_of (by decide +kernel), by decide +kernel⟩, atTeam_of (by decide +kernel), by decide +kernel,
   ⟨by decide +kernel, by decide +kernel, by unfold ValidFormat; decide, by decide +kernel, by decide +kernel, by unfold ValidFormat; decide +kernel⟩,
   by decide +kernel, ⟨atTeam_of (by decide +kernel), by decide +kernel⟩, by decide +kernel,
   fun acc _ => by
      have h : (match (sQ.gpu.translate 0 loadCtx acc 0x500004000).2 with | .error f => !f.rpl | .ok _ => false) = true := by
        cases acc <;> decide +kernel
      split at h
      · rename_i f e; exact ⟨f, e, by simpa using h⟩
      · exact absurd h (by simp),
   ⟨inScratch_of (by decide +kernel), by decide +kernel⟩, by decide +kernel, by decide +kernel, by decide +kernel,
   by decide +kernel, by decide +kernel, by decide +kernel, by decide +kernel, by decide +kernel,
   ⟨⟨0xFFF8, 0x480, 0x600, 64, 0x4A0, 2, 3, 16, 0⟩, by decide +kernel, _, _, rfl, by decide +kernel⟩, by decide +kernel, by decide +kernel,
   by decide +kernel, by decide +kernel⟩

/-- A window [−2, −1] decides the sign of −1, and [3, 4] that 4 is above the threshold 2. -/
theorem witness_WindowsAndRankedRows :
    ((fv 0xC0000000).isFin ∧ (fv 0xBF800000).isFin ∧ (fv 0x40000000).isNan = false ∧ ratW 0xC0000000 ≤ ratW 0xBF800000 ∧
      ratW 0xBF800000 ≤ ratW 0xBF800000 ∧ windowVerdict .sign true 0x40000000 0xC0000000 0xBF800000 = some true) ∧
    (ratW 0x40400000 ≤ ratW 0x40800000 ∧ windowVerdict .thresh false 0x40000000 0x40400000 0x40800000 = some true) ∧
    windowVerdict .topk true 0x40000000 0xC0000000 0xBF800000 = some false ∧ windowVerdict .topk false 0x40000000 0x40000000 0x40800000 = some false := by
  decide +kernel

/-- A fork's tables at 0x421 (two array states) and 0x500 (one copy state), its registers from r8: format word f16, credits 3 and 4. -/
def fkWg (f : Option ForkSt) (w : Wg) : Wg :=
  { w with
    teams := w.teams.map fun t => { t with fork := f, grant := none }
    scratch := (w.scratch.setBytes 0x421 ((0 :: List.replicate 15 0) ++ (1 :: List.replicate 13 0) ++ [1, 0])).setBytes 0x500 (1 :: List.replicate 15 0) }
def rsFk (us : Word) : Regs :=
  [(2, 0x421), (3, 0xFF00), (4, 0x500), (5, 0xFF00), (7, us), (8, 10), (9, 11), (10, 12), (11, 13), (12, 0x4000), (14, 0x55), (15, 0x304)]
def sFk (us : Word) (f : Option ForkSt) : State := sArr (rsFk us) (fkWg f)
def wFk (us : Word) (f : Option ForkSt) : Wg := wArr (rsFk us) (fkWg f)
def elFk (us : Word) : Thread := regsTh (rsFk us)
def atF : List EState := ((tableOf .array 2 true ((wFk 1 none).scratchBytes 0x421 32)).getD [])
def ctF : List EState := ((tableOf .copy 1 true ((wFk 1 none).scratchBytes 0x500 16)).getD [])
/-- A launch that declares power 7; another that declares 4. -/
def low (s : State) : State := tweak s fun g => { g with launches := g.launches.map fun l => { l with desc := { l.desc with power := 4 } } }
def AtFork (s : State) (us : Word) (f : Option ForkSt) : Prop :=
  s.gpu.wg? 0 = some (wFk us f) ∧ (wFk us f).place = .core 0 ∧ (wFk us f).teams[0]? = some { Team.start with fork := f } ∧
  (s.on p).head? = some (u0, elFk us)

def est (op : Nat) : EState :=
  { op := op, ix := 0, ring := 1, tile := 0, areg := 0, off := 0, size := 0, arg := 0, incC := 1, inc := true, wait := false, post := false,
    loopC := 1, loop := true, next := 2, jmp := 1 }
def seq7 (op : Nat) : Seq :=
  { fork := 7, wg := 0, team := 0, lanes := [u0], elected := u0, tab := [est op], idx := 0, ctrs := [0, 0, 0, 0], limits := [1, 1, 1, 1],
    post := 0, other := 0, take := 0, src := 0, fmt := 0, ops := [], posts := [], ended := false, pc := 0, word := 0 }
/-- A fork whose array sequencer stands at its last state, which clears a tile that the team does not hold; one whose engine fault waits for `rdv`. -/
def fkRun : Option ForkSt := some ⟨[7, 78], true, false, none⟩
def qRun : Seq := { seq7 4 with idx := 31, tab := List.replicate 31 (est 0) ++ [{ est 4 with tile := 64 }] }
def sFkRun : State := tweak (sFk 1 fkRun) fun g => g.modCore 0 fun c => { c with seqA := some qRun }
def fkBad : Option ForkSt := some ⟨[77, 78], false, false, some (engineInfo .array 31 0x29)⟩

theorem witness_ForksRendezvousAndLeave :
    (AtFork sFkRun 1 fkRun ∧ (sFkRun.gpu.core 0).seq .array = some qRun ∧ qRun.wg = 0 ∧ qRun.team = 0 ∧
      qRun.tab[qRun.idx]? = some { est 4 with tile := 64 } ∧ qRun.idx < 32 ∧ sFkRun.gpu.faulted qRun.fork = false ∧ (wFk 1 fkRun).tmap[64]? = none) ∧
    (AtFork (sFk 1 fkBad) 1 fkBad ∧ TeamIssuing (sFk 1 fkBad) 0 0 p [] false ∧ (sFk 1 fkBad).on p ≠ [] ∧
      (∀ v ∈ (sFk 1 fkBad).members, ∀ th, (sFk 1 fkBad).gpu.thread? v = some th → ∀ o ∈ th.outst, o.id ∉ [77, 78]) ∧
      ∀ v ∈ (sFk 1 fkBad).members, ∀ th, (sFk 1 fkBad).gpu.thread? v = some th → th.mode = .user) ∧
    (AtFork (sFk 1 none) 1 none ∧ TeamIssuing (sFk 1 none) 0 0 p (Reg.run 2 2 ++ Reg.run 4 2 ++ Reg.run 8 8) false ∧
      (∀ y ∈ (sFk 1 none).on p, y.2.reg (8 + 6) = (elFk 1).reg (8 + 6) ∧ y.2.count .arr < 63 ∧ y.2.count .copy < 63) ∧
      (fmwOf ((elFk 1).reg (8 + 6))).isSome = true ∧ ((sFk 1 none).gpu.core 0).seqA = none ∧ ((sFk 1 none).gpu.core 0).seqC = none ∧
      InScratch (sFk 1 none) u0 ((elFk 1).pair 2) 0x421 (16 * 2) 1 ∧ InScratch (sFk 1 none) u0 ((elFk 1).pair 4) 0x500 (16 * 1) 1 ∧
      forkTables 2 1 ((elFk 1).reg (8 + 7)) ((wFk 1 none).scratchBytes 0x421 (16 * 2)) ((wFk 1 none).scratchBytes 0x500 (16 * 1)) = some (atF, ctF) ∧
      atF.length = 2 ∧ ctF.length = 1) ∧
    (TeamIssuing (sFk 1 none) 0 0 p [] false ∧ (sFk 1 none).on p ≠ []) ∧
    (AtFork (sFk 1 (some ⟨[77, 78], false, false, none⟩)) 1 (some ⟨[77, 78], false, false, none⟩) ∧
      TeamIssuing (sFk 1 (some ⟨[77, 78], false, false, none⟩)) 0 0 p [] false ∧
      ∀ v ∈ (sFk 1 (some ⟨[77, 78], false, false, none⟩)).members, ∀ th, (sFk 1 (some ⟨[77, 78], false, false, none⟩)).gpu.thread? v = some th →
        ∀ o ∈ th.outst, o.id ∉ [77, 78]) ∧
    (AtFork (sFk 1 (some ⟨[77, 78], true, false, none⟩)) 1 (some ⟨[77, 78], true, false, none⟩) ∧
      TeamIssuing (sFk 1 (some ⟨[77, 78], true, false, none⟩)) 0 0 p [] false) ∧
    (AtFork (low (sFk 65535 none)) 65535 none ∧ TeamIssuing (low (sFk 65535 none)) 0 0 p (20 :: (SrcB.reg 7).span false) false ∧
      ∃ l, (low (sFk 65535 none)).gpu.launch? (wFk 65535 none).launch = some l ∧ l.desc.power < (5 : BitVec 3).toNat ∧ (4 : BitVec 3).toNat ≤ l.desc.power ∧
        0 < ((elFk 65535).srcW (.reg 7)).toNat ∧ ((elFk 65535).srcW (.reg 7)).toNat ≤ 65535 ∧ ((elFk 65535).srcW (.lit 0)).toNat = 0 ∧
        65535 < ((elFk 65535).srcW (.lit 65536)).toNat) :=
  ⟨⟨by unfold AtFork; decide +kernel, by decide +kernel⟩,
   ⟨by unfold AtFork; decide +kernel, teamB_of (by decide +kernel) _ _, by decide +kernel,
    fun v _ th e o ho => by
      have h : th.outst = [] := of_threads (P := fun _ y => y.outst = []) (by decide +kernel) v th e
      rw [h] at ho
      exact absurd ho (by simp), fun v _ th e => of_threads (P := fun _ y => y.mode = .user) (by decide +kernel) v th e⟩,
   ⟨by unfold AtFork; decide +kernel, teamB_of (by decide +kernel) _ _,
    fun y hy => of_decide_eq_true (List.all_eq_true.1 (by decide +kernel : ((sFk 1 none).on p).all (fun y =>
      decide (y.2.reg (8 + 6) = (elFk 1).reg (8 + 6) ∧ y.2.count .arr < 63 ∧ y.2.count .copy < 63)) = true) y hy),
    by decide +kernel, by decide +kernel, by decide +kernel, inScratch_of (by decide +kernel), inScratch_of (by decide +kernel), by decide +kernel⟩,
   ⟨teamB_of (by decide +kernel) _ _, by decide +kernel⟩,
   ⟨by unfold AtFork; decide +kernel, teamB_of (by decide +kernel) _ _,
    fun v _ th e o ho => by
      have h : th.outst = [] := of_threads (P := fun _ y => y.outst = []) (by decide +kernel) v th e
      rw [h] at ho
      exact absurd ho (by simp)⟩,
   ⟨by unfold AtFork; decide +kernel, teamB_of (by decide +kernel) _ _⟩,
   by unfold AtFork; decide +kernel, teamB_of (by decide +kernel) _ _, (low (sFk 65535 none)).gpu.launches.headD loadLaunch, by decide +kernel⟩

/-- A march of the thread that is suspended in slot 63 of its core, with the raster descriptor of Table 9.13's layout at 0x400. -/
def mstate0 : MState := ⟨false, [1, 2, 3, 4, 5, 6, 7, 8], ⟨32, 0, 0, 1, 1, 0, 100⟩, [3], none, 0x3F800000, 5, none⟩
def rasterBytes : List Byte :=
  [1, 0, 0, 0, 5, 0, 0, 0, 0, 64, 0, 0, 0, 0, 0, 0, 0, 128, 0, 0, 0, 0, 0, 0, 0, 1, 0, 0, 1, 0, 0, 0, 1, 0, 2, 0, 9, 0, 9, 0, 7] ++ List.replicate 23 0
def thRay : Thread := regsTh [(2, 0x4000), (4, 0x400), (5, 0xFF00), (6, 0x3F3), (7, 0x33), (14, 64), (15, 65472), (16, 0x3F800000), (22, 0), (23, 65536)]
def sRay (rays : List Ray) (l : Leaf) : State := tweak (one thRay) fun g =>
  let g := g.modWg 0 fun w => { w with scratch := w.scratch.setBytes 0x400 rasterBytes }
  { g with
    launches := g.launches.map fun l => { l with desc := { l.desc with rootsucc := 2 } }
    rays := rays
    cores := g.cores.map fun c => (c.1, { c.2 with tlb := [{ asid := 0, vpn := 0, leaf := l }] }) }
def hostLeaf : Leaf := { loadLeaf with base := ⟨.host 0, 0⟩ }
def rays1 : List Ray := [⟨0, 63, u0, some mstate0⟩]
theorem solo_sRay {rays : List Ray} {l : Leaf} (h : calm (sRay rays l) = true) (used : List Reg) : Solo (sRay rays l) u0 thRay p used :=
  solo_of h rfl rfl rfl rfl used
theorem calm_sRay : calm (sRay [] loadLeaf) = true := by decide +kernel
theorem opt_all {α : Type} {o : Option α} {P : α → Prop} [DecidablePred P] (h : o.all (fun x => decide (P x)) = true) : ∀ x, o = some x → P x :=
  fun x e => by subst e; simpa using h
def cleanB (rs : List Reg) : Bool := rs.all fun r => !isAbandoned (thRay.reg r)
theorem cleanB_of {rs : List Reg} (h : cleanB rs = true) : ∀ r ∈ rs, isAbandoned (thRay.reg r) = false := fun r hr => by
  simpa using List.all_eq_true.1 h r hr

theorem witness_SurfaceOperationsStart :
    thRay.count .march < 63 ∧
    (Solo (sRay [] loadLeaf) u0 thRay p (Reg.run 20 4 ++ Reg.run 8 8 ++ (SrcB.reg 4).span true) ∧ (∀ r ∈ Reg.run 8 8, isAbandoned (thRay.reg r) = false) ∧
      Placed (sRay [] loadLeaf) u0 .read 64 (thRay.srcD (.reg 4)) 64 [] id ∧ (∀ r ∈ (sRay [] loadLeaf).gpu.rays, r.owner = u0 → r.susp = none) ∧
      (sRay [] loadLeaf).gpu.freeSlot 0 u0 = some 0) ∧
    ((sRay rays1 loadLeaf).gpu.suspended 0 u0 (thRay.reg 6) = some (63, mstate0) ∧
      Solo (sRay rays1 loadLeaf) u0 thRay p (Reg.run 20 4 ++ [6] ++ (SrcB.reg 16).span true) ∧ (∀ r ∈ (SrcB.reg 16).run 2, isAbandoned (thRay.reg r) = false) ∧
      Solo (sRay rays1 loadLeaf) u0 thRay p (Reg.run 20 4 ++ [6]) ∧ Solo (sRay rays1 loadLeaf) u0 thRay p (Reg.run 248 8 ++ [6])) ∧
    ((sRay rays1 loadLeaf).gpu.suspended 0 u0 (thRay.reg 7) = none ∧ thRay.mode = .user ∧ Solo (sRay rays1 loadLeaf) u0 thRay p (Reg.run 20 4 ++ [7])) ∧
    (Solo (sRay [] loadLeaf) u0 thRay p (Reg.run 20 4 ++ Reg.run 2 2 ++ Reg.run 8 6) ∧ Solo (sRay [] loadLeaf) u0 thRay p (Reg.run 20 4 ++ Reg.run 2 2 ++ Reg.run 8 3) ∧
      Placed (sRay [] loadLeaf) u0 .read 64 (thRay.pair 2) 16 [(0, loadLeaf)] (fun g => g.looked u0 .read 0x4000) ∧
      Placed (sRay [] loadLeaf) u0 .read 64 (thRay.pair 2) 64 [(0, loadLeaf)] (fun g => g.looked u0 .read 0x4000) ∧
      (∀ r ∈ Reg.run 8 6, isAbandoned (thRay.reg r) = false)) ∧
    (Solo (sRay [] loadLeaf) u0 thRay p (20 :: Reg.run 2 2 ++ Reg.run 8 8) ∧ (thRay.reg (8 + 6)).toNat % 64 = 0 ∧
      ∀ w, (sRay [] loadLeaf).gpu.wg? u0.wg = some w → (thRay.reg (8 + 6)).toNat + (thRay.reg (8 + 7)).toNat ≤ w.scratchLen) ∧
    (Solo (sRay [] loadLeaf) u0 thRay p (Reg.run 20 2 ++ Reg.run 2 2 ++ (SrcB.lit 0x3F800000).span false) ∧ (∀ r ∈ (SrcB.lit 0x3F800000).run 1, isAbandoned (thRay.reg r) = false) ∧
      Placed (sRay [] loadLeaf) u0 .atomic 4 (thRay.pair 2) 4 [(0, loadLeaf)] (fun g => g.looked u0 .atomic 0x4000) ∧ (∀ k, loadLeaf.base.sp ≠ .host k)) ∧
    (Solo (sRay [] loadLeaf) u0 thRay p (20 :: Reg.run 4 2) ∧ InScratch (sRay [] loadLeaf) u0 (thRay.pair 4) 0x400 64 64 ∧
      ∃ w l x, (sRay [] loadLeaf).gpu.wg? u0.wg = some w ∧ (sRay [] loadLeaf).gpu.launch? w.launch = some l ∧
        rdescOf (w.scratchBytes 0x400 64) = some x ∧ l.permits w x.node = true) ∧
    (Solo (sRay [] loadLeaf) u0 thRay p (20 :: Reg.run 2 2) ∧ thRay.pair 2 = BitVec.ofNat 64 0x4000 ∧ Lies (sRay [] loadLeaf) u0 .read 0x4000 1 loadLeaf ∧
      Clean (sRay [] loadLeaf) [loadLeaf.phys 0x4000] ∧ loadLeaf.base.sp = .dev) ∧
    (Solo (sRay [] hostLeaf) u0 thRay p (20 :: Reg.run 2 2) ∧ Lies (sRay [] hostLeaf) u0 .read 0x4000 1 hostLeaf ∧ Clean (sRay [] hostLeaf) [hostLeaf.phys 0x4000] ∧
      hostLeaf.base.sp = .host 0) :=
  ⟨by decide, ⟨solo_sRay calm_sRay _, cleanB_of (by decide +kernel), placed_scratch (off := 0x400) (by decide +kernel), nofun, by decide +kernel⟩,
   ⟨by decide +kernel, solo_sRay (by decide +kernel) _, cleanB_of (by decide +kernel), solo_sRay (by decide +kernel) _, solo_sRay (by decide +kernel) _⟩,
   ⟨by decide +kernel, rfl, solo_sRay (by decide +kernel) _⟩,
   ⟨solo_sRay calm_sRay _, solo_sRay calm_sRay _, placed_mem (va := 0x4000) (l := loadLeaf) (by decide) (by decide +kernel) (by decide),
    placed_mem (va := 0x4000) (l := loadLeaf) (by decide) (by decide +kernel) (by decide), cleanB_of (by decide +kernel)⟩,
   ⟨solo_sRay calm_sRay _, by decide, opt_all (by decide +kernel)⟩,
   ⟨solo_sRay calm_sRay _, nofun, placed_mem (va := 0x4000) (l := loadLeaf) (by decide) (by decide +kernel) (by decide), nofun⟩,
   ⟨solo_sRay calm_sRay _, inScratch_of (by decide +kernel), ((sRay [] loadLeaf).gpu.wg? 0).getD (loadWg 0),
    (sRay [] loadLeaf).gpu.launches.headD loadLaunch, (rdescOf rasterBytes).getD ⟨0, false, 0, 0, 0, 0, 0, 0, 0, 0, 0, 0, 0⟩, by decide +kernel⟩,
   ⟨solo_sRay calm_sRay _, by decide, lies_of (by decide +kernel), by unfold Clean; decide +kernel, rfl⟩,
   solo_sRay (by decide +kernel) _, lies_of (by decide +kernel), by unfold Clean; decide +kernel, rfl⟩

/-- A thread in trap mode, two deferred traps owed to it. -/
def thTrap : Thread := { regsTh [(2, 0x200), (3, 0xFF00)] with mode := .trap }
def due2 : List Deferred := [⟨3, 4, 5, 6, 7⟩, ⟨1, 1, 1, 1, 1⟩]
def sTrap : State := one thTrap

theorem witness_SpecialRegisters :
    (∃ w l c, s1.gpu.wg? u0.wg = some w ∧ s1.gpu.launch? w.launch = some l ∧ s1.gpu.ctx? w.ctx = some c ∧ w.place = .core 0 ∧ th1.mode = .user) ∧
    SReg.lane.trapOnly = false ∧ SReg.cnt.trapOnly = false ∧ Solo s1 u0 th1 p (Reg.span 6 false) ∧ Solo s1 u0 th1 p ((SrcB.reg 2).span false) ∧
    (∃ w l c, sTrap.gpu.wg? u0.wg = some w ∧ sTrap.gpu.launch? w.launch = some l ∧ sTrap.gpu.ctx? w.ctx = some c ∧ w.place = .core 0) ∧
    SReg.ts3.trapOnly = true ∧ thTrap.mode = .trap ∧ Solo sTrap u0 thTrap p (Reg.span 254 true) ∧ Solo sTrap u0 thTrap p ((SrcB.reg 2).span true) :=
  ⟨⟨_, _, _, rfl, rfl, rfl, rfl, rfl⟩, rfl, rfl, solo_s1 _, solo_s1 _, ⟨_, _, _, rfl, rfl, rfl, rfl⟩, rfl, rfl,
   solo_of (by decide +kernel) rfl rfl rfl rfl _, solo_of (by decide +kernel) rfl rfl rfl rfl _⟩

theorem witness_TrapEntryAndReturn :
    (Solo sTrap u0 thTrap p [] ∧ thTrap.mode = .trap ∧ p.sw = false ∧ thTrap.due = []) ∧
    Solo (one { thTrap with due := due2 }) u0 { thTrap with due := due2 } p [] ∧ due2 = ⟨3, 4, 5, 6, 7⟩ :: [⟨1, 1, 1, 1, 1⟩] :=
  ⟨⟨solo_of (by decide +kernel) rfl rfl rfl rfl _, rfl, rfl, rfl⟩,
   ⟨rfl, rfl, rfl, rfl, ⟨by decide +kernel, fun _ _ _ _ h => absurd h (by decide)⟩, fun _ _ => rfl, fun _ _ _ _ _ => rfl⟩, rfl⟩

/-- 8 registers per thread: r8 is out of range; or r2 awaits a token. -/
def sReg8 : State := tweak s1 fun g => g.modWg 0 fun w => { w with regs := 8 }
def thTok : Thread := { th1 with pend := [{ id := 5, regs := [2, 9], vals := none, flags := 0, token := true, xch := false, pc := 0, word := 0 }] }
def thProbe : Thread := { th1 with pmode := true }

theorem witness_TrapsBeforeAnyEffect :
    (sReg8.members = [u0] ∧ sReg8.gpu.thread? u0 = some th1 ∧ th1.status = .active ∧ Settled sReg8 p.sw ∧ th1.mode = .user ∧
      SReg.tcause.trapOnly = true ∧ SReg.lane.writable = false ∧ overRange (sReg8.gpu.env u0).regs (7 :: 6 :: (SrcB.reg 8).span false) = true ∧
      overRange (sReg8.gpu.env u0).regs (dataRegs 6 (accSize .b32 .x4) ++ Reg.run 2 2) = true ∧ p.sw = false ∧
      sReg8.gpu.cur.word.getLsbD 63 = false ∧ th1.pmode = false) ∧
    (([.fadd p .rn 8 2 (.reg 3), .ldu p 0 .b32 .x4 6 2 (.short 0), .march p false 0 2 (.reg 4), .fork p 1 1 2 4 1, .vote p .ballot 9 1, .rsub p 3 7] :
        List Instr).all (fun i => overRange (sReg8.gpu.env u0).regs (named i)) = true ∧ 256 < (250 : Reg).toNat + ((64 : BitVec 7).toNat + 3) / 4 ∧
      overRange (sReg8.gpu.env u0).regs (⟨.iadd, t7, 4, 9, 0⟩ : Half).regs = true ∧
      overRange (sReg8.gpu.env u0).regs (⟨.iadd, t7, 4, 5, 0⟩ : Half).regs = false) ∧
    ((one thTok).members = [u0] ∧ (one thTok).gpu.thread? u0 = some thTok ∧ Settled (one thTok) p.sw ∧
      overRange ((one thTok).gpu.env u0).regs (7 :: 2 :: (SrcB.reg 3).span false) = false ∧ thTok.guards p = true ∧
      thTok.pendingAmong (7 :: 2 :: (SrcB.reg 3).span false) = some 2) ∧
    ((one thProbe).members = [u0] ∧ (one thProbe).gpu.thread? u0 = some thProbe ∧ Settled (one thProbe) p.sw ∧ thProbe.pmode = true) ∧
    (Solo sTrap u0 thTrap p [] ∧ thTrap.mode = .trap ∧ ∃ w c, sTrap.gpu.wg? u0.wg = some w ∧ sTrap.gpu.ctx? w.ctx = some c ∧ ∀ k, c.status ≠ .fenced k) :=
  ⟨⟨rfl, rfl, rfl, ⟨by decide +kernel, fun _ _ _ _ h => absurd h (by decide)⟩, by decide +kernel⟩, by decide +kernel,
   ⟨rfl, rfl, ⟨by decide +kernel, fun _ _ _ _ h => absurd h (by decide)⟩, by decide +kernel⟩,
   ⟨rfl, rfl, settled_of (by decide +kernel) _, rfl⟩, solo_of (by decide +kernel) rfl rfl rfl rfl _, rfl, _, loadCtx, rfl, rfl, nofun⟩

/-- A thread whose base pair is this address, under this leaf, with the line of physical 0x8080 poisoned. -/
def thAcc (lo hi : Word) : Thread := regsTh [(2, lo), (3, hi)]
def sAcc (lo hi : Word) (l : Leaf) : State := tweak (one (thAcc lo hi)) fun g =>
  { g with
    mem := { g.mem with poison := [⟨.dev, 0x101⟩] }
    cores := g.cores.map fun c => (c.1, { c.2 with tlb := [{ asid := 0, vpn := 0, leaf := l }] }) }
def AtI (lo hi : Word) (l : Leaf) (used : List Reg) : Prop :=
  Solo (sAcc lo hi l) u0 (thAcc lo hi) p used ∧ (thAcc lo hi).mode = .user ∧ (∃ w, (sAcc lo hi l).gpu.wg? u0.wg = some w ∧ w.scratchLen = 65536) ∧
  (sAcc lo hi l).gpu.ctx? ((sAcc lo hi l).gpu.env u0).ctx = some loadCtx
theorem atI_of {lo hi : Word} {l : Leaf} (h : calm (sAcc lo hi l) = true) (used : List Reg) : AtI lo hi l used :=
  ⟨solo_of h rfl rfl rfl rfl _, rfl, ⟨_, rfl, rfl⟩, rfl⟩
def AtX (lo hi : Word) (l : Leaf) : Prop := AtI lo hi l (dataRegs 8 (accSize .b32 .x1) ++ Reg.run 2 2)
theorem atX_of {lo hi : Word} {l : Leaf} (h : calm (sAcc lo hi l) = true) : AtX lo hi l := atI_of h _
def noWrite : Leaf := { loadLeaf with w := false }

theorem witness_AccessChecksOfTable71 :
    (AtX 0x01000000 0xFF00 loadLeaf ∧ 0xFF0001000000 ≤ ((thAcc 0x01000000 0xFF00).address 2 (.short 0)).toNat) ∧
    (AtX 0xFFFFFFFE 0xFEFF loadLeaf ∧ ((thAcc 0xFFFFFFFE 0xFEFF).address 2 (.short 0)).toNat < 0xFF0000000000 ∧
      0xFF0000000000 < ((thAcc 0xFFFFFFFE 0xFEFF).address 2 (.short 0)).toNat + accSize .b32 .x1) ∧
    (AtX 0xFFFE 0xFF00 loadLeaf ∧ (thAcc 0xFFFE 0xFF00).address 2 (.short 0) = BitVec.ofNat 64 (0xFF0000000000 + 0xFFFE) ∧ 0xFFFE % accSize .b32 .x1 ≠ 0) ∧
    (AtX 0x10000 0xFF00 loadLeaf ∧ (thAcc 0x10000 0xFF00).address 2 (.short 0) = BitVec.ofNat 64 (0xFF0000000000 + 0x10000) ∧
      0x10000 % accSize .b32 .x1 = 0 ∧ 65536 < 0x10000 + accSize .b32 .x1 ∧ 0x10000 < 2 ^ 24) ∧
    (AtX 0x4000 0 noWrite ∧ (thAcc 0x4000 0).address 2 (.short 0) = BitVec.ofNat 64 0x4000 ∧
      ∃ f, ((sAcc 0x4000 0 noWrite).gpu.translate 0 loadCtx .write 0x4000).2 = .error f ∧ f.rpl = false ∧ f.perm = true) ∧
    (AtX 0x4000 5 loadLeaf ∧ (thAcc 0x4000 5).address 2 (.short 0) = BitVec.ofNat 64 0x500004000 ∧
      ∃ f, ((sAcc 0x4000 5 loadLeaf).gpu.translate 0 loadCtx .read 0x500004000).2 = .error f ∧ f.rpl = false ∧ f.perm = false) ∧
    (AtX 0x807F 0 loadLeaf ∧ (thAcc 0x807F 0).address 2 (.short 0) = BitVec.ofNat 64 0x807F ∧ Lies (sAcc 0x807F 0 loadLeaf) u0 .read 0x807F (accSize .b32 .x1) loadLeaf ∧
      (sAcc 0x807F 0 loadLeaf).gpu.poisoned (loadLeaf.phys (0x807F + 1)).line = true ∧
      ∀ j, j < 1 → (sAcc 0x807F 0 loadLeaf).gpu.poisoned (loadLeaf.phys (0x807F + j)).line = false) ∧
    (let atom := Instr.atom p 0 .add .b64 false false .none .sys 8 2 (.lit 1)
     let lr := Instr.lr p 0 true false .dev 8 2
     let cond := Instr.sc p 0 true false .dev 8 2 (.lit 1)
     (∀ x ∈ [(0x01000000, 0xFF00, loadLeaf), (0x404, 0xFF00, loadLeaf), (0x10000, 0xFF00, loadLeaf), (0xFFFFFFFC, 0xFEFF, loadLeaf), (0x4004, 0, loadLeaf),
        (0x4000, 5, loadLeaf), (0x4000, 0, hostLeaf), (0x8080, 0, loadLeaf)], AtI x.1 x.2.1 x.2.2 (named atom) ∧ AtI x.1 x.2.1 x.2.2 (named lr) ∧
        AtI x.1 x.2.1 x.2.2 (named cond)) ∧
      0xFF0001000000 ≤ ((thAcc 0x01000000 0xFF00).pair 2).toNat ∧
      ((thAcc 0x404 0xFF00).pair 2 = BitVec.ofNat 64 (0xFF0000000000 + 0x404) ∧ 0x404 % 8 ≠ 0) ∧
      ((thAcc 0x10000 0xFF00).pair 2 = BitVec.ofNat 64 (0xFF0000000000 + 0x10000) ∧ 0x10000 % 8 = 0 ∧ 65536 < 0x10000 + 8) ∧
      ((thAcc 0xFFFFFFFC 0xFEFF).pair 2 = BitVec.ofNat 64 0xFEFFFFFFFFFC ∧ 0xFEFFFFFFFFFC < 0xFF0000000000 ∧ 0xFF0000000000 < 0xFEFFFFFFFFFC + 8) ∧
      ((thAcc 0x4004 0).pair 2 = BitVec.ofNat 64 0x4004 ∧ 0x4004 % 8 ≠ 0) ∧
      ((thAcc 0x4000 5).pair 2 = BitVec.ofNat 64 0x500004000 ∧ (∀ acc ∈ [Access.read, .atomic],
        ∃ f, ((sAcc 0x4000 5 loadLeaf).gpu.translate 0 loadCtx acc 0x500004000).2 = .error f ∧ f.rpl = false ∧ f.perm = false)) ∧
      (∀ acc ∈ [Access.read, .atomic], Lies (sAcc 0x4000 0 hostLeaf) u0 acc 0x4000 8 hostLeaf) ∧
      ((∀ acc ∈ [Access.read, .atomic], Lies (sAcc 0x8080 0 loadLeaf) u0 acc 0x8080 8 loadLeaf) ∧
        ∃ x ∈ loadLeaf.span 0x8080 8, (sAcc 0x8080 0 loadLeaf).gpu.poisoned x.line = true)) :=
  ⟨⟨atX_of (by decide +kernel), by decide⟩, ⟨atX_of (by decide +kernel), by decide⟩, ⟨atX_of (by decide +kernel), by decide⟩,
   ⟨atX_of (by decide +kernel), by decide⟩,
   ⟨atX_of (by decide +kernel), by decide, by
      have h : (match ((sAcc 0x4000 0 noWrite).gpu.translate 0 loadCtx .write 0x4000).2 with | .error f => !f.rpl && f.perm | .ok _ => false) = true := by
        decide +kernel
      split at h
      · rename_i f e; exact ⟨f, e, by simpa using h⟩
      · exact absurd h (by simp)⟩,
   ⟨atX_of (by decide +kernel), by decide, by
      have h : (match ((sAcc 0x4000 5 loadLeaf).gpu.translate 0 loadCtx .read 0x500004000).2 with | .error f => !f.rpl && !f.perm | .ok _ => false) = true := by
        decide +kernel
      split at h
      · rename_i f e; exact ⟨f, e, by simpa using h⟩
      · exact absurd h (by simp)⟩,
   ⟨atX_of (by decide +kernel), by decide, lies_of (by decide +kernel), by decide +kernel⟩,
   fun x hx => by
      have h : calm (sAcc x.1 x.2.1 x.2.2) = true := List.all_eq_true.1 (by decide +kernel : ([(0x01000000, 0xFF00, loadLeaf), (0x404, 0xFF00, loadLeaf),
        (0x10000, 0xFF00, loadLeaf), (0xFFFFFFFC, 0xFEFF, loadLeaf), (0x4004, 0, loadLeaf), (0x4000, 5, loadLeaf), (0x4000, 0, hostLeaf),
        (0x8080, 0, loadLeaf)] : List (Word × Word × Leaf)).all (fun x => calm (sAcc x.1 x.2.1 x.2.2)) = true) x hx
      exact ⟨atI_of h _, atI_of h _, atI_of h _⟩,
   by decide, by decide, by decide, by decide, by decide, ⟨by decide, fun acc _ => by
      have h : (match ((sAcc 0x4000 5 loadLeaf).gpu.translate 0 loadCtx acc 0x500004000).2 with | .error f => !f.rpl && !f.perm | .ok _ => false) = true := by
        cases acc <;> decide +kernel
      split at h
      · rename_i f e; exact ⟨f, e, by simpa using h⟩
      · exact absurd h (by simp)⟩,
   fun acc _ => by cases acc <;> exact lies_of (by decide +kernel), fun acc _ => by cases acc <;> exact lies_of (by decide +kernel),
   by decide +kernel⟩

def noBarrierB (s : State) (u : TRef) (off size : Nat) : Bool :=
  s.gpu.wgs.all fun w => w.id != u.wg || (List.range size).all fun i => !w.tbars.contains ((off + i) / 16)
theorem noBarrier_of {s : State} {u : TRef} {off size : Nat} (h : noBarrierB s u off size = true) : NoBarrier s u off size := by
  intro w hw e i hi
  have := List.all_eq_true.1 h w hw
  simp only [e, bne_self_eq_false, Bool.false_or] at this
  simpa using List.all_eq_true.1 this i (List.mem_range.2 hi)

/-- Of 8 registers, with a record that was saved at 0x200; or with a result outstanding. -/
def sRec : State := tweak sTrap fun g => g.modWg 0 fun w => { w with regs := 8, scratch := w.scratch.setBytes 0x200 (thTrap.record 8) }
def thBusy : Thread := { thTrap with outst := [⟨.gath, 5, false, 0⟩] }

theorem witness_StateRecordsAndHalts :
    (thTrap.mode = .trap ∧ (∃ w, sRec.gpu.wg? u0.wg = some w ∧ w.place ≠ .gone ∧ w.node = none) ∧ (sRec.gpu.env u0).regs = 8 ∧
      Solo sRec u0 thTrap p (Reg.run 2 2) ∧ thTrap.quiet = true ∧ InScratch sRec u0 (thTrap.pair 2) 0x200 (64 + 4 * 8) 64 ∧
      NoBarrier sRec u0 0x200 (64 + 4 * 8) ∧ recordOk 8 ((List.range (64 + 4 * 8)).map fun i => sRec.scratchAt u0 (0x200 + i)) = true) ∧
    (Solo (one thBusy) u0 thBusy p (Reg.run 2 2) ∧ thBusy.mode = .trap ∧ thBusy.quiet = false) ∧
    (Solo sTrap u0 thTrap p [] ∧ ∃ w c, sTrap.gpu.wg? u0.wg = some w ∧ w.place ≠ .gone ∧ w.node = none ∧ sTrap.gpu.ctx? w.ctx = some c ∧
      ∀ k, c.status ≠ .fenced k) ∧
    256 ≤ 256 ∧ Store.wf 0 thTrap.regs = true :=
  ⟨⟨rfl, ⟨(sRec.gpu.wg? 0).getD (loadWg 0), by decide +kernel⟩, by decide +kernel,
    ⟨rfl, rfl, rfl, rfl, ⟨by decide +kernel, fun _ _ _ _ h => absurd h (by decide)⟩, fun t ht => by
      obtain rfl : t = u0 := by simpa using (show t ∈ [u0] from ht)
      decide +kernel, fun t ht th e _ => by
      obtain rfl : t = u0 := by simpa using (show t ∈ [u0] from ht)
      obtain rfl : thTrap = th := Option.some.inj e
      decide +kernel⟩,
    by decide +kernel, inScratch_of (by decide +kernel), noBarrier_of (by decide +kernel), by decide +kernel⟩,
   ⟨by
      refine ⟨rfl, rfl, rfl, rfl, ?_⟩
      exact issuing_of (by decide +kernel) _ _, rfl, by decide +kernel⟩,
   ⟨solo_of (by decide +kernel) rfl rfl rfl rfl _, _, loadCtx, rfl, nofun, rfl, rfl, nofun⟩, le_refl _, by decide +kernel⟩

/-! #### Events -/

/-- Two READY threads (or one) at two PCs, or a parked one, on core 0, with these bundles. -/
def thReady (pc : DWord) : Thread := { loadThread with status := .ready, pc := pc }
def sBun (ths : List (TRef × Thread)) (pend act : List Bundle) : State := tweak (bench ths []) fun g =>
  { g with cores := g.cores.map fun c => (c.1, { c.2 with pending := pend, active := act }) }
def bun (m : Mode) (order timer : Nat) : Bundle :=
  { members := [u0], launch := 0, mode := m, pc := 0x1000, entry := true, order := order, issued := 1, timer := timer }
theorem firstOf {l : List Bundle} {b : Bundle}
    (h : (l.all fun x => decide (x = b ∨ x.order ≠ b.order ∧ ((b.mode = .trap ∧ x.mode = .user) ∨ (b.mode = x.mode ∧ b.order < x.order)))) = true) :
    ∀ x ∈ l, x ≠ b → x.order ≠ b.order ∧ ((b.mode = .trap ∧ x.mode = .user) ∨ (b.mode = x.mode ∧ b.order < x.order)) :=
  fun x hx n => (of_decide_eq_true (List.all_eq_true.1 h x hx)).resolve_left n

theorem witness_BundlesFormFillAndRotate :
    (let s := sBun [(u0, thReady 0x1000), (⟨0, 1⟩, thReady 0x1000)] [] []
     s.clk.cyc % 4 = 0 ∧ (s.gpu.core 0).pending = [] ∧ s.gpu.threads = [(u0, thReady 0x1000), (⟨0, 1⟩, thReady 0x1000)] ∧
      (thReady 0x1000).status = .ready ∧ u0.lane < (⟨0, 1⟩ : TRef).lane ∧ s.gpu.coreOf u0 = 0 ∧ s.gpu.started 0 = true ∧ s.gpu.coreOf ⟨0, 1⟩ = 0 ∧
      s.gpu.bundleKey u0 (thReady 0x1000) = s.gpu.bundleKey ⟨0, 1⟩ (thReady 0x1000)) ∧
    (let s := sBun [(u0, thReady 0x1000), (⟨0, 1⟩, thReady 0x1008)] [] []
     s.gpu.bundleKey u0 (thReady 0x1000) ≠ s.gpu.bundleKey ⟨0, 1⟩ (thReady 0x1008)) ∧
    (let s := sBun [(u0, { loadThread with status := .parked .clear })] [] []
     s.gpu.threads = [(u0, { loadThread with status := .parked .clear })] ∧ s.gpu.coreOf u0 = 0 ∧ s.gpu.started 0 = true ∧
      (s.gpu.core 0).pending = [] ∧ s.clk.cyc % 4 = 0) ∧
    (let s := sBun [(u0, thReady 0x1000)] [bun .user 4 0, bun .trap 9 0, bun .trap 11 0] (List.replicate 7 (bun .user 1 0))
     bun .trap 9 0 ∈ (s.gpu.core 0).pending ∧ (s.gpu.core 0).active.length < 8 ∧
      ∀ x ∈ (s.gpu.core 0).pending, x ≠ bun .trap 9 0 →
        x.order ≠ 9 ∧ ((Mode.trap = .trap ∧ x.mode = .user) ∨ (Mode.trap = x.mode ∧ 9 < x.order))) ∧
    (let s := sBun [] [bun .user 4 0] (List.replicate 8 (bun .user 1 0))
     bun .user 4 0 ∈ (s.gpu.core 0).pending ∧ ¬ (s.gpu.core 0).active.length < 8 ∧
      ∀ x ∈ (s.gpu.core 0).pending, x ≠ bun .user 4 0 →
        x.order ≠ 4 ∧ ((Mode.user = .trap ∧ x.mode = .user) ∨ (Mode.user = x.mode ∧ 4 < x.order))) ∧
    (let s := sBun [(u0, thReady 0x1000)] [] [bun .user 1 2047, bun .user 2 2048]
     (s.gpu.core 0).active[1]? = some (bun .user 2 2048) ∧ (s.gpu.core 0).active[0]? = some (bun .user 1 2047)) :=
  ⟨by decide +kernel, by decide +kernel, by decide +kernel, ⟨by decide +kernel, by decide +kernel, firstOf (b := bun .trap 9 0) (by decide +kernel)⟩,
   ⟨by decide +kernel, by decide +kernel, firstOf (b := bun .user 4 0) (by decide +kernel)⟩, by decide +kernel⟩

/-- One thread with a pending result, a counted operation 7, and that operation. -/
def owe7 (regs : List Reg) (vals : Option (List Word)) (fl : BitVec 5) : Pending :=
  { id := 7, regs := regs, vals := vals, flags := fl, token := false, xch := false, pc := 0, word := 0 }
def op7 (k : OpKind) (cls : Cls) (res : Option (List (TRef × List Word))) : Op :=
  { id := 7, owner := u0, owners := [u0], core := 0, cls := some cls, kind := k, bySeq := none, result := res, done := false, refused := false,
    pages := [], asks := [], got := [], sent := false, pc := 0, word := 0, at_ := 0, inst := 0, ch := 0, acq := false, moved := 0, flags := 0 }
def thE (pend : List Pending) (outst : List Outst) : Thread := { loadThread with pend := pend, outst := outst }
def sE (th : Thread) (ops : List Op) (f : CoreSt → CoreSt) : State := tweak (one th) fun g =>
  { g with ops := ops, cores := g.cores.map fun c => (c.1, f c.2) }
def wE : Wg := ((sE loadThread [] id).gpu.wg? 0).getD (loadWg 0)
/-- The two conditions on threads that every clause has. -/
def Unparked (s : State) (u : TRef) : Prop :=
  (∀ x ∈ s.gpu.threads, x.1 = u → ∀ p, x.2.status ≠ .parked p) ∧ ∀ x ∈ s.gpu.threads, ∀ ids, x.2.status ≠ .parked (.rendezvous ids)
theorem unparked_of {s : State} {u : TRef} (h : (s.gpu.threads.all fun x => decide (x.2.status = .active)) = true) : Unparked s u := by
  have k : ∀ x ∈ s.gpu.threads, x.2.status = .active := fun x hx => of_decide_eq_true (List.all_eq_true.1 h x hx)
  exact ⟨fun x hx _ p e => by rw [k x hx] at e; exact absurd e (by simp), fun x hx ids e => by rw [k x hx] at e; exact absurd e (by simp)⟩
/-- The operation's own conditions. -/
def AtOp (th : Thread) (o : Op) (f : CoreSt → CoreSt) : Prop :=
  let s := sE th [o] f
  s.gpu.thread? u0 = some th ∧ Unparked s u0 ∧ s.gpu.op? 7 = some o ∧ o.owner = u0 ∧ o.owners = [u0] ∧ o.core = 0 ∧ o.done = false ∧
  o.sent = false ∧ s.gpu.faulted 7 = false ∧ s.gpu.unacked 7 = false ∧ (s.gpu.core 0).seqA = none ∧ (s.gpu.core 0).seqC = none ∧
  s.gpu.wg? u0.wg = some wE ∧ wE.tbars = []
def atOpB (th : Thread) (o : Op) (f : CoreSt → CoreSt) : Bool :=
  let s := sE th [o] f
  decide (th.status = .active ∧ s.gpu.thread? u0 = some th) && decide (s.gpu.op? 7 = some o ∧ o.owner = u0 ∧ o.owners = [u0] ∧ o.core = 0 ∧
    o.done = false ∧ o.sent = false ∧ s.gpu.faulted 7 = false ∧ s.gpu.unacked 7 = false) &&
  decide ((s.gpu.core 0).seqA = none ∧ (s.gpu.core 0).seqC = none ∧ s.gpu.wg? u0.wg = some wE ∧ wE.tbars = [])
theorem atOp_of {th : Thread} {o : Op} {f : CoreSt → CoreSt} (h : atOpB th o f = true) : AtOp th o f := by
  simp only [atOpB, Bool.and_eq_true, decide_eq_true_eq] at h
  obtain ⟨⟨⟨h1, h2⟩, h3, h4, h5, h6, h7, h8, h9, h10⟩, h11⟩ := h
  exact ⟨h2, unparked_of (by simp [sE, one, bench, benchG, tweak, h1]), h3, h4, h5, h6, h7, h8, h9, h10, h11⟩
/-- A thread that waits for operation 7 of a class. -/
def thW (regs : List Reg) (c : Cls) : Thread := thE [owe7 regs none 0] [⟨c, 7, false, 0⟩]
def push7 (c : CoreSt) : CoreSt := { c with arrq := [7, 8] }
def offs2 : List Nat := [0x100, 0xFFFFFF]
def copy7 : Copy := { src := 0xFF0000000104, dst := 0xFF0000000200, dwg := 0, shape := .rows 64 1 0 0, tb := none, sc := .dev }
def rd7 : RDesc := ⟨0, false, 0, 5, 0, 0, 0, 1, 0, 0, 3, 3, 0⟩
def mma7 : OpKind := .arr (.mma false false false false 2 2 (List.replicate 32 [0x3C003C00, 0x40004000, 0, 0, 1, 2, 3, 4]) 0x100 0x55)

/-- A ray in the unit box, its scene at offset 0x300 of the scratchpad; a triangle over pixel (0, 0) of a region of 3 × 3 at 0x100, for node 1. -/
def ray7 (x : Word) : List Word := [x, 0, 0, 0x3F800000, 0, 0, 0, 0x42C80000]
def march7 (ray : List Word) : OpKind := .march false ray 0xFF0000000300 3
def rd8 : RDesc := ⟨0, false, 0, 1, 0xFF0000000100, 0, 0, 1, 0, 0, 3, 3, 0x77⟩
def opFrag : Op := op7 (.rsub rd8 0 0 0 0) .march none
def vert8 : List Byte := List.replicate 19 0 ++ [0x41] ++ List.replicate 19 0 ++ [0x41]
def sFrag (free : List Nat) : State := tweak (sE (thW [9] .march) [opFrag] id) fun g =>
  { g.modWg 0 fun w => { w with scratch := w.scratch.setBytes 0x100 vert8 } with
    launches := [{ loadLaunch with general := free, nodes := [⟨0, 2, 32, 0, 0, 0, 1, 2⟩, ⟨0x4000, 2, 32, 0, 0, 0, 1, 0⟩], packs := [⟨[], 0, 0, 0⟩, ⟨[], 0, 0, 0⟩] }] }
def wFrag : Wg := ((sFrag []).gpu.wg? 0).getD (loadWg 0)
def tri8 : List (Word × Word × Word) :=
  let word := fun (k : Nat) => (leWord ((List.range 4).map fun i => wFrag.scratch.byte (0x100 + 48 * 0 + k + i))).setWidth 32
  (List.range 3).map fun i => (word (16 * i), word (16 * i + 4), word (16 * i + 8))
def spawn8 : PSpawn :=
  let b := baryAt 64 [(0, 0), (8, 0), (0, 8)] 0 0
  { t := u0, op := some 7, node := 1, len := 24, data := fragPayload 0 0 (fragZ b 0 0 0) 0 b 0x77 }
def ranB (s : State) (o : Op) (m : RD MEnd) : Bool := match s.dev.runRd o m with | .out _ _ l => l.poison.isNone | _ => false
theorem ran_of {s : State} {o : Op} {m : RD MEnd} (h : ranB s o m = true) : ∃ g r l, s.dev.runRd o m = .out g r l ∧ l.poison = none := by
  unfold ranB at h
  split at h
  · rename_i g r l e; exact ⟨g, r, l, e, by simpa using h⟩
  · exact absurd h (by simp)

/-- Marches that run on, and the next pixel of a submission: behind its last triangle, over no triangle, and over one that finds a record or none. -/
theorem witness_MarchesAndFragments :
    (∀ ray ∈ [ray7 0x7FC00000, [0, 0, 0, 0, 0, 0, 0x3F800000, 0], ray7 0], let o := op7 (march7 ray) .march none
      AtOp (thW [9, 10, 11, 12] .march) o id ∧ (thW [9, 10, 11, 12] .march).pend.find? (fun q => q.id == 7) = some (owe7 [9, 10, 11, 12] none 0) ∧
        ∃ g r l, (sE (thW [9, 10, 11, 12] .march) [o] id).dev.runRd o
          (marchFrom ((sE (thW [9, 10, 11, 12] .march) [o] id).dev.reader o) false ray 0xFF0000000300) = .out g r l ∧ l.poison = none) ∧
    ((fv ((ray7 0x7FC00000).getD 0 0)).isNan = true ∧ (fv 0).lt (fv 0x3F800000) = true) ∧
    (let o := op7 (.mres 3 mstate0 (some (0x3F800000, 0x3F800000))) .march none
     AtOp (thW [9, 10, 11, 12] .march) o id ∧ ∃ g r l, (sE (thW [9, 10, 11, 12] .march) [o] id).dev.runRd o
       (mstate0.resume ((sE (thW [9, 10, 11, 12] .march) [o] id).dev.reader o) 0x3F800000 0x3F800000) = .out g r l ∧ l.poison = none) ∧
    (let o := op7 (.rsub rd7 5 0 0 77) .march none
     rd7.ntri ≤ 5 ∧ (sE (thW [9] .march) [o] id).gpu.behind o = false) ∧
    (let o := op7 (.rsub { rd8 with vert := 0xFF0000000200 } 0 0 0 0) .march none
     AtOp (thW [9] .march) o id ∧ (sE (thW [9] .march) [o] id).gpu.behind o = false ∧ ((sE (thW [9] .march) [o] id).gpu.launch? wE.launch).isSome = true ∧
      ((sE (thW [9] .march) [o] id).gpu.ctx? wE.ctx).isSome = true ∧ 0x200 + 48 * 1 ≤ wE.scratchLen ∧
      (let word := fun (k : Nat) => (leWord ((List.range 4).map fun i => wE.scratch.byte (0x200 + 48 * 0 + k + i))).setWidth 32
       triArea { rd8 with vert := 0xFF0000000200 } ((List.range 3).map fun i => (word (16 * i), word (16 * i + 4), word (16 * i + 8))) = none)) ∧
    (∀ free ∈ [[0], []], let s := sFrag free
     s.gpu.thread? u0 = some (thW [9] .march) ∧ Unparked s u0 ∧ s.gpu.op? 7 = some opFrag ∧ s.gpu.wg? u0.wg = some wFrag ∧ wFrag.tbars = [] ∧
      s.gpu.behind opFrag = false ∧ (∀ l ∈ s.gpu.launches, ∀ k ∈ l.parked, k.op ≠ some 7) ∧ (s.gpu.launch? wFrag.launch).isSome = true ∧
      (s.gpu.ctx? wFrag.ctx).isSome = true ∧ rd8.vert = BitVec.ofNat 64 (0xFF0000000000 + 0x100) ∧ 0x100 + 48 * 1 ≤ wFrag.scratchLen ∧
      wFrag.scratchLen ≤ 2 ^ 24 ∧ triArea rd8 tri8 = some (64, [(0, 0), (8, 0), (0, 8)]) ∧ covers 64 [(0, 0), (8, 0), (0, 8)] 0 0 = true ∧
      ((s.dev.rasterAt 7 0 0 1).trySpawn spawn8).isSome = (free == [0])) :=
  ⟨fun ray h => by
    obtain rfl | rfl | rfl : ray = ray7 0x7FC00000 ∨ ray = [0, 0, 0, 0, 0, 0, 0x3F800000, 0] ∨ ray = ray7 0 := by simpa using h
    all_goals exact ⟨atOp_of (by decide +kernel), by decide +kernel, ran_of (by decide +kernel)⟩, by decide +kernel,
   ⟨atOp_of (by decide +kernel), ran_of (by decide +kernel)⟩, by decide +kernel,
   ⟨atOp_of (by decide +kernel), by decide +kernel⟩, fun free h => by
    obtain rfl | rfl : free = [0] ∨ free = [] := by simpa using h
    all_goals exact ⟨by decide +kernel, unparked_of (by decide +kernel), by decide +kernel⟩⟩

theorem witness_ResultsReturnAndOperationsRetire :
    (let s := sE (thE [owe7 [9, 10] (some [3, 4]) 3] []) [] id
     s.gpu.thread? u0 = some (thE [owe7 [9, 10] (some [3, 4]) 3] []) ∧ Unparked s u0 ∧
      (thE [owe7 [9, 10] (some [3, 4]) 3] []).pend.find? (fun q => q.id == 7) = some (owe7 [9, 10] (some [3, 4]) 3) ∧
      fpeTraps (s.gpu.env u0) (thE [owe7 [9, 10] (some [3, 4]) 3] []) 3 = false) ∧
    (let s := sE (thE [] [⟨.gath, 5, true, 0⟩, ⟨.gath, 6, false, 0⟩]) [{ op7 (.gth false [] 4) .gath none with id := 5 }] id
     s.gpu.thread? u0 = some (thE [] [⟨.gath, 5, true, 0⟩, ⟨.gath, 6, false, 0⟩]) ∧ Unparked s u0 ∧
      (thE [] [⟨.gath, 5, true, 0⟩, ⟨.gath, 6, false, 0⟩]).outst.find? (fun o => o.cls == .gath) = some ⟨.gath, 5, true, 0⟩ ∧ s.gpu.faulted 5 = false ∧
      s.gpu.unacked 5 = false ∧ ∀ q, s.gpu.op? 5 = some q → ∃ k es d, q.kind = .gth k es d) ∧
    (AtOp (thW [9, 10] .gath) (op7 (.gth false (offs2.map fun o => BitVec.ofNat 64 (0xFF0000000000 + o)) 9) .gath none) id ∧
      (thW [9, 10] .gath).pend.find? (fun q => q.id == 7) = some (owe7 [9, 10] none 0) ∧ (∀ o ∈ offs2, o < 2 ^ 24) ∧
      ∀ q ∈ (sE (thW [9, 10] .gath) [op7 (.gth false (offs2.map fun o => BitVec.ofNat 64 (0xFF0000000000 + o)) 9) .gath none] id).gpu.ops,
        q.inst = 0 → 7 ≤ q.id) ∧
    (AtOp (thW [9, 10] .march) (op7 (.mqry false 3) .march (some [(u0, [8, 9])])) id ∧ (thW [9, 10] .march).pend.find? (fun q => q.id == 7) = some (owe7 [9, 10] none 0)) ∧
    (AtOp (thW [9, 10, 11, 12] .march) (op7 (.mres 3 mstate0 none) .march none) id ∧
      (thW [9, 10, 11, 12] .march).pend.find? (fun q => q.id == 7) = some (owe7 [9, 10, 11, 12] none 0)) ∧
    (AtOp (thW [9] .march) (op7 (.rsub rd7 5 0 0 77) .march none) id ∧ rd7.ntri ≤ 5 ∧
      ∀ l ∈ (sE (thW [9] .march) [op7 (.rsub rd7 5 0 0 77) .march none] id).gpu.launches, ∀ k ∈ l.parked, k.op ≠ some 7) ∧
    (AtOp (thE [] [⟨.copy, 7, false, 0⟩]) (op7 (.copy copy7) .copy none) id ∧ copy7.shape = .rows 64 1 0 0 ∧ copy7.src = BitVec.ofNat 64 (0xFF0000000000 + 0x104) ∧
      copy7.dst = BitVec.ofNat 64 (0xFF0000000000 + 0x200) ∧ (sE (thE [] [⟨.copy, 7, false, 0⟩]) [op7 (.copy copy7) .copy none] id).gpu.wg? copy7.dwg = some wE) ∧
    (AtOp (thE [] [⟨.arr, 7, false, 0⟩]) (op7 (.arr (.zero 2)) .arr none) push7 ∧
      ((sE (thE [] [⟨.arr, 7, false, 0⟩]) [op7 (.arr (.zero 2)) .arr none] push7).gpu.core 0).arrq = 7 :: [8] ∧ Store.wf 0 wE.tiles = true) ∧
    (AtOp (thE [] [⟨.arr, 7, false, 0⟩]) (op7 mma7 .arr none) push7 ∧ fmwOf 0x55 = some fwH ∧ 2 ∈ wE.tmap) ∧
    (∀ op ∈ [0, 1], let s := sE (thE [] [⟨.arr, 7, false, 0⟩]) [op7 (.seq .array) .arr none] fun c => { c with seqA := some (seq7 op) }
     s.gpu.thread? u0 = some (thE [] [⟨.arr, 7, false, 0⟩]) ∧ Unparked s u0 ∧ (s.gpu.core 0).seq .array = some (seq7 op) ∧ s.gpu.wg? (seq7 op).wg = some wE ∧
      (seq7 op).tab[(seq7 op).idx]? = some (est op) ∧ s.gpu.faulted (seq7 op).fork = false ∧
      ((wE.teams[(seq7 op).team]?.bind Team.fork).bind ForkSt.fault) = none ∧ (est op).op = op) :=
  ⟨⟨rfl, unparked_of (by decide +kernel), by decide +kernel, by decide +kernel⟩,
   ⟨rfl, unparked_of (by decide +kernel), by decide +kernel, by decide +kernel, by decide +kernel, fun q e => by
      obtain rfl : { op7 (.gth false [] 4) .gath none with id := 5 } = q := Option.some.inj e
      exact ⟨_, _, _, rfl⟩⟩,
   ⟨atOp_of (by decide +kernel), by decide +kernel, by decide +kernel, by decide +kernel⟩, ⟨atOp_of (by decide +kernel), by decide +kernel⟩,
   ⟨atOp_of (by decide +kernel), by decide +kernel⟩, ⟨atOp_of (by decide +kernel), by decide, fun l hl k hk => by
      obtain rfl : l = loadLaunch := List.mem_singleton.1 hl
      exact absurd (show k ∈ ([] : List PSpawn) from hk) (by simp)⟩,
   ⟨atOp_of (by decide +kernel), rfl, by decide, by decide, by decide +kernel⟩,
   ⟨atOp_of (by decide +kernel), by decide +kernel, by decide +kernel⟩, ⟨atOp_of (by decide +kernel), by decide +kernel, by decide +kernel⟩,
   fun op h => by
     obtain rfl | rfl : op = 0 ∨ op = 1 := by simpa using h
     all_goals exact ⟨rfl, unparked_of (by decide +kernel), by decide +kernel⟩⟩

/-- L2's dirty lines of a compressed page of partition 0, whose control block stands at 0x10000 and whose record at 0x20000 is live; an L1 line and a store FIFO. -/
def cblock : List Byte :=
  [1, 0, 0, 0, 4, 0, 0, 0, 0, 0, 2, 0, 0, 0, 0, 0, 0, 0, 4, 0, 0, 0, 0, 0, 8, 0, 0, 0, 2, 0, 0, 0, 0, 0x10, 1, 0, 0, 0, 0, 0, 0, 0, 0, 0, 3, 0, 0, 0] ++
    List.replicate 16 0
def l2At (i : Nat) (pin : Option Nat) : L2Line := { key := ⟨.comp 0, i⟩, part := 0, data := 0, res := false, pin := pin }
def l1At (i : Nat) (d : BitVec 128) : L1Line := { key := ⟨.dev, i⟩, data := 0x123456789ABCDEF00000, dirty := d, filled := 0, dirtied := 0, bad := false, res := true, rank := 0 }
def fifo1 : FifoEntry :=
  { t := u0, pc := 0, word := 0, inst := 0, cells := [(⟨.dev, 0x4005⟩, 0x99)], attr := ⟨1, 0, 0⟩, bypass := false, res := false }
def sLn (l1 : List L1Line) (fifo : List FifoEntry) (l2 : List L2Line) (th : Thread) : State := tweak (one th) fun g =>
  let m := ((g.mem.setDevBytes 0x10000 cblock).setDevBytes 0x11000 [5, 0, 0, 0, 1, 0, 0, 0, 7, 0, 0, 0]).setDevBytes 0x20000 [1]
  { (g.modPart 0 fun p => { p with comp := some 0x10000 }) with
    mem := { m with l2 := l2 }, cores := g.cores.map fun c => (c.1, { c.2 with l1 := l1, fifo := fifo }) }
def thRes : Thread := { loadThread with resv := some ⟨⟨.dev, 5⟩, 1⟩ }
def thInv : Thread := { loadThread with status := .parked (.inval .die (some 0) none) }

theorem witness_LinesStoresAndReservationsAge :
    ((sLn [] [] [] thRes).gpu.thread? u0 = some thRes ∧ thRes.resv = some ⟨⟨.dev, 5⟩, 1⟩) ∧
    ((sLn [l1At 0x80 0, l1At 0x81 1] [] [] loadThread).gpu.core 0).l1.all (fun k => decide (k.key.idx = 0x80 → k.dirty = 0)) = true ∧
    (let s := sLn [l1At 0x80 0xF0F] [fifo1] [] loadThread
     (s.gpu.core 0).l1 = [l1At 0x80 0xF0F] ∧ s.gpu.poisoned (l1At 0x80 0xF0F).key = false ∧ s.gpu.noWay (l1At 0x80 0xF0F).key = false ∧
      (∀ k ∈ (s.gpu.core 0).fifo, ∀ y ∈ k.cells, s.gpu.noWay y.1.line = false) ∧ Store.wf none s.gpu.mem.l2dev = true ∧
      s.gpu.cores.find? (fun c => c.2.fifo.any fun k => k.t == u0) = some (0, s.gpu.core 0) ∧
      (s.gpu.core 0).fifo.find? (fun k => k.t == u0) = some fifo1 ∧ (s.gpu.core 0).fifo.all (fun k => k.t == u0) = true ∧
      s.gpu.poisoned ⟨.dev, 0x4005 / 128⟩ = false) ∧
    (let s := sLn [] [{ fifo1 with t := ⟨0, 5⟩ }, fifo1] [] loadThread
     s.gpu.cores.find? (fun c => c.2.fifo.any fun k => k.t == u0) = some (0, s.gpu.core 0) ∧
      (s.gpu.core 0).fifo.find? (fun k => k.t == u0) = some fifo1 ∧ (s.gpu.core 0).fifo = [{ fifo1 with t := ⟨0, 5⟩ }, fifo1]) ∧
    ((sLn [] [] [] thInv).gpu.thread? u0 = some thInv ∧ thInv.status = .parked (.inval .die (some 0) none)) ∧
    ((sLn [] [] [l2At 5 none] loadThread).gpu.launches.all (fun l => l.fin.isNone) = true) ∧
    (∃ g, (sLn [] [] [l2At 5 none] loadThread).gpu.mem.l2.find? (fun k => k.part == 0 && k.pin.isNone && k.key == ⟨.comp 0, 512 * 0 + 5⟩) = some (l2At 5 none) ∧
      (sLn [] [] [l2At 5 none] loadThread).dev.nextPin 0 = none ∧ (sLn [] [] [l2At 5 none] loadThread).dev.tryWriteback (l2At 5 none) = some g) ∧
    (sLn [] [] [l2At 5 none, l2At 6 (some 1)] loadThread).dev.nextPin 0 = some (l2At 6 (some 1)) :=
  ⟨⟨rfl, rfl⟩, by decide +kernel, by decide +kernel, by decide +kernel, ⟨rfl, rfl⟩, by decide +kernel, by
    obtain ⟨g, h⟩ := Option.isSome_iff_exists.1 (by decide +kernel : ((sLn [] [] [l2At 5 none] loadThread).dev.tryWriteback (l2At 5 none)).isSome = true)
    exact ⟨g, by decide +kernel, by decide +kernel, h⟩, by decide +kernel⟩

/-- A state at this core cycle and PTP time. -/
def atTime (cyc ptp : Nat) (s : State) : State := { s with clk := { s.clk with cyc := cyc, ptp := ptp } }
def withLaunch (l : Launch) (s : State) : State := tweak s fun g => { g with launches := [l] }
def wgOf (s : State) : Wg := s.gpu.wgs.headD (loadWg 0)
def thExit : Thread := { loadThread with status := .exiting }
def thExitDue : Thread := { thExit with deferred := [⟨3, 4, 5, 6, 7⟩] }
def sExit : State := bench [(u0, thExit), (⟨0, 1⟩, { loadThread with status := .exited })] []
def lBatch : Launch :=
  { loadLaunch with
    nodes := [⟨0x4000, 3, 32, 2, 0, 0, 1, 0⟩], desc := { loadLaunch.desc with pooln := 4 }, packs := [⟨[⟨1, 0, none⟩, ⟨2, 1, none⟩], 100, 7, 0⟩] }
def gangR : Gang := { idx := 0, pairadj := false, report := true, members := [0], e := 1, phase := false, arr := [], ends := [(0, 0, 5)], written := false }
/-- The workgroup has used 40 cycles before it was placed at cycle 5, of a budget of 100. -/
def sBudget : State := atTime 65 3 (tweak (one loadThread) fun g => g.modWg 0 fun w => { w with time := { w.time with budget := 100, used := 40, since := some 5 } })
def lDeadline : Launch := { loadLaunch with desc := { loadLaunch.desc with deadline := some 5 } }
def leave7 : LeaveReq := ⟨3, 0, 0, 4, 65535, some 7⟩
def opLeave : Op := { op7 (.leave 4 65535) .arr none with cls := none }
def thLeave : Thread := thE [{ owe7 [9] none 0 with token := true }] []
def sLeave : State := withLaunch lDeadline (tweak (sE thLeave [opLeave] id) fun g => { g with gov := { g.gov with reqs := [leave7] } })
def sGrant (cyc : Nat) : State := atTime cyc 0 (tweak (one loadThread) fun g => g.modWg 0 fun w => w.modTeam 0 fun t => { t with grant := some ⟨3, 66, 1⟩ })

theorem witness_ExitsBatchesBudgetsAndGrants :
    (sExit.gpu.thread? u0 = some thExit ∧ thExit.status = .exiting ∧ sExit.gpu.started u0.wg = true ∧ thExit.pend = [] ∧ thExit.outst = [] ∧ sExit.gpu.fifoEmpty (sExit.gpu.coreOf u0) u0 = true ∧
      (sExit.gpu.launches.all fun l => l.parked.isEmpty) = true ∧ thExit.due = [] ∧ thExit.deferred = [] ∧
      sExit.gpu.threads.all (fun x => decide (x.1.wg = u0.wg → x.1 ≠ u0 → x.2.status = .exited)) = true ∧ sExit.gpu.wg? u0.wg = some (wgOf sExit) ∧
      (wgOf sExit).place ≠ .gone) ∧
    ((one thExitDue).gpu.thread? u0 = some thExitDue ∧ thExitDue.status = .exiting ∧ (one thExitDue).gpu.started u0.wg = true ∧ thExitDue.pend = [] ∧ thExitDue.outst = [] ∧
      (one thExitDue).gpu.fifoEmpty ((one thExitDue).gpu.coreOf u0) u0 = true ∧ thExitDue.due ++ thExitDue.deferred ≠ [] ∧ thExitDue.mode = .user) ∧
    (let th := { thExitDue with mode := .trap }
     (one th).gpu.thread? u0 = some th ∧ (one th).gpu.started u0.wg = true ∧ (one th).gpu.fifoEmpty ((one th).gpu.coreOf u0) u0 = true ∧ (∃ d ∈ th.due ++ th.deferred, d.kind ≠ TrapKind.fpe.code) ∧
      (one th).gpu.wg? u0.wg = some (wgOf (one th)) ∧ (one th).gpu.ctx? (wgOf (one th)).ctx = some loadCtx ∧ loadCtx.status = .live) ∧
    (let s := atTime 612 0 (withLaunch lBatch (one loadThread))
     s.gpu.launch? lBatch.id = some lBatch ∧ s.gpu.launchSaved lBatch = false ∧
      lBatch.nodes[0]? = some ⟨0x4000, 3, 32, 2, 0, 0, 1, 0⟩ ∧ (lBatch.pack 0).recs ≠ [] ∧ (lBatch.pack 0).since + 256 * 2 ≤ s.clk.cyc) ∧
    (let l := { loadLaunch with gangs := [gangR] }
     (withLaunch l (one loadThread)).gpu.launch? l.id = some l ∧ l.nextReport = some gangR ∧ (withLaunch l (one loadThread)).gpu.dirtyWait = false) ∧
    (sBudget.gpu.wg? (wgOf sBudget).id = some (wgOf sBudget) ∧ (wgOf sBudget).core?.isSome = true ∧ (wgOf sBudget).time.since = some 5 ∧
      (wgOf sBudget).time.budget ≤ (wgOf sBudget).time.used + (sBudget.clk.cyc - 5)) ∧
    (sLeave.gpu.gov.reqs.find? (fun x => x.id == leave7.id) = some leave7 ∧ sLeave.gpu.wg? leave7.wg = some (wgOf sLeave) ∧
      (wgOf sLeave).core?.isSome = true ∧ sLeave.gpu.launch? (wgOf sLeave).launch = some lDeadline ∧ lDeadline.desc.deadline.isSome = true ∧
      leave7.op = some 7 ∧ sLeave.gpu.op? 7 = some opLeave ∧ opLeave.owners = [u0] ∧ sLeave.gpu.thread? u0 = some thLeave ∧
      (thLeave.pend.find? (fun x => x.id == 7)).isSome = true) ∧
    (∀ cyc ∈ [65, 66], (sGrant cyc).gpu.wg? (wgOf (sGrant cyc)).id = some (wgOf (sGrant cyc)) ∧
      (wgOf (sGrant cyc)).teams[0]? = some { Team.start with grant := some ⟨3, 66, 1⟩ }) :=
  ⟨by decide +kernel, by decide +kernel, by decide +kernel, by decide +kernel, by decide +kernel, by decide +kernel, by decide +kernel, fun c h => by
    obtain rfl | rfl : c = 65 ∨ c = 66 := by simpa using h
    all_goals exact ⟨rfl, rfl⟩⟩

/-- A launch of three workgroups of 3 threads on halves of cores, two of them not yet placed, and nothing on the device. -/
def lWait : Launch :=
  { loadLaunch with
    id := 4, waiting := [1, 2], desc := { loadLaunch.desc with wgcount := 3, wgsize := 3, tiles := 4, scratch := 4096, split := 2, regs := 32 } }
def sWait : State := tweak (one loadThread) fun g => { g with nextId := 9, wgs := [], threads := [], cores := [], launches := [lWait] }
def lResv : Launch := { loadLaunch with id := 4, status := .reserved, alloc := some ⟨[0, 1], 5, 100⟩, desc := { loadLaunch.desc with deadline := some 500 } }
/-- Another launch runs in its reservation of core 2. -/
def lOther : Launch := { lResv with id := 5, status := .running, alloc := some ⟨[2], 0, 100⟩ }
def sResv : State := atTime 5 0 (tweak sWait fun g => { g with launches := [lResv, lOther] })
/-- A batch of a best-effort launch on core 0, which the reservation takes. -/
def sVacate : State := atTime 5 0 (tweak (one loadThread) fun g =>
  { g with launches := [loadLaunch, lResv], wgs := g.wgs.map fun w => { w with node := some 0 } })
/-- A gang's member on core 0, which may move to core 3: a pair of another launch waits for cores 0 and 1. -/
def lMove : Launch := { loadLaunch with gangs := [gang0], desc := { loadLaunch.desc with tiles := 4, scratch := 4096 } }
def lPair : Launch :=
  { lMove with
    id := 4, status := .queued, waiting := [0, 1], gangs := [{ gang0 with pairadj := true, members := [0, 1] }]
    desc := { loadLaunch.desc with wgcount := 2, split := 2 } }
def sMove : State := tweak (one loadThread) fun g => { g with launches := [lMove, lPair] }
def idleB (s : State) (w : Wg) : Bool :=
  s.gpu.ops.isEmpty &&
  (s.gpu.threads.all fun x => x.1.wg != w.id || (!s.gpu.owesAck x.1 && decide (s.gpu.releaseWait (s.gpu.coreOf x.1) x.1 .sys = none))) &&
  s.gpu.cores.all fun c => c.2.fifo.isEmpty
/-- A launch of priority 7 whose workgroup fits nowhere, and a batch of priority 0 placed 1 ms ago. -/
def lHigh : Launch := { loadLaunch with id := 4, waiting := [0], desc := { loadLaunch.desc with scratch := 1000000000, prio := 7 } }
def sHigh : State := atTime 100000000 0 (tweak (one loadThread) fun g =>
  { g with launches := [lHigh, { loadLaunch with nodes := [⟨0x4000, 3, 32, 2, 0, 0, 1, 0⟩] }], wgs := g.wgs.map fun w => { w with node := some 0 } })

theorem witness_WorkgroupsArePlacedAndMoved :
    (sWait.gpu.launch? lWait.id = some lWait ∧ lWait.gangs = [] ∧ lWait.queue = [] ∧ sWait.gpu.savedWg lWait = none ∧ lWait.waiting.head? = some 1 ∧
      sWait.dev.fitsItem lWait (.root 1) 191 = true ∧ sWait.gpu.launches.all (fun k => !k.before lWait) = true) ∧
    (sResv.gpu.launch? lResv.id = some lResv ∧ lResv.status = .reserved ∧ lResv.alloc = some ⟨[0, 1], 5, 100⟩ ∧ 5 ≤ sResv.clk.cyc ∧ lResv.queue = [] ∧
      lResv.desc.deadline.isSome = true ∧ sResv.gpu.savedWg lResv = none ∧
      sResv.gpu.launches.all (fun k => k.id == lResv.id || k.alloc.all fun b => [0, 1].all fun c => !b.cores.contains c) = true ∧ sResv.gpu.wgs = []) ∧
    (sVacate.gpu.launch? lResv.id = some lResv ∧ sVacate.gpu.wg? (wgOf sVacate).id = some (wgOf sVacate) ∧ (wgOf sVacate).node.isSome = true ∧
      (wgOf sVacate).place = .core 0 ∧ sVacate.gpu.launch? (wgOf sVacate).launch = some loadLaunch ∧ loadLaunch.desc.deadline = none ∧
      sVacate.gpu.launches.all (fun k => k.id == lResv.id || k.alloc.isNone) = true ∧ idleB sVacate (wgOf sVacate) = true) ∧
    (sMove.gpu.launch? lMove.id = some lMove ∧ sMove.gpu.wg? (wgOf sMove).id = some (wgOf sMove) ∧ (wgOf sMove).launch = lMove.id ∧
      (wgOf sMove).place = .core 0 ∧ lMove.paired (wgOf sMove) = false ∧ sMove.dev.movers lMove (wgOf sMove) = [wgOf sMove] ∧
      idleB sMove (wgOf sMove) = true ∧ sMove.dev.mayMigrate lMove [wgOf sMove] (fun _ => 3) = true ∧
      (sMove.dev.without [(wgOf sMove).id]).allTake lMove [(wgOf sMove, 3)] = true ∧ sMove.dev.fwdFree [wgOf sMove] = true) ∧
    (sHigh.gpu.launch? lHigh.id = some lHigh ∧ sHigh.gpu.wg? (wgOf sHigh).id = some (wgOf sHigh) ∧ (wgOf sHigh).node.isSome = true ∧
      lHigh.desc.deadline = none ∧ sHigh.dev.mayPlace lHigh = true ∧ (sHigh.dev.nextItem lHigh).isSome = true ∧ sHigh.dev.autoSpot lHigh = none ∧
      sHigh.dev.victims lHigh = [wgOf sHigh] ∧ idleB sHigh (wgOf sHigh) = true) := by
  refine ⟨?_, ?_, ?_, ?_, ?_⟩ <;> decide +kernel

/-- Partition 0 with this BAR 0, this many HSEQs accepted, and these bytes of host memory. -/
def bar7 : Bar0 :=
  { Bar0.reset with
    sqbase := 0x10000, sqcfg := 0x80000006, sqtail := 5, sqhead := 63, cqbase := 0x20000, cqcfg := 0x80000007, cqhead := 3, cqtail := 127,
    fqbase := 0x30000, fqcfg := 0x80000006, fqhead := 2, fqtail := 63 }
def compl3 : Compl := { hseq := 3, status := 3, detail := 2, kind := 1, ctx := 4, tier := 1, value := 0x123456789A, time := 99 }
def faultRec (n : Nat) (w : Bool) : FaultRec :=
  { seq := n, va := 0x123000, asid := 0, access := 1, cause := 1, core := 0, ctx := 0, lanes := [u0], ops := [], conns := [], written := w }
def sHost (m : Memory) : State := tweak (one loadThread) fun g =>
  { (g.modPart 0 fun p => { p with bar := bar7, expect := 7, outbox := [compl3], faults := [faultRec 1 true, faultRec 2 false] }) with
    mem := { g.mem with host0 := m } }
def partOf (s : State) : Part := (s.gpu.part? 0).getD (.fresh 0 .all)
/-- The entry in slot 63: HSEQ 7 or 8, command 4. -/
def entryAt (hseq : Byte) : Memory := [(0x10FC0, hseq), (0x10FC4, 4)]

theorem witness_RingsAndRegisters :
    (∀ h ∈ [7, 8], let s := sHost (entryAt h)
     s.gpu.part? 0 = some (partOf s) ∧ (partOf s).bar = bar7 ∧ bar7.sqcfg.getLsbD 31 = true ∧ bar7.stopped = false ∧
      bar7.sqhead.toNat % 64 ≠ bar7.sqtail.toNat % 64 ∧ (partOf s).expect = 7 ∧
      field (s.gpu.hostBytes (partOf s).entry.port (0x10000 + 64 * 63) 64) 0 4 = h.toNat) ∧
    (let s := sHost (entryAt 7)
     let h := s.gpu.hostBytes (partOf s).entry.port (0x10000 + 64 * 63) 64
     s.gpu.deadlineEntry 0 h = false ∧ badEntry h = false ∧ (partOf s).cmds = []) ∧
    (let s := sHost []
     (partOf s).outbox = compl3 :: [] ∧ bar7.cqcfg.getLsbD 31 = true ∧ (bar7.cqtail.toNat + 1) % 128 ≠ bar7.cqhead.toNat % 128 ∧
      (partOf s).faults.find? (fun r => !r.written) = some (faultRec 2 false) ∧ bar7.fqcfg.getLsbD 31 = true ∧
      (bar7.fqtail.toNat + 1) % 64 ≠ bar7.fqhead.toNat % 64 ∧ Store.wf (0 : Byte) s.gpu.mem.host0 = true ∧ Store.wf (0 : Byte) s.gpu.mem.host1 = true ∧
      (List.range 32).all (fun i => !s.gpu.poisoned (⟨.host (partOf s).entry.port, 0x20000 + 32 * 127 + i⟩ : Phys).line &&
        !s.gpu.poisoned (⟨.host (partOf s).entry.port, 0x30000 + 32 * 63 + i⟩ : Phys).line) = true) :=
  ⟨fun h hh => by
    obtain rfl | rfl : h = 7 ∨ h = 8 := by simpa using hh
    all_goals decide +kernel, by decide +kernel, by decide +kernel⟩

/-- Command 7 of partition 0 in its turn, of context 0 (accepted at cycle 3), with the hub's translation of the one page. -/
def le (n v : Nat) : List Byte := (List.range n).map fun i => BitVec.ofNat 8 (v / 256 ^ i)
def cmd7 (c : Nat) (args : List Byte) : Cmd :=
  { hseq := 7, cmd := c, ctx := 0, args := args ++ List.replicate (48 - args.length) 0, form := false, answered := false,
    owes := [1, 3, 5, 6, 7, 10, 12, 13].contains c, at_ := 3 }
def sCmd (c : Cmd) (f : Gpu → Gpu) : State := tweak (one loadThread) fun g =>
  let g := g.modPart 0 fun p => { p with cmds := [c], expect := 9 }
  f { g with mem := { g.mem with hubtlb := [{ asid := 0, vpn := 0, leaf := loadLeaf }] } }
/-- Bytes put in memory, above those that were put there before. -/
def poke (a : Nat) (b : List Byte) (g : Gpu) : Gpu :=
  { g with mem := { g.mem with dev := g.mem.dev ++ (b.zipIdx.map fun x => (a + x.2, x.1)).filter fun x => x.2 != 0 } }
def fenceAll (g : Gpu) : Gpu := { g with ctxs := g.ctxs.map fun c => { c with status := .fenced 5 } }
/-- A launch descriptor (R59) of three workgroups; its tiers stand at 0x8000. -/
def ldesc (form flags size regs deadline : Nat) : List Byte :=
  le 2 form ++ le 2 flags ++ le 4 3 ++ le 2 size ++ le 2 regs ++ [1, 0, 4, 2] ++ le 4 4096 ++ [3, 1, 0, 0] ++ le 8 deadline ++ List.replicate 64 0 ++
    le 8 0x8000 ++ le 4 1000
def sLaunch (d : List Byte) (f : Gpu → Gpu) : State := sCmd (cmd7 1 (le 8 0x6000)) fun g => f (poke 0x6000 d g)
def ctxOf (s : State) : Ctx := s.gpu.ctxs.headD loadCtx
/-- The launch that it reads. -/
def lRead (size regs : Nat) (deadline : Option Nat) : Launch :=
  { loadLaunch with
    id := 1, hseq := 7, status := .queued, accepted := 3, waiting := [0, 1, 2]
    desc := { loadLaunch.desc with
      wgcount := 3, wgsize := size, regs := regs, tiles := 4, power := 2, scratch := 4096, prio := 3, tiers := [⟨0x8000, 1000⟩], deadline := deadline } }

/-- The command in its turn, of the context in slot 0, and its partition. -/
def atCmdB (s : State) (n : Nat) (c : Cmd) (x : Ctx) : Bool :=
  decide (s.gpu.command 0 7 n = some c) && decide (s.gpu.cmdCtx 0 c = some x) && decide (s.gpu.part? 0 = some (partOf s))
def AtCmd (s : State) (n : Nat) (c : Cmd) (x : Ctx) : Prop := OnTurn s 0 7 n c x ∧ s.gpu.part? 0 = some (partOf s)
theorem atCmd_of {s : State} {n : Nat} {c : Cmd} {x : Ctx} (h : atCmdB s n c x = true) : AtCmd s n c x := by
  simp only [atCmdB, Bool.and_eq_true, decide_eq_true_eq] at h
  exact ⟨⟨h.1.1, h.1.2⟩, h.2⟩
def launch7 : Cmd := cmd7 1 (le 8 0x6000)
def admB (s : State) (l : Launch) (ok : Bool) : Bool :=
  match s.dev.placeLaunch l loadCtx (partOf s) with | .ok _ => ok | .error _ => !ok
theorem adm_ok {s : State} {l : Launch} (h : admB s l true = true) : ∃ i k, s.dev.placeLaunch l loadCtx (partOf s) = .ok (i, k) := by
  unfold admB at h
  split at h
  · rename_i v e; exact ⟨v.1, v.2, e⟩
  · exact absurd h (by simp)
theorem adm_error {s : State} {l : Launch} (h : admB s l false = true) : ∃ d, s.dev.placeLaunch l loadCtx (partOf s) = .error d := by
  unfold admB at h
  split at h
  · exact absurd h (by simp)
  · rename_i d e; exact ⟨d, e⟩

theorem witness_LaunchIsAdmittedOrRefused :
    AtCmd (sLaunch [] fenceAll) 1 launch7 { loadCtx with status := .fenced 5 } ∧
    (AtCmd (sLaunch (ldesc 2 0 40 32 0) id) 1 launch7 loadCtx ∧ (∀ st, loadCtx.status ≠ .fenced st) ∧
      (sLaunch (ldesc 2 0 40 32 0) id).dev.readLaunch loadCtx launch7 = none) ∧
    (let s := sLaunch (ldesc 1 0 1024 256 0) id
     AtCmd s 1 launch7 loadCtx ∧ s.dev.readLaunch loadCtx launch7 = some (lRead 1024 256 none) ∧
      (lRead 1024 256 none).shapeOk (partOf s).entry.cores = false) ∧
    (let s := sLaunch (ldesc 1 0 40 32 0) id
     AtCmd s 1 launch7 loadCtx ∧ s.dev.readLaunch loadCtx launch7 = some (lRead 40 32 none) ∧ (lRead 40 32 none).shapeOk (partOf s).entry.cores = true) ∧
    (let s := sLaunch (ldesc 1 1 40 32 100000000) id
     AtCmd s 1 launch7 loadCtx ∧ s.dev.readLaunch loadCtx launch7 = some (lRead 40 32 (some 100000000)) ∧
      (lRead 40 32 (some 100000000)).shapeOk (partOf s).entry.cores = true ∧ ∃ i k, s.dev.placeLaunch (lRead 40 32 (some 100000000)) loadCtx (partOf s) = .ok (i, k)) ∧
    (let s := sLaunch (ldesc 1 1 40 32 1) id
     AtCmd s 1 launch7 loadCtx ∧ s.dev.readLaunch loadCtx launch7 = some (lRead 40 32 (some 1)) ∧ ∃ d, s.dev.placeLaunch (lRead 40 32 (some 1)) loadCtx (partOf s) = .error d) :=
  ⟨atCmd_of (by decide +kernel), ⟨atCmd_of (by decide +kernel), nofun, by decide +kernel⟩,
   ⟨atCmd_of (by decide +kernel), by decide +kernel, by decide +kernel⟩, ⟨atCmd_of (by decide +kernel), by decide +kernel, by decide +kernel⟩,
   ⟨atCmd_of (by decide +kernel), by decide +kernel, by decide +kernel, adm_ok (by decide +kernel)⟩,
   atCmd_of (by decide +kernel), by decide +kernel, adm_error (by decide +kernel)⟩

/-- A context descriptor (R346) with ASID 5 and its save area at 0x90000. -/
def ctxd : List Byte :=
  le 2 1 ++ le 2 5 ++ [0, 5, 0, 0] ++ le 8 0x1000 ++ le 8 0x2000 ++ le 8 0x90000 ++ le 8 0x100000 ++ le 8 0 ++ le 4 64 ++ le 4 0 ++ le 8 0x4000 ++ le 2 7
def create7 : Cmd := cmd7 2 (le 8 0x6000)
def sCreate : State := sCmd create7 (poke 0x6000 ctxd)
def ctxNew : Ctx := (sCreate.gpu.readCtx (partOf sCreate) 0 0x6000).getD loadCtx
def saveCtx : Ctx := { loadCtx with save := 0x90000, savelen := 0x100000, desc := 0x6000 }
def onCtx (x : Ctx) (g : Gpu) : Gpu := { g with ctxs := [x], wgs := [], threads := [] }
/-- A saved context's area: an empty save, with the integrity word that Config gives it. -/
def integ : Memory := (List.range 8).map fun i => (0x90018 + i, BitVec.ofNat 8 ((Config.saveInteg []).toNat / 256 ^ i))
def sRest : State := sCmd (cmd7 6 []) fun g =>
  let g := onCtx { saveCtx with status := .saved, drops := 3 } (poke 0x6000 ctxd g)
  { g with mem := { g.mem with dev := g.mem.dev ++ [(0x90000, 1), (0x90002, 1), (0x90008, 64)] ++ integ } }
def lift7 : Ctx := { loadCtx with lift := some 7 }
def sLift : State := atTime 4000003 0 (tweak (sCmd (cmd7 7 []) id) fun g =>
  { (g.modPart 0 fun p => { p with cmds := [{ cmd7 7 [] with answered := true }] }) with ctxs := [lift7] })
/-- The one thread waits for the answer to fault 5. -/
def thFault : Thread := { loadThread with status := .parked (.fault 0 5 0x77 0x123456) }
def sFault (ans : Nat) : State := tweak (sCmd (cmd7 9 (le 4 5 ++ le 4 ans)) id) fun g =>
  { (g.modPart 0 fun p => { p with faults := [faultRec 5 true] }) with threads := [(u0, thFault)] }
def sPage (c : Cmd) : State := sCmd c fun g => (poke 0x10000 cblock g).modPart 0 fun p => { p with comp := some 0x10000 }

/-- Byte i of the integrity word. -/
def integB (i : Nat) : Byte := BitVec.ofNat 8 ((Config.saveInteg []).toNat / 256 ^ i)
def head24 : List Byte := [1, 0, 1, 0, 0, 0, 0, 0, 64, 0, 0, 0, 0, 0, 0, 0, 0, 0, 0, 0, 0, 0, 0, 0]
def saveHead : List Byte :=
  head24 ++ [integB 0, integB 1, integB 2, integB 3, integB 4, integB 5, integB 6, integB 7] ++ List.replicate 32 0

theorem natOfBytes_integ : natOfBytes [integB 0, integB 1, integB 2, integB 3, integB 4, integB 5, integB 6, integB 7] = (Config.saveInteg []).toNat := by
  have := (Config.saveInteg []).isLt
  simp only [natOfBytes, integB, BitVec.toNat_ofNat]
  norm_num
  omega

theorem saveHead_parts : field saveHead 0 2 = 1 ∧ field saveHead 2 2 = 1 ∧ field saveHead 8 8 = 64 ∧ field saveHead 0x18 8 = (Config.saveInteg []).toNat := by
  refine ⟨?_, ?_, ?_, ?_⟩
  · simp [field, saveHead, head24, natOfBytes]
  · simp [field, saveHead, head24, natOfBytes]
  · simp [field, saveHead, head24, natOfBytes]
  · rw [← natOfBytes_integ]; simp [field, saveHead, head24]

theorem saveIntact_sRest (x : Ctx) (h1 : x.save = 0x90000) (h2 : x.savelen = 0x100000) : sRest.gpu.saveIntact x = true := by
  have e : sRest.gpu.mem.devBytes 0x90000 64 = saveHead := rfl
  obtain ⟨k1, k2, k3, k4⟩ := saveHead_parts
  rw [Gpu.saveIntact, h1, h2, e]
  simp only [k1, k2, k3, k4]
  exact decide_eq_true rfl

theorem witness_HostCommandsActOnContexts :
    (let s := sCmd (cmd7 2 []) fun g => { g with ctxs := (List.range 64).map fun i => { loadCtx with slot := i, asid := i } }
     s.gpu.command 0 7 2 = some (cmd7 2 []) ∧ s.gpu.part? 0 = some (partOf s) ∧ (List.range 64).all (fun i => (s.gpu.ctx? i).isSome) = true) ∧
    (sCreate.gpu.command 0 7 2 = some create7 ∧ sCreate.gpu.part? 0 = some (partOf sCreate) ∧ sCreate.gpu.ctx? 63 = none ∧
      sCreate.gpu.readCtx (partOf sCreate) 0 (field create7.args 0 8) = some ctxNew ∧ sCreate.gpu.ctxs.all (fun k => k.asid != ctxNew.asid) = true) ∧
    (AtCmd (sCmd (cmd7 3 []) id) 3 (cmd7 3 []) loadCtx ∧ loadCtx.status = .live) ∧
    (AtCmd (sCmd (cmd7 4 []) id) 4 (cmd7 4 []) loadCtx ∧ AtCmd (sCmd (cmd7 4 []) fenceAll) 4 (cmd7 4 []) { loadCtx with status := .fenced 5 }) ∧
    (let s := sCmd (cmd7 5 []) (onCtx saveCtx)
     AtCmd s 5 (cmd7 5 []) saveCtx ∧ saveCtx.status = .live ∧ saveCtx.lift = none ∧ s.gpu.heldByDeadline 0 = false ∧ (cmd7 5 []).owes = true ∧
      (partOf s).cmds = [cmd7 5 []] ∧ s.gpu.wgs = [] ∧ s.dev.saveSize 0 ≤ saveCtx.savelen ∧ (partOf s).entry.holds saveCtx.save = true ∧
      (partOf s).entry.holds (saveCtx.save + s.dev.saveSize 0 - 1) = true) ∧
    (AtCmd sRest 6 (cmd7 6 []) { saveCtx with status := .saved, drops := 3 } ∧ (cmd7 6 []).owes = true ∧ (partOf sRest).cmds = [cmd7 6 []] ∧ sRest.gpu.wgs = [] ∧
      sRest.gpu.readCtx (partOf sRest) 0 0x6000 = some ctxNew ∧ sRest.gpu.saveIntact ctxNew = true ∧
      sRest.gpu.ctxs = [{ saveCtx with status := .saved, drops := 3 }]) ∧
    AtCmd (tweak sRest fun g => { g with ctxs := g.ctxs.map fun c => { c with status := .lifted } }) 6 (cmd7 6 []) { saveCtx with status := .lifted, drops := 3 } ∧
    (AtCmd (sCmd (cmd7 7 []) id) 7 (cmd7 7 []) loadCtx ∧ loadCtx.lift = none ∧ (sCmd (cmd7 7 []) id).gpu.heldByDeadline 0 = false ∧ (cmd7 7 []).owes = true ∧
      (partOf (sCmd (cmd7 7 []) id)).cmds = [cmd7 7 []]) ∧
    (sLift.gpu.ctx? 0 = some lift7 ∧ lift7.part = 0 ∧ lift7.lift = some 7 ∧ sLift.gpu.part? 0 = some (partOf sLift) ∧
      (partOf sLift).cmds.find? (fun y => y.hseq == 7) = some { cmd7 7 [] with answered := true } ∧ (cmd7 7 []).at_ + 4000000 ≤ sLift.clk.cyc ∧
      sLift.gpu.allLifted 0 = false) ∧
    (AtCmd (sCmd (cmd7 8 []) id) 8 (cmd7 8 []) loadCtx ∧ (sCmd (cmd7 8 []) id).gpu.holdsLaunch 0 = true ∧
      AtCmd (sCmd (cmd7 8 []) fun g => { g with launches := [] }) 8 (cmd7 8 []) loadCtx ∧
      (sCmd (cmd7 8 []) fun g => { g with launches := [] }).gpu.holdsLaunch 0 = false) ∧
    (∀ ans ∈ [0, 1], let s := sFault ans
     s.gpu.command 0 7 9 = some (cmd7 9 (le 4 5 ++ le 4 ans)) ∧ s.gpu.part? 0 = some (partOf s) ∧
      (partOf s).faults.find? (fun r => r.seq == field (cmd7 9 (le 4 5 ++ le 4 ans)).args 0 4) = some (faultRec 5 true) ∧
      field (cmd7 9 (le 4 5 ++ le 4 ans)).args 4 4 = ans ∧ s.gpu.thread? u0 = some thFault ∧ s.gpu.faultWaiters 0 5 = [u0] ∧ thFault.mode = .user ∧
      thFault.status = .parked (.fault 0 5 0x77 0x123456) ∧ s.gpu.wg? u0.wg = some (wgOf s) ∧ (wgOf s).place = .core 0 ∧ s.gpu.started u0.wg = true) ∧
    (∀ q ∈ [0, 1], let c := cmd7 10 (le 4 3 ++ le 4 q)
     (sPage c).gpu.command 0 7 10 = some c ∧ (sPage c).gpu.launches.all (fun l => l.fin.isNone) = true ∧ (partOf (sPage c)).comp = some 0x10000 ∧ field c.args 0 4 < ((sPage c).gpu.mem.cblk 0x10000).nrec ∧
      field c.args 4 4 ≤ 1) ∧
    ((sPage (cmd7 11 (le 8 0x10000))).gpu.command 0 7 11 = some (cmd7 11 (le 8 0x10000)) ∧
      (sPage (cmd7 11 (le 8 0x10000))).gpu.blockOk (partOf (sPage (cmd7 11 (le 8 0x10000)))).entry 0x10000 = true ∧
      (sPage (cmd7 11 (le 8 0x10000))).gpu.blockOk (partOf (sPage (cmd7 11 (le 8 0x10000)))).entry 0x10040 = false) ∧
    ((sCmd (cmd7 12 []) id).gpu.command 0 7 12 = some (cmd7 12 []) ∧ (sCmd (cmd7 12 []) id).gpu.ctx? loadCtx.slot = some loadCtx ∧ loadCtx.part = 0 ∧
      ∀ y ∈ (sCmd (cmd7 12 []) id).gpu.cores, ∀ k ∈ y.2.l1, k.key.sp = .comp 0 → y.1 ∈ (partOf (sCmd (cmd7 12 []) id)).entry.cores) :=
  ⟨by decide +kernel, by decide +kernel, ⟨atCmd_of (by decide +kernel), rfl⟩, ⟨atCmd_of (by decide +kernel), atCmd_of (by decide +kernel)⟩,
   ⟨atCmd_of (by decide +kernel), by decide +kernel⟩,
   ⟨atCmd_of (by decide +kernel), by decide +kernel, by decide +kernel, by decide +kernel, by decide +kernel,
    saveIntact_sRest _ (by decide +kernel) (by decide +kernel), by decide +kernel⟩, atCmd_of (by decide +kernel),
   ⟨atCmd_of (by decide +kernel), by decide +kernel⟩, by decide +kernel,
   ⟨atCmd_of (by decide +kernel), by decide +kernel, atCmd_of (by decide +kernel), by decide +kernel⟩,
   fun a h => by
    obtain rfl | rfl : a = 0 ∨ a = 1 := by simpa using h
    all_goals decide +kernel,
   fun a h => by
    obtain rfl | rfl : a = 0 ∨ a = 1 := by simpa using h
    all_goals decide +kernel, by decide +kernel, by decide +kernel⟩

/-- A release descriptor (R426) of a frame of 16 × 2 pixels at 0x4000, for time 21000 and tr-offset 5, that may be repeated or not. -/
def relBytes (rep : Byte) : List Byte :=
  le 8 21000 ++ le 8 0x4000 ++ le 4 64 ++ le 2 16 ++ le 2 2 ++ [0, 1, 96, rep] ++ List.replicate 12 0 ++ le 4 0x77 ++ le 4 5 ++ List.replicate 16 0
def rel (rep : Byte) (formed : Bool) (at_ : Nat) : Release := ⟨3, 0, 9, 0, relBytes rep, 0, formed, at_, []⟩
def sRel (rep : Byte) (formed : Bool) (at_ ptp : Nat) (st : List Stream) : State := atTime 0 ptp (tweak (sCmd (cmd7 0 []) id) fun g =>
  { g with fabric := { g.fabric with rels := [rel rep formed at_], streams := st } })
def release7 (a : Nat) : Cmd := cmd7 13 (le 8 a)
/-- The stream's last frame leaves at this time; the new one's is 21005. -/
def stream0 (last : Nat) : Stream := ⟨1, 0x77, [1, 2, 3], last, relBytes 1, 9⟩

theorem witness_FramesAreReleased :
    (let s := sCmd (release7 0x6000) (poke 0x6000 (relBytes 1))
     AtCmd s 13 (release7 0x6000) loadCtx ∧ field (release7 0x6000).args 0 8 % 64 = 0 ∧ s.gpu.hubRead loadCtx 0x6000 64 = some (relBytes 1) ∧ relOk (relBytes 1) = true) ∧
    (AtCmd (sCmd (release7 0x6001) id) 13 (release7 0x6001) loadCtx ∧ field (release7 0x6001).args 0 8 % 64 ≠ 0 ∧
      field (release7 0x500006000).args 0 8 % 64 = 0 ∧ (sCmd (release7 0x500006000) id).gpu.hubRead loadCtx 0x500006000 64 = none ∧
      field (release7 0x6000).args 0 8 % 64 = 0 ∧
      (sCmd (release7 0x6000) (poke 0x6000 (relBytes 2))).gpu.hubRead loadCtx 0x6000 64 = some (relBytes 2) ∧ relOk (relBytes 2) = false) ∧
    (∀ st ∈ [[], [stream0 21005], [stream0 21006]], let s := sRel 1 true 1000 21005 st
     s.gpu.fabric.rels.find? (fun k => k.id == 3) = some (rel 1 true 1000) ∧ (s.gpu.part? 0).isSome = true ∧ 1000 + 20000 ≤ (relOf (relBytes 1)).t ∧
      (relOf (relBytes 1)).t + (relOf (relBytes 1)).tro ≤ s.clk.ptp ∧ s.gpu.ctx? 0 = some loadCtx ∧
      (s.gpu.fabric.stream? (relOf (relBytes 1))).any (fun y => (relOf (relBytes 1)).t + (relOf (relBytes 1)).tro < y.last) = (st == [stream0 21006])) ∧
    (relOk (relBytes 1) = true ∧ ∃ data : List Byte, data.length = (relOf (relBytes 1)).line * (relOf (relBytes 1)).height) ∧
    (∀ x ∈ [(false, 0, 21005), (true, 1001, 21006)], let s := sRel 1 x.1 x.2.1 1001 [stream0 x.2.2]
     s.gpu.fabric.rels.find? (fun k => k.id == 3) = some (rel 1 x.1 x.2.1) ∧ (s.gpu.part? 0).isSome = true ∧
      (x.1 = false ∨ (relOf (relBytes 1)).t < x.2.1 + 20000) ∧ (relOf (relBytes 1)).t ≤ s.clk.ptp + 20000 ∧
      s.gpu.fabric.stream? (relOf (relBytes 1)) = some (stream0 x.2.2) ∧ (relOf (relBytes 1)).rep = true ∧
      ((relOf (relBytes 1)).t + (relOf (relBytes 1)).tro < (stream0 x.2.2).last ↔ x.1 = true)) ∧
    (let s := sRel 0 false 0 1000 []
     s.gpu.fabric.rels.find? (fun k => k.id == 3) = some (rel 0 false 0) ∧ s.gpu.fabric.stream? (relOf (relBytes 0)) = none ∧ (relOf (relBytes 0)).rep = false) :=
  ⟨⟨atCmd_of (by decide +kernel), by decide +kernel⟩, ⟨atCmd_of (by decide +kernel), by decide +kernel⟩, fun st h => by
    obtain rfl | rfl | rfl : st = [] ∨ st = [stream0 21005] ∨ st = [stream0 21006] := by simpa using h
    all_goals decide +kernel, ⟨by decide +kernel, List.replicate _ 0, List.length_replicate⟩, fun x h => by
    obtain rfl | rfl : x = (false, 0, 21005) ∨ x = (true, 1001, 21006) := by simpa using h
    all_goals decide +kernel, by decide +kernel⟩

/-- A connection that has sent packets 75 and 76 and expects 5. -/
def sent (n : BitVec 24) (a : Nat) : Sent := ⟨n, .write 0x100 [1, 2, 3, 4], none, none, a⟩
def connU (l : List Sent) (resends : Nat) (failed : Bool) : Conn := ⟨0, 0, 9, 0, 3, 77, l, 5, resends, failed, false⟩
def sConn (cyc : Nat) (c : Conn) : State := atTime cyc 0 (tweak (sCmd (cmd7 0 []) id) fun g => { g with fabric := { g.fabric with conns := [c] } })
def pkt (n : BitVec 24) (b : PktBody) : Pkt := ⟨9, 0, 0, 3, 0, n, b⟩
/-- The connection of a packet, found by its fields and by its endpoint. -/
def Named (s : State) (k : Pkt) (c : Conn) : Prop :=
  s.gpu.connOf k = some c ∧ s.gpu.fabric.conns.find? (fun y => y.ctx == c.ctx && y.ep == c.ep) = some c
def physB (s : State) (a : Access) (va n : Nat) (ps : List Phys) : Bool :=
  match s.dev.fabricPhys loadCtx a va n with | .ok l => decide (l = ps) | .error _ => false
theorem phys_of {s : State} {a : Access} {va n : Nat} {ps : List Phys} (h : physB s a va n ps = true) : s.dev.fabricPhys loadCtx a va n = .ok ps := by
  unfold physB at h
  split at h
  · rename_i e; rw [e, of_decide_eq_true h]
  · exact absurd h (by simp)

theorem witness_FabricAndTime :
    (Named (sConn 0 (connU [sent 75 0, sent 76 1] 0 false)) (pkt 0 (.ack 9)) (connU [sent 75 0, sent 76 1] 0 false) ∧
      ∀ y ∈ [sent 75 0, sent 76 1], y.seq ≠ 9) ∧
    (Named (sConn 0 (connU [sent 75 0, sent 76 1] 16 false)) (pkt 0 (.ack 75)) (connU [sent 75 0, sent 76 1] 16 false) ∧ (sent 75 0).seq = 75) ∧
    (Named (sConn 0 (connU [] 0 false)) (pkt 6 (.write 0x4000 [1, 2])) (connU [] 0 false) ∧ (∀ n, (pkt 6 (.write 0x4000 [1, 2])).body ≠ .ack n) ∧
      (pkt 6 (.write 0x4000 [1, 2])).seq ≠ (connU [] 0 false).expect ∧ (∀ y ∈ [sent 75 0, sent 76 1], ∀ n, y.body ≠ .failed n)) ∧
    (Named (sConn 0 (connU [] 0 false)) (pkt 5 (.write 0x4000 [1, 2])) (connU [] 0 false) ∧ (pkt 5 (.write 0x4000 [1, 2])).seq = (connU [] 0 false).expect ∧
      (sConn 0 (connU [] 0 false)).gpu.ctx? 0 = some loadCtx ∧ loadCtx.status = .live ∧
      (sConn 0 (connU [] 0 false)).dev.fabricPhys loadCtx .write 0x4000 2 = .ok (loadLeaf.span 0x4000 2) ∧
      ((sConn 0 (connU [] 0 false)).dev.noteHomes loadCtx .write 0x4000 2).lineWait ((loadLeaf.span 0x4000 2).map Phys.line) = none) ∧
    (Named (fill (sConn 0 (connU [] 0 false))) (pkt 5 (.write 0x4010 [1])) (connU [] 0 false) ∧
      (fill (sConn 0 (connU [] 0 false))).dev.fabricPhys loadCtx .write 0x4010 1 = .ok (loadLeaf.span 0x4010 1) ∧
      (((fill (sConn 0 (connU [] 0 false))).dev.noteHomes loadCtx .write 0x4010 1).lineWait ((loadLeaf.span 0x4010 1).map Phys.line)).isSome = true) ∧
    (Named (sConn 0 (connU [] 0 false)) (pkt 5 (.read 0x4000 8 5)) (connU [] 0 false) ∧
      (sConn 0 (connU [] 0 false)).dev.fabricPhys loadCtx .read 0x4000 8 = .ok (loadLeaf.span 0x4000 8) ∧
      (sConn 0 (connU [] 0 false)).gpu.firstPoison (loadLeaf.span 0x4000 8) = none) ∧
    (∀ x ∈ [(15, 80000), (16, 80000), (15, 79999)], let s := sConn x.2 (connU [sent 75 0] x.1 false)
      s.gpu.fabric.conns[0]? = some (connU [sent 75 0] x.1 false) ∧ (connU [sent 75 0] x.1 false).unacked ≠ [] ∧
      ((sent 75 0).at_ + 80000 ≤ s.clk.cyc ↔ x.2 = 80000)) ∧
    (∃ up, State.reset.gpu.fabric.up[0]? = some up) ∧ (∃ up, State.reset.gpu.fabric.up[5]? = some up) :=
  ⟨⟨by unfold Named; decide +kernel, by decide +kernel⟩, ⟨by unfold Named; decide +kernel, rfl⟩, ⟨by unfold Named; decide +kernel, nofun, by decide, fun y hy n => by
    obtain rfl | rfl : y = sent 75 0 ∨ y = sent 76 1 := by simpa using hy
    all_goals nofun⟩,
   ⟨by unfold Named; decide +kernel, rfl, rfl, rfl, phys_of (by decide +kernel), by decide +kernel⟩,
   ⟨by unfold Named; decide +kernel, phys_of (by decide +kernel), Option.isSome_iff_exists.2 ⟨_, lineWait_of (ks := []) (by decide +kernel)
    (noWay_of (by decide +kernel) (by decide +kernel) (by decide +kernel))⟩⟩,
   ⟨by unfold Named; decide +kernel, phys_of (by decide +kernel), by decide +kernel⟩, fun x h => by
    obtain rfl | rfl | rfl : x = (15, 80000) ∨ x = (16, 80000) ∨ x = (15, 79999) := by simpa using h
    all_goals decide +kernel, ⟨_, rfl⟩, _, rfl⟩

/-- A partition table of version v with no entry valid, managed from port 0. -/
def table0 (v : Nat) : List Byte := le 4 0x47434B57 ++ le 2 1 ++ [0, 0] ++ le 8 v ++ List.replicate 368 0
def sSec (f : Sec → Sec) : State := { one loadThread with sec := f State.reset.sec }
def logged : LogEntry := ⟨1, 2, 3, 4, 5, 6, 7⟩
def sLog : State := tweak (one loadThread) fun g => g.modPart 0 fun p => { p with log := [logged] }
def away : State := sSec fun c => { c with active := some ([0, 0, 0, 0, 0, 0, 1]) }
/-- The signature's premise is what the verifier says: it holds of every signature of the right length that the verifier accepts. -/
theorem witness_MailboxCommands :
    (∃ q, (one loadThread).gpu.part? 0 = some q ∧ q.entry.port = (((one loadThread).sec.active.map fun t => field t 6 1).getD 0)) ∧
    (one loadThread).sec.recov = false ∧ (one loadThread).sec.held = false ∧ (0 = 0 ∧ 7 < 8) ∧ (List.replicate 32 (5 : Byte)).length = 32 ∧
    (∃ q, sLog.gpu.part? 0 = some q ∧ q.log.find? (fun e => e.index == (7 : Word).toNat) = some logged ∧ q.log.find? (fun e => e.index == (8 : Word).toNat) = none) ∧
    (∃ q, away.gpu.part? 0 = some q ∧ ¬ q.entry.port = ((away.sec.active.map fun t => field t 6 1).getD 0)) ∧
    ((1 ≤ 1 ∧ 1 ≠ (one loadThread).sec.booted) ∧ ([1, 2, 3] : List Byte).length ≤ 4096 ∧ (128 + 2 ^ 25 + 29792 - 3) + ([1, 2, 3] : List Byte).length ≤ 128 + 2 ^ 25 + 29792) ∧
    ¬ (2 ≤ 1) ∧ (tableForm (table0 6) = true ∧ tableForm [] = false ∧ (one loadThread).sec.tableSigned (table0 6) [] = false) ∧
    (∀ sig, sig.length = sigLen → Config.slhVerify (((table0 6).drop 0x140).take 64) (table0 6) sig = true →
      (one loadThread).sec.tableSigned (table0 6) sig = true ∧ (∀ a, (one loadThread).sec.active = some a → field a 8 8 < field (table0 6) 8 8) ∧
      (one loadThread).gpu.tableBusy (table0 6) = true ∧ (tweak (one loadThread) fun g => { g with ctxs := [] }).gpu.tableBusy (table0 6) = false ∧
      (sSec fun c => { c with active := some (table0 6) }).sec.tableSigned (table0 6) sig = true ∧ field (table0 6) 8 8 ≤ field (table0 6) 8 8) :=
  ⟨⟨_, rfl, by decide +kernel⟩, rfl, rfl, by decide, rfl, ⟨_, rfl, by decide +kernel⟩, ⟨_, rfl, by decide +kernel⟩, by decide +kernel, by decide +kernel,
   ⟨by decide +kernel, by decide +kernel, by decide +kernel⟩, fun sig h v =>
    ⟨by simp [Sec.tableSigned, h, v]; rfl, fun a e => absurd (show (none : Option (List Byte)) = some a from e) (by simp), by decide +kernel, by decide +kernel, by simp [Sec.tableSigned, h, v]; rfl,
     le_refl _⟩⟩

theorem witness_ResetsHeatAndErrors :
    ((sSec fun c => { c with toReset := true }).sec.toReset = true ∧ (sSec fun c => { c with toReset := true }).sec.held = false ∧ (one loadThread).sec.toReset = false ∧
      (sSec fun c => { c with held := true }).sec.held = true) ∧
    (∃ q, q ∈ (one loadThread).gpu.parts ∧ q.entry.port = 0 ∧ (one loadThread).gpu.part? 0 = some q ∧ loadCtx.part = q.id ∧ loadCtx.status = .live ∧
      (one loadThread).gpu.ctx? loadCtx.slot = some loadCtx ∧ Store.wf 0 q.corr = true) ∧
    (2 ≤ 2 ∧ 99 < 100 ∧ 100 ≤ 100 ∧ 110 ≤ 110) ∧ (191 < 192 ∧ ¬ (193 : Nat) < 192) ∧ (tweak (one loadThread) fun g => { g with gov := { g.gov with hot := true } }).gpu.gov.hot = true ∧
    (∀ d ∈ [0, 1], ((sLn [l1At 0x80 d] [] [] loadThread).gpu.core 0).l1 = [l1At 0x80 d]) ∧
    (∃ w ∈ (one loadThread).gpu.wgs, w.place = .core 0 ∧ loadCtx.slot = w.ctx) ∧
    (∀ y ∈ (one loadThread).gpu.cores, ∀ k ∈ y.2.l1, k.key.sp = .comp 0 → y.1 ∈ (partOf (one loadThread)).entry.cores) :=
  ⟨by decide +kernel, ⟨_, List.mem_singleton.2 rfl, rfl, rfl, rfl, rfl, rfl, rfl⟩, by decide, by decide, rfl, fun d h => by
    obtain rfl | rfl : d = 0 ∨ d = 1 := by simpa using h
    all_goals decide +kernel, ⟨_, List.mem_singleton.2 rfl, rfl, rfl⟩, by decide +kernel⟩

/-- The loaded device with these two words at the program's address, and its core's turn. -/
def sFetch (w l : DWord) : State := { State.reset with gpu := State.reset.gpu.load w l 0, agenda := [.issue 0] }
theorem fetched {g : Gpu} {core : Nat} {c : Ctx} {ts : List TRef} {a w : DWord} (h : decide ((g.fetch8 core c ts a).2.toOption = some w) = true) :
    ∃ g', g.fetch8 core c ts a = (g', .ok w) := by
  have h := of_decide_eq_true h
  generalize g.fetch8 core c ts a = r at *
  obtain ⟨g', e | x⟩ := r
  · exact absurd h (by simp [Except.toOption])
  · exact ⟨g', by simpa [Except.toOption] using h⟩
def bundle0 : Bundle := { members := [u0], launch := 0, mode := .user, pc := loadPc, entry := false, order := 0, issued := 0, timer := 0 }
def gFetch (w l : DWord) : Gpu := ((sFetch w l).dev.fetch8 0 loadCtx [u0] loadPc).1

/-- An event; iadd of 05's example; icmp of 05's example with its literal word. -/
theorem witness_StepRunsDecodedInstruction :
    (State.reset.sec.held = false ∧ Instr.powerOn.isWord = false) ∧
    ((sFetch 0x0012500C10140000 0).sec.held = false ∧ (sFetch 0x0012500C10140000 0).agenda = .issue 0 :: [] ∧
      ((sFetch 0x0012500C10140000 0).gpu.core 0).pick = some bundle0 ∧
      ((sortLanes bundle0.members).head?.bind fun t => (sFetch 0x0012500C10140000 0).gpu.wg? t.wg).bind (fun v => (sFetch 0x0012500C10140000 0).gpu.ctx? v.ctx) = some loadCtx ∧
      (sFetch 0x0012500C10140000 0).gpu.liftable loadCtx bundle0 = [] ∧
      (∃ g, (sFetch 0x0012500C10140000 0).dev.fetch8 0 loadCtx (sortLanes bundle0.members) bundle0.pc = (g, .ok 0x0012500C10140000)) ∧
      decode 0x0012500C10140000 0 = some (.iadd ⟨false, ⟨1, false⟩, ⟨2, true⟩⟩ .s32 false 3 4 (.reg 5)) ∧
      Sys2Proof.sizeOf (.iadd ⟨false, ⟨1, false⟩, ⟨2, true⟩⟩ .s32 false 3 4 (.reg 5)) = 8) ∧
    (((sFetch 0x00DEE00810000208 0x64).gpu.core 0).pick = some bundle0 ∧ (sFetch 0x00DEE00810000208 0x64).gpu.liftable loadCtx bundle0 = [] ∧
      (∃ g, (sFetch 0x00DEE00810000208 0x64).dev.fetch8 0 loadCtx (sortLanes bundle0.members) bundle0.pc = (g, .ok 0x00DEE00810000208)) ∧
      decode 0x00DEE00810000208 0 = some (.icmp p .lt .s32 2 4 (.lit 0)) ∧ Sys2Proof.sizeOf (.icmp p .lt .s32 2 4 (.lit 0)) = 16 ∧
      (∃ g', (gFetch 0x00DEE00810000208 0x64).fetch8 0 loadCtx (sortLanes bundle0.members) (bundle0.pc + 8) = (g', .ok 0x64)) ∧
      decode 0x00DEE00810000208 0x64 = some (.icmp p .lt .s32 2 4 (.lit 0x64))) ∧
    (bundle0.pc.toNat < 0xFF0000000000 ∧ tlbHit ((sFetch 0 0).gpu.core 0).tlb loadCtx.asid bundle0.pc.toNat = some loadLeaf ∧ loadLeaf.x = true ∧
      loadLeaf.base.sp = .dev ∧ (sFetch 0 0).gpu.poisoned (loadLeaf.phys bundle0.pc.toNat).line = false ∧
      ((sFetch 0 0).gpu.core 0).icache.find? (fun x => x.1 == loadLeaf.phys bundle0.pc.toNat) = none ∧
      (sFetch 0 0).gpu.lineWait [(loadLeaf.phys bundle0.pc.toNat).line] = none) :=
  ⟨⟨rfl, rfl⟩, ⟨rfl, rfl, by decide +kernel, by decide +kernel, rfl, fetched (by decide +kernel), by decide +kernel, by decide +kernel⟩,
   ⟨by decide +kernel, rfl, fetched (by decide +kernel), by decide +kernel, by decide +kernel, fetched (by decide +kernel), by decide +kernel⟩,
   by decide +kernel⟩

theorem witness_EncodeDecodeRoundTrip :
    (Instr.iadd p .s32 false 3 4 (.reg 5)).isWord = true ∧ (Instr.iadd p .s32 false 3 4 (.reg 5)).wf = true ∧
    (Instr.icmp p .lt .s32 2 4 (.lit 0x64)).isWord = true ∧ (Instr.icmp p .lt .s32 2 4 (.lit 0x64)).wf = true := by decide +kernel

theorem witness_EveryStepKeepsTimeAndSecurity : State.reset.TimeAndSecurity ∧ ∃ t, step { State.reset with agenda := [.tick 4] } = .next t :=
  ⟨by unfold State.TimeAndSecurity; decide +kernel, _, rfl⟩

/-! ### The manual's worked values -/

/-- 03 Table 3.2: 1.0, −2.5, the largest finite value and the smallest subnormal of F32, F16, E16, F8A and F8B. -/
theorem test_table32 :
    ([.f32, .f16, .e16, .f8a, .f8b].map fun ty => [1, -5 / 2, (valueOf ty 1).rat].map fun q => (toFloat ty .rn false (.fin (decide (q < 0)) |q|)).1) =
      [[0x3F800000, 0xC0200000, 1], [0x3C00, 0xC100, 1], [0x3F80, 0xC020, 1], [0x38, 0xC2, 1], [0x3C, 0xC1, 1]] := by decide +kernel

/-- 03 R73's example: (2 − 2^−23) × 2^−127 ties to 2^−126, with underflow and inexact, under FTZ too. -/
theorem test_fsclTie : fsclX 0x3FFFFFFF (-127) false = (0x00800000, 0b11000) ∧ (fsclX 0x3FFFFFFF (-127) true).1 = 0x00800000 := by decide +kernel

/-- 03 R79's example: 4,096 × 4,096 and two products of 1 in one step; then one of them in each of two steps. -/
theorem test_steps :
    let x : FV × FV := (.fin false 4096, .fin false 4096)
    let y : FV × FV := (.fin false 1, .fin false 1)
    step79 0 0 false 0x4B800000 [y, y] = (0x4B800001, 0) ∧ (step79 0 0 false 0 [x, y]).1 = 0x4B800000 ∧
      (step79 0 0 false (step79 0 0 false 0 [x, y]).1 [y]).1 = 0x4B800000 := by decide +kernel

/-- 06 R178: its two examples, bits 11..4 and bits 3..0 of 0x12345678 with their sign. -/
theorem test_bfx : bfxV .s32 0x12345678 0x0804 = 0x67 ∧ bfxV .s32 0x12345678 0x0400 = 0xFFFFFFF8 := by decide

/-- 06's scan: the exact prefixes of 2^24, 1, 1 and −2^24, each rounded once, and `redu`'s 2.0. -/
theorem test_scanPrefixes :
    ([1, 2, 3, 4].map fun n => foldV .add .f32 false (([0x4B800000, 0x3F800000, 0x3F800000, 0xCB800000] : List Word).take n)) =
      [(0x4B800000, 0), (0x4B800000, 0b10000), (0x4B800001, 0), (0x40000000, 0)] := by decide +kernel

/-- 06's merge of two runs of four: keys 1, 3, 5, 7 and 2, 3, 4, 9 with the lane numbers, the first run's 3 first. -/
theorem test_merge :
    (mergeRuns .f32 false 8 [(0x3F800000, 0), (0x40400000, 1), (0x40A00000, 2), (0x40E00000, 3)]
      [(0x40000000, 4), (0x40400000, 5), (0x40800000, 6), (0x41100000, 7)]).map Prod.snd = [0, 4, 1, 5, 6, 2, 3, 7] := by decide +kernel

/-- 14's example: `trap 5` on lane 9 at 0x1000_0040. -/
theorem test_trapFive :
    let t := (loadThread.takeTrap 0x2000 ⟨.software, 5, 0, false⟩ 0x10000040 0x24DEE00000000005 8 ((1 : Word) <<< 9)).trap
    t.cause = 0x00050038 ∧ t.tpc = 0x10000048 ∧ t.tsrc = 0x10000040 ∧ t.tmask = 0x200 := by decide

/-- 05's `iadd.s32 g3, g4, 0x1234_5678` in memory: the step after it runs it and goes on behind its literal word. -/
theorem test_stepRunsIadd :
    (match step (State.reset.withFetchWord 128 (0x001EE00C10000200 + 0x12345678 * 2 ^ 64)) with
      | .next t => (t.gpu.thread? ⟨0, 0⟩).map fun th => (th.reg 3, th.pc)
      | _ => none) = some (0x12345678, loadPc + 16) := by decide +kernel

/-- 03 R82's examples: `ivadd` of (1, 1) and (2^−30, 2^−30); `ivsub` of (1, 1) and (1, 1); `ivsqr` and `ivmul` of (−2, 3) by itself. -/
theorem test_intervals :
    ivWrite (ivAdd (ivRead 0x3F800000 0x3F800000) (ivRead 0x30800000 0x30800000)) = (0x3F800000, 0x3F800001) ∧
    ivWrite (ivSub (ivRead 0x3F800000 0x3F800000) (ivRead 0x3F800000 0x3F800000)) = (0, 0) ∧
    ivWrite (ivSqr (ivRead 0xC0000000 0x40400000)) = (0, 0x41100000) ∧
    ivWrite (ivMul (ivRead 0xC0000000 0x40400000) (ivRead 0xC0000000 0x40400000)) = (0xC0C00000, 0x41100000) := by decide +kernel

/-- 08's example of a row that is abandoned after one block: the column, LIST, and what `vset.rd` and `vchk` then give. -/
def wTop : Wg :=
  { loadWg 0 with
    scratch := ((((loadWg 0).scratch.setBytes 0 [0, 0x44, 0, 0x40, 0, 0x3C, 0, 0x3C, 0, 0x38, 0, 0x38, 0, 0x34, 0, 0x34]).setBytes 16
      ((List.replicate 8 [(0 : Byte), 0x3C]).flatten)).setBytes 32 ([0, 0xBC, 0, 0, 0, 0, 0, 0, 0, 0x3C, 0, 0x3C, 0, 0x3C, 0, 0x3C])).setBytes 48 [0, 0x42, 0, 0x42] }
def topHdrs : List Byte :=
  [0x40800000, 0x3F000000, 0x3F800000, 0x3F800000, 0x3F800000, 0x3F800000, 0x40400000, 0].flatMap fun w => bytesOfNat 4 w
theorem test_verdictRows :
    let x := verdRun fwH false ⟨0, 0, 16, 16, 0, 2, 3, 4, 0⟩ .topk 5 0 topHdrs wTop { vt := 0xFF800000, k := 1, max := true, list := [] }
    ([0, 1, 2].map fun r => x.wg.elem 5 r 0) = [0x41180000, 0x7FA00006, 0x41900000] ∧ x.v.list = [(0x41900000, 2)] ∧
    ([0, 1, 31].map fun l => vsetRdWords x.v l) = [[0x41900000, 2], [0xFF800000, 0xFFFF], [0x41900000, 1]] ∧
    ([0, 1, 2].map fun r => vchkV .topk x.v (x.wg.elem 5 r 0)) = [(false, false), (false, true), (false, false)] := by decide +kernel

end Sys2Proof.Tests
end

section
/-! PROOFS. What every step keeps of the clock and the security core (00 R6; 17 R424, R425; 18 R429, R432, R434, R436): each part's
invariant, what it may become in a step, one lemma for each place of the model that sets one of the two, and then the step. -/

namespace Sys2Proof.Machine

open Sys2Proof

/-! ### The two invariants, and what may follow -/

/-- A clock either slews by at most 1 ms or is held behind a negative offset (R425). -/
def SlewOk (corr : Int) (hold : Bool) : Prop :=
  (hold = true → corr < 0) ∧ (hold = false → corr.natAbs ≤ 8000 * 1000000)

/-- The clock's part of `State.TimeAndSecurity`. -/
def Clock.Wf (c : Clock) : Prop := c.frac < 8000 ∧ c.servo ≤ 3 ∧ SlewOk c.corr c.hold

/-- The security core's part of `State.TimeAndSecurity`. -/
def Sec.Wf (c : Sec) : Prop :=
  c.temps.length = 3 ∧ (c.booted = 2 ↔ c.recov = true) ∧ c.booted ≤ 2 ∧ (c.recov = true → c.active = none) ∧
  c.svn ≤ c.minsvn ∧ (c.table.isSome = true → c.okh.isSome = true)

theorem State.timeAndSecurity_iff (s : State) : s.TimeAndSecurity ↔ s.clk.Wf ∧ s.sec.Wf := by
  unfold State.TimeAndSecurity Clock.Wf Sec.Wf SlewOk
  simp only [and_assoc]

/-- The clock `c` may become `c'`: the invariant stays and neither time goes back. -/
structure Clock.Precedes (c c' : Clock) : Prop where
  wf  : c.Wf → c'.Wf
  cyc : c.cyc ≤ c'.cyc
  ptp : c.ptp ≤ c'.ptp

/-- The security core `c` may become `c'`: the invariant stays, MINSVN does not fall, and what is fused stays. -/
structure Sec.Precedes (c c' : Sec) : Prop where
  wf     : c.Wf → c'.Wf
  minsvn : c.minsvn ≤ c'.minsvn
  serial : c'.serial = c.serial
  secret : c'.secret = c.secret
  vendor : c'.vendor = c.vendor
  okh    : ∀ h, c.okh = some h → c'.okh = some h

/-- A state may become another: both parts may. -/
structure State.Precedes (s t : State) : Prop where
  clk : s.clk.Precedes t.clk
  sec : s.sec.Precedes t.sec

/-- A next state that an outcome gives may follow `s`. -/
def State.PrecedesOut (s : State) (o : Out) : Prop := ∀ t, o = .next t → s.Precedes t

theorem Clock.Precedes.refl (c : Clock) : c.Precedes c := ⟨id, le_rfl, le_rfl⟩

theorem Sec.Precedes.refl (c : Sec) : c.Precedes c := ⟨id, le_rfl, rfl, rfl, rfl, fun _ => id⟩

theorem Sec.Precedes.trans {a b c : Sec} (h : a.Precedes b) (k : b.Precedes c) : a.Precedes c where
  wf := k.wf ∘ h.wf
  minsvn := h.minsvn.trans k.minsvn
  serial := k.serial.trans h.serial
  secret := k.secret.trans h.secret
  vendor := k.vendor.trans h.vendor
  okh x hx := k.okh x (h.okh x hx)

theorem State.Precedes.refl (s : State) : s.Precedes s := ⟨.refl _, .refl _⟩

theorem State.Precedes.next {s t : State} (h : s.Precedes t) : s.PrecedesOut (.next t) := by
  rintro _ ⟨⟩
  exact h

/-- What follows a state follows every state with the same clock and security core. -/
theorem State.PrecedesOut.of_same {s s' : State} {o : Out} (h : s'.PrecedesOut o) (hclk : s'.clk = s.clk) (hsec : s'.sec = s.sec) :
    s.PrecedesOut o := by
  intro t ht
  obtain ⟨hc, hs⟩ := h t ht
  exact ⟨hclk ▸ hc, hsec ▸ hs⟩

/-- An effect on the device touches neither part. -/
theorem State.precedesOut_device (s : State) (f : Gpu → Gpu) : s.PrecedesOut (s.device f) :=
  State.Precedes.next ⟨.refl _, .refl _⟩

/-! ### The clock (R6, R424, R425) -/

/-- `n` cycles and `u` units of PTP time pass, and the slew goes on in any allowed way. -/
theorem Clock.precedes_advance (c : Clock) (n u : Nat) (corr : Int) (hold : Bool) (h : SlewOk c.corr c.hold → SlewOk corr hold) :
    c.Precedes { ({ c with cyc := c.cyc + n } : Clock).addPtp u with corr := corr, hold := hold } where
  wf := fun ⟨_, hservo, hslew⟩ => ⟨Nat.mod_lt _ (by decide), hservo, h hslew⟩
  cyc := Nat.le_add_right ..
  ptp := Nat.le_add_right ..

theorem Clock.precedes_tick (c : Clock) (n : Nat) : c.Precedes (c.tick n) := by
  unfold Clock.tick
  dsimp only
  split
  · split
    · exact c.precedes_advance n (1000 * n) _ c.hold fun ⟨hneg, hbound⟩ => ⟨by grind, by grind⟩
    · exact c.precedes_advance n _ 0 false fun _ => ⟨by simp, by simp⟩
  · split
    · exact c.precedes_advance n _ _ c.hold fun ⟨hneg, hbound⟩ => ⟨by grind, by grind⟩
    · exact c.precedes_advance n _ _ c.hold fun ⟨hneg, hbound⟩ => ⟨by grind, by grind⟩

/-- A clock whose SERVO, step and slew change, with its fraction. -/
theorem Clock.precedes_set (c : Clock) (servo step : Nat) (corr : Int) (hold : Bool) (hs : servo ≤ 3)
    (h : SlewOk c.corr c.hold → SlewOk corr hold) :
    c.Precedes { c with servo := servo, ptp := c.ptp + step, corr := corr, hold := hold } where
  wf := fun ⟨hfrac, _, hslew⟩ => ⟨hfrac, hs, h hslew⟩
  cyc := le_rfl
  ptp := Nat.le_add_right ..

theorem Clock.precedes_discipline (c : Clock) (offset : Int) : c.Precedes (c.discipline offset) := by
  have hservo : (if offset.natAbs ≤ 50 then 2 else 1) ≤ 3 := by split <;> decide
  unfold Clock.discipline
  dsimp only
  split
  · exact c.precedes_set _ 0 _ false hservo fun _ => ⟨by simp, by omega⟩
  · split
    · exact c.precedes_set _ _ 0 false hservo fun _ => ⟨by simp, by simp⟩
    · exact c.precedes_set _ 0 _ true hservo fun _ => ⟨by omega, by simp⟩

theorem State.precedes_withClock (s : State) {c : Clock} (h : s.clk.Precedes c) : s.Precedes (s.withClock c) := by
  unfold State.withClock
  dsimp only
  split <;> exact ⟨h, .refl _⟩

theorem State.precedes_tick (s : State) (n : Nat) : s.Precedes (s.tick n) := by
  unfold State.tick
  split
  · exact .refl s
  · exact ⟨s.clk.precedes_tick n, .refl _⟩

/-! ### The security core's own state (R429 to R438) -/

/-- Sensors, image slots, reset and hold states and responses are neither fused nor part of the boot's result. -/
theorem Sec.precedes_volatile (c : Sec) {temps : List Nat} (ht : c.temps.length = 3 → temps.length = 3) (slot0 slot1 : Slot)
    (held tripped toReset : Bool) (replies : List Reply) :
    c.Precedes { c with
      temps := temps, slot0 := slot0, slot1 := slot1, held := held, tripped := tripped, toReset := toReset, replies := replies } where
  wf := fun ⟨htemps, h⟩ => ⟨ht htemps, h⟩
  minsvn := le_rfl
  serial := rfl
  secret := rfl
  vendor := rfl
  okh _ := id

/-- An accepted image raises MINSVN to its SVN (R432). -/
theorem Sec.precedes_booted (c : Sec) {n : Nat} (hn : n < 2) (svn : Nat) (fwmeas : List Byte) (active : Option (List Byte)) :
    c.Precedes { c with
      booted := n, svn := svn, minsvn := max c.minsvn svn, fwmeas := fwmeas, recov := false, active := active } where
  wf := fun ⟨htemps, _, _, _, _, htable⟩ =>
    ⟨htemps, by simp; omega, hn.le, by simp, le_max_right .., htable⟩
  minsvn := le_max_left ..
  serial := rfl
  secret := rfl
  vendor := rfl
  okh _ := id

/-- Recovery mode: no booted slot and no table (R432). -/
theorem Sec.precedes_recovery (c : Sec) : c.Precedes { c with booted := 2, recov := true, active := none } where
  wf := fun ⟨htemps, _, _, _, hsvn, htable⟩ => ⟨htemps, by simp, le_rfl, fun _ => rfl, hsvn, htable⟩
  minsvn := le_rfl
  serial := rfl
  secret := rfl
  vendor := rfl
  okh _ := id

/-- A stored table burns the owner key's hash unless one is burned (R436). -/
theorem Sec.precedes_store (c : Sec) (hr : c.recov = false) (table : List Byte × List Byte) (active : Option (List Byte))
    (hash : List Byte) :
    c.Precedes { c with table := some table, active := active, okh := some (c.okh.getD hash) } where
  wf := fun ⟨htemps, hboot, hle, _, hsvn, _⟩ => ⟨htemps, hboot, hle, by simp [hr], hsvn, fun _ => rfl⟩
  minsvn := le_rfl
  serial := rfl
  secret := rfl
  vendor := rfl
  okh _ h := by rw [h, Option.getD_some]

/-! ### Boot (R429, R430, R432) -/

theorem Gpu.choose_lt (g : Gpu) {n : Nat} (hn : 0 < n) : (g.choose n).2 < n := by
  unfold Gpu.choose
  split
  · exact hn
  · exact Nat.mod_lt _ hn

theorem State.bootSlot_lt (s : State) {n : Nat} (h : s.bootSlot.2 = some n) : n < 2 := by
  have hmem := List.mem_of_find?_eq_some h
  have hchoose := s.gpu.choose_lt (n := 2) (by decide)
  simp only [List.mem_cons, List.not_mem_nil, or_false] at hmem
  split at hmem
  · omega
  · split at hmem <;> omega

theorem State.precedes_boot (s : State) (tripped : Bool) : s.Precedes (s.boot tripped) where
  clk := s.clk.precedes_set 0 0 0 false (by decide) fun _ => ⟨by simp, by simp⟩
  sec := by
    unfold State.boot
    dsimp only
    split
    next n hn => exact (s.sec.precedes_booted (s.bootSlot_lt hn) ..).trans (Sec.precedes_volatile _ id ..)
    next => exact s.sec.precedes_recovery.trans (Sec.precedes_volatile _ id ..)

theorem State.precedes_coolBelow (s : State) (n : Nat) : s.Precedes (s.coolBelow n) :=
  ⟨.refl _, s.sec.precedes_volatile (fun _ => by simp) ..⟩

theorem State.precedesOut_powerOn (s : State) : s.PrecedesOut (execPowerOn s) := by
  refine State.Precedes.next ?_
  split
  · have hcool := s.precedes_coolBelow 60
    have hboot := (s.coolBelow 60).precedes_boot true
    exact ⟨hboot.clk, hcool.sec.trans hboot.sec⟩
  · exact s.precedes_boot false

theorem State.precedesOut_deviceReset (s : State) : s.PrecedesOut (execDeviceReset s) := by
  refine State.Precedes.next ?_
  split
  · exact s.precedes_boot false
  · exact .refl s

/-! ### The mailbox (R433 to R436) -/

theorem State.precedes_reply (s : State) (part status : Nat) (bytes : List Byte) : s.Precedes (s.reply part status bytes) :=
  ⟨.refl _, s.sec.precedes_volatile id ..⟩

theorem State.precedes_otherRequest (s : State) (part type : Nat) : s.Precedes (s.otherRequest part type) := by
  unfold State.otherRequest
  split
  · exact .refl s
  · exact s.precedes_reply ..

theorem State.precedesOut_attest (s : State) (part : Nat) (nonce : List Byte) : s.PrecedesOut (execAttest part nonce s) := by
  refine State.Precedes.next ?_
  split
  · exact .refl s
  · split <;> exact s.precedes_reply ..

theorem State.precedesOut_log (s : State) (part : Nat) (index : Word) : s.PrecedesOut (execLog part index s) := by
  refine State.Precedes.next ?_
  split
  · exact .refl s
  · split <;> exact s.precedes_reply ..

theorem State.precedesOut_fwStage (s : State) (part slot off : Nat) (bytes : List Byte) :
    s.PrecedesOut (execFwStage part slot off bytes s) := by
  refine State.Precedes.next ?_
  split
  · exact s.precedes_reply ..
  · split
    · exact s.precedes_reply ..
    · refine ⟨.refl _, ?_⟩
      dsimp only [State.reply]
      split <;> exact s.sec.precedes_volatile id ..

theorem State.precedesOut_fwCommit (s : State) (part slot : Nat) : s.PrecedesOut (execFwCommit part slot s) := by
  refine State.Precedes.next ?_
  split
  · exact s.precedes_reply ..
  · split
    · exact s.precedes_reply ..
    · dsimp only
      split
      · exact ⟨.refl _, s.sec.precedes_volatile id ..⟩
      · exact s.precedes_reply ..

theorem State.precedesOut_cfgStage (s : State) (part : Nat) (table sig : List Byte) :
    s.PrecedesOut (execCfgStage part table sig s) := by
  refine State.Precedes.next ?_
  split
  · exact .refl s
  next hrecov =>
    split
    · exact s.precedes_reply ..
    split
    · exact s.precedes_reply ..
    split
    · exact s.precedes_reply ..
    split
    · exact s.precedes_reply ..
    split
    · exact s.precedes_reply ..
    exact ⟨.refl _, (s.sec.precedes_store (by simpa using hrecov) ..).trans (Sec.precedes_volatile _ id ..)⟩

/-! ### Thermal limits (R437) -/

/-- A sensor's reading replaces one of the three. -/
theorem Sec.precedes_heat (c : Sec) (die temp : Nat) (held : Bool) : c.Precedes { c.heat die temp with held := held } :=
  c.precedes_volatile (fun h => by simpa [Sec.heat] using h) ..

theorem State.precedes_sense (s : State) (die temp : Nat) : s.Precedes (s.sense die temp) := by
  unfold State.sense
  split
  · exact ⟨.refl _, s.sec.precedes_heat ..⟩
  · exact .refl s

theorem State.precedesOut_thermalHot (s : State) (die temp : Nat) : s.PrecedesOut (execThermalHot die temp s) := by
  unfold execThermalHot
  split
  · exact (State.Precedes.refl s).next
  · exact State.Precedes.next ⟨.refl _, s.sec.precedes_heat ..⟩

theorem State.precedesOut_thermalTrip (s : State) (die temp : Nat) : s.PrecedesOut (execThermalTrip die temp s) := by
  unfold execThermalTrip
  split
  · exact (State.Precedes.refl s).next
  · exact State.Precedes.next ⟨.refl _, s.sec.precedes_heat ..⟩

theorem State.precedesOut_thermalHotClear (s : State) : s.PrecedesOut (execThermalHotClear s) := by
  unfold execThermalHotClear
  split
  · exact (State.Precedes.refl s).next
  · refine State.Precedes.next ?_
    split
    · exact ⟨.refl _, .refl _⟩
    · exact ⟨.refl _, (s.precedes_coolBelow 95).sec⟩

/-! ### Every row, every move, every step -/

/-- Only the rows of the time unit, the security core and the sensors set clock or security core; every other row is an effect on the
device. -/
theorem exec_precedes (i : Instr) (s : State) : s.PrecedesOut (exec i s) := by
  cases i with
  | ptpMessage offset => exact (s.precedes_withClock (s.clk.precedes_discipline offset)).next
  | ptpHoldover => exact (s.precedes_withClock (s.clk.precedes_set 3 0 _ _ le_rfl id)).next
  | ident part => exact (s.precedes_reply ..).next
  | attest part nonce => exact s.precedesOut_attest part nonce
  | status part => exact State.Precedes.next ⟨.refl _, (s.precedes_reply ..).sec⟩
  | log part index => exact s.precedesOut_log part index
  | fwStage part slot off bytes => exact s.precedesOut_fwStage part slot off bytes
  | fwCommit part slot => exact s.precedesOut_fwCommit part slot
  | cfgStage part table sig => exact s.precedesOut_cfgStage part table sig
  | powerOn => exact s.precedesOut_powerOn
  | deviceReset => exact s.precedesOut_deviceReset
  | thermalHot die temp => exact s.precedesOut_thermalHot die temp
  | thermalTrip die temp => exact s.precedesOut_thermalTrip die temp
  | thermalHotClear => exact s.precedesOut_thermalHotClear
  | _ => exact s.precedesOut_device _

theorem State.play_precedes (s : State) (m : Move) : s.PrecedesOut (s.play m) := by
  unfold State.play
  split
  · exact (State.Precedes.refl s).next
  cases m with
  | event i =>
    dsimp only
    split
    · exact (State.Precedes.refl s).next
    · exact exec_precedes i s
  | issue core =>
    dsimp only
    split
    next => exact (State.Precedes.refl s).next
    next => exact State.Precedes.next ⟨.refl _, .refl _⟩
    next g i _ => exact (exec_precedes i { s with gpu := g }).of_same rfl rfl
  | tick n => exact (s.precedes_tick n).next
  | sensor die temp => exact (s.precedes_sense die temp).next
  | otherRequest part type => exact (s.precedes_otherRequest part type).next
  | _ => exact s.precedesOut_device _

/-- The agenda, from which a step takes its move, is no part of the clock or the security core. -/
theorem step_precedes (s : State) : s.PrecedesOut (step s) := by
  have hplay (m : Move) (ms : List Move) : s.PrecedesOut (State.play { s with agenda := ms } m) :=
    (State.play_precedes _ m).of_same rfl rfl
  unfold step
  split
  · exact hplay _ _
  split
  · exact hplay _ _
  · exact (State.Precedes.refl s).next

/-- Settles O60: what each row and move may do to the clock and the security core is `exec_precedes` and `State.play_precedes`. That
core cycles and PTP time go on over POWER_ON and DEVICE_RESET is the model's choice (log 4). -/
theorem everyStepKeepsTimeAndSecurity : Obligations.EveryStepKeepsTimeAndSecurity := by
  unfold Obligations.EveryStepKeepsTimeAndSecurity
  intro s t hs ht
  obtain ⟨hclk, hsec⟩ := step_precedes s t ht
  obtain ⟨hclkWf, hsecWf⟩ := s.timeAndSecurity_iff.mp hs
  exact ⟨t.timeAndSecurity_iff.mpr ⟨hclk.wf hclkWf, hsec.wf hsecWf⟩, hclk.cyc, hclk.ptp, hsec.minsvn, hsec.serial, hsec.secret,
    hsec.vendor, hsec.okh⟩

end Sys2Proof.Machine
end

section
/-! PROOFS. Refutations from a thread that the device lists twice (02 R41, R43, R45): `Gpu.thread?` gives the first entry, while a word
that asks for waiters looks at every entry. No run reaches such a state; the statements speak of every state. -/

namespace Sys2Proof.Machine

open Sys2Proof

/-- The one thread of the counterexamples. -/
def onlyRef : TRef := ⟨0, 0⟩

/-- Guards that always hold, without S. -/
def plainPfx : Pfx := ⟨false, ⟨7, false⟩, ⟨7, false⟩⟩

/-- The loaded workgroup's thread issues, and stands in the device's list a second time, parked on `w`. -/
def listedTwice (w : Wait) : State :=
  { State.reset with
    gpu := { State.reset.gpu with
      cur := { core := 0, members := [onlyRef], pc := loadPc, word := 0, lit := 0, len := 8, no := 0 }
      threads := [(onlyRef, loadThread), (onlyRef, { loadThread with status := .parked w })]
      wgs := [loadWg 0]
      ctxs := [loadCtx]
      cores := [(0, loadCore)] } }

/-- The second entry is never looked up. -/
theorem thread?_listedTwice {w : Wait} {v : TRef} {x : Thread} (h : (listedTwice w).gpu.thread? v = some x) : x = loadThread := by
  have hlist : (listedTwice w).gpu.threads = [(onlyRef, loadThread), (onlyRef, { loadThread with status := .parked w })] := rfl
  by_cases hv : onlyRef = v
  · simpa [Gpu.thread?, hlist, hv, eq_comm] using h
  · simp [Gpu.thread?, hlist, hv] at h

theorem solo_listedTwice (w : Wait) : Solo (listedTwice w) onlyRef loadThread plainPfx [] := by
  refine ⟨rfl, rfl, rfl, rfl, ⟨rfl, fun _ _ _ _ hsw => absurd hsw (by decide)⟩, fun _ _ => rfl, fun _ _ _ hx _ => ?_⟩
  rw [thread?_listedTwice hx]
  rfl

theorem unreserved_listedTwice (w : Wait) : Unreserved (listedTwice w) := fun _ _ hx => by
  rw [thread?_listedTwice hx]
  rfl

/-- A thread as an outcome leaves it. -/
def threadAfter (o : Out) (u : TRef) : Option Thread :=
  match o with
  | .next t => t.gpu.thread? u
  | _ => none

/-- A word that does something with a member leaves the member's mode as it says. -/
theorem Does.mode_after {s : State} {o : Out} {th x : Thread} {d : Gpu → Gpu} {u : TRef} (h : Does s o th d)
    (hu : s.gpu.thread? u = some x) (hm : u ∈ s.members) : (threadAfter o u).map Thread.mode = some th.mode := by
  obtain ⟨t, rfl, _, _, hthreads⟩ := h
  obtain ⟨y, hy, hdata⟩ := hthreads u x hu
  rw [if_pos hm] at hdata
  have hmode := congrArg Thread.mode hdata
  rw [threadAfter, hy]
  exact congrArg some hmode

/-- Refutes O21: the second entry of a thread listed twice waits on the mask, so `rjset` takes the rejoin-busy trap although no thread
that `Gpu.thread?` finds is parked. -/
theorem not_rejoinMasks : ¬ Obligations.RejoinMasks := by
  intro h
  obtain ⟨hset, _, _⟩ := h (listedTwice (.rejoin 0)) onlyRef loadThread plainPfx 0 (.lit 0) (loadWg 0) rfl
  have hdoes := hset (solo_listedTwice _) fun v x hx => by
    rw [thread?_listedTwice hx]
    decide
  have htrap : (threadAfter (exec (.rjset plainPfx 0 (.lit 0)) (listedTwice (.rejoin 0))) onlyRef).map Thread.mode = some .trap := by
    decide +kernel
  exact absurd (htrap.symm.trans (hdoes.mode_after rfl List.mem_cons_self)) (by decide)

/-- Refutes O22: the second entry of a thread listed twice waits at the barrier, so `barinit` takes the barrier-busy trap although no
thread that `Gpu.thread?` finds is parked. -/
theorem not_barrierArrivalsAndWaits : ¬ Obligations.BarrierArrivalsAndWaits := by
  intro h
  obtain ⟨hinit, _⟩ := h (listedTwice (.barrier 0)) onlyRef loadThread plainPfx 0 (.lit 1) (loadWg 0) (.start 1) rfl rfl
    (unreserved_listedTwice _)
  have hdoes := hinit (solo_listedTwice _) (by decide) (by decide) rfl fun v x hx _ => by
    rw [thread?_listedTwice hx]
    decide
  have htrap : (threadAfter (exec (.barinit plainPfx 0 (.lit 1)) (listedTwice (.barrier 0))) onlyRef).map Thread.mode = some .trap := by
    decide +kernel
  exact absurd (htrap.symm.trans (hdoes.mode_after rfl List.mem_cons_self)) (by decide)

end Sys2Proof.Machine
end

section
/-! PROOFS. A pending bundle whose workgroup may not issue yet stays pending (02 R33, R49). -/

namespace Sys2Proof.Machine

open Sys2Proof

/-- The bundle of a workgroup's first thread, pending. -/
def pendingBundle : Bundle :=
  { members := [⟨0, 0⟩], launch := 0, mode := .user, pc := loadPc, entry := true, order := 0, issued := 0, timer := 0 }

/-- Core 0 with that bundle; the workgroup waits for the rest of its gang, so it has not started. -/
def waitsForGang : State :=
  { State.reset with
    gpu := { State.reset.gpu with
      threads := [(⟨0, 0⟩, Thread.start loadPc 0)]
      wgs := [{ loadWg 0 with time := { (loadWg 0).time with since := none } }]
      cores := [(0, { CoreSt.empty with pending := [pendingBundle] })] } }

/-- The active set of a core as an outcome leaves it. -/
def activeAfter (o : Out) (core : Nat) : List Bundle :=
  match o with
  | .next t => (t.gpu.core core).active
  | _ => []

/-- Refutes O44: a pending bundle of a workgroup that has not started (R49) does not enter the active set, whose fill the statement
promises for every pending bundle. -/
theorem not_bundlesFormFillAndRotate : ¬ Obligations.BundlesFormFillAndRotate := by
  intro h
  obtain ⟨_, hfill, _⟩ := h waitsForGang 0 0 ⟨0, 0⟩ ⟨0, 0⟩ (Thread.start loadPc 0) (Thread.start loadPc 0) pendingBundle
  obtain ⟨t, ht, hset⟩ := hfill (by decide) (by decide)
  rw [if_pos (by decide)] at hset
  have hempty : activeAfter (exec (.activeSetFill 0) waitsForGang) 0 = [] := by decide +kernel
  rw [ht, activeAfter, hset.1] at hempty
  exact absurd hempty (by decide)

end Sys2Proof.Machine
end

section
/-! PROOFS. A save area that has just been written is intact (15 R384), and what follows when two workgroups bear one number (15 R374,
R382): the reservation that takes a workgroup off its core restores the other and with it the first. No run reaches such a state; the
statement speaks of every state. -/

namespace Sys2Proof.Machine

open Sys2Proof

/-! ### Bytes written to device memory -/

theorem natOfBytes_bytesOfNat (n v : Nat) : natOfBytes (bytesOfNat n v) = v % 256 ^ n := by
  induction n generalizing v with
  | zero => simp [bytesOfNat, natOfBytes, Nat.mod_one]
  | succ n ih => rw [bytesOfNat, natOfBytes, ih, pow_succ' 256 n, Nat.mod_mul, BitVec.toNat_ofNat]

theorem MemSt.devByte_setDevBytes_below {m : MemSt} (h : m.wf = true) (a x : Nat) (bs : List Byte) (hx : x < a) :
    (m.setDevBytes a bs).devByte x = m.devByte x := by
  induction bs generalizing m a with
  | nil => rfl
  | cons b bs ih => rw [MemSt.setDevBytes, ih (MemSt.wf_setDevByte h a b) _ (by omega), MemSt.devByte_setDevByte h, if_neg (by omega)]

theorem MemSt.devBytes_setDevBytes {m : MemSt} (h : m.wf = true) (a : Nat) (bs : List Byte) :
    (m.setDevBytes a bs).devBytes a bs.length = bs := by
  induction bs generalizing m a with
  | nil => rfl
  | cons b bs ih =>
    have htail := ih (MemSt.wf_setDevByte h a b) (a + 1)
    rw [MemSt.devBytes, List.length_cons, List.range_succ_eq_map, List.map_cons, List.map_map]
    refine congrArg₂ List.cons ?_ ?_
    · rw [MemSt.setDevBytes, MemSt.devByte_setDevBytes_below (MemSt.wf_setDevByte h a b) _ _ _ (by omega), MemSt.devByte_setDevByte h,
        if_pos (by omega)]
    · refine Eq.trans (List.map_congr_left fun i _ => ?_) htail
      rw [Function.comp_apply, MemSt.setDevBytes, Nat.succ_eq_add_one, Nat.add_right_comm, Nat.add_assoc]

theorem MemSt.devBytes_add (m : MemSt) (a k n : Nat) : m.devBytes a (k + n) = m.devBytes a k ++ m.devBytes (a + k) n := by
  simp [MemSt.devBytes, List.range_add, Nat.add_assoc]

/-- Two blocks of bytes written one behind the other are both read back. -/
theorem MemSt.devBytes_setDevBytes_append {m : MemSt} (h : m.wf = true) (a : Nat) (xs ys : List Byte) :
    (m.setDevBytes a (xs ++ ys)).devBytes a xs.length = xs ∧ (m.setDevBytes a (xs ++ ys)).devBytes (a + xs.length) ys.length = ys := by
  have hall := MemSt.devBytes_setDevBytes h a (xs ++ ys)
  rw [List.length_append, MemSt.devBytes_add] at hall
  exact List.append_inj hall (by simp [MemSt.devBytes])

/-- A change of one core changes the cores alone. -/
theorem Gpu.modCore_eq (g : Gpu) (n : Nat) (f : CoreSt → CoreSt) : ∃ cores, g.modCore n f = { g with cores := cores } := by
  unfold Gpu.modCore
  split <;> exact ⟨_, rfl⟩

/-- A store to device memory of a device without threads, poison and compressed pages changes that memory alone. -/
theorem Gpu.homeStore_dev {g : Gpu} (hthreads : g.threads = []) (hparts : ∀ p ∈ g.parts, p.comp = none) (hpoison : g.mem.poison = [])
    (a k : Nat) (bs : List Byte) :
    g.homeStore false false ((bs.zipIdx k).map fun x => (⟨.dev, a + x.2⟩, x.1)) = { g with mem := g.mem.setDevBytes (a + k) bs } := by
  induction bs generalizing g k with
  | nil => rfl
  | cons b bs ih =>
    have hlose : g.loseResv (Phys.line ⟨.dev, a + k⟩) = g := by
      simp only [Gpu.loseResv, Gpu.mapThreads, hthreads, List.map_nil]
      rw [← hthreads]
    have hclean : g.poisoned (Phys.line ⟨.dev, a + k⟩) = false := by
      simp [Gpu.poisoned, hpoison, Phys.line]
    have htear : g.tear (a + k) = g := by
      rw [Gpu.tear, if_neg]
      simp +contextual [hparts]
    have hput : g.putHome false ⟨.dev, a + k⟩ b = { g with mem := g.mem.setDevByte (a + k) b } := by
      simp only [Gpu.putHome, htear]
    rw [List.zipIdx_cons, List.map_cons, Gpu.homeStore]
    simp only [hlose, hclean, hput, Bool.false_eq_true, if_false]
    exact ih (g := { g with mem := g.mem.setDevByte (a + k) b }) hthreads hparts hpoison (k + 1)

/-! ### The save area (R384) -/

/-- A device whose memory holds a header and the body that the header's integrity word is over. -/
theorem Gpu.saveIntact_of_bytes {g : Gpu} {c : Ctx} {state nwg used time : Nat} {body : List Byte} (hstate : state = 1 ∨ state = 2)
    (hused : used = 64 + body.length) (hlen : used ≤ c.savelen) (hsize : used < 2 ^ 64)
    (hhead : g.mem.devBytes c.save 64 = saveHead state nwg used time (Config.saveInteg body).toNat)
    (hbody : g.mem.devBytes (c.save + 64) body.length = body) : g.saveIntact c = true := by
  have hused8 : field (saveHead state nwg used time (Config.saveInteg body).toNat) 8 8 = used := by
    show natOfBytes (bytesOfNat 8 used) = used
    rw [natOfBytes_bytesOfNat, Nat.mod_eq_of_lt (by simpa using hsize)]
  have hinteg : field (saveHead state nwg used time (Config.saveInteg body).toNat) 0x18 8 = (Config.saveInteg body).toNat := by
    show natOfBytes (bytesOfNat 8 _) = _
    rw [natOfBytes_bytesOfNat, Nat.mod_eq_of_lt (by exact (Config.saveInteg body).isLt)]
  have hstate2 : field (saveHead state nwg used time (Config.saveInteg body).toNat) 2 2 = state := by
    show natOfBytes (bytesOfNat 2 state) = state
    rw [natOfBytes_bytesOfNat, Nat.mod_eq_of_lt (by omega)]
  have hvalid : field (saveHead state nwg used time (Config.saveInteg body).toNat) 0 2 = 1 := rfl
  have hrest : used - 64 = body.length := by omega
  simp [Gpu.saveIntact, hhead, hused8, hinteg, hstate2, hvalid, hrest, hbody, hstate, hlen]
  omega

/-- The contents of a save area that a device writes next. -/
def Gpu.saveBody (g : Gpu) (ctx : Nat) : List Byte := (List.range (g.saveSize ctx - 64)).map fun i => Config.saveByte g.free (64 + i)

/-- Its header. -/
def Gpu.saveHeader (g : Gpu) (ctx state : Nat) : List Byte :=
  saveHead state (g.wgs.filter fun w => w.ctx == ctx && w.place == .saved).length (g.saveSize ctx) g.ptp
    (Config.saveInteg (g.saveBody ctx)).toNat

/-- The memory with both written. -/
def Gpu.savedMem (g : Gpu) (c : Ctx) (ctx state : Nat) : MemSt :=
  g.mem.setDevBytes c.save (g.saveHeader ctx state ++ g.saveBody ctx)

theorem Gpu.length_saveBody (g : Gpu) (ctx : Nat) : (g.saveBody ctx).length = g.saveSize ctx - 64 := by simp [Gpu.saveBody]

/-- The write of a save area that fits, on a device without threads, poison and compressed pages. -/
theorem Gpu.writeSave_eq {g : Gpu} {c : Ctx} {ctx : Nat} (state : Nat) (hthreads : g.threads = [])
    (hparts : ∀ p ∈ g.parts, p.comp = none) (hpoison : g.mem.poison = []) (hctx : g.ctx? ctx = some c)
    (hfits : g.saveSize ctx ≤ c.savelen) (hheld : g.saveHeld c (g.saveSize ctx) = true) :
    g.writeSave ctx state = { g with free := g.free + 1, mem := g.savedMem c ctx state } := by
  rw [Gpu.writeSave, hctx]
  simp only [hheld, Nat.not_lt.mpr hfits, decide_false, Bool.not_true, Bool.or_self, Bool.false_eq_true, if_false]
  exact Gpu.homeStore_dev (g := { g with free := g.free + 1 }) hthreads hparts hpoison c.save 0 _

/-- A save area is intact once it has been written. -/
theorem Gpu.saveIntact_savedMem {g g' : Gpu} {c : Ctx} {ctx state : Nat} (hwf : g.mem.wf = true) (hstate : state = 1 ∨ state = 2)
    (h64 : 64 ≤ g.saveSize ctx) (hfits : g.saveSize ctx ≤ c.savelen) (hsize : g.saveSize ctx < 2 ^ 64)
    (hmem : g'.mem = g.savedMem c ctx state) : g'.saveIntact c = true := by
  obtain ⟨hhead, hbody⟩ := MemSt.devBytes_setDevBytes_append hwf c.save (g.saveHeader ctx state) (g.saveBody ctx)
  refine Gpu.saveIntact_of_bytes (used := g.saveSize ctx) (time := g.ptp) (body := g.saveBody ctx)
    (nwg := (g.wgs.filter fun w => w.ctx == ctx && w.place == .saved).length) hstate ?_ hfits hsize ?_ ?_
  · rw [Gpu.length_saveBody]
    omega
  · rw [hmem]
    exact hhead
  · rw [hmem]
    exact hbody

/-! ### Two workgroups of one number -/

/-- A context whose save area lies at address 0. -/
def savingCtx : Ctx := { loadCtx with savelen := 2 ^ 20 }

/-- A workgroup without registers, scratchpad or tiles. -/
def bareWg : Wg :=
  { loadWg 0 with
    regs := 0
    scratchLen := 0
    tmap := []
    node := some 0
    teams := [.start]
    time := { (loadWg 0).time with since := none } }

/-- A best-effort workgroup on core 0. -/
def victimWg : Wg := { bareWg with time := { bareWg.time with since := some 0 } }

/-- A saved workgroup of the reserved launch that bears the same number. -/
def twinWg : Wg := { bareWg with launch := 1, place := .saved }

/-- A deadline launch whose reservation of core 0 has come. -/
def reservedLaunch : Launch :=
  { loadLaunch with
    id := 1
    desc := { loadLaunch.desc with deadline := some 1 }
    status := .reserved
    alloc := some { cores := [0], start := 0, stop := 1 }
    waiting := [0] }

/-- A reservation is due on the core of a best-effort workgroup whose number a saved workgroup of the reserved launch bears too. -/
def twinNumbers : State :=
  { State.reset with
    gpu := { State.reset.gpu with
      wgs := [victimWg, twinWg]
      launches := [loadLaunch, reservedLaunch]
      ctxs := [savingCtx]
      cores := [(0, { CoreSt.empty with split := 1 })] } }

/-- The device with both workgroups off their cores, before the save area is written. -/
def twinsOff : Gpu :=
  { twinNumbers.dev with
    wgs := [{ bareWg with place := .saved }, twinWg]
    launches := [{ loadLaunch with status := .preempted }, reservedLaunch] }

/-- What a reservation leaves of them before it places work, with a memory. -/
def twinsSaved (m : MemSt) : Gpu := { twinsOff with free := 1, mem := m }

theorem saveSize_twinsOff : twinsOff.saveSize 0 = 20544 := by decide +kernel

theorem writeSave_twinsOff : twinsOff.writeSave 0 1 = twinsSaved (twinsOff.savedMem savingCtx 0 1) := by
  refine Gpu.writeSave_eq 1 (by decide +kernel) (by decide +kernel) (by decide +kernel) (by decide +kernel) ?_ (by decide +kernel)
  rw [saveSize_twinsOff]
  decide

theorem preempt_twins {m : MemSt} (hm : m = twinsOff.savedMem savingCtx 0 1) : twinNumbers.dev.preempt [0] = twinsSaved m := by
  unfold Gpu.preempt
  extract_lets f ws off mark g
  have hws : (ws.map Wg.ctx).dedup = [0] := by decide +kernel
  have hg : g = twinsOff := by decide +kernel
  rw [hws, hg, List.foldl_cons, List.foldl_nil, writeSave_twinsOff, hm]

/-- The reserved launch once its reservation runs. -/
def runningLaunch : Launch := { reservedLaunch with status := .running }

/-- The device on which the reservation places its work, with a memory. -/
def twinsFreed (m : MemSt) : Gpu :=
  (((twinsSaved m).modLaunch 1 fun l => if l.status == .finished then l else { l with status := .running }).endGrants [0]).revoke 0

theorem fits_twinsFreed (m : MemSt) : (twinsFreed m).fits 0 (runningLaunch.desc.wgNeed twinWg) = true :=
  Eq.trans (b := twinsOff.fits 0 (runningLaunch.desc.wgNeed twinWg)) rfl (by decide +kernel)

theorem fitsItem_twinsFreed (m : MemSt) : (twinsFreed m).fitsItem runningLaunch .saved 0 = true := by
  have hplace : (twinsFreed m).mayPlace runningLaunch = true := rfl
  have hspot : (twinsFreed m).spot runningLaunch 0 = true := rfl
  have hneed : (twinsFreed m).itemNeed runningLaunch .saved = some (runningLaunch.desc.wgNeed twinWg) := rfl
  have hsaved : (twinsFreed m).savedWg runningLaunch = some twinWg := rfl
  have hnode : twinWg.node.isSome = true := rfl
  have hengines : (((twinsFreed m).engines twinWg).all fun k => (((twinsFreed m).core 0).seq k).isNone) = true := rfl
  have hrays : (twinsFreed m).rays = [] := rfl
  simp [Gpu.fitsItem, Gpu.takes, hplace, hspot, hneed, fits_twinsFreed, hsaved, hnode, hengines, hrays]

theorem autoSpot_twinsFreed (m : MemSt) : (twinsFreed m).autoSpot runningLaunch = some (.saved, 0) := by
  have hitem : (twinsFreed m).nextItem runningLaunch = some .saved := rfl
  have hcores : (twinsFreed m).coresFor runningLaunch = [0] := rfl
  have hgang : (twinsFreed m).gangFits runningLaunch .saved 0 = true := rfl
  simp only [Gpu.autoSpot, hitem, hcores, Option.bind_some, List.find?_cons, fitsItem_twinsFreed, hgang, Bool.and_self,
    Option.map_some]



/-- An acquire of a core whose L1 is empty changes cores alone. -/
theorem Gpu.acquire_of_l1_nil {g : Gpu} {core : Nat} (h : (g.core core).l1 = []) (sc : Scope) :
    ∃ cores, g.acquire core sc = { g with cores := cores } := by
  have hclean : ∀ f, ∃ cores, g.cleanLines core f = { g with cores := cores } := fun f => by
    simp only [Gpu.cleanLines, h, List.filter_nil, List.foldl_nil]
    exact Gpu.modCore_eq _ _ _
  obtain ⟨cores, hcores⟩ := hclean fun _ => true
  rw [Gpu.acquire]
  split
  · obtain ⟨cores', hcores'⟩ := Gpu.modCore_eq (g.cleanL1 core) core fun c => { c with l1 := c.l1.filter fun l => l.dirty != 0 }
    refine ⟨cores', hcores'.trans ?_⟩
    rw [Gpu.cleanL1, hcores]
  · exact ⟨g.cores, rfl⟩

/-- A workgroup on its new core, before the rest of the device has heard of it. -/
def Gpu.sitAnew (g : Gpu) (w : Wg) (core : Nat) : Gpu :=
  (g.sit w.id core).modWg w.id fun v => { v with seqs := [], time := { v.time with placed := g.now } }

/-- A workgroup without operations put on a core that is set up for it and whose L1 is empty, on a device that nothing waits on. -/
theorem Gpu.putOn_of_ops_nil {g : Gpu} (w : Wg) {core : Nat} {n : Need} (hops : g.ops = []) (hthreads : g.threads = [])
    (hl1 : (g.core core).l1 = []) (hsplit : (g.core core).split = n.split) (hbrick : (g.core core).brick = n.brick) :
    ∃ cores mem, g.putOn w core n = ({ g.sitAnew w core with cores := cores, mem := mem } : Gpu).startReady w.launch := by
  unfold Gpu.putOn
  extract_lets asid sat fill dropped again queued held woken
  have hset : sat.setSplit core n = sat := if_pos (by rw [Bool.and_eq_true, beq_iff_eq, beq_iff_eq]; exact ⟨hsplit, hbrick⟩)
  obtain ⟨cores, hacq⟩ := Gpu.acquire_of_l1_nil (g := sat) (core := core) hl1 .sys
  obtain ⟨cores', hfill⟩ : ∃ cores', fill = { sat with cores := cores' } := by
    obtain ⟨cores', h⟩ := Gpu.modCore_eq (sat.acquire core .sys) core fun c =>
      w.seqs.foldl (fun c x => c.setSeq x.1 (some x.2)) { c with icache := [], bricks := [] }
    exact ⟨cores', by simp only [fill, hset]; rw [h, hacq]⟩
  have hdrop : ∃ cores mem, dropped = { sat with cores := cores, mem := mem } :=
    ⟨_, _, by simp only [dropped, hfill]; rfl⟩
  obtain ⟨cores, mem, hdrop⟩ := hdrop
  have hsat : sat.ops = [] := by simp [sat, Gpu.sit, hops]
  have hqueued : queued = dropped := by simp only [queued, hdrop, hsat, List.foldl_nil]
  have hheld : held = dropped := by
    simp only [held, hqueued, hdrop, hsat, List.filter_nil, List.foldl_nil]
    split <;> rfl
  have hwoken : woken = dropped := by
    have : dropped.threads = [] := by rw [hdrop]; exact hthreads
    simp only [woken, hheld, Gpu.wake, Gpu.mapThreads, this, List.map_nil]
    rw [← this]
  exact ⟨cores, mem, by rw [hwoken, hdrop]; rfl⟩

theorem core?_restoreWg_twinsFreed (m : MemSt) :
    (((twinsFreed m).restoreWg runningLaunch twinWg 0).wg? 0).map Wg.core? = some (some 0) := by
  obtain ⟨cores, mem, h⟩ := Gpu.putOn_of_ops_nil (g := twinsFreed m) twinWg (core := 0) (n := runningLaunch.desc.wgNeed twinWg)
    rfl rfl rfl rfl rfl
  rw [Gpu.restoreWg, h]
  rfl

/-- What the reservation leaves: the saved workgroup of its launch restored, and with it the other one of that number. -/
theorem core?_placeAll_twinsFreed {m : MemSt} (hm : m = twinsOff.savedMem savingCtx 0 1) :
    (((twinsFreed m).placeAll 1 1).wg? 0).map Wg.core? = some (some 0) := by
  have hlaunch : (twinsFreed m).launch? 1 = some runningLaunch := rfl
  have hsaved : (twinsFreed m).savedWg runningLaunch = some twinWg := rfl
  have hctx : (twinsFreed m).ctx? twinWg.ctx = some savingCtx := rfl
  have hmem : (twinsFreed m).mem = m := rfl
  have hintact : (twinsFreed m).saveIntact savingCtx = true := by
    refine Gpu.saveIntact_savedMem (g := twinsOff) (ctx := 0) (by decide +kernel) (.inl rfl) ?_ ?_ ?_ (hmem.trans hm) <;>
      rw [saveSize_twinsOff] <;> decide
  simp only [Gpu.placeAll, hlaunch, Option.bind_some, autoSpot_twinsFreed, Option.map_some, Gpu.place, Gpu.placeSaved, hsaved, hctx,
    Option.any_some, hintact, if_true]
  exact core?_restoreWg_twinsFreed m

/-- A reservation that may start and on whose cores one best-effort workgroup stands that may be saved. -/
theorem exec_reservationStart_of {s : State} {l : Launch} {w : Wg} {cs : List Nat} (hlaunch : s.dev.launch? l.id = some l)
    (hcores : (l.alloc.map Alloc.cores).getD [] = cs) (hstart : s.dev.mayStart l = true) (hbest : s.dev.bestOn cs = [w])
    (hgang : s.dev.withGang w = [w.id]) (hsettle : s.dev.settleWgs [w.id].contains = s.dev)
    (hblocked : s.dev.saveBlocked [w.id].contains = false) :
    exec (.reservationStart l.id) s = .next (s.onGpu fun _ =>
      ((((s.dev.preempt [w.id]).modLaunch l.id fun l => if l.status == .finished then l else { l with status := .running }).endGrants
        cs).revoke l.part).placeAll l.id (l.waiting.length + l.queue.length)) := by
  show execReservationStart l.id s = _
  have hdedup : [w.id].dedup = [w.id] := List.dedup_eq_self.mpr (List.nodup_singleton _)
  unfold State.dev at *
  simp [execReservationStart, State.device_eq, State.onGpu, hlaunch, hcores, hstart, hbest, hgang, hsettle, hblocked, hdedup]

theorem reservationStart_twins {m : MemSt} (hm : m = twinsOff.savedMem savingCtx 0 1) :
    exec (.reservationStart reservedLaunch.id) twinNumbers = .next (twinNumbers.onGpu fun _ => (twinsFreed m).placeAll 1 1) := by
  have hblocked : twinNumbers.dev.saveBlocked [victimWg.id].contains = false := by decide +kernel
  have hpreempt : twinNumbers.dev.preempt [victimWg.id] = twinsSaved m := preempt_twins hm
  rw [exec_reservationStart_of (l := reservedLaunch) (w := victimWg) rfl rfl (by decide +kernel) (by decide +kernel) rfl
    (by decide +kernel) hblocked, hpreempt]
  rfl

/-- Refutes O48: a reservation that takes a workgroup off its core restores another one of the same number, and with it the first. -/
theorem not_workgroupsArePlacedAndMoved : ¬ Obligations.WorkgroupsArePlacedAndMoved := by
  unfold Obligations.WorkgroupsArePlacedAndMoved
  intro h
  obtain ⟨-, hreserve, -, -⟩ := h twinNumbers reservedLaunch victimWg 0 0 rfl
  obtain ⟨-, hleaves⟩ := hreserve { cores := [0], start := 0, stop := 1 } rfl rfl rfl (by decide) (by decide +kernel)
  obtain ⟨t, x, hstep, hx, hcore⟩ := hleaves loadLaunch 0 rfl rfl rfl (by decide) rfl rfl rfl
    ⟨by decide, by decide, fun c hc e he => by
      rw [List.mem_singleton.mp hc] at he
      cases he⟩
  obtain ⟨m, hm⟩ : ∃ m, m = twinsOff.savedMem savingCtx 0 1 := ⟨_, rfl⟩
  have ht := Host.Outcome.next.inj ((reservationStart_twins hm).symm.trans hstep)
  have hback := core?_placeAll_twinsFreed hm
  rw [← ht] at hx
  rw [show ((twinsFreed m).placeAll 1 1).wg? 0 = some x from hx, Option.map_some, hcore] at hback
  exact absurd hback (by decide)

end Sys2Proof.Machine
end

section
/-! PROOFS. What a store that leaves its FIFO, a line written back and a hub unit's write change beside memory (04 R100, R106, R109,
R122): a thread at most loses its reservation, no core goes out of use, and workgroups, launches and contexts stay as they are. -/

namespace Sys2Proof.Machine

open Sys2Proof

/-- What no store changes: the issuing word, workgroups, launches, contexts and the clocks. -/
def Gpu.settled (g : Gpu) : Issue × List Wg × List Launch × List Ctx × Nat × Nat := (g.cur, g.wgs, g.launches, g.ctxs, g.now, g.ptp)

/-- The device `g'` comes from `g` by stores alone. -/
structure Gpu.Stores (g g' : Gpu) : Prop where
  settled : g'.settled = g.settled
  inUse : ∀ n, (g.cores.any fun x => x.1 == n) = true → (g'.cores.any fun x => x.1 == n) = true
  threads : ∃ f : TRef → Thread → Thread, (∀ t th, f t th = th ∨ f t th = { th with resv := none }) ∧
    g'.threads = g.threads.map fun x => (x.1, f x.1 x.2)

namespace Gpu.Stores

theorem of_eq {g g' : Gpu} (hsettled : g'.settled = g.settled)
    (hinUse : ∀ n, (g.cores.any fun x => x.1 == n) = true → (g'.cores.any fun x => x.1 == n) = true)
    (hthreads : g'.threads = g.threads) : g.Stores g' :=
  ⟨hsettled, hinUse, fun _ th => th, fun _ _ => .inl rfl, by simp [hthreads]⟩

theorem of_mapThreads {g : Gpu} {f : TRef → Thread → Thread} (hf : ∀ t th, f t th = th ∨ f t th = { th with resv := none }) :
    g.Stores (g.mapThreads f) := ⟨rfl, fun _ h => h, f, hf, rfl⟩

theorem refl (g : Gpu) : g.Stores g := of_eq rfl (fun _ h => h) rfl

theorem trans {a b c : Gpu} (hab : a.Stores b) (hbc : b.Stores c) : a.Stores c := by
  obtain ⟨f, hf, hb⟩ := hab.threads
  obtain ⟨f', hf', hc⟩ := hbc.threads
  refine ⟨hbc.settled.trans hab.settled, fun n h => hbc.inUse n (hab.inUse n h), fun t th => f' t (f t th), fun t th => ?_, ?_⟩
  · rcases hf t th with h | h
    · show f' t (f t th) = th ∨ f' t (f t th) = _
      rw [h]
      exact hf' t th
    · rcases hf' t (f t th) with h' | h'
      · exact .inr (h'.trans h)
      · exact .inr (h'.trans (by rw [h]))
  · rw [hc, hb, List.map_map]
    rfl

theorem foldl {α : Type} {f : Gpu → α → Gpu} (hf : ∀ (g : Gpu) (a : α), g.Stores (f g a)) (l : List α) (g : Gpu) :
    g.Stores (l.foldl f g) := by
  induction l generalizing g with
  | nil => exact refl g
  | cons a l ih => exact (hf g a).trans (ih _)

theorem cur {g g' : Gpu} (h : g.Stores g') : g'.cur = g.cur := congrArg Prod.fst h.settled
theorem wgs {g g' : Gpu} (h : g.Stores g') : g'.wgs = g.wgs := congrArg (·.2.1) h.settled
theorem launches {g g' : Gpu} (h : g.Stores g') : g'.launches = g.launches := congrArg (·.2.2.1) h.settled
theorem ctxs {g g' : Gpu} (h : g.Stores g') : g'.ctxs = g.ctxs := congrArg (·.2.2.2.1) h.settled
theorem now {g g' : Gpu} (h : g.Stores g') : g'.now = g.now := congrArg (·.2.2.2.2.1) h.settled
theorem ptp {g g' : Gpu} (h : g.Stores g') : g'.ptp = g.ptp := congrArg (·.2.2.2.2.2) h.settled

/-- A thread that holds no reservation stays as it is. -/
theorem thread? {g g' : Gpu} (h : g.Stores g') {t : TRef} (hresv : ∀ th, g.thread? t = some th → th.resv = none) :
    g'.thread? t = g.thread? t := by
  obtain ⟨f, hf, hthreads⟩ := h.threads
  have hmap : g'.thread? t = (g.thread? t).map (f t) := by
    rw [← Gpu.thread?_mapThreads]
    simp only [Gpu.thread?, Gpu.mapThreads, hthreads]
  rw [hmap]
  cases ht : g.thread? t with
  | none => rfl
  | some th =>
    have hnone := hresv th ht
    rcases hf t th with h | h
    · rw [Option.map_some, h]
    · rw [Option.map_some, h, ← hnone]

end Gpu.Stores

/-! ### Parts of stores -/

theorem Gpu.inUse_modCore (g : Gpu) (c : Nat) (f : CoreSt → CoreSt) (n : Nat) (h : (g.cores.any fun x => x.1 == n) = true) :
    ((g.modCore c f).cores.any fun x => x.1 == n) = true := by
  unfold Gpu.modCore
  split
  · obtain ⟨x, hx, hn⟩ := List.any_eq_true.mp h
    refine List.any_eq_true.mpr ⟨_, List.mem_map.mpr ⟨x, hx, rfl⟩, ?_⟩
    split
    · rename_i hc
      rw [← hc]
      exact hn
    · exact hn
  · simp only [List.any_append, h, Bool.true_or]

theorem Gpu.stores_modCore (g : Gpu) (n : Nat) (f : CoreSt → CoreSt) : g.Stores (g.modCore n f) :=
  .of_eq (by simp [Gpu.settled]) (g.inUse_modCore n f) (by simp)

theorem Gpu.stores_mem (g : Gpu) (m : MemSt) : g.Stores { g with mem := m } := .of_eq rfl (fun _ h => h) rfl

theorem Gpu.stores_loseResv (g : Gpu) (k : LineKey) : g.Stores (g.loseResv k) := by
  unfold Gpu.loseResv
  refine .of_mapThreads fun t th => ?_
  split
  · split
    · exact .inr rfl
    · exact .inl rfl
  · exact .inl rfl

theorem Gpu.stores_tear (g : Gpu) (a : Nat) : g.Stores (g.tear a) := by
  unfold Gpu.tear
  simp only
  split
  · exact .of_eq rfl (fun _ h => h) rfl
  · exact .refl g

theorem Gpu.stores_putHome (g : Gpu) (res : Bool) (p : Phys) (b : Byte) : g.Stores (g.putHome res p b) := by
  unfold Gpu.putHome
  split
  · exact (g.stores_tear _).trans (Gpu.stores_mem _ _)
  · split <;> exact g.stores_mem _
  · exact g.stores_mem _
  · exact .refl g

theorem Gpu.stores_homeStore (g : Gpu) (whole res : Bool) (cs : List (Phys × Byte)) : g.Stores (g.homeStore whole res cs) := by
  induction cs generalizing g with
  | nil => exact .refl g
  | cons c cs ih =>
    simp only [Gpu.homeStore]
    refine (g.stores_loseResv c.1.line).trans ?_
    split
    · exact ((Gpu.stores_mem _ _).trans (Gpu.stores_putHome _ res c.1 c.2)).trans (ih _)
    · split
      · exact ih _
      · exact (Gpu.stores_putHome _ res c.1 c.2).trans (ih _)

theorem Gpu.stores_ctrlStore (g : Gpu) (cs : List (Phys × Byte)) : g.Stores (g.ctrlStore cs) := by
  induction cs generalizing g with
  | nil => exact .refl g
  | cons c cs ih =>
    simp only [Gpu.ctrlStore]
    split
    · refine (g.stores_loseResv c.1.line).trans ?_
      split
      · exact ih _
      · exact ((Gpu.stores_tear _ _).trans (Gpu.stores_mem _ _)).trans (ih _)
    · exact (g.stores_homeStore false false [c]).trans (ih _)

theorem Gpu.stores_peerStore (g : Gpu) (cells : List (Phys × Byte)) (op : Option Nat) (by_ : Option (TRef × DWord × DWord)) :
    g.Stores (g.peerStore cells op by_) := by
  unfold Gpu.peerStore
  simp only
  generalize List.map (fun x => x.2) (List.filter _ cells) = bs
  generalize runsOf _ = rs
  induction rs generalizing g bs with
  | nil => exact .refl g
  | cons r rs ih =>
    rw [List.foldl_cons]
    split
    · exact Gpu.Stores.trans (b := g.sendOn _ _ _ _ _) (.of_eq rfl (fun _ h => h) rfl) (ih _ _)
    · exact ih g bs

theorem Gpu.stores_logError (g : Gpu) (part kind asid core unit addr : Nat) : g.Stores (g.logError part kind asid core unit addr) := by
  unfold Gpu.logError
  split
  · exact .refl g
  · exact .of_eq rfl (fun _ h => h) rfl

theorem Gpu.stores_choose (g : Gpu) (n : Nat) : g.Stores (g.choose n).1 := by
  unfold Gpu.choose
  split
  · exact .refl g
  · exact .of_eq rfl (fun _ h => h) rfl

/-! ### L1 -/

theorem Gpu.stores_writeL1 (core : Nat) (g : Gpu) (l : L1Line) : g.Stores (Gpu.writeL1 core g l) := by
  unfold Gpu.writeL1
  split
  · split
    · exact .refl g
    · exact (Gpu.stores_mem _ _).trans (Gpu.stores_logError _ _ _ _ _ _ _)
  · exact g.stores_homeStore false l.res l.dirtyCells

theorem Gpu.stores_cleanLines (g : Gpu) (core : Nat) (f : L1Line → Bool) : g.Stores (g.cleanLines core f) := by
  unfold Gpu.cleanLines
  exact (Gpu.Stores.foldl (Gpu.stores_writeL1 core) _ g).trans (Gpu.stores_modCore _ core _)

theorem Gpu.stores_cleanL1 (g : Gpu) (core : Nat) : g.Stores (g.cleanL1 core) := g.stores_cleanLines core _

theorem Gpu.stores_evictL1 (g : Gpu) (core : Nat) (k : LineKey) : g.Stores (g.evictL1 core k) := by
  unfold Gpu.evictL1
  exact (Gpu.Stores.foldl (Gpu.stores_writeL1 core) _ g).trans (Gpu.stores_modCore _ core _)

theorem Gpu.stores_makeRoom (g : Gpu) (core : Nat) : g.Stores (g.makeRoom core) := by
  unfold Gpu.makeRoom
  simp only
  split
  · exact .refl g
  · split
    · exact (g.stores_choose _).trans (Gpu.stores_evictL1 _ core _)
    · exact .refl g

theorem Gpu.stores_fillL1 (g : Gpu) (core rank : Nat) (k : LineKey) : g.Stores (g.fillL1 core rank k) := by
  unfold Gpu.fillL1
  split
  · exact .refl g
  · split
    · split
      · exact g.stores_modCore core _
      · exact .refl g
    · exact ((g.stores_evictL1 core k).trans (Gpu.stores_makeRoom _ core)).trans (Gpu.stores_modCore _ core _)

/-! ### Store FIFOs -/

theorem Gpu.stores_perform (g : Gpu) (core : Nat) (e : FifoEntry) : g.Stores (g.perform core e) := by
  have hfill : ∀ (g : Gpu) (x : Phys × Byte), g.Stores ((g.loseResv x.1.line).fillL1 core e.attr.rank x.1.line) := fun g x =>
    (g.stores_loseResv x.1.line).trans (Gpu.stores_fillL1 _ core _ _)
  have hpoke : ∀ (g : Gpu) (mark res : Bool), g.Stores (g.pokeL1 core mark res e.cells) := fun g _ _ => g.stores_modCore core _
  unfold Gpu.perform
  split
  · exact .refl g
  · split
    · exact g.stores_peerStore _ _ _
    · split
      · exact g.stores_loseResv _
      · split
        · exact g.stores_ctrlStore _
        · split
          · exact (g.stores_homeStore _ _ _).trans (hpoke _ _ _)
          · split
            · exact g.stores_homeStore _ _ _
            · simp only
              refine (Gpu.Stores.foldl hfill e.cells g).trans ?_
              split
              · exact (Gpu.stores_homeStore _ _ _ _).trans (hpoke _ _ _)
              · exact hpoke _ _ _

theorem Gpu.stores_leaveFifo (g : Gpu) (core : Nat) (r : List FifoEntry × List FifoEntry) : g.Stores (g.leaveFifo core r) :=
  (g.stores_modCore core _).trans (.foldl (fun g e => g.stores_perform core e) r.1 _)

theorem Gpu.stores_release (g : Gpu) (core : Nat) (t : TRef) (sc : Scope) : g.Stores (g.release core t sc) := by
  have hdrain : g.Stores (g.drain core t) := g.stores_leaveFifo core _
  unfold Gpu.release
  split
  · exact hdrain.trans (Gpu.stores_cleanL1 _ core)
  · exact hdrain

/-! ### Hub units -/

theorem Gpu.stores_noteHome (g : Gpu) (l : Leaf) : g.Stores (g.noteHome l) := by
  unfold Gpu.noteHome
  simp only
  split
  · exact g.stores_mem _
  · exact g.stores_mem _
  · exact .refl g

theorem Gpu.stores_hubFill (g : Gpu) (c : Ctx) (va : Nat) : g.Stores (g.hubFill c va) := by
  unfold Gpu.hubFill
  split
  · exact (g.stores_mem _).trans (Gpu.stores_noteHome _ _)
  · exact .refl g

theorem Gpu.stores_logWalk (g : Gpu) (c : Ctx) (core va n : Nat) : g.Stores (g.logWalk c core va n) := by
  unfold Gpu.logWalk
  simp only
  split
  · exact g.stores_logError _ _ _ _ _ _
  · exact .refl g

theorem Gpu.stores_hubPut (g : Gpu) (c : Ctx) (va : Nat) (bs : List Byte) : g.Stores (g.hubPut c va bs) := by
  unfold Gpu.hubPut Gpu.hubWrite
  cases ((bs.zipIdx).mapM fun x =>
    if 0xFF0000000000 ≤ va + x.2 then none else (g.hubTranslate c .write (va + x.2)).map fun l => (l.phys (va + x.2), x.1)) with
  | none => exact g.stores_logWalk _ _ _ _
  | some cs => exact (g.stores_homeStore false false cs).trans (Gpu.stores_hubFill _ c va)

end Sys2Proof.Machine
end

section
/-! PROOFS. A spawn (02 R53 to R55, 07 R230): the record drawn and written, or the park. -/

namespace Sys2Proof.Machine

open Sys2Proof

/-! ### Bytes of a record -/

theorem bytesOfNat_eq_map (n v : Nat) : bytesOfNat n v = (List.range n).map fun i => BitVec.ofNat 8 (v / 256 ^ i) := by
  induction n generalizing v with
  | zero => rfl
  | succ n ih =>
    rw [bytesOfNat, ih, List.range_succ_eq_map, List.map_cons, List.map_map]
    refine congrArg₂ List.cons (by simp) (List.map_congr_left fun i _ => ?_)
    rw [Function.comp_apply, Nat.succ_eq_add_one, pow_succ', Nat.div_div_eq_div_mul]

theorem bytesOfNat_eq_bytesAt {n : Nat} (hn : n ≤ 8) (v : Nat) : bytesOfNat n v = bytesAt (BitVec.ofNat 64 v) n := by
  rw [bytesOfNat_eq_map, bytesAt]
  refine List.map_congr_left fun i hi => BitVec.eq_of_toNat_eq ?_
  have hi : i < 8 := by
    have := List.mem_range.mp hi
    omega
  simp only [BitVec.toNat_ofNat, BitVec.toNat_setWidth, BitVec.toNat_ushiftRight, Nat.shiftRight_eq_div_pow, Nat.pow_mul]
  interval_cases i <;> omega

theorem Thread.bytesOfWords_regsFrom (th : Thread) (a : Reg) (n : Nat) :
    bytesOfWords (th.regsFrom a n) = (List.range (4 * n)).map (th.sent a) := by
  induction n with
  | zero => rfl
  | succ n ih =>
    have hword : bytesOfNat 4 (th.reg (a + BitVec.ofNat 8 n)).toNat = (List.range 4).map fun j => th.sent a (4 * n + j) := by
      rw [bytesOfNat_eq_bytesAt (by omega), bytesAt]
      refine List.map_congr_left fun j hj => ?_
      have hj := List.mem_range.mp hj
      have hdiv : (4 * n + j) / 4 = n := by omega
      have hmod : (4 * n + j) % 4 = j := by omega
      rw [Thread.sent, hdiv, hmod]
      refine BitVec.eq_of_toNat_eq ?_
      have hlt : (th.reg (a + BitVec.ofNat 8 n)).toNat < 18446744073709551616 := by
        have := (th.reg (a + BitVec.ofNat 8 n)).isLt
        omega
      simp [Nat.shiftRight_eq_div_pow, Nat.mod_eq_of_lt hlt]
    rw [Thread.regsFrom, List.range_succ, List.map_append, bytesOfWords, List.flatMap_append, Nat.mul_succ, List.range_add, List.map_append,
      List.map_map]
    exact congrArg₂ (· ++ ·) ih (by simpa [Function.comp_def] using hword)

/-- The 80 bytes of a record, field by field (Table 2.8). -/
theorem recordBytes_eq {node len seq srcwg srctid srcnode : Nat} {data : List Byte} (hdata : data.length = len) (hlen : len ≤ 64) :
    recordBytes node len seq srcwg srctid srcnode data =
      bytesAt (BitVec.ofNat 64 node) 2 ++ bytesAt (BitVec.ofNat 64 len) 2 ++ bytesAt (BitVec.ofNat 64 seq) 4 ++
      bytesAt (BitVec.ofNat 64 srcwg) 4 ++ bytesAt (BitVec.ofNat 64 srctid) 2 ++ bytesAt (BitVec.ofNat 64 srcnode) 1 ++ [0] ++
      data ++ List.replicate (64 - len) 0 := by
  have htake : (data ++ List.replicate (64 - data.length) 0).take 64 = data ++ List.replicate (64 - len) 0 := by
    rw [hdata]
    exact List.take_of_length_le (by rw [List.length_append, List.length_replicate]; omega)
  have hzero : bytesOfNat 1 0 = [0] := rfl
  rw [recordBytes, htake, hzero]
  simp only [bytesOfNat_eq_bytesAt (show 1 ≤ 8 by omega), bytesOfNat_eq_bytesAt (show 2 ≤ 8 by omega),
    bytesOfNat_eq_bytesAt (show 4 ≤ 8 by omega), List.append_assoc]

/-! ### The draw (R54) -/

/-- The part of the pool that a spawn draws from, and its records on offer (R54). -/
def Launch.onOffer (l : Launch) (root : Bool) (n : Nat) : List Nat :=
  if l.general = [] then (if root then [] else ((l.reserve.find? fun x => x.1 == n).map (·.2)).getD []) else l.general

theorem Launch.offer_eq (l : Launch) (root : Bool) (n : Nat) : l.offer root n = (l.onOffer root n).length := by
  unfold Launch.offer Launch.onOffer
  cases l.general with
  | nil => cases root <;> rfl
  | cons i is => rfl

theorem Launch.draw_eq_none {l : Launch} {root : Bool} {n : Nat} (h : l.onOffer root n = []) (k : Nat) : l.draw root n k = none := by
  unfold Launch.onOffer at h
  unfold Launch.draw
  split at h
  · rename_i hgen
    rw [hgen, List.isEmpty_nil, if_pos rfl]
    cases root with
    | true => rfl
    | false =>
      cases hfind : l.reserve.find? fun x => x.1 == n with
      | none => rfl
      | some x =>
        have hx : x.2 = [] := by simpa [hfind] using h
        simp [hx]
  · contradiction

theorem Launch.draw_eq_some {l : Launch} {root : Bool} {n k : Nat} (hk : k < (l.onOffer root n).length) :
    ∃ l' i, l.draw root n k = some (l', i, if l.general = [] then some n else none) ∧ i ∈ l.onOffer root n := by
  unfold Launch.onOffer at hk ⊢
  unfold Launch.draw
  split at hk
  · rename_i hgen
    rw [hgen, List.isEmpty_nil, if_pos rfl, if_pos rfl, if_pos rfl]
    cases root with
    | true => exact absurd hk (Nat.not_lt_zero _)
    | false =>
      cases hfind : l.reserve.find? fun x => x.1 == n with
      | none => simp [hfind] at hk
      | some x =>
        have hk : k < x.2.length := by simpa [hfind] using hk
        simp [List.getElem?_eq_getElem hk]
  · rename_i hgen
    simp [hgen, List.getElem?_eq_getElem hk]

/-! ### Spawns parked in a launch (R54): the pool and the packer keep them -/

@[simp] theorem Launch.parked_modPack (l : Launch) (n : Nat) (f : Pack → Pack) : (l.modPack n f).parked = l.parked := rfl

@[simp] theorem Launch.parked_launchBatch (l : Launch) (n : Nat) : (l.launchBatch n).parked = l.parked := by
  unfold Launch.launchBatch
  simp only
  split <;> rfl

@[simp] theorem Launch.parked_packRules (l : Launch) : l.packRules.parked = l.parked := by
  unfold Launch.packRules
  generalize List.range l.nodes.length = ns
  induction ns generalizing l with
  | nil => rfl
  | cons n ns ih =>
    rw [List.foldl_cons, ih]
    have hone : ∀ b : Bool, (if b = true then l.launchBatch n else l).parked = l.parked := fun b => by
      cases b
      · rfl
      · exact l.parked_launchBatch n
    exact hone _

theorem Launch.parked_giveBack (l : Launch) (rs : List Rec) : (l.giveBack rs).parked = l.parked := by
  unfold Launch.giveBack
  induction rs generalizing l with
  | nil => rfl
  | cons r rs ih =>
    rw [List.foldl_cons, ih]
    split <;> rfl

theorem Launch.parked_draw {l l' : Launch} {root : Bool} {n k i : Nat} {part : Option Nat} (h : l.draw root n k = some (l', i, part)) :
    l'.parked = l.parked := by
  unfold Launch.draw at h
  split at h
  · split at h
    · contradiction
    · obtain ⟨is, -, h⟩ := Option.bind_eq_some_iff.mp h
      obtain ⟨i, -, h⟩ := Option.map_eq_some_iff.mp h
      cases h
      rfl
  · obtain ⟨i, -, h⟩ := Option.map_eq_some_iff.mp h
    cases h
    rfl

/-! ### The lane -/

/-- An accepted spawn is stores, and then a change of its launch, whose parked spawns stay. -/
theorem Gpu.acceptSpawn_eq (g : Gpu) (l : Launch) (w : Wg) (s : PSpawn) (idx : Nat) (part : Option Nat) :
    ∃ h k, g.Stores h ∧ k.parked = l.parked ∧ g.acceptSpawn l w s idx part = h.modLaunch l.id fun _ => k := by
  unfold Gpu.acceptSpawn
  simp only
  refine ⟨_, _, ?_, ?_, rfl⟩
  rotate_left
  · simp
  refine (g.stores_release (w.core?.getD 0) s.t .dev).trans ?_
  split
  · exact Gpu.stores_hubPut _ _ _ _
  · exact .refl _

theorem Gpu.trySpawn_eq {g : Gpu} {s : PSpawn} {w : Wg} {l : Launch} (hw : g.wg? s.t.wg = some w) (hl : g.launch? w.launch = some l) :
    g.trySpawn s = (l.draw w.node.isNone s.node (g.choose (l.offer w.node.isNone s.node)).2).map fun x =>
      (g.choose (l.offer w.node.isNone s.node)).1.acceptSpawn x.1 w s x.2.1 x.2.2 := by
  simp only [Gpu.trySpawn, hw, hl, Option.bind_some]

/-- The spawn that a lane of `spawn` asks for. -/
def Thread.spawnOf (th : Thread) (t : TRef) (b : SrcB) (a : Reg) (len : Nat) : PSpawn :=
  { t := t, op := none, node := (th.srcW b).toNat, len := len, data := bytesOfWords (th.regsFrom a (len / 4)) }

theorem Gpu.spawnLane_traps {g : Gpu} {b : SrcB} {a : Reg} {len : Nat} {t : TRef} {e : Env} {th : Thread} {w : Wg} {l : Launch}
    (hw : g.wg? t.wg = some w) (hl : g.launch? w.launch = some l)
    (h : l.permits w (th.srcW b).toNat = false ∨ 64 < len ∨ len % 4 ≠ 0) :
    g.spawnLane b a len t e th = (g, .trap (.of .spawnTarget)) := by
  simp only [Gpu.spawnLane, hw, hl]
  rw [if_pos]
  simpa [or_assoc] using h

theorem Gpu.spawnLane_tries {g : Gpu} {b : SrcB} {a : Reg} {len : Nat} {t : TRef} {e : Env} {th : Thread} {w : Wg} {l : Launch}
    (hw : g.wg? t.wg = some w) (hl : g.launch? w.launch = some l) (hpermits : l.permits w (th.srcW b).toNat = true) (hlen : len ≤ 64)
    (hmod : len % 4 = 0) (hheld : g.heldBack t = false) (hwait : g.releaseWait e.core t .dev = none) :
    g.spawnLane b a len t e th = match g.trySpawn (th.spawnOf t b a len) with
      | some g => (g, .done)
      | none => ((g.modLaunch l.id fun l => { l with parked := l.parked ++ [th.spawnOf t b a len] }.packRules).modThread t
          fun th => { th with status := .parked .pool }, .done) := by
  have hok : (!l.permits w (th.srcW b).toNat || decide (64 < len) || decide (len % 4 ≠ 0)) = false := by
    simp [hpermits, hlen, hmod]
  simp only [Gpu.spawnLane, hw, hl, hok, Gpu.afterReads, hheld, hwait, Bool.false_eq_true, if_false]
  rfl

/-- `spawn` whose payload lies within the encodable registers runs lane by lane. -/
theorem exec_spawn {s : State} {p : Pfx} {b : SrcB} {a : Reg} {len : BitVec 7} {m : Nat} (hm : (len.toNat + 3) / 4 = m)
    (ha : a.toNat + m ≤ 256) :
    exec (.spawn p b a len) s = s.device fun g => g.laneWord p (a.run m ++ b.span false) (Gpu.spawnLane b a len.toNat) := by
  subst hm
  show execSpawn p b a len s = _
  simp only [execSpawn, State.device_eq, Nat.not_lt.mpr ha, if_false]

section
variable {s : State} {u : TRef} {th : Thread} {p : Pfx} {b : SrcB} {a : Reg} {len : BitVec 7} {w : Wg} {l : Launch} {m : Nat}

theorem spawn_traps (hw : s.gpu.wg? u.wg = some w) (hl : s.gpu.launch? w.launch = some l) (hm : (len.toNat + 3) / 4 = m)
    (hsolo : Solo s u th p (a.run m ++ b.span false)) (ha : a.toNat + m ≤ 256) (huser : th.mode = .user)
    (hbad : l.permits w (th.srcW b).toNat = false ∨ 64 < len.toNat ∨ len.toNat % 4 ≠ 0) :
    Traps s u th (.of .spawnTarget) (exec (.spawn p b a len) s) id := by
  have ⟨_, _, _, _, ⟨hcore, _⟩, _⟩ := hsolo
  rw [exec_spawn hm ha]
  exact State.laneWord_traps hsolo huser (Gpu.spawnLane_traps (g := s.now) hw hl hbad) rfl hcore rfl (fun _ => rfl) rfl

theorem spawn_takes {l' : Launch} {i : Nat} {part : Option Nat} (hw : s.gpu.wg? u.wg = some w) (hl : s.gpu.launch? w.launch = some l)
    (hm : (len.toNat + 3) / 4 = m) (hsolo : Solo s u th p (a.run m ++ b.span false)) (ha : a.toNat + m ≤ 256) (hfree : Unreserved s)
    (hpermits : l.permits w (th.srcW b).toNat = true) (hlen : len.toNat ≤ 64) (hmod : len.toNat % 4 = 0)
    (hheld : s.gpu.heldBack u = false) (hwait : s.gpu.releaseWait (s.gpu.env u).core u .dev = none)
    (hdraw : l.draw w.node.isNone (th.srcW b).toNat (s.now.choose (l.offer w.node.isNone (th.srcW b).toNat)).2 = some (l', i, part)) :
    Does s (exec (.spawn p b a len) s) th fun _ =>
      (s.now.choose (l.offer w.node.isNone (th.srcW b).toNat)).1.acceptSpawn l' w (th.spawnOf u b a len.toNat) i part := by
  have ⟨hmem, hth, _, _, ⟨hcore, hstill⟩, _⟩ := hsolo
  obtain ⟨h, k, hstores, -, haccept⟩ := Gpu.acceptSpawn_eq (s.now.choose (l.offer w.node.isNone (th.srcW b).toNat)).1 l' w
    (th.spawnOf u b a len.toNat) i part
  have hall := (Gpu.stores_choose s.now _).trans hstores
  have htry := Gpu.trySpawn_eq (g := s.now) (s := th.spawnOf u b a len.toNat) hw hl
  have hthreads : ∀ v, h.thread? v = s.gpu.thread? v := fun v => hall.thread? (hfree v)
  rw [exec_spawn hm ha]
  refine State.laneWord_does hsolo ((Gpu.spawnLane_tries (g := s.now) hw hl hpermits hlen hmod hheld hwait).trans ?_) ?_ ?_ ?_ ?_ ?_ rfl
  · rw [htry]
    simp only [Thread.spawnOf] at hdraw ⊢
    rw [hdraw]
    rfl
  · rw [haccept]
    exact hall.cur
  · rw [haccept]
    exact hall.inUse _ hcore
  · rw [haccept]
    exact (hthreads u).trans hth
  · rw [haccept]
    exact fun v _ => hthreads v
  · exact hstill u (by rw [hmem]; exact List.mem_singleton_self u) th hth

theorem spawn_parks (hw : s.gpu.wg? u.wg = some w) (hl : s.gpu.launch? w.launch = some l) (hm : (len.toNat + 3) / 4 = m)
    (hsolo : Solo s u th p (a.run m ++ b.span false)) (ha : a.toNat + m ≤ 256)
    (hpermits : l.permits w (th.srcW b).toNat = true) (hlen : len.toNat ≤ 64) (hmod : len.toNat % 4 = 0)
    (hheld : s.gpu.heldBack u = false) (hwait : s.gpu.releaseWait (s.gpu.env u).core u .dev = none)
    (hdraw : ∀ k, l.draw w.node.isNone (th.srcW b).toNat k = none) :
    Parks s u p.sw (exec (.spawn p b a len) s) th .pool fun g =>
      g.modLaunch l.id fun l => { l with parked := l.parked ++ [th.spawnOf u b a len.toNat] }.packRules := by
  have ⟨_, hth, _, _, ⟨hcore, _⟩, _⟩ := hsolo
  have htry := Gpu.trySpawn_eq (g := s.now) (s := th.spawnOf u b a len.toNat) hw hl
  have hnone : s.now.trySpawn (th.spawnOf u b a len.toNat) = none := htry.trans (congrArg (Option.map _) (hdraw _))
  rw [exec_spawn hm ha]
  refine State.laneWord_parks hsolo ((Gpu.spawnLane_tries (g := s.now) hw hl hpermits hlen hmod hheld hwait).trans
    (by rw [hnone])) ?_ ?_ ?_ ?_ ?_ ?_
  · rfl
  · exact hcore
  · rw [Gpu.thread?_modThread_same]
    exact congrArg (Option.map _) hth
  · exact fun _ _ _ h => nomatch h
  · exact fun v hv => Gpu.thread?_modThread_other _ _ hv
  · rfl

end

/-- Settles O31, by the cases of a lane of `spawn`; an accepted one changes no thread, as none holds a reservation. -/
theorem spawnsTakeRecordsOrPark : Obligations.SpawnsTakeRecordsOrPark := by
  unfold Obligations.SpawnsTakeRecordsOrPark
  intro s u th p b a len w l n succ hw hl
  refine ⟨fun hsolo ha huser hbad => spawn_traps hw hl rfl hsolo ha huser ?_,
    fun hsolo hfree hheld hwait hlen hmod ha hn hsucc => ?_⟩
  · have hpermits : l.permits w (th.srcW b).toNat = (decide (n < 64) && succ.getLsbD n) := rfl
    rw [hpermits]
    rcases hbad with h | h | h | h
    · exact .inl (by simp [Nat.not_lt.mpr h])
    · exact .inl (by simp [h])
    · exact .inr (.inl h)
    · exact .inr (.inr h)
  · intro data spawn g c reserve free
    have hpermits : l.permits w (th.srcW b).toNat = true := by
      show (decide (n < 64) && succ.getLsbD n) = true
      simp [hn, hsucc]
    have hm : (len.toNat + 3) / 4 = len.toNat / 4 := by omega
    have hdata : bytesOfWords (th.regsFrom a (len.toNat / 4)) = data := by
      rw [Thread.bytesOfWords_regsFrom, Nat.mul_div_cancel' (Nat.dvd_of_mod_eq_zero hmod)]
    have hspawn : th.spawnOf u b a len.toNat = spawn := by simp only [Thread.spawnOf, hdata, spawn, n]
    have hoffer : free = l.onOffer w.node.isNone n := by
      simp only [free, reserve, Launch.onOffer]
      cases w.node <;> rfl
    refine ⟨fun hne => ?_, fun hnil => ?_, ?_⟩
    · have hk : c.2 < (l.onOffer w.node.isNone n).length := by
        rw [← Launch.offer_eq]
        refine Gpu.choose_lt g ?_
        rw [Launch.offer_eq, ← hoffer]
        exact List.length_pos_iff.mpr hne
      obtain ⟨l', i, hdraw, hi⟩ := Launch.draw_eq_some hk
      refine ⟨l', i, _, hdraw, hoffer ▸ hi, rfl, ?_⟩
      rw [← hspawn]
      exact spawn_takes hw hl hm hsolo ha hfree hpermits hlen hmod hheld hwait hdraw
    · rw [← hspawn]
      exact spawn_parks hw hl hm hsolo ha hpermits hlen hmod hheld hwait (Launch.draw_eq_none (hoffer ▸ hnil))
    · have hlength : data.length = len.toNat := by simp [data]
      have hlen64 : len.setWidth 64 = BitVec.ofNat 64 len.toNat := by
        refine BitVec.eq_of_toNat_eq ?_
        simp
      rw [hlen64]
      exact recordBytes_eq hlength hlen

end Sys2Proof.Machine
end

section
/-! PROOFS. What the end of threads and workgroups leaves as it is elsewhere (02 R28, R41, R43, R50, R54, R57): threads that are not
parked are not woken, workgroups keep their places, contexts and clocks stay, and no spawn parks anew. -/

namespace Sys2Proof.Machine

open Sys2Proof

/-- The clocks and contexts of a device. -/
def Gpu.frame (g : Gpu) : List Ctx × Nat × Nat := (g.ctxs, g.now, g.ptp)

/-- A workgroup's number, place and end. -/
def Wg.seat (w : Wg) : Nat × Place × Option (Nat × Nat) := (w.id, w.place, w.endSt)

/-- No thread of `S` is parked. -/
def Gpu.Unparked (S : TRef → Prop) (g : Gpu) : Prop := ∀ x ∈ g.threads, S x.1 → ∀ w, x.2.status ≠ .parked w

/-- From `g` to `g'` the threads of `S` keep their status, and the rest of what the section names stays as it is. -/
structure Gpu.Kept (S : TRef → Prop) (g g' : Gpu) : Prop where
  frame : g'.frame = g.frame
  refs : g'.threads.map Prod.fst = g.threads.map Prod.fst
  seats : g'.wgs.map Wg.seat = g.wgs.map Wg.seat
  statuses : ∀ x' ∈ g'.threads, S x'.1 → ∃ x ∈ g.threads, x.1 = x'.1 ∧ x'.2.status = x.2.status
  parked : ∀ l' ∈ g'.launches, ∀ k ∈ l'.parked, ∃ l ∈ g.launches, k ∈ l.parked

/-- The same, once no thread of `S` is parked. -/
def Gpu.Spares (S : TRef → Prop) (g g' : Gpu) : Prop := g.Unparked S → g.Kept S g'

variable {S : TRef → Prop}

namespace Gpu.Kept

theorem refl (g : Gpu) : g.Kept S g := ⟨rfl, rfl, rfl, fun x hx _ => ⟨x, hx, rfl, rfl⟩, fun l hl _ hk => ⟨l, hl, hk⟩⟩

theorem trans {a b c : Gpu} (hab : a.Kept S b) (hbc : b.Kept S c) : a.Kept S c := by
  refine ⟨hbc.frame.trans hab.frame, hbc.refs.trans hab.refs, hbc.seats.trans hab.seats, fun z hz hS => ?_, fun l hl k hk => ?_⟩
  · obtain ⟨y, hy, hyz, hst⟩ := hbc.statuses z hz hS
    obtain ⟨x, hx, hxy, hst'⟩ := hab.statuses y hy (hyz ▸ hS)
    exact ⟨x, hx, hxy.trans hyz, hst.trans hst'⟩
  · obtain ⟨m, hm, hkm⟩ := hbc.parked l hl k hk
    exact hab.parked m hm k hkm

theorem unparked {g g' : Gpu} (h : g.Kept S g') (hg : g.Unparked S) : g'.Unparked S := fun x hx hS w hw => by
  obtain ⟨y, hy, hyx, hst⟩ := h.statuses x hx hS
  exact hg y hy (hyx ▸ hS) w (hst ▸ hw)

theorem ctxs {g g' : Gpu} (h : g.Kept S g') : g'.ctxs = g.ctxs := congrArg Prod.fst h.frame
theorem ptp {g g' : Gpu} (h : g.Kept S g') : g'.ptp = g.ptp := congrArg (·.2.2) h.frame

/-- A workgroup is found with its place and its end. -/
theorem wg? {g g' : Gpu} (h : g.Kept S g') (i : Nat) : (g'.wg? i).map Wg.seat = (g.wg? i).map Wg.seat := by
  have hfind : ∀ ws : List Wg, (ws.find? fun w => w.id == i).map Wg.seat = (ws.map Wg.seat).find? fun x => x.1 == i := fun ws => by
    rw [List.find?_map]
    rfl
  rw [Gpu.wg?, Gpu.wg?, hfind, hfind, h.seats]

/-- A thread is still found. -/
theorem thread? {g g' : Gpu} (h : g.Kept S g') {t : TRef} {th : Thread} (ht : g.thread? t = some th) :
    ∃ th', g'.thread? t = some th' ∧ (t, th') ∈ g'.threads := by
  obtain ⟨x, hx, -⟩ := Option.map_eq_some_iff.mp ht
  have hmem : t ∈ g'.threads.map Prod.fst := by
    rw [h.refs, ← beq_iff_eq.mp (List.find?_some (p := fun y : TRef × Thread => y.1 == t) hx)]
    exact List.mem_map_of_mem (List.mem_of_find?_eq_some hx)
  obtain ⟨y, hy, hyt⟩ := List.mem_map.mp hmem
  obtain ⟨z, hz⟩ := Option.isSome_iff_exists.mp
    (List.find?_isSome (p := fun z : TRef × Thread => z.1 == t).mpr ⟨y, hy, beq_iff_eq.mpr hyt⟩)
  refine ⟨z.2, by rw [Gpu.thread?, hz, Option.map_some], ?_⟩
  rw [← beq_iff_eq.mp (List.find?_some (p := fun z : TRef × Thread => z.1 == t) hz)]
  exact List.mem_of_find?_eq_some hz

end Gpu.Kept

namespace Gpu.Spares

theorem refl (g : Gpu) : g.Spares S g := fun _ => .refl g

theorem trans {a b c : Gpu} (hab : a.Spares S b) (hbc : b.Spares S c) : a.Spares S c := fun h =>
  (hab h).trans (hbc ((hab h).unparked h))

theorem foldl {α : Type} {f : Gpu → α → Gpu} (hf : ∀ (g : Gpu) (a : α), g.Spares S (f g a)) (l : List α) (g : Gpu) :
    g.Spares S (l.foldl f g) := by
  induction l generalizing g with
  | nil => exact refl g
  | cons a l ih => exact (hf g a).trans (ih _)

/-- Parts of the device that the section does not name. -/
theorem of_eq {g g' : Gpu} (hframe : g'.frame = g.frame) (hthreads : g'.threads = g.threads) (hwgs : g'.wgs = g.wgs)
    (hlaunches : g'.launches = g.launches) : g.Spares S g' := fun _ =>
  ⟨hframe, by rw [hthreads], by rw [hwgs], fun x hx _ => ⟨x, hthreads ▸ hx, rfl, rfl⟩,
    fun l hl _ hk => ⟨l, hlaunches ▸ hl, hk⟩⟩

theorem of_mapThreads {g : Gpu} {f : TRef → Thread → Thread} (hf : ∀ t th, S t → (f t th).status = th.status) :
    g.Spares S (g.mapThreads f) := fun _ => by
  refine ⟨rfl, ?_, rfl, fun x' hx' hS => ?_, fun l hl _ hk => ⟨l, hl, hk⟩⟩
  · rw [Gpu.mapThreads, List.map_map]
    rfl
  · obtain ⟨x, hx, rfl⟩ := List.mem_map.mp hx'
    exact ⟨x, hx, rfl, hf _ _ hS⟩

theorem of_stores {g g' : Gpu} (h : g.Stores g') : g.Spares S g' := fun _ => by
  obtain ⟨f, hf, hthreads⟩ := h.threads
  refine ⟨?_, ?_, by rw [h.wgs], fun x' hx' _ => ?_, fun l hl _ hk => ⟨l, h.launches ▸ hl, hk⟩⟩
  · rw [Gpu.frame, Gpu.frame, h.ctxs, h.now, h.ptp]
  · rw [hthreads, List.map_map]
    rfl
  · rw [hthreads] at hx'
    obtain ⟨x, hx, rfl⟩ := List.mem_map.mp hx'
    refine ⟨x, hx, rfl, ?_⟩
    rcases hf x.1 x.2 with h | h <;> rw [h]

end Gpu.Spares

/-! ### State operations -/

theorem Gpu.spares_modCore (g : Gpu) (n : Nat) (f : CoreSt → CoreSt) : g.Spares S (g.modCore n f) :=
  .of_eq (by simp [Gpu.frame]) (by simp) (by simp) (by simp)

theorem Gpu.spares_modWg (g : Gpu) (i : Nat) {f : Wg → Wg} (hf : ∀ w, (f w).seat = w.seat) : g.Spares S (g.modWg i f) := fun _ => by
  refine ⟨rfl, rfl, ?_, fun x hx _ => ⟨x, hx, rfl, rfl⟩, fun l hl _ hk => ⟨l, hl, hk⟩⟩
  rw [Gpu.modWg, List.map_map]
  refine List.map_congr_left fun w _ => ?_
  rw [Function.comp_apply]
  split
  · exact hf w
  · rfl

theorem Gpu.spares_modLaunch_of_parked (g : Gpu) (i : Nat) {f : Launch → Launch}
    (hf : ∀ l ∈ g.launches, ∀ k ∈ (f l).parked, ∃ l ∈ g.launches, k ∈ l.parked) : g.Spares S (g.modLaunch i f) := fun _ => by
  refine ⟨rfl, rfl, rfl, fun x hx _ => ⟨x, hx, rfl, rfl⟩, fun l' hl' k hk => ?_⟩
  obtain ⟨l, hl, rfl⟩ := List.mem_map.mp hl'
  split at hk
  · exact hf l hl k hk
  · exact ⟨l, hl, hk⟩

theorem Gpu.spares_modLaunch (g : Gpu) (i : Nat) {f : Launch → Launch} (hf : ∀ l, ∀ k ∈ (f l).parked, k ∈ l.parked) :
    g.Spares S (g.modLaunch i f) :=
  g.spares_modLaunch_of_parked i fun l hl k hk => ⟨l, hl, hf l k hk⟩

theorem Gpu.spares_wake (g : Gpu) {ts : List TRef} (hts : ∀ t ∈ ts, ¬ S t) : g.Spares S (g.wake ts) :=
  .of_mapThreads fun t th hS => by
    rw [if_neg]
    simpa using fun h => hts t h hS

/-- A thread that is not parked waits on nothing. -/
theorem Gpu.Unparked.not_waiter {g : Gpu} (h : g.Unparked S) {p : TRef → Wait → Bool} : ∀ t ∈ g.waiters p, ¬ S t :=
    fun t ht hS => by
  obtain ⟨x, hx, rfl⟩ := List.mem_map.mp ht
  obtain ⟨hx, hp⟩ := List.mem_filter.mp hx
  split at hp
  · rename_i w hw
    exact h x hx hS w hw
  · exact Bool.false_ne_true hp

theorem Gpu.spares_wake_waiters (g : Gpu) (p : TRef → Wait → Bool) : g.Spares S (g.wake (g.waiters p)) := fun h =>
  g.spares_wake h.not_waiter h

theorem Gpu.spares_addBundle (g : Gpu) (core : Nat) (ms : List TRef) (launch : Nat) (mode : Mode) (pc : DWord) :
    g.Spares S (g.addBundle core ms launch mode pc) := by
  unfold Gpu.addBundle
  exact Gpu.Spares.trans (b := g.fresh) (.of_eq rfl rfl rfl rfl) (Gpu.spares_modCore _ core _)

theorem Gpu.spares_releaseAsBundle (g : Gpu) (core : Nat) {ts : List TRef} (hts : ∀ t ∈ ts, ¬ S t) :
    g.Spares S (g.releaseAsBundle core ts) := by
  unfold Gpu.releaseAsBundle
  simp only
  refine Gpu.Spares.trans (.of_mapThreads fun t th hS => ?_) (.foldl (fun g k => g.spares_addBundle core _ _ _ _) _ _)
  have ht : t ∉ ts := fun h => hts t h hS
  rw [if_neg (by simp [ht]), if_neg (by simp [ht])]

/-- Stalls on arrays wake waiters alone. -/
theorem Gpu.spares_wakeArrays (g : Gpu) (core : Nat) (f : ArrWait → Bool) : g.Spares S (g.wakeArrays core f) := fun h => by
  unfold Gpu.wakeArrays
  simp only
  refine Gpu.Spares.foldl (fun g tm => g.spares_releaseAsBundle _ fun t ht => ?_) _ g h
  exact h.not_waiter t (List.mem_of_mem_filter ((mem_sortLanes t _).mp ht))

theorem Gpu.spares_freeRays (g : Gpu) (f : Ray → Bool) : g.Spares S (g.freeRays f) := by
  unfold Gpu.freeRays
  simp only
  refine Gpu.Spares.trans ?_ (Gpu.spares_wake_waiters _ _)
  exact .of_eq rfl rfl rfl rfl

/-! ### Rejoin masks and barriers (R41, R43, R44, R50) -/

theorem Gpu.spares_testMask (g : Gpu) (wg j k : Nat) : g.Spares S (g.testMask wg j k) := fun h => by
  unfold Gpu.testMask
  split
  · exact .refl g
  · simp only
    split
    · refine Gpu.Spares.trans ?_ (Gpu.spares_releaseAsBundle _ _ fun t ht => h.not_waiter t ((mem_sortLanes t _).mp ht)) h
      exact g.spares_modWg wg fun w => rfl
    · exact .refl g

theorem Gpu.spares_testBar (g : Gpu) (wg b : Nat) : g.Spares S (g.testBar wg b) := fun h => by
  unfold Gpu.testBar
  split
  · exact .refl g
  · simp only
    split
    · refine Gpu.Spares.trans ?_ (Gpu.spares_wake _ h.not_waiter) h
      exact g.spares_modWg wg fun w => rfl
    · exact .refl g

theorem Gpu.spares_leaveBar (g : Gpu) (t : TRef) (b : Nat) : g.Spares S (g.leaveBar t b) := by
  unfold Gpu.leaveBar
  split
  · exact .refl g
  · split
    · refine Gpu.Spares.trans ?_ (Gpu.spares_testBar _ _ _)
      exact g.spares_modWg t.wg fun w => rfl
    · exact .refl g

theorem Gpu.spares_modGang (g : Gpu) (launch gang : Nat) (f : Gang → Gang) : g.Spares S (g.modGang launch gang f) :=
  g.spares_modLaunch launch fun _ _ hk => hk

theorem Gpu.stores_acquire (g : Gpu) (core : Nat) (sc : Scope) : g.Stores (g.acquire core sc) := by
  unfold Gpu.acquire
  split
  · exact (g.stores_cleanL1 core).trans (Gpu.stores_modCore _ core _)
  · exact .refl g

theorem Gpu.spares_testGang (g : Gpu) (launch gang : Nat) : g.Spares S (g.testGang launch gang) := fun h => by
  unfold Gpu.testGang
  split
  · exact .refl g
  · simp only
    split
    · refine (Gpu.Spares.trans ?_ (Gpu.spares_modGang _ launch gang _)).trans (Gpu.spares_wake _ h.not_waiter) h
      exact .of_stores (.foldl (fun g c => g.stores_acquire c .dev) _ g)
    · exact .refl g

theorem Gpu.spares_leaveGangs (g : Gpu) (t : TRef) : g.Spares S (g.leaveGangs t) := by
  unfold Gpu.leaveGangs
  split
  · exact .refl g
  · split
    · exact .refl g
    · split
      · exact .refl g
      · refine .foldl (fun g x => Gpu.Spares.trans ?_ (Gpu.spares_testGang _ _ _)) _ g
        exact g.spares_modGang _ _ _

/-! ### Spawns (R54, R57) -/

/-- A spawn that is tried wakes nobody. -/
theorem Gpu.spares_trySpawn {g g' : Gpu} {s : PSpawn} (h : g.trySpawn s = some g') : g.Spares S g' := by
  unfold Gpu.trySpawn at h
  obtain ⟨w, -, h⟩ := Option.bind_eq_some_iff.mp h
  obtain ⟨l, hl, h⟩ := Option.bind_eq_some_iff.mp h
  obtain ⟨⟨l', i, part⟩, hdraw, rfl⟩ := Option.map_eq_some_iff.mp h
  obtain ⟨m, k, hstores, hk, haccept⟩ := Gpu.acceptSpawn_eq (g.choose (l.offer w.node.isNone s.node)).1 l' w s i part
  have hall := (g.stores_choose _).trans hstores
  refine (Gpu.Spares.of_stores hall).trans ?_
  show m.Spares S (Gpu.acceptSpawn _ _ _ _ _ _)
  rw [haccept]
  refine m.spares_modLaunch_of_parked _ fun _ _ x hx => ⟨l, ?_, ?_⟩
  · rw [hall.launches]
    exact List.mem_of_find?_eq_some hl
  · rw [← Launch.parked_draw hdraw, ← hk]
    exact hx

theorem Gpu.spares_spawnServed (g : Gpu) {s : PSpawn} (hs : ¬ S s.t) : g.Spares S (g.spawnServed s) := by
  unfold Gpu.spawnServed
  split
  · exact .of_eq rfl rfl rfl rfl
  · exact g.spares_wake (by simpa using hs)

theorem Gpu.spares_serveParked {g : Gpu} (launch : Nat) (hparked : ∀ l ∈ g.launches, ∀ k ∈ l.parked, ¬ S k.t) :
    g.Spares S (g.serveParked launch) := by
  unfold Gpu.serveParked
  split
  · exact .refl g
  · rename_i l hl
    have hfree := hparked l (List.mem_of_find?_eq_some hl)
    generalize l.parked = ks at hfree
    clear hl hparked
    induction ks generalizing g with
    | nil => exact .refl g
    | cons k ks ih =>
      rw [List.foldl_cons]
      refine Gpu.Spares.trans ?_ (ih fun x hx => hfree x (List.mem_cons_of_mem k hx))
      split
      · exact .refl g
      · rename_i g' htry
        refine Gpu.Spares.trans ?_ (g'.spares_spawnServed (hfree k (List.mem_cons_self ..)))
        refine Gpu.Spares.trans ?_ (Gpu.spares_trySpawn htry)
        exact g.spares_modLaunch launch fun l x hx => List.mem_of_mem_erase hx

/-! ### The end of a launch (R57, R414) -/

theorem Gpu.spares_doneBatches (g : Gpu) (launch : Nat) : g.Spares S (g.doneBatches launch) := by
  unfold Gpu.doneBatches
  split
  · exact .refl g
  · refine .foldl (fun g n => ?_) _ g
    split
    · split
      · exact g.spares_modLaunch launch fun l k hk => by simpa using hk
      · exact .refl g
    · exact .refl g

theorem Gpu.stores_cleanCores (g : Gpu) (cs : List (Nat × CoreSt)) : g.Stores (cs.foldl (fun g x => g.cleanL1 x.1) g) :=
  Gpu.Stores.foldl (f := fun g (x : Nat × CoreSt) => g.cleanL1 x.1) (fun g x => g.stores_cleanL1 x.1) cs g

theorem Gpu.spares_formFinish (g : Gpu) (launch : Nat) : g.Spares S (g.formFinish launch) := by
  unfold Gpu.formFinish
  split
  · exact .refl g
  · split
    · exact .refl g
    · split
      · exact .refl g
      · have hclean := g.stores_cleanCores g.cores
        simp only
        generalize g.cores.foldl (fun g x => g.cleanL1 x.1) g = h at hclean ⊢
        refine Gpu.Spares.trans (.of_stores hclean) fun _ => ?_
        refine ⟨rfl, rfl, rfl, fun x hx _ => ⟨x, hx, rfl, rfl⟩, fun l' hl' k hk => ?_⟩
        obtain ⟨l, hl, rfl⟩ := List.mem_map.mp hl'
        refine ⟨l, hl, ?_⟩
        split at hk <;> exact hk

theorem Gpu.spares_endLaunch (g : Gpu) (launch status : Nat) : g.Spares S (g.endLaunch launch status) := by
  unfold Gpu.endLaunch
  refine Gpu.Spares.trans ?_ (Gpu.spares_formFinish _ _)
  refine g.spares_modLaunch launch fun l k hk => ?_
  split at hk <;> exact hk

theorem Gpu.spares_testLaunch (g : Gpu) (launch : Nat) : g.Spares S (g.testLaunch launch) := by
  unfold Gpu.testLaunch
  split
  · exact .refl g
  · split
    · exact .refl g
    · exact g.spares_endLaunch _ _

theorem Gpu.spares_gangEnd (g : Gpu) (w : Wg) (status : Nat) : g.Spares S (g.gangEnd w status) := by
  unfold Gpu.gangEnd
  split
  · exact .refl g
  · exact g.spares_modLaunch _ fun _ _ hk => hk

theorem Gpu.spares_blurRecords (g : Gpu) (w : Wg) : g.Spares S (g.blurRecords w) := by
  unfold Gpu.blurRecords
  split
  · refine .foldl (fun g r => ?_) _ g
    exact Gpu.Spares.trans (b := (g.drawBytes 80).1) (.of_eq rfl rfl rfl rfl) (.of_stores (Gpu.stores_hubPut _ _ _ _))
  · exact .refl g

end Sys2Proof.Machine
end

section
/-! PROOFS. The end of workgroups (02 R28, R57, R62; 14 R363): the last exit, a fence, and the fence of a context. -/

namespace Sys2Proof.Machine

open Sys2Proof

/-! ### Lookups -/

theorem Gpu.mem_threads_of_thread? {g : Gpu} {t : TRef} {th : Thread} (h : g.thread? t = some th) : (t, th) ∈ g.threads := by
  obtain ⟨x, hx, rfl⟩ := Option.map_eq_some_iff.mp h
  rw [← beq_iff_eq.mp (List.find?_some (p := fun y : TRef × Thread => y.1 == t) hx)]
  exact List.mem_of_find?_eq_some hx

theorem Gpu.ctx?_slot {g : Gpu} {i : Nat} {c : Ctx} (h : g.ctx? i = some c) : c.slot = i :=
  beq_iff_eq.mp (List.find?_some (p := fun c : Ctx => c.slot == i) h)

/-- An element found by its number, where the elements of that number are changed. -/
theorem find?_map_if {α : Type} {key : α → Nat} {f : α → α} (hf : ∀ a, key (f a) = key a) (l : List α) (i : Nat) :
    (l.map fun a => if key a = i then f a else a).find? (fun a => key a == i) = (l.find? fun a => key a == i).map f := by
  have hkey : ((fun a => key a == i) ∘ fun a => if key a = i then f a else a) = fun a => key a == i := by
    funext a
    rw [Function.comp_apply]
    split
    · rw [hf]
    · rfl
  rw [List.find?_map, hkey]
  cases h : l.find? fun a => key a == i with
  | none => rfl
  | some a =>
    rw [Option.map_some, Option.map_some, if_pos (beq_iff_eq.mp (List.find?_some (p := fun a => key a == i) h))]

theorem Gpu.wg?_modWg {g : Gpu} {i : Nat} {w : Wg} {f : Wg → Wg} (h : g.wg? i = some w) (hf : ∀ v, (f v).id = v.id) :
    (g.modWg i f).wg? i = some (f w) :=
  (find?_map_if hf g.wgs i).trans (congrArg (Option.map f) h)

theorem Gpu.launch?_modLaunch {g : Gpu} {i : Nat} {l : Launch} {f : Launch → Launch} (h : g.launch? i = some l)
    (hf : ∀ k, (f k).id = k.id) : (g.modLaunch i f).launch? i = some (f l) :=
  (find?_map_if hf g.launches i).trans (congrArg (Option.map f) h)

theorem Gpu.ctx?_modCtx {g : Gpu} {i : Nat} {c : Ctx} {f : Ctx → Ctx} (h : g.ctx? i = some c) (hf : ∀ c, (f c).slot = c.slot) :
    (g.modCtx i f).ctx? i = some (f c) :=
  (find?_map_if hf g.ctxs i).trans (congrArg (Option.map f) h)

variable {S : TRef → Prop}

/-- A thread of `S`, all of whose entries have one status, has it still. -/
theorem Gpu.Kept.status {g g' : Gpu} (h : g.Kept S g') {t : TRef} {th : Thread} {q : TStatus} (hS : S t) (ht : g.thread? t = some th)
    (hq : ∀ x ∈ g.threads, x.1 = t → x.2.status = q) : ∃ th', g'.thread? t = some th' ∧ th'.status = q := by
  obtain ⟨th', hth', hmem⟩ := h.thread? ht
  obtain ⟨x, hx, hxt, hst⟩ := h.statuses _ hmem hS
  exact ⟨th', hth', hst.trans (hq x hx hxt)⟩

/-- A workgroup is found where it was. -/
theorem Gpu.Kept.wg?_some {g g' : Gpu} (h : g.Kept S g') {i : Nat} {w : Wg} (hw : g.wg? i = some w) :
    ∃ w', g'.wg? i = some w' ∧ w'.place = w.place ∧ w'.endSt = w.endSt := by
  have hseat := h.wg? i
  rw [hw, Option.map_some] at hseat
  obtain ⟨w', hw', hww⟩ := Option.map_eq_some_iff.mp hseat
  exact ⟨w', hw', congrArg (·.2.1) hww, congrArg (·.2.2) hww⟩

/-! ### The end of a workgroup -/

/-- Spawns served after a change that parks none anew. -/
theorem Gpu.Spares.then_serveParked {a b : Gpu} (hab : a.Spares S b) (launch : Nat)
    (hparked : ∀ l ∈ a.launches, ∀ k ∈ l.parked, ¬ S k.t) : a.Spares S (b.serveParked launch) := fun h => by
  refine hab.trans (Gpu.spares_serveParked launch fun l hl k hk => ?_) h
  obtain ⟨m, hm, hkm⟩ := (hab h).parked l hl k hk
  exact hparked m hm k hkm

/-- A workgroup marked as finished. -/
def Gpu.markGone (g : Gpu) (wg status : Nat) : Gpu := g.modWg wg fun w => { w with place := .gone, endSt := some (status, g.ptp) }

/-- What follows a workgroup's end wakes no thread of `S`, if none of them has a spawn parked. -/
theorem Gpu.spares_finishWg {g : Gpu} {wg : Nat} {w : Wg} (status : Nat) (hw : g.wg? wg = some w) (hplace : w.place ≠ .gone)
    (hparked : ∀ l ∈ g.launches, ∀ k ∈ l.parked, ¬ S k.t) : (g.markGone wg status).Spares S (g.finishWg wg status) := by
  unfold Gpu.finishWg
  simp only [hw, if_neg hplace]
  refine ((Gpu.Spares.then_serveParked (a := g.markGone wg status) ?_ w.launch hparked).trans (Gpu.spares_doneBatches _ _)).trans
    (Gpu.spares_testLaunch _ _)
  refine ((Gpu.spares_gangEnd _ w status).trans (Gpu.spares_blurRecords _ w)).trans (Gpu.spares_modLaunch _ w.launch fun l k hk => ?_)
  split at hk
  · exact hk
  · rw [Launch.parked_modPack, Launch.parked_giveBack] at hk
    exact hk

theorem Gpu.exists_spares_finishWg {g : Gpu} (wg status : Nat) (hparked : ∀ l ∈ g.launches, ∀ k ∈ l.parked, ¬ S k.t) :
    ∃ h : Gpu, h.threads = g.threads ∧ h.Spares S (g.finishWg wg status) := by
  cases hw : g.wg? wg with
  | none => exact ⟨g, rfl, by simp only [Gpu.finishWg, hw]; exact .refl g⟩
  | some w =>
    by_cases hplace : w.place = .gone
    · exact ⟨g, rfl, by simp only [Gpu.finishWg, hw, if_pos hplace]; exact .refl g⟩
    · exact ⟨g.markGone wg status, rfl, Gpu.spares_finishWg status hw hplace hparked⟩

/-- A workgroup that finishes is gone, with its status and the time. -/
theorem Gpu.wg?_finishWg {g : Gpu} {wg : Nat} {w : Wg} (status : Nat) (hw : g.wg? wg = some w) (hplace : w.place ≠ .gone) :
    ∃ w', (g.finishWg wg status).wg? wg = some w' ∧ w'.place = .gone ∧ w'.endSt = some (status, g.ptp) := by
  have hkept := Gpu.spares_finishWg (S := fun _ => False) status hw hplace (fun _ _ _ _ h => h) (fun _ _ h => h.elim)
  exact hkept.wg?_some (Gpu.wg?_modWg hw fun _ => rfl)

/-! ### The last exit (R28) -/

/-- A thread's exit deducted from what counts on it, before its workgroup may finish. -/
def Gpu.deductExit (g : Gpu) (t : TRef) : Gpu :=
  let g := (g.modThread t fun th => { th with status := .exited }).freeRays fun r => r.owner == t
  let g := (List.range 8).foldl (fun g k => g.testMask t.wg t.team k) g
  let g := (List.range 16).foldl (fun g b => g.leaveBar t b) g
  g.leaveGangs t

theorem Gpu.countExit_eq (g : Gpu) (t : TRef) :
    g.countExit t = if ((g.deductExit t).liveOf t.wg).isEmpty then (g.deductExit t).finishWg t.wg 0 else g.deductExit t := rfl

theorem Gpu.spares_deductExit (g : Gpu) (t : TRef) : (g.modThread t fun th => { th with status := .exited }).Spares S (g.deductExit t) := by
  unfold Gpu.deductExit
  refine Gpu.Spares.trans ?_ (Gpu.spares_leaveGangs _ t)
  refine Gpu.Spares.trans ?_ (.foldl (fun g b => g.spares_leaveBar t b) _ _)
  refine Gpu.Spares.trans ?_ (.foldl (fun g k => g.spares_testMask t.wg t.team k) _ _)
  exact Gpu.spares_freeRays _ _

/-- Every entry of a thread whose exit is counted is exited. -/
theorem Gpu.status_modThread_exited {g : Gpu} {t : TRef} :
    ∀ x ∈ (g.modThread t fun th => { th with status := .exited }).threads, x.1 = t → x.2.status = .exited := fun x hx hxt => by
  obtain ⟨y, -, rfl⟩ := List.mem_map.mp hx
  exact congrArg Thread.status (if_pos hxt)

theorem Gpu.unparked_of_exited {g : Gpu} (h : ∀ x ∈ g.threads, S x.1 → x.2.status = .exited) : g.Unparked S := fun x hx hS _ hw =>
  TStatus.noConfusion ((h x hx hS).symm.trans hw)

/-- A counted thread is exited. -/
theorem Gpu.thread?_countExit {g : Gpu} {t : TRef} {th : Thread} (ht : g.thread? t = some th)
    (hparked : ∀ l ∈ g.launches, ∀ k ∈ l.parked, k.t ≠ t) :
    ∃ th', (g.countExit t).thread? t = some th' ∧ th'.status = .exited := by
  have hunparked : (g.modThread t fun th => { th with status := .exited }).Unparked (· = t) :=
    Gpu.unparked_of_exited Gpu.status_modThread_exited
  have hdeduct := g.spares_deductExit t hunparked
  have hone : (g.modThread t fun th => { th with status := .exited }).thread? t = some { th with status := .exited } := by
    rw [Gpu.thread?_modThread_same, ht]
    rfl
  rw [Gpu.countExit_eq]
  split
  · obtain ⟨h, hthreads, hspares⟩ := Gpu.exists_spares_finishWg (S := (· = t)) (g := g.deductExit t) t.wg 0 fun l hl k hk => by
      obtain ⟨m, hm, hkm⟩ := hdeduct.parked l hl k hk
      exact hparked m hm k hkm
    have hstatus : ∀ x ∈ h.threads, x.1 = t → x.2.status = .exited := fun x hx hxt => by
      rw [hthreads] at hx
      obtain ⟨y, hy, hyx, hst⟩ := hdeduct.statuses x hx hxt
      exact hst.trans (Gpu.status_modThread_exited y hy (hyx.trans hxt))
    obtain ⟨th', hth', -⟩ := hdeduct.thread? hone
    have hth : h.thread? t = some th' := by
      rw [← hth', Gpu.thread?, Gpu.thread?, hthreads]
    exact (hspares (Gpu.unparked_of_exited hstatus)).status rfl hth hstatus
  · exact hdeduct.status rfl hone Gpu.status_modThread_exited

/-- A workgroup whose threads are all exited has none alive. -/
theorem Gpu.liveOf_eq_nil {g : Gpu} {wg : Nat} (h : ∀ x ∈ g.threads, x.1.wg = wg → x.2.status = .exited) : g.liveOf wg = [] := by
  rw [Gpu.liveOf, List.map_eq_nil_iff, List.filter_eq_nil_iff]
  intro x hx hlive
  simp only [Bool.and_eq_true, beq_iff_eq, bne_iff_ne] at hlive
  exact hlive.1.2 (h x hx hlive.1.1)

/-- The last thread that exits finishes its workgroup. -/
theorem Gpu.wg?_countExit {g : Gpu} {t : TRef} {w : Wg} (hw : g.wg? t.wg = some w) (hplace : w.place ≠ .gone)
    (hlast : ∀ x ∈ g.threads, x.1.wg = t.wg → x.1 ≠ t → x.2.status = .exited) :
    ∃ w', (g.countExit t).wg? t.wg = some w' ∧ w'.place = .gone ∧ w'.endSt = some (0, g.ptp) := by
  have hexited : ∀ x ∈ (g.modThread t fun th => { th with status := .exited }).threads, x.1.wg = t.wg → x.2.status = .exited :=
    fun x hx hwg => by
      by_cases hxt : x.1 = t
      · exact Gpu.status_modThread_exited x hx hxt
      · obtain ⟨y, hy, rfl⟩ := List.mem_map.mp hx
        exact (congrArg Thread.status (if_neg hxt)).trans (hlast y hy hwg hxt)
  have hdeduct := g.spares_deductExit (S := fun v => v.wg = t.wg) t (Gpu.unparked_of_exited hexited)
  have hlive : (g.deductExit t).liveOf t.wg = [] := Gpu.liveOf_eq_nil fun x hx hwg => by
    obtain ⟨y, hy, hyx, hst⟩ := hdeduct.statuses x hx hwg
    exact hst.trans (hexited y hy (by rw [hyx]; exact hwg))
  obtain ⟨w', hw', hplace', -⟩ := hdeduct.wg?_some (i := t.wg) hw
  rw [Gpu.countExit_eq, hlive, List.isEmpty_nil, if_pos rfl, ← show (g.deductExit t).ptp = g.ptp from hdeduct.ptp]
  exact Gpu.wg?_finishWg 0 hw' (by rw [hplace']; exact hplace)

/-! ### Fences (R62, R363) -/

theorem Gpu.spares_cutFifo (g : Gpu) (f : Nat → Bool) (core : Nat) : g.Spares S (g.cutFifo f core) := by
  unfold Gpu.cutFifo
  simp only
  split
  · exact .refl g
  · refine Gpu.Spares.trans ?_ (.of_stores (Gpu.stores_leaveFifo _ core _))
    exact .of_eq rfl rfl rfl rfl

/-- The work of some workgroups off the device, before what it held back in others goes on. -/
def Gpu.withoutWork (g : Gpu) (f : Nat → Bool) : Gpu :=
  let g := (g.cores.map (·.1)).foldl (Gpu.cutFifo · f) g
  let dead := g.ops.filter fun o => f o.owner.wg
  let gone := dead.map Op.id
  let strip := fun (b : Bundle) => { b with members := b.members.filter fun m => !f m.wg }
  let live := fun (b : Bundle) => !b.members.isEmpty
  let seqs := fun (q : Option Seq) => q.filter fun x => !f x.wg
  let g := { g with
    ops := g.ops.filter (fun o => !f o.owner.wg),
    fabric := { g.fabric with conns := g.fabric.conns.map (Conn.orphan dead) },
    gov := { g.gov with reqs := g.gov.reqs.filter fun r => !f r.wg } }
  let g := g.mapCores fun _ c => { c with
    active := (c.active.map strip).filter live, pending := (c.pending.map strip).filter live,
    arrq := c.arrq.filter (fun i => !gone.contains i), seqA := seqs c.seqA, seqC := seqs c.seqC }
  let unpark := fun (l : Launch) => { l with parked := l.parked.filter fun s => !f s.t.wg }
  let unlane := fun (r : FaultRec) => { r with lanes := r.lanes.filter (fun t => !f t.wg), ops := r.ops.filter fun i => !gone.contains i }
  let unfault := fun (p : Part) => { p with faults := p.faults.map unlane }
  { g with launches := g.launches.map unpark, parts := g.parts.map unfault }

theorem Gpu.spares_withoutWork (g : Gpu) (f : Nat → Bool) : g.Spares S (g.withoutWork f) := by
  have hcut : g.Spares S ((g.cores.map (·.1)).foldl (Gpu.cutFifo · f) g) := .foldl (fun g n => g.spares_cutFifo f n) _ g
  unfold Gpu.withoutWork
  generalize (g.cores.map (·.1)).foldl (Gpu.cutFifo · f) g = h at hcut ⊢
  refine hcut.trans fun _ => ⟨rfl, rfl, rfl, fun x hx _ => ⟨x, hx, rfl, rfl⟩, fun l hl k hk => ?_⟩
  obtain ⟨m, hm, rfl⟩ := List.mem_map.mp hl
  exact ⟨m, hm, List.mem_of_mem_filter hk⟩

/-- No spawn of theirs is parked any more. -/
theorem Gpu.parked_withoutWork (g : Gpu) (f : Nat → Bool) : ∀ l ∈ (g.withoutWork f).launches, ∀ k ∈ l.parked, f k.t.wg = false :=
  fun l hl k hk => by
    obtain ⟨m, -, rfl⟩ := List.mem_map.mp hl
    simpa using (List.mem_filter.mp hk).2

theorem Gpu.spares_withoutWork_discardWork (g : Gpu) (f : Nat → Bool) : (g.withoutWork f).Spares S (g.discardWork f) := by
  unfold Gpu.discardWork
  simp only
  refine Gpu.Spares.trans ?_ (.foldl (fun g n => g.spares_wakeArrays n _) _ _)
  exact Gpu.spares_freeRays _ _

theorem Gpu.spares_discardWork (g : Gpu) (f : Nat → Bool) : g.Spares S (g.discardWork f) :=
  (g.spares_withoutWork f).trans (g.spares_withoutWork_discardWork f)

/-- Every entry of a stopped workgroup's threads is exited or stopped. -/
theorem Gpu.status_stopThreads {g : Gpu} {f : Nat → Bool} {x : TRef × Thread} (hx : x ∈ (g.stopThreads f).threads)
    (hf : f x.1.wg = true) : x.2.status = .exited ∨ x.2.status = .stopped := by
  obtain ⟨y, -, rfl⟩ := List.mem_map.mp hx
  by_cases hy : y.2.status = .exited
  · exact .inl (by simp [hy])
  · have hf : f y.1.wg = true := hf
    exact .inr (by simp [hf, hy])

/-- A workgroup's threads stopped, its work discarded and its end noted, before it finishes. -/
def Gpu.stopWg (g : Gpu) (wg status : Nat) (w : Wg) : Gpu :=
  let ts := g.liveOf wg
  let g := (g.stopThreads (· == wg)).discardWork (· == wg)
  let g := ts.foldl (fun g t => g.leaveGangs t) g
  g.modLaunch w.launch fun l => { l with fences := l.fences ++ [(status, g.ptp, w.rank)] }

theorem Gpu.fenceWg_eq {g : Gpu} {wg : Nat} {w : Wg} (status : Nat) (hw : g.wg? wg = some w) (hplace : w.place ≠ .gone) :
    g.fenceWg wg status = (g.stopWg wg status w).finishWg wg status := by
  simp only [Gpu.fenceWg, hw, if_neg hplace]
  rfl

theorem Gpu.kept_stopWg (g : Gpu) (wg status : Nat) (w : Wg) :
    (g.stopThreads (· == wg)).Kept (fun v => v.wg = wg) (g.stopWg wg status w) ∧
    ∀ l ∈ (g.stopWg wg status w).launches, ∀ k ∈ l.parked, ¬ k.t.wg = wg := by
  have hstopped : (g.stopThreads (· == wg)).Unparked (fun v => v.wg = wg) := fun x hx hwg w hst => by
    rcases Gpu.status_stopThreads hx (beq_iff_eq.mpr hwg) with h | h <;> cases h.symm.trans hst
  have hwork := Gpu.spares_withoutWork (g.stopThreads (· == wg)) (· == wg) hstopped
  have hrest : ((g.stopThreads (· == wg)).withoutWork (· == wg)).Spares (fun v => v.wg = wg) (g.stopWg wg status w) := by
    unfold Gpu.stopWg
    refine Gpu.Spares.trans ?_ (Gpu.spares_modLaunch _ _ fun _ _ hk => hk)
    exact (Gpu.spares_withoutWork_discardWork _ _).trans (.foldl (fun g t => g.spares_leaveGangs t) _ _)
  have hkept := hrest (hwork.unparked hstopped)
  refine ⟨hwork.trans hkept, fun l hl k hk hwg => ?_⟩
  obtain ⟨m, hm, hkm⟩ := hkept.parked l hl k hk
  exact Bool.false_ne_true ((Gpu.parked_withoutWork _ _ m hm k hkm).symm.trans (beq_iff_eq.mpr hwg))

/-- A fenced workgroup is gone, with the fence's status and the time, and its threads have exited or stopped. -/
theorem Gpu.fenceWg_ends {g : Gpu} {wg : Nat} {w : Wg} (status : Nat) (hw : g.wg? wg = some w) (hplace : w.place ≠ .gone) :
    (∃ w', (g.fenceWg wg status).wg? wg = some w' ∧ w'.place = .gone ∧ w'.endSt = some (status, g.ptp)) ∧
    ∀ x ∈ (g.fenceWg wg status).threads, x.1.wg = wg → x.2.status = .exited ∨ x.2.status = .stopped := by
  obtain ⟨hkept, hparked⟩ := g.kept_stopWg wg status w
  obtain ⟨v, hv, hvplace, -⟩ := hkept.wg?_some (i := wg) hw
  have hvplace : v.place ≠ .gone := by rw [hvplace]; exact hplace
  have hends : ∀ x ∈ (g.stopWg wg status w).threads, x.1.wg = wg → x.2.status = .exited ∨ x.2.status = .stopped :=
    fun x hx hwg => by
    obtain ⟨y, hy, hyx, hst⟩ := hkept.statuses x hx hwg
    rw [hst]
    exact Gpu.status_stopThreads hy (by rw [hyx]; exact beq_iff_eq.mpr hwg)
  rw [Gpu.fenceWg_eq status hw hplace, ← show (g.stopWg wg status w).ptp = g.ptp from hkept.ptp]
  refine ⟨Gpu.wg?_finishWg status hv hvplace, fun x hx hwg => ?_⟩
  have hunparked : ((g.stopWg wg status w).markGone wg status).Unparked (fun v => v.wg = wg) := fun x hx hwg w hst => by
    rcases hends x hx hwg with h | h <;> cases h.symm.trans hst
  obtain ⟨y, hy, hyx, hst⟩ := (Gpu.spares_finishWg status hv hvplace hparked hunparked).statuses x hx hwg
  rw [hst]
  exact hends y hy (by rw [hyx]; exact hwg)

theorem Gpu.Spares.ctxs {g g' : Gpu} (h : g.Spares (fun _ => False) g') : g'.ctxs = g.ctxs := (h fun _ _ h => h.elim).ctxs

/-- A fenced context has the fence's status. -/
theorem Gpu.ctx?_fenceCtx {g : Gpu} {slot : Nat} {c : Ctx} (status : Nat) (hc : g.ctx? slot = some c)
    (hlive : ∀ k, c.status ≠ .fenced k) : ∃ c', (g.fenceCtx slot status).ctx? slot = some c' ∧ c'.status = .fenced status := by
  unfold Gpu.fenceCtx
  rw [hc]
  split
  · contradiction
  · rename_i c' hc'
    cases hc'
    split
    · rename_i k hk
      exact absurd hk (hlive k)
    · extract_lets mine ws discarded ended marked noted clear ls cleared finished unfaulted
      have hdiscarded : discarded.ctxs = g.ctxs := (Gpu.spares_discardWork (g.stopThreads mine) mine).ctxs
      have hnoted : noted.ctxs = marked.ctxs := (Gpu.Spares.foldl (fun g w => g.spares_gangEnd w status) ws marked).ctxs
      have hfinished : finished.ctxs = cleared.ctxs := (Gpu.Spares.foldl (fun g i => g.spares_endLaunch i status) ls cleared).ctxs
      have hctxs : unfaulted.ctxs = g.ctxs := hfinished.trans (hnoted.trans hdiscarded)
      refine ⟨_, Gpu.ctx?_modCtx (c := c) ?_ fun _ => rfl, rfl⟩
      rw [Gpu.ctx?, hctxs]
      exact hc

end Sys2Proof.Machine
end

section
/-! PROOFS. Exits, batches, gang reports, budgets and grants (02 R28, R51, R56, R62; 08 R260, R261). -/

namespace Sys2Proof.Machine

open Sys2Proof

/-! ### Batches (R56) -/

@[simp] theorem Launch.id_launchBatch (l : Launch) (n : Nat) : (l.launchBatch n).id = l.id := by
  unfold Launch.launchBatch
  simp only
  split <;> rfl

theorem Launch.recs_modPack_nil (l : Launch) {f : Pack → Pack} (hf : ∀ p, (f p).recs = []) (n : Nat) :
    (((l.modPack n f)).pack n).recs = [] := by
  rw [Launch.modPack, Launch.pack, List.getElem?_modify]
  cases l.packs[n]? with
  | none => rfl
  | some p => simpa using hf p

theorem Launch.pack_modPack_of_ne (l : Launch) (f : Pack → Pack) {m n : Nat} (h : m ≠ n) : (l.modPack m f).pack n = l.pack n := by
  simp [Launch.modPack, Launch.pack, h]

/-- A batch launched: it joins the queue, and the partial batch is empty. -/
theorem Launch.launchBatch_of_ne_nil {l : Launch} {n : Nat} (h : (l.pack n).recs ≠ []) :
    (l.launchBatch n).queue = l.queue ++ [(n, (l.pack n).nextNo, (l.pack n).recs)] ∧ ((l.launchBatch n).pack n).recs = [] := by
  unfold Launch.launchBatch
  simp only
  rw [if_neg (by simpa using h)]
  exact ⟨rfl, Launch.recs_modPack_nil _ (fun _ => rfl) n⟩

/-- Batches that are launched join the queue behind those that it holds, and an empty partial batch stays empty. -/
theorem Launch.launchBatch_extends (l : Launch) (m : Nat) {n : Nat} (h : (l.pack n).recs = []) :
    l.queue <+: (l.launchBatch m).queue ∧ ((l.launchBatch m).pack n).recs = [] := by
  by_cases hm : (l.pack m).recs = []
  · have hsame : l.launchBatch m = l := by
      unfold Launch.launchBatch
      exact if_pos (by simpa using hm)
    rw [hsame]
    exact ⟨List.prefix_refl _, h⟩
  · obtain ⟨hqueue, hnil⟩ := Launch.launchBatch_of_ne_nil hm
    refine ⟨hqueue ▸ List.prefix_append _ _, ?_⟩
    by_cases hmn : m = n
    · exact hmn ▸ hnil
    · unfold Launch.launchBatch
      simp only
      rw [if_neg (by simpa using hm), Launch.pack_modPack_of_ne _ _ hmn]
      exact h

/-- DONE leaves what a launch has queued in front, and its empty partial batches empty. -/
theorem Gpu.launch?_doneBatches {g : Gpu} {i n : Nat} {l : Launch} (hl : g.launch? i = some l) (hn : (l.pack n).recs = []) :
    ∃ l', (g.doneBatches i).launch? i = some l' ∧ l.queue <+: l'.queue ∧ (l'.pack n).recs = [] := by
  unfold Gpu.doneBatches
  rw [hl]
  simp only
  generalize List.range l.nodes.length = ns
  induction ns generalizing g l with
  | nil => exact ⟨l, hl, List.prefix_refl _, hn⟩
  | cons m ns ih =>
    rw [List.foldl_cons, hl]
    simp only
    split
    · obtain ⟨hq, hnil⟩ := l.launchBatch_extends m hn
      obtain ⟨l', hl', hq', hn'⟩ := ih (Gpu.launch?_modLaunch hl fun k => k.id_launchBatch m) hnil
      exact ⟨l', hl', hq.trans hq', hn'⟩
    · exact ih hl hn

/-! ### Gang reports (R51) -/

/-- A finish that is formed leaves the gangs of every launch. -/
theorem Gpu.launches_formFinish (g : Gpu) (i : Nat) :
    ∃ f : Launch → Launch, (∀ l, (f l).id = l.id ∧ (f l).gangs = l.gangs) ∧ (g.formFinish i).launches = g.launches.map f := by
  have hsame : ∀ h : Gpu, h.launches = g.launches →
      ∃ f : Launch → Launch, (∀ l, (f l).id = l.id ∧ (f l).gangs = l.gangs) ∧ h.launches = g.launches.map f := fun h hl =>
    ⟨id, fun _ => ⟨rfl, rfl⟩, by rw [hl, List.map_id]⟩
  unfold Gpu.formFinish
  split
  · exact hsame g rfl
  · split
    · exact hsame g rfl
    · split
      · exact hsame g rfl
      · refine ⟨_, fun l => ?_, congrArg (List.map _) (g.stores_cleanCores g.cores).launches⟩
        split <;> exact ⟨rfl, rfl⟩

/-- A gang's report record written, after what is dirty has reached its home. -/
def Gpu.putReport (g : Gpu) (l : Launch) (x : Gang) : Gpu :=
  let g := g.cores.foldl (fun g k => g.cleanL1 k.1) g
  match g.ctx? l.ctx with
  | some c => g.hubPut c (l.desc.greport.toNat + 16 * x.idx) (l.reportBytes x)
  | none => g

theorem Gpu.stores_putReport (g : Gpu) (l : Launch) (x : Gang) : g.Stores (g.putReport l x) := by
  unfold Gpu.putReport
  refine (g.stores_cleanCores g.cores).trans ?_
  simp only
  split
  · exact Gpu.stores_hubPut _ _ _ _
  · exact .refl _

theorem Gpu.launch?_formFinish {g : Gpu} {i j : Nat} {l : Launch} (hl : g.launch? j = some l) :
    ∃ l', (g.formFinish i).launch? j = some l' ∧ l'.gangs = l.gangs := by
  obtain ⟨f, hf, hlaunches⟩ := g.launches_formFinish i
  refine ⟨f l, ?_, (hf l).2⟩
  have hid : ((fun k : Launch => k.id == j) ∘ f) = fun k => k.id == j := funext fun k => by rw [Function.comp_apply, (hf k).1]
  rw [Gpu.launch?, hlaunches, List.find?_map, hid]
  exact congrArg (Option.map f) hl

/-! ### Grants (R260) -/

@[simp] theorem Thread.regs_settle (th : Thread) : th.settle.regs = th.regs := by
  unfold Thread.settle
  simp only
  repeat' split
  all_goals rfl

@[simp] theorem Thread.pend_settle (th : Thread) : th.settle.pend = th.pend := by
  unfold Thread.settle
  simp only
  repeat' split
  all_goals rfl

theorem Thread.lateFlags_data (th : Thread) (e : Env) (f drop : BitVec 5) (pc word : DWord) :
    (th.lateFlags e f drop pc word).regs = th.regs ∧ (th.lateFlags e f drop pc word).pend = th.pend := by
  unfold Thread.lateFlags
  simp only
  split <;> exact ⟨rfl, rfl⟩

theorem Thread.pend_putRegs (th : Thread) (rs : List Reg) (vs : List Word) : (th.putRegs rs vs).pend = th.pend := by
  induction rs generalizing th vs with
  | nil => rfl
  | cons r rs ih =>
    cases vs with
    | nil => rfl
    | cons v vs => exact ih (th.setReg r v) vs

theorem Thread.regs_putRegs_congr {a b : Thread} (h : a.regs = b.regs) (rs : List Reg) (vs : List Word) :
    (a.putRegs rs vs).regs = (b.putRegs rs vs).regs := by
  induction rs generalizing a b vs with
  | nil => exact h
  | cons r rs ih =>
    cases vs with
    | nil => exact h
    | cons v vs => exact ih (congrArg (Store.set 0 · r.toNat v) h) vs

/-- A result that lands is in its registers, and pending no more. -/
theorem Thread.land_data (th : Thread) (e : Env) (q : Pending) (vs : List Word) :
    (th.land e q vs).regs = (th.putRegs q.regs vs).regs ∧ (th.land e q vs).pend = th.pend.filter fun x => x.id != q.id := by
  obtain ⟨hregs, hpend⟩ := Thread.lateFlags_data (({ th with pend := th.pend.filter fun x => x.id != q.id } : Thread).putRegs q.regs vs)
    e q.flags q.drop q.pc q.word
  unfold Thread.land
  simp only
  rw [Thread.regs_settle, Thread.pend_settle]
  have hput := Thread.regs_putRegs_congr (a := { th with pend := th.pend.filter fun x => x.id != q.id }) (b := th) rfl q.regs vs
  split <;> exact ⟨hregs.trans hput, hpend.trans (Thread.pend_putRegs _ _ _)⟩

/-- A request's grant given to its team, before the token or the stall that asked goes on. -/
def Gpu.granted (g : Gpu) (r : LeaveReq) : Gpu :=
  let gr : Grant := { cls := r.cls, till := g.now + r.dur * usCycles, id := g.nextId }
  let g := (g.fresh).modWg r.wg fun w => w.modTeam r.team fun t => { t with grant := some gr }
  { g with gov := { g.gov with reqs := g.gov.reqs.filter fun x => x.id != r.id } }

theorem Gpu.releaseAsBundle_frame (g : Gpu) (core : Nat) (ts : List TRef) :
    (g.releaseAsBundle core ts).wgs = g.wgs ∧ (g.releaseAsBundle core ts).gov = g.gov := by
  have hfold : ∀ (ks : List (Mode × DWord)) (f : Mode × DWord → List TRef) (launch : Nat) (h : Gpu),
      (ks.foldl (fun g k => g.addBundle core (f k) launch k.1 k.2) h).wgs = h.wgs ∧
      (ks.foldl (fun g k => g.addBundle core (f k) launch k.1 k.2) h).gov = h.gov := fun ks f launch h => by
    induction ks generalizing h with
    | nil => exact ⟨rfl, rfl⟩
    | cons k ks ih =>
      obtain ⟨hwgs, hgov⟩ := ih (h.addBundle core (f k) launch k.1 k.2)
      exact ⟨hwgs.trans (by simp [Gpu.addBundle]), hgov.trans (by simp [Gpu.addBundle])⟩
  exact hfold _ _ _ _

theorem Gpu.grantReq_frame (g : Gpu) (r : LeaveReq) :
    (g.grantReq r).wgs = (g.granted r).wgs ∧ (g.grantReq r).gov = (g.granted r).gov := by
  have hland : ∀ (ts : List TRef) (h : Gpu) (id : Nat) (vs : List Word),
      (ts.foldl (fun g t => g.landToken t id vs) h).wgs = h.wgs ∧ (ts.foldl (fun g t => g.landToken t id vs) h).gov = h.gov :=
    fun ts h id vs => by
      induction ts generalizing h with
      | nil => exact ⟨rfl, rfl⟩
      | cons t ts ih => exact ih (h.landToken t id vs)
  unfold Gpu.grantReq
  split
  · simp only
    split
    · exact hland _ (g.granted r) _ _
    · exact ⟨rfl, rfl⟩
  · exact (g.granted r).releaseAsBundle_frame _ _

/-- The token of a granted request's one owner lands with the grant word. -/
theorem Gpu.thread?_grantReq {g : Gpu} {r : LeaveReq} {id : Nat} {o : Op} {u : TRef} {th : Thread} {q : Pending} (hop : r.op = some id)
    (ho : g.op? id = some o) (hown : o.owners = [u]) (hth : g.thread? u = some th) (hq : th.pend.find? (fun x => x.id == id) = some q) :
    (g.grantReq r).thread? u = some (th.land ((g.granted r).env u) q [grantWord true r.cls 0 r.dur]) := by
  have hgo : (g.granted r).op? id = some o := ho
  have hgth : (g.granted r).thread? u = some th := hth
  have heq : g.grantReq r = ((g.granted r).landToken u id [grantWord true r.cls 0 r.dur]).dropOp id := by
    unfold Gpu.grantReq
    simp only [hop]
    show (match (g.granted r).op? id with | some o => _ | none => _) = _
    rw [hgo]
    simp only [hown]
    rfl
  rw [heq]
  show ((g.granted r).landToken u id _).thread? u = _
  unfold Gpu.landToken
  simp only [Gpu.thread?_modThread_same, hgth, Option.map_some, hq]

/-! ### The events -/

theorem State.gpu_onGpu (s : State) (f : Gpu → Gpu) : (s.onGpu f).gpu = f s.dev := rfl

/-- An event is what its row does to the device that a step reads. -/
theorem State.device_congr {s : State} {f f' : Gpu → Gpu} (h : f s.dev = f' s.dev) : s.device f = .next (s.onGpu f') := by
  show Host.Outcome.next ({ s with gpu := f s.dev } : State) = Host.Outcome.next { s with gpu := f' s.dev }
  rw [h]

/-- EXIT_COUNT of a thread that may exit. -/
theorem exec_exitCount {s : State} {u : TRef} {th : Thread} (ht : s.gpu.thread? u = some th) (hmay : s.dev.mayExit u th = true) :
    exec (.exitCount u) s = .next (s.onGpu fun g =>
      if th.mode = .trap then
        if (th.due ++ th.deferred).any fun d => d.kind != TrapKind.fpe.code then g.fenceCtx (g.env u).ctx stTRAPFAULT else g.countExit u
      else if (th.due ++ th.deferred).isEmpty then g.countExit u
      else (g.setThread u (th.deliver (g.env u).tvec u.lane)).runAlone (g.coreOf u) (g.launchOf u) u
        (th.deliver (g.env u).tvec u.lane).pc) := by
  have hdev : s.dev.thread? u = some th := ht
  refine State.device_congr ?_
  generalize s.dev = g at hdev hmay ⊢
  simp only [hdev, hmay, Bool.not_true, Bool.false_eq_true, if_false]

section
variable {s : State} {u : TRef} {th : Thread} {w : Wg} {l : Launch}

theorem exitCount_exits (ht : s.gpu.thread? u = some th) (hmay : s.dev.mayExit u th = true) (hdue : th.due = []) (hdef : th.deferred = []) :
    exec (.exitCount u) s = .next (s.onGpu fun g => g.countExit u) := by
  rw [exec_exitCount ht hmay, hdue, hdef]
  simp

theorem exitCount_delivers (ht : s.gpu.thread? u = some th) (hmay : s.dev.mayExit u th = true) (howed : th.due ++ th.deferred ≠ [])
    (huser : th.mode = .user) (hstarted : s.gpu.started u.wg = true) :
    ∃ t, exec (.exitCount u) s = .next t ∧ t.gpu.thread? u = some (th.deliver (s.gpu.env u).tvec u.lane) := by
  refine ⟨_, exec_exitCount ht hmay, ?_⟩
  have hset : (s.dev.setThread u (th.deliver (s.dev.env u).tvec u.lane)).thread? u = some (th.deliver (s.dev.env u).tvec u.lane) := by
    rw [Gpu.setThread, Gpu.thread?_modThread_same, show s.dev.thread? u = some th from ht]
    rfl
  have hgoes : (s.dev.setThread u (th.deliver (s.dev.env u).tvec u.lane)).started u.wg = true := hstarted
  rw [State.gpu_onGpu, huser, if_neg (by decide), if_neg (by simpa using howed), Gpu.runAlone, if_pos hgoes]
  refine Eq.trans ?_ hset
  simp only [Gpu.thread?, Gpu.modCore_threads, Gpu.fresh_threads]

theorem exitCount_fences {c : Ctx} (ht : s.gpu.thread? u = some th) (hmay : s.dev.mayExit u th = true) (htrap : th.mode = .trap)
    (howed : ∃ d ∈ th.due ++ th.deferred, d.kind ≠ TrapKind.fpe.code) (hw : s.gpu.wg? u.wg = some w) (hc : s.gpu.ctx? w.ctx = some c)
    (hlive : ∀ k, c.status ≠ .fenced k) :
    ∃ t c', exec (.exitCount u) s = .next t ∧ t.gpu.ctx? w.ctx = some c' ∧ c'.status = .fenced 6 := by
  have henv : (s.dev.env u).ctx = w.ctx := by
    have hdev : s.dev.wg? u.wg = some w := hw
    have hctx : s.dev.ctx? w.ctx = some c := hc
    rw [Gpu.env, hdev]
    simp only [hctx]
    exact Gpu.ctx?_slot hc
  have hany : ((th.due ++ th.deferred).any fun d => d.kind != TrapKind.fpe.code) = true := by
    obtain ⟨d, hd, hk⟩ := howed
    exact List.any_eq_true.mpr ⟨d, hd, bne_iff_ne.mpr hk⟩
  obtain ⟨c', hc', hst⟩ := Gpu.ctx?_fenceCtx (g := s.dev) 6 hc hlive
  refine ⟨_, c', exec_exitCount ht hmay, ?_, hst⟩
  rw [State.gpu_onGpu, if_pos htrap, if_pos hany, henv]
  exact hc'

theorem batchTimeout_launches {n : Nat} {nd : Node} (hl : s.gpu.launch? l.id = some l) (hsaved : s.gpu.launchSaved l = false)
    (hnd : l.nodes[n]? = some nd) (htimeout : nd.timeout ≠ 0) (hrecs : (l.pack n).recs ≠ [])
    (hdue : (l.pack n).since + 256 * nd.timeout ≤ s.clk.cyc) :
    ∃ t l', exec (.batchTimeout l.id n) s = .next t ∧ t.gpu.launch? l.id = some l' ∧ (l'.pack n).recs = [] ∧
      (l.queue ++ [(n, (l.pack n).nextNo, (l.pack n).recs)]) <+: l'.queue := by
  have hdue' : s.dev.batchDue l n = true := by
    have hnow : (l.pack n).since + 256 * nd.timeout ≤ s.dev.now := hdue
    have hsaved : s.dev.launchSaved l = false := hsaved
    simp [Gpu.batchDue, hnd, hsaved, hrecs, htimeout, hnow]
  have hdev : s.dev.launch? l.id = some l := hl
  obtain ⟨hqueue, hnil⟩ := Launch.launchBatch_of_ne_nil hrecs
  have hbatch := Gpu.launch?_modLaunch (f := fun l => l.launchBatch n) hdev fun k => k.id_launchBatch n
  obtain ⟨l', hl', hprefix, hempty⟩ := Gpu.launch?_doneBatches hbatch hnil
  refine ⟨_, l', State.device_congr (f' := fun g => (g.modLaunch l.id fun l => l.launchBatch n).doneBatches l.id) ?_, hl', hempty,
    hqueue ▸ hprefix⟩
  clear hbatch hl'
  generalize s.dev = g at hdev hdue' ⊢
  simp only [hdev, hdue', if_true]

theorem gangReportWrite_writes {x : Gang} (hl : s.gpu.launch? l.id = some l) (hx : l.nextReport = some x)
    (hwait : s.gpu.dirtyWait = false) :
    ∃ t l', exec (.gangReportWrite l.id) s = .next t ∧ t.gpu.launch? l.id = some l' ∧
      ∀ y ∈ l'.gangs, y.idx = x.idx → y.written = true := by
  have hdev : s.dev.launch? l.id = some l := hl
  have hclean : s.dev.dirtyWait = false := hwait
  have hput : (s.dev.putReport l x).launch? l.id = some l := by
    rw [Gpu.launch?, (s.dev.stores_putReport l x).launches]
    exact hdev
  have hmark := Gpu.launch?_modLaunch hput
    (f := fun l => { l with gangs := l.gangs.map fun y => if y.idx = x.idx then { y with written := true } else y }) fun _ => rfl
  obtain ⟨l', hl', hgangs⟩ := Gpu.launch?_formFinish (i := l.id) hmark
  refine ⟨_, l', State.device_congr
    (f' := fun g => ((g.putReport l x).modGang l.id x.idx fun x => { x with written := true }).formFinish l.id) ?_, ?_,
    fun y hy hidx => ?_⟩
  · clear hput hmark hl'
    generalize s.dev = g at hdev hclean ⊢
    simp only [hdev, hx, hclean, Bool.false_eq_true, if_false]
    rfl
  · rw [State.gpu_onGpu]
    exact hl'
  · rw [hgangs] at hy
    obtain ⟨z, -, rfl⟩ := List.mem_map.mp hy
    split at hidx
    · rename_i h
      rw [if_pos h]
    · contradiction

theorem budgetOverrun_fences {since : Nat} (hw : s.gpu.wg? w.id = some w) (hcore : w.core?.isSome = true)
    (hsince : w.time.since = some since) (hbudget : w.time.budget ≤ w.time.used + (s.clk.cyc - since)) :
    exec (.budgetOverrun w.id) s = .next (s.onGpu fun g => g.fenceWg w.id stOVERRUN) := by
  have hdev : s.dev.wg? w.id = some w := hw
  have hspent : w.time.budget ≤ w.time.spent s.dev.now := by
    rw [WgTime.spent, hsince]
    exact hbudget
  refine State.device_congr ?_
  generalize s.dev = g at hdev hspent ⊢
  simp only [hdev, hcore, hspent, decide_true, Bool.and_self, if_true]

theorem leaveGrant_grants {r : LeaveReq} (hr : s.gpu.gov.reqs.find? (fun x => x.id == r.id) = some r) (hw : s.gpu.wg? r.wg = some w)
    (hcore : w.core?.isSome = true) (hl : s.gpu.launch? w.launch = some l) (hdeadline : l.desc.deadline.isSome = true) :
    exec (.leaveGrant r.id) s = .next (s.onGpu fun g => g.grantReq r) := by
  have hreq : s.dev.gov.reqs.find? (fun x => x.id == r.id) = some r := hr
  have hgrantable : s.dev.grantable r = true := by
    have hwg : s.dev.wg? r.wg = some w := hw
    have hlaunch : s.dev.launch? w.launch = some l := hl
    simp [Gpu.grantable, Gpu.reqInfo, hwg, hlaunch, hcore, hdeadline]
  refine State.device_congr ?_
  generalize s.dev = g at hreq hgrantable ⊢
  simp only [hreq, hgrantable, if_true]

theorem grantExpiry_ends {team : Nat} {tm : Team} {k : Grant} (hw : s.gpu.wg? w.id = some w) (htm : w.teams[team]? = some tm)
    (hk : tm.grant = some k) :
    ∃ t w', exec (.grantExpiry w.id team) s = .next t ∧ t.gpu.wg? w.id = some w' ∧
      w'.teams[team]? = some (if k.till ≤ s.clk.cyc then { tm with grant := none } else tm) := by
  refine ⟨_, _, rfl, Gpu.wg?_modWg (g := s.dev) hw fun _ => rfl, ?_⟩
  have hgrant : tm.grant.filter (fun k => s.clk.cyc < k.till) = if k.till ≤ s.clk.cyc then none else tm.grant := by
    rw [hk]
    by_cases h : k.till ≤ s.clk.cyc
    · simp [h, Option.filter]
    · simp [h, Nat.lt_of_not_le h, Option.filter]
  have hteam : (w.modTeam team fun t => { t with grant := t.grant.filter fun k => s.dev.now < k.till }).teams[team]? =
      some { tm with grant := tm.grant.filter fun k => s.clk.cyc < k.till } := by
    rw [Wg.modTeam, List.getElem?_modify, htm]
    simp only [if_true]
    rfl
  refine hteam.trans ?_
  rw [hgrant]
  split <;> rfl

end

/-- Settles O47, event by event. -/
theorem exitsBatchesBudgetsAndGrants : Obligations.ExitsBatchesBudgetsAndGrants := by
  unfold Obligations.ExitsBatchesBudgetsAndGrants
  intro s u th w l n r
  refine ⟨fun ht hexiting hstarted hpend houtst hfifo hparked => ?_, fun nd => batchTimeout_launches,
    fun x => gangReportWrite_writes, ?_, ?_,
    fun team tm k => grantExpiry_ends⟩
  · have hmay : s.dev.mayExit u th = true := by
      have hstarted' : s.dev.started u.wg = true := hstarted
      have hfifo' : s.dev.fifoEmpty (s.dev.coreOf u) u = true := hfifo
      simp [Gpu.mayExit, Thread.quiet, hexiting, hpend, houtst, hstarted', hfifo']
    refine ⟨fun hdue hdef => ?_, fun howed huser => exitCount_delivers ht hmay howed huser hstarted,
      fun c htrap howed => exitCount_fences ht hmay htrap howed⟩
    obtain ⟨th', hth', hst⟩ := Gpu.thread?_countExit (g := s.dev) ht hparked
    refine ⟨_, th', exitCount_exits ht hmay hdue hdef, ?_, hst, fun hlast hw hplace => ?_⟩
    · rw [State.gpu_onGpu]
      exact hth'
    · rw [State.gpu_onGpu]
      exact Gpu.wg?_countExit (g := s.dev) hw hplace hlast
  · intro since hw hcore hsince hbudget
    have hplace : w.place ≠ .gone := fun h => by
      rw [Wg.core?, h] at hcore
      exact Bool.false_ne_true hcore
    obtain ⟨⟨w', hw', hgone, hend⟩, hthreads⟩ := Gpu.fenceWg_ends (g := s.dev) stOVERRUN hw hplace
    refine ⟨_, w', budgetOverrun_fences hw hcore hsince hbudget, ?_, hgone, hend, fun v x hx hv => ?_⟩
    · rw [State.gpu_onGpu]
      exact hw'
    · rw [State.gpu_onGpu] at hx
      exact hthreads (v, x) (Gpu.mem_threads_of_thread? hx) hv
  · intro hr hw hcore hl hdeadline
    obtain ⟨hwgs, hgov⟩ := s.dev.grantReq_frame r
    refine ⟨_, leaveGrant_grants hr hw hcore hl hdeadline, fun x hx => ?_, ?_, fun id o q hop ho hown hth hq => ?_⟩
    · rw [State.gpu_onGpu, hgov] at hx
      exact bne_iff_ne.mp (List.mem_filter.mp hx).2
    · rw [State.gpu_onGpu, Gpu.wg?, hwgs]
      rw [Nat.mul_comm 4000]
      exact Gpu.wg?_modWg (g := s.dev.fresh) (f := fun w => w.modTeam r.team fun t =>
        { t with grant := some { cls := r.cls, till := s.dev.now + r.dur * usCycles, id := s.dev.nextId } }) hw fun _ => rfl
    · obtain ⟨hregs, hpend⟩ := th.land_data ((s.dev.granted r).env u) q [grantWord true r.cls 0 r.dur]
      have hqid : q.id = id := beq_iff_eq.mp (List.find?_some (p := fun x : Pending => x.id == id) hq)
      refine ⟨_, ?_, fun x hx => ?_, hregs.trans ?_⟩
      · rw [State.gpu_onGpu]
        exact Gpu.thread?_grantReq hop ho hown hth hq
      · rw [hpend] at hx
        exact hqid ▸ bne_iff_ne.mp (List.mem_filter.mp hx).2
      · simp [grantWord]

end Sys2Proof.Machine
end

section
/-! PROOFS. Rounding (03 R64, R68 to R70): integers, the grid of a format's values, and what `Round` gives of an exact real. -/

namespace Sys2Proof.Machine

open Sys2Proof

-- Proofs are elaborated one after another: the whole text is compiled in one process of bounded memory.
set_option Elab.async false

/-! ### Powers of two -/

theorem pow2_eq_zpow (e : Int) : pow2 e = (2 : Rat) ^ e := by
  cases e with
  | ofNat n => simp [pow2]
  | negSucc n => simp [pow2, zpow_negSucc, Rat.mkRat_eq_div]

theorem zpow_two_pos (e : Int) : (0 : Rat) < 2 ^ e := zpow_pos two_pos e

theorem zpow_two_le {a b : Int} (h : a ≤ b) : (2 : Rat) ^ a ≤ 2 ^ b := zpow_le_zpow_right₀ one_le_two h

theorem zpow_two_lt {a b : Int} (h : a < b) : (2 : Rat) ^ a < 2 ^ b := zpow_lt_zpow_right₀ one_lt_two h

theorem zpow_two_add_one (e : Int) : (2 : Rat) ^ (e + 1) = 2 * 2 ^ e := by
  rw [zpow_add_one₀ two_ne_zero, mul_comm]

/-- A power of two at or above 2^u is a natural multiple of it. -/
theorem zpow_two_eq_nat_mul {u v : Int} (h : u ≤ v) : ∃ n : Nat, (2 : Rat) ^ v = ((2 ^ n : Nat) : Rat) * 2 ^ u := by
  obtain ⟨n, rfl⟩ := Int.le.dest h
  refine ⟨n, ?_⟩
  rw [zpow_add₀ two_ne_zero, zpow_natCast, mul_comm]
  push_cast
  rfl

/-! ### Rounding to an integer -/

/-- How a rounding mode treats a magnitude. -/
inductive MagMode
  | near | down | up

/-- What a mode does with the magnitude of a number of the given sign (R68). -/
def magMode (rm : RM) (neg : Bool) : MagMode :=
  match rm, neg with
  | .rn, _ => .near
  | .rz, _ => .down
  | .rd, true => .up
  | .rd, false => .down
  | .ru, true => .down
  | .ru, false => .up

/-- `k` is what the magnitude `y` rounds to. -/
def MagMode.Rounds : MagMode → Rat → Nat → Prop
  | .near, y, k => |(k : Rat) - y| ≤ 1 / 2 ∧ (|(k : Rat) - y| = 1 / 2 → k % 2 = 0)
  | .down, y, k => (k : Rat) ≤ y ∧ y < k + 1
  | .up, y, k => y ≤ k ∧ (k : Rat) < y + 1

theorem natCast_eq_div_add_mod (num : Nat) {den : Nat} (hd : 0 < den) :
    (num : Rat) / den = (num / den : Nat) + (num % den : Nat) / (den : Rat) := by
  have hd' : (den : Rat) ≠ 0 := by exact_mod_cast hd.ne'
  have h : (num : Rat) = den * (num / den : Nat) + (num % den : Nat) := by exact_mod_cast (Nat.div_add_mod num den).symm
  field_simp
  linarith

theorem roundNat_rounds (rm : RM) (neg : Bool) (num : Nat) {den : Nat} (hd : 0 < den) :
    (magMode rm neg).Rounds (num / den) (roundNat rm neg num den) := by
  have hd' : (0 : Rat) < den := by exact_mod_cast hd
  have hy := natCast_eq_div_add_mod num hd
  rw [hy]
  unfold roundNat
  generalize num / den = q
  have hr : num % den < den := Nat.mod_lt _ hd
  generalize num % den = r at hr ⊢
  have hlt : (r : Rat) / den < 1 := by rw [div_lt_one hd']; exact_mod_cast hr
  have h0 : (0 : Rat) ≤ (r : Rat) / den := by positivity
  have hzero : r = 0 ↔ (r : Rat) / den = 0 := by simp [hd.ne']
  have hhalf : den < 2 * r ↔ 1 / 2 < (r : Rat) / den := by
    rw [div_lt_div_iff₀ two_pos hd', one_mul]
    exact_mod_cast (by omega : den < 2 * r ↔ den < r * 2)
  have htie : 2 * r = den ↔ (r : Rat) / den = 1 / 2 := by
    rw [div_eq_div_iff hd'.ne' two_ne_zero, one_mul]
    exact_mod_cast (by omega : 2 * r = den ↔ r * 2 = den)
  simp only [hhalf, htie]
  generalize (r : Rat) / den = t at *
  have hdown : MagMode.down.Rounds (q + t) q := ⟨by linarith, by linarith⟩
  have hup : MagMode.up.Rounds (q + t) (if r != 0 then q + 1 else q) := by
    by_cases h : r = 0
    · rw [h, hzero.mp h]
      simp [MagMode.Rounds]
    · have ht : 0 < t := lt_of_le_of_ne h0 fun h' => h (hzero.mpr h'.symm)
      simp only [bne_iff_ne, ne_eq, h, not_false_eq_true, if_true]
      exact ⟨by push_cast; linarith, by push_cast; linarith⟩
  cases rm <;> cases neg <;>
    simp only [magMode, Bool.false_and, Bool.true_and, Bool.not_true, Bool.not_false, Bool.false_eq_true, if_false, hdown, hup]
  all_goals
    simp only [MagMode.Rounds, Bool.or_eq_true, Bool.and_eq_true, decide_eq_true_eq, beq_iff_eq]
    split_ifs with h
    · push_cast
      rw [show (q : Rat) + 1 - (q + t) = 1 - t by ring, abs_of_pos (by linarith)]
      rcases h with h | ⟨h, hq⟩
      · exact ⟨by linarith, fun h' => by linarith⟩
      · exact ⟨by linarith, fun _ => Nat.succ_mod_two_eq_zero_iff.mpr hq⟩
    · rw [show (q : Rat) - (q + t) = -t by ring, abs_neg, abs_of_nonneg h0]
      push Not at h
      exact ⟨h.1, fun h' => by have := h.2 h'; omega⟩

namespace MagMode.Rounds

variable {md : MagMode} {y : Rat} {k : Nat}

/-- An integer at or below the magnitude is at or below what it rounds to. -/
theorem ge_of_le (h : md.Rounds y k) {j : Nat} (hj : (j : Rat) ≤ y) : j ≤ k := by
  by_contra hlt
  have hk : (k : Rat) + 1 ≤ j := by exact_mod_cast Nat.lt_of_not_le hlt
  cases md with
  | near => have := (abs_le.mp h.1).1; linarith
  | down => have := h.2; linarith
  | up => have := h.1; linarith

/-- An integer at or above the magnitude is at or above what it rounds to. -/
theorem le_of_ge (h : md.Rounds y k) {j : Nat} (hj : y ≤ (j : Rat)) : k ≤ j := by
  by_contra hlt
  have hk : (j : Rat) + 1 ≤ k := by exact_mod_cast Nat.lt_of_not_le hlt
  cases md with
  | near => have := (abs_le.mp h.1).2; linarith
  | down => have := h.1; linarith
  | up => have := h.2; linarith

theorem eq_of_eq {j : Nat} (h : md.Rounds j k) : k = j := le_antisymm (h.le_of_ge le_rfl) (h.ge_of_le le_rfl)

/-- No integer is nearer. -/
theorem nearest (h : MagMode.near.Rounds y k) (j : Nat) : |(k : Rat) - y| ≤ |(j : Rat) - y| := by
  rcases lt_trichotomy j k with hlt | rfl | hlt
  · have hk : (j : Rat) + 1 ≤ k := by exact_mod_cast hlt
    have := (abs_le.mp h.1).2
    exact h.1.trans (le_abs.mpr (.inr (by linarith)))
  · exact le_rfl
  · have hk : (k : Rat) + 1 ≤ j := by exact_mod_cast hlt
    have := (abs_le.mp h.1).1
    exact h.1.trans (le_abs.mpr (.inl (by linarith)))

end MagMode.Rounds

theorem num_natAbs_div_den {y : Rat} (hy : 0 ≤ y) : (y.num.natAbs : Rat) / y.den = y := by
  have h : (y.num.natAbs : Int) = y.num := Int.natAbs_of_nonneg (Rat.num_nonneg.mpr hy)
  calc (y.num.natAbs : Rat) / y.den = ((y.num.natAbs : Int) : Rat) / y.den := by rw [Int.cast_natCast]
    _ = y := by rw [h, Rat.num_div_den]

/-- The quotient of numerator and denominator is the floor. -/
theorem num_natAbs_div_den_eq_floor {y : Rat} (hy : 0 ≤ y) : y.num.natAbs / y.den = ⌊y⌋₊ := by
  rw [← Nat.floor_div_eq_div (K := Rat), num_natAbs_div_den hy]

theorem roundAt_rounds (rm : RM) (neg : Bool) {x : Rat} (hx : 0 ≤ x) (u : Int) :
    (magMode rm neg).Rounds (x * 2 ^ (-u)) (roundAt rm neg x u) := by
  have hy : 0 ≤ x * pow2 (-u) := mul_nonneg hx (pow2_eq_zpow _ ▸ (zpow_two_pos _).le)
  have h := roundNat_rounds rm neg (x * pow2 (-u)).num.natAbs (x * pow2 (-u)).den_pos
  rw [num_natAbs_div_den hy] at h
  rwa [← pow2_eq_zpow]

/-! ### The binary exponent -/

theorem natLog2_bounds {n : Nat} (hn : n ≠ 0) : (2 : Rat) ^ (Nat.log2 n : Int) ≤ n ∧ (n : Rat) < 2 ^ ((Nat.log2 n : Int) + 1) := by
  refine ⟨?_, ?_⟩
  · rw [zpow_natCast]
    exact_mod_cast Nat.log2_self_le hn
  · rw [show ((Nat.log2 n : Int) + 1) = ((Nat.log2 n + 1 : Nat) : Int) by push_cast; rfl, zpow_natCast]
    exact_mod_cast Nat.lt_log2_self

/-- `ilog2` is the exponent of the binade. -/
theorem ilog2_bounds {x : Rat} (hx : 0 < x) : (2 : Rat) ^ ilog2 x ≤ x ∧ x < 2 ^ (ilog2 x + 1) := by
  have hn : x.num.natAbs ≠ 0 := by simpa using hx.ne'
  obtain ⟨ha, ha'⟩ := natLog2_bounds hn
  obtain ⟨hb, hb'⟩ := natLog2_bounds x.den_ne_zero
  have hd : (0 : Rat) < x.den := by exact_mod_cast x.den_pos
  have hxe := num_natAbs_div_den hx.le
  generalize hA : (Nat.log2 x.num.natAbs : Int) = A at *
  generalize hB : (Nat.log2 x.den : Int) = B at *
  have hhi : x < 2 ^ (A - B + 1) := by
    rw [← hxe, div_lt_iff₀ hd]
    calc (x.num.natAbs : Rat) < 2 ^ (A + 1) := ha'
      _ = 2 ^ (A - B + 1) * 2 ^ B := by rw [← zpow_add₀ two_ne_zero]; congr 1; ring
      _ ≤ _ := mul_le_mul_of_nonneg_left hb (zpow_two_pos _).le
  have hlo : 2 ^ (A - B - 1) ≤ x := by
    rw [← hxe, le_div_iff₀ hd]
    calc (2 : Rat) ^ (A - B - 1) * x.den ≤ 2 ^ (A - B - 1) * 2 ^ (B + 1) := mul_le_mul_of_nonneg_left hb'.le (zpow_two_pos _).le
      _ = 2 ^ A := by rw [← zpow_add₀ two_ne_zero]; congr 1; ring
      _ ≤ _ := ha
  simp only [ilog2, hA, hB, pow2_eq_zpow]
  split_ifs with h
  · exact ⟨h, hhi⟩
  · exact ⟨hlo, by rw [sub_add_cancel]; exact lt_of_not_ge h⟩

/-- A power of two at or below the number lies at or below its binade. -/
theorem le_ilog2 {x : Rat} (hx : 0 < x) {e : Int} (h : (2 : Rat) ^ e ≤ x) : e ≤ ilog2 x := by
  by_contra hlt
  exact absurd (h.trans_lt (ilog2_bounds hx).2) (not_lt.mpr (zpow_two_le (by omega)))

/-- A number below a power of two lies in a lower binade. -/
theorem ilog2_lt {x : Rat} (hx : 0 < x) {e : Int} (h : x < (2 : Rat) ^ e) : ilog2 x < e := by
  by_contra hle
  exact absurd ((ilog2_bounds hx).1.trans_lt h) (not_lt.mpr (zpow_two_le (by omega)))

/-! ### The values of a format -/

/-- The exponent of a format's smallest step. -/
def Fmt.low (f : Fmt) : Int := 1 - f.bias - f.m

theorem Fmt.mag_subnormal (f : Fmt) {k : Nat} (h : k < 2 ^ f.m) : f.mag k = k * 2 ^ f.low := by
  simp [Fmt.mag, Fmt.low, Nat.div_eq_of_lt h, Nat.mod_eq_of_lt h, pow2_eq_zpow]

theorem Fmt.mag_normal (f : Fmt) {k E : Nat} (h : k < 2 ^ f.m) (hE : E ≠ 0) :
    f.mag (E * 2 ^ f.m + k) = ((2 ^ f.m + k : Nat) : Rat) * 2 ^ ((E : Int) - f.bias - f.m) := by
  have hdiv : (E * 2 ^ f.m + k) / 2 ^ f.m = E := by
    rw [Nat.mul_comm, Nat.mul_add_div (by positivity), Nat.div_eq_of_lt h, Nat.add_zero]
  have hmod : (E * 2 ^ f.m + k) % 2 ^ f.m = k := by rw [Nat.mul_comm, Nat.mul_add_mod, Nat.mod_eq_of_lt h]
  simp only [Fmt.mag, hdiv, hmod, hE, if_false, pow2_eq_zpow]

@[simp] theorem Fmt.mag_zero (f : Fmt) : f.mag 0 = 0 := by
  rw [f.mag_subnormal (by positivity)]
  simp

/-- The code of `k` steps of 2^u: normalised, or at the smallest step. -/
def Fmt.code (f : Fmt) (k : Nat) (u : Int) : Nat :=
  if k < 2 ^ f.m then k
  else if k = 2 ^ (f.m + 1) then (u + 1 + f.m + f.bias).toNat * 2 ^ f.m
  else (u + f.m + f.bias).toNat * 2 ^ f.m + (k - 2 ^ f.m)

theorem Fmt.mag_code (f : Fmt) {k : Nat} {u : Int} (hu : f.low ≤ u) (hk : k ≤ 2 ^ (f.m + 1)) (hs : k < 2 ^ f.m → u = f.low) :
    f.mag (f.code k u) = k * 2 ^ u := by
  unfold Fmt.code
  have hlow : f.low = 1 - f.bias - f.m := rfl
  have hpow : 2 ^ (f.m + 1) = 2 ^ f.m + 2 ^ f.m := by ring
  split_ifs with h h'
  · rw [f.mag_subnormal h, hs h]
  · have hE : ((u + 1 + f.m + f.bias).toNat : Int) = u + 1 + f.m + f.bias := Int.toNat_of_nonneg (by omega)
    rw [← Nat.add_zero (_ * _), f.mag_normal (by positivity) (by omega), hE, h',
      show u + 1 + f.m + f.bias - f.bias - f.m = u + 1 by ring, zpow_two_add_one]
    push_cast
    ring
  · have hE : ((u + f.m + f.bias).toNat : Int) = u + f.m + f.bias := Int.toNat_of_nonneg (by omega)
    rw [f.mag_normal (by omega) (by omega), hE, show u + f.m + f.bias - f.bias - f.m = u by ring, Nat.add_sub_cancel' (by omega)]

/-- Every code is a number of steps at or above the smallest. -/
theorem Fmt.mag_eq (f : Fmt) (c : Nat) : ∃ (k : Nat) (u : Int), f.mag c = k * 2 ^ u ∧ k < 2 ^ (f.m + 1) ∧ f.low ≤ u := by
  have hlow : f.low = 1 - f.bias - f.m := rfl
  have hmod : c % 2 ^ f.m < 2 ^ f.m := Nat.mod_lt _ (by positivity)
  have hpow : 2 ^ (f.m + 1) = 2 ^ f.m + 2 ^ f.m := by ring
  have hmag : f.mag c = if c / 2 ^ f.m = 0 then ((c % 2 ^ f.m : Nat) : Rat) * 2 ^ f.low
      else ((2 ^ f.m + c % 2 ^ f.m : Nat) : Rat) * 2 ^ (((c / 2 ^ f.m : Nat) : Int) - f.bias - f.m) := by
    simp only [Fmt.mag, pow2_eq_zpow, Fmt.low]
  generalize c / 2 ^ f.m = E at hmag
  generalize c % 2 ^ f.m = t at hmag hmod
  by_cases hE : E = 0
  · exact ⟨t, f.low, by rw [hmag, if_pos hE], by omega, le_rfl⟩
  · exact ⟨2 ^ f.m + t, E - f.bias - f.m, by rw [hmag, if_neg hE], by omega, by omega⟩

theorem Fmt.mag_lt_succ (f : Fmt) (c : Nat) : f.mag c < f.mag (c + 1) := by
  have hmod : c % 2 ^ f.m < 2 ^ f.m := Nat.mod_lt _ (by positivity)
  have hc : c / 2 ^ f.m * 2 ^ f.m + c % 2 ^ f.m = c := Nat.div_add_mod' c _
  generalize c / 2 ^ f.m = E at hc
  generalize c % 2 ^ f.m = t at hc hmod
  obtain rfl | hE := Nat.eq_zero_or_pos E
  · obtain rfl : t = c := by omega
    have htop : f.mag (t + 1) = (t + 1 : Nat) * 2 ^ f.low := by
      by_cases ht : t + 1 < 2 ^ f.m
      · exact f.mag_subnormal ht
      · have h1 : t + 1 = 1 * 2 ^ f.m + 0 := by omega
        rw [h1, f.mag_normal (by positivity) one_ne_zero, Fmt.low]
        push_cast
        ring
    rw [htop, f.mag_subnormal hmod]
    exact mul_lt_mul_of_pos_right (by push_cast; linarith) (zpow_two_pos _)
  · rw [← hc, f.mag_normal hmod hE.ne']
    by_cases ht : t + 1 < 2 ^ f.m
    · rw [Nat.add_assoc, f.mag_normal ht hE.ne']
      exact mul_lt_mul_of_pos_right (by push_cast; linarith) (zpow_two_pos _)
    · have h1 : E * 2 ^ f.m + t + 1 = (E + 1) * 2 ^ f.m + 0 := by rw [Nat.add_mul]; omega
      rw [h1, f.mag_normal (by positivity) (by omega), show ((E + 1 : Nat) : Int) - f.bias - f.m = (E : Int) - f.bias - f.m + 1 by push_cast; ring,
        zpow_two_add_one, ← mul_assoc]
      refine mul_lt_mul_of_pos_right ?_ (zpow_two_pos _)
      exact_mod_cast (by omega : 2 ^ f.m + t < (2 ^ f.m + 0) * 2)

/-- Codes are in the order of their values. -/
theorem Fmt.mag_strictMono (f : Fmt) : StrictMono f.mag := strictMono_nat_of_lt_succ f.mag_lt_succ

theorem Fmt.mag_nonneg (f : Fmt) (c : Nat) : 0 ≤ f.mag c := by
  rw [← f.mag_zero]
  exact f.mag_strictMono.monotone (Nat.zero_le c)

/-! ### The rounded magnitude -/

/-- The step at which a magnitude is rounded into a format's range (R68). -/
def Fmt.unit (f : Fmt) (x : Rat) : Int := Max.max (ilog2 x - f.m) f.low

/-- A magnitude rounded into the format's range, with no bound above. -/
def Fmt.rounded (f : Fmt) (rm : RM) (neg : Bool) (x : Rat) : Rat := (roundAt rm neg x (f.unit x) : Nat) * 2 ^ f.unit x

theorem Fmt.unit_normal (f : Fmt) {x : Rat} (h : f.low < f.unit x) : f.unit x = ilog2 x - f.m := by
  unfold Fmt.unit at h ⊢
  omega

section
variable (f : Fmt) (rm : RM) (neg : Bool) {x : Rat} (hx : 0 < x)
include hx

theorem roundAt_unit_rounds : (magMode rm neg).Rounds (x / 2 ^ f.unit x) (roundAt rm neg x (f.unit x)) := by
  have h := roundAt_rounds rm neg hx.le (f.unit x)
  rwa [zpow_neg, ← div_eq_mul_inv] at h

/-- A multiple of the step at or below the magnitude is at or below what it rounds to. -/
theorem Fmt.mul_unit_le_rounded {j : Nat} (h : j * 2 ^ f.unit x ≤ x) : j * 2 ^ f.unit x ≤ f.rounded rm neg x := by
  refine mul_le_mul_of_nonneg_right ?_ (zpow_two_pos _).le
  exact_mod_cast (roundAt_unit_rounds f rm neg hx).ge_of_le ((le_div_iff₀ (zpow_two_pos _)).mpr h)

theorem Fmt.rounded_le_mul_unit {j : Nat} (h : x ≤ j * 2 ^ f.unit x) : f.rounded rm neg x ≤ j * 2 ^ f.unit x := by
  refine mul_le_mul_of_nonneg_right ?_ (zpow_two_pos _).le
  exact_mod_cast (roundAt_unit_rounds f rm neg hx).le_of_ge ((div_le_iff₀ (zpow_two_pos _)).mpr h)

/-- A multiple of any step of the format, of the format's precision, is a multiple of the magnitude's step, or lies below the
magnitude's binade. -/
theorem Fmt.steps_on_grid {k : Nat} {u : Int} (hk : k ≤ 2 ^ (f.m + 1)) (hu : f.low ≤ u) :
    (∃ j : Nat, (k : Rat) * 2 ^ u = j * 2 ^ f.unit x) ∨ ((k : Rat) * 2 ^ u < 2 ^ f.m * 2 ^ f.unit x ∧ 2 ^ f.m * 2 ^ f.unit x ≤ x) := by
  by_cases h : f.unit x ≤ u
  · obtain ⟨n, hn⟩ := zpow_two_eq_nat_mul h
    exact .inl ⟨k * 2 ^ n, by rw [hn]; push_cast; ring⟩
  · have hunit := f.unit_normal (x := x) (by omega)
    have hbin : (2 : Rat) ^ f.m * 2 ^ f.unit x = 2 ^ ilog2 x := by
      rw [← zpow_natCast, ← zpow_add₀ two_ne_zero, hunit]; congr 1; ring
    have hkq : (k : Rat) ≤ 2 ^ (f.m + 1) := by exact_mod_cast hk
    have hle : (k : Rat) * 2 ^ u ≤ 2 ^ f.m * 2 ^ f.unit x := by
      calc (k : Rat) * 2 ^ u ≤ 2 ^ (f.m + 1) * 2 ^ u := mul_le_mul_of_nonneg_right hkq (zpow_two_pos _).le
        _ = 2 ^ f.m * 2 ^ (u + 1) := by rw [zpow_two_add_one]; ring
        _ ≤ _ := mul_le_mul_of_nonneg_left (zpow_two_le (by omega)) (by positivity)
    rcases hle.eq_or_lt with heq | hlt
    · exact .inl ⟨2 ^ f.m, by rw [heq]; push_cast; rfl⟩
    · exact .inr ⟨hlt, hbin.trans_le (ilog2_bounds hx).1⟩

theorem Fmt.steps_le_rounded {k : Nat} {u : Int} (hk : k ≤ 2 ^ (f.m + 1)) (hu : f.low ≤ u) (h : (k : Rat) * 2 ^ u ≤ x) :
    (k : Rat) * 2 ^ u ≤ f.rounded rm neg x := by
  rcases f.steps_on_grid hx hk hu with ⟨j, hj⟩ | ⟨hlt, hle⟩
  · rw [hj] at h ⊢
    exact f.mul_unit_le_rounded rm neg hx h
  · have := f.mul_unit_le_rounded rm neg hx (j := 2 ^ f.m) (by push_cast; exact hle)
    push_cast at this
    exact hlt.le.trans this

theorem Fmt.rounded_le_steps {k : Nat} {u : Int} (hk : k ≤ 2 ^ (f.m + 1)) (hu : f.low ≤ u) (h : x ≤ (k : Rat) * 2 ^ u) :
    f.rounded rm neg x ≤ (k : Rat) * 2 ^ u := by
  rcases f.steps_on_grid hx hk hu with ⟨j, hj⟩ | ⟨hlt, hle⟩
  · rw [hj] at h ⊢
    exact f.rounded_le_mul_unit rm neg hx h
  · exact absurd (h.trans_lt hlt) (not_lt.mpr hle)

/-- A number of the format's precision rounds to itself. -/
theorem Fmt.rounded_steps {k : Nat} {u : Int} (hk : k ≤ 2 ^ (f.m + 1)) (hu : f.low ≤ u) (h : x = (k : Rat) * 2 ^ u) :
    f.rounded rm neg x = x :=
  le_antisymm (h ▸ f.rounded_le_steps rm neg hx hk hu h.le) (h ▸ f.steps_le_rounded rm neg hx hk hu h.ge)

theorem Fmt.mag_le_rounded {c : Nat} (h : f.mag c ≤ x) : f.mag c ≤ f.rounded rm neg x := by
  obtain ⟨k, u, he, hk, hu⟩ := f.mag_eq c
  rw [he] at h ⊢
  exact f.steps_le_rounded rm neg hx hk.le hu h

theorem Fmt.rounded_le_mag {c : Nat} (h : x ≤ f.mag c) : f.rounded rm neg x ≤ f.mag c := by
  obtain ⟨k, u, he, hk, hu⟩ := f.mag_eq c
  rw [he] at h ⊢
  exact f.rounded_le_steps rm neg hx hk.le hu h

omit hx in
theorem Fmt.rounded_sub (x' : Rat) : f.rounded rm neg x - x' = ((roundAt rm neg x (f.unit x) : Nat) - x' / 2 ^ f.unit x) * 2 ^ f.unit x := by
  rw [sub_mul, div_mul_cancel₀ _ (zpow_two_pos _).ne', Fmt.rounded]

theorem Fmt.rounded_down (h : magMode rm neg = .down) : f.rounded rm neg x ≤ x := by
  have hr := roundAt_unit_rounds f rm neg hx
  rw [h] at hr
  exact (le_div_iff₀ (zpow_two_pos _)).mp hr.1

theorem Fmt.rounded_up (h : magMode rm neg = .up) : x ≤ f.rounded rm neg x := by
  have hr := roundAt_unit_rounds f rm neg hx
  rw [h] at hr
  exact (div_le_iff₀ (zpow_two_pos _)).mp hr.1

/-- The error of rounding to nearest is half a step at most. -/
theorem Fmt.rounded_near_error (h : magMode rm neg = .near) : |f.rounded rm neg x - x| ≤ 2 ^ f.unit x / 2 := by
  have hr := roundAt_unit_rounds f rm neg hx
  rw [h] at hr
  rw [f.rounded_sub rm neg, abs_mul, abs_of_pos (zpow_two_pos _)]
  linarith [mul_le_mul_of_nonneg_right hr.1 (zpow_two_pos (f.unit x)).le]

/-- Rounding to nearest gives a nearest value of the format. -/
theorem Fmt.rounded_nearest (h : magMode rm neg = .near) (c : Nat) : |f.rounded rm neg x - x| ≤ |f.mag c - x| := by
  have hr := roundAt_unit_rounds f rm neg hx
  rw [h] at hr
  have hgrid : ∀ j : Nat, |f.rounded rm neg x - x| ≤ |(j : Rat) * 2 ^ f.unit x - x| := fun j => by
    have hj : (j : Rat) * 2 ^ f.unit x - x = (j - x / 2 ^ f.unit x) * 2 ^ f.unit x := by
      rw [sub_mul, div_mul_cancel₀ _ (zpow_two_pos _).ne']
    rw [f.rounded_sub rm neg, hj, abs_mul, abs_mul]
    exact mul_le_mul_of_nonneg_right (hr.nearest j) (abs_nonneg _)
  obtain ⟨k, u, he, hk, hu⟩ := f.mag_eq c
  rw [he]
  rcases f.steps_on_grid hx hk.le hu with ⟨j, hj⟩ | ⟨hlt, hle⟩
  · exact hj ▸ hgrid j
  · have h1 := hgrid (2 ^ f.m)
    push_cast at h1
    refine h1.trans ?_
    rw [abs_sub_comm, abs_of_nonneg (sub_nonneg.mpr hle), abs_sub_comm, abs_of_nonneg (by linarith)]
    linarith

omit hx in
theorem Fmt.rounded_nonneg : 0 ≤ f.rounded rm neg x := mul_nonneg (Nat.cast_nonneg _) (zpow_two_pos _).le

/-- The number of steps is within the format's precision, and in the top half of it unless the step is the smallest. -/
theorem Fmt.roundAt_unit_le : roundAt rm neg x (f.unit x) ≤ 2 ^ (f.m + 1) ∧ (roundAt rm neg x (f.unit x) < 2 ^ f.m → f.unit x = f.low) := by
  have hr := roundAt_unit_rounds f rm neg hx
  have hle : ilog2 x - f.m ≤ f.unit x := le_max_left _ _
  obtain ⟨hlo, hhi⟩ := ilog2_bounds hx
  refine ⟨hr.le_of_ge ((div_le_iff₀ (zpow_two_pos _)).mpr (hhi.le.trans ?_)), fun hlt => ?_⟩
  · push_cast
    rw [← zpow_natCast, ← zpow_add₀ two_ne_zero]
    exact zpow_two_le (by push_cast; omega)
  · by_contra hne
    have hunit := f.unit_normal (lt_of_le_of_ne (le_max_right _ _) (Ne.symm hne))
    refine absurd (hr.ge_of_le ((le_div_iff₀ (zpow_two_pos _)).mpr (le_trans (le_of_eq ?_) hlo))) (not_le.mpr hlt)
    push_cast
    rw [← zpow_natCast, ← zpow_add₀ two_ne_zero, hunit]
    congr 1
    ring

/-- The rounded magnitude is the value of its code. -/
theorem Fmt.mag_code_roundAt : f.mag (f.code (roundAt rm neg x (f.unit x)) (f.unit x)) = f.rounded rm neg x :=
  f.mag_code (le_max_right _ _) (f.roundAt_unit_le rm neg hx).1 (f.roundAt_unit_le rm neg hx).2

end

end Sys2Proof.Machine
end

section
/-! PROOFS. `Round(fmt, mode, x)` of an exact real with its sign (03 R68, R69), and codes as values of a format (R64). -/

namespace Sys2Proof.Machine

open Sys2Proof

-- Proofs are elaborated one after another: the whole text is compiled in one process of bounded memory.
set_option Elab.async false

/-! ### Codes and their values -/

/-- What the formats of Table 3.1 share: the largest finite code is a code, and no subnormal one. -/
theorem fmtOf_max {ty : Ty} (hty : ty.isFloat = true) :
    2 ^ (fmtOf ty).m ≤ (fmtOf ty).max ∧ (fmtOf ty).max < 2 ^ ((fmtOf ty).m + (fmtOf ty).e) ∧ widthOf ty = (fmtOf ty).m + (fmtOf ty).e + 1 := by
  cases ty with
  | f32 | f16 | e16 | f8a | f8b | f4 => decide
  | _ => exact absurd hty (by decide)

/-- A code without its sign. -/
def Fmt.unsigned (f : Fmt) (c : Nat) : Nat := c % 2 ^ (f.m + f.e)

/-- The sign of a code. -/
def Fmt.sign (f : Fmt) (c : Nat) : Bool := c / 2 ^ (f.m + f.e) % 2 == 1

theorem Fmt.unsigned_lt (f : Fmt) (c : Nat) : f.unsigned c < 2 ^ (f.m + f.e) := Nat.mod_lt _ (by positivity)

theorem unsigned_signed {ty : Ty} (n : Bool) {c : Nat} (h : c < 2 ^ ((fmtOf ty).m + (fmtOf ty).e)) :
    (fmtOf ty).unsigned (signed ty n c) = c := by
  cases n <;> simp [Fmt.unsigned, signed, Nat.mod_eq_of_lt h]

theorem sign_signed {ty : Ty} (n : Bool) {c : Nat} (h : c < 2 ^ ((fmtOf ty).m + (fmtOf ty).e)) :
    (fmtOf ty).sign (signed ty n c) = n := by
  cases n <;> simp [Fmt.sign, signed, Nat.div_eq_of_lt h]

theorem signed_lt {ty : Ty} (hty : ty.isFloat = true) (n : Bool) {c : Nat} (h : c < 2 ^ ((fmtOf ty).m + (fmtOf ty).e)) :
    signed ty n c < 2 ^ widthOf ty := by
  rw [(fmtOf_max hty).2.2, pow_succ]
  cases n
  · exact h.trans_le (Nat.le_mul_of_pos_right _ two_pos)
  · exact (Nat.add_lt_add_left h _).trans_eq (Nat.mul_two _).symm

/-- A code is its sign and the rest. -/
theorem signed_sign_unsigned {ty : Ty} (hty : ty.isFloat = true) {c : Nat} (h : c < 2 ^ widthOf ty) :
    signed ty ((fmtOf ty).sign c) ((fmtOf ty).unsigned c) = c := by
  rw [(fmtOf_max hty).2.2, pow_succ] at h
  simp only [signed, Fmt.sign, Fmt.unsigned, beq_iff_eq]
  generalize 2 ^ ((fmtOf ty).m + (fmtOf ty).e) = s at *
  have hdiv := Nat.div_add_mod c s
  have hlt : c / s < 2 := (Nat.div_lt_iff_lt_mul (by omega)).mpr (by omega)
  obtain h0 | h1 : c / s = 0 ∨ c / s = 1 := by generalize c / s = d at hlt; omega
  · simp only [h0] at hdiv ⊢
    simpa using hdiv
  · simp only [h1] at hdiv ⊢
    simpa using hdiv

theorem valueOf_of_le {ty : Ty} (hty : ty.isFloat = true) {c : Nat} (h : (fmtOf ty).unsigned c ≤ (fmtOf ty).max) :
    valueOf ty c = .fin ((fmtOf ty).sign c) ((fmtOf ty).mag ((fmtOf ty).unsigned c)) := by
  cases ty with
  | f4 => rfl
  | f32 | f16 | e16 | f8a | f8b => exact if_neg (by simp only [Fmt.unsigned, fmtOf] at h ⊢; omega)
  | _ => exact absurd hty (by decide)

theorem valueOf_of_gt {ty : Ty} (hty : ty.isFloat = true) {c : Nat} (h : (fmtOf ty).max < (fmtOf ty).unsigned c) :
    (valueOf ty c).isFin = false := by
  have hlt := (fmtOf ty).unsigned_lt c
  cases ty with
  | f4 => exact absurd h (not_lt.mpr (Nat.le_of_lt_succ hlt))
  | f8a => exact congrArg FV.isFin (if_pos (by simp only [Fmt.unsigned, fmtOf] at h hlt ⊢; omega))
  | f32 | f16 | e16 | f8b =>
    refine (congrArg FV.isFin (if_pos (by simp only [Fmt.unsigned, fmtOf] at h hlt ⊢; omega))).trans ?_
    split <;> rfl
  | _ => exact absurd hty (by decide)

/-- The value of a finite code. -/
theorem valueOf_signed {ty : Ty} (hty : ty.isFloat = true) (n : Bool) {c : Nat} (hc : c ≤ (fmtOf ty).max) :
    valueOf ty (signed ty n c) = .fin n ((fmtOf ty).mag c) := by
  have hlt := hc.trans_lt (fmtOf_max hty).2.1
  rw [valueOf_of_le hty (by rwa [unsigned_signed n hlt]), unsigned_signed n hlt, sign_signed n hlt]

/-- A finite code is a sign and a code up to the largest. -/
theorem eq_signed_of_isFin {ty : Ty} (hty : ty.isFloat = true) {c : Nat} (hc : c < 2 ^ widthOf ty) (hf : (valueOf ty c).isFin = true) :
    ∃ n k, k ≤ (fmtOf ty).max ∧ c = signed ty n k ∧ valueOf ty c = .fin n ((fmtOf ty).mag k) := by
  have hk : (fmtOf ty).unsigned c ≤ (fmtOf ty).max := by
    by_contra h
    rw [valueOf_of_gt hty (not_le.mp h)] at hf
    exact Bool.false_ne_true hf
  exact ⟨_, _, hk, (signed_sign_unsigned hty hc).symm, valueOf_of_le hty hk⟩

/-! ### The rounded magnitude as a code -/

theorem Fmt.mag_two_pow (f : Fmt) : f.mag (2 ^ f.m) = 2 ^ (1 - (f.bias : Int)) := by
  rw [← Nat.one_mul (2 ^ f.m), ← Nat.add_zero (1 * 2 ^ f.m), f.mag_normal (by positivity) one_ne_zero]
  push_cast
  rw [add_zero, ← zpow_natCast, ← zpow_add₀ two_ne_zero]
  congr 1
  ring

section
variable {ty : Ty} (hty : ty.isFloat = true) (rm : RM) (neg : Bool) {x : Rat} (hx : 0 < x)
include hx

/-- From the smallest normal value on, rounding with an unbounded exponent is rounding into the range. -/
theorem rounded_normal (f : Fmt) (h : 2 ^ (1 - (f.bias : Int)) ≤ x) :
    ((roundAt rm neg x (ilog2 x - f.m) : Nat) : Rat) * pow2 (ilog2 x - f.m) = f.rounded rm neg x := by
  have hu : f.unit x = ilog2 x - f.m := max_eq_left (by have := le_ilog2 hx h; unfold Fmt.low; omega)
  rw [Fmt.rounded, hu, pow2_eq_zpow]

/-- Below the smallest normal value, what rounding with an unbounded exponent gives is at most that value. -/
theorem roundAt_subnormal_le (f : Fmt) (h : x < 2 ^ (1 - (f.bias : Int))) :
    ((roundAt rm neg x (ilog2 x - f.m) : Nat) : Rat) * pow2 (ilog2 x - f.m) ≤ 2 ^ (1 - (f.bias : Int)) := by
  have hr := roundAt_rounds rm neg hx.le (ilog2 x - f.m)
  have hle : x * 2 ^ (-(ilog2 x - (f.m : Int))) ≤ ((2 ^ (f.m + 1) : Nat) : Rat) := by
    rw [zpow_neg, ← div_eq_mul_inv, div_le_iff₀ (zpow_two_pos _)]
    refine (ilog2_bounds hx).2.le.trans_eq ?_
    push_cast
    rw [← zpow_natCast, ← zpow_add₀ two_ne_zero]
    congr 1
    push_cast
    ring
  have hk : ((roundAt rm neg x (ilog2 x - f.m) : Nat) : Rat) ≤ 2 ^ (f.m + 1) := by exact_mod_cast hr.le_of_ge hle
  rw [pow2_eq_zpow]
  calc ((roundAt rm neg x (ilog2 x - f.m) : Nat) : Rat) * 2 ^ (ilog2 x - (f.m : Int))
      ≤ 2 ^ (f.m + 1) * 2 ^ (ilog2 x - (f.m : Int)) := mul_le_mul_of_nonneg_right hk (zpow_two_pos _).le
    _ = 2 ^ (ilog2 x + 1) := by rw [← zpow_natCast, ← zpow_add₀ two_ne_zero]; congr 1; push_cast; ring
    _ ≤ _ := zpow_two_le (ilog2_lt hx h)

include hty

/-- R68, R69: overflow. -/
theorem roundMag_overflow (sat : Bool) (h : (fmtOf ty).mag (fmtOf ty).max < (fmtOf ty).rounded rm neg x) :
    roundMag ty rm sat neg x = (signed ty neg (overflowCode ty rm sat neg), flOF ||| flNX) := by
  have hmin := (fmtOf ty).mag_strictMono.monotone (fmtOf_max hty).1
  rw [Fmt.mag_two_pow] at hmin
  have hle : 2 ^ (1 - ((fmtOf ty).bias : Int)) ≤ x := by
    by_contra hlt
    rw [← Fmt.mag_two_pow] at hlt hmin
    exact absurd ((fmtOf ty).rounded_le_mag rm neg hx (not_le.mp hlt).le) (not_le.mpr (hmin.trans_lt h))
  exact if_pos ((rounded_normal rm neg hx _ hle).symm ▸ h)

/-- R68: the code of the rounded magnitude, and the flags. -/
theorem roundMag_in_range (sat : Bool) (h : (fmtOf ty).rounded rm neg x ≤ (fmtOf ty).mag (fmtOf ty).max) :
    ∃ c fl, c ≤ (fmtOf ty).max ∧ (fmtOf ty).mag c = (fmtOf ty).rounded rm neg x ∧ roundMag ty rm sat neg x = (signed ty neg c, fl) ∧
      ((fmtOf ty).rounded rm neg x = x → fl = 0) ∧
      ((fmtOf ty).rounded rm neg x ≠ x → 2 ^ (1 - ((fmtOf ty).bias : Int)) ≤ x → fl = flNX) := by
  have hmag := (fmtOf ty).mag_code_roundAt rm neg hx
  refine ⟨_, _, (fmtOf ty).mag_strictMono.le_iff_le.mp (hmag.trans_le h), hmag, if_neg (not_lt.mpr ?_), fun hr => ?_, fun hr hn => ?_⟩
  · by_cases hn : 2 ^ (1 - ((fmtOf ty).bias : Int)) ≤ x
    · exact (rounded_normal rm neg hx _ hn).trans_le h
    · refine (roundAt_subnormal_le rm neg hx _ (not_le.mp hn)).trans ?_
      rw [← Fmt.mag_two_pow]
      exact (fmtOf ty).mag_strictMono.monotone (fmtOf_max hty).1
  · have hr' : (roundAt rm neg x (Max.max (ilog2 x - (fmtOf ty).m) (1 - (fmtOf ty).bias - (fmtOf ty).m)) : Rat) *
        pow2 (Max.max (ilog2 x - (fmtOf ty).m) (1 - (fmtOf ty).bias - (fmtOf ty).m)) = x := by rw [pow2_eq_zpow]; exact hr
    simp [hr']
  · have hr' : ¬ (roundAt rm neg x (Max.max (ilog2 x - (fmtOf ty).m) (1 - (fmtOf ty).bias - (fmtOf ty).m)) : Rat) *
        pow2 (Max.max (ilog2 x - (fmtOf ty).m) (1 - (fmtOf ty).bias - (fmtOf ty).m)) = x := by rw [pow2_eq_zpow]; exact hr
    have hy := rounded_normal rm neg hx (fmtOf ty) hn
    have hge : ¬ ((roundAt rm neg x (ilog2 x - (fmtOf ty).m) : Nat) : Rat) * pow2 (ilog2 x - (fmtOf ty).m) < pow2 (1 - (fmtOf ty).bias) := by
      rw [hy, pow2_eq_zpow, ← Fmt.mag_two_pow, not_lt]
      exact (fmtOf ty).mag_le_rounded rm neg hx (by rwa [Fmt.mag_two_pow])
    simp [hr', hge]

end

/-! ### Rounding with a sign -/

/-- An exact real rounded to a format's precision and smallest step, with no bound above. -/
def Fmt.round (f : Fmt) (rm : RM) (q : Rat) : Rat := if q < 0 then -f.rounded rm true |q| else f.rounded rm false |q|

section
variable (f : Fmt) (rm : RM)

@[simp] theorem Fmt.round_zero : f.round rm 0 = 0 := by
  have h : roundAt rm false 0 (f.unit 0) = 0 := by
    cases rm <;> simp [roundAt, roundNat]
  simp [Fmt.round, Fmt.rounded, h]

theorem Fmt.round_pos {q : Rat} (h : 0 < q) : f.round rm q = f.rounded rm false q := by
  rw [Fmt.round, if_neg h.le.not_gt, abs_of_pos h]

theorem Fmt.round_neg {q : Rat} (h : q < 0) : f.round rm q = -f.rounded rm true (-q) := by
  rw [Fmt.round, if_pos h, abs_of_neg h]

/-- A value of the format, whatever its sign, at or below the exact real is at or below the rounded one. -/
theorem Fmt.le_round {v q : Rat} {c : Nat} (hv : |v| = f.mag c) (h : v ≤ q) : v ≤ f.round rm q := by
  rcases lt_trichotomy q 0 with hq | rfl | hq
  · rw [f.round_neg rm hq, le_neg]
    exact (f.rounded_le_mag rm true (neg_pos.mpr hq) (by rw [← hv, abs_of_neg (h.trans_lt hq)]; linarith)).trans_eq
      (by rw [← hv, abs_of_neg (h.trans_lt hq)])
  · rwa [f.round_zero]
  · rw [f.round_pos rm hq]
    rcases le_total v 0 with h0 | h0
    · exact h0.trans (f.rounded_nonneg rm false)
    · rw [abs_of_nonneg h0] at hv
      exact hv ▸ f.mag_le_rounded rm false hq (hv ▸ h)

theorem Fmt.round_le {v q : Rat} {c : Nat} (hv : |v| = f.mag c) (h : q ≤ v) : f.round rm q ≤ v := by
  rcases lt_trichotomy q 0 with hq | rfl | hq
  · rw [f.round_neg rm hq, neg_le]
    rcases le_total 0 v with h0 | h0
    · exact (neg_nonpos.mpr h0).trans (f.rounded_nonneg rm true)
    · rw [abs_of_nonpos h0] at hv
      exact hv ▸ f.mag_le_rounded rm true (neg_pos.mpr hq) (hv ▸ neg_le_neg h)
  · rwa [f.round_zero]
  · rw [f.round_pos rm hq]
    rw [abs_of_pos (hq.trans_le h)] at hv
    exact hv ▸ f.rounded_le_mag rm false hq (hv ▸ h)

/-- A value of the format rounds to itself. -/
theorem Fmt.round_mag {q : Rat} {c : Nat} (h : |q| = f.mag c) : f.round rm q = q :=
  le_antisymm (f.round_le rm h le_rfl) (f.le_round rm h le_rfl)

/-- A number of the format's precision rounds to itself. -/
theorem Fmt.round_steps {q : Rat} {k : Nat} {u : Int} (hk : k ≤ 2 ^ (f.m + 1)) (hu : f.low ≤ u) (h : |q| = (k : Rat) * 2 ^ u) :
    f.round rm q = q := by
  rcases lt_trichotomy q 0 with hq | rfl | hq
  · rw [f.round_neg rm hq, f.rounded_steps rm true (neg_pos.mpr hq) hk hu (by rw [← h, abs_of_neg hq]), neg_neg]
  · exact f.round_zero rm
  · rw [f.round_pos rm hq, f.rounded_steps rm false hq hk hu (by rw [← h, abs_of_pos hq])]

theorem Fmt.round_rd_le (q : Rat) : f.round .rd q ≤ q := by
  rcases lt_trichotomy q 0 with hq | rfl | hq
  · rw [f.round_neg .rd hq, neg_le]
    exact f.rounded_up .rd true (neg_pos.mpr hq) rfl
  · rw [f.round_zero]
  · rw [f.round_pos .rd hq]
    exact f.rounded_down .rd false hq rfl

theorem Fmt.le_round_ru (q : Rat) : q ≤ f.round .ru q := by
  rcases lt_trichotomy q 0 with hq | rfl | hq
  · rw [f.round_neg .ru hq, le_neg]
    exact f.rounded_down .ru true (neg_pos.mpr hq) rfl
  · rw [f.round_zero]
  · rw [f.round_pos .ru hq]
    exact f.rounded_up .ru false hq rfl

theorem Fmt.abs_round_rz_le (q : Rat) : |f.round .rz q| ≤ |q| := by
  rcases lt_trichotomy q 0 with hq | rfl | hq
  · rw [f.round_neg .rz hq, abs_neg, abs_of_nonneg (f.rounded_nonneg .rz true), abs_of_neg hq]
    exact f.rounded_down .rz true (neg_pos.mpr hq) rfl
  · rw [f.round_zero]
  · rw [f.round_pos .rz hq, abs_of_nonneg (f.rounded_nonneg .rz false), abs_of_pos hq]
    exact f.rounded_down .rz false hq rfl

/-- The magnitude of a value of the format that is at most that of the exact real is at most that of the rounded one. -/
theorem Fmt.abs_le_abs_round {v q : Rat} {c : Nat} (hv : |v| = f.mag c) (h : |v| ≤ |q|) : |v| ≤ |f.round rm q| := by
  rcases le_total 0 q with hq | hq
  · rw [abs_of_nonneg hq] at h
    exact (f.le_round rm (by rw [abs_abs, hv]) h).trans (le_abs_self _)
  · rw [abs_of_nonpos hq] at h
    have := f.round_le rm (v := -|v|) (by rw [abs_neg, abs_abs, hv]) (le_neg.mp h)
    exact (le_neg.mp this).trans (neg_le_abs _)

/-- No value of the format is nearer than the one that RN gives. -/
theorem Fmt.round_rn_nearest {v : Rat} {c : Nat} (hv : |v| = f.mag c) (q : Rat) : |f.round .rn q - q| ≤ |v - q| := by
  have hpos : ∀ (n : Bool) {x : Rat}, 0 < x → ∀ {w : Rat}, |w| = f.mag c → |f.rounded .rn n x - x| ≤ |w - x| := fun n x hx w hw => by
    rcases le_total 0 w with h0 | h0
    · rw [abs_of_nonneg h0] at hw
      exact hw ▸ f.rounded_nearest .rn n hx rfl c
    · refine (f.rounded_nearest .rn n hx rfl 0).trans ?_
      rw [f.mag_zero, zero_sub, abs_neg, abs_of_pos hx, abs_of_nonpos (by linarith)]
      linarith
  rcases lt_trichotomy q 0 with hq | rfl | hq
  · have h := hpos true (neg_pos.mpr hq) (w := -v) (by rwa [abs_neg])
    rwa [← abs_neg, show -(f.rounded .rn true (-q) - -q) = f.round .rn q - q by rw [f.round_neg .rn hq]; ring, ← abs_neg (-v - -q),
      show -(-v - -q) = v - q by ring] at h
  · simp
  · rw [f.round_pos .rn hq]
    exact hpos false hq hv

/-- Half a unit in the last place, or half the smallest step. -/
theorem Fmt.round_rn_error (q : Rat) : |f.round .rn q - q| ≤ |q| * 2 ^ (-(f.m : Int) - 1) + 2 ^ (f.low - 1) := by
  have hpos : ∀ (n : Bool) {x : Rat}, 0 < x → |f.rounded .rn n x - x| ≤ x * 2 ^ (-(f.m : Int) - 1) + 2 ^ (f.low - 1) := fun n x hx => by
    refine (f.rounded_near_error .rn n hx rfl).trans ?_
    have hhalf : ∀ u : Int, (2 : Rat) ^ u / 2 = 2 ^ (u - 1) := fun u => by rw [zpow_sub_one₀ two_ne_zero]; rfl
    rw [hhalf]
    rcases max_choice (ilog2 x - (f.m : Int)) f.low with h | h
    · refine le_trans ?_ (le_add_of_nonneg_right (zpow_two_pos _).le)
      rw [show f.unit x - 1 = ilog2 x + (-(f.m : Int) - 1) by unfold Fmt.unit; rw [h]; ring, zpow_add₀ two_ne_zero]
      exact mul_le_mul_of_nonneg_right (ilog2_bounds hx).1 (zpow_two_pos _).le
    · refine le_trans (le_of_eq ?_) (le_add_of_nonneg_left (mul_pos hx (zpow_two_pos _)).le)
      unfold Fmt.unit
      rw [h]
  rcases lt_trichotomy q 0 with hq | rfl | hq
  · rw [f.round_neg .rn hq, abs_of_neg hq, ← abs_neg, show -(-f.rounded .rn true (-q) - q) = f.rounded .rn true (-q) - -q by ring]
    exact hpos true (neg_pos.mpr hq)
  · simp [(zpow_two_pos _).le]
  · rw [f.round_pos .rn hq, abs_of_pos hq]
    exact hpos false hq

end

/-! ### `Round` of an exact real -/

section
variable {ty : Ty} (hty : ty.isFloat = true) (rm : RM) (sat z : Bool) {q : Rat}
include hty

/-- R68: an exact real that rounds into the range: the code of the rounded value with its sign, and the flags. -/
theorem roundX_in_range (h : |(fmtOf ty).round rm q| ≤ (fmtOf ty).mag (fmtOf ty).max) :
    ∃ c fl, roundX ty rm sat (.val q z) = (c, fl) ∧ c < 2 ^ widthOf ty ∧
      valueOf ty c = .fin (if q = 0 then z else decide (q < 0)) |(fmtOf ty).round rm q| ∧ (valueOf ty c).rat = (fmtOf ty).round rm q ∧
      ((fmtOf ty).round rm q = q → fl = 0) ∧
      ((fmtOf ty).round rm q ≠ q → 2 ^ (1 - ((fmtOf ty).bias : Int)) ≤ |q| → fl = flNX) := by
  by_cases hq : q = 0
  · subst hq
    have hlt : 0 < 2 ^ ((fmtOf ty).m + (fmtOf ty).e) := by positivity
    have hv := valueOf_signed hty z (Nat.zero_le _)
    refine ⟨signed ty z 0, 0, by simp [roundX], signed_lt hty z hlt, ?_, ?_, fun _ => rfl, fun h => absurd (Fmt.round_zero _ rm) h⟩
    · rw [hv]; simp
    · rw [hv]; simp [FV.rat]
  · have hx : 0 < |q| := abs_pos.mpr hq
    have hr : |(fmtOf ty).round rm q| = (fmtOf ty).rounded rm (decide (q < 0)) |q| := by
      rw [Fmt.round]
      split_ifs with hn <;> simp [hn, abs_of_nonneg (Fmt.rounded_nonneg _ _ _)]
    have hs : (fmtOf ty).round rm q = if q < 0 then -|(fmtOf ty).round rm q| else |(fmtOf ty).round rm q| := by
      rw [hr, Fmt.round]
      split_ifs with hn <;> simp [hn]
    have hexact : (fmtOf ty).rounded rm (decide (q < 0)) |q| = |q| ↔ (fmtOf ty).round rm q = q := by
      rw [← hr]
      constructor
      · intro he
        rw [hs, he]
        split_ifs with hn
        · rw [abs_of_neg hn, neg_neg]
        · exact abs_of_nonneg (not_lt.mp hn)
      · exact fun he => congrArg _ he
    obtain ⟨c, fl, hc, hmag, he, hfl0, hflx⟩ := roundMag_in_range hty rm (decide (q < 0)) hx sat (hr ▸ h)
    have hv := valueOf_signed hty (decide (q < 0)) hc
    rw [hmag, ← hr] at hv
    refine ⟨_, fl, by rw [roundX, if_neg hq, he], signed_lt hty _ (hc.trans_lt (fmtOf_max hty).2.1), by rw [hv, if_neg hq], ?_,
      fun h' => hfl0 (hexact.mpr h'), fun h' => hflx (mt hexact.mp h')⟩
    rw [hv, FV.rat, hs]
    simp only [decide_eq_true_eq]
    split_ifs <;> simp

/-- R68, R69: overflow. -/
theorem roundX_overflow (h : (fmtOf ty).mag (fmtOf ty).max < |(fmtOf ty).round rm q|) :
    roundX ty rm sat (.val q z) = (signed ty (decide (q < 0)) (overflowCode ty rm sat (decide (q < 0))), flOF ||| flNX) := by
  have hq : q ≠ 0 := by
    rintro rfl
    rw [Fmt.round_zero, abs_zero] at h
    exact absurd h (not_lt.mpr (Fmt.mag_nonneg _ _))
  have hr : |(fmtOf ty).round rm q| = (fmtOf ty).rounded rm (decide (q < 0)) |q| := by
    rw [Fmt.round]
    split_ifs with hn <;> simp [hn, abs_of_nonneg (Fmt.rounded_nonneg _ _ _)]
  rw [roundX, if_neg hq, roundMag_overflow hty rm _ (abs_pos.mpr hq) sat (hr ▸ h)]

omit hty in
/-- A magnitude within the range stays in it. -/
theorem abs_round_le_max (h : |q| ≤ (fmtOf ty).mag (fmtOf ty).max) : |(fmtOf ty).round rm q| ≤ (fmtOf ty).mag (fmtOf ty).max := by
  have hm : |(fmtOf ty).mag (fmtOf ty).max| = (fmtOf ty).mag (fmtOf ty).max := abs_of_nonneg (Fmt.mag_nonneg _ _)
  rw [abs_le] at h ⊢
  exact ⟨Fmt.le_round _ rm (by rw [abs_neg, hm]) h.1, Fmt.round_le _ rm hm h.2⟩

end

end Sys2Proof.Machine
end

section
/-! PROOFS. Values of a format round to themselves (03 R64, R68), and the words of F32 (R67). -/

namespace Sys2Proof.Machine

open Sys2Proof

-- Proofs are elaborated one after another: the whole text is compiled in one process of bounded memory.
set_option Elab.async false

/-! ### Values and codes are one to one -/

/-- A finite value has one code. -/
theorem valueOf_fin_inj {ty : Ty} (hty : ty.isFloat = true) {c c' : Nat} (hc : c < 2 ^ widthOf ty) (hc' : c' < 2 ^ widthOf ty)
    (hf : (valueOf ty c).isFin = true) (h : valueOf ty c = valueOf ty c') : c = c' := by
  obtain ⟨n, k, _, rfl, hv⟩ := eq_signed_of_isFin hty hc hf
  obtain ⟨n', k', _, rfl, hv'⟩ := eq_signed_of_isFin hty hc' (h ▸ hf)
  rw [hv, hv'] at h
  obtain ⟨rfl, hk⟩ := FV.fin.inj h
  rw [(fmtOf ty).mag_strictMono.injective hk]

/-- The magnitude of a finite value is one of the format's. -/
theorem abs_rat_eq_mag {ty : Ty} (hty : ty.isFloat = true) {c : Nat} (hc : c < 2 ^ widthOf ty) (hf : (valueOf ty c).isFin = true) :
    ∃ k ≤ (fmtOf ty).max, |(valueOf ty c).rat| = (fmtOf ty).mag k := by
  obtain ⟨n, k, hk, rfl, hv⟩ := eq_signed_of_isFin hty hc hf
  refine ⟨k, hk, ?_⟩
  rw [hv]
  cases n <;> simp [FV.rat, abs_of_nonneg (Fmt.mag_nonneg _ _)]

theorem abs_rat_le_max {ty : Ty} (hty : ty.isFloat = true) {c : Nat} (hc : c < 2 ^ widthOf ty) (hf : (valueOf ty c).isFin = true) :
    |(valueOf ty c).rat| ≤ (fmtOf ty).mag (fmtOf ty).max := by
  obtain ⟨k, hk, h⟩ := abs_rat_eq_mag hty hc hf
  exact h ▸ (fmtOf ty).mag_strictMono.monotone hk

/-- A finite value is its exact value with its sign. -/
theorem valueOf_eq_fin {ty : Ty} (hty : ty.isFloat = true) {c : Nat} (hc : c < 2 ^ widthOf ty) (hf : (valueOf ty c).isFin = true) :
    valueOf ty c = .fin (valueOf ty c).neg |(valueOf ty c).rat| ∧
      (valueOf ty c).neg = if (valueOf ty c).rat = 0 then (valueOf ty c).neg else decide ((valueOf ty c).rat < 0) := by
  obtain ⟨n, k, _, rfl, hv⟩ := eq_signed_of_isFin hty hc hf
  have h0 := (fmtOf ty).mag_nonneg k
  rw [hv]
  cases n
  · simp [FV.rat, FV.neg, abs_of_nonneg h0, h0]
  · simp only [FV.rat, FV.neg, if_true, abs_neg, abs_of_nonneg h0, true_and, neg_eq_zero]
    split_ifs with h
    · rfl
    · exact (decide_eq_true (neg_neg_of_pos (lt_of_le_of_ne h0 (Ne.symm h)))).symm

/-- R68: a value of a format rounds to its own code, and sets no flag. -/
theorem roundX_valueOf {ty : Ty} (hty : ty.isFloat = true) (rm : RM) (sat : Bool) {c : Nat} (hc : c < 2 ^ widthOf ty)
    (hf : (valueOf ty c).isFin = true) : roundX ty rm sat (.val (valueOf ty c).rat (valueOf ty c).neg) = (c, 0) := by
  obtain ⟨k, hk, habs⟩ := abs_rat_eq_mag hty hc hf
  have hr := Fmt.round_mag _ rm habs
  obtain ⟨c', fl, he, hc', hv, _, hfl, _⟩ := roundX_in_range hty rm sat (valueOf ty c).neg
    (hr.symm ▸ abs_rat_le_max hty hc hf : |(fmtOf ty).round rm (valueOf ty c).rat| ≤ _)
  obtain ⟨h1, h2⟩ := valueOf_eq_fin hty hc hf
  rw [hr, ← h2, ← h1] at hv
  rw [he, hfl hr, valueOf_fin_inj hty hc' hc (hv ▸ hf) hv]

/-! ### Words of F32 -/

theorem fv_ofNat {c : Nat} (h : c < 2 ^ 32) : fv (BitVec.ofNat 32 c) = valueOf .f32 c := by
  rw [fv, BitVec.toNat_ofNat, Nat.mod_eq_of_lt h]

/-- A finite value has one word. -/
theorem fv_fin_inj {a b : Word} (hf : (fv a).isFin = true) (h : fv a = fv b) : a = b :=
  BitVec.eq_of_toNat_eq (valueOf_fin_inj (ty := .f32) rfl a.isLt b.isLt hf h)

/-- R64 for F32. -/
theorem fv_eq (w : Word) : fv w =
    if w.toNat % 2 ^ 31 / 2 ^ 23 = 255 then
      if w.toNat % 2 ^ 31 % 2 ^ 23 = 0 then .inf (w.toNat / 2 ^ 31 % 2 == 1)
      else .nan (w.toNat % 2 ^ 31 % 2 ^ 23 / 2 ^ 22 == 0)
    else .fin (w.toNat / 2 ^ 31 % 2 == 1) ((fmtOf .f32).mag (w.toNat % 2 ^ 31)) := rfl

/-- The words that hold an infinity or a NaN. -/
theorem fv_special (w : Word) : (fv w).isFin = true ∨
    (w.toNat % 2 ^ 31 = 0x7F800000 ∧ fv w = .inf (w.toNat / 2 ^ 31 % 2 == 1)) ∨ ∃ s, fv w = .nan s := by
  have hv := fv_eq w
  by_cases h1 : w.toNat % 2 ^ 31 / 2 ^ 23 = 255
  · by_cases h2 : w.toNat % 2 ^ 31 % 2 ^ 23 = 0
    · exact .inr (.inl ⟨by omega, by rw [hv, if_pos h1, if_pos h2]⟩)
    · exact .inr (.inr ⟨_, by rw [hv, if_pos h1, if_neg h2]⟩)
  · exact .inl (by rw [hv, if_neg h1]; rfl)

theorem fv_eq_inf {w : Word} {n : Bool} : fv w = .inf n ↔ w = if n then 0xFF800000 else 0x7F800000 := by
  constructor
  · intro h
    rcases fv_special w with hf | ⟨hw, hv⟩ | ⟨s, hs⟩
    · rw [h] at hf
      exact absurd hf Bool.false_ne_true
    · have hlt := w.isLt
      rw [h] at hv
      obtain rfl := FV.inf.inj hv
      apply BitVec.eq_of_toNat_eq
      obtain h0 | h1 : w.toNat / 2 ^ 31 = 0 ∨ w.toNat / 2 ^ 31 = 1 := by omega
      · simp only [h0]
        show w.toNat = 0x7F800000
        omega
      · simp only [h1]
        show w.toNat = 0xFF800000
        omega
    · rw [h] at hs
      cases hs
  · rintro rfl
    cases n <;> decide +kernel

theorem fv_eq_zero {w : Word} {n : Bool} : fv w = .fin n 0 ↔ w = if n then 0x80000000 else 0 := by
  have hz : fv (if n then 0x80000000 else 0) = .fin n 0 := by cases n <;> decide +kernel
  exact ⟨fun h => fv_fin_inj (by rw [h]; rfl) (h.trans hz.symm), fun h => h ▸ hz⟩

/-- Flipping bit 31 negates. -/
theorem fv_xor_sign (w : Word) : fv (w ^^^ 0x80000000) = (fv w).negate := by
  have hlow : (w ^^^ 0x80000000).toNat % 2 ^ 31 = w.toNat % 2 ^ 31 := by
    rw [BitVec.toNat_xor, Nat.xor_mod_two_pow]
    exact Nat.xor_zero _
  have hsign : ((w ^^^ 0x80000000).toNat / 2 ^ 31 % 2 == 1) = !(w.toNat / 2 ^ 31 % 2 == 1) := by
    rw [BitVec.toNat_xor, Nat.xor_div_two_pow]
    have hlt := w.isLt
    obtain h | h : w.toNat / 2 ^ 31 = 0 ∨ w.toNat / 2 ^ 31 = 1 := by omega
    · rw [h]; rfl
    · rw [h]; rfl
  rw [fv_eq, fv_eq w, hlow, hsign]
  split_ifs <;> rfl

/-- The greatest finite magnitude of F32. -/
theorem ratW_max : ratW 0x7F7FFFFF = (fmtOf .f32).mag (fmtOf .f32).max := by decide +kernel

section
variable (rm : RM) {q : Rat}

/-- R68: a word that an exact real rounds to within the range. -/
theorem roundW_in_range (h : |(fmtOf .f32).round rm q| ≤ (fmtOf .f32).mag (fmtOf .f32).max) :
    fv (roundW rm q) = .fin (decide (q < 0)) |(fmtOf .f32).round rm q| ∧ ratW (roundW rm q) = (fmtOf .f32).round rm q := by
  obtain ⟨c, fl, he, hc, hv, hr, _⟩ := roundX_in_range (ty := .f32) rfl rm false false h
  have hw : fv (roundW rm q) = valueOf .f32 c := by rw [roundW, he]; exact fv_ofNat hc
  refine ⟨?_, by rw [ratW, hw, hr]⟩
  rw [hw, hv]
  split_ifs with h0
  · simp [h0]
  · rfl

/-- R69: a word that overflows. -/
theorem roundW_overflow (h : (fmtOf .f32).mag (fmtOf .f32).max < |(fmtOf .f32).round rm q|) :
    roundW rm q = BitVec.ofNat 32 (signed .f32 (decide (q < 0)) (overflowCode .f32 rm false (decide (q < 0)))) := by
  rw [roundW, roundX_overflow rfl rm false false h]

end

/-! ### Codes lie within the width -/

theorem overflowCode_lt {ty : Ty} (hty : ty.isFloat = true) (rm : RM) (sat neg : Bool) :
    overflowCode ty rm sat neg < 2 ^ ((fmtOf ty).m + (fmtOf ty).e) := by
  have hmax := (fmtOf_max hty).2.1
  have hinf : (2 ^ (fmtOf ty).e - 1) * 2 ^ (fmtOf ty).m < 2 ^ ((fmtOf ty).m + (fmtOf ty).e) := by
    rw [pow_add, Nat.mul_comm]
    exact Nat.mul_lt_mul_of_pos_left (Nat.sub_lt (by positivity) one_pos) (by positivity)
  simp only [overflowCode]
  split_ifs <;> cases rm <;> assumption

theorem roundX_lt {ty : Ty} (hty : ty.isFloat = true) (rm : RM) (sat : Bool) (v : XV) : (roundX ty rm sat v).1 < 2 ^ widthOf ty := by
  have hinf : (2 ^ (fmtOf ty).e - 1) * 2 ^ (fmtOf ty).m < 2 ^ ((fmtOf ty).m + (fmtOf ty).e) := by
    rw [pow_add, Nat.mul_comm]
    exact Nat.mul_lt_mul_of_pos_left (Nat.sub_lt (by positivity) one_pos) (by positivity)
  cases v with
  | nan =>
    cases ty with
    | f32 | f16 | e16 | f8a | f8b | f4 => exact of_decide_eq_true rfl
    | _ => exact absurd hty (by decide)
  | inf n =>
    simp only [roundX, infInto]
    split_ifs
    · exact signed_lt hty n (fmtOf_max hty).2.1
    · exact signed_lt hty n (fmtOf_max hty).2.1
    · exact signed_lt hty n hinf
  | val q z =>
    by_cases h : |(fmtOf ty).round rm q| ≤ (fmtOf ty).mag (fmtOf ty).max
    · obtain ⟨c, fl, he, hc, _⟩ := roundX_in_range hty rm sat z h
      rwa [he]
    · rw [roundX_overflow hty rm sat z (not_le.mp h)]
      exact signed_lt hty _ (overflowCode_lt hty rm sat _)

end Sys2Proof.Machine
end

section
/-! PROOFS. Sums, products and fused products (03 R67, R68, R76, 06 R179, R184). -/

namespace Sys2Proof.Machine

open Sys2Proof

-- Proofs are elaborated one after another: the whole text is compiled in one process of bounded memory.
set_option Elab.async false

/-! ### Exact operations, before rounding -/

section
variable {a b c : FV} (rm : RM)

theorem FV.rat_eq_zero {n : Bool} {q : Rat} : (FV.fin n q).rat = 0 ↔ q = 0 := by
  cases n <;> simp [FV.rat]

theorem FV.exists_of_isFin (h : a.isFin = true) : ∃ n q, a = .fin n q := by
  cases a with
  | fin n q => exact ⟨n, q, rfl⟩
  | inf n => exact absurd h Bool.false_ne_true
  | nan s => exact absurd h Bool.false_ne_true

theorem addX_nan (h : a.isNan = true ∨ b.isNan = true) : addX rm a b = (.nan, sigFlag [a, b]) := by
  cases a <;> cases b <;> simp_all [addX, FV.isNan]

theorem mulX_nan (h : a.isNan = true ∨ b.isNan = true) : mulX a b = (.nan, sigFlag [a, b]) := by
  cases a <;> cases b <;> simp_all [mulX, FV.isNan]

theorem addX_fin (ha : a.isFin = true) (hb : b.isFin = true) :
    addX rm a b = (.val (a.rat + b.rat) (if a.rat = 0 ∧ b.rat = 0 ∧ a.neg = b.neg then a.neg else rm == .rd), 0) := by
  obtain ⟨s, p, rfl⟩ := FV.exists_of_isFin ha
  obtain ⟨t, q, rfl⟩ := FV.exists_of_isFin hb
  simp only [addX, FV.rat_eq_zero, FV.neg, zeroSum]
  split_ifs with h
  · simp [FV.rat, h.1, h.2.1]
  · rfl

theorem mulX_fin (ha : a.isFin = true) (hb : b.isFin = true) : mulX a b = (.val (a.rat * b.rat) (a.neg != b.neg), 0) := by
  obtain ⟨s, p, rfl⟩ := FV.exists_of_isFin ha
  obtain ⟨t, q, rfl⟩ := FV.exists_of_isFin hb
  rfl

theorem addX_inf_fin (n : Bool) (hb : b.isFin = true) : addX rm (.inf n) b = (.inf n, 0) ∧ addX rm b (.inf n) = (.inf n, 0) := by
  obtain ⟨t, q, rfl⟩ := FV.exists_of_isFin hb
  exact ⟨rfl, rfl⟩

theorem mulX_inf_zero (n : Bool) (hb : b.isZero = true) : mulX (.inf n) b = (.nan, flNV) := by
  cases b with
  | fin t q => exact if_pos (beq_iff_eq.mp hb)
  | inf t => exact absurd hb Bool.false_ne_true
  | nan s => exact absurd hb Bool.false_ne_true

theorem mulX_inf (n : Bool) (hn : b.isNan = false) (hz : b.isZero = false) : mulX (.inf n) b = (.inf (n != b.neg), 0) := by
  cases b with
  | fin t q => exact if_neg (beq_eq_false_iff_ne.mp hz)
  | inf t => rfl
  | nan s => exact absurd hn.symm Bool.false_ne_true

/-- A fused product of finite values of which the product or the addend is no zero. -/
theorem fmaX_fin (ha : a.isFin = true) (hb : b.isFin = true) (hc : c.isFin = true) (h : a.rat * b.rat ≠ 0 ∨ c.rat ≠ 0) :
    fmaX rm a b c = (.val (a.rat * b.rat + c.rat) (rm == .rd), 0) := by
  obtain ⟨t, q, rfl⟩ := FV.exists_of_isFin hc
  simp only [fmaX, mulX_fin ha hb]
  exact if_neg fun h' => h.elim (absurd h'.1) (absurd (FV.rat_eq_zero.mpr h'.2.1))

end

theorem flNV_or_sigFlag (vs : List FV) : flNV ||| sigFlag vs = flNV := by
  unfold sigFlag
  split_ifs <;> decide

/-! ### Rounded results -/

@[simp] theorem flush_false (ty : Ty) (r : Nat × BitVec 5) : flush ty false r = r := by simp [flush]

theorem arith_false (ty : Ty) (rm : RM) (r : XV × BitVec 5) :
    arith ty rm false r = ((roundX ty rm false r.1).1, (roundX ty rm false r.1).2 ||| r.2) := by
  rw [arith, flush_false]

theorem arith32_nan (rm : RM) (fl : BitVec 5) : arith32 rm false (.nan, fl) = (0x7FC00000, fl) := by
  simp only [arith32, arith_false]
  exact Prod.ext rfl (BitVec.zero_or (x := fl))

theorem arith32_inf (rm : RM) (n : Bool) (fl : BitVec 5) : arith32 rm false (.inf n, fl) = (if n then 0xFF800000 else 0x7F800000, fl) := by
  simp only [arith32, arith_false]
  cases n <;> simp [roundX, infInto, signed, fmtOf]

theorem arith32_val (rm : RM) (q : Rat) (z : Bool) :
    arith32 rm false (.val q z, 0) = (BitVec.ofNat 32 (roundX .f32 rm false (.val q z)).1, (roundX .f32 rm false (.val q z)).2) := by
  simp only [arith32, arith_false]
  exact Prod.ext rfl BitVec.or_zero

/-! ### Packed elements -/

/-- The element of a packed word (R65). -/
theorem packed16_eq {ty : Ty} (hty : ty = .f16 ∨ ty = .e16) (rm : RM) (op : List FV → XV × BitVec 5) (ws : List Word) :
    let r := fun (i : Nat) => arith ty rm false (op (ws.map fun w => valueOf ty (w.toNat / 2 ^ (16 * i) % 2 ^ 16)))
    packed16 ty rm false op ws = (BitVec.ofNat 32 ((r 0).1 + 2 ^ 16 * (r 1).1), (r 0).2 ||| (r 1).2) ∧ ∀ i, (r i).1 < 2 ^ 16 := by
  intro r
  have hlt : ∀ i, (r i).1 < 2 ^ 16 := fun i => by
    simp only [r, arith_false]
    rcases hty with rfl | rfl
    · exact roundX_lt (ty := .f16) rfl rm false _
    · exact roundX_lt (ty := .e16) rfl rm false _
  have hw : widthOf ty = 16 := by rcases hty with rfl | rfl <;> rfl
  refine ⟨Prod.ext ?_ rfl, hlt⟩
  show BitVec.ofNat 32 (packElems ty [(r 0).1, (r 1).1]) = _
  simp only [packElems, hw, Nat.mod_eq_of_lt (hlt 0), Nat.mod_eq_of_lt (hlt 1), Nat.mul_zero, Nat.add_zero]

/-- A packed element of a result. -/
theorem packed16_elem {ty : Ty} (hty : ty = .f16 ∨ ty = .e16) (rm : RM) (op : List FV → XV × BitVec 5) (ws : List Word) {i : Nat} (hi : i < 2) :
    (packed16 ty rm false op ws).1.toNat / 2 ^ (16 * i) % 2 ^ 16 =
      (arith ty rm false (op (ws.map fun w => valueOf ty (w.toNat / 2 ^ (16 * i) % 2 ^ 16)))).1 := by
  obtain ⟨he, hlt⟩ := packed16_eq hty rm op ws
  have h0 := hlt 0
  have h1 := hlt 1
  rw [he, BitVec.toNat_ofNat]
  obtain rfl | rfl : i = 0 ∨ i = 1 := by omega
  · simp only [Nat.mul_zero] at h0 h1 ⊢
    omega
  · simp only [Nat.mul_zero, Nat.mul_one] at h0 h1 ⊢
    omega

theorem packed16_nan {ty : Ty} (hty : ty = .f16 ∨ ty = .e16) (rm : RM) (op : List FV → XV × BitVec 5) (ws : List Word) {i : Nat} (hi : i < 2)
    {fl : BitVec 5} (h : op (ws.map fun w => valueOf ty (w.toNat / 2 ^ (16 * i) % 2 ^ 16)) = (.nan, fl)) :
    (packed16 ty rm false op ws).1.toNat / 2 ^ (16 * i) % 2 ^ 16 = if ty = .f16 then 0x7E00 else 0x7FC0 := by
  rw [packed16_elem hty rm op ws hi, h]
  rcases hty with rfl | rfl <;> rfl

theorem packed16_val {ty : Ty} (hty : ty = .f16 ∨ ty = .e16) (rm : RM) (op : List FV → XV × BitVec 5) (ws : List Word) (q : Nat → Rat)
    (z : Nat → Bool) (h : ∀ i, i < 2 → op (ws.map fun w => valueOf ty (w.toNat / 2 ^ (16 * i) % 2 ^ 16)) = (.val (q i) (z i), 0)) :
    let r := fun (i : Nat) => roundX ty rm false (.val (q i) (z i))
    packed16 ty rm false op ws = (BitVec.ofNat 32 ((r 0).1 + 2 ^ 16 * (r 1).1), (r 0).2 ||| (r 1).2) := by
  have hr : ∀ q z, arith ty rm false (.val q z, 0) = roundX ty rm false (.val q z) := fun q z => by
    rw [arith_false]
    exact Prod.ext rfl BitVec.or_zero
  rw [(packed16_eq hty rm op ws).1]
  simp only [h 0 two_pos, h 1 one_lt_two, hr]

/-- Settles O7, by the kinds of values: each operation's exact result, then its rounding. -/
theorem floatingPointValues : Obligations.FloatingPointValues := by
  unfold Obligations.FloatingPointValues
  intro rm a b c x y z nan inf round
  have hnan : ∀ fl, arith32 rm false (.nan, fl) = nan fl := arith32_nan rm
  have hinf : ∀ n, arith32 rm false (.inf n, 0) = inf n := fun n => arith32_inf rm n 0
  have hval : ∀ q z, arith32 rm false (.val q z, 0) = round q z := arith32_val rm
  refine ⟨fun h => ⟨?_, ?_⟩, fun hx hy => ⟨?_, ?_, fun hz h => ?_⟩, fun hx hy => ?_, fun n hx hy => ⟨?_, ?_⟩, fun n hx hy => ⟨?_, ?_⟩,
    fun n hx hn hz => ?_, ?_, ?_⟩
  · rw [faddV, addX_nan rm h, hnan]
  · rw [fmulV, mulX_nan h, hnan]
  · rw [faddV, addX_fin rm hx hy, hval]
  · rw [fmulV, mulX_fin hx hy, hval]
  · rw [ffmaV, fmaX_fin rm hx hy hz h, hval]
  · rw [faddV, show fv a = _ from hx, show fv b = _ from hy, ← hnan]
    rfl
  · rw [faddV, show fv a = _ from hx, (addX_inf_fin rm n hy).1, hinf]
  · rw [faddV, show fv a = _ from hx, (addX_inf_fin rm n hy).2, hinf]
  · rw [fmulV, show fv a = _ from hx, mulX_inf_zero n hy, hnan]
  · rw [ffmaV, fmaX, show fv a = _ from hx, mulX_inf_zero n hy]
    simp only
    rw [flNV_or_sigFlag, hnan]
  · rw [fmulV, show fv a = _ from hx, mulX_inf n (Bool.not_eq_true' _ ▸ hn) (Bool.not_eq_true' _ ▸ hz), hinf]
  · rw [fsubV, faddV, fv_xor_sign]
  · intro ty hty el both one
    refine ⟨fun i hi h => ⟨packed16_nan hty rm _ [a, b] hi (addX_nan rm h), packed16_nan hty rm _ [a, b] hi (mulX_nan h)⟩,
      fun hf => ⟨?_, ?_, fun hc => ?_⟩⟩
    · exact packed16_val hty rm (add2X rm) [a, b] _ _ fun i hi => addX_fin rm (hf i hi).1 (hf i hi).2
    · exact packed16_val hty rm mul2X [a, b] _ _ fun i hi => mulX_fin (hf i hi).1 (hf i hi).2
    · exact packed16_val hty rm (fma2X rm) [a, b, c] _ _ fun i hi => fmaX_fin rm (hf i hi).1 (hf i hi).2 (hc i hi).1 (hc i hi).2

end Sys2Proof.Machine
end

section
/-! PROOFS. Square roots (06 R183, 03 R82): the rational that stands for a square root lies on the same side of every multiple of 2^-170
as the root does, and so rounds as it does (log 20). -/

namespace Sys2Proof.Machine

open Sys2Proof

-- Proofs are elaborated one after another: the whole text is compiled in one process of bounded memory.
set_option Elab.async false

/-! ### The integer square root -/

theorem isqrtGo_eq_sqrt (n : Nat) : ∀ (b r : Nat), r * r ≤ n → n < (r + 2 ^ b) * (r + 2 ^ b) → isqrtGo n b r = Nat.sqrt n
  | 0, r, hlo, hhi => show r = Nat.sqrt n from Nat.eq_sqrt.mpr ⟨hlo, by simpa using hhi⟩
  | b + 1, r, hlo, hhi => by
    simp only [isqrtGo]
    split_ifs with h
    · exact isqrtGo_eq_sqrt n b _ h (by rw [show r + 2 ^ b + 2 ^ b = r + 2 ^ (b + 1) by ring]; exact hhi)
    · exact isqrtGo_eq_sqrt n b r hlo (not_le.mp h)

theorem isqrt_eq_sqrt (n : Nat) : isqrt n = Nat.sqrt n := by
  refine isqrtGo_eq_sqrt n _ 0 (Nat.zero_le _) ?_
  rw [Nat.zero_add, ← pow_add]
  exact Nat.lt_log2_self.trans_le (Nat.pow_le_pow_right two_pos (by omega))

/-! ### The representative of a square root -/

/-- A rational on the same side of every multiple of 2^-170 as a real. -/
def SameSide (p : Rat) (y : ℝ) : Prop :=
  ∀ j : Int, ((j : Rat) * 2 ^ (-170 : Int) ≤ p ↔ (j : ℝ) * 2 ^ (-170 : Int) ≤ y) ∧
    (p ≤ (j : Rat) * 2 ^ (-170 : Int) ↔ y ≤ (j : ℝ) * 2 ^ (-170 : Int))

/-- A root that is no multiple of 2^-170 stands between two of them. -/
theorem sameSide_between {p : Rat} {y : ℝ} {s : Nat} (hp : p = ((2 * s + 1 : Nat) : Rat) * 2 ^ (-171 : Int))
    (hlo : (s : ℝ) * 2 ^ (-170 : Int) < y) (hhi : y < ((s : ℝ) + 1) * 2 ^ (-170 : Int)) : SameSide p y := by
  have hunit : (0 : ℝ) < 2 ^ (-170 : Int) := by positivity
  have hp' : p = ((s : Rat) + 1 / 2) * 2 ^ (-170 : Int) := by
    rw [hp, show (-170 : Int) = -171 + 1 by norm_num, zpow_two_add_one]
    push_cast
    ring
  intro j
  rw [hp', mul_le_mul_iff_left₀ (zpow_two_pos _), mul_le_mul_iff_left₀ (zpow_two_pos _)]
  rcases le_or_gt j s with h | h
  · have hq : (j : Rat) ≤ s := by exact_mod_cast h
    have hr : (j : ℝ) ≤ s := by exact_mod_cast h
    have hy : (j : ℝ) * 2 ^ (-170 : Int) < y := (mul_le_mul_of_nonneg_right hr hunit.le).trans_lt hlo
    exact ⟨iff_of_true (by linarith) hy.le, iff_of_false (by linarith) (not_le.mpr hy)⟩
  · have hq : (s : Rat) + 1 ≤ j := by exact_mod_cast h
    have hr : (s : ℝ) + 1 ≤ j := by exact_mod_cast h
    have hy : y < (j : ℝ) * 2 ^ (-170 : Int) := hhi.trans_le (mul_le_mul_of_nonneg_right hr hunit.le)
    exact ⟨iff_of_false (by linarith) (not_le.mpr hy), iff_of_true (by linarith) hy.le⟩

theorem sameSide_cast (p : Rat) : SameSide p (p : ℝ) := fun j => by
  constructor <;> rw [← Rat.cast_le (K := ℝ)] <;> push_cast <;> rfl

theorem sqrtRep_sameSide {x : Rat} (hx : 0 ≤ x) : SameSide (sqrtRep x) (Real.sqrt x) := by
  have hy : 0 ≤ x * 2 ^ (340 : Int) := mul_nonneg hx (zpow_two_pos _).le
  have hroot : Real.sqrt x = Real.sqrt ((x * 2 ^ (340 : Int) : Rat) : ℝ) * 2 ^ (-170 : Int) := by
    have h2 : (2 : ℝ) ^ (340 : Int) = 2 ^ (170 : Int) * 2 ^ (170 : Int) := by rw [← zpow_add₀ two_ne_zero]; rfl
    rw [Rat.cast_mul, Rat.cast_zpow, Rat.cast_ofNat, h2, Real.sqrt_mul (by exact_mod_cast hx),
      Real.sqrt_mul_self (by positivity), mul_assoc, ← zpow_add₀ two_ne_zero]
    simp
  have hrep : sqrtRep x = if Nat.sqrt ⌊x * 2 ^ (340 : Int)⌋₊ * Nat.sqrt ⌊x * 2 ^ (340 : Int)⌋₊ = ⌊x * 2 ^ (340 : Int)⌋₊ ∧
        (x * 2 ^ (340 : Int)).den = 1 then (Nat.sqrt ⌊x * 2 ^ (340 : Int)⌋₊ : Rat) * 2 ^ (-170 : Int)
      else ((2 * Nat.sqrt ⌊x * 2 ^ (340 : Int)⌋₊ + 1 : Nat) : Rat) * 2 ^ (-171 : Int) := by
    simp only [sqrtRep, isqrt_eq_sqrt, pow2_eq_zpow, num_natAbs_div_den_eq_floor hy]
  rw [hroot, hrep]
  generalize x * 2 ^ (340 : Int) = y at hy
  have hfl := Nat.floor_le hy
  have hfl' := Nat.lt_floor_add_one y
  have hlo := Nat.sqrt_le ⌊y⌋₊
  have hhi := Nat.lt_succ_sqrt ⌊y⌋₊
  split_ifs with h
  · have hyn : y = (⌊y⌋₊ : Rat) := by
      obtain ⟨z, hz⟩ : ∃ z : Int, y = z := ⟨y.num, ((Rat.den_eq_one_iff y).mp h.2).symm⟩
      subst hz
      obtain ⟨m, rfl⟩ := Int.eq_ofNat_of_zero_le (by exact_mod_cast hy)
      simp
    have hroot' : Real.sqrt (y : ℝ) = (Nat.sqrt ⌊y⌋₊ : ℝ) := by
      rw [hyn, Rat.cast_natCast, Nat.floor_natCast]
      nth_rewrite 1 [← h.1]
      push_cast
      exact Real.sqrt_mul_self (by positivity)
    rw [hroot']
    have := sameSide_cast ((Nat.sqrt ⌊y⌋₊ : Rat) * 2 ^ (-170 : Int))
    push_cast at this
    exact this
  · have hunit : (0 : ℝ) < 2 ^ (-170 : Int) := by positivity
    refine sameSide_between rfl ?_ ?_
    · refine mul_lt_mul_of_pos_right (Real.lt_sqrt_of_sq_lt (lt_of_le_of_ne ?_ ?_)) hunit
      · have : ((Nat.sqrt ⌊y⌋₊ * Nat.sqrt ⌊y⌋₊ : Nat) : Rat) ≤ y := (by exact_mod_cast hlo : _ ≤ ((⌊y⌋₊ : Nat) : Rat)).trans hfl
        rw [sq]
        exact_mod_cast this
      · intro he
        have hyn : y = ((Nat.sqrt ⌊y⌋₊ * Nat.sqrt ⌊y⌋₊ : Nat) : Rat) := by
          rw [sq] at he
          exact_mod_cast he.symm
        refine h ⟨?_, by rw [hyn]; exact Rat.den_natCast _⟩
        have := congrArg Nat.floor hyn
        rw [Nat.floor_natCast] at this
        exact this.symm
    · refine mul_lt_mul_of_pos_right ?_ hunit
      rw [Real.sqrt_lt' (by positivity)]
      have hs : (⌊y⌋₊ : Rat) + 1 ≤ ((Nat.sqrt ⌊y⌋₊ + 1 : Nat) : Rat) ^ 2 := by
        rw [sq]
        exact_mod_cast hhi
      exact_mod_cast hfl'.trans_le hs

/-! ### Values on the grid -/

/-- A value of F32 is a multiple of its smallest step. -/
theorem exists_mul_of_abs_eq_mag (f : Fmt) {v : Rat} {c : Nat} (h : |v| = f.mag c) : ∃ j : Int, v = j * 2 ^ f.low := by
  obtain ⟨k, u, he, _, hu⟩ := f.mag_eq c
  obtain ⟨n, hn⟩ := zpow_two_eq_nat_mul hu
  rw [he, hn] at h
  rcases abs_choice v with h' | h'
  · exact ⟨k * 2 ^ n, by rw [← h', h]; push_cast; ring⟩
  · refine ⟨-(k * 2 ^ n), ?_⟩
    have : v = -|v| := by rw [h', neg_neg]
    rw [this, h]
    push_cast
    ring

theorem abs_sub_le_abs_sub_iff {K : Type} [Field K] [LinearOrder K] [IsStrictOrderedRing K] {w v p : K} (h : w < v) :
    (|w - p| ≤ |v - p| ↔ p ≤ (w + v) / 2) ∧ (|v - p| ≤ |w - p| ↔ (w + v) / 2 ≤ p) := by
  have hw := abs_cases (w - p)
  have hv := abs_cases (v - p)
  constructor <;> constructor <;> intro h' <;> rcases hw with hw | hw <;> rcases hv with hv | hv <;> linarith [hw.1, hw.2, hv.1, hv.2]

theorem mul_step_eq (i : Int) : (i : Rat) * 2 ^ (-149 : Int) = (i * 2 ^ 21 : Int) * 2 ^ (-170 : Int) := by
  have h21 : (2 : Rat) ^ (-149 : Int) = 2 ^ 21 * 2 ^ (-170 : Int) := by rw [← zpow_natCast, ← zpow_add₀ two_ne_zero]; rfl
  rw [h21]
  push_cast
  ring

namespace SameSide

variable {p : Rat} {y : ℝ} (h : SameSide p y)
include h

theorem on_grid {w : Rat} {j : Int} (hw : w = j * 2 ^ (-170 : Int)) : (w ≤ p ↔ (w : ℝ) ≤ y) ∧ (p ≤ w ↔ y ≤ (w : ℝ)) := by
  have hw' : (w : ℝ) = j * 2 ^ (-170 : Int) := by
    rw [hw]
    push_cast
    rfl
  rw [hw', hw]
  exact h j

theorem le_iff {w : Rat} {i : Int} (hw : w = i * 2 ^ (-149 : Int)) : w ≤ p ↔ (w : ℝ) ≤ y := (h.on_grid (hw.trans (mul_step_eq i))).1

theorem ge_iff {w : Rat} {i : Int} (hw : w = i * 2 ^ (-149 : Int)) : p ≤ w ↔ y ≤ (w : ℝ) := (h.on_grid (hw.trans (mul_step_eq i))).2

theorem eq_iff {w : Rat} {i : Int} (hw : w = i * 2 ^ (-149 : Int)) : w = p ↔ (w : ℝ) = y := by
  rw [le_antisymm_iff, le_antisymm_iff, h.le_iff hw, h.ge_iff hw]

/-- Of two multiples of 2^-149, the same one is the nearer. -/
theorem nearer {w v : Rat} {i k : Int} (hw : w = i * 2 ^ (-149 : Int)) (hv : v = k * 2 ^ (-149 : Int)) (hn : |w - p| ≤ |v - p|) :
    |(w : ℝ) - y| ≤ |(v : ℝ) - y| := by
  have hmid : (w + v) / 2 = ((i + k) * 2 ^ 20 : Int) * 2 ^ (-170 : Int) := by
    rw [hw, hv, mul_step_eq, mul_step_eq]
    push_cast
    ring
  obtain ⟨hle, hge⟩ := h.on_grid hmid
  rw [show (((w + v) / 2 : Rat) : ℝ) = ((w : ℝ) + v) / 2 by push_cast; rfl] at hle hge
  rcases lt_trichotomy w v with hlt | rfl | hlt
  · have hlt' : (w : ℝ) < v := by exact_mod_cast hlt
    rw [(abs_sub_le_abs_sub_iff hlt).1, hge] at hn
    exact (abs_sub_le_abs_sub_iff hlt').1.mpr hn
  · exact le_rfl
  · have hlt' : (v : ℝ) < w := by exact_mod_cast hlt
    rw [(abs_sub_le_abs_sub_iff hlt).2, add_comm, hle, add_comm] at hn
    exact (abs_sub_le_abs_sub_iff hlt').2.mpr hn

end SameSide

end Sys2Proof.Machine
end

section
/-! PROOFS. The fixed-point series of the special functions (06 R183, log 20): each lies within a small number of units of 2^-440 of the
real series that it cuts off. -/

namespace Sys2Proof.Machine

open Sys2Proof

-- Proofs are elaborated one after another: the whole text is compiled in one process of bounded memory.
set_option Elab.async false

/-! ### Series -/

/-- What is left of a series after N terms whose successors shrink by half. -/
theorem abs_hasSum_sub_sum_le {f : ℕ → ℝ} {s C : ℝ} (hf : HasSum f s) (N : ℕ) (hC : ∀ j, |f (j + N)| ≤ C * (1 / 2) ^ j) :
    |(∑ j ∈ Finset.range N, f j) - s| ≤ 2 * C := by
  have h := norm_sub_le_of_geometric_bound_of_hasSum (r := 1 / 2) (by norm_num) (by simpa [Real.norm_eq_abs] using hC)
    ((hasSum_nat_add_iff' N).mpr hf) 0
  rw [Finset.sum_range_zero, zero_sub, norm_neg, Real.norm_eq_abs, abs_sub_comm] at h
  exact h.trans_eq (by norm_num; ring)

/-- A recursive sum in fixed point whose terms follow the terms of a real series within a bound: the sums differ by at most that bound for each
term. -/
theorem abs_fixedSum_sub_le {α : Type} {val : α → ℝ} {S : ℕ → α → ℕ → ℝ} {out : α → ℕ → ℝ} {next : α → ℕ → α}
    {σ : ℝ} (hσ : |σ| = 1)
    {T A : ℕ → ℝ} {E F : ℝ} (h0 : ∀ t i, S 0 t i = 0) (hs : ∀ n t i, S (n + 1) t i = out t i + σ * S n (next t i) (i + 1))
    (hout : ∀ t i, |val t - T i| ≤ E → |out t i - A i| ≤ F) (hnext : ∀ t i, |val t - T i| ≤ E → |val (next t i) - T (i + 1)| ≤ E) :
    ∀ (n : ℕ) (t : α) (i : ℕ), |val t - T i| ≤ E → |S n t i - ∑ j ∈ Finset.range n, σ ^ j * A (i + j)| ≤ n * F := by
  intro n
  induction n with
  | zero => intro t i _; simp [h0]
  | succ n ih =>
    intro t i ht
    have h1 := hout t i ht
    have h2 := ih (next t i) (i + 1) (hnext t i ht)
    have hsum : ∑ j ∈ Finset.range (n + 1), σ ^ j * A (i + j) = A i + σ * ∑ j ∈ Finset.range n, σ ^ j * A (i + 1 + j) := by
      rw [Finset.sum_range_succ', Finset.mul_sum, add_comm]
      congr 1
      · simp
      · exact Finset.sum_congr rfl fun j _ => by rw [pow_succ, show i + 1 + j = i + (j + 1) by ring]; ring
    rw [hs, hsum, show ∀ a b c d : ℝ, a + σ * b - (c + σ * d) = (a - c) + σ * (b - d) from fun a b c d => by ring]
    refine (abs_add_le _ _).trans ?_
    rw [abs_mul, hσ, one_mul]
    push_cast
    linarith

/-- A recursive sum in fixed point, and the real series that its terms follow. -/
theorem abs_fixedSum_sub_hasSum_le {α : Type} {val : α → ℝ} {S : ℕ → α → ℕ → ℝ} {out : α → ℕ → ℝ} {next : α → ℕ → α}
    {σ : ℝ} (hσ : |σ| = 1)
    {T A : ℕ → ℝ} {E F s C : ℝ} {N : ℕ} (h0 : ∀ t i, S 0 t i = 0) (hs : ∀ n t i, S (n + 1) t i = out t i + σ * S n (next t i) (i + 1))
    (hsum : HasSum (fun j => σ ^ j * A j) s) (hout : ∀ t i, |val t - T i| ≤ E → |out t i - A i| ≤ F)
    (hnext : ∀ t i, |val t - T i| ≤ E → |val (next t i) - T (i + 1)| ≤ E) (hC : ∀ j, |A (j + N)| ≤ C * (1 / 2) ^ j)
    {t : α} (ht : |val t - T 0| ≤ E) : |S N t 0 - s| ≤ N * F + 2 * C := by
  have h1 := abs_fixedSum_sub_le hσ h0 hs hout hnext N t 0 ht
  simp only [zero_add] at h1
  have h2 := abs_hasSum_sub_sum_le hsum N (C := C) fun j => by
    rw [abs_mul, abs_pow, hσ, one_pow, one_mul]
    exact hC j
  exact (abs_sub_le _ _ _).trans (add_le_add h1 h2)

/-! ### Divisions in fixed point -/

/-- The unit of the fixed-point values. -/
@[irreducible] noncomputable def fixOne : ℝ := 2 ^ fixP

theorem natCast_two_pow_fixP : ((2 ^ fixP : ℕ) : ℝ) = fixOne := by
  rw [fixOne, Nat.cast_pow, Nat.cast_ofNat]

theorem two_pow_le_fixOne {n : ℕ} (h : n ≤ 440) : (2 : ℝ) ^ n ≤ fixOne := by
  rw [fixOne]
  exact pow_le_pow_right₀ one_le_two h

theorem fixOne_le_two_pow {n : ℕ} (h : 440 ≤ n) : fixOne ≤ (2 : ℝ) ^ n := by
  rw [fixOne]
  exact pow_le_pow_right₀ one_le_two h

theorem fixOne_pos : 0 < fixOne := (pow_pos two_pos 0).trans_le (two_pow_le_fixOne (Nat.zero_le _))

theorem abs_natDiv_sub_le (a : ℕ) {b : ℕ} (hb : 0 < b) : |((a / b : ℕ) : ℝ) - (a : ℝ) / b| ≤ 1 := by
  rw [← Nat.floor_div_eq_div (K := ℝ), abs_sub_comm, abs_of_nonneg (sub_nonneg.mpr (Nat.floor_le (by positivity)))]
  linarith [Nat.lt_floor_add_one ((a : ℝ) / b)]

theorem abs_intDiv_sub_le (a : ℤ) {b : ℕ} (hb : 0 < b) : |((a / (b : ℤ) : ℤ) : ℝ) - (a : ℝ) / b| ≤ 1 := by
  have hb' : (0 : ℝ) < b := by exact_mod_cast hb
  have h := Int.emod_add_mul_ediv a b
  have h1 := Int.emod_nonneg a (Int.natCast_ne_zero.mpr hb.ne')
  have h2 := Int.emod_lt_of_pos a (Int.natCast_pos.mpr hb)
  have hq : (a : ℝ) = (a % (b : ℤ) : ℤ) + b * (a / (b : ℤ) : ℤ) := by exact_mod_cast h.symm
  have h1' : (0 : ℝ) ≤ (a % (b : ℤ) : ℤ) := by exact_mod_cast h1
  have h2' : ((a % (b : ℤ) : ℤ) : ℝ) < b := by exact_mod_cast h2
  rw [hq, add_div, mul_div_cancel_left₀ _ hb'.ne', show ∀ x y : ℝ, y - (x + y) = -x from fun x y => by ring, abs_neg,
    abs_of_nonneg (by positivity), div_le_one hb']
  exact h2'.le

/-- An error stays bounded under a division by an integer. -/
theorem abs_div_sub_div_le {x y c E : ℝ} (hc : 1 ≤ c) (h : |x - y| ≤ E) : |x / c - y / c| ≤ E := by
  rw [← sub_div, abs_div, abs_of_pos (by linarith : 0 < c)]
  exact (div_le_self (abs_nonneg _) hc).trans h

/-! ### The arctangent of 1/k -/

theorem abs_atanInv_sub_le {k N : ℕ} (hk : 2 ≤ k) (hN : fixOne ≤ (k : ℝ) ^ (2 * N + 1)) :
    |(atanInv k N (2 ^ fixP / k) 0 : ℝ) - fixOne * Real.arctan (1 / k)| ≤ N * 3 + 2 * 1 := by
  have hk' : (2 : ℝ) ≤ k := by exact_mod_cast hk
  have hk0 : (0 : ℝ) < k := by linarith
  let T : ℕ → ℝ := fun i => fixOne * (1 / k) ^ (2 * i + 1)
  refine abs_fixedSum_sub_hasSum_le (val := fun t : ℕ => (t : ℝ)) (S := fun n t i => (atanInv k n t i : ℝ))
    (out := fun t i => ((t / (2 * i + 1) : ℕ) : ℝ)) (next := fun t _ => t / (k * k)) (σ := -1) (by simp) (T := T)
    (A := fun i => T i / ((2 * i + 1 : ℕ) : ℝ)) (E := 2) (fun t i => ?_) (fun n t i => ?_) ?_ (fun t i h => ?_) (fun t i h => ?_) (fun j => ?_) ?_
  · rw [atanInv, Int.cast_zero]
  · rw [atanInv, Int.cast_sub, Int.cast_natCast]
    ring
  · have h := (Real.hasSum_arctan (x := 1 / k) (by
      rw [Real.norm_eq_abs, abs_of_pos (by positivity), div_lt_one hk0]; linarith)).mul_left fixOne
    convert! h using 2 with j
    simp only [T]
    ring
  · have h1 := abs_natDiv_sub_le t (b := 2 * i + 1) (by omega)
    have h2 := abs_div_sub_div_le (c := ((2 * i + 1 : ℕ) : ℝ)) (by exact_mod_cast (by omega : 1 ≤ 2 * i + 1)) h
    exact (abs_sub_le _ _ _).trans ((add_le_add h1 h2).trans (by norm_num))
  · have h1 := abs_natDiv_sub_le t (b := k * k) (by positivity)
    have h2 : |(t : ℝ) / (k * k : ℕ) - T i / (k * k : ℕ)| ≤ 1 := by
      rw [← sub_div, abs_div, abs_of_pos (by positivity : (0 : ℝ) < (k * k : ℕ)), div_le_one (by positivity)]
      push_cast
      nlinarith
    rw [show T i / (k * k : ℕ) = T (i + 1) by simp only [T]; push_cast; ring] at h2
    exact (abs_sub_le _ _ _).trans ((add_le_add h1 h2).trans (by norm_num))
  · have hpos : 0 < T (j + N) := mul_pos fixOne_pos (by positivity)
    rw [abs_of_pos (div_pos hpos (Nat.cast_pos.mpr (Nat.succ_pos _))), one_mul]
    refine (div_le_self hpos.le (by exact_mod_cast (by omega : 1 ≤ 2 * (j + N) + 1))).trans ?_
    have hhead : fixOne * (1 / k) ^ (2 * N + 1) ≤ 1 := by
      rw [one_div, inv_pow, ← div_eq_mul_inv, div_le_one (by positivity)]
      exact hN
    calc T (j + N) = fixOne * (1 / k) ^ (2 * N + 1) * ((1 / k) ^ 2) ^ j := by simp only [T]; ring
      _ ≤ 1 * (1 / 2) ^ j := by
        refine mul_le_mul hhead (pow_le_pow_left₀ (by positivity) ?_ j) (by positivity) zero_le_one
        rw [div_pow, one_pow, div_le_div_iff₀ (by positivity) two_pos]
        nlinarith
      _ = _ := one_mul _
  · have h1 := abs_natDiv_sub_le (2 ^ fixP) (b := k) (by omega)
    rw [natCast_two_pow_fixP] at h1
    simp only [T, mul_zero, zero_add, pow_one, mul_one_div]
    exact h1.trans one_le_two

/-- π by Machin's formula. -/
theorem abs_piFix_sub_le : |(piFix : ℝ) - fixOne * Real.pi| ≤ 5800 := by
  have h5 := abs_atanInv_sub_le (k := 5) (N := 110) (by norm_num) (by
    calc fixOne ≤ (2 ^ 2) ^ 220 := by rw [← pow_mul]; exact fixOne_le_two_pow (by norm_num)
      _ ≤ 5 ^ 220 := pow_le_pow_left₀ (by norm_num) (by norm_num) _
      _ ≤ _ := by exact_mod_cast Nat.pow_le_pow_right (by norm_num : 0 < 5) (by norm_num))
  have h239 := abs_atanInv_sub_le (k := 239) (N := 40) (by norm_num) (by
    calc fixOne ≤ (2 ^ 7) ^ 63 := by rw [← pow_mul]; exact fixOne_le_two_pow (by norm_num)
      _ ≤ 239 ^ 63 := pow_le_pow_left₀ (by norm_num) (by norm_num) _
      _ ≤ _ := by exact_mod_cast Nat.pow_le_pow_right (by norm_num : 0 < 239) (by norm_num))
  have hpi := Real.four_mul_arctan_inv_5_sub_arctan_inv_239
  have hfix : (piFix : ℝ) = 16 * (atanInv 5 110 (2 ^ fixP / 5) 0 : ℝ) - 4 * (atanInv 239 40 (2 ^ fixP / 239) 0 : ℝ) := by
    rw [piFix]
    push_cast
    rfl
  simp only [one_div, Nat.cast_ofNat] at h5 h239
  generalize (atanInv 5 110 (2 ^ fixP / 5) 0 : ℝ) = a at *
  generalize (atanInv 239 40 (2 ^ fixP / 239) 0 : ℝ) = b at *
  have hsplit : (piFix : ℝ) - fixOne * Real.pi = 16 * (a - fixOne * Real.arctan 5⁻¹) - 4 * (b - fixOne * Real.arctan 239⁻¹) := by
    rw [hfix, show Real.pi = 4 * (4 * Real.arctan 5⁻¹ - Real.arctan 239⁻¹) by linarith]
    ring
  rw [abs_le] at h5 h239
  rw [hsplit, abs_le]
  constructor <;> linarith [h5.1, h5.2, h239.1, h239.2]

/-! ### Logarithms -/

/-- Twice the atanh series of z is the logarithm of (1 + z) ÷ (1 − z). -/
theorem abs_atanhSeries_sub_le {z : ℝ} {z2 t : ℕ} (h0 : 0 ≤ z) (hz : z ≤ 1 / 3) (hz2 : |(z2 : ℝ) - fixOne * z ^ 2| ≤ 2)
    (ht : |(t : ℝ) - fixOne * z| ≤ 1) :
    |((2 * atanhSeries z2 150 t 0 : ℕ) : ℝ) - fixOne * (Real.log (1 + z) - Real.log (1 - z))| ≤ 1504 := by
  have hone := fixOne_pos
  have hbig : (16 : ℝ) ≤ fixOne := le_trans (by norm_num) (two_pow_le_fixOne (n := 4) (by norm_num))
  have hzsq : z ^ 2 ≤ 1 / 9 := by nlinarith
  let T : ℕ → ℝ := fun i => fixOne * z ^ (2 * i + 1)
  have hT0 : ∀ i, 0 ≤ T i := fun i => mul_nonneg hone.le (by positivity)
  have hT1 : ∀ i, T i ≤ fixOne / 3 := fun i => by
    have : z ^ (2 * i + 1) ≤ 1 / 3 := (pow_le_of_le_one h0 (by linarith) (by omega)).trans hz
    exact (mul_le_mul_of_nonneg_left this hone.le).trans_eq (mul_one_div _ _)
  have hmain : |(atanhSeries z2 150 t 0 : ℝ) - fixOne * ((Real.log (1 + z) - Real.log (1 - z)) / 2)| ≤ (150 : ℕ) * 5 + 2 * 1 := by
    refine abs_fixedSum_sub_hasSum_le (val := fun t : ℕ => (t : ℝ)) (S := fun n t i => (atanhSeries z2 n t i : ℝ))
      (out := fun t i => ((t / (2 * i + 1) : ℕ) : ℝ)) (next := fun t _ => t * z2 / 2 ^ fixP) (σ := 1) abs_one (T := T)
      (A := fun i => T i / ((2 * i + 1 : ℕ) : ℝ)) (E := 4) (fun t i => ?_) (fun n t i => ?_) ?_ (fun t i h => ?_) (fun t i h => ?_)
      (fun j => ?_) ?_
    · rw [atanhSeries, Nat.cast_zero]
    · rw [atanhSeries, Nat.cast_add, one_mul]
    · have h := (Real.hasSum_log_sub_log_of_abs_lt_one (x := z) (by rw [abs_of_nonneg h0]; linarith)).div_const 2 |>.mul_left fixOne
      convert! h using 2 with j
      simp only [T, one_pow, one_mul]
      push_cast
      ring
    · have h1 := abs_natDiv_sub_le t (b := 2 * i + 1) (by omega)
      have h2 := abs_div_sub_div_le (c := ((2 * i + 1 : ℕ) : ℝ)) (by exact_mod_cast (by omega : 1 ≤ 2 * i + 1)) h
      exact (abs_sub_le _ _ _).trans ((add_le_add h1 h2).trans (by norm_num))
    · have h1 := abs_natDiv_sub_le (t * z2) (b := 2 ^ fixP) (by positivity)
      rw [natCast_two_pow_fixP, Nat.cast_mul] at h1
      have hnext : T (i + 1) = T i * z ^ 2 := by simp only [T]; ring
      have h2 : |(t : ℝ) * z2 / fixOne - T (i + 1)| ≤ 3 := by
        have hsplit : (t : ℝ) * z2 / fixOne - T (i + 1) = t * (z2 - fixOne * z ^ 2) / fixOne + (t - T i) * z ^ 2 := by
          rw [hnext]
          field_simp
          ring
        have ht' : (t : ℝ) ≤ fixOne := by
          have := (abs_le.mp h).2
          have := hT1 i
          linarith
        rw [hsplit]
        refine (abs_add_le _ _).trans ((add_le_add (b := 2) (d := 1) ?_ ?_).trans (by norm_num))
        · rw [abs_div, abs_mul, abs_of_pos hone, div_le_iff₀ hone, Nat.abs_cast]
          nlinarith [abs_nonneg ((z2 : ℝ) - fixOne * z ^ 2), (Nat.cast_nonneg t : (0 : ℝ) ≤ t)]
        · rw [abs_mul, abs_of_nonneg (sq_nonneg z)]
          nlinarith [abs_nonneg ((t : ℝ) - T i)]
      exact (abs_sub_le _ _ _).trans ((add_le_add h1 h2).trans (by norm_num))
    · rw [abs_of_nonneg (div_nonneg (hT0 _) (Nat.cast_nonneg _)), one_mul]
      refine (div_le_self (hT0 _) (by exact_mod_cast (by omega : 1 ≤ 2 * (j + 150) + 1))).trans ?_
      have hinv : ∀ n : ℕ, (3 : ℝ) ^ n * (1 / 3) ^ n = 1 := fun n => by rw [← mul_pow, mul_one_div_cancel three_ne_zero, one_pow]
      have hhead : fixOne * z ^ (2 * 150 + 1) ≤ 1 := by
        have h3 : fixOne ≤ 3 ^ (2 * 150 + 1) := by
          calc fixOne ≤ (2 ^ 3) ^ 150 := by rw [← pow_mul]; exact fixOne_le_two_pow (by norm_num)
            _ ≤ (3 ^ 2) ^ 150 := pow_le_pow_left₀ (by norm_num) (by norm_num) _
            _ ≤ 3 ^ (2 * 150 + 1) := by rw [← pow_mul]; exact pow_le_pow_right₀ (by norm_num) (by norm_num)
        calc fixOne * z ^ (2 * 150 + 1) ≤ 3 ^ (2 * 150 + 1) * (1 / 3) ^ (2 * 150 + 1) :=
              mul_le_mul h3 (pow_le_pow_left₀ h0 hz _) (pow_nonneg h0 _) (pow_nonneg three_pos.le _)
          _ = 1 := hinv _
      calc T (j + 150) = fixOne * z ^ (2 * 150 + 1) * (z ^ 2) ^ j := by simp only [T]; ring
        _ ≤ 1 * (1 / 2) ^ j := mul_le_mul hhead (pow_le_pow_left₀ (by positivity) (by linarith) j) (by positivity) zero_le_one
        _ = _ := one_mul _
    · simp only [T, mul_zero, zero_add, pow_one]
      exact ht.trans (by norm_num)
  push_cast
  rw [show ∀ a b c : ℝ, 2 * a - b * c = 2 * (a - b * (c / 2)) from fun a b c => by ring, abs_mul, abs_two]
  exact (mul_le_mul_of_nonneg_left hmain two_pos.le).trans (by norm_num)

/-- ln 2. -/
theorem abs_ln2Fix_sub_le : |(ln2Fix : ℝ) - fixOne * Real.log 2| ≤ 1504 := by
  have hlog : Real.log (1 + 1 / 3) - Real.log (1 - 1 / 3) = Real.log 2 := by
    rw [← Real.log_div (by norm_num) (by norm_num)]
    norm_num
  rw [← hlog]
  refine abs_atanhSeries_sub_le (by norm_num) le_rfl ?_ ?_
  · have h := abs_natDiv_sub_le (2 ^ fixP) (b := 9) (by norm_num)
    rw [natCast_two_pow_fixP] at h
    rw [show fixOne * (1 / 3 : ℝ) ^ 2 = fixOne / (9 : ℕ) by norm_num; ring]
    exact h.trans one_le_two
  · have h := abs_natDiv_sub_le (2 ^ fixP) (b := 3) (by norm_num)
    rw [natCast_two_pow_fixP] at h
    rw [show fixOne * (1 / 3 : ℝ) = fixOne / (3 : ℕ) by norm_num; ring]
    exact h

/-! ### Exponentials and trigonometric functions -/

theorem fixOne_mul_two_pow_le_factorial {j n : ℕ} (h : 110 + j ≤ n) : fixOne * 2 ^ j ≤ (n.factorial : ℝ) := by
  have h63 : 2 ^ 158 ≤ Nat.factorial 63 := by norm_num [Nat.factorial]
  have hpow : 2 ^ (6 * 47) * 2 ^ j ≤ 64 ^ (47 + j) := by
    rw [pow_add, show 64 = 2 ^ 6 from rfl, ← pow_mul]
    exact Nat.mul_le_mul_left _ (Nat.pow_le_pow_left (by norm_num) j)
  have hfac : 2 ^ fixP * 2 ^ j ≤ n.factorial := by
    calc 2 ^ fixP * 2 ^ j = 2 ^ 158 * (2 ^ (6 * 47) * 2 ^ j) := by rw [← mul_assoc, ← pow_add 2 158, show 158 + 6 * 47 = fixP from rfl]
      _ ≤ Nat.factorial 63 * 64 ^ (47 + j) := Nat.mul_le_mul h63 hpow
      _ ≤ (63 + (47 + j)).factorial := Nat.factorial_mul_pow_le_factorial
      _ ≤ n.factorial := Nat.factorial_le (by omega)
  rw [← natCast_two_pow_fixP]
  exact_mod_cast hfac

theorem abs_expSeries_sub_le {a : ℝ} {y : ℕ} (h0 : 0 ≤ a) (ha : a ≤ 7 / 10) (hy : |(y : ℝ) - fixOne * a| ≤ 1507) :
    |(expSeries y 110 (2 ^ fixP) 0 : ℝ) - fixOne * Real.exp a| ≤ (110 : ℕ) * 2 ^ 14 + 2 * 1 := by
  have hone := fixOne_pos
  have hbig : (2 : ℝ) ^ 20 ≤ fixOne := two_pow_le_fixOne (by norm_num)
  let T : ℕ → ℝ := fun i => fixOne * (a ^ i / (i.factorial : ℝ))
  have hT0 : ∀ i, 0 ≤ T i := fun i => mul_nonneg hone.le (by positivity)
  have hpow : ∀ i : ℕ, a ^ i ≤ 1 := fun i => pow_le_one₀ h0 (by linarith)
  have hT1 : ∀ i, T i ≤ fixOne := fun i => by
    have hfac : (1 : ℝ) ≤ i.factorial := by exact_mod_cast i.factorial_pos
    exact mul_le_of_le_one_right hone.le ((div_le_one (by linarith)).mpr ((hpow i).trans hfac))
  refine abs_fixedSum_sub_hasSum_le (val := fun t : ℕ => (t : ℝ)) (S := fun n t i => (expSeries y n t i : ℝ))
    (out := fun t _ => (t : ℝ)) (next := fun t i => t * y / 2 ^ fixP / (i + 1)) (σ := 1) abs_one (T := T) (A := T) (E := 2 ^ 14)
    (fun t i => ?_) (fun n t i => ?_) ?_ (fun t i h => h) (fun t i h => ?_) (fun j => ?_) ?_
  · rw [expSeries, Nat.cast_zero]
  · rw [expSeries, Nat.cast_add, one_mul]
  · have h := (NormedSpace.expSeries_div_hasSum_exp a).mul_left fixOne
    rw [← Real.exp_eq_exp_ℝ] at h
    simpa only [one_pow, one_mul] using h
  · have h1 := abs_natDiv_sub_le (t * y) (b := 2 ^ fixP) (by positivity)
    rw [natCast_two_pow_fixP, Nat.cast_mul] at h1
    have h2 := abs_natDiv_sub_le (t * y / 2 ^ fixP) (b := i + 1) (Nat.succ_pos i)
    have hnext : T (i + 1) = T i * a / ((i + 1 : ℕ) : ℝ) := by
      simp only [T, Nat.factorial_succ, pow_succ]
      push_cast
      field_simp
    have h3 : |(t : ℝ) * y / fixOne - T i * a| ≤ 3014 + 7 / 10 * 2 ^ 14 := by
      have hsplit : (t : ℝ) * y / fixOne - T i * a = t * (y - fixOne * a) / fixOne + (t - T i) * a := by
        field_simp
        ring
      have ht' : (t : ℝ) ≤ 2 * fixOne := by
        have := (abs_le.mp h).2
        have := hT1 i
        linarith
      rw [hsplit]
      refine (abs_add_le _ _).trans (add_le_add ?_ ?_)
      · rw [abs_div, abs_mul, abs_of_pos hone, div_le_iff₀ hone, Nat.abs_cast]
        nlinarith [abs_nonneg ((y : ℝ) - fixOne * a), (Nat.cast_nonneg t : (0 : ℝ) ≤ t)]
      · rw [abs_mul, abs_of_nonneg h0]
        nlinarith [abs_nonneg ((t : ℝ) - T i)]
    have h4 := abs_div_sub_div_le (c := ((i + 1 : ℕ) : ℝ)) (by exact_mod_cast Nat.succ_le_succ (Nat.zero_le i))
      ((abs_sub_le _ _ _).trans (add_le_add h1 h3))
    rw [hnext]
    exact (abs_sub_le _ _ _).trans ((add_le_add h2 h4).trans (by norm_num))
  · rw [abs_of_nonneg (hT0 _), one_mul]
    have hfac := fixOne_mul_two_pow_le_factorial (j := j) (n := j + 110) (by omega)
    have hfac0 : (0 : ℝ) < (j + 110).factorial := by exact_mod_cast Nat.factorial_pos _
    rw [one_div, inv_pow, ← one_div, le_div_iff₀ (by positivity)]
    calc T (j + 110) * 2 ^ j = fixOne * 2 ^ j * a ^ (j + 110) / (j + 110).factorial := by simp only [T]; ring
      _ ≤ 1 := by
        rw [div_le_one hfac0]
        exact (mul_le_of_le_one_right (by positivity) (hpow _)).trans hfac
  · simp only [T, Nat.factorial_zero, Nat.cast_one, pow_zero, div_one, mul_one]
    rw [natCast_two_pow_fixP, sub_self, abs_zero]
    positivity

section
variable {r : ℤ} (hr : |(r : ℝ)| ≤ fixOne)
include hr

/-- The series of sine (s = 1) and cosine (s = 0). -/
theorem abs_trigSeries_sub_le (s : ℕ) {t : ℤ} {v : ℝ} (ht : (t : ℝ) = fixOne * ((r / fixOne) ^ s / (s.factorial : ℝ)))
    (hsum : HasSum (fun j => (-1 : ℝ) ^ j * (r / fixOne) ^ (2 * j + s) / ((2 * j + s).factorial : ℝ)) v) :
    |(trigSeries r 60 t s : ℝ) - fixOne * v| ≤ (60 : ℕ) * 4 + 2 * 1 := by
  have hone := fixOne_pos
  have hρ : |(r : ℝ) / fixOne| ≤ 1 := by rwa [abs_div, abs_of_pos hone, div_le_one hone]
  generalize hρr : (r : ℝ) / fixOne = ρ at *
  have hrρ : (r : ℝ) = ρ * fixOne := by rw [← hρr, div_mul_cancel₀ _ hone.ne']
  let T : ℕ → ℝ := fun i => fixOne * (ρ ^ (2 * i + s) / ((2 * i + s).factorial : ℝ))
  have hmain := abs_fixedSum_sub_hasSum_le (val := fun t : ℤ => (t : ℝ)) (S := fun n t i => (trigSeries r n t (2 * i + s) : ℝ))
    (out := fun t _ => (t : ℝ)) (next := fun t i => t * r / 2 ^ fixP * r / 2 ^ fixP / (((2 * i + s : ℕ) + 1) * ((2 * i + s : ℕ) + 2))) (σ := -1)
    (by simp) (T := T) (A := T) (E := 4) (F := 4) (s := fixOne * v) (C := 1) (N := 60) (t := t)
    (fun t i => ?_) (fun n t i => ?_) ?_ (fun t i h => h) (fun t i h => ?_) (fun j => ?_) ?_
  · rwa [Nat.mul_zero, Nat.zero_add] at hmain
  · rw [trigSeries, Int.cast_zero]
  · rw [trigSeries, Int.cast_sub, show 2 * (i + 1) + s = 2 * i + s + 2 by ring]
    ring
  · have h := hsum.mul_left fixOne
    convert! h using 2 with j
    simp only [T]
    ring
  · have h1 := abs_intDiv_sub_le (t * r) (b := 2 ^ fixP) (by positivity)
    have h2 := abs_intDiv_sub_le (t * r / (2 ^ fixP : ℕ) * r) (b := 2 ^ fixP) (by positivity)
    have h3 := abs_intDiv_sub_le (t * r / (2 ^ fixP : ℕ) * r / (2 ^ fixP : ℕ)) (b := (2 * i + s + 1) * (2 * i + s + 2)) (by positivity)
    rw [natCast_two_pow_fixP, Int.cast_mul, hrρ, mul_div_assoc, mul_div_cancel_right₀ _ hone.ne'] at h1 h2
    generalize hq1 : t * r / (2 ^ fixP : ℕ) = q1 at *
    generalize hq2 : q1 * r / (2 ^ fixP : ℕ) = q2 at *
    have hc : (2 : ℝ) ≤ (((2 * i + s + 1) * (2 * i + s + 2) : ℕ) : ℝ) := by
      exact_mod_cast (by nlinarith [Nat.zero_le (2 * i + s)] : 2 ≤ (2 * i + s + 1) * (2 * i + s + 2))
    have hnext : T (i + 1) = T i * ρ * ρ / (((2 * i + s + 1) * (2 * i + s + 2) : ℕ) : ℝ) := by
      simp only [T, show 2 * (i + 1) + s = 2 * i + s + 1 + 1 by ring, Nat.factorial_succ, pow_succ]
      push_cast
      field_simp
      ring
    have hstep : ∀ {x y : ℝ} {e : ℝ}, |x - y| ≤ e → |x * ρ - y * ρ| ≤ e := fun {x y e} h => by
      rw [← sub_mul, abs_mul]
      exact (mul_le_of_le_one_right (abs_nonneg _) hρ).trans h
    have h4 : |(q2 : ℝ) - T i * ρ * ρ| ≤ 1 + (1 + 4) :=
      (abs_sub_le _ _ _).trans (add_le_add h2 (hstep ((abs_sub_le _ _ _).trans (add_le_add h1 (hstep h)))))
    have h5 : |(q2 : ℝ) / (((2 * i + s + 1) * (2 * i + s + 2) : ℕ) : ℝ) - T (i + 1)| ≤ 3 := by
      have hc0 := two_pos.trans_le hc
      rw [hnext, ← sub_div, abs_div, abs_of_pos hc0, div_le_iff₀ hc0]
      linarith
    have hq : (t * r / 2 ^ fixP * r / 2 ^ fixP / (((2 * i + s : ℕ) + 1) * ((2 * i + s : ℕ) + 2)) : ℤ) =
        q2 / ((((2 * i + s + 1) * (2 * i + s + 2) : ℕ)) : ℤ) := by
      rw [← hq2, ← hq1]
      push_cast
      rfl
    rw [hq]
    exact (abs_sub_le _ _ _).trans ((add_le_add h3 h5).trans (by norm_num))
  · have hfac := fixOne_mul_two_pow_le_factorial (j := j) (n := 2 * (j + 60) + s) (by omega)
    have hfac0 : (0 : ℝ) < (2 * (j + 60) + s).factorial := by exact_mod_cast Nat.factorial_pos _
    have habs : |T (j + 60)| ≤ fixOne / (2 * (j + 60) + s).factorial := by
      rw [abs_mul, abs_div, abs_of_pos hone, abs_of_pos hfac0, abs_pow, ← mul_div_assoc]
      exact div_le_div_of_nonneg_right (mul_le_of_le_one_right hone.le (pow_le_one₀ (abs_nonneg _) hρ)) hfac0.le
    refine habs.trans ?_
    rw [one_mul, one_div, inv_pow, ← one_div, div_le_div_iff₀ hfac0 (by positivity), one_mul]
    exact hfac
  · simp only [T, mul_zero, zero_add]
    rw [ht, sub_self, abs_zero]
    norm_num

end

end Sys2Proof.Machine
end

section
/-! PROOFS. The rationals that stand for the values of the special functions (06 R183, log 20) lie within 2^-152 of them. -/

namespace Sys2Proof.Machine

open Sys2Proof

-- Proofs are elaborated one after another: the whole text is compiled in one process of bounded memory.
set_option Elab.async false

/-! ### log₂ -/

theorem cast_mul_pow2_fixP (q : Rat) : ((q * pow2 fixP : Rat) : ℝ) = q * fixOne := by
  rw [pow2_eq_zpow, zpow_natCast, ← natCast_two_pow_fixP]
  push_cast
  rfl

theorem cast_mul_pow2_neg_fixP (q : Rat) : ((q * pow2 (-(fixP : Int)) : Rat) : ℝ) = q / fixOne := by
  rw [pow2_eq_zpow, zpow_neg, zpow_natCast, ← natCast_two_pow_fixP]
  push_cast
  rfl

/-- A floor in fixed point. -/
theorem abs_natFloor_sub_le {q : Rat} (h : 0 ≤ q) :
    (((q * pow2 fixP).num.natAbs / (q * pow2 fixP).den : ℕ) : ℝ) ≤ fixOne * q ∧
      fixOne * q < (((q * pow2 fixP).num.natAbs / (q * pow2 fixP).den : ℕ) : ℝ) + 1 := by
  have h0 : 0 ≤ q * pow2 fixP := mul_nonneg h (pow2_eq_zpow _ ▸ (zpow_two_pos _).le)
  rw [num_natAbs_div_den_eq_floor h0, mul_comm fixOne, ← cast_mul_pow2_fixP]
  exact ⟨by exact_mod_cast Nat.floor_le h0, by exact_mod_cast Nat.lt_floor_add_one _⟩

/-- The bounds of ln 2 that the estimates use. -/
theorem log_two_bounds : (1 : ℝ) / 2 ≤ Real.log 2 ∧ Real.log 2 ≤ 7 / 10 :=
  ⟨by linarith [Real.log_two_gt_d9], by linarith [Real.log_two_lt_d9]⟩

theorem ln2Fix_bounds : fixOne / 4 ≤ (ln2Fix : ℝ) ∧ (ln2Fix : ℝ) ≤ fixOne := by
  have h := abs_le.mp abs_ln2Fix_sub_le
  have hbig : (2 : ℝ) ^ 20 ≤ fixOne := two_pow_le_fixOne (by norm_num)
  obtain ⟨h1, h2⟩ := log_two_bounds
  constructor <;> nlinarith

/-- A quotient of two logarithms in fixed point. -/
theorem abs_fixedQuot_sub_le {l : ℕ} {L : ℝ} (h0 : 0 ≤ L) (hL : L ≤ Real.log 2) (h : |(l : ℝ) - fixOne * L| ≤ 1504) :
    |((l * 2 ^ fixP / ln2Fix : ℕ) : ℝ) / fixOne - L / Real.log 2| ≤ 2 ^ 14 / fixOne := by
  have hone := fixOne_pos
  obtain ⟨hd1, _⟩ := ln2Fix_bounds
  have hd := abs_ln2Fix_sub_le
  have hd0 : (0 : ℝ) < ln2Fix := by linarith
  have hlog : 0 < Real.log 2 := by linarith [log_two_bounds.1]
  have h1 := abs_natDiv_sub_le (l * 2 ^ fixP) (b := ln2Fix) (by exact_mod_cast hd0)
  rw [Nat.cast_mul, natCast_two_pow_fixP] at h1
  generalize (ln2Fix : ℝ) = D at *
  have h2 : |(l : ℝ) * fixOne / D - fixOne * (L / Real.log 2)| ≤ 12032 := by
    rw [show (l : ℝ) * fixOne / D - fixOne * (L / Real.log 2) =
        fixOne * ((l - fixOne * L) * Real.log 2 - L * (D - fixOne * Real.log 2)) / (D * Real.log 2) by field_simp; ring,
      abs_div, abs_mul, abs_of_pos hone, abs_of_pos (mul_pos hd0 hlog), div_le_iff₀ (mul_pos hd0 hlog)]
    have hnum : |(l - fixOne * L) * Real.log 2 - L * (D - fixOne * Real.log 2)| ≤ 1504 * Real.log 2 + 1504 * Real.log 2 := by
      refine (abs_sub _ _).trans (add_le_add ?_ ?_)
      · rw [abs_mul, abs_of_pos hlog]
        exact mul_le_mul_of_nonneg_right h hlog.le
      · rw [abs_mul, abs_of_nonneg h0, mul_comm]
        exact mul_le_mul hd hL h0 (by norm_num)
    nlinarith [mul_le_mul_of_nonneg_left hnum hone.le]
  have h3 := (abs_sub_le _ _ _).trans (add_le_add h1 h2)
  rw [show ∀ a b : ℝ, a / fixOne - b = (a - fixOne * b) / fixOne from fun a b => by field_simp, abs_div, abs_of_pos hone]
  exact div_le_div_of_nonneg_right (h3.trans (by norm_num)) hone.le

theorem abs_log2Rep_sub_le {x : Rat} (hx : 0 < x) : |(log2Rep x : ℝ) - Real.logb 2 x| ≤ 2 ^ 14 / fixOne := by
  have hone := fixOne_pos
  have hbig : (2 : ℝ) ^ 20 ≤ fixOne := two_pow_le_fixOne (by norm_num)
  obtain ⟨hlo, hhi⟩ := ilog2_bounds hx
  have hm1 : 1 ≤ x * 2 ^ (-ilog2 x) := by
    rw [zpow_neg, ← div_eq_mul_inv, le_div_iff₀ (zpow_two_pos _), one_mul]
    exact hlo
  have hm2 : x * 2 ^ (-ilog2 x) ≤ 2 := by
    rw [zpow_neg, ← div_eq_mul_inv, div_le_iff₀ (zpow_two_pos _), ← zpow_two_add_one]
    exact hhi.le
  have hxm : Real.logb 2 x = ilog2 x + Real.log ((x * 2 ^ (-ilog2 x) : Rat) : ℝ) / Real.log 2 := by
    have hxr : (x : ℝ) = 2 ^ ilog2 x * ((x * 2 ^ (-ilog2 x) : Rat) : ℝ) := by
      push_cast
      rw [zpow_neg]
      field_simp
    have hm0 : ((x * 2 ^ (-ilog2 x) : Rat) : ℝ) ≠ 0 := by exact_mod_cast (by linarith : (0 : Rat) < x * 2 ^ (-ilog2 x)).ne'
    rw [Real.logb, hxr, Real.log_mul (by positivity) hm0, Real.log_zpow, add_div, mul_div_assoc, div_self (by linarith [log_two_bounds.1]), mul_one]
  simp only [log2Rep]
  rw [hxm, pow2_eq_zpow (-ilog2 x)]
  generalize x * 2 ^ (-ilog2 x) = m at hm1 hm2
  split_ifs with h1
  · rw [h1]
    simp
    positivity
  · have hz0 : 0 ≤ (m - 1) / (m + 1) := div_nonneg (by linarith) (by linarith)
    have hz1 : (m - 1) / (m + 1) ≤ 1 / 3 := by rw [div_le_div_iff₀ (by linarith) (by norm_num)]; linarith
    have hm1' : (1 : ℝ) ≤ m := by exact_mod_cast hm1
    have hm2' : (m : ℝ) ≤ 2 := by exact_mod_cast hm2
    obtain ⟨hf1, hf2⟩ := abs_natFloor_sub_le hz0
    have hlog : Real.log (1 + (((m - 1) / (m + 1) : Rat) : ℝ)) - Real.log (1 - (((m - 1) / (m + 1) : Rat) : ℝ)) = Real.log m := by
      have ha : 1 + (((m - 1) / (m + 1) : Rat) : ℝ) = 2 * m / (m + 1) := by push_cast; field_simp; ring
      have hb : 1 - (((m - 1) / (m + 1) : Rat) : ℝ) = 2 / (m + 1) := by push_cast; field_simp; ring
      rw [ha, hb, ← Real.log_div (by positivity) (by positivity)]
      congr 1
      field_simp
    generalize (m - 1) / (m + 1) = z at hz0 hz1 hf1 hf2 hlog ⊢
    generalize (z * pow2 fixP).num.natAbs / (z * pow2 fixP).den = t at hf1 hf2 ⊢
    have hz0' : (0 : ℝ) ≤ z := by exact_mod_cast hz0
    have hz1' : (z : ℝ) ≤ 1 / 3 := by
      have := (Rat.cast_le (K := ℝ)).mpr hz1
      push_cast at this
      exact this
    have hsq : |((t * t / 2 ^ fixP : ℕ) : ℝ) - fixOne * (z : ℝ) ^ 2| ≤ 2 := by
      have h2 := abs_natDiv_sub_le (t * t) (b := 2 ^ fixP) (by positivity)
      rw [natCast_two_pow_fixP, Nat.cast_mul] at h2
      have h3 : |(t : ℝ) * t / fixOne - fixOne * (z : ℝ) ^ 2| ≤ 1 := by
        rw [show (t : ℝ) * t / fixOne - fixOne * (z : ℝ) ^ 2 = -((fixOne * z - t) * (t + fixOne * z)) / fixOne by field_simp; ring, abs_div,
          abs_neg, abs_of_pos hone, div_le_one hone, abs_of_nonneg (by nlinarith [(Nat.cast_nonneg t : (0 : ℝ) ≤ t)])]
        nlinarith [(Nat.cast_nonneg t : (0 : ℝ) ≤ t)]
      exact (abs_sub_le _ _ _).trans ((add_le_add h2 h3).trans (by norm_num))
    have hl := abs_atanhSeries_sub_le hz0' hz1' hsq (t := t) (by rw [abs_le]; constructor <;> linarith)
    rw [hlog] at hl
    rw [Rat.cast_add, cast_mul_pow2_neg_fixP, Rat.cast_intCast, Rat.cast_natCast, add_sub_add_left_eq_sub]
    exact abs_fixedQuot_sub_le (Real.log_nonneg hm1') (Real.log_le_log (by linarith) hm2') hl

/-! ### 2^x -/

/-- The value of `exp2Rep` within its range: exact for an integer, and within 2^21 units. -/
theorem abs_exp2Rep_sub_le {x : Rat} (h1 : -200 < x) (h2 : x < 200) :
    |(exp2Rep x : ℝ) - 2 ^ (x : ℝ)| ≤ 2 ^ ⌊x⌋ * (2 ^ 21 / fixOne) := by
  have hone := fixOne_pos
  have hbig : (2 : ℝ) ^ 20 ≤ fixOne := two_pow_le_fixOne (by norm_num)
  have hf0 : 0 ≤ x - (⌊x⌋ : Rat) := sub_nonneg.mpr (Int.floor_le x)
  have hf1 : x - (⌊x⌋ : Rat) ≤ 1 := by linarith [Int.lt_floor_add_one x]
  have hsplit : (2 : ℝ) ^ (x : ℝ) = 2 ^ ⌊x⌋ * Real.exp (((x - (⌊x⌋ : Rat) : Rat) : ℝ) * Real.log 2) := by
    rw [mul_comm _ (Real.log 2), ← Real.rpow_def_of_pos two_pos, ← Real.rpow_intCast, ← Real.rpow_add two_pos]
    push_cast
    congr 1
    ring
  simp only [exp2Rep, ge_iff_le, not_le.mpr h1, not_le.mpr h2, if_false, ← Rat.floor_def']
  rw [hsplit]
  generalize x - (⌊x⌋ : Rat) = f at hf0 hf1
  split_ifs with hf
  · simp only [hf, pow2_eq_zpow, Rat.cast_zero, zero_mul, Real.exp_zero, mul_one, Rat.cast_zpow, Rat.cast_ofNat, sub_self, abs_zero]
    positivity
  · obtain ⟨hy1, hy2⟩ := abs_natFloor_sub_le hf0
    generalize (f * pow2 fixP).num.natAbs / (f * pow2 fixP).den = t at hy1 hy2 ⊢
    have hf0' : (0 : ℝ) ≤ f := by exact_mod_cast hf0
    have hf1' : (f : ℝ) ≤ 1 := by exact_mod_cast hf1
    obtain ⟨hlog1, hlog2⟩ := log_two_bounds
    have harg : |((t * ln2Fix / 2 ^ fixP : ℕ) : ℝ) - fixOne * (f * Real.log 2)| ≤ 1507 := by
      have hd1 := abs_natDiv_sub_le (t * ln2Fix) (b := 2 ^ fixP) (by positivity)
      rw [Nat.cast_mul, natCast_two_pow_fixP] at hd1
      have hd := abs_le.mp abs_ln2Fix_sub_le
      have hd2 := ln2Fix_bounds
      generalize (ln2Fix : ℝ) = D at *
      have h3 : |(t : ℝ) * D / fixOne - fixOne * (f * Real.log 2)| ≤ 1505 := by
        rw [show (t : ℝ) * D / fixOne - fixOne * (f * Real.log 2) = (f * (D - fixOne * Real.log 2)) + -((fixOne * f - t) * (D / fixOne)) by
          field_simp; ring]
        have hD : D / fixOne ≤ 1 := (div_le_one hone).mpr hd2.2
        have hD0 : 0 ≤ D / fixOne := div_nonneg (by linarith) hone.le
        refine (abs_add_le _ _).trans ((add_le_add (b := 1504) (d := 1) ?_ ?_).trans (by norm_num))
        · rw [abs_mul, abs_of_nonneg hf0']
          exact (mul_le_of_le_one_left (abs_nonneg _) hf1').trans (abs_le.mpr hd)
        · rw [abs_neg, abs_mul, abs_of_nonneg hD0, abs_of_nonneg (by linarith)]
          nlinarith
      exact (abs_sub_le _ _ _).trans ((add_le_add hd1 h3).trans (by norm_num))
    have hS := abs_expSeries_sub_le (mul_nonneg hf0' (by linarith)) (by nlinarith) harg
    generalize expSeries (t * ln2Fix / 2 ^ fixP) 110 (2 ^ fixP) 0 = S at hS ⊢
    have hpow : ((((S : Rat) * pow2 (⌊x⌋ - fixP) : Rat)) : ℝ) = 2 ^ ⌊x⌋ * (S / fixOne) := by
      rw [sub_eq_add_neg, pow2_eq_zpow, zpow_add₀ two_ne_zero, mul_left_comm, Rat.cast_mul, ← pow2_eq_zpow, ← pow2_eq_zpow,
        cast_mul_pow2_neg_fixP, pow2_eq_zpow, Rat.cast_natCast, Rat.cast_zpow, Rat.cast_ofNat]
    rw [hpow, ← mul_sub, abs_mul, abs_of_pos (by positivity)]
    refine mul_le_mul_of_nonneg_left ?_ (by positivity)
    rw [show ∀ a b : ℝ, a / fixOne - b = (a - fixOne * b) / fixOne from fun a b => by field_simp, abs_div, abs_of_pos hone]
    exact div_le_div_of_nonneg_right (hS.trans (by norm_num)) hone.le

/-! ### Sine and cosine -/

/-- The choice among the two series by the quadrant. -/
def quadrant {α : Type} [Neg α] (m : Int) (s c : α) : α := if m = 0 then s else if m = 1 then c else if m = 2 then -s else -c

theorem sin_add_quarters (y : ℝ) (k : Int) : Real.sin (y + k * (Real.pi / 2)) = quadrant (k % 4) (Real.sin y) (Real.cos y) := by
  have hk : (k : ℝ) = (k % 4 : Int) + 4 * (k / 4 : Int) := by exact_mod_cast (Int.emod_add_mul_ediv k 4).symm
  have harg : y + k * (Real.pi / 2) = y + (k % 4 : Int) * (Real.pi / 2) + (k / 4 : Int) * (2 * Real.pi) := by
    rw [hk]
    ring
  rw [harg, Real.sin_add_int_mul_two_pi, quadrant]
  obtain h | h | h | h : k % 4 = 0 ∨ k % 4 = 1 ∨ k % 4 = 2 ∨ k % 4 = 3 := by omega
  · simp [h]
  · simp [h, Real.sin_add_pi_div_two]
  · rw [h, show y + ((2 : Int) : ℝ) * (Real.pi / 2) = y + Real.pi by push_cast; ring, Real.sin_add_pi]
    rfl
  · rw [h, show y + ((3 : Int) : ℝ) * (Real.pi / 2) = y + Real.pi / 2 + Real.pi by push_cast; ring, Real.sin_add_pi, Real.sin_add_pi_div_two]
    rfl

theorem abs_quadrant_sub_le {s c : Int} {a b E : ℝ} (hs : |(s : ℝ) - a| ≤ E) (hc : |(c : ℝ) - b| ≤ E) (m : Int) :
    |((quadrant m s c : Int) : ℝ) - quadrant m a b| ≤ E := by
  have hneg : ∀ {z : Int} {y : ℝ}, |(z : ℝ) - y| ≤ E → |((-z : Int) : ℝ) - -y| ≤ E := fun {z y} h => by
    rw [← abs_neg]
    push_cast
    rwa [show -(-(z : ℝ) - -y) = z - y by ring]
  unfold quadrant
  split_ifs
  · exact hs
  · exact hc
  · exact hneg hs
  · exact hneg hc

/-- The fixed-point argument after reduction by quarter turns: within a turn, and near the argument. -/
theorem reduced_argument {n k : Int} {y : ℝ} (hn : |(n : ℝ) - y| ≤ 1) (hy : |y| ≤ 2 ^ 128 * fixOne)
    (hk : k = (2 * n + piFix / 2) / (2 * (piFix / 2))) :
    |((n - k * piFix / 2 : Int) : ℝ)| ≤ fixOne ∧ |((n - k * piFix / 2 : Int) : ℝ) + fixOne * (k * (Real.pi / 2)) - y| ≤ 2 ^ 142 := by
  have hone := fixOne_pos
  have hbig : (2 : ℝ) ^ 200 ≤ fixOne := two_pow_le_fixOne (by norm_num)
  have hpi := abs_le.mp abs_piFix_sub_le
  have hpi1 := mul_le_mul_of_nonneg_left Real.pi_gt_d2.le hone.le
  have hpi2 := mul_le_mul_of_nonneg_left Real.pi_lt_d2.le hone.le
  generalize hB : piFix = B at *
  set h := B / 2 with hh
  have hBlo : 3 * fixOne ≤ (B : ℝ) := by linarith
  have hBhi : (B : ℝ) ≤ 3.16 * fixOne := by linarith
  have hhB : (B : ℝ) - 1 ≤ 2 * h ∧ 2 * (h : ℝ) ≤ B := by
    constructor
    · exact_mod_cast (by omega : B - 1 ≤ 2 * h)
    · exact_mod_cast (by omega : 2 * h ≤ B)
  have hhpos : 0 < h := by
    have : (0 : ℝ) < h := by linarith
    exact_mod_cast this
  have hquot := Int.emod_add_mul_ediv (2 * n + h) (2 * h)
  have hrem0 := Int.emod_nonneg (2 * n + h) (by omega : 2 * h ≠ 0)
  have hrem1 := Int.emod_lt_of_pos (2 * n + h) (by omega : 0 < 2 * h)
  rw [← hk] at hquot
  generalize (2 * n + h) % (2 * h) = rem at *
  have hnear : |(n : ℝ) - h * k| ≤ h / 2 := by
    have hq : (rem : ℝ) + 2 * h * k = 2 * n + h := by exact_mod_cast hquot
    have h0 : (0 : ℝ) ≤ rem := by exact_mod_cast hrem0
    have h1 : (rem : ℝ) ≤ 2 * h := by exact_mod_cast hrem1.le
    rw [abs_le]
    constructor <;> linarith
  have hkabs : |(k : ℝ)| ≤ 2 ^ 129 := by
    have hhr : fixOne ≤ (h : ℝ) := by linarith
    have hna := abs_le.mp hn
    have hya := abs_le.mp hy
    have hnk := abs_le.mp hnear
    have hhk : |(h : ℝ) * k| ≤ 2 ^ 129 * h := by
      rw [abs_le]
      constructor <;> linarith
    rw [abs_mul, abs_of_pos (by linarith), mul_comm] at hhk
    exact le_of_mul_le_mul_right hhk (by linarith)
  have hfloor : (((k * B : Int) : ℝ) - 1) / 2 ≤ ((k * B / 2 : Int) : ℝ) ∧ ((k * B / 2 : Int) : ℝ) ≤ ((k * B : Int) : ℝ) / 2 := by
    have h1 : (((k * B - 1 : Int)) : ℝ) ≤ ((2 * (k * B / 2) : Int) : ℝ) := by exact_mod_cast (by omega)
    have h2 : ((2 * (k * B / 2) : Int) : ℝ) ≤ ((k * B : Int) : ℝ) := by exact_mod_cast (by omega)
    push_cast at h1 h2 ⊢
    constructor <;> linarith
  have hkB : |(k : ℝ) * B / 2 - h * k| ≤ 2 ^ 129 := by
    rw [show (k : ℝ) * B / 2 - h * k = k * ((B - 2 * h) / 2) by ring, abs_mul]
    have : |((B : ℝ) - 2 * h) / 2| ≤ 1 := by
      rw [abs_le]
      constructor <;> linarith
    exact (mul_le_of_le_one_right (abs_nonneg _) this).trans hkabs
  have hkpi : |fixOne * (k * (Real.pi / 2)) - k * B / 2| ≤ 2 ^ 141 := by
    rw [show fixOne * (k * (Real.pi / 2)) - k * B / 2 = -(k * ((B - fixOne * Real.pi) / 2)) by ring, abs_neg, abs_mul]
    have : |((B : ℝ) - fixOne * Real.pi) / 2| ≤ 2 ^ 12 := by
      rw [abs_le]
      constructor <;> linarith
    exact (mul_le_mul hkabs this (abs_nonneg _) (by positivity)).trans (by norm_num)
  push_cast at hfloor ⊢
  have hnk := abs_le.mp hnear
  have hkBa := abs_le.mp hkB
  have hkpia := abs_le.mp hkpi
  have hna := abs_le.mp hn
  obtain ⟨hf1, hf2⟩ := hfloor
  generalize ((k * B / 2 : Int) : ℝ) = w at *
  refine ⟨abs_le.mpr ⟨?_, ?_⟩, abs_le.mpr ⟨?_, ?_⟩⟩ <;> linarith

/-- Sine by its two series after reduction. -/
theorem abs_quadrant_trigSeries_sub_le {n k : Int} {y : ℝ} (c : Int) (hn : |(n : ℝ) - y| ≤ 1) (hy : |y| ≤ 2 ^ 128 * fixOne)
    (hk : k = (2 * n + piFix / 2) / (2 * (piFix / 2))) :
    |((quadrant ((k + c) % 4) (trigSeries (n - k * piFix / 2) 60 (n - k * piFix / 2) 1) (trigSeries (n - k * piFix / 2) 60 (2 ^ fixP) 0) : Int) : ℝ) /
      fixOne - Real.sin (y / fixOne + c * (Real.pi / 2))| ≤ 2 ^ 143 / fixOne := by
  have hone := fixOne_pos
  obtain ⟨hr, hangle⟩ := reduced_argument hn hy hk
  generalize n - k * piFix / 2 = r at hr hangle ⊢
  have hsin := abs_trigSeries_sub_le hr 1 (t := r) (v := Real.sin (r / fixOne)) (by
    rw [pow_one, Nat.factorial_one, Nat.cast_one, div_one, mul_div_cancel₀ _ hone.ne']) (Real.hasSum_sin _)
  have hcos := abs_trigSeries_sub_le hr 0 (t := 2 ^ fixP) (v := Real.cos (r / fixOne)) (by
    rw [pow_zero, Nat.factorial_zero, Nat.cast_one, div_one, mul_one, ← natCast_two_pow_fixP]
    push_cast
    rfl) (Real.hasSum_cos _)
  have hq := abs_quadrant_sub_le hsin hcos ((k + c) % 4)
  have hquad : (quadrant ((k + c) % 4) (fixOne * Real.sin (r / fixOne)) (fixOne * Real.cos (r / fixOne)) : ℝ) =
      fixOne * Real.sin (r / fixOne + (k + c : Int) * (Real.pi / 2)) := by
    rw [sin_add_quarters]
    unfold quadrant
    split_ifs <;> ring
  rw [hquad] at hq
  have harg : |Real.sin (r / fixOne + (k + c : Int) * (Real.pi / 2)) - Real.sin (y / fixOne + c * (Real.pi / 2))| ≤ 2 ^ 142 / fixOne := by
    refine (Real.abs_sin_sub_sin_le _ _).trans ?_
    rw [show (r : ℝ) / fixOne + (k + c : Int) * (Real.pi / 2) - (y / fixOne + c * (Real.pi / 2)) =
      (r + fixOne * (k * (Real.pi / 2)) - y) / fixOne by push_cast; field_simp; ring, abs_div, abs_of_pos hone]
    exact div_le_div_of_nonneg_right hangle hone.le
  have hval : ∀ q : ℝ, |q - fixOne * Real.sin (r / fixOne + (k + c : Int) * (Real.pi / 2))| ≤ (60 : ℕ) * 4 + 2 * 1 →
      |q / fixOne - Real.sin (r / fixOne + (k + c : Int) * (Real.pi / 2))| ≤ 2 ^ 142 / fixOne := fun q h => by
    rw [show ∀ a b : ℝ, a / fixOne - b = (a - fixOne * b) / fixOne from fun a b => by field_simp, abs_div, abs_of_pos hone]
    exact div_le_div_of_nonneg_right (h.trans (by norm_num)) hone.le
  refine (abs_sub_le _ _ _).trans ((add_le_add (hval _ hq) harg).trans (le_of_eq ?_))
  rw [← add_div]
  norm_num

/-- Near zero sine is its argument. -/
theorem abs_mul_sub_sin_le {x : Rat} (hx : |x| < 2 ^ (-60 : Int)) : |((x * (1 - pow2 (-100)) : Rat) : ℝ) - Real.sin x| ≤ 2 ^ (-152 : Int) := by
  have hx' : |(x : ℝ)| ≤ 2 ^ (-60 : Int) := by
    have := (Rat.cast_lt (K := ℝ)).mpr hx
    push_cast at this
    exact this.le
  have h0 := abs_nonneg (x : ℝ)
  have hsin := Real.sin_bound (hx'.trans (by norm_num))
  have hcast : ((x * (1 - pow2 (-100)) : Rat) : ℝ) - Real.sin x = -(Real.sin x - (x - x ^ 3 / 6)) + (x ^ 3 / 6 - x * 2 ^ (-100 : Int)) := by
    rw [pow2_eq_zpow]
    push_cast
    ring
  have h3 : |(x : ℝ) ^ 3 / 6 - x * 2 ^ (-100 : Int)| ≤ |(x : ℝ)| ^ 3 / 6 + |(x : ℝ)| * 2 ^ (-100 : Int) := by
    refine (abs_sub _ _).trans (le_of_eq ?_)
    rw [abs_div, abs_pow, abs_mul, abs_of_pos (by positivity : (0 : ℝ) < 6), abs_of_pos (by positivity : (0 : ℝ) < 2 ^ (-100 : Int))]
  rw [hcast]
  refine (abs_add_le _ _).trans ?_
  rw [abs_neg]
  have hp3 : |(x : ℝ)| ^ 3 ≤ (2 ^ (-60 : Int)) ^ 3 := pow_le_pow_left₀ h0 hx' 3
  have hp5 : |(x : ℝ)| ^ 5 ≤ (2 ^ (-60 : Int)) ^ 5 := pow_le_pow_left₀ h0 hx' 5
  have hp1 : |(x : ℝ)| * 2 ^ (-100 : Int) ≤ 2 ^ (-60 : Int) * 2 ^ (-100 : Int) := mul_le_mul_of_nonneg_right hx' (by positivity)
  norm_num at hsin h3 hp1 hp3 hp5 ⊢
  linarith

/-- The reduced series for any F32 argument that is not near zero. -/
theorem abs_trigRep_series_sub_le {x : Rat} (c : Bool) (h : pow2 (-60) ≤ |x|) (hx : |x| ≤ 2 ^ 128) :
    |(trigRep c x : ℝ) - Real.sin (x + (if c then 1 else 0 : Int) * (Real.pi / 2))| ≤ 2 ^ (-152 : Int) := by
  have hone := fixOne_pos
  have hbig : (2 : ℝ) ^ 295 ≤ fixOne := two_pow_le_fixOne (by norm_num)
  have hy := cast_mul_pow2_fixP x
  have hn : |((⌊x * pow2 fixP⌋ : Int) : ℝ) - x * fixOne| ≤ 1 := by
    rw [← hy, abs_sub_comm, abs_of_nonneg (by rw [sub_nonneg]; exact_mod_cast Int.floor_le (x * pow2 fixP))]
    have : ((x * pow2 fixP : Rat) : ℝ) < (⌊x * pow2 fixP⌋ : Int) + 1 := by exact_mod_cast Int.lt_floor_add_one (x * pow2 fixP)
    linarith
  have hyabs : |(x : ℝ) * fixOne| ≤ 2 ^ 128 * fixOne := by
    rw [abs_mul, abs_of_pos hone]
    refine mul_le_mul_of_nonneg_right ?_ hone.le
    have := (Rat.cast_le (K := ℝ)).mpr hx
    push_cast at this
    exact this
  have hmain := abs_quadrant_trigSeries_sub_le (if c then 1 else 0) hn hyabs rfl
  rw [mul_div_cancel_right₀ _ hone.ne'] at hmain
  have hrep : trigRep c x = ((quadrant (((2 * ⌊x * pow2 fixP⌋ + piFix / 2) / (2 * (piFix / 2)) + (if c then 1 else 0)) % 4)
      (trigSeries (⌊x * pow2 fixP⌋ - (2 * ⌊x * pow2 fixP⌋ + piFix / 2) / (2 * (piFix / 2)) * piFix / 2) 60
        (⌊x * pow2 fixP⌋ - (2 * ⌊x * pow2 fixP⌋ + piFix / 2) / (2 * (piFix / 2)) * piFix / 2) 1)
      (trigSeries (⌊x * pow2 fixP⌋ - (2 * ⌊x * pow2 fixP⌋ + piFix / 2) / (2 * (piFix / 2)) * piFix / 2) 60 (2 ^ fixP) 0) : Int) : Rat) *
      pow2 (-(fixP : Int)) := by
    simp only [trigRep, not_lt.mpr h, if_false, Rat.floor_def', quadrant]
  rw [hrep, cast_mul_pow2_neg_fixP, Rat.cast_intCast]
  refine hmain.trans ?_
  rw [div_le_iff₀ hone]
  calc (2 : ℝ) ^ 143 = 2 ^ (-152 : Int) * 2 ^ 295 := by rw [← zpow_natCast, ← zpow_natCast, ← zpow_add₀ two_ne_zero]; rfl
    _ ≤ _ := mul_le_mul_of_nonneg_left hbig (by positivity)

theorem abs_sinRep_sub_le {x : Rat} (hx : |x| ≤ 2 ^ 128) : |(trigRep false x : ℝ) - Real.sin x| ≤ 2 ^ (-152 : Int) := by
  by_cases h : |x| < pow2 (-60)
  · rw [trigRep, if_pos h]
    exact abs_mul_sub_sin_le (pow2_eq_zpow (-60) ▸ h)
  · simpa using abs_trigRep_series_sub_le false (not_lt.mp h) hx

theorem abs_cosRep_sub_le {x : Rat} (h : pow2 (-60) ≤ |x|) (hx : |x| ≤ 2 ^ 128) :
    |(trigRep true x : ℝ) - Real.cos x| ≤ 2 ^ (-152 : Int) := by
  have := abs_trigRep_series_sub_le true h hx
  rwa [if_pos rfl, Int.cast_one, one_mul, Real.sin_add_pi_div_two] at this

/-- Near zero cosine is 1. -/
theorem abs_one_sub_cos_le {x : Rat} (hx : |x| < pow2 (-60)) : |1 - Real.cos x| ≤ 2 ^ (-120 : Int) := by
  have hx' : |(x : ℝ)| ≤ 2 ^ (-60 : Int) := by
    have := (Rat.cast_lt (K := ℝ)).mpr (pow2_eq_zpow (-60) ▸ hx)
    push_cast at this
    exact this.le
  have h2 := Real.one_sub_sq_div_two_le_cos (x := x)
  rw [abs_of_nonneg (sub_nonneg.mpr (Real.cos_le_one _))]
  have hsq : (x : ℝ) ^ 2 ≤ (2 ^ (-60 : Int)) ^ 2 := by
    rw [← sq_abs]
    exact pow_le_pow_left₀ (abs_nonneg _) hx' 2
  norm_num at hsq ⊢
  linarith

end Sys2Proof.Machine
end

section
/-! PROOFS. A step is the exact sum rounded once (03 R78, R79), and a special function the exact value rounded once (06 R183, Table 6.7). -/

namespace Sys2Proof.Machine

open Sys2Proof

-- Proofs are elaborated one after another: the whole text is compiled in one process of bounded memory.
set_option Elab.async false

/-! ### Steps under PROD -/

/-- The exact product of a term: nothing where a factor is zero (R78). -/
def prodTerm (x : FV × FV) : Rat := if x.1.isZero ∨ x.2.isZero then 0 else x.1.rat * x.2.rat

theorem stepTerm_prod (s : StepAcc) {x : FV × FV} (h : x.1.isZero ∨ x.2.isZero ∨ (x.1.isFin ∧ x.2.isFin)) :
    stepTerm 0 s x.1 x.2 = { s with sum := s.sum + prodTerm x } := by
  by_cases hz : x.1.isZero ∨ x.2.isZero
  · simp [stepTerm, prodTerm, hz]
  · obtain ⟨h1, h2⟩ : x.1.isFin ∧ x.2.isFin := by tauto
    obtain ⟨n, p, hp⟩ := FV.exists_of_isFin h1
    obtain ⟨m, q, hq⟩ := FV.exists_of_isFin h2
    simp only [stepTerm, prodTerm, hz, if_false, mulX_fin h1 h2]
    rw [if_neg (by simpa using hz), if_neg (by rw [hp, hq]; exact Bool.false_ne_true)]

theorem stepTerms_prod : ∀ (ts : List (FV × FV)) (s : StepAcc), (∀ x ∈ ts, x.1.isZero ∨ x.2.isZero ∨ (x.1.isFin ∧ x.2.isFin)) →
    stepTerms 0 s ts = { s with sum := s.sum + (ts.map prodTerm).sum }
  | [], s, _ => by simp [stepTerms]
  | (a, b) :: ts, s, h => by
    rw [stepTerms, stepTerm_prod s (h (a, b) List.mem_cons_self), stepTerms_prod ts _ fun x hx => h x (List.mem_cons_of_mem _ hx), List.map_cons,
      List.sum_cons, add_assoc]

/-- R79: a step over finite elements. -/
theorem step79_prod {acc : Word} {ts : List (FV × FV)} (ha : (fv acc).isFin = true)
    (h : ∀ x ∈ ts, x.1.isZero ∨ x.2.isZero ∨ (x.1.isFin ∧ x.2.isFin)) :
    (step79 0 0 false acc ts).1 = roundW .rn (ratW acc + (ts.map prodTerm).sum) := by
  obtain ⟨n, q, hq⟩ := FV.exists_of_isFin ha
  simp only [step79, stepTerms_prod ts _ h, ratW, hq]
  simp [FV.isNan, roundW, show pow2 0 = 1 from rfl]

/-! ### F32 in figures -/

theorem f32_max_eq : (fmtOf .f32).mag (fmtOf .f32).max = 2 ^ 128 - 2 ^ 104 := by decide +kernel

theorem f32_low_eq : (fmtOf .f32).low = -149 := rfl

theorem fv_eq_fin {a : Word} (hf : (fv a).isFin = true) (h0 : ratW a ≠ 0) : fv a = .fin (decide (ratW a < 0)) |ratW a| := by
  obtain ⟨h1, h2⟩ := valueOf_eq_fin (ty := .f32) rfl a.isLt hf
  have hneg : (fv a).neg = decide (ratW a < 0) := h2.trans (if_neg h0)
  rw [← hneg]
  exact h1

/-- A finite word's value as a multiple of the smallest step. -/
theorem ratW_on_grid {a : Word} (hf : (fv a).isFin = true) : ∃ j : Int, ratW a = j * 2 ^ (-149 : Int) := by
  obtain ⟨k, _, habs⟩ := abs_rat_eq_mag (ty := .f32) rfl a.isLt hf
  exact exists_mul_of_abs_eq_mag (fmtOf .f32) habs

theorem abs_ratW_le {a : Word} (hf : (fv a).isFin = true) : |ratW a| ≤ 2 ^ 128 - 2 ^ 104 := f32_max_eq ▸ abs_rat_le_max (ty := .f32) rfl a.isLt hf

theorem two_pow_le_ratW {a : Word} (hf : (fv a).isFin = true) (h0 : 0 < ratW a) : 2 ^ (-149 : Int) ≤ ratW a := by
  obtain ⟨j, hj⟩ := ratW_on_grid hf
  rw [hj] at h0 ⊢
  have : 0 < j := by exact_mod_cast pos_of_mul_pos_left h0 (zpow_two_pos _).le
  exact le_mul_of_one_le_left (zpow_two_pos _).le (by exact_mod_cast this)

/-! ### An exact value and its representative -/

/-- A result within an F32 rounding of the value that it stands for. -/
theorem roundW_rn_within {p : Rat} {y : ℝ} (hp : |p| ≤ 2 ^ 128 - 2 ^ 104) (h : |(p : ℝ) - y| ≤ 2 ^ (-152 : Int)) :
    (fv (roundW .rn p)).isFin = true ∧ |((ratW (roundW .rn p) : Rat) : ℝ) - y| ≤ |y| * 2 ^ (-24 : Int) + 2 ^ (-149 : Int) := by
  obtain ⟨h1, h2⟩ := roundW_in_range .rn (abs_round_le_max (ty := .f32) .rn (f32_max_eq.symm ▸ hp))
  refine ⟨by rw [h1]; rfl, ?_⟩
  have herr := (Rat.cast_le (K := ℝ)).mpr ((fmtOf .f32).round_rn_error p)
  rw [← h2] at herr
  push_cast at herr
  have herr' : |((ratW (roundW .rn p) : Rat) : ℝ) - p| ≤ |(p : ℝ)| * 2 ^ (-24 : Int) + 2 ^ (-150 : Int) := herr
  have hpy : |(p : ℝ)| ≤ |y| + 2 ^ (-152 : Int) := by
    have := abs_add_le ((p : ℝ) - y) y
    rw [sub_add_cancel] at this
    linarith
  have := abs_sub_le ((ratW (roundW .rn p) : Rat) : ℝ) p y
  norm_num at herr' hpy h ⊢
  linarith

/-- The rounded representative, and its flags when it is no subnormal. -/
theorem arith32_val_in_range {p : Rat} (m : RM) (hp : |p| ≤ 2 ^ 128 - 2 ^ 104) :
    (fv (arith32 m false (.val p false, 0)).1).isFin = true ∧ ratW (arith32 m false (.val p false, 0)).1 = (fmtOf .f32).round m p ∧
      (2 ^ (-126 : Int) ≤ |p| ∨ (fmtOf .f32).round m p = p →
        (arith32 m false (.val p false, 0)).2 = if (fmtOf .f32).round m p = p then 0 else flNX) := by
  have hr := abs_round_le_max (ty := .f32) m (f32_max_eq.symm ▸ hp)
  obtain ⟨h1, h2⟩ := roundW_in_range m hr
  obtain ⟨c, fl, he, _, _, _, h0, hx⟩ := roundX_in_range (ty := .f32) rfl m false false hr
  rw [arith32_val]
  refine ⟨by rw [show BitVec.ofNat 32 _ = roundW m p from rfl, h1]; rfl, h2, fun hn => ?_⟩
  rw [he]
  split_ifs with h
  · exact h0 h
  · exact hx h (hn.resolve_right h)

/-! ### Roots -/

section
variable {p : Rat} (hlo : 2 ^ (-126 : Int) ≤ p) (hhi : p ≤ 2 ^ 76)
include hlo hhi

theorem root_in_range : |p| ≤ 2 ^ 128 - 2 ^ 104 := by
  rw [abs_of_pos ((zpow_two_pos _).trans_le hlo)]
  exact hhi.trans (by norm_num)

variable {y : ℝ} (h : SameSide p y)
include h

/-- The rounded representative of a root: a word, inexact exactly when it differs from the root. -/
theorem root_rounded (m : RM) :
    (fv (arith32 m false (.val p false, 0)).1).isFin = true ∧ ratW (arith32 m false (.val p false, 0)).1 = (fmtOf .f32).round m p ∧
      0 ≤ (fmtOf .f32).round m p ∧
      (arith32 m false (.val p false, 0)).2 = if ((fmtOf .f32).round m p : ℝ) = y then 0 else flNX := by
  have hp0 : 0 < p := (zpow_two_pos _).trans_le hlo
  obtain ⟨h1, h2, h3⟩ := arith32_val_in_range m (root_in_range hlo hhi)
  refine ⟨h1, h2, (fmtOf .f32).le_round m (c := 0) (by simp) hp0.le, ?_⟩
  obtain ⟨j, hj⟩ := ratW_on_grid h1
  rw [h3 (.inl (by rwa [abs_of_pos hp0]))]
  exact if_congr (h.eq_iff (h2 ▸ hj)) rfl rfl

/-- It is the nearest word, or the nearest on the side of the mode. -/
theorem root_nearest (m : RM) {w : Word} (hw : (fv w).isFin = true) :
    match m with
    | .rn => |((fmtOf .f32).round .rn p : ℝ) - y| ≤ |(ratW w : ℝ) - y|
    | .ru => y ≤ ((fmtOf .f32).round .ru p : ℝ) ∧ (y ≤ (ratW w : ℝ) → ((fmtOf .f32).round .ru p : ℝ) ≤ ratW w)
    | m => ((fmtOf .f32).round m p : ℝ) ≤ y ∧ ((ratW w : ℝ) ≤ y → (ratW w : ℝ) ≤ (fmtOf .f32).round m p) := by
  have hp0 : 0 < p := (zpow_two_pos _).trans_le hlo
  obtain ⟨k, _, habs⟩ := abs_rat_eq_mag (ty := .f32) rfl w.isLt hw
  have habs : |ratW w| = (fmtOf .f32).mag k := habs
  obtain ⟨i, hi⟩ := ratW_on_grid hw
  have hgrid : ∀ m, ∃ j : Int, (fmtOf .f32).round m p = j * 2 ^ (-149 : Int) := fun m => by
    obtain ⟨h1, h2, _⟩ := arith32_val_in_range m (root_in_range hlo hhi)
    exact h2 ▸ ratW_on_grid h1
  have hdown : ∀ m, (fmtOf .f32).round m p ≤ p →
      ((fmtOf .f32).round m p : ℝ) ≤ y ∧ ((ratW w : ℝ) ≤ y → (ratW w : ℝ) ≤ (fmtOf .f32).round m p) :=
    fun m hm => by
      obtain ⟨j, hj⟩ := hgrid m
      exact ⟨(h.le_iff hj).mp hm, fun hwy => by exact_mod_cast (fmtOf .f32).le_round m habs ((h.le_iff hi).mpr hwy)⟩
  cases m with
  | rn =>
    obtain ⟨j, hj⟩ := hgrid .rn
    exact h.nearer hj hi ((fmtOf .f32).round_rn_nearest habs p)
  | ru =>
    obtain ⟨j, hj⟩ := hgrid .ru
    exact ⟨(h.ge_iff hj).mp ((fmtOf .f32).le_round_ru p),
      fun hwy => by exact_mod_cast (fmtOf .f32).round_le .ru habs ((h.ge_iff hi).mpr hwy)⟩
  | rd => exact hdown .rd ((fmtOf .f32).round_rd_le p)
  | rz => exact hdown .rz ((le_abs_self _).trans (((fmtOf .f32).abs_round_rz_le p).trans_eq (abs_of_pos hp0)))

end

/-! ### Special operands (Table 6.7) -/

/-- A special function of a word, rounded (R183). -/
abbrev sfuV (f : Sfu) (m : RM) (a : Word) : Word × BitVec 5 := arith32 m false (sfuX f (fv a))

section
variable {a : Word} {n : Bool}

theorem sfuV_nan (h : (fv a).isNan = true) (f : Sfu) (m : RM) : sfuV f m a = (0x7FC00000, sigFlag [fv a]) := by
  cases hv : fv a with
  | nan s => rw [sfuV, hv, sfuX, arith32_nan]
  | inf n => rw [hv] at h; exact absurd h Bool.false_ne_true
  | fin n q => rw [hv] at h; exact absurd h Bool.false_ne_true

theorem arith32_zero (m : RM) (z : Bool) : arith32 m false (.val 0 z, 0) = (if z then 0x80000000 else 0, 0) := by
  rw [arith32_val]
  cases z <;> rfl

theorem sfuV_inf (h : fv a = .inf n) :
    (∀ m, sfuV .rcp m a = (if n then 0x80000000 else 0, 0) ∧ sfuV .sqrt m a = if n then (0x7FC00000, flNV) else (a, 0)) ∧
    (sfuV .rsq .rn a = if n then (0x7FC00000, flNV) else (0, 0)) ∧ sfuV .exp2 .rn a = (if n then 0 else a, 0) ∧
    (sfuV .log2 .rn a = if n then (0x7FC00000, flNV) else (a, 0)) ∧ sfuV .sin .rn a = (0x7FC00000, flNV) ∧ sfuV .cos .rn a = (0x7FC00000, flNV) := by
  have ha := fv_eq_inf.mp h
  simp only [sfuV, h, sfuX]
  cases n
  · simp only [Bool.false_eq_true, if_false] at ha ⊢
    subst ha
    exact ⟨fun m => ⟨arith32_zero m false, arith32_inf m false 0⟩, arith32_zero .rn false, arith32_inf .rn false 0, arith32_inf .rn false 0,
      arith32_nan .rn flNV, arith32_nan .rn flNV⟩
  · simp only [if_true]
    exact ⟨fun m => ⟨arith32_zero m true, arith32_nan m flNV⟩, arith32_nan .rn flNV, arith32_zero .rn false, arith32_nan .rn flNV,
      arith32_nan .rn flNV, arith32_nan .rn flNV⟩

theorem sfuV_zero (h : fv a = .fin n 0) :
    let inf := ((if n then 0xFF800000 else 0x7F800000 : Word), flDZ)
    (∀ m, sfuV .rcp m a = inf ∧ sfuV .sqrt m a = (a, 0)) ∧ sfuV .rsq .rn a = inf ∧ sfuV .exp2 .rn a = (0x3F800000, 0) ∧
    sfuV .log2 .rn a = (0xFF800000, flDZ) ∧ sfuV .sin .rn a = (a, 0) ∧ sfuV .cos .rn a = (0x3F800000, 0) := by
  have ha := fv_eq_zero.mp h
  have hrat : (FV.fin n 0).rat = 0 := FV.rat_eq_zero.mpr rfl
  simp only [sfuV, h, sfuX, if_true, hrat]
  rw [ha]
  exact ⟨fun m => ⟨arith32_inf m n flDZ, arith32_zero m n⟩, arith32_inf .rn n flDZ, by decide +kernel, arith32_inf .rn true flDZ, arith32_zero .rn n,
    by decide +kernel⟩

theorem sfuV_neg (hf : (fv a).isFin = true) (h : ratW a < 0) :
    (∀ m, sfuV .sqrt m a = (0x7FC00000, flNV)) ∧ sfuV .rsq .rn a = (0x7FC00000, flNV) ∧ sfuV .log2 .rn a = (0x7FC00000, flNV) := by
  simp only [sfuV, fv_eq_fin hf h.ne, sfuX, abs_eq_zero, h.ne, if_false, h, decide_true, if_true]
  exact ⟨fun m => arith32_nan m flNV, arith32_nan .rn flNV, arith32_nan .rn flNV⟩

/-! ### Reciprocals, sine, cosine -/

theorem rat_fin_abs {x : Rat} : (FV.fin (decide (x < 0)) |x|).rat = x := by
  simp only [FV.rat, decide_eq_true_eq]
  split_ifs with h
  · rw [abs_of_neg h, neg_neg]
  · exact abs_of_nonneg (not_lt.mp h)

section
variable (hf : (fv a).isFin = true) (h0 : ratW a ≠ 0)
include hf h0

theorem sfuV_rcp (m : RM) : sfuV .rcp m a = (roundW m (1 / ratW a), (roundX .f32 m false (.val (1 / ratW a) false)).2) := by
  have hx : 1 / ratW a ≠ 0 := one_div_ne_zero h0
  simp only [sfuV, fv_eq_fin hf h0, sfuX, abs_eq_zero, h0, if_false, rat_fin_abs]
  rw [arith32_val, roundW]
  simp only [roundX, hx, if_false]

theorem sfuV_sin : sfuV .sin .rn a = arith32 .rn false (.val (trigRep false (ratW a)) false, 0) := by
  simp only [sfuV, fv_eq_fin hf h0, sfuX, abs_eq_zero, h0, if_false, rat_fin_abs]

theorem sfuV_cos : sfuV .cos .rn a = arith32 .rn false (.val (trigRep true (ratW a)) false, 0) := by
  simp only [sfuV, fv_eq_fin hf h0, sfuX, abs_eq_zero, h0, if_false, rat_fin_abs]

theorem sfuV_exp2 : sfuV .exp2 .rn a = arith32 .rn false (.val (exp2Rep (ratW a)) false, 0) := by
  simp only [sfuV, fv_eq_fin hf h0, sfuX, rat_fin_abs]

end

/-- What lies within half a unit of the last place, or within the smallest step, of a real. -/
def Within (w : Word) (y : ℝ) : Prop := (fv w).isFin = true ∧ |((ratW w : Rat) : ℝ) - y| ≤ |y| * 2 ^ (-24 : Int) + 2 ^ (-149 : Int)

/-- A representative of a value that is not great. -/
theorem within_of_close {p : Rat} {y : ℝ} (hy : |y| ≤ 2 ^ 127) (h : |(p : ℝ) - y| ≤ 2 ^ (-152 : Int)) :
    Within (arith32 .rn false (.val p false, 0)).1 y := by
  rw [arith32_val]
  refine roundW_rn_within ?_ h
  have hp : |(p : ℝ)| ≤ 2 ^ 127 + 1 := by
    have := abs_add_le ((p : ℝ) - y) y
    rw [sub_add_cancel] at this
    have h1 : (2 : ℝ) ^ (-152 : Int) ≤ 1 := by norm_num
    linarith
  have hp' : |p| ≤ 2 ^ 127 + 1 := by exact_mod_cast hp
  exact hp'.trans (by norm_num)

theorem within_sin (hf : (fv a).isFin = true) (h0 : ratW a ≠ 0) : Within (sfuV .sin .rn a).1 (Real.sin (ratW a : ℝ)) := by
  rw [sfuV_sin hf h0]
  exact within_of_close ((Real.abs_sin_le_one _).trans (by norm_num)) (abs_sinRep_sub_le ((abs_ratW_le hf).trans (by norm_num)))

theorem within_cos (hf : (fv a).isFin = true) (h0 : ratW a ≠ 0) : Within (sfuV .cos .rn a).1 (Real.cos (ratW a : ℝ)) := by
  rw [sfuV_cos hf h0]
  by_cases h : |ratW a| < pow2 (-60)
  · have hw : (arith32 .rn false (.val (trigRep true (ratW a)) false, 0)).1 = 0x3F800000 := by
      rw [show trigRep true (ratW a) = 1 - pow2 (-100) from if_pos h]
      decide +kernel
    rw [hw]
    have hc := abs_one_sub_cos_le h
    have hc' := (abs_le.mp hc).2
    refine ⟨by decide +kernel, ?_⟩
    rw [show ratW 0x3F800000 = 1 by decide +kernel, Rat.cast_one]
    have hy := le_abs_self (Real.cos (ratW a : ℝ))
    norm_num at hc hc' ⊢
    linarith
  · exact within_of_close ((Real.abs_cos_le_one _).trans (by norm_num)) (abs_cosRep_sub_le (not_lt.mp h) ((abs_ratW_le hf).trans (by norm_num)))

/-! ### 2^x -/

/-- A word below 128 leaves room for 2^x. -/
theorem ratW_le_of_lt_128 (hf : (fv a).isFin = true) (h : ratW a < 128) : ratW a ≤ 128 - 2 ^ (-17 : Int) := by
  rcases le_or_gt (ratW a) 0 with h0 | h0
  · exact h0.trans (by norm_num)
  · obtain ⟨k, _, habs⟩ := abs_rat_eq_mag (ty := .f32) rfl a.isLt hf
    have hk : ratW a = (fmtOf .f32).mag k := (abs_of_pos h0).symm.trans habs
    have hlt : k < 0x43000000 := (fmtOf .f32).mag_strictMono.lt_iff_lt.mp (by
      rw [← hk, show (fmtOf .f32).mag 0x43000000 = 128 by decide +kernel]
      exact h)
    rw [hk]
    refine ((fmtOf .f32).mag_strictMono.monotone (by omega : k ≤ 0x42FFFFFF)).trans ?_
    rw [show (fmtOf .f32).mag 0x42FFFFFF = 128 - 2 ^ (-17 : Int) by decide +kernel]

theorem two_rpow_le_of_le {x : ℝ} (h : x ≤ 128 - 2 ^ (-17 : Int)) : (2 : ℝ) ^ x ≤ 2 ^ 128 - 2 ^ 104 - 1 := by
  have hd : (1 : ℝ) + 2 ^ (-18 : Int) ≤ 2 ^ ((2 : ℝ) ^ (-17 : Int)) := by
    have h1 := Real.add_one_le_exp (Real.log 2 * 2 ^ (-17 : Int))
    rw [← Real.rpow_def_of_pos two_pos] at h1
    have h2 := log_two_bounds.1
    norm_num at h1 ⊢
    linarith
  have hprod : (2 : ℝ) ^ (128 - (2 : ℝ) ^ (-17 : Int)) * 2 ^ ((2 : ℝ) ^ (-17 : Int)) = 2 ^ 128 := by
    rw [← Real.rpow_add two_pos, sub_add_cancel]
    exact_mod_cast Real.rpow_natCast 2 128
  have hpos : 0 < (2 : ℝ) ^ (128 - (2 : ℝ) ^ (-17 : Int)) := Real.rpow_pos_of_pos two_pos _
  refine (Real.rpow_le_rpow_of_exponent_le one_le_two h).trans ?_
  generalize (2 : ℝ) ^ (128 - (2 : ℝ) ^ (-17 : Int)) = u at *
  have := mul_le_mul_of_nonneg_left hd hpos.le
  rw [hprod] at this
  norm_num at this ⊢
  linarith

theorem within_exp2 (hf : (fv a).isFin = true) (h0 : ratW a ≠ 0) (h : ratW a < 128) :
    Within (sfuV .exp2 .rn a).1 ((2 : ℝ) ^ ((ratW a : Rat) : ℝ)) := by
  have hx := ratW_le_of_lt_128 hf h
  have hy := two_rpow_le_of_le (x := (ratW a : ℝ)) (by
    have := (Rat.cast_le (K := ℝ)).mpr hx
    push_cast at this
    exact this)
  have hy0 : 0 < (2 : ℝ) ^ ((ratW a : Rat) : ℝ) := Real.rpow_pos_of_pos two_pos _
  have hclose : |(exp2Rep (ratW a) : ℝ) - (2 : ℝ) ^ ((ratW a : Rat) : ℝ)| ≤ 2 ^ (-152 : Int) := by
    by_cases hlo : -200 < ratW a
    · refine (abs_exp2Rep_sub_le hlo (by linarith)).trans ?_
      have hfl : ⌊ratW a⌋ ≤ 127 := Int.lt_add_one_iff.mp (Int.floor_lt.mpr (by exact_mod_cast h))
      have hbig : (2 : ℝ) ^ 300 ≤ fixOne := two_pow_le_fixOne (by norm_num)
      calc (2 : ℝ) ^ ⌊ratW a⌋ * (2 ^ 21 / fixOne) ≤ 2 ^ (127 : Int) * (2 ^ 21 / 2 ^ 300) :=
            mul_le_mul (zpow_le_zpow_right₀ one_le_two hfl) (div_le_div_of_nonneg_left (by positivity) (by positivity) hbig)
              (div_nonneg (by positivity) fixOne_pos.le) (by positivity)
        _ = 2 ^ (127 + (21 - 300) : Int) := by
            rw [← zpow_natCast, ← zpow_natCast, ← zpow_sub₀ two_ne_zero, ← zpow_add₀ two_ne_zero]
            rfl
        _ ≤ _ := by norm_num
    · have hle : (2 : ℝ) ^ ((ratW a : Rat) : ℝ) ≤ 2 ^ (-200 : Int) := by
        rw [← Real.rpow_intCast]
        exact Real.rpow_le_rpow_of_exponent_le one_le_two (by exact_mod_cast not_lt.mp hlo)
      rw [exp2Rep, if_neg (by linarith), if_pos (not_lt.mp hlo), pow2_eq_zpow]
      push_cast
      rw [abs_of_nonneg (by linarith)]
      have h200 : (2 : ℝ) ^ (-200 : Int) ≤ 2 ^ (-152 : Int) := zpow_le_zpow_right₀ one_le_two (by norm_num)
      linarith
  rw [sfuV_exp2 hf h0, arith32_val]
  refine roundW_rn_within ?_ hclose
  have hp : |(exp2Rep (ratW a) : ℝ)| ≤ 2 ^ 128 - 2 ^ 104 := by
    have := abs_add_le ((exp2Rep (ratW a) : ℝ) - (2 : ℝ) ^ ((ratW a : Rat) : ℝ)) ((2 : ℝ) ^ ((ratW a : Rat) : ℝ))
    rw [sub_add_cancel, abs_of_pos hy0] at this
    have h1 : (2 : ℝ) ^ (-152 : Int) ≤ 1 := by norm_num
    linarith
  exact_mod_cast hp

theorem sfuV_exp2_int (hf : (fv a).isFin = true) (h0 : ratW a ≠ 0) {k : Int} (hk : ratW a = k) (h1 : -149 ≤ k) (h2 : k ≤ 127) :
    ratW (sfuV .exp2 .rn a).1 = (2 : Rat) ^ k ∧ (sfuV .exp2 .rn a).2 = 0 := by
  have hrep : exp2Rep (ratW a) = 2 ^ k := by
    have hq1 : (k : Rat) < 200 := by exact_mod_cast (by omega : k < 200)
    have hq2 : -200 < (k : Rat) := by exact_mod_cast (by omega : -200 < k)
    simp [exp2Rep, hk, not_le.mpr hq1, not_le.mpr hq2, pow2_eq_zpow]
  rw [sfuV_exp2 hf h0, hrep]
  have habs : |(2 : Rat) ^ k| = 2 ^ k := abs_of_pos (zpow_two_pos k)
  have hle : |(2 : Rat) ^ k| ≤ 2 ^ 128 - 2 ^ 104 := by
    rw [habs]
    exact (zpow_two_le h2).trans (by norm_num)
  have hr : (fmtOf .f32).round .rn (2 ^ k) = 2 ^ k := (fmtOf .f32).round_steps .rn (k := 1) Nat.one_le_two_pow h1 (by rw [habs]; simp)
  obtain ⟨_, hw, hfl⟩ := arith32_val_in_range .rn hle
  exact ⟨hw.trans hr, (hfl (.inr hr)).trans (if_pos hr)⟩

omit a n in
theorem two_zpow_floor_le_exp2Rep {x : Rat} (h1 : -200 < x) (h2 : x < 200) : (2 : Rat) ^ ⌊x⌋ ≤ exp2Rep x := by
  simp only [exp2Rep, ge_iff_le, not_le.mpr h1, not_le.mpr h2, if_false, ← Rat.floor_def']
  split_ifs
  · rw [pow2_eq_zpow]
  · have hone : ∀ y, (1 : Rat) ≤ (expSeries y 110 (2 ^ fixP) 0 : Rat) * 2 ^ (-(fixP : Int)) := fun y => by
      rw [zpow_neg, zpow_natCast, ← div_eq_mul_inv, one_le_div (by positivity), expSeries]
      push_cast
      exact le_add_of_nonneg_right (Nat.cast_nonneg _)
    rw [pow2_eq_zpow (⌊x⌋ - fixP), sub_eq_neg_add ⌊x⌋, zpow_add₀ two_ne_zero, ← mul_assoc]
    exact le_mul_of_one_le_left (zpow_two_pos _).le (hone _)

/-- R69: 2^x beyond the range. -/
theorem sfuV_exp2_overflow (hf : (fv a).isFin = true) (h : 128 ≤ ratW a) : sfuV .exp2 .rn a = (0x7F800000, flOF ||| flNX) := by
  have hrep : (2 : Rat) ^ 128 ≤ exp2Rep (ratW a) := by
    by_cases h200 : ratW a < 200
    · exact (zpow_two_le (Int.le_floor.mpr (by exact_mod_cast h))).trans (two_zpow_floor_le_exp2Rep (by linarith) h200)
    · rw [exp2Rep, if_pos (not_lt.mp h200)]
      decide +kernel
  rw [sfuV_exp2 hf (by linarith), arith32_val]
  have hr : (2 : Rat) ^ 128 ≤ (fmtOf .f32).round .rn (exp2Rep (ratW a)) :=
    (fmtOf .f32).le_round .rn (c := 0x7F800000) (by decide +kernel) hrep
  have hlt : (fmtOf .f32).mag (fmtOf .f32).max < |(fmtOf .f32).round .rn (exp2Rep (ratW a))| := by
    rw [f32_max_eq]
    refine lt_of_lt_of_le ?_ (hr.trans (le_abs_self _))
    norm_num
  have hpos : ¬ exp2Rep (ratW a) < 0 := not_lt.mpr ((by norm_num : (0 : Rat) ≤ 2 ^ 128).trans hrep)
  rw [roundX_overflow rfl .rn false false hlt, decide_eq_false hpos]
  rfl

/-! ### Roots and logarithms of positive words -/

section
variable (hf : (fv a).isFin = true) (h0 : 0 < ratW a)
include hf h0

theorem fv_eq_fin_pos : fv a = .fin false (ratW a) := by
  rw [fv_eq_fin hf h0.ne', abs_of_pos h0, decide_eq_false h0.not_gt]

theorem sfuV_sqrt (m : RM) : sfuV .sqrt m a = arith32 m false (.val (sqrtRep (ratW a)) false, 0) := by
  simp only [sfuV, fv_eq_fin_pos hf h0, sfuX, h0.ne', if_false, Bool.false_eq_true]

theorem sfuV_rsq : sfuV .rsq .rn a = arith32 .rn false (.val (sqrtRep (1 / ratW a)) false, 0) := by
  simp only [sfuV, fv_eq_fin_pos hf h0, sfuX, h0.ne', if_false, Bool.false_eq_true]

theorem sfuV_log2 : sfuV .log2 .rn a = arith32 .rn false (.val (log2Rep (ratW a)) false, 0) := by
  simp only [sfuV, fv_eq_fin_pos hf h0, sfuX, h0.ne', if_false, Bool.false_eq_true]

end

omit a n in
/-- A root of a value of middling size is of middling size. -/
theorem sqrtRep_bounds {x : Rat} (h1 : 2 ^ (-150 : Int) ≤ x) (h2 : x ≤ 2 ^ 150) : 2 ^ (-126 : Int) ≤ sqrtRep x ∧ sqrtRep x ≤ 2 ^ 76 := by
  have h := sqrtRep_sameSide ((zpow_two_pos _).le.trans h1)
  constructor
  · rw [h.le_iff (i := 2 ^ 23) (by norm_num)]
    refine Real.le_sqrt_of_sq_le ?_
    have := (Rat.cast_le (K := ℝ)).mpr h1
    push_cast at this ⊢
    exact le_trans (by norm_num) this
  · rw [h.ge_iff (i := 2 ^ 225) (by norm_num)]
    refine Real.sqrt_le_iff.mpr ⟨by positivity, ?_⟩
    have := (Rat.cast_le (K := ℝ)).mpr h2
    push_cast at this ⊢
    exact this.trans (by norm_num)

omit a n in
/-- The rounded root of a value of middling size, and its inexact flag. -/
theorem sqrtRep_rounded {x : Rat} (h1 : 2 ^ (-150 : Int) ≤ x) (h2 : x ≤ 2 ^ 150) (m : RM) :
    let q := arith32 m false (.val (sqrtRep x) false, 0)
    (fv q.1).isFin = true ∧ q.2 = (if ratW q.1 * ratW q.1 = x then 0 else flNX) ∧
      ∀ w, (fv w).isFin = true → match m with
        | .rn => |((ratW q.1 : Rat) : ℝ) - Real.sqrt x| ≤ |((ratW w : Rat) : ℝ) - Real.sqrt x|
        | .ru => Real.sqrt x ≤ ((ratW q.1 : Rat) : ℝ) ∧ (Real.sqrt x ≤ ((ratW w : Rat) : ℝ) → ((ratW q.1 : Rat) : ℝ) ≤ ((ratW w : Rat) : ℝ))
        | _ => ((ratW q.1 : Rat) : ℝ) ≤ Real.sqrt x ∧ (((ratW w : Rat) : ℝ) ≤ Real.sqrt x → ((ratW w : Rat) : ℝ) ≤ ((ratW q.1 : Rat) : ℝ)) := by
  have hx : 0 ≤ x := (zpow_two_pos _).le.trans h1
  obtain ⟨hlo, hhi⟩ := sqrtRep_bounds h1 h2
  have hside := sqrtRep_sameSide hx
  obtain ⟨hfin, hval, h0, hfl⟩ := root_rounded hlo hhi hside m
  intro q
  refine ⟨hfin, hfl.trans (if_congr ?_ rfl rfl), fun w hw => ?_⟩
  · rw [hval, eq_comm, Real.sqrt_eq_iff_mul_self_eq (by exact_mod_cast hx) (by exact_mod_cast h0), eq_comm]
    exact_mod_cast Iff.rfl
  · have := root_nearest hlo hhi hside m hw
    rw [hval]
    cases m <;> exact this

theorem within_log2 (hf : (fv a).isFin = true) (h0 : 0 < ratW a) : Within (sfuV .log2 .rn a).1 (Real.logb 2 (ratW a : ℝ)) := by
  rw [sfuV_log2 hf h0]
  refine within_of_close ?_ ((abs_log2Rep_sub_le h0).trans ?_)
  · have h1 := (Rat.cast_le (K := ℝ)).mpr (two_pow_le_ratW hf h0)
    have h2 := (Rat.cast_le (K := ℝ)).mpr ((le_abs_self _).trans ((abs_ratW_le hf).trans (by norm_num : _ ≤ (2 : Rat) ^ (149 : Int))))
    have h0' : (0 : ℝ) < ratW a := by exact_mod_cast h0
    rw [Rat.cast_zpow, Rat.cast_ofNat, ← Real.rpow_intCast] at h1 h2
    refine (abs_le.mpr ⟨?_, ?_⟩ : _ ≤ (149 : ℝ)).trans (by norm_num)
    · rw [Real.le_logb_iff_rpow_le one_lt_two h0']
      exact_mod_cast h1
    · rw [Real.logb_le_iff_le_rpow one_lt_two h0']
      exact_mod_cast h2
  · have hbig : (2 : ℝ) ^ 300 ≤ fixOne := two_pow_le_fixOne (by norm_num)
    refine (div_le_div_of_nonneg_left (by positivity) (by positivity) hbig).trans
      (le_trans (le_of_eq ?_) (zpow_le_zpow_right₀ one_le_two (by norm_num : (14 - 300 : Int) ≤ -152)))
    rw [zpow_sub₀ two_ne_zero]
    rfl

theorem sfuV_log2_pow (hf : (fv a).isFin = true) {k : Int} (hk : ratW a = 2 ^ k) : ratW (sfuV .log2 .rn a).1 = k ∧ (sfuV .log2 .rn a).2 = 0 := by
  have h0 : 0 < ratW a := hk ▸ zpow_two_pos k
  have hilog : ilog2 (2 ^ k) = k := le_antisymm
    (Int.lt_add_one_iff.mp (ilog2_lt (zpow_two_pos k) (zpow_two_lt (lt_add_one k)))) (le_ilog2 (zpow_two_pos k) le_rfl)
  have hrep : log2Rep (ratW a) = k := by
    simp only [log2Rep, hk, hilog, pow2_eq_zpow]
    rw [if_pos (by rw [← zpow_add₀ two_ne_zero, add_neg_cancel, zpow_zero])]
  have hk1 : -149 ≤ k := by
    have := two_pow_le_ratW hf h0
    rw [hk] at this
    exact (zpow_le_zpow_iff_right₀ one_lt_two).mp this
  have hk2 : k < 128 := by
    have : ratW a < 2 ^ (128 : Int) := ((le_abs_self _).trans (abs_ratW_le hf)).trans_lt (by norm_num)
    rw [hk] at this
    exact (zpow_lt_zpow_iff_right₀ one_lt_two).mp this
  rw [sfuV_log2 hf h0, hrep]
  have habs : |(k : Rat)| = (k.natAbs : Rat) * 2 ^ (0 : Int) := by rw [zpow_zero, mul_one, Nat.cast_natAbs, Int.cast_abs]
  have hle : |(k : Rat)| ≤ 2 ^ 128 - 2 ^ 104 := by
    have : |(k : Rat)| ≤ 149 := by exact_mod_cast abs_le.mpr ⟨hk1, by omega⟩
    exact this.trans (by norm_num)
  have hr : (fmtOf .f32).round .rn (k : Rat) = k := (fmtOf .f32).round_steps .rn (u := 0)
    (show k.natAbs ≤ 2 ^ 24 by omega) (by rw [f32_low_eq]; norm_num) habs
  obtain ⟨_, hw, hfl⟩ := arith32_val_in_range .rn hle
  exact ⟨hw.trans hr, (hfl (.inr hr)).trans (if_pos hr)⟩

end

theorem ratW_middling {a : Word} (hf : (fv a).isFin = true) (h0 : 0 < ratW a) : 2 ^ (-150 : Int) ≤ ratW a ∧ ratW a ≤ 2 ^ 150 :=
  ⟨(zpow_two_le (by norm_num)).trans (two_pow_le_ratW hf h0), (le_abs_self _).trans ((abs_ratW_le hf).trans (by norm_num))⟩

theorem sfuV_rsq_rounded {a : Word} (hf : (fv a).isFin = true) (h0 : 0 < ratW a) :
    let q := sfuV .rsq .rn a
    (fv q.1).isFin = true ∧ q.2 = (if ratW q.1 * ratW q.1 * ratW a = 1 then 0 else flNX) ∧
      ∀ w, (fv w).isFin = true → |((ratW q.1 : Rat) : ℝ) - 1 / Real.sqrt (ratW a : ℝ)| ≤ |((ratW w : Rat) : ℝ) - 1 / Real.sqrt (ratW a : ℝ)| := by
  obtain ⟨hlo, hhi⟩ := ratW_middling hf h0
  obtain ⟨hfin, hfl, hnear⟩ := sqrtRep_rounded (x := 1 / ratW a) (by rw [le_one_div (zpow_two_pos _) h0]; exact hhi.trans (by norm_num))
    (by rw [one_div_le h0 (by positivity)]; exact le_trans (by norm_num) hlo) .rn
  have hroot : Real.sqrt ((1 / ratW a : Rat) : ℝ) = 1 / Real.sqrt (ratW a : ℝ) := by
    push_cast
    rw [one_div, Real.sqrt_inv, one_div]
  rw [hroot] at hnear
  rw [sfuV_rsq hf h0]
  exact ⟨hfin, hfl.trans (if_congr (eq_div_iff h0.ne') rfl rfl), hnear⟩

/-- Settles O14: steps by `step79_prod`; of the special functions, special operands by Table 6.7, roots by `sqrtRep_rounded`, the others by how
near their representatives are. -/
theorem stepIsExactSumRoundedOnce : Obligations.StepIsExactSumRoundedOnce := by
  unfold Obligations.StepIsExactSumRoundedOnce
  refine ⟨fun acc ts ha h => step79_prod ha h, fun a => ⟨fun h f m => sfuV_nan h f m, fun n h => sfuV_inf h, fun n h => sfuV_zero h,
    fun hf h => sfuV_neg hf h, fun hf h0 => ⟨sfuV_rcp hf h0, within_sin hf h0, within_cos hf h0, within_exp2 hf h0, sfuV_exp2_overflow hf,
      fun k hk h1 h2 => sfuV_exp2_int hf h0 hk h1 h2⟩,
    fun hf h0 => ⟨fun m => ?_, sfuV_rsq_rounded hf h0, within_log2 hf h0, fun k hk => sfuV_log2_pow hf hk⟩⟩⟩
  obtain ⟨hlo, hhi⟩ := ratW_middling hf h0
  have h := sqrtRep_rounded hlo hhi m
  rw [← sfuV_sqrt hf h0 m] at h
  exact h

end Sys2Proof.Machine
end

section
/-! PROOFS. Folds and merges (06 R79, R195, R196, R198, Table 6.12). -/

namespace Sys2Proof.Machine

open Sys2Proof

-- Proofs are elaborated one after another: the whole text is compiled in one process of bounded memory.
set_option Elab.async false

/-! ### Integer folds -/

theorem ofNat_wrapInt (x : Int) : BitVec.ofNat 32 (wrapInt 32 x) = BitVec.ofInt 32 x := by
  refine BitVec.eq_of_toNat_eq ?_
  rw [BitVec.toNat_ofNat, BitVec.toNat_ofInt, wrapInt]
  refine Nat.mod_eq_of_lt ?_
  have := Int.emod_lt_of_pos x (show (0 : Int) < 2 ^ 32 by norm_num)
  omega

section
variable {ty : Ty} (hty : ty.isInt32 = true)
include hty

theorem elemInt_eq (w : Word) : elemInt ty w 0 = if ty = .s32 then w.toInt else w.toNat := by
  cases ty with
  | s32 | n32 => simp [elemInt, widthOf, signedInt]
  | _ => exact absurd hty (by decide)

/-- The integer that a word is. -/
theorem intOf_toNat (w : Word) : intOf ty w.toNat = elemInt ty w 0 := by
  have hlt := w.isLt
  rw [elemInt_eq hty]
  cases ty with
  | s32 =>
    have hmod : w.toNat % 2 ^ 32 = w.toNat := Nat.mod_eq_of_lt hlt
    simp only [intOf, widthOf, signedInt, BitVec.toInt_eq_toNat_cond, hmod, if_true, Bool.true_and, decide_eq_true_eq]
    split_ifs <;> omega
  | n32 =>
    have hmod : w.toNat % 2 ^ 32 = w.toNat := Nat.mod_eq_of_lt hlt
    simp only [intOf, widthOf, signedInt, hmod, Bool.false_and, Bool.false_eq_true, if_false, reduceCtorEq]
  | _ => exact absurd hty (by decide)

/-- A word comes back from its integer. -/
theorem ofInt_elemInt (w : Word) : BitVec.ofInt 32 (elemInt ty w 0) = w := by
  rw [elemInt_eq hty]
  split_ifs
  · exact BitVec.ofInt_toInt
  · rw [BitVec.ofInt_natCast, BitVec.ofNat_toNat, BitVec.setWidth_eq]

/-- A fold over a non-empty list, as `foldV` makes it. -/
theorem foldV_int_cons (x : Word) (xs : List Word) :
    foldV .add ty false (x :: xs) = (BitVec.ofInt 32 ((xs.map fun w => elemInt ty w 0).foldl (· + ·) (elemInt ty x 0)), 0) ∧
    foldV .min ty false (x :: xs) = (BitVec.ofInt 32 ((xs.map fun w => elemInt ty w 0).foldl min (elemInt ty x 0)), 0) ∧
    foldV .max ty false (x :: xs) = (BitVec.ofInt 32 ((xs.map fun w => elemInt ty w 0).foldl max (elemInt ty x 0)), 0) := by
  simp only [← ofNat_wrapInt, ← intOf_toNat hty]
  cases ty with
  | s32 | n32 => exact ⟨rfl, rfl, rfl⟩
  | _ => exact absurd hty (by decide)

end

/-- A fold by a choice of the one of two that stands first in an order gives the first of all. -/
theorem foldl_choice {f : Word → Int} {op : Int → Int → Int} {R : Int → Int → Prop} (hrefl : ∀ a, R a a)
    (htrans : ∀ a b c, R a b → R b c → R a c)
    (hop : ∀ a b, (op a b = a ∧ R a b) ∨ (op a b = b ∧ R b a)) :
    ∀ (xs : List Word) (x : Word), ∃ w ∈ x :: xs, (xs.map f).foldl op (f x) = f w ∧ ∀ v ∈ x :: xs, R (f w) (f v)
  | [], x => ⟨x, List.mem_singleton_self x, rfl, fun v hv => by rw [List.mem_singleton.mp hv]; exact hrefl _⟩
  | y :: ys, x => by
    rw [List.map_cons, List.foldl_cons]
    rcases hop (f x) (f y) with ⟨he, hR⟩ | ⟨he, hR⟩
    · obtain ⟨w, hw, hfold, hall⟩ := foldl_choice (f := f) hrefl htrans hop ys x
      rw [List.forall_mem_cons] at hall
      refine ⟨w, by rw [List.mem_cons] at hw ⊢; exact hw.imp_right (List.mem_cons_of_mem _), by rw [he]; exact hfold, ?_⟩
      simp only [List.forall_mem_cons]
      exact ⟨hall.1, htrans _ _ _ hall.1 hR, hall.2⟩
    · obtain ⟨w, hw, hfold, hall⟩ := foldl_choice (f := f) hrefl htrans hop ys y
      rw [List.forall_mem_cons] at hall
      refine ⟨w, List.mem_cons_of_mem _ hw, by rw [he]; exact hfold, ?_⟩
      simp only [List.forall_mem_cons]
      exact ⟨htrans _ _ _ hall.1 hR, hall.1, hall.2⟩

theorem foldV_min {ty : Ty} (hty : ty.isInt32 = true) {ws : List Word} (h : ws ≠ []) :
    (foldV .min ty false ws).1 ∈ ws ∧ ∀ w ∈ ws, elemInt ty (foldV .min ty false ws).1 0 ≤ elemInt ty w 0 := by
  obtain ⟨x, xs, rfl⟩ := List.exists_cons_of_ne_nil h
  obtain ⟨w, hw, hfold, hall⟩ := foldl_choice (f := fun w => elemInt ty w 0) (op := min) (R := (· ≤ ·)) le_refl (fun _ _ _ => le_trans)
    (fun a b => (le_total a b).imp (fun h => ⟨min_eq_left h, h⟩) fun h => ⟨min_eq_right h, h⟩) xs x
  rw [(foldV_int_cons hty x xs).2.1, hfold, ofInt_elemInt hty]
  exact ⟨hw, hall⟩

theorem foldV_max {ty : Ty} (hty : ty.isInt32 = true) {ws : List Word} (h : ws ≠ []) :
    (foldV .max ty false ws).1 ∈ ws ∧ ∀ w ∈ ws, elemInt ty w 0 ≤ elemInt ty (foldV .max ty false ws).1 0 := by
  obtain ⟨x, xs, rfl⟩ := List.exists_cons_of_ne_nil h
  obtain ⟨w, hw, hfold, hall⟩ := foldl_choice (f := fun w => elemInt ty w 0) (op := max) (R := (· ≥ ·)) le_refl (fun _ _ _ h h' => le_trans h' h)
    (fun a b => (le_total b a).imp (fun h => ⟨max_eq_left h, h⟩) fun h => ⟨max_eq_right h, h⟩) xs x
  rw [(foldV_int_cons hty x xs).2.2, hfold, ofInt_elemInt hty]
  exact ⟨hw, hall⟩

theorem foldV_add {ty : Ty} (hty : ty.isInt32 = true) {ws : List Word} (h : ws ≠ []) :
    foldV .add ty false ws = (BitVec.ofInt 32 (ws.map fun w => elemInt ty w 0).sum, 0) := by
  obtain ⟨x, xs, rfl⟩ := List.exists_cons_of_ne_nil h
  have hsum : ∀ (l : List Int) (a : Int), l.foldl (· + ·) a = a + l.sum := fun l a => by
    induction l generalizing a with
    | nil => simp
    | cons b l ih => rw [List.foldl_cons, ih, List.sum_cons, add_assoc]
  rw [(foldV_int_cons hty x xs).1, hsum, List.map_cons, List.sum_cons]

/-- Table 6.12: the identities. -/
theorem foldV_nil {ty : Ty} (hty : ty.isInt32 = true) :
    foldV .min ty false [] = (if ty = .s32 then 0x7FFFFFFF else 0xFFFFFFFF, 0) ∧
    foldV .max ty false [] = (if ty = .s32 then 0x80000000 else 0, 0) ∧ foldV .add ty false [] = (0, 0) := by
  cases ty with
  | s32 | n32 => decide
  | _ => exact absurd hty (by decide)

/-! ### Bitwise folds -/

theorem bit_eq_getLsbD (w : Word) (i : Nat) : bit w i = w.getLsbD i := by
  rw [bit, BitVec.getLsbD, Nat.testBit_eq_decide_div_mod_eq]
  exact Bool.beq_eq_decide_eq _ _

theorem bit_foldl_and (ws : List Word) (i : Nat) :
    ∀ a : Word, bit (ws.foldl (· &&& ·) a) i = true ↔ bit a i = true ∧ ∀ w ∈ ws, bit w i = true := by
  induction ws with
  | nil => simp
  | cons w ws ih =>
    intro a
    rw [List.foldl_cons, ih, List.forall_mem_cons, ← and_assoc]
    simp only [bit_eq_getLsbD, BitVec.getLsbD_and, Bool.and_eq_true]

theorem bit_foldl_or (ws : List Word) (i : Nat) :
    ∀ a : Word, bit (ws.foldl (· ||| ·) a) i = true ↔ bit a i = true ∨ ∃ w ∈ ws, bit w i = true := by
  induction ws with
  | nil => simp
  | cons w ws ih =>
    intro a
    rw [List.foldl_cons, ih, List.exists_mem_cons_iff, ← or_assoc]
    simp only [bit_eq_getLsbD, BitVec.getLsbD_or, Bool.or_eq_true]

theorem bit_foldl_xor (ws : List Word) (i : Nat) :
    ∀ a : Word, bit (ws.foldl (· ^^^ ·) a) i = xor (bit a i) (decide ((ws.countP fun w => bit w i) % 2 = 1)) := by
  induction ws with
  | nil => simp
  | cons w ws ih =>
    intro a
    rw [List.foldl_cons, ih, List.countP_cons]
    have hx : bit (a ^^^ w) i = xor (bit a i) (bit w i) := by simp only [bit_eq_getLsbD, BitVec.getLsbD_xor]
    rw [hx, Bool.xor_assoc]
    congr 1
    cases bit w i
    · simp
    · simp only [if_true, Bool.true_xor, ← decide_not, decide_eq_decide]
      omega

/-! ### Sums of F32 -/

/-- R196: a sum does not depend on the order. -/
theorem sum196_perm {vs ws : List Word} (h : vs.Perm ws) : sum196 false vs = sum196 false ws := by
  have hm := h.map fv
  simp only [sum196, sigFlag, hm.any_eq, hm.all_eq, (hm.map FV.rat).sum_eq]

theorem sum196_fin {ws : List Word} (hf : ∀ w ∈ ws, (fv w).isFin = true) (h0 : ∃ w ∈ ws, w ≠ 0x80000000) :
    (sum196 false ws).1 = roundW .rn (ws.map ratW).sum := by
  have hany : ∀ p : FV → Bool, (∀ n q, p (.fin n q) = false) → (ws.map fv).any p = false := fun p hp => by
    simp only [List.any_map, List.any_eq_false, Function.comp]
    intro w hw
    obtain ⟨n, q, hq⟩ := FV.exists_of_isFin (hf w hw)
    rw [hq, hp]
    exact Bool.false_ne_true
  have hall : (ws.map fv).all (· == .fin true 0) = false := by
    obtain ⟨w, hw, hne⟩ := h0
    simp only [List.all_map, List.all_eq_false, Function.comp]
    exact ⟨w, hw, by rw [beq_iff_eq]; exact fun he => hne (fv_eq_zero.mp he)⟩
  simp only [sum196, hany FV.isNan fun _ _ => rfl, hany (· == .inf false) fun _ _ => rfl, hany (· == .inf true) fun _ _ => rfl, hall, Bool.false_and,
    Bool.false_eq_true, if_false, flush_false, List.map_map]
  rfl

theorem sum196_nan {ws : List Word} (h : ∃ w ∈ ws, (fv w).isNan = true) : (sum196 false ws).1 = 0x7FC00000 := by
  have hany : (ws.map fv).any FV.isNan = true := by
    obtain ⟨w, hw, hn⟩ := h
    exact List.any_eq_true.mpr ⟨fv w, List.mem_map_of_mem hw, hn⟩
  rw [sum196, if_pos hany]

theorem foldV_add_f32 (ws : List Word) : foldV .add .f32 false ws = if ws.isEmpty then (0, 0) else sum196 false ws := rfl

/-! ### The order of keys (R198) -/

/-- Where a value stands among keys: −∞, finite values with −0 below +0, +∞, NaN. -/
def keyPlace : FV → Int ×ₗ Rat ×ₗ Bool
  | .inf true => toLex (-1, toLex (0, false))
  | .fin n q => toLex (0, toLex ((FV.fin n q).rat, !n))
  | .inf false => toLex (1, toLex (0, false))
  | .nan _ => toLex (2, toLex (0, false))

/-- The place of a key of a type. -/
def keyRank (ty : Ty) (w : Word) : Int ×ₗ Rat ×ₗ Bool :=
  match ty with
  | .f32 => keyPlace (fv w)
  | t => toLex (intOf t w.toNat, toLex (0, false))

theorem ltSigned_iff {x y : FV} (hx : x.isNan = false) (hy : y.isNan = false) : ltSigned x y = true ↔ keyPlace x < keyPlace y := by
  cases x with
  | nan s => exact absurd hx.symm Bool.false_ne_true
  | inf s =>
    cases y with
    | nan t => exact absurd hy.symm Bool.false_ne_true
    | inf t => cases s <;> cases t <;> decide
    | fin t q => cases s <;> simp [ltSigned, FV.lt, FV.eqv, FV.isNan, FV.neg, keyPlace, Prod.Lex.toLex_lt_toLex]
  | fin s p =>
    cases y with
    | nan t => exact absurd hy.symm Bool.false_ne_true
    | inf t => cases t <;> simp [ltSigned, FV.lt, FV.eqv, FV.isNan, FV.neg, keyPlace, Prod.Lex.toLex_lt_toLex]
    | fin t q =>
      simp only [ltSigned, FV.lt, FV.eqv, FV.isNan, FV.neg, keyPlace, Prod.Lex.toLex_lt_toLex]
      generalize (FV.fin s p).rat = u
      generalize (FV.fin t q).rat = v
      rcases lt_trichotomy u v with h | rfl | h
      · simp [h]
      · cases s <;> cases t <;> simp
      · simp [h.not_gt, h.ne', h]

/-- The order of keys is the order of their places. -/
theorem keyLt_iff {ty : Ty} (hty : ty = .f32 ∨ ty.isInt32 = true) (a b : Word) : keyLt ty a b = true ↔ keyRank ty a < keyRank ty b := by
  have hint : ∀ x y : Int, decide (x < y) = true ↔
      (toLex (x, toLex (0, false)) : Int ×ₗ Rat ×ₗ Bool) < toLex (y, toLex (0, false)) := fun x y => by
    simp [Prod.Lex.toLex_lt_toLex]
  cases ty with
  | s32 | n32 => exact hint _ _
  | f32 =>
    have hnan : ∀ {x : FV}, x.isNan = true → keyPlace x = toLex (2, toLex (0, false)) := fun {x} h => by
      cases x with
      | nan s => rfl
      | inf n => exact absurd h Bool.false_ne_true
      | fin n q => exact absurd h Bool.false_ne_true
    have hlt : ∀ {x : FV}, x.isNan = false → keyPlace x < toLex (2, toLex (0, false)) := fun {x} h => by
      cases x with
      | nan s => exact absurd h.symm Bool.false_ne_true
      | inf n => cases n <;> decide
      | fin n q => simp [keyPlace, Prod.Lex.toLex_lt_toLex]
    simp only [keyLt, keyRank]
    by_cases ha : (fv a).isNan = true
    · rw [if_pos ha, hnan ha]
      refine iff_of_false Bool.false_ne_true (not_lt.mpr ?_)
      by_cases hb : (fv b).isNan = true
      · exact (hnan hb).le
      · exact (hlt (Bool.eq_false_iff.mpr hb)).le
    · rw [if_neg ha]
      by_cases hb : (fv b).isNan = true
      · rw [if_pos hb, hnan hb]
        exact iff_of_true rfl (hlt (Bool.eq_false_iff.mpr ha))
      · rw [if_neg hb]
        exact ltSigned_iff (Bool.eq_false_iff.mpr ha) (Bool.eq_false_iff.mpr hb)
  | _ => exact absurd hty (by decide)

/-- The place of a key in the direction of the merge. -/
theorem keyBefore_iff {ty : Ty} (hty : ty = .f32 ∨ ty.isInt32 = true) (desc : Bool) (y x : Word) :
    keyBefore ty desc y x = true ↔ if desc then keyRank ty x < keyRank ty y else keyRank ty y < keyRank ty x := by
  cases desc
  · exact keyLt_iff hty y x
  · exact keyLt_iff hty x y

/-! ### Merges (R198) -/

theorem mergeRuns_perm (ty : Ty) (desc : Bool) : ∀ (n : Nat) (xs ys : List (Word × Word)), xs.length + ys.length ≤ n →
    (mergeRuns ty desc n xs ys).Perm (xs ++ ys)
  | 0, xs, ys, h => by
    obtain rfl : xs = [] := List.length_eq_zero_iff.mp (by omega)
    obtain rfl : ys = [] := List.length_eq_zero_iff.mp (by omega)
    exact List.Perm.refl _
  | _ + 1, [], ys, _ => List.Perm.refl _
  | _ + 1, x :: xs, [], _ => by rw [List.append_nil]; exact List.Perm.refl _
  | n + 1, x :: xs, y :: ys, h => by
    simp only [List.length_cons] at h
    rw [mergeRuns]
    split_ifs
    · refine ((mergeRuns_perm ty desc n (x :: xs) ys (by simp only [List.length_cons]; omega)).cons y).trans ?_
      exact (List.perm_middle (a := y) (l₁ := x :: xs) (l₂ := ys)).symm
    · exact (mergeRuns_perm ty desc n xs (y :: ys) (by simp only [List.length_cons]; omega)).cons x

/-- Merging two runs that a total order sorts gives one that it sorts. -/
theorem mergeRuns_sorted (ty : Ty) (desc : Bool) (before : Word × Word → Word × Word → Prop)
    (htrans : ∀ x y z, before x y → before y z → before x z) (hyes : ∀ x y, keyBefore ty desc y.1 x.1 = true → before y x)
    (hno : ∀ x y, keyBefore ty desc y.1 x.1 = false → before x y) :
    ∀ (n : Nat) (xs ys : List (Word × Word)), xs.length + ys.length ≤ n → xs.Pairwise before → ys.Pairwise before →
      (mergeRuns ty desc n xs ys).Pairwise before
  | 0, _, _, _, _, _ => List.Pairwise.nil
  | _ + 1, [], _, _, _, hys => hys
  | _ + 1, _ :: _, [], _, hxs, _ => hxs
  | n + 1, x :: xs, y :: ys, h, hxs, hys => by
    simp only [List.length_cons] at h
    rw [mergeRuns]
    obtain ⟨hx, hxs'⟩ := List.pairwise_cons.mp hxs
    obtain ⟨hy, hys'⟩ := List.pairwise_cons.mp hys
    split_ifs with hb
    · have hlen : (x :: xs).length + ys.length ≤ n := by simp only [List.length_cons]; omega
      refine List.pairwise_cons.mpr ⟨fun z hz => ?_, mergeRuns_sorted ty desc before htrans hyes hno n _ _ hlen hxs hys'⟩
      rcases List.mem_append.mp ((mergeRuns_perm ty desc n _ _ hlen).mem_iff.mp hz) with hz | hz
      · rcases List.mem_cons.mp hz with rfl | hz
        · exact hyes _ _ hb
        · exact htrans _ _ _ (hyes _ _ hb) (hx z hz)
      · exact hy z hz
    · have hlen : xs.length + (y :: ys).length ≤ n := by simp only [List.length_cons]; omega
      have hxy := hno _ _ (Bool.eq_false_iff.mpr hb)
      refine List.pairwise_cons.mpr ⟨fun z hz => ?_, mergeRuns_sorted ty desc before htrans hyes hno n _ _ hlen hxs' hys⟩
      rcases List.mem_append.mp ((mergeRuns_perm ty desc n _ _ hlen).mem_iff.mp hz) with hz | hz
      · exact hx z hz
      · rcases List.mem_cons.mp hz with rfl | hz
        · exact hxy
        · exact htrans _ _ _ hxy (hy z hz)

/-- Settles O17: integer folds pick an element or add, bitwise folds work bit by bit, F32 sums are of a multiset, and keys are merged in the order of
their places. -/
theorem foldsAndMerges : Obligations.FoldsAndMerges := by
  unfold Obligations.FoldsAndMerges
  refine ⟨fun ws h => ⟨fun ty hty => ⟨foldV_add hty h, foldV_min hty h, foldV_max hty h, foldV_nil hty⟩,
    fun i hi => ⟨?_, ?_, ?_⟩, fun vs hp => ?_,
    fun hf h0 => ?_, fun hn => ?_⟩, fun ty desc n xs ys hn hty => ⟨mergeRuns_perm ty desc n xs ys hn, fun hxs hys => ?_⟩⟩
  · have hones : ∀ i, i < 32 → bit 0xFFFFFFFF i = true := by decide
    exact (bit_foldl_and ws i _).trans (and_iff_right (hones i hi))
  · have hzero : bit 0 i = false := by simp [bit]
    exact (bit_foldl_or ws i 0).trans (or_iff_right (by rw [hzero]; exact Bool.false_ne_true))
  · have hzero : bit 0 i = false := by simp [bit]
    show bit (ws.foldl (· ^^^ ·) 0) i = true ↔ _
    rw [bit_foldl_xor, hzero, Bool.false_xor, decide_eq_true_eq]
  · rw [foldV_add_f32, foldV_add_f32, hp.isEmpty_eq, sum196_perm hp]
  · rw [foldV_add_f32, if_neg (by simpa using h)]
    exact sum196_fin hf h0
  · rw [foldV_add_f32, if_neg (by simpa using h)]
    exact sum196_nan hn
  · have hiff : ∀ x y : Word × Word, keyBefore ty desc y.1 x.1 = false ↔
        if desc then keyRank ty y.1 ≤ keyRank ty x.1 else keyRank ty x.1 ≤ keyRank ty y.1 :=
      fun x y => by
        rw [← Bool.not_eq_true, keyBefore_iff hty]
        cases desc <;> simp
    refine mergeRuns_sorted ty desc _ (fun x y z hxy hyz => ?_) (fun x y hb => ?_) (fun x y hb => hb) n xs ys hn hxs hys
    · rw [hiff] at hxy hyz ⊢
      cases desc
      · exact le_trans hxy hyz
      · exact le_trans hyz hxy
    · rw [keyBefore_iff hty] at hb
      rw [hiff]
      cases desc
      · exact le_of_lt hb
      · exact le_of_lt hb

end Sys2Proof.Machine
end

section
/-! PROOFS. Rounding in order of its mode, overflow, and rounding to an integral value (03 R68, R69, R71, R73, 06 R181, R182). -/

namespace Sys2Proof.Machine

open Sys2Proof

-- Proofs are elaborated one after another: the whole text is compiled in one process of bounded memory.
set_option Elab.async false

/-! ### Rounding into a format -/

/-- R68: what an exact real within the range rounds to. -/
theorem roundX_rat {ty : Ty} (hty : ty.isFloat = true) (rm : RM) (sat z : Bool) {q : Rat} (h : |q| ≤ (fmtOf ty).mag (fmtOf ty).max) :
    (valueOf ty (roundX ty rm sat (.val q z)).1).isFin = true ∧ (valueOf ty (roundX ty rm sat (.val q z)).1).rat = (fmtOf ty).round rm q := by
  obtain ⟨c, fl, he, _, hv, hr, _⟩ := roundX_in_range hty rm sat z (abs_round_le_max rm h)
  rw [he]
  exact ⟨by rw [hv]; rfl, hr⟩

theorem Fmt.abs_round (f : Fmt) (rm : RM) (q : Rat) : |f.round rm q| = f.rounded rm (decide (q < 0)) |q| := by
  rw [Fmt.round]
  split_ifs with hn <;> simp [hn, abs_of_nonneg (Fmt.rounded_nonneg _ _ _)]

/-- A magnitude above twice the largest value does not round into the range. -/
theorem max_lt_abs_round {ty : Ty} (hty : ty.isFloat = true) (rm : RM) {q : Rat} (h : 2 * (fmtOf ty).mag (fmtOf ty).max < |q|) :
    (fmtOf ty).mag (fmtOf ty).max < |(fmtOf ty).round rm q| := by
  have hmin := (fmtOf ty).mag_strictMono.monotone (fmtOf_max hty).1
  rw [Fmt.mag_two_pow] at hmin
  have hone := zpow_two_pos (1 - ((fmtOf ty).bias : Int))
  have hx : 0 < |q| := by linarith
  obtain ⟨hlo, hhi⟩ := ilog2_bounds hx
  rw [zpow_two_add_one] at hhi
  have hlow : (fmtOf ty).low ≤ ilog2 |q| :=
    le_ilog2 hx ((zpow_two_le (by unfold Fmt.low; omega : (fmtOf ty).low ≤ 1 - ((fmtOf ty).bias : Int))).trans (by linarith))
  have hle := (fmtOf ty).steps_le_rounded rm (decide (q < 0)) hx (k := 1) Nat.one_le_two_pow hlow (by rwa [Nat.cast_one, one_mul])
  rw [Nat.cast_one, one_mul] at hle
  rw [Fmt.abs_round]
  linarith

/-- R69: the code that overflow gives, of the largest value or of infinity. -/
theorem overflowCode_eq {ty : Ty} (hty : ty.isFloat = true) (rm : RM) (sat n : Bool) : overflowCode ty rm sat n =
    if ty = .f8a ∨ ty = .f4 ∨ sat = true ∨ rm = .rz ∨ (rm = .rd ∧ n = false) ∨ (rm = .ru ∧ n = true) then (fmtOf ty).max
    else (2 ^ (fmtOf ty).e - 1) * 2 ^ (fmtOf ty).m := by
  cases ty with
  | f8a | f4 => simp [overflowCode, fmtOf]
  | f32 | f16 | e16 | f8b =>
    cases sat
    · cases rm <;> cases n <;> rfl
    · simp [overflowCode]
  | _ => exact absurd hty (by decide)

theorem valueOf_inf {ty : Ty} (hinf : (fmtOf ty).inf = true) (hty : ty.isFloat = true) (n : Bool) :
    valueOf ty (signed ty n ((2 ^ (fmtOf ty).e - 1) * 2 ^ (fmtOf ty).m)) = .inf n := by
  cases ty with
  | f32 | f16 | e16 | f8b => cases n <;> decide +kernel
  | f8a | f4 => exact absurd hinf (by decide)
  | _ => exact absurd hty (by decide)

theorem fmtOf_inf {ty : Ty} (hty : ty.isFloat = true) : (fmtOf ty).inf = true ↔ ¬ (ty = .f8a ∨ ty = .f4) := by
  cases ty with
  | f32 | f16 | e16 | f8a | f8b | f4 => decide
  | _ => exact absurd hty (by decide)

theorem valueOf_max {ty : Ty} (hty : ty.isFloat = true) (n : Bool) : valueOf ty (signed ty n (fmtOf ty).max) = .fin n ((fmtOf ty).mag (fmtOf ty).max) :=
  valueOf_signed hty n le_rfl

/-- R69: the value that overflow gives. -/
theorem valueOf_roundX_overflow {ty : Ty} (hty : ty.isFloat = true) (rm : RM) (sat z : Bool) {q : Rat}
    (h : 2 * (fmtOf ty).mag (fmtOf ty).max < |q|) : (roundX ty rm sat (.val q z)).2 = flOF ||| flNX ∧
      valueOf ty (roundX ty rm sat (.val q z)).1 =
        if ty = .f8a ∨ ty = .f4 ∨ sat = true ∨ rm = .rz ∨ (rm = .rd ∧ 0 < q) ∨ (rm = .ru ∧ q < 0) then
          .fin (decide (q < 0)) ((fmtOf ty).mag (fmtOf ty).max)
        else .inf (decide (q < 0)) := by
  have hpos : decide (q < 0) = false ↔ 0 < q := by
    rw [decide_eq_false_iff_not, not_lt, le_iff_lt_or_eq, or_iff_left]
    rintro rfl
    rw [abs_zero] at h
    linarith [(fmtOf ty).mag_nonneg (fmtOf ty).max]
  rw [roundX_overflow hty rm sat z (max_lt_abs_round hty rm h), overflowCode_eq hty]
  simp only [hpos, decide_eq_true_eq]
  refine ⟨trivial, ?_⟩
  split_ifs with hc
  · exact valueOf_max hty _
  · exact valueOf_inf ((fmtOf_inf hty).mpr fun h' => hc (h'.imp_right Or.inl)) hty _

/-! ### Rounding to an integral value -/

/-- What it means for `k` to be what `q` rounds to. -/
def RoundsTo (rm : RM) (q : Rat) (k : Int) : Prop :=
  match rm with
  | .rn => |(k : Rat) - q| ≤ 1 / 2 ∧ (|(k : Rat) - q| = 1 / 2 → k % 2 = 0)
  | .rz => |(k : Rat)| ≤ |q| ∧ |q| < |(k : Rat)| + 1 ∧ 0 ≤ k * q
  | .rd => (k : Rat) ≤ q ∧ q < k + 1
  | .ru => q ≤ (k : Rat) ∧ (k : Rat) - 1 < q

/-- The magnitude of the integer is that of the rounded magnitude; its sign is the number's. -/
theorem roundInt_eq (rm : RM) (q : Rat) : ∃ k : Nat, (magMode rm (decide (q < 0))).Rounds |q| k ∧ roundInt rm q = if q < 0 then -(k : Int) else k := by
  refine ⟨roundNat rm (decide (q < 0)) q.num.natAbs q.den, ?_, by simp [roundInt]⟩
  have h := roundNat_rounds rm (decide (q < 0)) q.num.natAbs q.den_pos
  have habs : (q.num.natAbs : Rat) / q.den = |q| := by
    rcases le_or_gt 0 q with hq | hq
    · rw [num_natAbs_div_den hq, abs_of_nonneg hq]
    · have := num_natAbs_div_den (neg_nonneg.mpr hq.le)
      rwa [Rat.neg_num, Rat.neg_den, Int.natAbs_neg, ← abs_of_neg hq] at this
  rwa [habs] at h

theorem roundInt_roundsTo (rm : RM) (q : Rat) : RoundsTo rm q (roundInt rm q) := by
  obtain ⟨k, hk, he⟩ := roundInt_eq rm q
  rw [he]
  have hk0 : (0 : Rat) ≤ k := Nat.cast_nonneg k
  by_cases hq : q < 0
  · rw [if_pos hq]
    rw [decide_eq_true hq, abs_of_neg hq] at hk
    cases rm with
    | rn =>
      have hsub : |((-(k : Int) : Int) : Rat) - q| = |(k : Rat) - -q| := by rw [← abs_neg]; push_cast; ring_nf
      obtain ⟨h1, h2⟩ := hk
      exact ⟨hsub ▸ h1, fun h => by have := h2 (hsub ▸ h); omega⟩
    | rz =>
      obtain ⟨h1, h2⟩ := hk
      push_cast [RoundsTo]
      rw [abs_neg, abs_of_nonneg hk0, abs_of_neg hq]
      exact ⟨h1, h2, mul_nonneg_of_nonpos_of_nonpos (neg_nonpos.mpr hk0) hq.le⟩
    | rd =>
      obtain ⟨h1, h2⟩ := hk
      push_cast [RoundsTo]
      exact ⟨by linarith, by linarith⟩
    | ru =>
      obtain ⟨h1, h2⟩ := hk
      push_cast [RoundsTo]
      exact ⟨by linarith, by linarith⟩
  · rw [if_neg hq]
    have hq0 := not_lt.mp hq
    rw [decide_eq_false hq, abs_of_nonneg hq0] at hk
    cases rm with
    | rn =>
      obtain ⟨h1, h2⟩ := hk
      exact ⟨by exact_mod_cast h1, fun h => by have := h2 (by exact_mod_cast h); omega⟩
    | rz =>
      obtain ⟨h1, h2⟩ := hk
      push_cast [RoundsTo]
      rw [abs_of_nonneg hk0, abs_of_nonneg hq0]
      exact ⟨h1, h2, mul_nonneg hk0 hq0⟩
    | rd =>
      obtain ⟨h1, h2⟩ := hk
      push_cast [RoundsTo]
      exact ⟨h1, h2⟩
    | ru =>
      obtain ⟨h1, h2⟩ := hk
      push_cast [RoundsTo]
      exact ⟨h1, by linarith⟩

/-- An integer rounds to itself. -/
theorem roundInt_of_abs {q : Rat} (rm : RM) {j : Nat} (h : |q| = j) : (roundInt rm q : Rat) = q := by
  obtain ⟨k, hk, he⟩ := roundInt_eq rm q
  rw [h] at hk
  rw [he, hk.eq_of_eq]
  split_ifs with hq
  · push_cast
    rw [← h, abs_of_neg hq, neg_neg]
  · push_cast
    rw [← h, abs_of_nonneg (not_lt.mp hq)]

/-! ### Words of exact results -/

/-- A number of F32's precision and range as a word. -/
theorem fv_roundX_exact {y : Rat} (n : Bool) (hr : (fmtOf .f32).round .rn y = y) (hle : |y| ≤ (fmtOf .f32).mag (fmtOf .f32).max) :
    fv (BitVec.ofNat 32 (roundX .f32 .rn false (.val y n)).1) = .fin (if y = 0 then n else decide (y < 0)) |y| ∧
      ratW (BitVec.ofNat 32 (roundX .f32 .rn false (.val y n)).1) = y ∧ (roundX .f32 .rn false (.val y n)).2 = 0 := by
  obtain ⟨c, fl, he, hc, hv, hrat, hfl, _⟩ := roundX_in_range (ty := .f32) rfl .rn false n (hr.symm ▸ hle : |(fmtOf .f32).round .rn y| ≤ _)
  rw [hr] at hv hrat
  rw [he, ratW, fv_ofNat hc]
  exact ⟨hv, hrat, hfl hr⟩

/-- A number on the side of zero of a finite word, or zero with its sign, has its sign. -/
theorem neg_of_same_side {a : Word} (hf : (fv a).isFin = true) {y : Rat} (hneg : y < 0 → ratW a < 0) (hpos : 0 < y → 0 < ratW a) :
    (if y = 0 then (fv a).neg else decide (y < 0)) = (fv a).neg := by
  have hs : (fv a).neg = if ratW a = 0 then (fv a).neg else decide (ratW a < 0) := (valueOf_eq_fin (ty := .f32) rfl a.isLt hf).2
  split_ifs with h0
  · rfl
  · rcases lt_or_gt_of_ne h0 with h | h
    · rw [if_neg (hneg h).ne] at hs
      exact (decide_eq_true h).trans (hs.trans (decide_eq_true (hneg h))).symm
    · rw [if_neg (hpos h).ne'] at hs
      exact (decide_eq_false h.not_gt).trans (hs.trans (decide_eq_false (hpos h).not_gt)).symm

/-- A finite word is an integer, or a number of steps below 1. -/
theorem abs_ratW_cases {a : Word} (hf : (fv a).isFin = true) :
    (∃ j : Nat, |ratW a| = j) ∨ ∃ (j n : Nat), j ≤ 2 ^ 24 ∧ (fmtOf .f32).low ≤ -(n : Int) ∧ |ratW a| = j * 2 ^ (-(n : Int)) := by
  obtain ⟨c, _, hc⟩ := abs_rat_eq_mag (ty := .f32) rfl a.isLt hf
  obtain ⟨j, u, hm, hj, hu⟩ := (fmtOf .f32).mag_eq c
  have he : |ratW a| = j * 2 ^ u := hc.trans hm
  rcases le_total 0 u with h | h
  · obtain ⟨i, hi⟩ := zpow_two_eq_nat_mul h
    exact .inl ⟨j * 2 ^ i, by rw [he, hi, zpow_zero, mul_one, Nat.cast_mul]⟩
  · obtain ⟨n, rfl⟩ : ∃ n : Nat, u = -(n : Int) := ⟨u.natAbs, by omega⟩
    exact .inr ⟨j, n, hj.le, hu, he⟩

section
variable {a : Word} (hf : (fv a).isFin = true)
include hf

/-- R181: the integral value is a value of F32 with the operand's sign. -/
theorem frndX_fin (rm : RM) : (fv (frndX rm a).1).isFin = true ∧ ratW (frndX rm a).1 = roundInt rm (ratW a) ∧ (fv (frndX rm a).1).neg = (fv a).neg ∧
    (frndX rm a).2 = 0 := by
  obtain ⟨k, hk, hint⟩ := roundInt_eq rm (ratW a)
  have hmax := abs_rat_le_max (ty := .f32) rfl a.isLt hf
  have habs : |(roundInt rm (ratW a) : Rat)| = k := by
    rw [hint]
    split_ifs <;> simp
  have hexact : (fmtOf .f32).round .rn (roundInt rm (ratW a)) = roundInt rm (ratW a) ∧
      |(roundInt rm (ratW a) : Rat)| ≤ (fmtOf .f32).mag (fmtOf .f32).max := by
    rcases abs_ratW_cases hf with ⟨j, hj⟩ | ⟨j, n, hj, _, he⟩
    · obtain ⟨c, _, hc⟩ := abs_rat_eq_mag (ty := .f32) rfl a.isLt hf
      rw [roundInt_of_abs rm hj]
      exact ⟨Fmt.round_mag _ _ hc, hmax⟩
    · have hk24 : k ≤ 2 ^ 24 := hk.le_of_ge (by
        rw [he]
        calc (j : Rat) * 2 ^ (-(n : Int)) ≤ j * 2 ^ (0 : Int) := mul_le_mul_of_nonneg_left (zpow_two_le (by omega)) (Nat.cast_nonneg j)
          _ ≤ ((2 ^ 24 : Nat) : Rat) := by rw [zpow_zero, mul_one]; exact_mod_cast hj)
      refine ⟨Fmt.round_steps (fmtOf .f32) .rn (k := k) (u := 0) hk24 (by decide) (by rw [habs, zpow_zero, mul_one]), ?_⟩
      rw [habs, f32_max_eq]
      have : (k : Rat) ≤ 2 ^ 24 := by exact_mod_cast hk24
      norm_num at this ⊢
      linarith
  have hside : ((roundInt rm (ratW a) : Rat) < 0 → ratW a < 0) ∧ (0 < (roundInt rm (ratW a) : Rat) → 0 < ratW a) := by
    have hz : ratW a = 0 → roundInt rm (ratW a) = 0 := fun h => by
      have := roundInt_of_abs (q := ratW a) rm (j := 0) (by rw [h, abs_zero, Nat.cast_zero])
      rw [h] at this ⊢
      exact_mod_cast this
    rcases lt_trichotomy (ratW a) 0 with hq | hq | hq
    · rw [hint, if_pos hq]
      exact ⟨fun _ => hq, fun h => absurd h (by push_cast; linarith [(Nat.cast_nonneg k : (0 : Rat) ≤ k)])⟩
    · rw [hz hq]
      simp
    · rw [hint, if_neg hq.not_gt]
      exact ⟨fun h => absurd h (by push_cast; linarith [(Nat.cast_nonneg k : (0 : Rat) ≤ k)]), fun _ => hq⟩
  have hdef : frndX rm a = (BitVec.ofNat 32 (roundX .f32 .rn false (.val (roundInt rm (ratW a)) (fv a).neg)).1, 0) := by
    obtain ⟨n, q, hq⟩ := FV.exists_of_isFin hf
    simp only [frndX, ratW, hq]
    rfl
  obtain ⟨hv, hrat, _⟩ := fv_roundX_exact (fv a).neg hexact.1 hexact.2
  rw [hdef]
  exact ⟨by rw [hv]; rfl, hrat, by rw [hv]; exact neg_of_same_side hf hside.1 hside.2, rfl⟩

/-- R181: the fraction is a value of F32 with the operand's sign. -/
theorem ffracX_fin : (fv (ffracX a false).1).isFin = true ∧ ratW (ffracX a false).1 = ratW a - roundInt .rz (ratW a) ∧
    (fv (ffracX a false).1).neg = (fv a).neg ∧ (ffracX a false).2 = 0 := by
  obtain ⟨k, hk, hint⟩ := roundInt_eq .rz (ratW a)
  have hdown : (k : Rat) ≤ |ratW a| := by
    cases h : decide (ratW a < 0) <;> rw [h] at hk <;> exact hk.1
  have hfrac : ratW a - roundInt .rz (ratW a) = if ratW a < 0 then -(|ratW a| - k) else |ratW a| - k := by
    rw [hint]
    split_ifs with hq
    · rw [abs_of_neg hq]; push_cast; ring
    · rw [abs_of_nonneg (not_lt.mp hq)]; push_cast; ring
  have habs : |ratW a - roundInt .rz (ratW a)| = |ratW a| - k := by
    rw [hfrac]
    split_ifs
    · rw [abs_neg, abs_of_nonneg (sub_nonneg.mpr hdown)]
    · exact abs_of_nonneg (sub_nonneg.mpr hdown)
  have hmax : |ratW a - roundInt .rz (ratW a)| ≤ (fmtOf .f32).mag (fmtOf .f32).max := by
    rw [habs]
    exact (sub_le_self _ (Nat.cast_nonneg k)).trans (abs_rat_le_max (ty := .f32) rfl a.isLt hf)
  have hexact : (fmtOf .f32).round .rn (ratW a - roundInt .rz (ratW a)) = ratW a - roundInt .rz (ratW a) := by
    rcases abs_ratW_cases hf with ⟨j, hj⟩ | ⟨j, n, hj, hn, he⟩
    · rw [roundInt_of_abs .rz hj, sub_self, Fmt.round_zero]
    · have hscale : (k : Rat) = ((k * 2 ^ n : Nat) : Rat) * 2 ^ (-(n : Int)) := by
        rw [zpow_neg, zpow_natCast]
        push_cast
        field_simp
      have hle : k * 2 ^ n ≤ j := by
        rw [hscale, he] at hdown
        exact_mod_cast le_of_mul_le_mul_right hdown (zpow_two_pos _)
      refine Fmt.round_steps (fmtOf .f32) .rn (k := j - k * 2 ^ n) ((Nat.sub_le _ _).trans hj) hn ?_
      rw [habs, he, Nat.cast_sub hle, sub_mul, ← hscale]
  have hside : (ratW a - roundInt .rz (ratW a) < 0 → ratW a < 0) ∧ (0 < ratW a - roundInt .rz (ratW a) → 0 < ratW a) := by
    rw [hfrac]
    split_ifs with hq
    · exact ⟨fun _ => hq, fun h => absurd h (by linarith)⟩
    · refine ⟨fun h => absurd h (by linarith), fun h => lt_of_le_of_ne (not_lt.mp hq) fun h0 => ?_⟩
      rw [← h0, abs_zero] at h
      linarith [(Nat.cast_nonneg k : (0 : Rat) ≤ k)]
  have hdef : ffracX a false = (BitVec.ofNat 32 (roundX .f32 .rn false (.val (ratW a - roundInt .rz (ratW a)) (fv a).neg)).1,
      (roundX .f32 .rn false (.val (ratW a - roundInt .rz (ratW a)) (fv a).neg)).2) := by
    obtain ⟨n, q, hq⟩ := FV.exists_of_isFin hf
    simp only [ffracX, ratW, hq, flush_false]
    rfl
  obtain ⟨hv, hrat, hfl⟩ := fv_roundX_exact (fv a).neg hexact hmax
  rw [hdef]
  exact ⟨by rw [hv]; rfl, hrat, by rw [hv]; exact neg_of_same_side hf hside.1 hside.2, hfl⟩

/-- R182: a scaled value, saturated at the largest one. -/
theorem fsclX_fin (h0 : (fv a).isZero = false) {e : Int} (h1 : -127 ≤ e) (h2 : e ≤ 127) : fsclX a e false =
    if ratW 0x7F7FFFFF < |ratW a * 2 ^ e| then (if (fv a).neg then 0xFF7FFFFF else 0x7F7FFFFF, flOF ||| flNX)
    else (roundW .rn (ratW a * 2 ^ e), (roundX .f32 .rn false (.val (ratW a * 2 ^ e) false)).2) := by
  obtain ⟨n, q, hq⟩ := FV.exists_of_isFin hf
  have hv := (valueOf_eq_fin (ty := .f32) rfl a.isLt hf).1
  rw [show valueOf .f32 a.toNat = .fin n q from hq] at hv
  have hqabs : q = |(FV.fin n q).rat| := (FV.fin.inj hv).2
  have hq0 : q ≠ 0 := fun h => by
    rw [hq, h] at h0
    exact absurd h0 (by simp [FV.isZero])
  have habs : |(FV.fin n q).rat * 2 ^ e| = q * 2 ^ e := by rw [abs_mul, ← hqabs, abs_of_pos (zpow_two_pos e)]
  have hsign : (if n = true then -(q * 2 ^ e) else q * 2 ^ e) = (FV.fin n q).rat * 2 ^ e := by
    cases n <;> simp [FV.rat]
  have hne : (FV.fin n q).rat * 2 ^ e ≠ 0 := mul_ne_zero (mt FV.rat_eq_zero.mp hq0) (zpow_two_pos e).ne'
  have hz : roundX .f32 .rn false (.val ((FV.fin n q).rat * 2 ^ e) n) = roundX .f32 .rn false (.val ((FV.fin n q).rat * 2 ^ e) false) := by
    simp only [roundX, if_neg hne]
  rw [ratW_max]
  simp only [fsclX, ratW, hq, if_neg (by omega : ¬ (e < -127 ∨ 127 < e)), if_neg hq0, pow2_eq_zpow, habs, flush_false, hsign, hz]
  rfl

end

end Sys2Proof.Machine
end

section
/-! PROOFS. Conversions, error-feedback narrowing, minimum and maximum (03 R69 to R72, 06 R180, R187, R188). -/

namespace Sys2Proof.Machine

open Sys2Proof

-- Proofs are elaborated one after another: the whole text is compiled in one process of bounded memory.
set_option Elab.async false

/-! ### Conversions to integers (R71) -/

theorem intMin_le_intMax (ty : Ty) : intMin ty ≤ intMax ty := by
  cases ty <;> decide

/-- An integer of the type's range comes back from its code. -/
theorem intOf_wrapInt {ty : Ty} {k : Int} (h1 : intMin ty ≤ k) (h2 : k ≤ intMax ty) : intOf ty (wrapInt (widthOf ty) k) = k := by
  have hpow : (2 : Int) ^ widthOf ty = 2 * 2 ^ (widthOf ty - 1) := by cases ty <;> rfl
  have hpos : (0 : Int) < 2 ^ (widthOf ty - 1) := by positivity
  have hcode : ((wrapInt (widthOf ty) k : Nat) : Int) = k % 2 ^ widthOf ty := Int.toNat_of_nonneg (Int.emod_nonneg _ (by positivity))
  have hlt : wrapInt (widthOf ty) k < 2 ^ widthOf ty := by
    zify
    rw [hcode]
    exact Int.emod_lt_of_pos _ (by positivity)
  simp only [intOf, Nat.mod_eq_of_lt hlt, Bool.and_eq_true, decide_eq_true_eq, ← Nat.cast_le (α := Int), hcode]
  push_cast
  unfold intMin at h1
  unfold intMax at h2
  rw [hpow] at h2 ⊢
  generalize (2 : Int) ^ (widthOf ty - 1) = s at *
  cases hs : signedInt ty
  · simp only [hs, Bool.false_eq_true, if_false, false_and] at h1 h2 ⊢
    exact Int.emod_eq_of_lt h1 (by omega)
  · simp only [hs, if_true, true_and] at h1 h2 ⊢
    rcases le_or_gt 0 k with h | h
    · rw [Int.emod_eq_of_lt h (by omega), if_neg (by omega)]
    · have : k % (2 * s) = k + 2 * s := by rw [← Int.add_emod_right, Int.emod_eq_of_lt (by omega) (by omega)]
      rw [this, if_pos (by omega)]
      ring

/-- R71: a finite value clamped to the integers of the type. -/
theorem toInt_fin {ty : Ty} (rm : RM) {v : FV} (hv : v.isFin = true) :
    intOf ty (toInt ty rm v).1 = min (max (roundInt rm v.rat) (intMin ty)) (intMax ty) ∧
      (toInt ty rm v).2 = if roundInt rm v.rat < intMin ty ∨ intMax ty < roundInt rm v.rat then flNV
        else if (roundInt rm v.rat : Rat) = v.rat then 0 else flNX := by
  have hm := intMin_le_intMax ty
  obtain ⟨n, q, rfl⟩ := FV.exists_of_isFin hv
  simp only [toInt]
  generalize roundInt rm (FV.fin n q).rat = k
  by_cases h1 : k < intMin ty
  · rw [if_pos h1, if_pos (Or.inl h1), intOf_wrapInt le_rfl hm, max_eq_right h1.le, min_eq_left hm]
    exact ⟨rfl, rfl⟩
  · rw [if_neg h1, max_eq_left (not_lt.mp h1)]
    by_cases h2 : intMax ty < k
    · rw [if_pos h2, if_pos (Or.inr h2), intOf_wrapInt hm le_rfl, min_eq_right h2.le]
      exact ⟨rfl, rfl⟩
    · rw [if_neg h2, if_neg (not_or.mpr ⟨h1, h2⟩), intOf_wrapInt (not_lt.mp h1) (not_lt.mp h2), min_eq_left (not_lt.mp h2)]
      exact ⟨rfl, rfl⟩

theorem toInt_inf (ty : Ty) (rm : RM) (n : Bool) :
    intOf ty (toInt ty rm (.inf n)).1 = (if n then intMin ty else intMax ty) ∧ (toInt ty rm (.inf n)).2 = flNV := by
  have hm := intMin_le_intMax ty
  cases n
  · exact ⟨intOf_wrapInt hm le_rfl, rfl⟩
  · exact ⟨intOf_wrapInt le_rfl hm, rfl⟩

/-! ### Conversions between formats (R69) -/

theorem toFloat_fin (ty : Ty) (rm : RM) (sat : Bool) {v : FV} (hv : v.isFin = true) : toFloat ty rm sat v = roundX ty rm sat (.val v.rat v.neg) := by
  obtain ⟨n, q, rfl⟩ := FV.exists_of_isFin hv
  rfl

theorem toFloat_nan {ty : Ty} (hty : ty.isFloat = true) (rm : RM) (sat : Bool) {v : FV} (hv : v.isNan = true) :
    toFloat ty rm sat v = if ty = .f4 then (0, flNV) else (nanCode ty, sigFlag [v]) := by
  cases v with
  | nan s =>
    cases ty with
    | f32 | f16 | e16 | f8a | f8b | f4 => cases s <;> rfl
    | _ => exact absurd hty (by decide)
  | inf n => exact absurd hv Bool.false_ne_true
  | fin n q => exact absurd hv Bool.false_ne_true

theorem toFloat_inf {ty : Ty} (hty : ty.isFloat = true) (rm : RM) (sat n : Bool) :
    (valueOf ty (toFloat ty rm sat (.inf n)).1, (toFloat ty rm sat (.inf n)).2) =
      if ty = .f8a ∨ ty = .f4 then (.fin n ((fmtOf ty).mag (fmtOf ty).max), flNV)
      else if sat then (.fin n ((fmtOf ty).mag (fmtOf ty).max), flOF ||| flNX)
      else (.inf n, 0) := by
  have hmax := valueOf_max hty n
  by_cases h : ty = .f8a ∨ ty = .f4
  · have hinf := mt (fmtOf_inf hty).mp (not_not.mpr h)
    simp only [toFloat, infInto, hinf, Bool.not_false, if_true, if_pos h, hmax]
  · have hinf := (fmtOf_inf hty).mpr h
    cases sat
    · simp only [toFloat, infInto, hinf, Bool.not_true, Bool.false_eq_true, if_false, if_neg h, valueOf_inf hinf hty]
    · simp only [toFloat, infInto, hinf, Bool.not_true, Bool.false_eq_true, if_false, if_true, if_neg h, hmax]

theorem cvtX_float_int {st dt : Ty} (hs : st.isFloat = true) (hd : dt.isFloat = false) (rm : RM) (sat : Bool) (c : Nat) :
    cvtX dt st rm sat false c = toInt dt rm (valueOf st c) := by
  simp [cvtX, hs, hd]

theorem cvtX_float_float {st dt : Ty} (hs : st.isFloat = true) (hd : dt.isFloat = true) (rm : RM) (sat : Bool) (c : Nat) :
    cvtX dt st rm sat false c = toFloat dt rm sat (valueOf st c) := by
  simp [cvtX, hs, hd]

/-! ### Error-feedback narrowing (R72) -/

/-- The error of rounding a word to a format whose range it lies in is a value of F32. -/
theorem round_residue (f : Fmt) {t : Rat} {c : Nat} (hc : |t| = (fmtOf .f32).mag c) (h : |t| ≤ (fmtOf .f32).mag (fmtOf .f32).max) :
    (fmtOf .f32).round .rn (t - f.round .rn t) = t - f.round .rn t ∧ |t - f.round .rn t| ≤ (fmtOf .f32).mag (fmtOf .f32).max := by
  have hle : |t - f.round .rn t| ≤ |t| := by
    have := f.round_rn_nearest (v := 0) (c := 0) (by rw [abs_zero, f.mag_zero]) t
    rwa [zero_sub, abs_neg, abs_sub_comm] at this
  refine ⟨?_, hle.trans h⟩
  by_cases h0 : t = 0
  · simp [h0]
  have hx : 0 < |t| := abs_pos.mpr h0
  obtain ⟨j, u, hm, hj, hu⟩ := (fmtOf .f32).mag_eq c
  have hj24 : j ≤ 2 ^ 24 := hj.le
  have habs : |t - f.round .rn t| = abs (f.rounded .rn (decide (t < 0)) |t| - |t|) := by
    rw [← f.abs_round]
    rcases lt_or_gt_of_ne h0 with hneg | hpos
    · rw [f.round_neg .rn hneg, abs_neg, abs_of_nonneg (f.rounded_nonneg .rn true), abs_of_neg hneg]
      congr 1
      ring
    · rw [f.round_pos .rn hpos, abs_of_nonneg (f.rounded_nonneg .rn false), abs_of_pos hpos, abs_sub_comm]
  generalize decide (t < 0) = n at habs
  rcases le_total u (f.unit |t|) with hle' | hle'
  · obtain ⟨i, hi⟩ := zpow_two_eq_nat_mul hle'
    have hsteps : f.rounded .rn n |t| - |t| = (((roundAt .rn n |t| (f.unit |t|) * 2 ^ i : Nat) : Int) - (j : Int) : Int) * 2 ^ u := by
      rw [Fmt.rounded, hi, hc, hm]
      push_cast
      ring
    generalize ((roundAt .rn n |t| (f.unit |t|) * 2 ^ i : Nat) : Int) - (j : Int) = z at hsteps
    have hz : |t - f.round .rn t| = (z.natAbs : Rat) * 2 ^ u := by
      rw [habs, hsteps, abs_mul, abs_of_pos (zpow_two_pos u), Nat.cast_natAbs, Int.cast_abs]
    refine Fmt.round_steps (fmtOf .f32) .rn (k := z.natAbs) (le_trans ?_ hj24) hu hz
    rw [hz, hc, hm] at hle
    exact_mod_cast le_of_mul_le_mul_right hle (zpow_two_pos u)
  · obtain ⟨i, hi⟩ := zpow_two_eq_nat_mul hle'
    have hgrid : |t| = ((j * 2 ^ i : Nat) : Rat) * 2 ^ f.unit |t| := by
      calc |t| = j * 2 ^ u := hc.trans hm
        _ = _ := by rw [hi]; push_cast; ring
    have hself : f.rounded .rn n |t| = |t| :=
      le_antisymm ((f.rounded_le_mul_unit .rn n hx hgrid.le).trans hgrid.ge) (hgrid.le.trans (f.mul_unit_le_rounded .rn n hx hgrid.ge))
    rw [hself, sub_self, abs_zero, abs_eq_zero] at habs
    rw [habs, Fmt.round_zero]

section
variable {v c : Word} (hv : (fv v).isFin = true) (hc : (fv c).isFin = true)
include hv hc

/-- The sum of `cvef`, with the sign of its zero. -/
theorem cvef_sum : addX .rn (fv v) (fv c) = (.val (ratW v + ratW c) (decide (v = 0x80000000 ∧ c = 0x80000000)), 0) := by
  rw [addX_fin .rn hv hc]
  have hzero : ∀ {w : Word}, (fv w).isFin = true → (w = 0x80000000 ↔ (fv w).rat = 0 ∧ (fv w).neg = true) := fun {w} hw => by
    obtain ⟨n, q, hq⟩ := FV.exists_of_isFin hw
    have h := fv_eq_zero (w := w) (n := true)
    rw [if_pos rfl] at h
    rw [← h, hq, FV.rat_eq_zero, FV.fin.injEq, FV.neg, and_comm]
  simp only [ratW, Prod.mk.injEq, XV.val.injEq, true_and, and_true, hzero hv, hzero hc]
  cases (fv v).neg <;> cases (fv c).neg <;> simp

/-- R72, R188: narrowing of a finite sum, and its residue. -/
theorem cvefX_fin {ty : Ty} (hty : ty.isFloat = true) :
    let t := roundX .f32 .rn false (.val (ratW v + ratW c) (decide (v = 0x80000000 ∧ c = 0x80000000)))
    let tv := valueOf .f32 t.1
    let y := roundX ty .rn false (.val tv.rat tv.neg)
    let yv := valueOf ty y.1
    tv.isFin = true → cvefX ty v c = (y.1, if yv.isFin then roundW .rn (tv.rat - yv.rat) else 0, t.2 ||| y.2) ∧
      (|tv.rat| ≤ (fmtOf ty).mag (fmtOf ty).max → ratW (cvefX ty v c).2.1 = tv.rat - yv.rat) := by
  intro t tv y yv htv
  have hdef : cvefX ty v c = (y.1, if yv.isFin then roundW .rn (tv.rat - yv.rat) else 0, t.2 ||| y.2) := by
    simp only [cvefX, cvef_sum hv hc]
    rw [show valueOf .f32 (roundX .f32 .rn false (.val (ratW v + ratW c) (decide (v = 0x80000000 ∧ c = 0x80000000)))).1 = tv from rfl,
      toFloat_fin ty .rn false htv]
    simp only [htv, Bool.true_and, show ∀ x : BitVec 5, 0 ||| x = x from fun _ => BitVec.zero_or]
    rfl
  refine ⟨hdef, fun hle => ?_⟩
  obtain ⟨hyf, hyr⟩ := roundX_rat hty .rn false tv.neg hle
  obtain ⟨k, _, hk⟩ := abs_rat_eq_mag (ty := .f32) rfl (roundX_lt (ty := .f32) rfl .rn false _) htv
  obtain ⟨hr, hmax⟩ := round_residue (fmtOf ty) hk (abs_rat_le_max (ty := .f32) rfl (roundX_lt (ty := .f32) rfl .rn false _) htv)
  rw [hdef]
  show ratW (if yv.isFin = true then _ else _) = _
  rw [if_pos hyf, show yv.rat = (fmtOf ty).round .rn tv.rat from hyr]
  exact (roundW_in_range .rn (hr.symm ▸ hmax)).2.trans hr

end

/-! ### Minimum and maximum (R180) -/

theorem minmaxW_flags (mx : Bool) (a b : Word) : (minmaxW mx a b).2 = if (fv a).isSig ∨ (fv b).isSig then flNV else 0 := by
  simp [minmaxW, sigFlag]

/-- Two values that are no NaN and stand at one place are the same. -/
theorem eq_of_keyPlace {x y : FV} (hx : x.isNan = false) (hy : y.isNan = false) (h : keyPlace x = keyPlace y) : x = y := by
  cases x with
  | nan s => exact absurd hx.symm Bool.false_ne_true
  | inf s =>
    cases y with
    | nan t => exact absurd hy.symm Bool.false_ne_true
    | inf t => cases s <;> cases t <;> simp [keyPlace] at h ⊢
    | fin t q => cases s <;> simp [keyPlace] at h
  | fin s p =>
    cases y with
    | nan t => exact absurd hy.symm Bool.false_ne_true
    | inf t => cases t <;> simp [keyPlace] at h
    | fin t q =>
      simp only [keyPlace, EmbeddingLike.apply_eq_iff_eq, Prod.mk.injEq, true_and, Bool.not_inj_iff] at h
      obtain ⟨hr, rfl⟩ := h
      cases s <;> simpa [FV.rat] using hr

/-- A value that is no NaN has one word. -/
theorem eq_of_fv {a b : Word} (ha : (fv a).isNan = false) (h : fv a = fv b) : a = b := by
  rcases fv_special a with hf | ⟨_, hi⟩ | ⟨s, hs⟩
  · exact fv_fin_inj hf h
  · exact (fv_eq_inf.mp hi).trans (fv_eq_inf.mp (h ▸ hi)).symm
  · rw [hs] at ha
    exact absurd ha.symm Bool.false_ne_true

section
variable {a b : Word} (ha : (fv a).isNan = false) (hb : (fv b).isNan = false)
include ha hb

theorem minmaxW_of_keyPlace (mx : Bool) : (minmaxW mx a b).1 = if mx then (if keyPlace (fv a) < keyPlace (fv b) then b else a)
    else (if keyPlace (fv b) < keyPlace (fv a) then b else a) := by
  simp only [minmaxW, ha, hb, ← ltSigned_iff ha hb, ← ltSigned_iff hb ha]

theorem minmaxW_comm (mx : Bool) : (minmaxW mx a b).1 = (minmaxW mx b a).1 := by
  rw [minmaxW_of_keyPlace ha hb, minmaxW_of_keyPlace hb ha]
  rcases lt_trichotomy (keyPlace (fv a)) (keyPlace (fv b)) with h | h | h
  · simp only [if_pos h, if_neg h.not_gt]
  · rw [eq_of_fv ha (eq_of_keyPlace ha hb h)]
  · simp only [if_pos h, if_neg h.not_gt]

theorem minmaxW_of_lt (mx : Bool) (h : (fv a).lt (fv b) = true) : (minmaxW mx a b).1 = if mx then b else a := by
  have hlt := (ltSigned_iff ha hb).mp (by rw [ltSigned, h, Bool.true_or])
  rw [minmaxW_of_keyPlace ha hb, if_pos hlt, if_neg hlt.not_gt]

end

/-! ### The clauses -/

theorem frndX_special (rm : RM) (a : Word) :
    ((fv a).isNan = true → frndX rm a = (0x7FC00000, sigFlag [fv a]) ∧ ffracX a false = (0x7FC00000, sigFlag [fv a])) ∧
    ∀ n, fv a = .inf n → frndX rm a = (a, 0) ∧ ffracX a false = (0x7FC00000, flNV) := by
  refine ⟨fun h => ?_, fun n h => ?_⟩
  · cases hv : fv a with
    | nan s => cases s <;> simp [frndX, ffracX, hv, sigFlag, FV.isSig]
    | inf n => rw [hv] at h; exact absurd h Bool.false_ne_true
    | fin n q => rw [hv] at h; exact absurd h Bool.false_ne_true
  · simp [frndX, ffracX, h]

theorem fsclX_special {e : Int} (h1 : -127 ≤ e) (h2 : e ≤ 127) (a : Word) :
    ((fv a).isNan = true → fsclX a e false = (0x7FC00000, sigFlag [fv a])) ∧
    ((∃ n, fv a = .inf n) ∨ (fv a).isZero = true → fsclX a e false = (a, 0)) := by
  have he : ¬ (e < -127 ∨ 127 < e) := by omega
  cases hv : fv a with
  | nan s => exact ⟨fun _ => by cases s <;> simp [fsclX, he, hv, sigFlag, FV.isSig], fun h => by simp [FV.isZero] at h⟩
  | inf n => exact ⟨fun h => absurd h Bool.false_ne_true, fun _ => by simp [fsclX, he, hv]⟩
  | fin n q => exact ⟨fun h => absurd h Bool.false_ne_true, fun h => by simp [FV.isZero] at h; simp [fsclX, he, hv, h]⟩

theorem toInt_nan (ty : Ty) (rm : RM) {v : FV} (hv : v.isNan = true) : toInt ty rm v = (0, flNV) := by
  cases v with
  | nan s => rfl
  | inf n => exact absurd hv Bool.false_ne_true
  | fin n q => exact absurd hv Bool.false_ne_true

/-- R68: the modes' order. -/
theorem roundX_ordered {ty : Ty} (hty : ty.isFloat = true) {q : Rat} (hq : |q| ≤ (fmtOf ty).mag (fmtOf ty).max) :
    let got := fun (m : RM) => valueOf ty (roundX ty m false (.val q false)).1
    (∀ m, (got m).isFin = true) ∧ (got .rd).rat ≤ q ∧ q ≤ (got .ru).rat ∧ |(got .rz).rat| ≤ |q| ∧
    ∀ (c : Nat), c < 2 ^ widthOf ty → (valueOf ty c).isFin = true →
      let w := (valueOf ty c).rat
      (w ≤ q → w ≤ (got .rd).rat) ∧ (q ≤ w → (got .ru).rat ≤ w) ∧ (|w| ≤ |q| → |w| ≤ |(got .rz).rat|) ∧ |(got .rn).rat - q| ≤ |w - q| := by
  intro got
  have hgot : ∀ m, (got m).isFin = true ∧ (got m).rat = (fmtOf ty).round m q := fun m => roundX_rat hty m false false hq
  simp only [(hgot _).2]
  refine ⟨fun m => (hgot m).1, Fmt.round_rd_le _ q, Fmt.le_round_ru _ q, Fmt.abs_round_rz_le _ q, fun c hc hf => ?_⟩
  obtain ⟨k, _, hk⟩ := abs_rat_eq_mag hty hc hf
  exact ⟨Fmt.le_round _ .rd hk, Fmt.round_le _ .ru hk, Fmt.abs_le_abs_round _ .rz hk, Fmt.round_rn_nearest _ hk q⟩

/-- Settles O8: rounding lies on its grid between neighbours; integral and fractional parts and residues are multiples of the operand's own step, so they
are values; the order of keys decides minimum and maximum. -/
theorem roundingAndMinMax : Obligations.RoundingAndMinMax := by
  unfold Obligations.RoundingAndMinMax
  intro near
  have hnear : ∀ (rm : RM) (q : Rat), near rm q (roundInt rm q) := roundInt_roundsTo
  refine ⟨⟨fun ty rm sat c hty hc hf => roundX_valueOf hty rm sat hc hf, fun ty q hty hq => roundX_ordered hty hq, ?_⟩, ?_, ?_, ?_,
    fun ty v c hty hv hc => cvefX_fin hv hc hty, ?_⟩
  · intro ty rm sat z q hty _ top hq r
    exact valueOf_roundX_overflow hty rm sat z hq
  · intro rm a x nan
    obtain ⟨hnan, hinf⟩ := frndX_special rm a
    exact ⟨hnan, hinf, fun hx => ⟨⟨_, hnear rm _, frndX_fin hx rm⟩, _, hnear .rz _, ffracX_fin hx⟩⟩
  · intro a e x q
    refine ⟨fun he => if_pos he, fun h1 h2 => ?_⟩
    obtain ⟨hnan, hsame⟩ := fsclX_special h1 h2 a
    exact ⟨hnan, hsame, fun hx h0 => fsclX_fin hx (Bool.not_eq_true' _ ▸ h0) h1 h2⟩
  · intro dt st rm sat c _ r v
    refine ⟨fun hs hd => ?_, fun hs hd => ?_, fun hs hd => ?_, fun hs hd _ => ?_⟩
    · have hr : r = toInt dt rm v := cvtX_float_int hs hd rm sat c
      rw [hr]
      exact ⟨toInt_nan dt rm, fun n hv => by rw [hv]; exact toInt_inf dt rm n, fun hv => ⟨_, hnear rm _, toInt_fin rm hv⟩⟩
    · simp [r, cvtX, hs, hd]
    · simp [r, cvtX, hs, hd, elemResult, wrapInt, narrow, clampTo]
    · have hr : r = toFloat dt rm sat v := cvtX_float_float hs hd rm sat c
      rw [hr]
      exact ⟨toFloat_fin dt rm sat, toFloat_nan hd rm sat, fun n hv => by rw [hv]; exact toFloat_inf hd rm sat n⟩
  · intro mx a b x y
    refine ⟨minmaxW_flags mx a b, fun hx hy => ?_, fun hx hy => ?_, fun hx hy => ?_, by decide +kernel⟩
    · simp only [minmaxW, show (fv a).isNan = true from hx, show (fv b).isNan = true from hy]
    · have hy' : (fv b).isNan = false := Bool.not_eq_true' _ ▸ hy
      simp only [minmaxW, show (fv a).isNan = true from hx, hy', and_self]
    · have hx' : (fv a).isNan = false := Bool.not_eq_true' _ ▸ hx
      have hy' : (fv b).isNan = false := Bool.not_eq_true' _ ▸ hy
      refine ⟨?_, minmaxW_comm hx' hy' mx, minmaxW_of_lt hx' hy' mx⟩
      rw [minmaxW_of_keyPlace hx' hy']
      split_ifs <;> simp

end Sys2Proof.Machine
end

section
/-! PROOFS. Intervals (03 R81, R82, 06 R185, R186): bounds as extended reals, exact images, and outward rounding. -/

namespace Sys2Proof.Machine

open Sys2Proof

-- Proofs are elaborated one after another: the whole text is compiled in one process of bounded memory.
set_option Elab.async false

/-! ### Bounds as extended reals -/

/-- The extended real that a bound is. -/
noncomputable def EB.ereal : EB → EReal
  | .ninf => ⊥
  | .fin q => ((q : ℝ) : EReal)
  | .pinf => ⊤

@[simp] theorem EB.ereal_fin (q : Rat) : (EB.fin q).ereal = ((q : ℝ) : EReal) := rfl

theorem EB.le_iff (a b : EB) : a.le b = true ↔ a.ereal ≤ b.ereal := by
  cases a <;> cases b <;> simp [EB.le, EB.ereal]

theorem EB.lt_iff (a b : EB) : a.lt b = true ↔ a.ereal < b.ereal := by
  rw [EB.lt, Bool.not_eq_true', ← Bool.not_eq_true, EB.le_iff, not_le]

theorem EB.ereal_min (a b : EB) : (a.min b).ereal = Min.min a.ereal b.ereal := by
  simp only [EB.min, EB.le_iff]
  split_ifs with h
  · exact (min_eq_left h).symm
  · exact (min_eq_right (not_le.mp h).le).symm

theorem EB.ereal_max (a b : EB) : (a.max b).ereal = Max.max a.ereal b.ereal := by
  simp only [EB.max, EB.le_iff]
  split_ifs with h
  · exact (max_eq_right h).symm
  · exact (max_eq_left (not_le.mp h).le).symm

theorem EB.ereal_add (a b : EB) : (a.add b).ereal = a.ereal + b.ereal := by
  cases a <;> cases b <;> simp [EB.add, EB.ereal]

theorem EB.ereal_neg (a : EB) : a.neg.ereal = -a.ereal := by
  cases a <;> simp [EB.neg, EB.ereal]

theorem EB.sgn_nonneg (a : EB) : 0 ≤ a.sgn ↔ 0 ≤ a.ereal := by
  cases a with
  | ninf => simp [EB.sgn, EB.ereal]
  | pinf => simp [EB.sgn, EB.ereal]
  | fin q =>
    rcases lt_trichotomy q 0 with h | rfl | h
    · simp [EB.sgn, h]
    · simp [EB.sgn]
    · simp [EB.sgn, h.not_gt, h.ne', h.le]

theorem EB.sgn_nonpos (a : EB) : a.sgn ≤ 0 ↔ a.ereal ≤ 0 := by
  cases a with
  | ninf => simp [EB.sgn, EB.ereal]
  | pinf => simp [EB.sgn, EB.ereal]
  | fin q =>
    rcases lt_trichotomy q 0 with h | rfl | h
    · simp [EB.sgn, h, h.le]
    · simp [EB.sgn]
    · simp [EB.sgn, h.not_gt, h.ne', h]

/-- A finite bound times an infinite one, 0 counted as 0. -/
theorem EB.ereal_fin_mul (q : Rat) {b : EB} (hb : b = .ninf ∨ b = .pinf) : ((EB.fin q).mul b).ereal = (q : ℝ) * b.ereal := by
  rcases lt_trichotomy q 0 with h | rfl | h
  · have hr : (q : ℝ) < 0 := by exact_mod_cast h
    rcases hb with rfl | rfl <;> simp [EB.mul, EB.sgn, EB.ereal, h, EReal.coe_mul_bot_of_neg hr, EReal.coe_mul_top_of_neg hr]
  · rcases hb with rfl | rfl <;> simp [EB.mul, EB.sgn, EB.ereal]
  · have hr : (0 : ℝ) < q := by exact_mod_cast h
    rcases hb with rfl | rfl <;> simp [EB.mul, EB.sgn, EB.ereal, h.not_gt, h.ne', EReal.coe_mul_bot_of_pos hr, EReal.coe_mul_top_of_pos hr]

theorem EB.mul_comm (a b : EB) : a.mul b = b.mul a := by
  cases a <;> cases b <;> simp [EB.mul, Rat.mul_comm, Int.mul_comm]

/-- R82's product of bounds is the product of extended reals. -/
theorem EB.ereal_mul (a b : EB) : (a.mul b).ereal = a.ereal * b.ereal := by
  cases a with
  | fin q =>
    cases b with
    | fin r => simp [EB.mul]
    | ninf => exact EB.ereal_fin_mul q (.inl rfl)
    | pinf => exact EB.ereal_fin_mul q (.inr rfl)
  | ninf =>
    cases b with
    | fin r => rw [EB.mul_comm, EB.ereal_fin_mul r (.inl rfl), EB.ereal_fin, EReal.mul_comm]
    | ninf => simp [EB.mul, EB.sgn, EB.ereal]
    | pinf => simp [EB.mul, EB.sgn, EB.ereal]
  | pinf =>
    cases b with
    | fin r => rw [EB.mul_comm, EB.ereal_fin_mul r (.inr rfl), EB.ereal_fin, EReal.mul_comm]
    | ninf => simp [EB.mul, EB.sgn, EB.ereal]
    | pinf => simp [EB.mul, EB.sgn, EB.ereal]

/-! ### Points of an interval -/

/-- A point lies in an interval. -/
def Iv.Holds (i : Iv) (x : Rat) : Prop := ∃ l h, i = some (l, h) ∧ l.ereal ≤ (x : ℝ) ∧ ((x : ℝ) : EReal) ≤ h.ereal

theorem inPair_iff_holds (x : Rat) (w : Word × Word) : inPair x w ↔ (ivRead w.1 w.2).Holds x := by
  unfold inPair Iv.Holds
  cases h : ivRead w.1 w.2 with
  | none => simp
  | some p =>
    obtain ⟨l, u⟩ := p
    simp only [EB.le_iff, EB.ereal_fin]
    exact ⟨fun h' => ⟨l, u, rfl, h'⟩, fun ⟨_, _, he, h'⟩ => by cases he; exact h'⟩

section
variable {i j : Iv} {x y : Rat} (hx : i.Holds x)
include hx

theorem Iv.Holds.neg : (ivNeg i).Holds (-x) := by
  obtain ⟨l, h, rfl, h1, h2⟩ := hx
  refine ⟨_, _, rfl, ?_, ?_⟩
  · push_cast
    rw [EB.ereal_neg]
    exact EReal.neg_le_neg_iff.mpr h2
  · push_cast
    rw [EB.ereal_neg]
    exact EReal.neg_le_neg_iff.mpr h1

theorem Iv.Holds.hull_left (j : Iv) : (ivHull i j).Holds x := by
  obtain ⟨l, h, rfl, h1, h2⟩ := hx
  cases j with
  | none => exact ⟨l, h, rfl, h1, h2⟩
  | some b => exact ⟨_, _, rfl, by rw [EB.ereal_min]; exact min_le_of_left_le h1, by rw [EB.ereal_max]; exact le_max_of_le_left h2⟩

theorem Iv.Holds.hull_right (j : Iv) : (ivHull j i).Holds x := by
  obtain ⟨l, h, rfl, h1, h2⟩ := hx
  cases j with
  | none => exact ⟨l, h, rfl, h1, h2⟩
  | some b => exact ⟨_, _, rfl, by rw [EB.ereal_min]; exact min_le_of_right_le h1, by rw [EB.ereal_max]; exact le_max_of_le_right h2⟩

/-- The image of the absolute value, of bounds at or above 0. -/
theorem Iv.Holds.abs : ∃ l h, ivAbs i = some (l, h) ∧ 0 ≤ l.ereal ∧ l.ereal ≤ ((|x| : Rat) : ℝ) ∧ (((|x| : Rat) : ℝ) : EReal) ≤ h.ereal := by
  obtain ⟨l, h, rfl, h1, h2⟩ := hx
  have hneg : ((-x : Rat) : ℝ) = -(x : ℝ) := by push_cast; rfl
  by_cases hl : 0 ≤ l.sgn
  · have hx0 : 0 ≤ x := by exact_mod_cast ((EB.sgn_nonneg l).mp hl).trans h1
    refine ⟨l, h, if_pos hl, (EB.sgn_nonneg l).mp hl, ?_⟩
    rw [abs_of_nonneg hx0]
    exact ⟨h1, h2⟩
  · by_cases hh : h.sgn ≤ 0
    · have hx0 : x ≤ 0 := by exact_mod_cast h2.trans ((EB.sgn_nonpos h).mp hh)
      refine ⟨h.neg, l.neg, (if_neg hl).trans (if_pos hh), ?_⟩
      rw [abs_of_nonpos hx0, hneg, EB.ereal_neg, EB.ereal_neg, EReal.coe_neg, EReal.neg_le_neg_iff, EReal.neg_le_neg_iff]
      exact ⟨EReal.le_neg_of_le_neg (by simpa using (EB.sgn_nonpos h).mp hh), h2, h1⟩
    · refine ⟨.fin 0, l.neg.max h, (if_neg hl).trans (if_neg hh), by simp, by simp, ?_⟩
      rw [EB.ereal_max, EB.ereal_neg]
      rcases abs_choice x with h' | h'
      · rw [h']
        exact le_max_of_le_right h2
      · rw [h', hneg, EReal.coe_neg]
        exact le_max_of_le_left (EReal.neg_le_neg_iff.mpr h1)

theorem Iv.Holds.sqr : (ivSqr i).Holds (x * x) := by
  obtain ⟨l, h, he, h0, h1, h2⟩ := hx.abs
  have hsq : (((x * x : Rat) : ℝ) : EReal) = (((|x| : Rat) : ℝ) : EReal) * (((|x| : Rat) : ℝ) : EReal) := by
    rw [← abs_mul_abs_self x]
    push_cast
    rfl
  have ha : (0 : EReal) ≤ (((|x| : Rat) : ℝ) : EReal) := h0.trans h1
  refine ⟨l.mul l, h.mul h, by rw [ivSqr, he]; rfl, ?_⟩
  rw [EB.ereal_mul, EB.ereal_mul, hsq]
  exact ⟨mul_le_mul h1 h1 h0 ha, mul_le_mul h2 h2 ha (ha.trans h2)⟩

variable (hy : j.Holds y)
include hy

theorem Iv.Holds.add : (ivAdd i j).Holds (x + y) := by
  obtain ⟨l, h, rfl, h1, h2⟩ := hx
  obtain ⟨l', h', rfl, h1', h2'⟩ := hy
  refine ⟨_, _, rfl, ?_, ?_⟩
  · push_cast
    rw [EB.ereal_add]
    exact add_le_add h1 h1'
  · push_cast
    rw [EB.ereal_add]
    exact add_le_add h2 h2'

theorem Iv.Holds.min : (ivMin i j).Holds (Min.min x y) := by
  obtain ⟨l, h, rfl, h1, h2⟩ := hx
  obtain ⟨l', h', rfl, h1', h2'⟩ := hy
  have hmin : (((Min.min x y : Rat) : ℝ) : EReal) = Min.min ((x : ℝ) : EReal) ((y : ℝ) : EReal) := by
    rw [Rat.cast_min]
    exact EReal.coe_strictMono.monotone.map_min
  refine ⟨_, _, rfl, ?_, ?_⟩
  · rw [EB.ereal_min, hmin]
    exact min_le_min h1 h1'
  · rw [EB.ereal_min, hmin]
    exact min_le_min h2 h2'

theorem Iv.Holds.max : (ivMax i j).Holds (Max.max x y) := by
  obtain ⟨l, h, rfl, h1, h2⟩ := hx
  obtain ⟨l', h', rfl, h1', h2'⟩ := hy
  have hmax : (((Max.max x y : Rat) : ℝ) : EReal) = Max.max ((x : ℝ) : EReal) ((y : ℝ) : EReal) := by
    rw [Rat.cast_max]
    exact EReal.coe_strictMono.monotone.map_max
  refine ⟨_, _, rfl, ?_, ?_⟩
  · rw [EB.ereal_max, hmax]
    exact max_le_max h1 h1'
  · rw [EB.ereal_max, hmax]
    exact max_le_max h2 h2'

end

/-! ### Products -/

/-- A product with a point of an interval lies between the products with its bounds. -/
theorem mul_between {l h x : EReal} (c : EReal) (h1 : l ≤ x) (h2 : x ≤ h) :
    (l * c ≤ x * c ∧ x * c ≤ h * c) ∨ (h * c ≤ x * c ∧ x * c ≤ l * c) := by
  rcases le_total 0 c with hc | hc
  · exact .inl ⟨mul_le_mul_of_nonneg_right h1 hc, mul_le_mul_of_nonneg_right h2 hc⟩
  · exact .inr ⟨EReal.mul_le_mul_of_nonpos_right h2 hc, EReal.mul_le_mul_of_nonpos_right h1 hc⟩

theorem mul_between' {l h x : EReal} (c : EReal) (h1 : l ≤ x) (h2 : x ≤ h) :
    Min.min (c * l) (c * h) ≤ c * x ∧ c * x ≤ Max.max (c * l) (c * h) := by
  rw [EReal.mul_comm c l, EReal.mul_comm c h, EReal.mul_comm c x]
  rcases mul_between c h1 h2 with ⟨h3, h4⟩ | ⟨h3, h4⟩
  · exact ⟨min_le_of_left_le h3, le_max_of_le_right h4⟩
  · exact ⟨min_le_of_right_le h3, le_max_of_le_left h4⟩

theorem Iv.Holds.mul {i j : Iv} {x y : Rat} (hx : i.Holds x) (hy : j.Holds y) : (ivMul i j).Holds (x * y) := by
  obtain ⟨l, h, rfl, h1, h2⟩ := hx
  obtain ⟨l', h', rfl, h1', h2'⟩ := hy
  obtain ⟨hl, hl'⟩ := mul_between' l.ereal h1' h2'
  obtain ⟨hh, hh'⟩ := mul_between' h.ereal h1' h2'
  refine ⟨_, _, rfl, ?_⟩
  push_cast
  simp only [EB.ereal_min, EB.ereal_max, EB.ereal_mul]
  rcases mul_between ((y : ℝ) : EReal) h1 h2 with ⟨h3, h4⟩ | ⟨h3, h4⟩
  · exact ⟨min_le_of_left_le (hl.trans h3), le_max_of_le_right (h4.trans hh')⟩
  · exact ⟨min_le_of_right_le (hh.trans h3), le_max_of_le_left (h4.trans hl')⟩

/-! ### Reading a pair -/

theorem ofFV_fv_fin {w : Word} (hf : (fv w).isFin = true) : EB.ofFV (fv w) = some (.fin (ratW w)) := by
  obtain ⟨n, q, hq⟩ := FV.exists_of_isFin hf
  rw [ratW, hq]
  rfl

/-- R81: a pair of words that are no NaN. -/
theorem inPair_iff {lo hi : Word} {l h : EB} (hl : EB.ofFV (fv lo) = some l) (hh : EB.ofFV (fv hi) = some h) (x : Rat) :
    inPair x (lo, hi) ↔ l.ereal ≤ (x : ℝ) ∧ ((x : ℝ) : EReal) ≤ h.ereal := by
  rw [inPair_iff_holds]
  simp only [ivRead, hl, hh]
  split_ifs with hc
  · simp only [Iv.Holds, reduceCtorEq, false_and, exists_false, false_iff]
    rintro ⟨h1, h2⟩
    simp only [Bool.or_eq_true, EB.lt_iff, beq_iff_eq] at hc
    rcases hc with (hc | rfl) | rfl
    · exact absurd (h1.trans h2) (not_le.mpr hc)
    · exact absurd h1 (by simp [EB.ereal])
    · exact absurd h2 (by simp [EB.ereal])
  · exact ⟨fun ⟨_, _, he, h'⟩ => by cases he; exact h', fun h' => ⟨l, h, rfl, h'⟩⟩

theorem ivRead_nan {lo hi : Word} (h : (fv lo).isNan = true ∨ (fv hi).isNan = true) : ivRead lo hi = some (.ninf, .pinf) := by
  have hnone : ∀ {v : FV}, v.isNan = true → EB.ofFV v = none := fun {v} hv => by
    cases v with
    | nan s => rfl
    | inf n => exact absurd hv Bool.false_ne_true
    | fin n q => exact absurd hv Bool.false_ne_true
  rcases h with h | h
  · simp only [ivRead, hnone h]
    rfl
  · cases hl : EB.ofFV (fv lo) <;> simp only [ivRead, hl, hnone h] <;> rfl

theorem ofFV_of_not_nan {v : FV} (hv : v.isNan = false) : ∃ b, EB.ofFV v = some b := by
  cases v with
  | nan s => exact absurd hv.symm Bool.false_ne_true
  | inf n => exact ⟨_, rfl⟩
  | fin n q => exact ⟨_, rfl⟩

theorem FV.lt_ofFV {x y : FV} {a b : EB} (hx : EB.ofFV x = some a) (hy : EB.ofFV y = some b) (h : x.lt y = true) : a.lt b = true := by
  rw [EB.lt_iff]
  cases x with
  | nan s => exact absurd hx nofun
  | inf n =>
    obtain rfl := Option.some.inj hx
    cases y with
    | nan t => exact absurd hy nofun
    | inf t =>
      obtain rfl := Option.some.inj hy
      cases n <;> cases t <;> simp [FV.lt] at h ⊢
      simp [EB.ereal]
    | fin t q =>
      obtain rfl := Option.some.inj hy
      obtain rfl : n = true := h
      simp [EB.ereal]
  | fin n p =>
    obtain rfl := Option.some.inj hx
    cases y with
    | nan t => exact absurd hy nofun
    | inf t =>
      obtain rfl := Option.some.inj hy
      obtain rfl : t = false := by simpa [FV.lt] using h
      simp [EB.ereal]
    | fin t q =>
      obtain rfl := Option.some.inj hy
      have hlt : (FV.fin n p).rat < (FV.fin t q).rat := of_decide_eq_true h
      exact EReal.coe_lt_coe_iff.mpr (by exact_mod_cast hlt)

theorem ivRead_empty {lo hi : Word} (hl : (fv lo).isNan = false) (hh : (fv hi).isNan = false)
    (h : (fv hi).lt (fv lo) = true ∨ fv lo = .inf false ∨ fv hi = .inf true) : ivRead lo hi = none := by
  obtain ⟨a, ha⟩ := ofFV_of_not_nan hl
  obtain ⟨b, hb⟩ := ofFV_of_not_nan hh
  simp only [ivRead, ha, hb]
  refine if_pos ?_
  rcases h with h | h | h
  · simp [FV.lt_ofFV hb ha h]
  · rw [h] at ha
    obtain rfl := Option.some.inj ha
    simp
  · rw [h] at hb
    obtain rfl := Option.some.inj hb
    simp

/-! ### Outward rounding -/

/-- A lower bound as a word: −∞, or a word at or below the point. -/
def Word.IsLower (w : Word) (y : ℝ) : Prop := fv w = .inf true ∨ ((fv w).isFin = true ∧ ((ratW w : Rat) : ℝ) ≤ y)

/-- An upper bound as a word: +∞, or a word at or above the point. -/
def Word.IsUpper (w : Word) (y : ℝ) : Prop := fv w = .inf false ∨ ((fv w).isFin = true ∧ y ≤ ((ratW w : Rat) : ℝ))

theorem inPair_of_bounds {lo hi : Word} {x : Rat} (hl : Word.IsLower lo x) (hh : Word.IsUpper hi x) : inPair x (lo, hi) := by
  have h1 : ∃ l, EB.ofFV (fv lo) = some l ∧ l.ereal ≤ (x : ℝ) := by
    rcases hl with h | ⟨hf, h⟩
    · exact ⟨.ninf, by rw [h]; rfl, bot_le⟩
    · exact ⟨_, ofFV_fv_fin hf, EReal.coe_le_coe_iff.mpr h⟩
  have h2 : ∃ h, EB.ofFV (fv hi) = some h ∧ ((x : ℝ) : EReal) ≤ h.ereal := by
    rcases hh with h | ⟨hf, h⟩
    · exact ⟨.pinf, by rw [h]; rfl, le_top⟩
    · exact ⟨_, ofFV_fv_fin hf, EReal.coe_le_coe_iff.mpr h⟩
  obtain ⟨l, hl, hlx⟩ := h1
  obtain ⟨h, hh, hhx⟩ := h2
  exact (inPair_iff hl hh x).mpr ⟨hlx, hhx⟩

/-- Writing +0 for −0 changes no value. -/
theorem word_fin (rm : RM) (q : Rat) : EB.word rm (.fin q) = roundW rm q ∨ (EB.word rm (.fin q) = 0 ∧ roundW rm q = 0x80000000) := by
  simp only [EB.word, beq_iff_eq]
  split_ifs with h
  · exact .inr ⟨rfl, h⟩
  · exact .inl rfl

/-- A bound that rounds into the range. -/
theorem word_in_range (rm : RM) {q : Rat} (h : |(fmtOf .f32).round rm q| ≤ (fmtOf .f32).mag (fmtOf .f32).max) :
    (fv (EB.word rm (.fin q))).isFin = true ∧ ratW (EB.word rm (.fin q)) = (fmtOf .f32).round rm q := by
  obtain ⟨hv, hr⟩ := roundW_in_range rm h
  rcases word_fin rm q with he | ⟨he, hz⟩
  · rw [he]
    exact ⟨by rw [hv]; rfl, hr⟩
  · have h0 : fv 0 = .fin false 0 := fv_eq_zero.mpr rfl
    have h1 : fv 0x80000000 = .fin true 0 := fv_eq_zero.mpr rfl
    rw [he, ← hr, hz, ratW, ratW, h0, h1]
    exact ⟨rfl, by simp [FV.rat]⟩

/-- A bound that overflows. -/
theorem word_overflow (rm : RM) {q : Rat} (h : (fmtOf .f32).mag (fmtOf .f32).max < |(fmtOf .f32).round rm q|) :
    EB.word rm (.fin q) = BitVec.ofNat 32 (signed .f32 (decide (q < 0)) (overflowCode .f32 rm false (decide (q < 0)))) := by
  rcases word_fin rm q with he | ⟨_, hz⟩
  · rw [he, roundW_overflow rm h]
  · rw [roundW_overflow rm h] at hz
    exact absurd hz (by cases rm <;> cases decide (q < 0) <;> decide)

/-- R82: a lower bound rounded down is below all that the words below it are below. -/
theorem word_rd_isLower {q : Rat} {y : ℝ} (h : ∀ (w : Rat) (j : Int), w = j * 2 ^ (-149 : Int) → w ≤ q → (w : ℝ) ≤ y) :
    Word.IsLower (EB.word .rd (.fin q)) y := by
  have hle := (fmtOf .f32).round_rd_le q
  by_cases hr : |(fmtOf .f32).round .rd q| ≤ (fmtOf .f32).mag (fmtOf .f32).max
  · obtain ⟨hf, he⟩ := word_in_range .rd hr
    obtain ⟨j, hj⟩ := ratW_on_grid hf
    exact .inr ⟨hf, h _ j hj (he ▸ hle)⟩
  · rw [not_le] at hr
    have hw := word_overflow .rd hr
    by_cases hq : q < 0
    · rw [decide_eq_true hq] at hw
      exact .inl (by rw [hw]; decide +kernel)
    · rw [decide_eq_false hq] at hw
      have hw' : EB.word .rd (.fin q) = 0x7F7FFFFF := hw.trans (by decide +kernel)
      have hf : (fv 0x7F7FFFFF).isFin = true := by decide +kernel
      obtain ⟨j, hj⟩ := ratW_on_grid hf
      rw [hw']
      refine .inr ⟨hf, h _ j hj ?_⟩
      rw [abs_of_nonneg ((fmtOf .f32).le_round .rd (c := 0) (by simp) (not_lt.mp hq))] at hr
      rw [ratW_max]
      exact (hr.trans_le hle).le

/-- R82: an upper bound rounded up is above all that the words above it are above. -/
theorem word_ru_isUpper {q : Rat} {y : ℝ} (h : ∀ (w : Rat) (j : Int), w = j * 2 ^ (-149 : Int) → q ≤ w → y ≤ (w : ℝ)) :
    Word.IsUpper (EB.word .ru (.fin q)) y := by
  have hle := (fmtOf .f32).le_round_ru q
  by_cases hr : |(fmtOf .f32).round .ru q| ≤ (fmtOf .f32).mag (fmtOf .f32).max
  · obtain ⟨hf, he⟩ := word_in_range .ru hr
    obtain ⟨j, hj⟩ := ratW_on_grid hf
    exact .inr ⟨hf, h _ j hj (he ▸ hle)⟩
  · rw [not_le] at hr
    have hw := word_overflow .ru hr
    by_cases hq : q < 0
    · rw [decide_eq_true hq] at hw
      have hw' : EB.word .ru (.fin q) = 0xFF7FFFFF := hw.trans (by decide +kernel)
      have hf : (fv 0xFF7FFFFF).isFin = true := by decide +kernel
      have hmax : ratW 0xFF7FFFFF = -(fmtOf .f32).mag (fmtOf .f32).max := by decide +kernel
      obtain ⟨j, hj⟩ := ratW_on_grid hf
      rw [hw']
      refine .inr ⟨hf, h _ j hj ?_⟩
      rw [abs_of_nonpos ((fmtOf .f32).round_le .ru (c := 0) (by simp) hq.le)] at hr
      rw [hmax]
      linarith
    · rw [decide_eq_false hq] at hw
      exact .inl (by rw [hw]; decide +kernel)

theorem isLower_of_le {l : EB} {x : Rat} (h : l.ereal ≤ (x : ℝ)) : Word.IsLower (l.word .rd) x := by
  cases l with
  | ninf => exact .inl (fv_eq_inf.mpr rfl)
  | fin q =>
    have hq : q ≤ x := by exact_mod_cast EReal.coe_le_coe_iff.mp h
    exact word_rd_isLower fun w _ _ hw => by exact_mod_cast hw.trans hq
  | pinf => exact absurd h (by simp [EB.ereal])

theorem isUpper_of_le {u : EB} {x : Rat} (h : ((x : ℝ) : EReal) ≤ u.ereal) : Word.IsUpper (u.word .ru) x := by
  cases u with
  | ninf => exact absurd h (by simp [EB.ereal])
  | fin q =>
    have hq : x ≤ q := by exact_mod_cast EReal.coe_le_coe_iff.mp h
    exact word_ru_isUpper fun w _ _ hw => by exact_mod_cast hq.trans hw
  | pinf => exact .inl (fv_eq_inf.mpr rfl)

/-- R82: writing an interval encloses it. -/
theorem Iv.Holds.inPair_ivWrite {i : Iv} {x : Rat} (hx : i.Holds x) : inPair x (ivWrite i) := by
  obtain ⟨l, h, rfl, h1, h2⟩ := hx
  exact inPair_of_bounds (isLower_of_le h1) (isUpper_of_le h2)

/-! ### Square roots -/

theorem Word.IsLower.not_nan {w : Word} {y : ℝ} (h : Word.IsLower w y) : (fv w).isNan = false ∧ fv w ≠ .inf false ∧
    ((fv w).isFin = true → ((ratW w : Rat) : ℝ) ≤ y) := by
  rcases h with h | ⟨hf, h⟩
  · rw [h]
    exact ⟨rfl, by decide, fun h' => absurd h' Bool.false_ne_true⟩
  · obtain ⟨n, q, hq⟩ := FV.exists_of_isFin hf
    rw [hq]
    exact ⟨rfl, nofun, fun _ => h⟩

theorem Word.IsUpper.not_nan {w : Word} {y : ℝ} (h : Word.IsUpper w y) : (fv w).isNan = false ∧ fv w ≠ .inf true ∧
    ((fv w).isFin = true → y ≤ ((ratW w : Rat) : ℝ)) := by
  rcases h with h | ⟨hf, h⟩
  · rw [h]
    exact ⟨rfl, by decide, fun h' => absurd h' Bool.false_ne_true⟩
  · obtain ⟨n, q, hq⟩ := FV.exists_of_isFin hf
    rw [hq]
    exact ⟨rfl, nofun, fun _ => h⟩

/-- R82: the root of a lower bound. -/
theorem sqrt_isLower {l : EB} {x : Rat} (h : l.ereal ≤ (x : ℝ)) : Word.IsLower (((l.max (.fin 0)).sqrt).word .rd) (Real.sqrt x) := by
  have hzero : Word.IsLower ((EB.fin 0).word .rd) (Real.sqrt x) :=
    word_rd_isLower fun w _ _ hw => le_trans (by exact_mod_cast hw) (Real.sqrt_nonneg _)
  cases l with
  | ninf => exact hzero
  | pinf => exact absurd h (by simp [EB.ereal])
  | fin q =>
    have hq : q ≤ x := by exact_mod_cast EReal.coe_le_coe_iff.mp h
    by_cases h0 : q ≤ 0
    · have : (EB.fin q).max (.fin 0) = .fin 0 := by simp [EB.max, EB.le, h0]
      rw [this]
      exact hzero
    · have hm : ((EB.fin q).max (.fin 0)).sqrt = .fin (sqrtRep q) := by simp [EB.max, EB.le, EB.sqrt, h0]
      rw [hm]
      refine word_rd_isLower fun w j hj hw => ((sqrtRep_sameSide (not_le.mp h0).le).le_iff hj).mp hw |>.trans (Real.sqrt_le_sqrt ?_)
      exact_mod_cast hq

/-- R82: the root of an upper bound. -/
theorem sqrt_isUpper {u : EB} {x : Rat} (hx : 0 ≤ x) (h : ((x : ℝ) : EReal) ≤ u.ereal) : Word.IsUpper (u.sqrt.word .ru) (Real.sqrt x) := by
  cases u with
  | ninf => exact absurd h (by simp [EB.ereal])
  | pinf => exact .inl (fv_eq_inf.mpr rfl)
  | fin q =>
    have hq : x ≤ q := by exact_mod_cast EReal.coe_le_coe_iff.mp h
    by_cases h0 : q ≤ 0
    · obtain rfl : x = 0 := le_antisymm (hq.trans h0) hx
      rw [EB.sqrt, if_pos h0, Rat.cast_zero, Real.sqrt_zero]
      exact word_ru_isUpper fun w _ _ hw => by exact_mod_cast hw
    · rw [EB.sqrt, if_neg h0]
      refine word_ru_isUpper fun w j hj hw => le_trans (Real.sqrt_le_sqrt ?_) (((sqrtRep_sameSide (not_le.mp h0).le).ge_iff hj).mp hw)
      exact_mod_cast hq

theorem Iv.Holds.sqrt {i : Iv} {x : Rat} (hx : i.Holds x) (h0 : 0 ≤ x) :
    Word.IsLower (ivWrite (ivSqrt i)).1 (Real.sqrt x) ∧ Word.IsUpper (ivWrite (ivSqrt i)).2 (Real.sqrt x) := by
  obtain ⟨l, h, rfl, h1, h2⟩ := hx
  have hh : ¬ h.sgn < 0 := not_lt.mpr ((EB.sgn_nonneg h).mpr (le_trans (by exact_mod_cast h0) h2))
  have he : ivSqrt (some (l, h)) = some ((l.max (.fin 0)).sqrt, h.sqrt) := if_neg hh
  rw [he]
  exact ⟨sqrt_isLower h1, sqrt_isUpper h0 h2⟩

/-! ### Halves (R186) -/

/-- The finite bounds of a pair are words' values. -/
theorem ivRead_bound {lo hi : Word} {l h : EB} (he : ivRead lo hi = some (l, h)) :
    (∀ q, l = .fin q → |q| ≤ (fmtOf .f32).mag (fmtOf .f32).max) ∧ ∀ q, h = .fin q → |q| ≤ (fmtOf .f32).mag (fmtOf .f32).max := by
  have hof : ∀ {w : Word} {q : Rat}, EB.ofFV (fv w) = some (.fin q) → |q| ≤ (fmtOf .f32).mag (fmtOf .f32).max := fun {w q} hq => by
    rcases fv_special w with hf | ⟨_, hi⟩ | ⟨s, hs⟩
    · rw [ofFV_fv_fin hf] at hq
      obtain rfl := EB.fin.inj (Option.some.inj hq)
      exact abs_rat_le_max (ty := .f32) rfl w.isLt hf
    · rw [hi] at hq
      exact absurd (Option.some.inj hq) (by split <;> nofun)
    · rw [hs] at hq
      exact absurd hq nofun
  by_cases hn : (fv lo).isNan = true ∨ (fv hi).isNan = true
  · rw [ivRead_nan hn] at he
    cases he
    exact ⟨nofun, nofun⟩
  · rw [not_or, Bool.not_eq_true, Bool.not_eq_true] at hn
    obtain ⟨a, ha⟩ := ofFV_of_not_nan hn.1
    obtain ⟨b, hb⟩ := ofFV_of_not_nan hn.2
    simp only [ivRead, ha, hb] at he
    split_ifs at he
    cases he
    exact ⟨fun q hq => hof (hq ▸ ha), fun q hq => hof (hq ▸ hb)⟩

/-- The midpoint of an interval that holds a point is a finite word. -/
theorem ivMid_isFin {lo hi : Word} {l h : EB} {x : Rat} (he : ivRead lo hi = some (l, h))
    (h1 : l.ereal ≤ (x : ℝ)) (h2 : ((x : ℝ) : EReal) ≤ h.ereal) :
    (fv (ivMid l h)).isFin = true := by
  obtain ⟨hl, hh⟩ := ivRead_bound he
  have hfin : ∀ {q : Rat}, |q| ≤ (fmtOf .f32).mag (fmtOf .f32).max → (fv ((EB.fin q).word .rn)).isFin = true := fun hq =>
    (word_in_range .rn (abs_round_le_max .rn hq)).1
  cases l with
  | pinf => exact absurd h1 (by simp [EB.ereal])
  | ninf =>
    cases h with
    | ninf => exact absurd h2 (by simp [EB.ereal])
    | pinf => decide +kernel
    | fin b =>
      simp only [ivMid]
      split_ifs
      · decide +kernel
      · exact hfin (hh b rfl)
  | fin a =>
    cases h with
    | ninf => exact absurd h2 (by simp [EB.ereal])
    | pinf =>
      simp only [ivMid]
      split_ifs
      · decide +kernel
      · exact hfin (hl a rfl)
    | fin b =>
      refine hfin ?_
      have ha := abs_le.mp (hl a rfl)
      have hb := abs_le.mp (hh b rfl)
      exact abs_le.mpr ⟨by linarith, by linarith⟩

theorem inPair_ivSplitX {lo hi : Word} {x : Rat} (hx : inPair x (lo, hi)) :
    inPair x (ivSplitX (ivRead lo hi)).1 ∨ inPair x (ivSplitX (ivRead lo hi)).2 := by
  obtain ⟨l, h, he, h1, h2⟩ := (inPair_iff_holds x _).mp hx
  have hf := ivMid_isFin he h1 h2
  rw [show ivRead lo hi = some (l, h) from he]
  rcases le_total x (ratW (ivMid l h)) with hle | hle
  · exact .inl (inPair_of_bounds (isLower_of_le h1) (.inr ⟨hf, by exact_mod_cast hle⟩))
  · exact .inr (inPair_of_bounds (.inr ⟨hf, by exact_mod_cast hle⟩) (isUpper_of_le h2))

/-- Settles O12: bounds are extended reals, on which each exact image holds its points; outward rounding to words keeps them. -/
theorem intervalsReadAndEnclose : Obligations.IntervalsReadAndEnclose := by
  unfold Obligations.IntervalsReadAndEnclose
  have hninf : EB.ofFV (fv 0xFF800000) = some .ninf := by
    rw [show fv 0xFF800000 = .inf true from fv_eq_inf.mpr rfl]
    rfl
  have hpinf : EB.ofFV (fv 0x7F800000) = some .pinf := by
    rw [show fv 0x7F800000 = .inf false from fv_eq_inf.mpr rfl]
    rfl
  refine ⟨⟨fun lo hi h => ivRead_nan h, fun lo hi hl hh h => ?_, fun lo hi x hl hh _ => ?_, fun hi x hh => ?_, fun lo x hl => ?_, fun x => ?_, rfl⟩,
    fun a b x y hx hy => ?_⟩
  · exact ivRead_empty (Bool.not_eq_true' _ ▸ hl) (Bool.not_eq_true' _ ▸ hh) h
  · rw [inPair_iff (ofFV_fv_fin hl) (ofFV_fv_fin hh)]
    simp
  · rw [inPair_iff hninf (ofFV_fv_fin hh)]
    simp [EB.ereal]
  · rw [inPair_iff (ofFV_fv_fin hl) hpinf]
    simp [EB.ereal]
  · rw [inPair_iff hninf hpinf]
    simp [EB.ereal]
  · have hX := (inPair_iff_holds x a).mp hx
    have hY := (inPair_iff_holds y b).mp hy
    refine ⟨(hX.add hY).inPair_ivWrite, ?_, (hX.mul hY).inPair_ivWrite, (hX.min hY).inPair_ivWrite, (hX.max hY).inPair_ivWrite,
      fun c => ⟨(hX.hull_left _).inPair_ivWrite, (hX.hull_right _).inPair_ivWrite⟩, fun h0 => ?_, hX.sqr.inPair_ivWrite, ?_, inPair_ivSplitX hx⟩
    · rw [sub_eq_add_neg]
      exact (hX.add hY.neg).inPair_ivWrite
    · obtain ⟨hl, hu⟩ := hX.sqrt h0
      obtain ⟨hl1, hl2, hl3⟩ := hl.not_nan
      obtain ⟨hu1, hu2, hu3⟩ := hu.not_nan
      exact ⟨Bool.not_eq_true' _ ▸ hl1, Bool.not_eq_true' _ ▸ hu1, hl2, hu2, hl3, hu3⟩
    · obtain ⟨l, h, he, _, h'⟩ := hX.abs
      exact Iv.Holds.inPair_ivWrite ⟨l, h, he, h'⟩

end Sys2Proof.Machine
end

section
/-! PROOFS. Precise traps of floating-point words (03 R77, R87, 14 R345, R351). -/

namespace Sys2Proof.Machine

open Sys2Proof

-- Proofs are elaborated one after another: the whole text is compiled in one process of bounded memory.
set_option Elab.async false

/-! ### A per-thread word that traps -/

/-- The step of a member whose word issues and whose effect raises a trap: the thread stays as it is. -/
theorem memberStep_error {p : Pfx} {used : List Reg} {len : Nat} {f : Env → Thread → Except Trap Thread} {e : Env} {th : Thread} {k : Trap}
    (hr : overRange e.regs used = false) (hg : th.guards p = true) (ht : th.pendingAmong used = none)
    (hf : f e { th with pc := th.pc + BitVec.ofNat 64 len } = .error k) : memberStep p used len f e th = (th, .trap k) := by
  simp only [memberStep, hr, hg, ht, hf, Bool.not_true, Bool.false_eq_true, if_false]

/-- A per-thread word of one thread in user mode whose effect raises a precise trap. -/
theorem State.aluWord_traps {s : State} {u : TRef} {th : Thread} {p : Pfx} {used : List Reg} {f : Gpu → Env → Thread → Except Trap Thread} {k : Trap}
    (hs : Solo s u th p used) (huser : th.mode = .user)
    (hf : f s.now (s.gpu.env u) { th with pc := th.pc + BitVec.ofNat 64 s.gpu.cur.len } = .error k) :
    Traps s u th k (s.device fun g => g.aluWord p used (f g)) id := by
  obtain ⟨hm, hth, _, hg, ⟨hk, _⟩, hr, ht⟩ := hs
  have hth' : s.now.thread? u = some th := hth
  have hm' : s.now.cur.members = [u] := hm
  have hstep : memberStep p used s.now.cur.len (f s.now) (s.now.env u) th = (th, .trap k) :=
    memberStep_error (hr u (by simp [hm])) hg (ht u (by simp [hm]) th hth hg) hf
  let g' := s.now.mapThreads fun t x => if s.now.cur.members.contains t then (memberStep p used s.now.cur.len (f s.now) (s.now.env t) x).1 else x
  have hword : s.now.aluWord p used (f s.now) = g'.finishWord p.sw [(u, .trap k)] := by
    have hfs : (s.now.cur.members.filterMap fun t => (s.now.thread? t).map fun x =>
        (t, (memberStep p used s.now.cur.len (f s.now) (s.now.env t) x).2)) = [(u, .trap k)] := by
      rw [hm', List.filterMap_cons, hth']
      simp only [Option.map_some, hstep, List.filterMap_nil]
    simp only [Gpu.aluWord, hfs]
    rfl
  have hsame : ∀ v, g'.thread? v = s.gpu.thread? v := fun v => by
    rw [Gpu.thread?_mapThreads, hm']
    by_cases h : v = u
    · subst h
      simp only [hth', Option.map_some, List.contains_cons, BEq.rfl, Bool.true_or, if_true, hstep]
      exact hth.symm
    · have hc : [u].contains v = false := by simpa using h
      simp only [hc, Bool.false_eq_true, if_false]
      exact Option.map_id'
  obtain ⟨h1, h2, h3⟩ := Gpu.finishWord_trap g' p.sw k hm (by rw [hsame]; exact hth) huser hk
  refine ⟨_, rfl, ?_, ?_, fun v hv => ?_⟩
  · show ({ s with gpu := (s.now.aluWord p used (f s.now)).rest } : State) = { s with gpu := s.now.rest }
    rw [hword, h1, Gpu.rest_mapThreads]
  · show (s.now.aluWord p used (f s.now)).thread? u = _
    rw [hword, h2]
    rfl
  · show (s.now.aluWord p used (f s.now)).thread? v = _
    rw [hword, h3 v hv, hsame]

/-! ### Words that read F32 operands and set flags -/

theorem verdictOr_abandoned {ws : List Word} {r : Except Trap Thread} (h : ∃ w ∈ ws, isAbandoned w = true) :
    verdictOr ws r = .error ⟨.verdict, 0, 0, false⟩ := if_pos (List.any_eq_true.mpr h)

theorem verdictOr_ready {ws : List Word} {r : Except Trap Thread} (h : ∀ w ∈ ws, isAbandoned w = false) : verdictOr ws r = r :=
  if_neg (by rw [List.any_eq_true]; rintro ⟨w, hw, ha⟩; rw [h w hw] at ha; exact Bool.false_ne_true ha)

theorem withFlags_enabled {e : Env} {th : Thread} {fl : BitVec 5} {w : Thread → Thread} (huser : th.mode = .user) (h : fl &&& e.te ≠ 0) :
    withFlags e th fl w = .error ⟨.fpe, fl.setWidth 16, 0, false⟩ := if_pos (by rw [fpeTraps, huser, Bool.and_eq_true, bne_iff_ne]; exact ⟨rfl, h⟩)

/-- What R77 and R87 say of a word that reads the F32 operands `ops` and sets the flags `fl`. -/
def FpTraps (s : State) (u : TRef) (th : Thread) (out : Out) (ops : List Word) (fl : BitVec 5) : Prop :=
  ((∃ w ∈ ops, isAbandoned w = true) → Traps s u th ⟨.verdict, 0, 0, false⟩ out id) ∧
  ((∀ w ∈ ops, isAbandoned w = false) → fl &&& (s.gpu.env u).te ≠ 0 → Traps s u th ⟨.fpe, fl.setWidth 16, 0, false⟩ out id)

section
variable {s : State} {u : TRef} {th : Thread} {p : Pfx} {used : List Reg} (huser : th.mode = .user) (hs : Solo s u th p used)
include huser hs

/-- A word that sets its flags at once. -/
theorem fpTraps_withFlags (ops : Thread → List Word) (fl : Env → Thread → BitVec 5) (write : Env → Thread → Thread → Thread) :
    FpTraps s u th (s.device fun g => g.aluWord p used fun e n => verdictOr (ops n) (withFlags e n (fl e n) (write e n)))
      (ops { th with pc := th.pc + BitVec.ofNat 64 s.gpu.cur.len })
      (fl (s.gpu.env u) { th with pc := th.pc + BitVec.ofNat 64 s.gpu.cur.len }) :=
  ⟨fun h => State.aluWord_traps hs huser (verdictOr_abandoned h),
    fun h hfl => State.aluWord_traps hs huser ((verdictOr_ready h).trans (withFlags_enabled huser hfl))⟩

/-- A word of packed operands, which are no F32 reads. -/
theorem fpTraps_packed (fl : Env → Thread → BitVec 5) (write : Env → Thread → Thread → Thread) :
    FpTraps s u th (s.device fun g => g.aluWord p used fun e n => withFlags e n (fl e n) (write e n)) []
      (fl (s.gpu.env u) { th with pc := th.pc + BitVec.ofNat 64 s.gpu.cur.len }) :=
  ⟨fun h => absurd h (by simp), fun _ hfl => State.aluWord_traps hs huser (withFlags_enabled huser hfl)⟩

/-- A word that sets no flag at once. -/
theorem fpTraps_ok (ops : Thread → List Word) (write : Gpu → Thread → Thread) :
    FpTraps s u th (s.device fun g => g.aluWord p used fun _ n => verdictOr (ops n) (.ok (write g n)))
      (ops { th with pc := th.pc + BitVec.ofNat 64 s.gpu.cur.len }) 0 :=
  ⟨fun h => State.aluWord_traps hs huser (verdictOr_abandoned h), fun _ hfl => absurd BitVec.zero_and hfl⟩

end

/-- The elements of a word, by their places. -/
theorem elems_map (ty : Ty) (w : Word) : (elems ty w.toNat (lanesOf ty)).map (elemOf ty) =
    (List.range (32 / widthOf ty)).map fun j => elemOf ty (w.toNat / 2 ^ (widthOf ty * j) % 2 ^ widthOf ty) := by
  simp only [elems, lanesOf, List.map_map, Function.comp_def, Nat.mul_comm]

section
variable {s : State} {u : TRef} {th : Thread} {p : Pfx} {d a c : Reg} {b : SrcB} (huser : th.mode = .user)
include huser

theorem fp2_traps (f : Bool → Word → Word → Word × BitVec 5) (hs : Solo s u th p (d :: a :: b.span false)) :
    FpTraps s u th (s.fp2 p d a b f) [th.reg a, th.srcW b] (f (s.gpu.env u).ftz (th.reg a) (th.srcW b)).2 :=
  fpTraps_withFlags huser hs (fun n => [n.reg a, n.srcW b]) (fun e n => (f e.ftz (n.reg a) (n.srcW b)).2) _

theorem fp1_traps (f : Bool → Word → Word × BitVec 5) (hs : Solo s u th p [d, a]) :
    FpTraps s u th (s.fp1 p d a f) [th.reg a] (f (s.gpu.env u).ftz (th.reg a)).2 :=
  fpTraps_withFlags huser hs (fun n => [n.reg a]) (fun e n => (f e.ftz (n.reg a)).2) _

theorem hp2_traps (f : Bool → Word → Word → Word × BitVec 5) (hs : Solo s u th p (d :: a :: b.span false)) :
    FpTraps s u th (s.hp2 p d a b f) [] (f (s.gpu.env u).ftz (th.reg a) (th.srcW b)).2 :=
  fpTraps_packed huser hs (fun e n => (f e.ftz (n.reg a) (n.srcW b)).2) _

theorem hp3_traps (ty : Ty) (rm : RM) (hs : Solo s u th p (d :: a :: c :: b.span false)) :
    FpTraps s u th (s.hp3 p ty rm d a b c) [] (packed16 ty rm (s.gpu.env u).ftz (fma2X rm) [th.reg a, th.srcW b, th.reg c]).2 :=
  fpTraps_packed huser hs (fun e n => (packed16 ty rm e.ftz (fma2X rm) [n.reg a, n.srcW b, n.reg c]).2) _

theorem sfu_traps (rm : RM) (f : Sfu) (hs : Solo s u th p [d, a]) : FpTraps s u th (s.sfu p rm d a f) [th.reg a] 0 :=
  ⟨fun h => State.aluWord_traps hs huser (verdictOr_abandoned h), fun _ hfl => absurd BitVec.zero_and hfl⟩

theorem iv2_traps (f : Iv → Iv → Iv) (hs : Solo s u th p (d.span true ++ a.span true ++ b.span true)) :
    FpTraps s u th (s.iv2 p d a b f) (wordsOf (th.pair a) ++ wordsOf (th.srcD b)) 0 :=
  fpTraps_ok huser hs (fun n => wordsOf (n.pair a) ++ wordsOf (n.srcD b)) _

theorem iv1_traps (f : Iv → Iv) (fl : Iv → BitVec 5) (hs : Solo s u th p (d.span true ++ a.span true)) :
    FpTraps s u th (s.iv1 p d a f fl) (wordsOf (th.pair a)) (fl (ivOf (th.pair a))) :=
  fpTraps_withFlags huser hs (fun n => wordsOf (n.pair a)) (fun _ n => fl (ivOf (n.pair a))) _

theorem dot_traps (ty : Ty) (hs : Solo s u th p (d :: a :: c :: b.span false)) :
    let es := fun (w : Word) => (List.range (32 / widthOf ty)).map fun j => elemOf ty (w.toNat / 2 ^ (widthOf ty * j) % 2 ^ widthOf ty)
    FpTraps s u th (s.dot p ty d a b c) [th.reg c] (step79 0 0 (s.gpu.env u).ftz (th.reg c) ((es (th.reg a)).zip (es (th.srcW b)))).2 := by
  intro es
  rw [← show _ = es (th.reg a) from elems_map ty (th.reg a), ← show _ = es (th.srcW b) from elems_map ty (th.srcW b)]
  exact fpTraps_withFlags huser hs (fun n => [n.reg c]) (fun e n => (step79 0 0 e.ftz (n.reg c)
    (((elems ty (n.reg a).toNat (lanesOf ty)).map (elemOf ty)).zip ((elems ty (n.srcW b).toNat (lanesOf ty)).map (elemOf ty)))).2) _

theorem ivsqrt_traps (hs : Solo s u th p (d.span true ++ a.span true)) : FpTraps s u th (execIvsqrt p d a s) (wordsOf (th.pair a))
    (if (ivOf (th.pair a)).isSome ∧ (ivSqrt (ivOf (th.pair a))).isNone then flNV else 0) := by
  simp only [← Bool.and_eq_true]
  exact iv1_traps huser ivSqrt (fun x => if x.isSome && (ivSqrt x).isNone then flNV else 0) hs

theorem ivsplit_traps (hs : Solo s u th p (d.span true ++ c.span true ++ a.span true)) :
    FpTraps s u th (execIvsplit p d c a s) (wordsOf (th.pair a)) 0 :=
  fpTraps_ok huser hs (fun n => wordsOf (n.pair a)) _

theorem ffma_traps (rm : RM) (hs : Solo s u th p (d :: a :: c :: b.span false)) :
    FpTraps s u th (execFfma p rm d a b c s) [th.reg a, th.srcW b, th.reg c] (ffmaV rm (s.gpu.env u).ftz (th.reg a) (th.srcW b) (th.reg c)).2 :=
  fpTraps_withFlags huser hs (fun n => [n.reg a, n.srcW b, n.reg c]) (fun e n => (ffmaV rm e.ftz (n.reg a) (n.srcW b) (n.reg c)).2) _

theorem fcmp_traps (cc : CC) (pd : PredNo) (hs : Solo s u th p (a :: b.span false)) :
    FpTraps s u th (execFcmp p cc pd a b s) [th.reg a, th.srcW b] (sigFlag [fv (th.reg a), fv (th.srcW b)]) :=
  fpTraps_withFlags huser hs (fun n => [n.reg a, n.srcW b]) (fun _ n => sigFlag [fv (n.reg a), fv (n.srcW b)]) _

theorem fsel_traps (cc : CC) (hs : Solo s u th p (d :: a :: c :: b.span false)) :
    FpTraps s u th (execFsel p cc d a b c s) [th.reg a, th.srcW b, th.reg c] (sigFlag [fv (th.reg c)]) :=
  fpTraps_withFlags huser hs (fun n => [n.reg a, n.srcW b, n.reg c]) (fun _ n => sigFlag [fv (n.reg c)]) _

theorem fscl_traps (hs : Solo s u th p (d :: a :: b.span false)) :
    FpTraps s u th (execFscl p d a b s) [th.reg a] (fsclX (th.reg a) (th.srcW b).toInt (s.gpu.env u).ftz).2 :=
  fpTraps_withFlags huser hs (fun n => [n.reg a]) (fun e n => (fsclX (n.reg a) (n.srcW b).toInt e.ftz).2) _

theorem cvt_traps (dt st : Ty) (rm : RM) (sat : Bool) (hs : Solo s u th p [d, a]) :
    FpTraps s u th (execCvt p dt st rm sat d a s) (if st = .f32 then [th.reg a] else [])
      (cvtX dt st rm sat (s.gpu.env u).ftz ((th.reg a).toNat % 2 ^ widthOf st)).2 := by
  rw [← if_congr (beq_iff_eq (a := st)) rfl rfl]
  exact fpTraps_withFlags huser hs (fun n => if st == .f32 then [n.reg a] else [])
    (fun e n => (cvtX dt st rm sat e.ftz ((n.reg a).toNat % 2 ^ widthOf st)).2) _

theorem cvef_traps (dt : Ty) (hs : Solo s u th p [d, a, c]) :
    FpTraps s u th (execCvef p dt d a c s) [th.reg a, th.reg c] (cvefX dt (th.reg a) (th.reg c)).2.2 :=
  fpTraps_withFlags huser hs (fun n => [n.reg a, n.reg c]) (fun _ n => (cvefX dt (n.reg a) (n.reg c)).2.2) _

end

/-- Settles O10: each word is one of the frames above, whose effect raises the trap before its write. -/
theorem floatingPointTrapsArePrecise : Obligations.FloatingPointTrapsArePrecise := by
  unfold Obligations.FloatingPointTrapsArePrecise
  intro s u th p rm cc ty dt st sat pd d a c b huser
  exact ⟨⟨fp2_traps huser (faddV rm), fp2_traps huser (fsubV rm), fp2_traps huser (fmulV rm), ffma_traps huser rm,
      fp2_traps huser fun _ => minmaxW false, fp2_traps huser fun _ => minmaxW true, fcmp_traps huser cc pd, fsel_traps huser cc,
      fp1_traps huser fun _ x => (classBit x, 0), fp1_traps huser fun _ => frndX rm, fp1_traps huser fun ftz x => ffracX x ftz, fscl_traps huser⟩,
    ⟨hp2_traps huser (hadd2V ty rm), hp2_traps huser (hmul2V ty rm), hp3_traps huser .f16 rm, hp3_traps huser .e16 rm⟩,
    ⟨cvt_traps huser dt st rm sat, cvef_traps huser dt, dot_traps huser ty, dot_traps huser ty, dot_traps huser ty⟩,
    ⟨iv2_traps huser ivAdd, iv2_traps huser ivSub, iv2_traps huser ivMul, iv2_traps huser ivMin, iv2_traps huser ivMax, iv2_traps huser ivHull,
      iv1_traps huser ivSqr fun _ => 0, iv1_traps huser ivAbs fun _ => 0, ivsqrt_traps huser, ivsplit_traps huser⟩,
    sfu_traps huser rm .rcp, sfu_traps huser rm .sqrt, sfu_traps huser .rn .rsq, sfu_traps huser .rn .exp2, sfu_traps huser .rn .log2,
    sfu_traps huser .rn .sin, sfu_traps huser .rn .cos⟩

end Sys2Proof.Machine
end

section
/-! PROOFS. Refutations from what the device lists twice (04 R109, R131): a thread, of which `Gpu.thread?` gives the first entry while an
event of a barrier looks at every entry; and a store in a FIFO. No run reaches such states; the statements speak of every state. -/

namespace Sys2Proof.Machine

open Sys2Proof

set_option Elab.async false

/-! ### A transaction barrier (R131) -/

/-- The thread of the counterexample: r0:r1 is the first byte of the scratchpad window. -/
def windowThread : Thread := { loadThread with regs := [(1, 0xFF00)] }

/-- A thread listed twice in a workgroup whose block 0 is a transaction barrier: the second entry waits at it. -/
def waitsTwice : State :=
  { State.reset with
    gpu := { (listedTwice (.tbar 0 0 0)).gpu with
      threads := [(onlyRef, windowThread), (onlyRef, { windowThread with status := .parked (.tbar 0 0 0) })]
      wgs := [{ loadWg 0 with tbars := [0] }] } }

/-- The second entry is never looked up. -/
theorem thread?_waitsTwice {v : TRef} {x : Thread} (h : waitsTwice.gpu.thread? v = some x) : x = windowThread := by
  have hlist : waitsTwice.gpu.threads =
      [(onlyRef, windowThread), (onlyRef, { windowThread with status := .parked (.tbar 0 0 0) })] := rfl
  by_cases hv : onlyRef = v
  · simpa [Gpu.thread?, hlist, hv, eq_comm] using h
  · simp [Gpu.thread?, hlist, hv] at h

theorem solo_waitsTwice : Solo waitsTwice onlyRef windowThread plainPfx (Reg.run 0 2 ++ (SrcB.lit 1).span false) := by
  refine ⟨rfl, rfl, rfl, rfl, ⟨rfl, fun _ _ _ _ hsw => absurd hsw (by decide)⟩, fun t ht => ?_, fun _ _ _ hx _ => ?_⟩
  · rw [List.mem_singleton.mp (show t ∈ [onlyRef] from ht)]
    decide +kernel
  · rw [thread?_waitsTwice hx]
    rfl

/-- Refutes O23: the second entry of a thread listed twice waits at the barrier, so `tbinit` takes the barrier-busy trap although no
thread that `Gpu.thread?` finds is parked there. -/
theorem not_transactionBarrierEvents : ¬ Obligations.TransactionBarrierEvents := by
  unfold Obligations.TransactionBarrierEvents
  intro h
  obtain ⟨hsolo, -⟩ := h waitsTwice onlyRef windowThread plainPfx 0 0 (.lit 1) { loadWg 0 with tbars := [0] } 0 rfl (by decide) (by decide)
    (by decide) (fun w hw _ => by rw [List.mem_singleton.mp (show w ∈ [{ loadWg 0 with tbars := [0] }] from hw)]; rfl)
    (fun v y hy _ _ _ _ => by rw [thread?_waitsTwice hy]; exact nofun)
  obtain ⟨hinit, -⟩ := hsolo solo_waitsTwice
  have htrap : (threadAfter (exec (.tbinit plainPfx 0 (.lit 1)) waitsTwice) onlyRef).map Thread.mode = some .trap := by decide +kernel
  exact absurd (htrap.symm.trans ((hinit (by decide) (by decide)).mode_after rfl List.mem_cons_self)) (by decide)

/-! ### A store FIFO (R109) -/

/-- A store of one byte. -/
def plainStore : FifoEntry where
  t := onlyRef
  pc := loadPc
  word := 0
  inst := 0
  cells := [(⟨.dev, 0⟩, 1)]
  attr := ⟨1, 0, 0⟩
  bypass := false
  res := false

/-- A core whose FIFO holds that store twice. -/
def storesTwice : State :=
  { State.reset with gpu := { State.reset.gpu with cores := [(0, { CoreSt.empty with fifo := [plainStore, plainStore] })] } }

/-- A core's FIFO as an outcome leaves it. -/
def fifoAfter (o : Out) (core : Nat) : List FifoEntry :=
  match o with
  | .next t => (t.gpu.core core).fifo
  | _ => []

/-- Refutes O46: a store that a FIFO lists twice is the thread's oldest one and also the one behind it, of the same issue; the drain
performs the older and leaves the younger, where the statement promises an empty FIFO. -/
theorem not_linesStoresAndReservationsAge : ¬ Obligations.LinesStoresAndReservationsAge := by
  unfold Obligations.LinesStoresAndReservationsAge
  intro h
  obtain ⟨-, -, -, hdrain, -⟩ := h storesTwice onlyRef loadThread 0 0 0 0 0
    { key := ⟨.dev, 0⟩, data := 0, dirty := 0, filled := 0, dirtied := 0, bad := false, res := false, rank := 0 } plainStore
    { key := ⟨.dev, 0⟩, part := 0, data := 0, res := false, pin := none } storesTwice.gpu
  obtain ⟨t, ht, -, hboth⟩ := hdrain (by decide +kernel) (by decide +kernel) (by decide +kernel)
  have hone : fifoAfter (exec (.storeFifoDrain onlyRef) storesTwice) 0 = [plainStore] := by decide +kernel
  rw [ht, fifoAfter, hboth plainStore rfl rfl] at hone
  exact absurd hone (by decide)

end Sys2Proof.Machine
end

section
/-! PROOFS. The byte that a thread's load sees, and the value that an atomic stores (04 R96, R109, R110; 07 R206, Table 7.3). -/

namespace Sys2Proof.Machine

open Sys2Proof

set_option Elab.async false

/-! ### The byte seen -/

/-- Where keys are distinct, the search from the end finds the one entry of a key. -/
theorem find?_reverse_of_nodup {α β : Type} [BEq α] [LawfulBEq α] {l : List (α × β)} (hl : (l.map Prod.fst).Nodup) {x : α × β}
    (hx : x ∈ l) : l.reverse.find? (fun y => y.1 == x.1) = some x := by
  obtain ⟨y, hy⟩ := Option.isSome_iff_exists.mp (List.find?_isSome.mpr ⟨x, List.mem_reverse.mpr hx, BEq.rfl⟩ :
    (l.reverse.find? fun y => y.1 == x.1).isSome = true)
  have hkey : (y.1 == x.1) = true := List.find?_some (p := fun y : α × β => y.1 == x.1) hy
  rw [hy, List.inj_on_of_nodup_map hl (List.mem_reverse.mp (List.mem_of_find?_eq_some hy)) hx (eq_of_beq hkey)]

/-- A thread's cells in some FIFO entries, oldest first. -/
def ownCells (u : TRef) (es : List FifoEntry) : List (Phys × Byte) := (es.filter fun e => e.t == u).flatMap FifoEntry.cells

theorem find?_ownCells_eq_none {u : TRef} {es : List FifoEntry} {q : Phys} (h : ∀ e ∈ es, e.t = u → ∀ x ∈ e.cells, x.1 ≠ q) :
    (ownCells u es).reverse.find? (fun x => x.1 == q) = none := by
  rw [List.find?_eq_none]
  intro x hx
  obtain ⟨e, he, hxe⟩ := List.mem_flatMap.mp (List.mem_reverse.mp hx)
  obtain ⟨he, ht⟩ := List.mem_filter.mp he
  exact fun hq => h e he (eq_of_beq ht) x hxe (eq_of_beq hq)

section
variable {g : Gpu} {core : Nat} {u : TRef} {q : Phys}

/-- The thread's youngest store to the byte is seen first. -/
theorem Gpu.seeByte_own {es fs : List FifoEntry} {e : FifoEntry} {b : Byte} (bypass : Bool) (hfifo : (g.core core).fifo = es ++ e :: fs) (ht : e.t = u)
    (hmem : (q, b) ∈ e.cells) (hnodup : (e.cells.map Prod.fst).Nodup) (hyounger : ∀ f ∈ fs, f.t = u → ∀ x ∈ f.cells, x.1 ≠ q) :
    g.seeByte core u bypass q = b := by
  have hsplit : ownCells u (es ++ e :: fs) = ownCells u es ++ (e.cells ++ ownCells u fs) := by simp [ownCells, ht]
  have hfind : (ownCells u (es ++ e :: fs)).reverse.find? (fun x => x.1 == q) = some (q, b) := by
    rw [hsplit, List.reverse_append, List.reverse_append, List.append_assoc, List.find?_append, find?_ownCells_eq_none hyounger,
      Option.none_or, List.find?_append, find?_reverse_of_nodup hnodup hmem, Option.some_or]
  rw [← hfifo] at hfind
  simp only [Gpu.seeByte]
  rw [ownCells] at hfind
  rw [hfind]

/-- A byte that the thread has not stored is L1's, else the home's; a bypassing load takes only a newer byte from L1. -/
theorem Gpu.seeByte_unstored (bypass : Bool) (hnone : ∀ e ∈ (g.core core).fifo, e.t = u → ∀ x ∈ e.cells, x.1 ≠ q) :
    g.seeByte core u bypass q = match (g.core core).l1.find? fun l => l.key == q.line with
      | some l => if bypass && !l.dirty.getLsbD (q.addr % 128) then g.homeByte q else lineByte l.data (q.addr % 128)
      | none => g.homeByte q := by
  have hfind := find?_ownCells_eq_none hnone
  simp only [Gpu.seeByte]
  rw [ownCells] at hfind
  rw [hfind] <;> rfl

end

/-! ### The value stored -/

/-- The low word of a value, with its flags. -/
def lowWord (r : DWord × BitVec 5) : Word × BitVec 5 := (r.1.setWidth 32, r.2)

theorem setWidth_setWidth_self (w : Word) : ((w.setWidth 64 : DWord).setWidth 32 : Word) = w := by
  rw [BitVec.setWidth_setWidth_of_le w (by decide), BitVec.setWidth_eq]

/-- The operand where the comparison picks it, else the value in memory. -/
theorem toInt_pick_min {w : Nat} (v b : BitVec w) : (if b.slt v then b else v).toInt = min v.toInt b.toInt := by
  simp only [BitVec.slt_eq_decide, decide_eq_true_eq]
  split <;> omega

theorem toInt_pick_max {w : Nat} (v b : BitVec w) : (if v.slt b then b else v).toInt = max v.toInt b.toInt := by
  simp only [BitVec.slt_eq_decide, decide_eq_true_eq]
  split <;> omega

theorem toNat_pick_min {w : Nat} (v b : BitVec w) : ((if b.ult v then b else v).toNat : Int) = min (v.toNat : Int) b.toNat := by
  simp only [BitVec.ult_eq_decide, decide_eq_true_eq]
  split <;> omega

theorem toNat_pick_max {w : Nat} (v b : BitVec w) : ((if v.ult b then b else v).toNat : Int) = max (v.toNat : Int) b.toNat := by
  simp only [BitVec.ult_eq_decide, decide_eq_true_eq]
  split <;> omega

section
variable (sgn ftz : Bool) (v b d : DWord)

theorem atomV_add_word {ty : Ty} (hty : ty = .s32 ∨ ty = .n32) :
    lowWord (atomV .add ty sgn ftz v b d) = (BitVec.ofNat 32 ((v.setWidth 32 : Word).toNat + (b.setWidth 32 : Word).toNat), 0) := by
  have hsum : lowWord ((((v.setWidth 32 : Word) + b.setWidth 32).setWidth 64 : DWord), (0 : BitVec 5)) =
      (BitVec.ofNat 32 ((v.setWidth 32 : Word).toNat + (b.setWidth 32 : Word).toNat), 0) := by
    rw [lowWord, setWidth_setWidth_self, BitVec.add_def]
  rcases hty with rfl | rfl <;> exact hsum

theorem atomV_add_pair : atomV .add .b64 sgn ftz v b d = (BitVec.ofNat 64 (v.toNat + b.toNat), 0) := by
  show (v + b, (0 : BitVec 5)) = _
  rw [BitVec.add_def]

/-- `min` and `max` of 32-bit words choose by the low words alone. -/
theorem setWidth_pick (c : Bool) : ((if c then b else v).setWidth 32 : Word) = if c then b.setWidth 32 else v.setWidth 32 := by
  cases c <;> rfl

theorem atomV_minmax (mx : Bool) :
    let op : AOp := if mx then .max else .min
    let pick := fun (x y : Int) => if mx then max x y else min x y
    (((atomV op .s32 sgn ftz v b d).1.setWidth 32 : Word).toInt = pick (v.setWidth 32 : Word).toInt (b.setWidth 32 : Word).toInt) ∧
    ((((atomV op .n32 sgn ftz v b d).1.setWidth 32 : Word).toNat : Int) = pick (v.setWidth 32 : Word).toNat (b.setWidth 32 : Word).toNat) ∧
    ((atomV op .b64 true ftz v b d).1.toInt = pick v.toInt b.toInt) ∧
    (((atomV op .b64 false ftz v b d).1.toNat : Int) = pick v.toNat b.toNat) := by
  cases mx with
  | false =>
    exact ⟨(congrArg _ (setWidth_pick v b _)).trans (toInt_pick_min _ _),
      (congrArg (fun x : Word => (x.toNat : Int)) (setWidth_pick v b _)).trans (toNat_pick_min _ _), toInt_pick_min v b, toNat_pick_min v b⟩
  | true =>
    exact ⟨(congrArg _ (setWidth_pick v b _)).trans (toInt_pick_max _ _),
      (congrArg (fun x : Word => (x.toNat : Int)) (setWidth_pick v b _)).trans (toNat_pick_max _ _), toInt_pick_max v b, toNat_pick_max v b⟩

/-- An F32 operation on a value that is no abandoned encoding. -/
theorem lowWord_atomV_f32 {r : Word × BitVec 5} (h : isAbandoned (v.setWidth 32) = false) :
    lowWord (if isAbandoned (v.setWidth 32) then (v, flNV) else (r.1.setWidth 64, r.2)) = r := by
  rw [h, if_neg Bool.false_ne_true, lowWord, setWidth_setWidth_self]

theorem atomV_minmax_f32 (mx : Bool) (h : isAbandoned (v.setWidth 32) = false) :
    lowWord (atomV (if mx then .max else .min) .f32 sgn ftz v b d) = minmaxW mx (v.setWidth 32) (b.setWidth 32) := by
  cases mx <;> exact lowWord_atomV_f32 v h

theorem atomV_add_f32 (h : isAbandoned (v.setWidth 32) = false) :
    lowWord (atomV .add .f32 sgn ftz v b d) = faddV .rn ftz (v.setWidth 32) (b.setWidth 32) := lowWord_atomV_f32 v h

/-- A verdict's abandoned encoding stays, with the flag NV. -/
theorem atomV_abandoned (h : isAbandoned (v.setWidth 32) = true) : atomV .add .f32 sgn ftz v b d = (v, flNV) ∧
    atomV .min .f32 sgn ftz v b d = (v, flNV) ∧ atomV .max .f32 sgn ftz v b d = (v, flNV) := ⟨if_pos h, if_pos h, if_pos h⟩

end

/-- Settles O26: the three places of a byte in the order of the search, and the cases of the operation. -/
theorem loadedAndAtomicValues : Obligations.LoadedAndAtomicValues := by
  unfold Obligations.LoadedAndAtomicValues
  refine ⟨fun g core u bypass q => ⟨fun es fs e b hfifo ht hmem hnodup hyounger => ?_, fun hnone => ⟨fun hl1 => ?_, fun x hl1 hkey => ⟨?_, fun hclean => ?_⟩⟩⟩,
    fun sgn ftz v b d => ⟨fun ty hty => atomV_add_word sgn ftz v b d hty, atomV_add_pair sgn ftz v b d, fun mx => ?_,
      fun ty => ⟨rfl, rfl, rfl, rfl, rfl⟩, atomV_add_f32 sgn ftz v b d, atomV_abandoned sgn ftz v b d⟩⟩
  · exact Gpu.seeByte_own bypass hfifo ht hmem hnodup hyounger
  · rw [Gpu.seeByte_unstored bypass hnone, List.find?_eq_none.mpr fun x hx => by simpa using hl1 x hx]
  · rw [Gpu.seeByte_unstored false hnone, hl1, List.find?_cons_of_pos (by simp [hkey])]
    rfl
  · rw [Gpu.seeByte_unstored true hnone, hl1, List.find?_cons_of_pos (by simp [hkey])]
    simp only [hclean, Bool.not_false, Bool.and_self, if_true]
  · obtain ⟨hs32, hn32, hs64, hn64⟩ := atomV_minmax sgn ftz v b d mx
    exact ⟨hs32, hn32, hs64, hn64, atomV_minmax_f32 sgn ftz v b d mx⟩

end Sys2Proof.Machine
end

section
/-! PROOFS. An access of a thread under one leaf (Table 7.1; 16 R389 to R397), and what stores and look-ups leave of the operations in
flight (04 R125) and of the cores. -/

namespace Sys2Proof.Machine

open Sys2Proof

set_option Elab.async false

/-! ### The cases of a look-up (R395, R396) -/

/-- What a leaf gives an access. -/
def Leaf.checked (l : Leaf) (acc : Access) : Except WalkFail Leaf :=
  if l.permits acc then .ok l else .error ⟨l.level, true, l.rpl, false⟩

/-- A translation that a core's TLB keeps. -/
def Gpu.keepTlb (g : Gpu) (core : Nat) (c : Ctx) (va : Nat) (l : Leaf) : Gpu :=
  g.modCore core fun k => { k with tlb := tlbAddWay k.tlb c.asid va l }

/-- The TLB of a core's die. -/
def Gpu.dieTlb (g : Gpu) (core : Nat) : List TlbEntry := if dieOf core = 0 then g.mem.lltlb0 else g.mem.lltlb1

/-- A translation that the TLB of a core's die keeps. -/
def Gpu.keepDie (g : Gpu) (core : Nat) (c : Ctx) (va : Nat) (l : Leaf) : Gpu :=
  if dieOf core = 0 then { g with mem := { g.mem with lltlb0 := tlbAdd g.mem.lltlb0 131072 c.asid va l } }
  else { g with mem := { g.mem with lltlb1 := tlbAdd g.mem.lltlb1 131072 c.asid va l } }

section
variable {g : Gpu} {core : Nat} {c : Ctx} {acc : Access} {va : Nat} {l : Leaf}

theorem Gpu.translate_of_hit (h : tlbHit (g.core core).tlb c.asid va = some l) : g.translate core c acc va = (g, l.checked acc) := by
  simp only [Gpu.translate, h]
  rfl

theorem Gpu.translate_of_die (h : tlbHit (g.core core).tlb c.asid va = none) (hd : tlbHit (g.dieTlb core) c.asid va = some l) :
    g.translate core c acc va = (g.keepTlb core c va l, l.checked acc) := by
  rw [Gpu.dieTlb] at hd
  simp only [Gpu.translate, h, hd]
  rfl

theorem Gpu.translate_of_walk (h : tlbHit (g.core core).tlb c.asid va = none) (hd : tlbHit (g.dieTlb core) c.asid va = none)
    (hw : g.walk c va = .ok l) : g.translate core c acc va = (((g.noteHome l).keepTlb core c va l).keepDie core c va l, l.checked acc) := by
  rw [Gpu.dieTlb] at hd
  simp only [Gpu.translate, h, hd, hw]
  rfl

theorem Gpu.translate_of_fail {f : WalkFail} (h : tlbHit (g.core core).tlb c.asid va = none) (hd : tlbHit (g.dieTlb core) c.asid va = none)
    (hw : g.walk c va = .error f) :
    g.translate core c acc va = (if f.bad then g.logError c.part 2 c.asid core 7 va else g, .error f) := by
  rw [Gpu.dieTlb] at hd
  simp only [Gpu.translate, h, hd, hw]

/-- A look-up answers from the core's TLB, from its die's, or from a walk. -/
theorem Gpu.translate_cases (g : Gpu) (core : Nat) (c : Ctx) (va : Nat) :
    (∃ l, tlbHit (g.core core).tlb c.asid va = some l) ∨
    tlbHit (g.core core).tlb c.asid va = none ∧
      ((∃ l, tlbHit (g.dieTlb core) c.asid va = some l) ∨
        tlbHit (g.dieTlb core) c.asid va = none ∧ ((∃ l, g.walk c va = .ok l) ∨ ∃ f, g.walk c va = .error f)) := by
  cases tlbHit (g.core core).tlb c.asid va with
  | some l => exact .inl ⟨l, rfl⟩
  | none =>
    cases tlbHit (g.dieTlb core) c.asid va with
    | some l => exact .inr ⟨rfl, .inl ⟨l, rfl⟩⟩
    | none =>
      cases g.walk c va with
      | ok l => exact .inr ⟨rfl, .inr ⟨rfl, .inl ⟨l, rfl⟩⟩⟩
      | error f => exact .inr ⟨rfl, .inr ⟨rfl, .inr ⟨f, rfl⟩⟩⟩

end

/-! ### Look-ups do not read the clocks -/

/-- The device with other clocks latched. -/
def Gpu.clocked (g : Gpu) (n p : Nat) : Gpu := { g with now := n, ptp := p }

section
variable (g : Gpu) (n p : Nat)

theorem Gpu.walkFrom_clocked (c : Ctx) (q : Part) (va level base : Nat) :
    (g.clocked n p).walkFrom c q va base level = g.walkFrom c q va base level := by
  induction level generalizing base with
  | zero => rfl
  | succ level ih =>
    unfold Gpu.walkFrom
    simp only [ih]
    rfl

theorem Gpu.walk_clocked (c : Ctx) (va : Nat) : (g.clocked n p).walk c va = g.walk c va := by
  have hpart : (g.clocked n p).part? c.part = g.part? c.part := rfl
  simp only [Gpu.walk, hpart]
  cases g.part? c.part with
  | none => rfl
  | some q => exact g.walkFrom_clocked n p c q va 3 c.ptroot

theorem Gpu.keepTlb_clocked (core : Nat) (c : Ctx) (va : Nat) (l : Leaf) :
    (g.clocked n p).keepTlb core c va l = (g.keepTlb core c va l).clocked n p := by
  have hcores : (g.clocked n p).cores = g.cores := rfl
  simp only [Gpu.keepTlb, Gpu.modCore, hcores]
  split <;> rfl

theorem Gpu.noteHome_clocked (l : Leaf) : (g.clocked n p).noteHome l = (g.noteHome l).clocked n p := by
  simp only [Gpu.noteHome]
  split <;> rfl

theorem Gpu.keepDie_clocked (core : Nat) (c : Ctx) (va : Nat) (l : Leaf) :
    (g.clocked n p).keepDie core c va l = (g.keepDie core c va l).clocked n p := by
  simp only [Gpu.keepDie]
  split <;> rfl

/-- A look-up answers the same under other clocks, and leaves the same device but for the time of an error that it logs. -/
theorem Gpu.translate_clocked (core : Nat) (c : Ctx) (acc : Access) (va : Nat) :
    ((g.clocked n p).translate core c acc va).2 = (g.translate core c acc va).2 ∧
    ∀ l, (g.translate core c acc va).2 = .ok l →
      ((g.clocked n p).translate core c acc va).1 = (g.translate core c acc va).1.clocked n p := by
  obtain ⟨l, h⟩ | ⟨h, ⟨l, hd⟩ | ⟨hd, ⟨l, hw⟩ | ⟨f, hw⟩⟩⟩ := g.translate_cases core c va
  · rw [Gpu.translate_of_hit h, Gpu.translate_of_hit (g := g.clocked n p) h]
    exact ⟨rfl, fun _ _ => rfl⟩
  · rw [Gpu.translate_of_die h hd, Gpu.translate_of_die (g := g.clocked n p) h hd]
    exact ⟨rfl, fun _ _ => g.keepTlb_clocked n p core c va l⟩
  · rw [Gpu.translate_of_walk h hd hw, Gpu.translate_of_walk (g := g.clocked n p) h hd ((g.walk_clocked n p c va).trans hw),
      Gpu.noteHome_clocked, Gpu.keepTlb_clocked, Gpu.keepDie_clocked]
    exact ⟨rfl, fun _ _ => rfl⟩
  · rw [Gpu.translate_of_fail h hd hw, Gpu.translate_of_fail (g := g.clocked n p) h hd ((g.walk_clocked n p c va).trans hw)]
    exact ⟨rfl, fun _ hl => nomatch hl⟩

end

/-! ### Cores -/

theorem Gpu.core_modCore (g : Gpu) (n : Nat) (f : CoreSt → CoreSt) : (g.modCore n f).core n = f (g.core n) := by
  have hmap : ∀ cs : List (Nat × CoreSt), ((cs.map fun x => if x.1 = n then (n, f x.2) else x).find? fun x => x.1 == n).map (·.2) =
      ((cs.find? fun x => x.1 == n).map (·.2)).map f := fun cs => by
    induction cs with
    | nil => rfl
    | cons x cs ih =>
      by_cases h : x.1 = n
      · simp [h]
      · simp only [List.map_cons, List.find?_cons, h, if_false, beq_eq_false_iff_ne.mpr h]
        exact ih
  unfold Gpu.modCore Gpu.core
  split
  · rename_i hin
    obtain ⟨x, hx⟩ := Option.isSome_iff_exists.mp (List.find?_isSome.mpr (List.any_eq_true.mp hin))
    rw [hmap, hx]
    rfl
  · rename_i hin
    have hnone : g.cores.find? (fun x => x.1 == n) = none := List.find?_eq_none.mpr fun x hx hn => hin (List.any_eq_true.mpr ⟨x, hx, hn⟩)
    simp [hnone]

theorem Gpu.modCore_modCore (g : Gpu) (n : Nat) (f h : CoreSt → CoreSt) : (g.modCore n f).modCore n h = g.modCore n (h ∘ f) := by
  by_cases hin : (g.cores.any fun x => x.1 == n) = true
  · have hboth : ∀ x : Nat × CoreSt, (if (if x.1 = n then (n, f x.2) else x).1 = n then (n, h (if x.1 = n then (n, f x.2) else x).2)
        else if x.1 = n then (n, f x.2) else x) = if x.1 = n then (n, (h ∘ f) x.2) else x := fun x => by split <;> simp_all
    rw [Gpu.modCore, if_pos (g.inUse_modCore n f n hin)]
    simp only [Gpu.modCore, if_pos hin, List.map_map, Function.comp_def, hboth]
  · have hother : ∀ f : CoreSt → CoreSt, (g.cores.map fun x => if x.1 = n then (n, f x.2) else x) = g.cores := fun f =>
      (List.map_congr_left fun x hx => if_neg fun hn => hin (List.any_eq_true.mpr ⟨x, hx, by simp [hn]⟩)).trans (List.map_id _)
    simp [Gpu.modCore, hin, hother]

/-! ### What stores leave of the operations in flight -/

/-- The operations in flight, and the model's next number. -/
def Gpu.inFlight (g : Gpu) : List Op × Nat := (g.ops, g.nextId)

theorem Gpu.inFlight_foldl {α : Type} {f : Gpu → α → Gpu} (hf : ∀ (g : Gpu) (a : α), (f g a).inFlight = g.inFlight) (l : List α) (g : Gpu) :
    (l.foldl f g).inFlight = g.inFlight := by
  induction l generalizing g with
  | nil => rfl
  | cons a l ih => exact (ih _).trans (hf g a)

theorem Gpu.inFlight_modCore (g : Gpu) (n : Nat) (f : CoreSt → CoreSt) : (g.modCore n f).inFlight = g.inFlight := by simp [Gpu.inFlight]

theorem Gpu.inFlight_tear (g : Gpu) (a : Nat) : (g.tear a).inFlight = g.inFlight := by
  unfold Gpu.tear
  simp only
  split <;> rfl

theorem Gpu.inFlight_putHome (g : Gpu) (res : Bool) (p : Phys) (b : Byte) : (g.putHome res p b).inFlight = g.inFlight := by
  unfold Gpu.putHome
  split
  · exact g.inFlight_tear p.addr
  · split <;> rfl
  · rfl
  · rfl

theorem Gpu.inFlight_homeStore (g : Gpu) (whole res : Bool) (cs : List (Phys × Byte)) : (g.homeStore whole res cs).inFlight = g.inFlight := by
  induction cs generalizing g with
  | nil => rfl
  | cons c cs ih =>
    simp only [Gpu.homeStore]
    split
    · exact (ih _).trans (Gpu.inFlight_putHome _ res c.1 c.2)
    · split
      · exact ih _
      · exact (ih _).trans (Gpu.inFlight_putHome _ res c.1 c.2)

theorem Gpu.inFlight_ctrlStore (g : Gpu) (cs : List (Phys × Byte)) : (g.ctrlStore cs).inFlight = g.inFlight := by
  induction cs generalizing g with
  | nil => rfl
  | cons c cs ih =>
    simp only [Gpu.ctrlStore]
    split
    · split
      · exact ih _
      · exact (ih _).trans (Gpu.inFlight_tear _ c.1.addr)
    · exact (ih _).trans (g.inFlight_homeStore false false [c])

theorem Gpu.inFlight_peerStore (g : Gpu) (cells : List (Phys × Byte)) (op : Option Nat) (by_ : Option (TRef × DWord × DWord)) :
    (g.peerStore cells op by_).inFlight = g.inFlight := by
  unfold Gpu.peerStore
  simp only
  generalize List.map (fun x => x.2) (List.filter _ cells) = bs
  generalize runsOf _ = rs
  induction rs generalizing g bs with
  | nil => rfl
  | cons r rs ih =>
    rw [List.foldl_cons]
    split
    · exact ih (g.sendOn ..) _
    · exact ih g bs

theorem Gpu.inFlight_logError (g : Gpu) (part kind asid core unit addr : Nat) :
    (g.logError part kind asid core unit addr).inFlight = g.inFlight := by
  unfold Gpu.logError
  split <;> rfl

theorem Gpu.inFlight_writeL1 (core : Nat) (g : Gpu) (l : L1Line) : (Gpu.writeL1 core g l).inFlight = g.inFlight := by
  unfold Gpu.writeL1
  split
  · split
    · rfl
    · exact Gpu.inFlight_logError ..
  · exact g.inFlight_homeStore ..

theorem Gpu.inFlight_cleanL1 (g : Gpu) (core : Nat) : (g.cleanL1 core).inFlight = g.inFlight :=
  (Gpu.inFlight_modCore _ core _).trans (Gpu.inFlight_foldl (Gpu.inFlight_writeL1 core) _ g)

theorem Gpu.inFlight_evictL1 (g : Gpu) (core : Nat) (k : LineKey) : (g.evictL1 core k).inFlight = g.inFlight :=
  (Gpu.inFlight_modCore _ core _).trans (Gpu.inFlight_foldl (Gpu.inFlight_writeL1 core) _ g)

theorem Gpu.inFlight_makeRoom (g : Gpu) (core : Nat) : (g.makeRoom core).inFlight = g.inFlight := by
  have hchoose : ∀ n, (g.choose n).1.inFlight = g.inFlight := fun n => by
    unfold Gpu.choose
    split <;> rfl
  unfold Gpu.makeRoom
  simp only
  split
  · rfl
  · split
    · exact (Gpu.inFlight_evictL1 _ core _).trans (hchoose _)
    · rfl

theorem Gpu.inFlight_fillL1 (g : Gpu) (core rank : Nat) (k : LineKey) : (g.fillL1 core rank k).inFlight = g.inFlight := by
  unfold Gpu.fillL1
  split
  · rfl
  · split
    · split
      · exact g.inFlight_modCore core _
      · rfl
    · exact (Gpu.inFlight_modCore _ core _).trans ((Gpu.inFlight_makeRoom _ core).trans (g.inFlight_evictL1 core k))

theorem Gpu.inFlight_perform (g : Gpu) (core : Nat) (e : FifoEntry) : (g.perform core e).inFlight = g.inFlight := by
  have hfill : ∀ (g : Gpu) (x : Phys × Byte), ((g.loseResv x.1.line).fillL1 core e.attr.rank x.1.line).inFlight = g.inFlight := fun g x =>
    Gpu.inFlight_fillL1 (g.loseResv x.1.line) core _ _
  have hpoke : ∀ (g : Gpu) (mark res : Bool), (g.pokeL1 core mark res e.cells).inFlight = g.inFlight := fun g _ _ => g.inFlight_modCore core _
  unfold Gpu.perform
  split
  · rfl
  · split
    · exact g.inFlight_peerStore ..
    · split
      · rfl
      · split
        · exact g.inFlight_ctrlStore _
        · split
          · exact (hpoke _ _ _).trans (g.inFlight_homeStore ..)
          · split
            · exact g.inFlight_homeStore ..
            · have hlines := Gpu.inFlight_foldl hfill e.cells g
              simp only
              split
              · exact (hpoke _ _ _).trans ((Gpu.inFlight_homeStore ..).trans hlines)
              · exact (hpoke _ _ _).trans hlines

theorem Gpu.inFlight_drain (g : Gpu) (core : Nat) (t : TRef) : (g.drain core t).inFlight = g.inFlight :=
  (Gpu.inFlight_foldl (fun g e => g.inFlight_perform core e) _ _).trans (g.inFlight_modCore core _)

theorem Gpu.inFlight_release (g : Gpu) (core : Nat) (t : TRef) (sc : Scope) : (g.release core t sc).inFlight = g.inFlight := by
  unfold Gpu.release
  split
  · exact (Gpu.inFlight_cleanL1 _ core).trans (g.inFlight_drain core t)
  · exact g.inFlight_drain core t

end Sys2Proof.Machine
end

section
/-! PROOFS. An access of a thread to memory under one leaf (07 Table 7.1; 16 R395 to R397): its look-up, its locations, and what holds it back. -/

namespace Sys2Proof.Machine

open Sys2Proof

set_option Elab.async false

/-! ### What a look-up leaves -/

theorem Gpu.inFlight_mem (g : Gpu) (m : MemSt) : { g with mem := m }.inFlight = g.inFlight := rfl

theorem Gpu.core_mem (g : Gpu) (core : Nat) (m : MemSt) : { g with mem := m }.core core = g.core core := rfl

section
variable (g : Gpu) (core : Nat) (c : Ctx) (va : Nat) (l : Leaf)

theorem Gpu.inFlight_noteHome : (g.noteHome l).inFlight = g.inFlight := by
  unfold Gpu.noteHome
  simp only
  split <;> rfl

theorem Gpu.threads_noteHome : (g.noteHome l).threads = g.threads := by
  unfold Gpu.noteHome
  simp only
  split <;> rfl

theorem Gpu.core_noteHome : (g.noteHome l).core core = g.core core := by
  unfold Gpu.noteHome
  simp only
  split <;> rfl

theorem Gpu.stores_keepDie : g.Stores (g.keepDie core c va l) := by
  unfold Gpu.keepDie
  split <;> exact g.stores_mem _

theorem Gpu.inFlight_keepDie : (g.keepDie core c va l).inFlight = g.inFlight := by
  unfold Gpu.keepDie
  split <;> exact g.inFlight_mem _

theorem Gpu.threads_keepDie : (g.keepDie core c va l).threads = g.threads := by
  unfold Gpu.keepDie
  split <;> rfl

theorem Gpu.core_keepDie : (g.keepDie core c va l).core core = g.core core := by
  unfold Gpu.keepDie
  split <;> exact g.core_mem core _

theorem Gpu.stores_keepTlb : g.Stores (g.keepTlb core c va l) := g.stores_modCore core _

theorem Gpu.inFlight_keepTlb : (g.keepTlb core c va l).inFlight = g.inFlight := g.inFlight_modCore core _

theorem Gpu.threads_keepTlb : (g.keepTlb core c va l).threads = g.threads := g.modCore_threads core _

theorem Gpu.core_keepTlb : (g.keepTlb core c va l).core core = { g.core core with tlb := tlbAddWay (g.core core).tlb c.asid va l } :=
  g.core_modCore core _

theorem Gpu.stores_translate (acc : Access) : g.Stores (g.translate core c acc va).1 := by
  obtain ⟨l, h⟩ | ⟨h, ⟨l, hd⟩ | ⟨hd, ⟨l, hw⟩ | ⟨f, hw⟩⟩⟩ := g.translate_cases core c va
  · rw [Gpu.translate_of_hit h]
    exact .refl g
  · rw [Gpu.translate_of_die h hd]
    exact g.stores_keepTlb core c va l
  · rw [Gpu.translate_of_walk h hd hw]
    exact ((g.stores_noteHome l).trans (Gpu.stores_keepTlb _ core c va l)).trans (Gpu.stores_keepDie _ core c va l)
  · rw [Gpu.translate_of_fail h hd hw]
    split
    · exact g.stores_logError _ _ _ _ _ _
    · exact .refl g

theorem Gpu.inFlight_translate (acc : Access) : (g.translate core c acc va).1.inFlight = g.inFlight := by
  obtain ⟨l, h⟩ | ⟨h, ⟨l, hd⟩ | ⟨hd, ⟨l, hw⟩ | ⟨f, hw⟩⟩⟩ := g.translate_cases core c va
  · rw [Gpu.translate_of_hit h]
  · rw [Gpu.translate_of_die h hd, Gpu.inFlight_keepTlb]
  · rw [Gpu.translate_of_walk h hd hw, Gpu.inFlight_keepDie, Gpu.inFlight_keepTlb, Gpu.inFlight_noteHome]
  · rw [Gpu.translate_of_fail h hd hw]
    split
    · exact g.inFlight_logError _ _ _ _ _ _
    · rfl

/-- A look-up that answers changes no thread. -/
theorem Gpu.threads_translate {acc : Access} (hl : (g.translate core c acc va).2 = .ok l) : (g.translate core c acc va).1.threads = g.threads := by
  obtain ⟨k, h⟩ | ⟨h, ⟨k, hd⟩ | ⟨hd, ⟨k, hw⟩ | ⟨f, hw⟩⟩⟩ := g.translate_cases core c va
  · rw [Gpu.translate_of_hit h]
  · rw [Gpu.translate_of_die h hd, Gpu.threads_keepTlb]
  · rw [Gpu.translate_of_walk h hd hw, Gpu.threads_keepDie, Gpu.threads_keepTlb, Gpu.threads_noteHome]
  · rw [Gpu.translate_of_fail h hd hw] at hl
    exact nomatch hl

/-- A look-up that answers changes the core's TLB alone. -/
theorem Gpu.core_translate {acc : Access} (hl : (g.translate core c acc va).2 = .ok l) :
    ∃ tlb, (g.translate core c acc va).1.core core = { g.core core with tlb := tlb } := by
  obtain ⟨k, h⟩ | ⟨h, ⟨k, hd⟩ | ⟨hd, ⟨k, hw⟩ | ⟨f, hw⟩⟩⟩ := g.translate_cases core c va
  · rw [Gpu.translate_of_hit h]
    exact ⟨_, rfl⟩
  · rw [Gpu.translate_of_die h hd, Gpu.core_keepTlb]
    exact ⟨_, rfl⟩
  · rw [Gpu.translate_of_walk h hd hw, Gpu.core_keepDie, Gpu.core_keepTlb, Gpu.core_noteHome]
    exact ⟨_, rfl⟩
  · rw [Gpu.translate_of_fail h hd hw] at hl
    exact nomatch hl

end

/-! ### The locations of an access under one leaf -/

theorem Leaf.head?_span (l : Leaf) (va : Nat) {size : Nat} (h : 0 < size) : (l.span va size).head? = some (l.phys va) := by
  obtain ⟨n, rfl⟩ := Nat.exists_eq_succ_of_ne_zero h.ne'
  simp [Leaf.span, List.range_succ_eq_map]

/-- The page captured for an access in a leaf's page. -/
def Leaf.pageAt (l : Leaf) (va : Nat) : Nat × Leaf := (va / 2 ^ l.log * 2 ^ l.log, l)

theorem Leaf.pageAt_add_mod (l : Leaf) (va : Nat) : (l.pageAt va).1 + va % 2 ^ l.log = va := Nat.div_add_mod' va (2 ^ l.log)

theorem findLeaf_pageAt {l : Leaf} {va size : Nat} (hfit : va % 2 ^ l.log + size ≤ 2 ^ l.log) {i : Nat} (hi : i < size) :
    findLeaf [l.pageAt va] (va + i) = some l := by
  have hbase := l.pageAt_add_mod va
  have hin : (decide ((l.pageAt va).1 ≤ va + i) && decide (va + i < (l.pageAt va).1 + 2 ^ (l.pageAt va).2.log)) = true := by
    have hlog : (l.pageAt va).2.log = l.log := rfl
    simp only [hlog, Bool.and_eq_true, decide_eq_true_eq]
    omega
  exact congrArg (Option.map fun x => x.2)
    (List.find?_cons_of_pos (p := fun x : Nat × Leaf => decide (x.1 ≤ va + i) && decide (va + i < x.1 + 2 ^ x.2.log)) (l := []) hin)

theorem physOf_pageAt {l : Leaf} {va size : Nat} (hfit : va % 2 ^ l.log + size ≤ 2 ^ l.log) :
    physOf [l.pageAt va] va size = l.span va size :=
  List.map_congr_left fun i hi => by rw [findLeaf_pageAt hfit (List.mem_range.mp hi)]; rfl

theorem Gpu.unlinked_span {g : Gpu} {l : Leaf} {va size : Nat} (hpeer : ∀ c e, l.base.sp ≠ .peer c e) : g.unlinked (l.span va size) = false := by
  refine List.any_eq_false.mpr fun p hp => ?_
  obtain ⟨i, -, rfl⟩ := List.mem_map.mp hp
  split
  · rename_i c e hsp
    exact absurd hsp (hpeer c e)
  · exact Bool.false_ne_true

theorem region_mem {va : Nat} (h : va < 0xFF0000000000) : region (BitVec.ofNat 64 va) = .mem va := by
  have hva : (BitVec.ofNat 64 va).toNat = va := by
    rw [BitVec.toNat_ofNat]
    omega
  rw [region, hva, if_pos h]

theorem checkAddr_mem {allow : Allow} {al : Nat} {memAl : Bool} {size len va : Nat} (hallow : allow ≠ .scratchOnly) (hsize : 0 < size)
    (hend : va + size ≤ 0xFF0000000000) (hal : memAl = true → va % al = 0) :
    checkAddr allow al memAl size len (BitVec.ofNat 64 va) = .ok (.mem va) := by
  have hallowed : (decide (allow = .scratchOnly) || decide (0xFF0000000000 < va + size)) = false := by simp [hallow, hend]
  have haligned : (memAl && decide (va % al ≠ 0)) = false := by
    cases memAl with
    | false => rfl
    | true => simp [hal rfl]
  simp only [checkAddr, region_mem (show va < 0xFF0000000000 by omega), hallowed, haligned, Bool.false_eq_true, if_false]

section
variable {g g' : Gpu} {t : TRef} {core ctx : Nat} {c : Ctx} {acc : Access} {va size : Nat} {l : Leaf}

/-- An access within one page looks that page up alone. -/
theorem Gpu.pages_of_translate (hsize : 0 < size) (hend : va + size ≤ 0xFF0000000000) (hfit : va % 2 ^ l.log + size ≤ 2 ^ l.log)
    (htr : g.translate core c acc va = (g', .ok l)) : g.pages t core c acc va size = (g', .ok [l.pageAt va]) := by
  have hbase := l.pageAt_add_mod va
  have hstop : va + size ≤ (l.pageAt va).1 + 2 ^ l.log := by omega
  have hleaves : g.leaves core c acc (size / 4096 + 2) va (va + size) = (g', .ok [l.pageAt va]) := by
    rw [Gpu.leaves, if_neg (by omega), if_neg (by omega), htr]
    simp only
    rw [Gpu.leaves, if_pos (by exact hstop)]
    rfl
  simp only [Gpu.pages, hleaves]

/-- Orders 2 to 6 of Table 7.1 for an access in memory under one leaf: what holds it back, or its locations. -/
theorem Gpu.reach_of_translate {allow : Allow} {al : Nat} {memAl : Bool} {w : Wg} (hw : g.wg? t.wg = some w) (hc : g.ctx? ctx = some c)
    (hallow : allow ≠ .scratchOnly) (hal : memAl = true → va % al = 0) (hsize : 0 < size) (hend : va + size ≤ 0xFF0000000000)
    (hfit : va % 2 ^ l.log + size ≤ 2 ^ l.log) (hpeer : ∀ c e, l.base.sp ≠ .peer c e) (htr : g.translate core c acc va = (g', .ok l)) :
    g.reach t core ctx allow al memAl size acc (BitVec.ofNat 64 va) =
      (g', (g'.holds t core acc (l.span va size)).elim (.ok (.mem [l.pageAt va] (l.span va size))) fun h => .error (.hold h)) := by
  simp only [Gpu.reach, Gpu.reachAs, hw, hc, checkAddr_mem hallow hsize hend hal, Gpu.pages_of_translate hsize hend hfit htr, physOf_pageAt hfit,
    Gpu.unlinked_span hpeer, Bool.and_false, Bool.false_eq_true, if_false]
  cases g'.holds t core acc (l.span va size) <;> rfl

end

/-! ### Accesses as the statements say them -/

section
variable {s : State} {u : TRef} {acc : Access} {va size : Nat} {l : Leaf}

theorem Gpu.looked_of_ctx {g : Gpu} {c : Ctx} (hc : g.ctx? (g.env u).ctx = some c) (acc : Access) (va : Nat) :
    g.looked u acc va = (g.translate (g.env u).core c acc va).1 := by
  simp only [Gpu.looked, hc]

/-- The look-up of the step reads the device with the clocks latched. -/
theorem State.translate_now {c : Ctx} (hc : s.gpu.ctx? (s.gpu.env u).ctx = some c) (htr : (s.gpu.translate (s.gpu.env u).core c acc va).2 = .ok l) :
    s.now.translate (s.gpu.env u).core c acc va = ((s.gpu.looked u acc va).clocked s.clk.cyc s.clk.ptp, .ok l) ∧
      s.now.looked u acc va = (s.gpu.looked u acc va).clocked s.clk.cyc s.clk.ptp := by
  obtain ⟨hleaf, hdev⟩ := s.gpu.translate_clocked s.clk.cyc s.clk.ptp (s.gpu.env u).core c acc va
  have hdev : (s.now.translate (s.gpu.env u).core c acc va).1 = _ := hdev l htr
  have hleaf : (s.now.translate (s.gpu.env u).core c acc va).2 = _ := hleaf
  have hlook : s.now.looked u acc va = (s.now.translate (s.gpu.env u).core c acc va).1 := Gpu.looked_of_ctx (g := s.now) hc acc va
  rw [Gpu.looked_of_ctx hc, hlook, ← hdev]
  exact ⟨Prod.ext rfl (hleaf.trans htr), rfl⟩

theorem Lies.fits (h : Lies s u acc va size l) : Fits s u acc va size l := by
  obtain ⟨hw, hsize, hend, hfit, hpeer, -, hc⟩ := h
  exact ⟨hw, hsize, hend, hfit, hpeer, hc⟩

section
variable {allow : Allow} {al : Nat} {memAl : Bool}

/-- An access that nothing holds back reaches its locations. -/
theorem Lies.reach (h : Lies s u acc va size l) (hallow : allow ≠ .scratchOnly) (hal : memAl = true → va % al = 0) :
    s.now.reach u (s.gpu.env u).core (s.gpu.env u).ctx allow al memAl size acc (BitVec.ofNat 64 va) =
      (s.now.looked u acc va, .ok (.mem [l.pageAt va] (l.span va size))) := by
  obtain ⟨hw, hsize, hend, hfit, hpeer, hfree, c, hc, htr⟩ := h
  obtain ⟨w, hw⟩ := Option.isSome_iff_exists.mp hw
  obtain ⟨hnow, hlook⟩ := State.translate_now hc htr
  have hfree : (s.now.looked u acc va).holds u (s.gpu.env u).core acc (l.span va size) = none := by
    rw [hlook]
    exact hfree
  rw [← hlook] at hnow
  rw [Gpu.reach_of_translate (g := s.now) hw hc hallow hal hsize hend hfit hpeer hnow, hfree]
  rfl

/-- An access that an earlier remote read or fence of the thread holds back. -/
theorem Fits.reach_held (h : Fits s u acc va size l) (hheld : s.gpu.heldBack u = true) (hallow : allow ≠ .scratchOnly)
    (hal : memAl = true → va % al = 0) :
    s.now.reach u (s.gpu.env u).core (s.gpu.env u).ctx allow al memAl size acc (BitVec.ofNat 64 va) =
      (s.now.looked u acc va, .error (.hold .order)) := by
  obtain ⟨hw, hsize, hend, hfit, hpeer, c, hc, htr⟩ := h
  obtain ⟨w, hw⟩ := Option.isSome_iff_exists.mp hw
  obtain ⟨hnow, hlook⟩ := State.translate_now hc htr
  have hstill : (s.now.looked u acc va).heldBack u = true := by
    have hops : (s.gpu.looked u acc va).ops = s.gpu.ops := by
      rw [Gpu.looked_of_ctx hc]
      exact congrArg Prod.fst (s.gpu.inFlight_translate _ c va acc)
    have hthreads : (s.gpu.looked u acc va).threads = s.gpu.threads := by
      rw [Gpu.looked_of_ctx hc]
      exact s.gpu.threads_translate _ c va l htr
    rw [hlook, ← hheld]
    simp only [Gpu.heldBack, Gpu.remoteRead, Gpu.thread?, Gpu.clocked, hops, hthreads]
  rw [← hlook] at hnow
  rw [Gpu.reach_of_translate (g := s.now) hw hc hallow hal hsize hend hfit hpeer hnow, Gpu.holds, if_pos hstill]
  rfl

end

end

end Sys2Proof.Machine
end

section
/-! PROOFS. A store-conditional whose reservation is held (04 R122; 07 R208). -/

namespace Sys2Proof.Machine

open Sys2Proof

set_option Elab.async false

/-! ### What stores leave -/

theorem Gpu.Stores.deadlineWg {g g' : Gpu} (h : g.Stores g') (wg : Nat) : g'.deadlineWg wg = g.deadlineWg wg := by
  simp only [Gpu.deadlineWg, Gpu.wg?, Gpu.launch?, h.wgs, h.launches]

/-- A store costs a thread at most the reservation, so that a thread whose reservation ends is then as if nothing had been stored. -/
theorem Gpu.Stores.unreserved {g g' : Gpu} (h : g.Stores g') (t : TRef) :
    ((g'.thread? t).map fun th => { th with resv := none }) = (g.thread? t).map fun th => { th with resv := none } := by
  obtain ⟨f, hf, hthreads⟩ := h.threads
  have hmap : g'.thread? t = (g.thread? t).map (f t) := by
    rw [← Gpu.thread?_mapThreads]
    simp only [Gpu.thread?, Gpu.mapThreads, hthreads]
  rw [hmap]
  cases g.thread? t with
  | none => rfl
  | some th => rcases hf t th with h | h <;> simp only [Option.map_some, h]

/-! ### An empty FIFO, and the home slice -/

section
variable (g : Gpu) (core : Nat) (t : TRef) (ps : List Phys)

theorem Gpu.stores_drain : g.Stores (g.drain core t) := g.stores_leaveFifo core _

theorem Gpu.stores_atHome : g.Stores (g.atHome core t ps) :=
  (g.stores_drain core t).trans (.foldl (fun g p => g.stores_evictL1 core p.line) ps _)

theorem Gpu.inFlight_atHome : (g.atHome core t ps).inFlight = g.inFlight :=
  (Gpu.inFlight_foldl (f := fun (g : Gpu) (p : Phys) => g.evictL1 core p.line) (fun g p => g.inFlight_evictL1 core p.line) ps _).trans
    (g.inFlight_drain core t)

variable {g core}

theorem Gpu.drain_of_fifo_nil (h : (g.core core).fifo = []) : g.drain core t = g.modCore core fun c => { c with fifo := [] } := by
  simp only [Gpu.drain, h, List.reverse_nil, parting, Gpu.leaveFifo, List.foldl_nil]

/-- Where no store waits in a FIFO, a second drain changes nothing. -/
theorem Gpu.drain_drain (h : (g.core core).fifo = []) : (g.drain core t).drain core t = g.drain core t := by
  have hnil : ((g.modCore core fun c => { c with fifo := [] }).core core).fifo = [] := by rw [Gpu.core_modCore]
  rw [Gpu.drain_of_fifo_nil t h, Gpu.drain_of_fifo_nil t hnil, Gpu.modCore_modCore]
  rfl

theorem Gpu.atHome_drain (h : (g.core core).fifo = []) : (g.drain core t).atHome core t ps = g.atHome core t ps := by
  rw [Gpu.atHome, Gpu.drain_drain t h]
  rfl

theorem Gpu.threads_drain (h : (g.core core).fifo = []) : (g.drain core t).threads = g.threads := by
  rw [Gpu.drain_of_fifo_nil t h, Gpu.modCore_threads]

theorem Gpu.hostAtomFault_span {l : Leaf} {va size : Nat} {allow : Bool} (hpeer : ∀ c e, l.base.sp ≠ .peer c e)
    (hhost : ∀ k, l.base.sp ≠ .host k) : g.hostAtomFault t allow (l.span va size) = false := by
  refine List.any_eq_false.mpr fun p hp => ?_
  obtain ⟨i, -, rfl⟩ := List.mem_map.mp hp
  split
  · rename_i k hsp
    exact absurd hsp (hhost k)
  · rename_i c e hsp
    exact absurd hsp (hpeer c e)
  · exact Bool.false_ne_true

end

/-! ### A result pending -/

theorem Gpu.thread?_pendLane_same (g : Gpu) (t : TRef) (rs : List Reg) (vs : List Word) (fl : BitVec 5) (xch : Bool) :
    (g.pendLane t rs vs fl xch).thread? t = (g.thread? t).map fun th => th.pendNow g.nextId rs vs fl xch g.cur.pc g.cur.word :=
  g.thread?_modThread_same (fun th => th.pendNow g.nextId rs vs fl xch g.cur.pc g.cur.word) t

theorem Gpu.thread?_pendLane_other (g : Gpu) {t v : TRef} (h : v ≠ t) (rs : List Reg) (vs : List Word) (fl : BitVec 5) (xch : Bool) :
    (g.pendLane t rs vs fl xch).thread? v = g.thread? v :=
  g.thread?_modThread_other (fun th => th.pendNow g.nextId rs vs fl xch g.cur.pc g.cur.word) h

/-- What the look-up of an access leaves: the operations in flight, the threads, and the store FIFO of the core. -/
theorem Fits.looked {s : State} {u : TRef} {acc : Access} {va size : Nat} {l : Leaf} (h : Fits s u acc va size l) :
    s.now.Stores (s.now.looked u acc va) ∧ (s.now.looked u acc va).inFlight = s.now.inFlight ∧
      (s.now.looked u acc va).threads = s.gpu.threads ∧
      ((s.now.looked u acc va).core (s.gpu.env u).core).fifo = (s.gpu.core (s.gpu.env u).core).fifo := by
  obtain ⟨-, -, -, -, -, c, hc, htr⟩ := h
  have hleaf : (s.now.translate (s.gpu.env u).core c acc va).2 = .ok l := by rw [(State.translate_now hc htr).1]
  have hlook : s.now.looked u acc va = (s.now.translate (s.gpu.env u).core c acc va).1 := Gpu.looked_of_ctx (g := s.now) hc acc va
  obtain ⟨tlb, hcore⟩ := s.now.core_translate _ c va l hleaf
  rw [hlook, hcore]
  exact ⟨s.now.stores_translate _ c va acc, s.now.inFlight_translate _ c va acc, s.now.threads_translate _ c va l hleaf, rfl⟩

/-! ### The lane of a store-conditional -/

section
variable {g g' : Gpu} {u : TRef} {th : Thread} {wide : Bool} {sc : Scope} {d a : Reg} {b : SrcB} {e : Env} {ls : List (Nat × Leaf)} {ps : List Phys}

/-- The lane when the reservation is held: it stores at the home slice, ends the reservation and answers 0. -/
theorem Gpu.scLane_of_reach
    (hreach : g.reach u e.core e.ctx .memOnly (if wide then 8 else 4) true (if wide then 8 else 4) .atomic (th.pair a) = (g', .ok (.mem ls ps)))
    (hhost : g'.hostAtomFault u false ps = false) (hcount : th.count .xch < 63)
    (hresv : (g'.drain e.core u).holdsResv u ((ps.head?.map Phys.line).getD ⟨.dev, 0⟩) = true)
    (hcache : ((findLeaf ls (th.pair a).toNat).any fun l => l.cache == 2) = false) :
    Gpu.scLane wide false sc d a b g u e th =
      (((((g'.drain e.core u).atHome e.core u ps).homeStore false ((g'.drain e.core u).deadlineWg u.wg)
        (ps.zip (bytesOfNat (if wide then 8 else 4) (th.wideSrc wide b).toNat))).modThread u fun th => { th with resv := none }).pendLane u [d] [0]
          0 true, .done) := by
  simp only [Gpu.scLane, hreach, hhost, Nat.not_le.mpr hcount, Gpu.releasing, hresv, hcache, Bool.not_true, Bool.not_false, Bool.false_eq_true,
    if_false, if_true]

end

section
variable {s : State} {u : TRef} {th : Thread} {va : Nat} {l : Leaf} {r : Resv}

/-- The reservation is still held once the thread's FIFO has been found empty. -/
theorem State.holdsResv_drain {g : Gpu} {core : Nat} (hth : s.gpu.thread? u = some th) (hthreads : g.threads = s.gpu.threads)
    (hnow : g.now = s.clk.cyc) (hfifo : (g.core core).fifo = []) (hresv : th.resv = some r) (hage : s.clk.cyc < r.at_ + 4096) :
    (g.drain core u).holdsResv u r.key = true := by
  have hget : (g.drain core u).thread? u = some th := by
    rw [← hth]
    simp only [Gpu.thread?, Gpu.threads_drain u hfifo, hthreads]
  simp only [Gpu.holdsResv, hget, Option.bind_some, hresv, Option.any_some, BEq.rfl, (g.stores_drain core u).now, hnow, hage, decide_true,
    Bool.and_self]

/-- A lane that stores, ends its thread's reservation and answers 0. -/
theorem State.laneWord_unreserves {p : Pfx} {used : List Reg} {f : Gpu → TRef → Env → Thread → Gpu × Fate} {g : Gpu} {d : Reg}
    {δ : Gpu → Gpu} (hs : Solo s u th p used) (hothers : ∀ v x, v ≠ u → s.gpu.thread? v = some x → x.resv = none)
    (hstores : s.now.Stores g) (hflight : g.inFlight = s.now.inFlight)
    (hf : f s.now u (s.gpu.env u) th = ((g.modThread u fun th => { th with resv := none }).pendLane u [d] [0] 0 true, .done))
    (hd : g.rest = (δ s.now).rest) :
    Does s (s.device fun g => g.laneWord p used f) ({ th with resv := none }.owed s [d] [0] 0 true) δ := by
  obtain ⟨hmem, hth, -, -, ⟨hk, hstill⟩, -⟩ := id hs
  have hcleared : (g.modThread u fun th => { th with resv := none }).thread? u = some { th with resv := none } := by
    rw [Gpu.thread?_modThread_same, hstores.unreserved u]
    exact congrArg (Option.map fun th : Thread => { th with resv := none }) hth
  have hid : g.nextId = s.gpu.nextId := congrArg Prod.snd hflight
  refine State.laneWord_does hs hf hstores.cur (hstores.inUse _ hk) ?_ (fun v hv => ?_)
    (hstill u (by rw [hmem]; exact List.mem_cons_self) th hth) hd
  · rw [Gpu.thread?_pendLane_same, hcleared, Option.map_some]
    show some (Thread.pendNow _ g.nextId [d] [0] 0 true g.cur.pc g.cur.word) = _
    rw [hid, hstores.cur]
    rfl
  · rw [Gpu.thread?_pendLane_other _ hv, Gpu.thread?_modThread_other _ _ hv]
    exact hstores.thread? (hothers v · hv)

end

/-- Settles O28: the lane reaches its bytes (`Lies.reach`), finds its FIFO empty and its reservation held, and stores. -/
theorem storeConditionalSucceeds : Obligations.StoreConditionalSucceeds := by
  unfold Obligations.StoreConditionalSucceeds
  intro s u th p ch wide q sc d a b va l r n core hsolo hcount hpair hal hlies hhost hcache hq hfifo _ hresv hkey hage hothers
  subst hq
  obtain ⟨-, hsize, hend, hfit, hpeer, -, -⟩ := id hlies
  obtain ⟨-, hth, -⟩ := id hsolo
  have hreach := hlies.reach (allow := .memOnly) (al := n) (memAl := true) (by decide) fun _ => hal
  obtain ⟨hstores, hflight, hthreads, hnil⟩ := hlies.fits.looked
  replace hnil := hnil.trans hfifo
  generalize hG : s.now.looked u .atomic va = G at *
  have hva : (th.pair a).toNat = va := by
    rw [hpair, BitVec.toNat_ofNat]
    omega
  rw [← hpair] at hreach
  have hdrained : s.now.Stores (G.drain core u) := hstores.trans (G.stores_drain core u)
  have hhome : s.now.Stores (G.atHome core u (l.span va n)) := hstores.trans (G.stores_atHome core u _)
  generalize hH : (G.atHome core u (l.span va n)).homeStore false (s.gpu.deadlineWg u.wg)
    ((l.span va n).zip (bytesAt (th.wideSrc wide b) n)) = H
  have hHstores : s.now.Stores H := hH ▸ hhome.trans (Gpu.stores_homeStore _ _ _ _)
  have hHflight : H.inFlight = s.now.inFlight :=
    hH ▸ (Gpu.inFlight_homeStore _ _ _ _).trans ((G.inFlight_atHome core u _).trans hflight)
  have hn : n ≤ 8 := by
    show (if wide then 8 else 4) ≤ 8
    split <;> decide
  have hbytes : bytesOfNat n (th.wideSrc wide b).toNat = bytesAt (th.wideSrc wide b) n := by
    rw [bytesOfNat_eq_bytesAt hn, BitVec.ofNat_toNat, BitVec.setWidth_eq]
  have hlane : Gpu.scLane wide false sc d a b s.now u (s.gpu.env u) th =
      ((H.modThread u fun th => { th with resv := none }).pendLane u [d] [0] 0 true, .done) := by
    rw [Gpu.scLane_of_reach hreach (Gpu.hostAtomFault_span u hpeer hhost) hcount, Gpu.atHome_drain u _ hnil, hdrained.deadlineWg]
    · exact congrArg (fun cells => (Gpu.pendLane (((G.atHome core u (l.span va n)).homeStore false (s.gpu.deadlineWg u.wg)
        ((l.span va n).zip cells)).modThread u _) u [d] [0] 0 true, Fate.done)) hbytes |>.trans (by rw [hH])
    · rw [l.head?_span va hsize, Option.map_some, Option.getD_some, ← hkey]
      exact State.holdsResv_drain hth hthreads (hstores.now.trans rfl) hnil hresv hage
    · have hfind := findLeaf_pageAt hfit hsize
      rw [Nat.add_zero] at hfind
      rw [hva, hfind, Option.any_some, beq_eq_false_iff_ne]
      exact hcache
  refine State.laneWord_unreserves hsolo hothers hHstores hHflight hlane ?_
  show H.rest = Gpu.rest (((s.now.looked u .atomic va).atHome core u (l.span va n)).homeStore false (s.gpu.deadlineWg u.wg)
    ((l.span va n).zip (bytesAt (th.wideSrc wide b) n)))
  rw [hG, hH]

end Sys2Proof.Machine
end

section
/-! PROOFS. How the word of a bundle of one thread ends (02 R31; 06 R147; 07 R211; log 97): done and unparked, parked before it, parked for
an invalidation, or held back for a way in L2. -/

namespace Sys2Proof.Machine

open Sys2Proof

set_option Elab.async false

/-! ### The bundle -/

/-- The one thread of a bundle, ACTIVE in the bundle's mode, stays in it. -/
theorem Gpu.thread?_regroup_sole (g : Gpu) (iss : Issue) {u : TRef} {th : Thread} (hm : iss.members = [u]) (hu : g.thread? u = some th)
    (hs : th.status = .active) : (g.regroup iss th.mode).thread? u = some th := by
  have hsort : sortLanes [u] = [u] := rfl
  have hthreads : (g.regroup iss th.mode).threads = (g.mapThreads fun _ th => th).threads := by
    simp only [Gpu.regroup, Gpu.modCore_threads, hm, hsort, List.filterMap_cons, List.filterMap_nil, hu, Option.map_some, List.filter_cons,
      List.filter_nil, hs, BEq.rfl, if_true, List.head?_cons, Option.getD_some, List.map_cons, List.map_nil]
    simp
  have hthread : (g.regroup iss th.mode).thread? u = (g.mapThreads fun _ th => th).thread? u := by rw [Gpu.thread?, hthreads]; rfl
  rw [hthread, Gpu.thread?_mapThreads, hu]
  rfl

section
variable (g : Gpu) {u : TRef} {th : Thread} (hm : g.cur.members = [u]) (hu : g.thread? u = some th)
  (hk : (g.cores.any fun x => x.1 == g.cur.core) = true)
include hm hu hk

/-- A word of one thread without S that leaves the thread ACTIVE. -/
theorem Gpu.finishWord_stays (hs : th.status = .active) :
    (g.finishWord false [(u, .done)]).rest = g.rest ∧
    (g.finishWord false [(u, .done)]).thread? u = some th ∧
    ∀ v, v ≠ u → (g.finishWord false [(u, .done)]).thread? v = g.thread? v := by
  rw [Gpu.finishWord_eq _ _ _ (by simp) fun _ _ _ _ => rfl]
  have hf : ∀ v, _ := fun v => Gpu.thread?_finish_solo g false [(u, .done)] (v := v) hm hu
  have hfm : finishMember false g.cur (g.env u).tvec (Fates.mask [(u, .done)]) u.lane (Fates.of [(u, .done)] u) th = th := by
    rw [Fates.of_eq_done (by simp)]
    simp only [finishMember, Bool.false_and, Bool.false_eq_true, if_false, hs]
  have hmode : ((g.cur.members.head?.bind g.thread?).map Thread.mode).getD .user = th.mode := by
    rw [hm, List.head?_cons, Option.bind_some, hu]
    rfl
  refine ⟨(Gpu.rest_regroup (g.mapThreads _) _ _ hk).trans (Gpu.rest_mapThreads g _), ?_, fun v hv => ?_⟩
  · rw [hmode]
    refine Gpu.thread?_regroup_sole _ _ hm ?_ hs
    rw [hf u, if_pos rfl, hfm]
  · rw [Gpu.thread?_regroup_other _ _ _ hm hv, hf v, if_neg hv]

/-- A word of one thread that parks the thread for an invalidation. -/
theorem Gpu.finishWord_inval (sw : Bool) {a : Scope} {b c : Option Nat} (hs : th.status = .parked (.inval a b c)) :
    (g.finishWord sw [(u, .done)]).rest = g.rest ∧
    (g.finishWord sw [(u, .done)]).thread? u = some { th with owes := true, rdfl := none } ∧
    ∀ v, v ≠ u → (g.finishWord sw [(u, .done)]).thread? v = g.thread? v := by
  have hinactive : th.status ≠ .active := by simp [hs]
  rw [Gpu.finishWord_eq _ _ _ (by simp) (by
    intro x hx y hy
    rw [List.mem_singleton.mp hx] at hy ⊢
    obtain rfl := Option.some.inj (hu.symm.trans hy)
    exact th.faultsAt_inactive sw _ hinactive)]
  have hf : ∀ v, _ := fun v => Gpu.thread?_finish_solo g sw [(u, .done)] (v := v) hm hu
  have hfm : finishMember sw g.cur (g.env u).tvec (Fates.mask [(u, .done)]) u.lane (Fates.of [(u, .done)] u) th =
      { th with owes := true, rdfl := none } := by
    rw [Fates.of_eq_done (by simp)]
    simp only [finishMember]
    rw [if_neg (by simp [hinactive])]
    simp only [hs]
  refine ⟨(Gpu.rest_regroup (g.mapThreads _) _ _ hk).trans (Gpu.rest_mapThreads g _), ?_, fun v hv => ?_⟩
  · refine Gpu.thread?_regroup_inactive _ _ _ ?_ hinactive
    rw [hf u, if_pos rfl, hfm]
  · rw [Gpu.thread?_regroup_other _ _ _ hm hv, hf v, if_neg hv]

end

/-! ### Lane-by-lane words of one thread -/

section
variable {s : State} {u : TRef} {th : Thread} {p : Pfx} {used : List Reg} {f : Gpu → TRef → Env → Thread → Gpu × Fate} {g' : Gpu}

/-- A thread's PC at the next word. -/
def Gpu.advance (g : Gpu) (u : TRef) : Gpu := g.modThread u fun th => { th with pc := th.pc + BitVec.ofNat 64 g.cur.len }

theorem Gpu.thread?_advance_same (g : Gpu) {th : Thread} (hu : g.thread? u = some th) :
    (g.advance u).thread? u = some { th with pc := th.pc + BitVec.ofNat 64 g.cur.len } := by
  rw [Gpu.advance, Gpu.thread?_modThread_same, hu]
  rfl

theorem Gpu.thread?_advance_other (g : Gpu) {v : TRef} (hv : v ≠ u) : (g.advance u).thread? v = g.thread? v :=
  g.thread?_modThread_other _ hv

/-- A lane's step that is done leaves the thread as the end of the word makes it. -/
theorem State.laneWord_leaves_of {x : Thread} {d : Gpu → Gpu} (hs : Solo s u th p used) (hf : f s.now u (s.gpu.env u) th = (g', .done))
    (hfin : ((g'.advance u).finishWord p.sw [(u, .done)]).rest = (g'.advance u).rest ∧
      ((g'.advance u).finishWord p.sw [(u, .done)]).thread? u = some x ∧
      ∀ v, v ≠ u → ((g'.advance u).finishWord p.sw [(u, .done)]).thread? v = (g'.advance u).thread? v)
    (ho : ∀ v, v ≠ u → g'.thread? v = s.gpu.thread? v) (hd : g'.rest = (d s.now).rest) :
    Leaves s u (s.device fun g => g.laneWord p used f) x d := by
  obtain ⟨hm, hth, _, hg, _, hr, ht⟩ := hs
  obtain ⟨hrest, hmine, hothers⟩ := hfin
  have hsolo := Gpu.laneWord_solo s.now p used f hm hth hg (hr u (by simp [hm])) (ht u (by simp [hm]) th hth hg)
  rw [show s.now.env u = s.gpu.env u from rfl, hf] at hsolo
  have hsolo : s.now.laneWord p used f = (g'.advance u).finishWord p.sw [(u, .done)] := hsolo
  refine ⟨_, rfl, ?_, ?_, fun v hv => ?_⟩
  · show ({ s with gpu := (s.now.laneWord p used f).rest } : State) = { s with gpu := (d s.now).rest }
    rw [hsolo, hrest, ← hd]
    rfl
  · show (s.now.laneWord p used f).thread? u = _
    rw [hsolo, hmine]
  · show (s.now.laneWord p used f).thread? v = _
    rw [hsolo, hothers v hv, Gpu.thread?_advance_other _ hv, ho v hv]

section
variable {th' : Thread} {d : Gpu → Gpu} (hs : Solo s u th p used) (hf : f s.now u (s.gpu.env u) th = (g', .done)) (hc : g'.cur = s.gpu.cur)
  (hk : (g'.cores.any fun x => x.1 == s.gpu.cur.core) = true) (ho : ∀ v, v ≠ u → g'.thread? v = s.gpu.thread? v) (hd : g'.rest = (d s.now).rest)
include hs hf hc hk ho hd

/-- A lane's step that is done, of a word without S, leaves the thread in its bundle. -/
theorem State.laneWord_leaves (hu : g'.thread? u = some th') (hsw : p.sw = false) (hactive : th'.status = .active) :
    Leaves s u (s.device fun g => g.laneWord p used f) { th' with pc := th'.pc + BitVec.ofNat 64 s.gpu.cur.len } d := by
  refine State.laneWord_leaves_of hs hf ?_ ho hd
  rw [hsw, ← hc]
  exact Gpu.finishWord_stays _ (hc ▸ hs.1) (g'.thread?_advance_same hu) (hc ▸ hk) hactive

/-- A lane's step that is done and parks its thread for an invalidation. -/
theorem State.laneWord_invalidates {a : Scope} {b c : Option Nat} (hu : g'.thread? u = some { th' with status := .parked (.inval a b c) }) :
    Leaves s u (s.device fun g => g.laneWord p used f)
      { th' with pc := th'.pc + BitVec.ofNat 64 s.gpu.cur.len, status := .parked (.inval a b c), owes := true, rdfl := none } d := by
  refine State.laneWord_leaves_of hs hf ?_ ho hd
  rw [← hc]
  exact Gpu.finishWord_inval _ (hc ▸ hs.1) (g'.thread?_advance_same hu) (hc ▸ hk) p.sw rfl

end

/-- A lane's step that parks its thread before the word. -/
theorem State.laneWord_waits {w : Wait} (hs : Solo s u th p used) (hf : f s.now u (s.gpu.env u) th = (s.now, .wait w)) :
    Waits s u th (s.device fun g => g.laneWord p used f) w := by
  obtain ⟨hm, hth, _, hg, ⟨hk, _⟩, hr, ht⟩ := hs
  have hsolo := Gpu.laneWord_solo s.now p used f hm hth hg (hr u (by simp [hm])) (ht u (by simp [hm]) th hth hg)
  rw [show s.now.env u = s.gpu.env u from rfl, hf] at hsolo
  obtain ⟨hrest, hmine, hothers⟩ := Gpu.finishWord_wait s.now p.sw w hm hth hk
  refine ⟨_, rfl, ?_, ?_, fun v hv => ?_⟩
  · show ({ s with gpu := (s.now.laneWord p used f).rest } : State) = { s with gpu := s.now.rest }
    rw [hsolo, hrest]
  · show (s.now.laneWord p used f).thread? u = _
    rw [hsolo, hmine]
  · show (s.now.laneWord p used f).thread? v = _
    rw [hsolo, hothers v hv]
    rfl

/-- A lane's step that waits for a way in L2: the word does not issue yet. -/
theorem State.laneWord_fills {k : LineKey} (hs : Solo s u th p used) (hf : f s.now u (s.gpu.env u) th = (g', .hold (.fill k))) :
    Stays s (s.device fun g => g.laneWord p used f) fun g => g.wantFill (g.deadlineWg u.wg) k := by
  obtain ⟨hm, hth, _, hg, ⟨hk, _⟩, hr, ht⟩ := hs
  have hsolo := Gpu.laneWord_solo s.now p used f hm hth hg (hr u (by simp [hm])) (ht u (by simp [hm]) th hth hg)
  rw [show s.now.env u = s.gpu.env u from rfl, hf] at hsolo
  have hsolo : s.now.laneWord p used f = (s.now.wantFill (s.now.deadlineWg u.wg) k).passTurn := hsolo
  have hwant : ∃ m, s.now.wantFill (s.now.deadlineWg u.wg) k = { s.now with mem := m } := by
    unfold Gpu.wantFill
    split <;> exact ⟨_, rfl⟩
  obtain ⟨m, hwant⟩ := hwant
  refine ⟨_, rfl, ?_, fun v => ?_⟩
  · show ({ s with gpu := (s.now.laneWord p used f).rest } : State) = { s with gpu := (s.now.wantFill (s.now.deadlineWg u.wg) k).rest }
    rw [hsolo, hwant, Gpu.rest_passTurn { s.now with mem := m } hk]
  · show (s.now.laneWord p used f).thread? v = _
    rw [hsolo, Gpu.thread?_passTurn, hwant]
    rfl

end

end Sys2Proof.Machine
end

section
/-! PROOFS. A fence (04 R112, R114, R117; 07 R209), and a counter wait (04 R127; 07 R221). What a fence at system scope marks in its thread
changes nothing that the rest of the fence does to the device. -/

namespace Sys2Proof.Machine

open Sys2Proof

set_option Elab.async false

/-! ### Devices that differ in their threads alone -/

/-- The device `g'` is `g` with other threads. -/
def Gpu.Aside (g g' : Gpu) : Prop := ∃ ts, g' = { g with threads := ts }

namespace Gpu.Aside

variable {g g' : Gpu}

theorem modThread (g : Gpu) (t : TRef) (f : Thread → Thread) : g.Aside (g.modThread t f) := ⟨_, rfl⟩

theorem rest (h : g.Aside g') : g'.rest = g.rest := by
  obtain ⟨ts, rfl⟩ := h
  rfl

theorem foldl {α : Type} {f : Gpu → α → Gpu} (hf : ∀ {g g' : Gpu} (a : α), g.Aside g' → (f g a).Aside (f g' a)) (l : List α)
    (h : g.Aside g') : (l.foldl f g).Aside (l.foldl f g') := by
  induction l generalizing g g' with
  | nil => exact h
  | cons a l ih => exact ih (hf a h)

theorem modCore (n : Nat) (f : CoreSt → CoreSt) (h : g.Aside g') : (g.modCore n f).Aside (g'.modCore n f) := by
  obtain ⟨ts, rfl⟩ := h
  refine ⟨ts, ?_⟩
  unfold Gpu.modCore
  split <;> rfl

theorem loseResv (k : LineKey) (h : g.Aside g') : (g.loseResv k).Aside (g'.loseResv k) := by
  obtain ⟨ts, rfl⟩ := h
  exact ⟨_, rfl⟩

theorem tear (a : Nat) (h : g.Aside g') : (g.tear a).Aside (g'.tear a) := by
  obtain ⟨ts, rfl⟩ := h
  refine ⟨ts, ?_⟩
  simp only [Gpu.tear]
  split <;> rfl

theorem putHome (res : Bool) (p : Phys) (b : Byte) (h : g.Aside g') : (g.putHome res p b).Aside (g'.putHome res p b) := by
  obtain ⟨ts, htear⟩ := h.tear p.addr
  obtain ⟨ts', rfl⟩ := h
  unfold Gpu.putHome
  split
  · exact ⟨ts, by rw [htear]⟩
  · split <;> exact ⟨ts', rfl⟩
  · exact ⟨ts', rfl⟩
  · exact ⟨ts', rfl⟩

theorem withMem (m : MemSt) (h : g.Aside g') : { g with mem := m }.Aside { g' with mem := m } := by
  obtain ⟨ts, rfl⟩ := h
  exact ⟨ts, rfl⟩

theorem mem_eq (h : g.Aside g') : g'.mem = g.mem := by
  obtain ⟨ts, rfl⟩ := h
  rfl

theorem poisoned (k : LineKey) (h : g.Aside g') : g'.poisoned k = g.poisoned k := by
  obtain ⟨ts, rfl⟩ := h
  rfl

theorem homeStore (whole res : Bool) (cs : List (Phys × Byte)) (h : g.Aside g') :
    (g.homeStore whole res cs).Aside (g'.homeStore whole res cs) := by
  induction cs generalizing g g' with
  | nil => exact h
  | cons c cs ih =>
    have hlose := h.loseResv c.1.line
    simp only [Gpu.homeStore, hlose.mem_eq, hlose.poisoned]
    split
    · exact ih ((hlose.withMem _).putHome res c.1 c.2)
    · split
      · exact ih hlose
      · exact ih (hlose.putHome res c.1 c.2)

theorem logError (part kind asid core unit addr : Nat) (h : g.Aside g') :
    (g.logError part kind asid core unit addr).Aside (g'.logError part kind asid core unit addr) := by
  obtain ⟨ts, rfl⟩ := h
  refine ⟨ts, ?_⟩
  have hpart : ({ g with threads := ts } : Gpu).part? part = g.part? part := rfl
  simp only [Gpu.logError, hpart]
  split <;> rfl

theorem writeL1 (core : Nat) (l : L1Line) (h : g.Aside g') : (Gpu.writeL1 core g l).Aside (Gpu.writeL1 core g' l) := by
  have howner : g'.coreOwner core = g.coreOwner core := by
    obtain ⟨ts, rfl⟩ := h
    rfl
  simp only [Gpu.writeL1, h.poisoned, h.mem_eq, howner]
  split
  · split
    · exact h
    · exact (h.withMem _).logError _ _ _ _ _ _
  · exact h.homeStore _ _ _

theorem cleanL1 (core : Nat) (h : g.Aside g') : (g.cleanL1 core).Aside (g'.cleanL1 core) := by
  have hcore : g'.core core = g.core core := by
    obtain ⟨ts, rfl⟩ := h
    rfl
  have hwait : ∀ ks, g'.lineWait ks = g.lineWait ks := fun ks => by
    obtain ⟨ts, rfl⟩ := h
    rfl
  have hwritten : ∀ ls, (List.foldl (Gpu.writeL1 core) g ls).Aside (List.foldl (Gpu.writeL1 core) g' ls) := fun ls =>
    foldl (fun l h => h.writeL1 core l) ls h
  simp only [Gpu.cleanL1, Gpu.cleanLines, hcore, hwait, (hwritten _).poisoned]
  exact (hwritten _).modCore core _

theorem flushL1 (core : Nat) (h : g.Aside g') : (g.flushL1 core).Aside (g'.flushL1 core) := (h.cleanL1 core).modCore core _

end Gpu.Aside

/-! ### A fence in two parts -/

/-- A remote read that an acquire follows (R114). -/
def Op.acquires (o : Op) (t : TRef) : Op := if o.readsFor t then { o with acq := true } else o

/-- What a fence releases. -/
def Gpu.fenceRelease (g : Gpu) (core : Nat) (t : TRef) (ord : Ord4) (sc : Scope) : Gpu := if ord.releases then g.release core t sc else g

/-- A thread whose later accesses wait for the peers' acknowledgements, if any is to come. -/
def Gpu.awaitAcks (g : Gpu) (t : TRef) (owing : Bool) : Gpu := if owing then g.modThread t fun th => { th with sysrel := true } else g

/-- What a fence acquires, now and when remote reads have come. -/
def Gpu.fenceAcquire (g : Gpu) (core : Nat) (t : TRef) (ord : Ord4) (sc : Scope) : Gpu :=
  if ord.acquires && sc.beyondCore then { g.flushL1 core with ops := (g.flushL1 core).ops.map fun o => o.acquires t } else g

/-- Whether a fence at system scope leaves stores of its thread that peers have yet to acknowledge. -/
def Gpu.fenceOwes (g : Gpu) (core : Nat) (t : TRef) (ord : Ord4) (sc : Scope) : Bool :=
  ord.releases && sc == .sys && (g.release core t sc).owesAck t

section
variable (g : Gpu) (core : Nat) (t : TRef) (ord : Ord4) (sc : Scope)

theorem Gpu.fence_eq : g.fence core t ord sc =
    ((g.fenceRelease core t ord sc).awaitAcks t (g.fenceOwes core t ord sc)).fenceAcquire core t ord sc := by
  unfold Gpu.fence Gpu.fenceRelease Gpu.fenceOwes
  cases ord.releases <;> rfl

theorem Gpu.aside_fenceAcquire {g g' : Gpu} (h : g.Aside g') : (g.fenceAcquire core t ord sc).Aside (g'.fenceAcquire core t ord sc) := by
  unfold Gpu.fenceAcquire
  split
  · obtain ⟨ts, hts⟩ := h.flushL1 core
    exact ⟨ts, by rw [hts]⟩
  · exact h

/-- The mark that a fence makes in its thread is all that it changes beside what it releases and acquires. -/
theorem Gpu.rest_fence : (g.fence core t ord sc).rest = ((g.fenceRelease core t ord sc).fenceAcquire core t ord sc).rest := by
  rw [Gpu.fence_eq]
  refine (Gpu.aside_fenceAcquire core t ord sc ?_).rest
  unfold Gpu.awaitAcks
  split
  · exact .modThread _ _ _
  · exact ⟨_, rfl⟩

theorem Gpu.stores_fenceRelease : g.Stores (g.fenceRelease core t ord sc) := by
  unfold Gpu.fenceRelease
  split
  · exact g.stores_release core t sc
  · exact .refl g

theorem Gpu.stores_flushL1 : g.Stores (g.flushL1 core) := (g.stores_cleanL1 core).trans (Gpu.stores_modCore _ _ _)

theorem Gpu.stores_withOps (ops : List Op) : g.Stores { g with ops := ops } := .of_eq rfl (fun _ h => h) rfl

theorem Gpu.stores_fenceAcquire : g.Stores (g.fenceAcquire core t ord sc) := by
  unfold Gpu.fenceAcquire
  split
  · exact (g.stores_flushL1 core).trans (Gpu.stores_withOps _ _)
  · exact .refl g

end

end Sys2Proof.Machine
end

section
/-! PROOFS. The fence word (07 R209), and the counter wait (07 R221). -/

namespace Sys2Proof.Machine

open Sys2Proof

set_option Elab.async false

/-! ### Remote reads that an acquire follows -/

theorem Op.readsFor_acquires (o : Op) (t : TRef) : (o.acquires t).readsFor t = o.readsFor t := by
  unfold Op.acquires
  split <;> rfl

theorem isSome_find?_eq_any {α : Type} (p : α → Bool) (l : List α) : (l.find? p).isSome = l.any p := by
  rw [Bool.eq_iff_iff, List.find?_isSome, List.any_eq_true]

theorem Gpu.isSome_remoteRead (g : Gpu) (t : TRef) : (g.remoteRead t).isSome = g.ops.any fun o => o.readsFor t := by
  rw [Gpu.remoteRead, Option.isSome_map, isSome_find?_eq_any]

section
variable (g : Gpu) (core : Nat) (t : TRef) (ord : Ord4) (sc : Scope)

theorem Gpu.inFlight_fenceRelease : (g.fenceRelease core t ord sc).inFlight = g.inFlight := by
  unfold Gpu.fenceRelease
  split
  · exact g.inFlight_release core t sc
  · rfl

theorem Gpu.inFlight_flushL1 : (g.flushL1 core).inFlight = g.inFlight := (Gpu.inFlight_modCore _ _ _).trans (g.inFlight_cleanL1 core)

/-- A fence takes no remote read from its thread. -/
theorem Gpu.isSome_remoteRead_fenceAcquire :
    ((g.fenceAcquire core t ord sc).remoteRead t).isSome = (g.remoteRead t).isSome := by
  have hflush : (g.flushL1 core).ops = g.ops := congrArg Prod.fst (g.inFlight_flushL1 core)
  rw [Gpu.isSome_remoteRead, Gpu.isSome_remoteRead]
  unfold Gpu.fenceAcquire
  split
  · simp only [hflush, List.any_map, Function.comp_def, Op.readsFor_acquires]
  · rfl

end

/-! ### The fence -/

section
variable {s : State} {u : TRef} {th : Thread} {p : Pfx} {ch : BitVec 2} {ord : Ord4} {sc : Scope}

/-- The device after a fence, but for what the fence marks in its thread. -/
def Gpu.fenced (g : Gpu) (core : Nat) (u : TRef) (ord : Ord4) (sc : Scope) : Gpu :=
  (g.fenceRelease core u ord sc).fenceAcquire core u ord sc

/-- The thread of a fence with what the fence marks in it. -/
def Thread.awaits (th : Thread) (owing : Bool) : Thread := if owing then { th with sysrel := true } else th

theorem Gpu.thread?_awaitAcks (g : Gpu) (owing : Bool) (v : TRef) :
    (g.awaitAcks u owing).thread? v = if v = u then (g.thread? v).map fun th => th.awaits owing else g.thread? v := by
  unfold Gpu.awaitAcks Thread.awaits
  cases owing with
  | false => simp
  | true =>
    by_cases hv : v = u
    · subst hv
      simp
    · simp [hv, g.thread?_modThread_other _ hv]

theorem Gpu.thread?_fence {g : Gpu} (hun : ∀ v x, g.thread? v = some x → x.resv = none) (core : Nat) (v : TRef) :
    (g.fence core u ord sc).thread? v =
      if v = u then (g.thread? v).map fun th => th.awaits (g.fenceOwes core u ord sc) else g.thread? v := by
  have hreleased : ∀ v, (g.fenceRelease core u ord sc).thread? v = g.thread? v := fun v => (g.stores_fenceRelease core u ord sc).thread? (hun v)
  rw [Gpu.fence_eq, (Gpu.stores_fenceAcquire _ core u ord sc).thread?, Gpu.thread?_awaitAcks, hreleased]
  intro x hx
  rw [Gpu.thread?_awaitAcks, hreleased] at hx
  split at hx
  · obtain ⟨y, hy, rfl⟩ := Option.map_eq_some_iff.mp hx
    unfold Thread.awaits
    split <;> exact hun v y hy
  · exact hun v x hx

theorem Gpu.cur_awaitAcks (g : Gpu) (owing : Bool) : (g.awaitAcks u owing).cur = g.cur := by
  unfold Gpu.awaitAcks
  split <;> rfl

theorem Gpu.cores_awaitAcks (g : Gpu) (owing : Bool) : (g.awaitAcks u owing).cores = g.cores := by
  unfold Gpu.awaitAcks
  split <;> rfl

theorem Gpu.cur_fence (g : Gpu) (core : Nat) : (g.fence core u ord sc).cur = g.cur := by
  rw [Gpu.fence_eq, (Gpu.stores_fenceAcquire _ core u ord sc).cur, Gpu.cur_awaitAcks, (g.stores_fenceRelease core u ord sc).cur]

theorem Gpu.inUse_fence {g : Gpu} {core n : Nat} (h : (g.cores.any fun x => x.1 == n) = true) :
    ((g.fence core u ord sc).cores.any fun x => x.1 == n) = true := by
  rw [Gpu.fence_eq]
  refine (Gpu.stores_fenceAcquire _ core u ord sc).inUse n ?_
  rw [Gpu.cores_awaitAcks]
  exact (g.stores_fenceRelease core u ord sc).inUse n h

theorem Gpu.fenceLane_of_ready {g : Gpu} {e : Env} (hready : ord.releases = true → g.releaseWait e.core u sc = none) :
    Gpu.fenceLane ord sc g u e th = (g.fence e.core u ord sc, .done) := by
  unfold Gpu.fenceLane
  cases h : ord.releases with
  | false => rfl
  | true => simp only [if_true, hready h]

theorem Gpu.fenceLane_of_wait {g : Gpu} {e : Env} {k : LineKey} (hord : ord.releases = true) (hk : g.releaseWait e.core u sc = some k) :
    Gpu.fenceLane ord sc g u e th = (g, .hold (.fill k)) := by
  simp only [Gpu.fenceLane, hord, if_true, hk]

/-- Whether the word leaves stores of its thread that peers have yet to acknowledge. -/
def State.owes (s : State) (u : TRef) (ord : Ord4) (sc : Scope) : Bool := s.now.fenceOwes (s.gpu.env u).core u ord sc

section
variable (hs : Solo s u th p []) (hun : Unreserved s) (hready : ord.releases = true → s.gpu.releaseWait (s.gpu.env u).core u sc = none)
include hs hun hready

theorem fence_does : Does s (exec (.fence p ch ord sc) s) (th.awaits (s.owes u ord sc)) fun g => g.fenced (s.gpu.env u).core u ord sc := by
  obtain ⟨hm, hth, -, -, hsettled, -⟩ := id hs
  obtain ⟨hk, hstill⟩ := hsettled
  refine State.laneWord_does hs (Gpu.fenceLane_of_ready (g := s.now) hready) (s.now.cur_fence _) (Gpu.inUse_fence (g := s.now) hk) ?_ (fun v hv => ?_)
    (fun hsw => ?_) (s.now.rest_fence _ u ord sc)
  · rw [Gpu.thread?_fence (g := s.now) hun, if_pos rfl]
    exact congrArg (Option.map _) hth
  · rw [Gpu.thread?_fence (g := s.now) hun, if_neg hv]
    rfl
  · have hkept := hstill u (by rw [hm]; exact List.mem_cons_self) th hth hsw
    unfold Thread.awaits
    split <;> exact hkept

theorem fence_leaves (hsw : p.sw = false) :
    Leaves s u (exec (.fence p ch ord sc) s) { th.awaits (s.owes u ord sc) with pc := th.pc + BitVec.ofNat 64 s.gpu.cur.len }
      fun g => g.fenced (s.gpu.env u).core u ord sc := by
  obtain ⟨-, hth, hactive, -, ⟨hk, -⟩, -⟩ := id hs
  have hpc : (th.awaits (s.owes u ord sc)).pc = th.pc := by
    unfold Thread.awaits
    split <;> rfl
  rw [← hpc]
  refine State.laneWord_leaves hs (Gpu.fenceLane_of_ready (g := s.now) hready) (s.now.cur_fence _) (Gpu.inUse_fence (g := s.now) hk)
    (fun v hv => ?_) (s.now.rest_fence _ u ord sc) ?_ hsw ?_
  · rw [Gpu.thread?_fence (g := s.now) hun, if_neg hv]
    rfl
  · rw [Gpu.thread?_fence (g := s.now) hun, if_pos rfl]
    exact congrArg (Option.map _) hth
  · unfold Thread.awaits
    split <;> exact hactive

/-- A fence that leaves something to come holds the thread's later accesses back. -/
theorem fence_holdsBack {t : State} (ht : exec (.fence p ch ord sc) s = .next t)
    (howing : s.owes u ord sc = true ∨ (s.gpu.remoteRead u).isSome = true) : t.gpu.heldBack u = true := by
  obtain ⟨hm, hth, -⟩ := id hs
  obtain ⟨t', ht', hrest, -, hthreads⟩ := fence_does hs hun hready (ch := ch)
  obtain rfl := Host.Outcome.next.inj (ht.symm.trans ht')
  rw [Gpu.heldBack, Bool.or_eq_true]
  rcases howing with howes | hreads
  · obtain ⟨x, hx, hdata⟩ := hthreads u th hth
    rw [if_pos (by rw [hm]; exact List.mem_cons_self), howes] at hdata
    have hsysrel : x.sysrel = true := congrArg Thread.sysrel hdata
    exact .inr (by rw [hx, Option.any_some, hsysrel])
  · have hops : t.gpu.ops = (s.now.fenced (s.gpu.env u).core u ord sc).ops := congrArg (fun s : State => s.gpu.ops) hrest
    have hreleased : (s.now.fenceRelease (s.gpu.env u).core u ord sc).ops = s.gpu.ops := congrArg Prod.fst (s.now.inFlight_fenceRelease _ u ord sc)
    left
    rw [Gpu.isSome_remoteRead, hops, ← Gpu.isSome_remoteRead, Gpu.fenced, Gpu.isSome_remoteRead_fenceAcquire, Gpu.isSome_remoteRead, hreleased,
      ← Gpu.isSome_remoteRead]
    exact hreads

end

theorem fence_fills (hs : Solo s u th p []) {k : LineKey} (hord : ord.releases = true)
    (hk : s.gpu.releaseWait (s.gpu.env u).core u sc = some k) :
    Stays s (exec (.fence p ch ord sc) s) fun g => g.wantFill (g.deadlineWg u.wg) k :=
  State.laneWord_fills hs (Gpu.fenceLane_of_wait (g := s.now) hord hk)

/-! ### The counter wait -/

theorem wcnt_does (hs : Solo s u th p []) {cls : Cls} {n : BitVec 6} (hn : th.count cls ≤ n.toNat) :
    Does s (exec (.wcnt p cls n) s) th id := by
  obtain ⟨hm, hth, -, -, ⟨hk, hstill⟩, -⟩ := id hs
  exact State.laneWord_does (g' := s.now) hs (if_neg (Nat.not_lt.mpr hn)) rfl hk hth (fun _ _ => rfl)
    (hstill u (by rw [hm]; exact List.mem_cons_self) th hth) rfl

theorem wcnt_waits (hs : Solo s u th p []) {cls : Cls} {n : BitVec 6} (hn : n.toNat < th.count cls) :
    Waits s u th (exec (.wcnt p cls n) s) (.counter cls n.toNat) :=
  State.laneWord_waits hs (if_pos hn)

end

end Sys2Proof.Machine
end

section
/-! PROOFS. Invalidations (07 R211; 14 R359), accesses that wait for their thread's order (04 R114), and prefetches (07 R210). -/

namespace Sys2Proof.Machine

open Sys2Proof

set_option Elab.async false

/-! ### What invalidations leave -/

section
variable (g : Gpu)

theorem Gpu.stores_mapCores (f : Nat → CoreSt → CoreSt) : g.Stores (g.mapCores f) := by
  refine .of_eq rfl (fun n h => ?_) rfl
  obtain ⟨x, hx, hn⟩ := List.any_eq_true.mp h
  exact List.any_eq_true.mpr ⟨_, List.mem_map_of_mem hx, hn⟩

theorem Gpu.stores_dropTlb (asid : Nat) (page : Option Nat) (f : Nat → Bool) (dies : List Nat) (hub : Bool) :
    g.Stores (g.dropTlb asid page f dies hub) :=
  (g.stores_mapCores _).trans (Gpu.stores_mem _ _)

theorem Gpu.stores_dropFetches (f : Nat → Bool) : g.Stores (g.dropFetches f) := g.stores_withOps _

/-- The caches of instructions and bricks dropped in a scope, after what the word orders (R211). -/
def Gpu.icinvDone (core : Nat) (sc : Scope) : Gpu :=
  (((g.acquire core sc).cleanL1 core).dropFetches fun n => inScope sc core n).mapCores fun n c =>
    if inScope sc core n then { c with icache := [], bricks := [] } else c

theorem Gpu.stores_icinvDone (core : Nat) (sc : Scope) : g.Stores (g.icinvDone core sc) :=
  (((g.stores_acquire core sc).trans (Gpu.stores_cleanL1 _ core)).trans (Gpu.stores_dropFetches _ _)).trans (Gpu.stores_mapCores _ _)

/-- What a translation invalidation orders after its release (R359). -/
def Gpu.tlbOrdered (core : Nat) (t : TRef) (sc : Scope) : Gpu := (g.acquire core sc).release core t .dev

theorem Gpu.stores_tlbOrdered (core : Nat) (t : TRef) (sc : Scope) : g.Stores (g.tlbOrdered core t sc) :=
  (g.stores_acquire core sc).trans (Gpu.stores_release _ core t .dev)

/-- The translations of an ASID, or of one page of it, dropped in a scope (R359). -/
def Gpu.tlbDrop (core : Nat) (sc : Scope) (asid : Nat) (page : Option Nat) : Gpu :=
  g.dropTlb asid page (inScope sc core) (if sc == .dev || sc == .sys then [0, 1] else [dieOf core]) (sc == .dev || sc == .sys)

theorem Gpu.tlbDrop_eq (core : Nat) (sc : Scope) (asid : Nat) (page : Option Nat) : g.tlbDrop core sc asid page =
    g.dropTlb asid page (inScope sc core) (if sc = .dev ∨ sc = .sys then [0, 1] else [dieOf core]) (decide (sc = .dev ∨ sc = .sys)) := by
  cases sc <;> rfl

end

/-! ### Words that order before they act -/

section
variable {s : State} {u : TRef} {th : Thread} {p : Pfx} {ch : BitVec 2} {sc : Scope}

/-- A word that releases, of a thread that nothing holds back and whose stores are acknowledged. -/
theorem State.ordered_of_acked (hfree : s.gpu.heldBack u = false) (hacked : Acked s u true sc id) (k : Gpu → Gpu × Fate) :
    s.now.afterReads (s.gpu.env u).core u sc (s.now.releasing (s.gpu.env u).core u true sc k) = k (s.now.release (s.gpu.env u).core u sc) := by
  obtain ⟨hwait, hacks⟩ := hacked rfl
  have hwait : s.now.releaseWait (s.gpu.env u).core u sc = none := hwait
  have hfree : s.now.heldBack u = false := hfree
  have howes : (sc == .sys && (s.now.release (s.gpu.env u).core u sc).owesAck u) = false := by
    rw [Bool.and_eq_false_iff, beq_eq_false_iff_ne]
    exact Classical.or_iff_not_imp_left.mpr fun h => hacks (not_not.mp h)
  simp only [Gpu.afterReads, hfree, hwait, Gpu.releasing, howes, Bool.not_true, Bool.false_eq_true, if_false]

/-- A lane that stores alone and then parks its thread for an invalidation. -/
theorem State.laneWord_invalidates_of_stores {used : List Reg} {f : Gpu → TRef → Env → Thread → Gpu × Fate} {g' : Gpu} {d : Gpu → Gpu}
    {a : Scope} {b c : Option Nat} (hs : Solo s u th p used) (hun : Unreserved s) (hstores : s.now.Stores g')
    (hf : f s.now u (s.gpu.env u) th = (g'.modThread u fun th => { th with status := .parked (.inval a b c) }, .done))
    (hd : g'.rest = (d s.now).rest) :
    Leaves s u (s.device fun g => g.laneWord p used f)
      { th with pc := th.pc + BitVec.ofNat 64 s.gpu.cur.len, status := .parked (.inval a b c), owes := true, rdfl := none } d := by
  obtain ⟨-, hth, -, -, ⟨hk, -⟩, -⟩ := id hs
  have hsame : ∀ v, g'.thread? v = s.gpu.thread? v := fun v => hstores.thread? (hun v)
  refine State.laneWord_invalidates hs hf hstores.cur (hstores.inUse _ hk) (fun v hv => ?_) hd ?_
  · rw [Gpu.thread?_modThread_other _ _ hv, hsame]
  · rw [Gpu.thread?_modThread_same, hsame, hth]
    rfl

/-- In trap mode a word of the system group runs. -/
theorem State.device_sysWord {used : List Reg} (hs : Solo s u th p used) (hmode : th.mode = .trap) (f : Gpu → Gpu) :
    (s.device fun g => g.sysWord p g.inTrap f) = s.device f := by
  obtain ⟨hm, hth, -⟩ := hs
  have hin : s.now.inTrap = true := by
    have hmembers : s.now.cur.members = [u] := hm
    have hthread : s.now.thread? u = some th := hth
    rw [Gpu.inTrap, hmembers, List.head?_cons, Option.bind_some, hthread, Option.any_some, hmode]
    rfl
  exact State.device_congr (if_pos hin)

/-- The ASID of the thread's context, once the word has ordered. -/
theorem State.asid_tlbOrdered {c : Ctx} (hc : s.gpu.ctx? (s.gpu.env u).ctx = some c) :
    (((((s.now.release (s.gpu.env u).core u sc).tlbOrdered (s.gpu.env u).core u sc).ctx? (s.gpu.env u).ctx).map Ctx.asid).getD 0) = c.asid := by
  have hctxs := ((s.now.stores_release (s.gpu.env u).core u sc).trans (Gpu.stores_tlbOrdered _ (s.gpu.env u).core u sc)).ctxs
  have hctx : ((s.now.release (s.gpu.env u).core u sc).tlbOrdered (s.gpu.env u).core u sc).ctx? (s.gpu.env u).ctx = some c := by
    rw [← hc]
    simp only [Gpu.ctx?, hctxs]
    rfl
  rw [hctx]
  rfl

section
variable (hun : Unreserved s) (hfree : s.gpu.heldBack u = false) (hacked : Acked s u true sc id)
include hun hfree hacked

theorem icinv_invalidates (hs : Solo s u th p []) :
    Leaves s u (exec (.icinv p ch sc) s)
      { th with pc := th.pc + BitVec.ofNat 64 s.gpu.cur.len, status := .parked (.inval sc none none), owes := true, rdfl := none }
      fun g => (g.release (s.gpu.env u).core u sc).icinvDone (s.gpu.env u).core sc :=
  State.laneWord_invalidates_of_stores hs hun ((s.now.stores_release _ u sc).trans (Gpu.stores_icinvDone _ _ sc))
    (State.ordered_of_acked hfree hacked _) rfl

section
variable {c : Ctx} (hc : s.gpu.ctx? (s.gpu.env u).ctx = some c)
include hc

theorem tlbinvAll_invalidates (hs : Solo s u th p []) (hmode : th.mode = .trap) :
    Leaves s u (exec (.tlbinvAll p sc) s)
      { th with pc := th.pc + BitVec.ofNat 64 s.gpu.cur.len, status := .parked (.inval sc (some c.asid) none), owes := true, rdfl := none }
      fun g => ((g.release (s.gpu.env u).core u sc).tlbOrdered (s.gpu.env u).core u sc).tlbDrop (s.gpu.env u).core sc c.asid none := by
  show Leaves s u (s.device fun g => g.sysWord p g.inTrap _) _ _
  rw [State.device_sysWord hs hmode]
  refine State.laneWord_invalidates_of_stores hs hun (((s.now.stores_release _ u sc).trans (Gpu.stores_tlbOrdered _ _ u sc)).trans
    (Gpu.stores_dropTlb _ _ _ _ _ _)) ?_ rfl
  refine (State.ordered_of_acked hfree hacked _).trans ?_
  have hasid := State.asid_tlbOrdered (sc := sc) hc
  rw [Gpu.tlbOrdered] at hasid
  simp only [Option.map_none, hasid]
  rfl

theorem tlbinv_invalidates {a : Reg} {va : Nat} (hs : Solo s u th p (a.run 2)) (hmode : th.mode = .trap)
    (hpair : region (th.pair a) = .mem va) :
    Leaves s u (exec (.tlbinv p sc a) s)
      { th with pc := th.pc + BitVec.ofNat 64 s.gpu.cur.len, status := .parked (.inval sc (some c.asid) (some va)), owes := true, rdfl := none }
      fun g => ((g.release (s.gpu.env u).core u sc).tlbOrdered (s.gpu.env u).core u sc).tlbDrop (s.gpu.env u).core sc c.asid (some va) := by
  show Leaves s u (s.device fun g => g.sysWord p g.inTrap _) _ _
  rw [State.device_sysWord hs hmode]
  refine State.laneWord_invalidates_of_stores hs hun (((s.now.stores_release _ u sc).trans (Gpu.stores_tlbOrdered _ _ u sc)).trans
    (Gpu.stores_dropTlb _ _ _ _ _ _)) ?_ rfl
  simp only [Gpu.tlbLane, Option.map_some, hpair]
  refine (State.ordered_of_acked hfree hacked _).trans ?_
  have hasid := State.asid_tlbOrdered (sc := sc) hc
  rw [Gpu.tlbOrdered] at hasid
  simp only [hasid]
  rfl

end

/-- An invalidation of a scratchpad address drops no translation. -/
theorem tlbinv_scratch {a : Reg} {o : Nat} (hs : Solo s u th p (a.run 2)) (hmode : th.mode = .trap)
    (hpair : region (th.pair a) = .scratch o) :
    Leaves s u (exec (.tlbinv p sc a) s)
      { th with pc := th.pc + BitVec.ofNat 64 s.gpu.cur.len, status := .parked (.inval sc none none), owes := true, rdfl := none }
      fun g => (g.release (s.gpu.env u).core u sc).tlbOrdered (s.gpu.env u).core u sc := by
  show Leaves s u (s.device fun g => g.sysWord p g.inTrap _) _ _
  rw [State.device_sysWord hs hmode]
  refine State.laneWord_invalidates_of_stores hs hun ((s.now.stores_release _ u sc).trans (Gpu.stores_tlbOrdered _ _ u sc)) ?_ rfl
  simp only [Gpu.tlbLane, Option.map_some, hpair]
  exact State.ordered_of_acked hfree hacked _

end

end

/-! ### Accesses held back -/

section
variable {s : State} {u : TRef} {th : Thread} {p : Pfx} {ch : BitVec 2} {ty : Ty} {vec : Vec} {ord : Ord4} {sc : Scope} {d a : Reg}
  {disp : Disp} {va : Nat} {l : Leaf}

/-- A bundle of one thread forms no whole-line store. -/
theorem Gpu.wholeLine_of_solo {g : Gpu} (hm : g.cur.members = [u]) (used : List Reg) : g.wholeLine p used a disp = none := by
  have hsort : sortLanes g.cur.members = [u] := by rw [hm]; rfl
  have hlanes : ∀ on : List (Nat × DWord), on.length ≤ 1 → (on.map (·.1) == List.range 32) = false := fun on hon => by
    refine beq_eq_false_iff_ne.mpr fun h => ?_
    have hlen := congrArg List.length h
    rw [List.length_map, List.length_range] at hlen
    omega
  unfold Gpu.wholeLine
  rw [hsort]
  generalize hon : List.filterMap _ [u] = on
  have hfew : on.length ≤ 1 := hon ▸ List.length_filterMap_le _ _
  simp only [hlanes on hfew, Bool.false_and, Bool.false_eq_true, if_false]

variable (hs : Solo s u th p (dataRegs d (accSize ty vec) ++ a.run 2)) (hheld : s.gpu.heldBack u = true)
  (haddr : th.address a disp = BitVec.ofNat 64 va)
include hs hheld haddr

theorem ld_held (hfits : Fits s u .read va (accSize ty vec) l) : Stays s (exec (.ld p ch ty vec ord sc d a disp) s) id := by
  have hreach := hfits.reach_held hheld (allow := .any) (al := accSize ty vec) (memAl := false) (by decide) (by simp)
  rw [← haddr] at hreach
  refine State.laneWord_held (g' := s.now.looked u .read va) hs ?_
  simp only [Gpu.loadLane, hreach]

theorem st_held (hfits : Fits s u .write va (accSize ty vec) l) : Stays s (exec (.st p ch ty vec ord sc d a disp) s) id := by
  have hreach := hfits.reach_held hheld (allow := .any) (al := accSize ty vec) (memAl := false) (by decide) (by simp)
  rw [← haddr] at hreach
  have hbytewise : exec (.st p ch ty vec ord sc d a disp) s =
      s.device fun g => g.laneWord p (dataRegs d (accSize ty vec) ++ a.run 2) (Gpu.storeLane ch (accSize ty vec) ord sc d a disp) := by
    have hwhole := Gpu.wholeLine_of_solo (g := s.now) (p := p) (a := a) (disp := disp) hs.1 (dataRegs d (accSize ty vec) ++ a.run 2)
    have hnone : (if accSize ty vec = 4 then s.now.wholeLine p (dataRegs d (accSize ty vec) ++ a.run 2) a disp else none) = none := by
      rw [hwhole, ite_self]
    refine State.device_congr ?_
    dsimp only
    split
    · rename_i x hx
      exact absurd (hnone.symm.trans hx) (by simp)
    · rfl
  rw [hbytewise]
  refine State.laneWord_held (g' := s.now.looked u .write va) hs ?_
  simp only [Gpu.storeLane, hreach]

end

/-! ### Prefetches -/

section
variable {s : State} {u : TRef} {th : Thread} {p : Pfx} {ch : BitVec 2} {a : Reg} {disp : Disp} {l2 : Bool}

/-- A lane that stores alone. -/
theorem State.laneWord_does_of_stores {used : List Reg} {f : Gpu → TRef → Env → Thread → Gpu × Fate} {g' : Gpu} {d : Gpu → Gpu}
    (hs : Solo s u th p used) (hun : Unreserved s) (hf : f s.now u (s.gpu.env u) th = (g', .done)) (hstores : s.now.Stores g')
    (hd : g'.rest = (d s.now).rest) : Does s (s.device fun g => g.laneWord p used f) th d := by
  obtain ⟨hm, hth, -, -, ⟨hk, hstill⟩, -⟩ := id hs
  have hsame : ∀ v, g'.thread? v = s.gpu.thread? v := fun v => hstores.thread? (hun v)
  exact State.laneWord_does hs hf hstores.cur (hstores.inUse _ hk) ((hsame u).trans hth) (fun v _ => hsame v)
    (hstill u (by rw [hm]; exact List.mem_cons_self) th hth) hd

theorem region_of_lt {x : DWord} (h : x.toNat < 0xFF0000000000) : region x = .mem x.toNat := if_pos h

theorem State.stores_looked {c : Ctx} (hc : s.gpu.ctx? (s.gpu.env u).ctx = some c) (acc : Access) (va : Nat) :
    s.now.Stores (s.now.looked u acc va) := by
  rw [Gpu.looked_of_ctx (g := s.now) hc]
  exact s.now.stores_translate _ c va acc

/-- Whether a leaf names a peer's page. -/
def Leaf.atPeer (l : Leaf) : Bool := match l.base.sp with | .peer _ _ => true | _ => false

theorem Leaf.atPeer_iff {l : Leaf} : l.atPeer = true ↔ ∃ e k, l.base.sp = .peer e k := by
  unfold Leaf.atPeer
  cases l.base.sp <;> simp

/-- Whether a prefetch brings no line into L1 (R210). -/
def Leaf.noFetch (l : Leaf) (ch : BitVec 2) (l2 full : Bool) : Bool := l2 || ch == 3 || l.cache != 0 || l.atPeer || full

theorem Leaf.noFetch_iff {l : Leaf} {ch : BitVec 2} {l2 full : Bool} : l.noFetch ch l2 full = true ↔
    (∃ e k, l.base.sp = .peer e k) ∨ l.cache ≠ 0 ∨ ch = 3 ∨ l2 = true ∨ full = true := by
  simp only [Leaf.noFetch, Bool.or_eq_true, Leaf.atPeer_iff, beq_iff_eq, bne_iff_ne]
  generalize (∃ e k, l.base.sp = .peer e k) = peer
  tauto

section
variable {g g' : Gpu} {e : Env} {c : Ctx} {va : Nat} (hregion : region (th.address a disp) = .mem va) (hctx : g.ctx? e.ctx = some c)
include hregion hctx

theorem Gpu.pfchLane_of_ok {l : Leaf} (htr : g.translate e.core c .read va = (g', .ok l)) :
    Gpu.pfchLane ch l2 a disp g u e th =
      (if l.noFetch ch l2 (g'.fillWait e.core false [l.phys va]).isSome then g' else g'.fillL1 e.core (l.attr.hinted ch).rank (l.phys va).line,
        .done) := by
  simp only [Gpu.pfchLane, hregion, hctx, htr]
  rfl

theorem Gpu.pfchLane_of_error {f : WalkFail} (htr : g.translate e.core c .read va = (g', .error f)) :
    Gpu.pfchLane ch l2 a disp g u e th = (g', .done) := by
  simp only [Gpu.pfchLane, hregion, hctx, htr]

end

variable (hs : Solo s u th p (a.run 2)) (hun : Unreserved s)
include hs hun

/-- A prefetch of an address outside memory does nothing. -/
theorem pfch_outside (haddr : 0xFF0000000000 ≤ (th.address a disp).toNat) : Does s (exec (.pfch p ch l2 a disp) s) th id := by
  refine State.laneWord_does_of_stores (g' := s.now) hs hun ?_ (.refl _) rfl
  have hregion : ∀ va, region (th.address a disp) ≠ .mem va := fun va => by
    rw [region, if_neg (by omega)]
    split <;> exact Region.noConfusion
  unfold Gpu.pfchLane
  split
  · rename_i va c hva hc
    exact absurd hva (hregion va)
  · rfl

variable {c : Ctx} (hc : s.gpu.ctx? (s.gpu.env u).ctx = some c) {n : Nat} (hn : (th.address a disp).toNat = n) (hmem : n < 0xFF0000000000)
include hc hn hmem

/-- A prefetch whose translation fails leaves the look-up alone. -/
theorem pfch_fails {f : WalkFail} (htr : (s.gpu.translate (s.gpu.env u).core c .read n).2 = .error f) :
    Does s (exec (.pfch p ch l2 a disp) s) th fun g => g.looked u .read n := by
  subst hn
  have hlook := Gpu.looked_of_ctx (g := s.now) (u := u) hc .read (th.address a disp).toNat
  have hfail : (s.now.translate (s.gpu.env u).core c .read (th.address a disp).toNat).2 = .error f :=
    (s.gpu.translate_clocked s.clk.cyc s.clk.ptp (s.gpu.env u).core c .read _).1.trans htr
  exact State.laneWord_does_of_stores (g' := s.now.looked u .read (th.address a disp).toNat) hs hun
    (Gpu.pfchLane_of_error (g := s.now) (region_of_lt hmem) hc (Prod.ext hlook.symm hfail)) (State.stores_looked hc _ _) rfl

/-- A prefetch whose translation is found brings the line into L1, if nothing keeps it from there. -/
theorem pfch_looks {l : Leaf} (htr : (s.gpu.translate (s.gpu.env u).core c .read n).2 = .ok l) :
    Does s (exec (.pfch p ch l2 a disp) s) th fun g =>
      if l.noFetch ch l2 ((s.gpu.looked u .read n).fillWait (s.gpu.env u).core false [l.phys n]).isSome then g.looked u .read n
      else (g.looked u .read n).fillL1 (s.gpu.env u).core (l.attr.hinted ch).rank (l.phys n).line := by
  subst hn
  obtain ⟨hnow, hclocked⟩ := State.translate_now hc htr
  rw [← hclocked] at hnow
  have hfull : (s.now.looked u .read (th.address a disp).toNat).fillWait (s.gpu.env u).core false [l.phys (th.address a disp).toNat] =
      (s.gpu.looked u .read (th.address a disp).toNat).fillWait (s.gpu.env u).core false [l.phys (th.address a disp).toNat] := by
    rw [hclocked]
    rfl
  refine State.laneWord_does_of_stores hs hun (Gpu.pfchLane_of_ok (g := s.now) (region_of_lt hmem) hc hnow) ?_ ?_
  · split
    · exact State.stores_looked hc _ _
    · exact (State.stores_looked hc _ _).trans (Gpu.stores_fillL1 _ _ _ _)
  · rw [hfull]

end

end Sys2Proof.Machine
end

section
/-! PROOFS. Fences, counter waits, prefetches and invalidations together (04 R112, R114, R115, R117, R127; 07 R209 to R211, R221; 14 R359). -/

namespace Sys2Proof.Machine

open Sys2Proof

set_option Elab.async false

theorem region_ofNat_of_lt {x : DWord} {va : Nat} (hx : x = BitVec.ofNat 64 va) (h : va < 0xFF0000000000) : region x = .mem va :=
  hx ▸ region_mem h

theorem region_ofNat_of_window {x : DWord} {va : Nat} (hx : x = BitVec.ofNat 64 va) (hlow : 0xFF0000000000 ≤ va) (hhigh : va < 0xFF0001000000) :
    region x = .scratch (va - 0xFF0000000000) := by
  have hva : x.toNat = va := by
    rw [hx, BitVec.toNat_ofNat]
    omega
  rw [region, hva, if_neg (by omega), if_pos (by omega)]

/-- Settles O29. How accesses are held back, that a late acquire is performed when the remote read's value comes, and that a fence waits for
a way in L2, are the model's choices (log 97); that `tlbinv` fences as `icinv` does is its reading (log 34). -/
theorem fencesPrefetchAndInvalidation : Obligations.FencesPrefetchAndInvalidation := by
  unfold Obligations.FencesPrefetchAndInvalidation
  intro s u th p ch ord sc a disp cls n va hun core beyond rel acq late free far parked
  have hrel : rel = fun g => g.release core u sc := by
    funext g
    cases sc <;> rfl
  have hacq : acq = fun g => g.acquire core sc := by
    funext g
    cases sc <;> rfl
  have hlate : ∀ g : Gpu, (if ord.acquires then late (g.acquire core sc) else g) = g.fenceAcquire core u ord sc := fun g => by
    cases ord <;> cases sc <;> rfl
  clear_value rel acq late
  subst hrel hacq
  refine ⟨fun hs => ⟨?_, wcnt_does hs, wcnt_waits hs, fun hfree hacked => ⟨?_, fun hmode c hc => ?_⟩⟩,
    fun hs hmode hpair hfree hacked => ⟨fun hva c hc => ?_, fun hlow hhigh => ?_⟩,
    fun ty vec d l hs hheld haddr => ⟨ld_held hs hheld haddr, st_held hs hheld haddr⟩, fun hs l2 => ?_⟩
  · intro owing th' fenced
    have hfenced : fenced = fun g => g.fenced core u ord sc := by
      funext g
      exact hlate _
    have howing : owing = s.owes u ord sc := rfl
    have hmarks : th' = th.awaits (s.owes u ord sc) := rfl
    clear_value fenced owing th'
    subst hfenced howing hmarks
    exact ⟨fun hready => ⟨fence_does hs hun hready, fence_leaves hs hun hready, fun t => fence_holdsBack hs hun hready⟩, fun k => fence_fills hs⟩
  · exact icinv_invalidates hun hfree hacked hs
  · have h := tlbinvAll_invalidates hun hfree hacked hc hs hmode
    simp only [Gpu.tlbDrop_eq] at h
    exact h
  · have h := tlbinv_invalidates hun hfree hacked hc hs hmode (region_ofNat_of_lt hpair hva)
    simp only [Gpu.tlbDrop_eq] at h
    exact h
  · exact tlbinv_scratch hun hfree hacked hs hmode (region_ofNat_of_window hpair hlow hhigh)
  · intro n
    refine ⟨pfch_outside hs hun, fun c hc hn => ?_⟩
    split
    · rename_i f htr
      exact pfch_fails hs hun hc rfl hn htr
    · rename_i l htr
      intro full
      have h := pfch_looks hs hun hc rfl hn htr (p := p) (ch := ch) (l2 := l2)
      refine ⟨fun hpeer hcache hch hl2 hfull => ?_, fun hnone => ?_⟩
      · have hfetch : l.noFetch ch l2 full.isSome = false := by
          rw [Bool.eq_false_iff, Ne, Leaf.noFetch_iff]
          rintro (⟨e, k, hsp⟩ | hkept | hhint | hl2' | hwait)
          · exact hpeer e k hsp
          · exact hkept hcache
          · exact hch hhint
          · exact Bool.false_ne_true (hl2.symm.trans hl2')
          · rw [hfull] at hwait
            exact Bool.false_ne_true hwait
        rw [hfetch] at h
        exact h
      · rw [Leaf.noFetch_iff.mpr hnone] at h
        exact h

end Sys2Proof.Machine
end
